-- ==== Sys2Proof/Word.lean ====
section
/-!
DEFINITION. The word types of the device and the plainest operations on them (00_scope.md R2, R4, R5).
-/
namespace Sys2Proof

/-- A byte (R2). -/
abbrev Byte := BitVec 8
/-- A doubleword: a scalar register, a control register (R2). -/
abbrev W64 := BitVec 64
/-- A 32-bit instruction or header word (R158, R162). -/
abbrev W32 := BitVec 32
/-- A halfword of code (R162). -/
abbrev H16 := BitVec 16
/-- A v-register: 512 bytes (R16). -/
abbrev VReg := BitVec 4096
/-- A predicate register (R16). -/
abbrev QReg := BitVec 1024

end Sys2Proof
end

