-- ==== Sys2Proof/Syntax.lean ====
section
/-!
DEFINITION. The syntax of the device's steps: one constructor for each row of spec/opcode_table.json. A row with an encoding
is an instruction word; a row without one is a step of the device (an engine command, an event): its operands, where it happens and what it carries, are
the At beside it, which a step takes from the move it makes (log entry 2). Constructors with operands come first. C words that name a control register with behaviour of its own (CRR or CRW of one address of Table 16-6) carry the
row of that register.
-/
namespace Sys2Proof

/-- The streams of a core, in the STREAM order of Table 16-3. -/
inductive Strm where
  | c | a | v | m
  deriving DecidableEq, Repr, Inhabited

/-- Scopes of Table 5-1. -/
inductive Scope where
  | core | cluster | die | pkg | ring | sys
  deriving DecidableEq, Repr, Inhabited

/-- Conditions of CSET and COND (Table 7-9). -/
inductive Cnd where
  | eq | ne | lt | ge | ltu | geu
  deriving DecidableEq, Repr, Inhabited

/-- Compare conditions of VCMP (Table 10-4). -/
inductive VCond where
  | eq | ne | lt | le | gt | ge | uo | od
  deriving DecidableEq, Repr, Inhabited

/-- Element types (Tables 6-1 and 6-3); codes 14 and 15 are not assigned. -/
inductive VTy where
  | i8 | i16 | i32 | n8 | n16 | n32 | f32 | bf16 | f16 | e4m3 | e5m2 | mx4 | i4 | n4
  deriving DecidableEq, Repr, Inhabited

/-- Rounding modes (Table 6-4). -/
inductive Rm where
  | rne | rtz | rdn | rup | rna | sr
  deriving DecidableEq, Repr, Inhabited

/-- A continuation record: its four doublewords (Table 2-2). -/
structure Rec where
  d0 : W64
  d1 : W64
  d2 : W64
  d3 : W64
  deriving DecidableEq, Repr, Inhabited

/-- The doublewords of an admission record that hold fields (Table 3-11). -/
structure AdmRec where
  d0 : W64
  d1 : W64
  d2 : W64
  deriving DecidableEq, Repr, Inhabited

/-- Link directions as error kind 0x33 numbers them (Table 21-6). -/
inductive LinkDir where
  | cwIn | cwOut | ccwIn | ccwOut | east | west
  deriving DecidableEq, Repr, Inhabited

/-- A parked access (Table 20-1): a stream of a core, a chain of a transfer engine, a plan's walker. -/
inductive ParkId where
  | stream (die core : Nat) (st : Strm)
  | chain (die cl eng ch : Nat)
  | walker (die place : Nat)
  deriving DecidableEq, Repr, Inhabited

/-- A write packet that arrives at an Ethernet port (R357): window, offset, consignment handle, tag fields, the number of
whole tiles of its entry that came before it, its peer and its bytes. -/
structure EthPacket where
  win : Nat
  off : Nat
  handle : BitVec 32
  tag : BitVec 16
  tinc : Bool
  tile0 : Nat
  peer : BitVec 128
  bytes : List Byte
  deriving DecidableEq, Repr, Inhabited

/-- The operands of a step that has no word: where it happens and what it carries. Each step's docstring says which it reads;
the others stay 0 or their defaults. -/
structure At where
  /-- Die of the ring: 8 * package place + die (R58, R81). -/
  die : Nat := 0
  /-- Core of the die (R15). -/
  core : Nat := 0
  /-- Cluster of the die, level of a queue, index in a list of things in flight or a queue, ring entry, slot, engine, chain,
  place, index of a cumulative acknowledgement and sub-index. -/
  cl : Nat := 0
  lvl : Nat := 0
  k : Nat := 0
  e : Nat := 0
  slot : Nat := 0
  eng : Nat := 0
  ch : Nat := 0
  place : Nat := 0
  idx : Nat := 0
  sub : Nat := 0
  /-- Whether a slot only takes its reception place or packets alone are acknowledged, an outcome is good, a coordinator place is meant, a segment is meant. -/
  full : Bool := false
  ok : Bool := false
  coord : Bool := false
  seg : Bool := false
  v : W64 := 0
  st : Strm := .c
  job : Rec := {d0 := 0, d1 := 0, d2 := 0, d3 := 0}
  adm : AdmRec := {d0 := 0, d1 := 0, d2 := 0}
  link : LinkDir := .cwIn
  park : ParkId := .stream 0 0 .c
  pk : EthPacket := {win := 0, off := 0, handle := 0, tag := 0, tinc := false, tile0 := 0, peer := 0, bytes := []}
  temp : BitVec 16 := 0
  pwr : BitVec 16 := 0
  idle : BitVec 8 := 0
  deriving DecidableEq, Repr, Inhabited

/-- The steps of the device. -/
inductive Instr where
  -- C-stream integer arithmetic (08 R193-R195)
  | cAdd (d a b : BitVec 5)
  | cSub (d a b : BitVec 5)
  | cAnd (d a b : BitVec 5)
  | cOr (d a b : BitVec 5)
  | cXor (d a b : BitVec 5)
  | andn (d a b : BitVec 5)
  | cShl (d a b : BitVec 5)
  | cShr (d a b : BitVec 5)
  | cSra (d a b : BitVec 5)
  | cMul (d a b : BitVec 5)
  | mulh (d a b : BitVec 5)
  | mulhu (d a b : BitVec 5)
  | div (d a b : BitVec 5)
  | divu (d a b : BitVec 5)
  | rem (d a b : BitVec 5)
  | remu (d a b : BitVec 5)
  | cMin (d a b : BitVec 5)
  | cMax (d a b : BitVec 5)
  | minu (d a b : BitVec 5)
  | maxu (d a b : BitVec 5)
  | clz (d a : BitVec 5)
  | popc (d a : BitVec 5)
  | seq (d a b : BitVec 5)
  | sne (d a b : BitVec 5)
  | cSlt (d a b : BitVec 5)
  | cSltu (d a b : BitVec 5)
  | sel (d a b : BitVec 5)
  | cAddi (d a : BitVec 5) (i : BitVec 16)
  | andi (d a : BitVec 5) (i : BitVec 16)
  | ori (d a : BitVec 5) (i : BitVec 16)
  | xori (d a : BitVec 5) (i : BitVec 16)
  | cShli (d a : BitVec 5) (n : BitVec 6)
  | cShri (d a : BitVec 5) (n : BitVec 6)
  | cSrai (d a : BitVec 5) (n : BitVec 6)
  | slti (d a : BitVec 5) (i : BitVec 16)
  | sltiu (d a : BitVec 5) (i : BitVec 16)
  | cLiz (d : BitVec 5) (i : BitVec 16) (p : BitVec 2)
  | cLik (d : BitVec 5) (i : BitVec 16) (p : BitVec 2)
  -- C-stream branches (R197, R198)
  | cBeqz (a : BitVec 5) (o : BitVec 16)
  | cBnez (a : BitVec 5) (o : BitVec 16)
  | cBltz (a : BitVec 5) (o : BitVec 16)
  | cBgez (a : BitVec 5) (o : BitVec 16)
  | cBlez (a : BitVec 5) (o : BitVec 16)
  | cBgtz (a : BitVec 5) (o : BitVec 16)
  | cJmp (o : BitVec 26)
  | call (o : BitVec 26)
  | jr (a : BitVec 5)
  | callr (a : BitVec 5)
  -- C-stream loads, stores, atomics, monitors (R199-R202)
  | cLdb (d a : BitVec 5) (o : BitVec 11)
  | cLdbu (d a : BitVec 5) (o : BitVec 11)
  | cLdh (d a : BitVec 5) (o : BitVec 11)
  | cLdhu (d a : BitVec 5) (o : BitVec 11)
  | cLdw (d a : BitVec 5) (o : BitVec 11)
  | cLdwu (d a : BitVec 5) (o : BitVec 11)
  | cLdd (d a : BitVec 5) (o : BitVec 11)
  | cStb (d a : BitVec 5) (o : BitVec 11)
  | cSth (d a : BitVec 5) (o : BitVec 11)
  | cStw (d a : BitVec 5) (o : BitVec 11)
  | cStd (d a : BitVec 5) (o : BitVec 11)
  | atadd (d a b : BitVec 5) (w : Bool)
  | atswp (d a b : BitVec 5) (w : Bool)
  | atcas (d a b : BitVec 5) (w : Bool)
  | atmin (d a b : BitVec 5) (w : Bool)
  | atmax (d a b : BitVec 5) (w : Bool)
  | atminu (d a b : BitVec 5) (w : Bool)
  | atmaxu (d a b : BitVec 5) (w : Bool)
  | arm (a : BitVec 5)
  -- hardware rings (R207-R211)
  | rinit (a b : BitVec 5)
  | rclaim (d a : BitVec 5)
  | rpub (a b : BitVec 5)
  | rwfill (a b : BitVec 5)
  | rtake (d a b : BitVec 5)
  | rwfree (a b : BitVec 5)
  | reos (a : BitVec 5)
  -- sync objects and fences (R203-R206)
  | bind (d a b : BitVec 5) (v : Bool)
  | acq (d a : BitVec 5) (s : Scope) (v : Bool)
  | rel (a b : BitVec 5) (s : Scope) (v : Bool)
  | fence (s : Scope)
  | fenceFlagged (a b : BitVec 5) (s : Scope) (v : Bool)
  -- job control (R212-R217)
  | spawn (a : BitVec 5)
  | join (a b : BitVec 5)
  | exit (a : BitVec 5)
  | yield (a : BitVec 5)
  | segw (d a b : BitVec 5)
  -- engine pushes (R218-R221)
  | mxq (a b : BitVec 5)
  | mxd (n : BitVec 3) (a b : BitVec 5)
  | xfc (a b : BitVec 5)
  | evx (a b : BitVec 5)
  | cplan (d a : BitVec 5)
  | ctrig (a b : BitVec 5)
  -- consignments (R222)
  | cseal (d a b : BitVec 5)
  | cmani (a b : BitVec 5)
  | cabort (a : BitVec 5)
  -- control registers and system forms (R223-R225)
  | crr (d : BitVec 5) (c : BitVec 12)
  | crw (d : BitVec 5) (c : BitVec 12)
  | trap (c : BitVec 6)
  | tlbiPage (a : BitVec 5)
  | tlbiAsid (a : BitVec 5)
  | tlbiAll (a : BitVec 5)
  -- C-stream 16-bit words (R196)
  | c16Mov (d a : BitVec 5)
  | c16Add (d a : BitVec 5)
  | c16Sub (d a : BitVec 5)
  | c16And (d a : BitVec 5)
  | c16Or (d a : BitVec 5)
  | c16Xor (d a : BitVec 5)
  | c16Addi (d : BitVec 5) (i : BitVec 6)
  | c16Liz (d : BitVec 5) (i : BitVec 6)
  | c16Shli (d : BitVec 5) (n : BitVec 6)
  | c16Shri (d : BitVec 5) (n : BitVec 6)
  | c16Srai (d : BitVec 5) (n : BitVec 6)
  | c16Ldd (d a : BitVec 5)
  | c16Std (d a : BitVec 5)
  -- A-stream arithmetic (09 R230)
  | aAdd (d a b : BitVec 4)
  | aSub (d a b : BitVec 4)
  | aAnd (d a b : BitVec 4)
  | aOr (d a b : BitVec 4)
  | aXor (d a b : BitVec 4)
  | aShl (d a b : BitVec 4)
  | aShr (d a b : BitVec 4)
  | aSra (d a b : BitVec 4)
  | aMul (d a b : BitVec 4)
  | aMin (d a b : BitVec 4)
  | aMax (d a b : BitVec 4)
  | aSlt (d a b : BitVec 4)
  | aSltu (d a b : BitVec 4)
  | aAddi (d a : BitVec 4) (i : BitVec 14)
  | aLiz (d : BitVec 4) (i : BitVec 16) (p : BitVec 2)
  | aLik (d : BitVec 4) (i : BitVec 16) (p : BitVec 2)
  | aShli (d a : BitVec 4) (n : BitVec 6)
  | aShri (d a : BitVec 4) (n : BitVec 6)
  | aSrai (d a : BitVec 4) (n : BitVec 6)
  -- A-stream queue words (R234-R243)
  | ldq (a b : BitVec 4) (q : BitVec 3) (k : BitVec 2) (n : BitVec 9)
  | ldq2 (a b : BitVec 4) (q : BitVec 3) (k : BitVec 2) (s : BitVec 9)
  | stq (a b : BitVec 4) (q k : BitVec 2) (n : BitVec 9)
  | stqnt (a b : BitVec 4) (q k : BitVec 2) (n : BitVec 9)
  | gather (a b : BitVec 4) (q : BitVec 3) (k : BitVec 2) (e : BitVec 9)
  | scatter (a b : BitVec 4) (q k : BitVec 2) (e : BitVec 9)
  | ldsr (a : BitVec 4) (q : BitVec 3) (k : BitVec 2)
  | pfc (a b : BitVec 4) (k : BitVec 2)
  -- A-stream single accesses (R232, R244)
  | aLdb (d a : BitVec 4) (k : BitVec 2) (o : BitVec 9)
  | aLdbu (d a : BitVec 4) (k : BitVec 2) (o : BitVec 9)
  | aLdh (d a : BitVec 4) (k : BitVec 2) (o : BitVec 9)
  | aLdhu (d a : BitVec 4) (k : BitVec 2) (o : BitVec 9)
  | aLdw (d a : BitVec 4) (k : BitVec 2) (o : BitVec 9)
  | aLdwu (d a : BitVec 4) (k : BitVec 2) (o : BitVec 9)
  | aLdd (d a : BitVec 4) (k : BitVec 2) (o : BitVec 9)
  | aStb (a b : BitVec 4) (k : BitVec 2) (o : BitVec 9)
  | aSth (a b : BitVec 4) (k : BitVec 2) (o : BitVec 9)
  | aStw (a b : BitVec 4) (k : BitVec 2) (o : BitVec 9)
  | aStd (a b : BitVec 4) (k : BitVec 2) (o : BitVec 9)
  | sqp (b : BitVec 4)
  | ldsq (a : BitVec 4) (k : BitVec 2) (o : BitVec 9)
  -- A-stream branches and conditions (R231)
  | aBeqz (a : BitVec 4) (o : BitVec 14)
  | aBnez (a : BitVec 4) (o : BitVec 14)
  | aBltz (a : BitVec 4) (o : BitVec 14)
  | aBgez (a : BitVec 4) (o : BitVec 14)
  | aBlez (a : BitVec 4) (o : BitVec 14)
  | aBgtz (a : BitVec 4) (o : BitVec 14)
  | aJmp (o : BitVec 22)
  | cset (d a b : BitVec 4) (c : Cnd)
  -- A-stream 16-bit words (R229)
  | a16Add (d a : BitVec 4)
  | a16Sub (d a : BitVec 4)
  | a16Addi (d : BitVec 4) (i : BitVec 8)
  | a16Mov (d a : BitVec 4)
  | a16Shli (d n : BitVec 4)
  | a16Liz (d : BitVec 4) (i : BitVec 8)
  -- V-stream arithmetic (10 R253-R266, 11 R283, R284)
  | vnop (c : BitVec 18)
  | vadd (d a b : BitVec 6) (q : BitVec 3) (t : VTy)
  | vsub (d a b : BitVec 6) (q : BitVec 3) (t : VTy)
  | vmul (d a b : BitVec 6) (q : BitVec 3) (t : VTy)
  | vmulh (d a b : BitVec 6) (q : BitVec 3) (t : VTy)
  | vfma (d a b : BitVec 6) (q : BitVec 3) (t : VTy)
  | vfms (d a b : BitVec 6) (q : BitVec 3) (t : VTy)
  | vmin (d a b : BitVec 6) (q : BitVec 3) (t : VTy)
  | vmax (d a b : BitVec 6) (q : BitVec 3) (t : VTy)
  | vand (d a b : BitVec 6) (q : BitVec 3) (t : VTy)
  | vor (d a b : BitVec 6) (q : BitVec 3) (t : VTy)
  | vxor (d a b : BitVec 6) (q : BitVec 3) (t : VTy)
  | vshl (d a b : BitVec 6) (q : BitVec 3) (t : VTy)
  | vshr (d a b : BitVec 6) (q : BitVec 3) (t : VTy)
  | vadds (d a b : BitVec 6) (q : BitVec 3) (t : VTy)
  | vsubs (d a b : BitVec 6) (q : BitVec 3) (t : VTy)
  | vabs (d a : BitVec 6) (q : BitVec 3) (t : VTy)
  | vneg (d a : BitVec 6) (q : BitVec 3) (t : VTy)
  | vnot (d a : BitVec 6) (q : BitVec 3) (t : VTy)
  | vmov (d a : BitVec 6) (q : BitVec 3)
  | vexp2 (d a : BitVec 6) (q : BitVec 3) (t : VTy)
  | vlog2 (d a : BitVec 6) (q : BitVec 3) (t : VTy)
  | vrcp (d a : BitVec 6) (q : BitVec 3) (t : VTy)
  | vrsq (d a : BitVec 6) (q : BitVec 3) (t : VTy)
  | vrcpf (d a : BitVec 6) (q : BitVec 3)
  | vrsqf (d a : BitVec 6) (q : BitVec 3)
  | vclz (d a : BitVec 6) (q : BitVec 3) (t : VTy)
  | vpopc (d a : BitVec 6) (q : BitVec 3) (t : VTy)
  | vcmp (c : VCond) (p : BitVec 3) (a b : BitVec 6) (q : BitVec 3) (t : VTy)
  | vsel (d a b : BitVec 6) (q : BitVec 3) (t : VTy)
  | pand (d a b : BitVec 3)
  | por (d a b : BitVec 3)
  | pxor (d a b : BitVec 3)
  | pandn (d a b : BitVec 3)
  | pnot (d a : BitVec 3)
  | vcvt (d a : BitVec 6) (s : VTy) (r : Rm) (t : VTy)
  | vqmx (d a b : BitVec 6) (q : BitVec 3) (t : VTy)
  | vdqmx (d : BitVec 4) (a b : BitVec 6) (q : BitVec 3) (t : VTy)
  -- V-stream data words (11 R268-R282)
  | vrsum (d a : BitVec 6) (q : BitVec 3) (t : VTy)
  | vrmax (d a : BitVec 6) (q : BitVec 3) (t : VTy)
  | vrmin (d a : BitVec 6) (q : BitVec 3) (t : VTy)
  | vrargmax (d a : BitVec 6) (q : BitVec 3) (t : VTy)
  | vperm (d a b : BitVec 6) (q : BitVec 3) (t : VTy)
  | vshuf (d a p : BitVec 6) (q : BitVec 3) (t : VTy)
  | vzip (d : BitVec 5) (a b : BitVec 6) (q : BitVec 3) (t : VTy)
  | vunzip (d : BitVec 5) (a b : BitVec 6) (q : BitVec 3) (t : VTy)
  | vbcast (d a b : BitVec 6) (q : BitVec 3) (t : VTy)
  | vslideu (d a c : BitVec 6) (q : BitVec 3) (t : VTy)
  | vslided (d a c : BitVec 6) (q : BitVec 3) (t : VTy)
  | vwiden (d a : BitVec 6) (u : VTy) (f : BitVec 2) (q : BitVec 3) (t : VTy)
  | vnarrow (d a : BitVec 6) (s : VTy) (m : Bool) (q : BitVec 3) (t : VTy)
  | vpop (d : BitVec 6) (q x : BitVec 3)
  | vpush (q : BitVec 2) (a : BitVec 6)
  | vsett (x : BitVec 3) (a : BitVec 6)
  | vldc (k : BitVec 4) (a : BitVec 6)
  | vrot (n : BitVec 5)
  | viota (d a b : BitVec 6) (q : BitVec 3) (t : VTy)
  -- C words on control registers with behaviour of their own, and transfer engines (13)
  | mswait (d : BitVec 5)
  | mssig (d : BitVec 5)
  | xevwait (d : BitVec 5)
  | xevsig (d : BitVec 5)
  | rago (d : BitVec 5)
  | rares (d : BitVec 5)
  | sq (d : BitVec 5)
  | cnopen (d : BitVec 5)
  | cncur (d : BitVec 5)
  | cnbind (d : BitVec 5)
  -- ring station, registers and ring events (03, 20, 21)
  | rqfin (d : BitVec 5)
  | kvcfgWrite (d : BitVec 5)
  | mdcfgWrite (d : BitVec 5)
  | mnqCiWrite (d : BitVec 5)
  | wload (d : BitVec 5)
  | dcnt (d : BitVec 5) (hi : Bool)
  | therm (d : BitVec 5)
  -- Ethernet, telemetry, reset and the rest
  | rsttlenWrite (d : BitVec 5)
  | cqcfgWrite (d : BitVec 5)
  | scrcfgRead (d : BitVec 5)
  -- C-stream loads, stores, atomics, monitors (R199-R202)
  | waite
  -- job control (R212-R217)
  | rdv
  -- control registers and system forms (R223-R225)
  | eretReturn
  | eretResume
  -- C-stream 16-bit words (R196)
  | c16Nop
  -- A-stream 16-bit words (R229)
  | a16Nop
  -- V-stream arithmetic (10 R253-R266, 11 R283, R284)
  | realn
  -- steps of streams and jobs
  | writeBackLanding
  | realnBoundary
  | blockFetch
  | accessPerform
  | waiteWake
  | rdvComplete
  | exitEnd
  | yieldEnd
  | segwComplete
  | ringWaitComplete
  | queueWaitComplete
  | jobTake
  | recordPromotion
  | heldPushEntry
  | recordWindowStore
  | admissionWindowStore
  | admissionHeldEntry
  | allocationWindowRead
  | launchEntryFire
  | preempt
  | preemptionFreeze
  | engineFaultDelivery
  -- matrix engine commands (12)
  | descriptorLoad
  | mnop
  | mma
  | mmax
  | zeroz
  | loadz
  | storez
  | drainz
  | drainq
  | glz
  | atsc
  | atsoInit
  | atsoUpdate
  | atsoFinal
  | atsoMass
  | atav
  | atmc
  | matrixCommandComplete
  -- C words on control registers with behaviour of their own, and transfer engines (13)
  | chainStart
  | copy
  | copynd
  | mcast
  | fill
  | kvmove
  | kvshare
  | promote
  | demote
  | kvmark
  | loop
  | cond
  | note
  | waitev
  | commandRetire
  | evscan
  | evcompact
  | evdecay
  -- ring station, registers and ring events (03, 20, 21)
  | ringStationRun
  | ringStationStop
  | wloadComplete
  | rpair
  | bypass
  | tagPresentation
  | dispatchRound1
  | frameClose
  | segmentLanding
  | landingAcknowledgement
  | ackTimeoutResend
  | slotPark
  | parkRetry
  | scrub
  -- fabric, plans and consignments (14, 15, 21)
  | postedWrite
  | slotReinject
  | readRequest
  | readResponse
  | acknowledgement
  | remoteAtomic
  | atomicResult
  | planTransfer
  | consignmentStore
  | timing
  | sync
  | failureNotice
  | slotResendRequest
  | linkError
  | linkRetrainEnd
  | mergedWrite
  | triggerWrite
  | planFiringStart
  | planFiringComplete
  | planStall
  | planHoldNotice
  | planReleaseNotice
  | holdCeilingExpiry
  | planAbortNotice
  | manifestEntry
  | confirmation
  | publishTime
  | publish
  | bondDrain
  | censusNotice
  | abortRequest
  | abortNotice
  | cnwaitExpiry
  | destinationHoldExpiry
  -- Ethernet, telemetry, reset and the rest
  | ethernetSend
  | ethernetWrite
  | ethernetAck
  | contextTeardown
  | ethernetLinkDown
  | ethernetAckTimeout
  | telemetryUpdate
  | deviceReset
  | attestationRequest
  | ringcfgWrite
  | combiningBufferExpiry
  | orphanPlaceDiscard
  | negativeAcknowledgement
  | planReservation
  deriving DecidableEq, Repr, Inhabited

/-- What may happen next on the device: a stream of a core issues its next word; a step without a word happens; time passes;
the companion or root firmware, which are not cores of the part, act (00_scope.md; log entry 1). -/
inductive Move where
  /-- A stream of a core issues (R26, R189). -/
  | issue (die core : Nat) (st : Strm)
  /-- A step of the opcode table without a word. -/
  | event (i : Instr) (a : At)
  /-- The ring tick advances by a count of nanoseconds (R22). -/
  | pass (ns : Nat)
  /-- The companion stores bytes at a physical address over TXL (R386, R391). -/
  | companion (pa : Nat) (bytes : List Byte)
  /-- The companion reads n bytes at a physical address over TXL (R386). -/
  | companionRead (pa n : Nat)
  /-- Root firmware of a die writes a control register, for TROOT that of a core (R376, R384). -/
  | root (die core addr : Nat) (v : W64)
  /-- A soft error falls on a byte of memory: correctable, or not (R424, R425). -/
  | soft (pa : Nat) (bad : Bool)
  deriving DecidableEq, Repr, Inhabited

end Sys2Proof
end

