-- ==== Sys2Proof/Machine/Types.lean ====
section
/-!
DEFINITION. The field codes of the instruction words: scopes, conditions, element types, rounding modes, the type sets of
Table 7-11, and the control addresses that Table 16-6 assigns. Each code function has its inverse beside it.
-/
namespace Sys2Proof.Machine

/-- Scope codes (Table 5-1); 6 and 7 are refused by decode (R109). -/
def scopeCode : Scope → BitVec 3
  | .core => 0 | .cluster => 1 | .die => 2 | .pkg => 3 | .ring => 4 | .sys => 5
/-- The scope of a code (Table 5-1). -/
def scopeOf (c : BitVec 3) : Option Scope :=
  match c.toNat with
  | 0 => some .core | 1 => some .cluster | 2 => some .die | 3 => some .pkg | 4 => some .ring | 5 => some .sys | _ => none

/-- Condition codes of CSET and COND (Table 7-9, R231). -/
def cndCode : Cnd → BitVec 3
  | .eq => 0 | .ne => 1 | .lt => 2 | .ge => 3 | .ltu => 4 | .geu => 5
/-- The condition of a code (R231). -/
def cndOf (c : BitVec 3) : Option Cnd :=
  match c.toNat with
  | 0 => some .eq | 1 => some .ne | 2 => some .lt | 3 => some .ge | 4 => some .ltu | 5 => some .geu | _ => none

/-- Compare conditions of VCMP (Table 10-4). -/
def vcondCode : VCond → BitVec 3
  | .eq => 0 | .ne => 1 | .lt => 2 | .le => 3 | .gt => 4 | .ge => 5 | .uo => 6 | .od => 7
/-- The compare condition of a code (Table 10-4): every code is assigned. -/
def vcondOf (c : BitVec 3) : VCond :=
  match c.toNat with
  | 0 => .eq | 1 => .ne | 2 => .lt | 3 => .le | 4 => .gt | 5 => .ge | 6 => .uo | _ => .od

/-- Type codes (Tables 6-1 and 6-3). -/
def vtyCode : VTy → BitVec 4
  | .i8 => 0 | .i16 => 1 | .i32 => 2 | .n8 => 3 | .n16 => 4 | .n32 => 5 | .f32 => 6 | .bf16 => 7 | .f16 => 8
  | .e4m3 => 9 | .e5m2 => 10 | .mx4 => 11 | .i4 => 12 | .n4 => 13
/-- The type of a code; 14 and 15 are not assigned (R167). -/
def vtyOf (c : BitVec 4) : Option VTy :=
  match c.toNat with
  | 0 => some .i8 | 1 => some .i16 | 2 => some .i32 | 3 => some .n8 | 4 => some .n16 | 5 => some .n32 | 6 => some .f32
  | 7 => some .bf16 | 8 => some .f16 | 9 => some .e4m3 | 10 => some .e5m2 | 11 => some .mx4 | 12 => some .i4
  | 13 => some .n4 | _ => none

/-- Rounding-mode codes (Table 6-4). -/
def rmCode : Rm → BitVec 3
  | .rne => 0 | .rtz => 1 | .rdn => 2 | .rup => 3 | .rna => 4 | .sr => 5
/-- The rounding mode of a code; 6 and 7 are refused by decode (R142). -/
def rmOf (c : BitVec 3) : Option Rm :=
  match c.toNat with
  | 0 => some .rne | 1 => some .rtz | 2 => some .rdn | 3 => some .rup | 4 => some .rna | 5 => some .sr | _ => none

/-- Width of an element type in bits (Tables 6-1 and 6-3). -/
def vtyWidth : VTy → Nat
  | .i8 | .n8 | .e4m3 | .e5m2 => 8
  | .i16 | .n16 | .bf16 | .f16 => 16
  | .i32 | .n32 | .f32 => 32
  | .mx4 | .i4 | .n4 => 4

/-- Is the type one of f32, f16 and bf16: the set F of R179? -/
def isF : VTy → Bool
  | .f32 | .f16 | .bf16 => true
  | _ => false
/-- The set I of R179. -/
def isI : VTy → Bool
  | .i8 | .i16 | .i32 | .n8 | .n16 | .n32 => true
  | _ => false
/-- The set S of R179: the signed members of I. -/
def isS : VTy → Bool
  | .i8 | .i16 | .i32 => true
  | _ => false
/-- Is the type an integer type read as signed (R140)? -/
def isSigned : VTy → Bool
  | .i8 | .i16 | .i32 | .i4 => true
  | _ => false
/-- Is the type an integer type (R140)? -/
def isInt (t : VTy) : Bool := isI t || t == .i4 || t == .n4
/-- F or I. -/
def isFI (t : VTy) : Bool := isF t || isI t
/-- F or S, the types of VABS and VNEG (Table 10-3). -/
def isFS (t : VTy) : Bool := isF t || isS t
/-- The source types of VWIDEN and the destination types of VNARROW (Table 7-11). -/
def isI4 (t : VTy) : Bool := isI t || t == .i4 || t == .n4
/-- The types VCVT takes on either side: every assigned type but mx4 (R263). -/
def isCvt (t : VTy) : Bool := t != .mx4

/-- VWIDEN's factor: code 1 a pair, 2 a quad (R273). -/
def widenK (f : BitVec 2) : Nat := if f = 1 then 2 else 4
/-- The source/destination pairs of Table 11-3. -/
def widenOk (src dst : VTy) (f : BitVec 2) : Bool :=
  isI4 src && isI dst && (isSigned src == isSigned dst) && vtyWidth dst == widenK f * vtyWidth src
/-- The width ratios of VNARROW (R274). -/
def narrowK (dst src : VTy) : Nat := vtyWidth src / vtyWidth dst
/-- The type pairs of VNARROW (R274). -/
def narrowOk (dst src : VTy) : Bool :=
  isI4 dst && isI src && (vtyWidth src == 2 * vtyWidth dst || vtyWidth src == 4 * vtyWidth dst)

/-- The control addresses that Table 16-6 assigns (R384). -/
def ctlAssigned (n : Nat) : Bool :=
  n ≤ 0x017 || (0x100 ≤ n && n ≤ 0x106) || (0x110 ≤ n && n ≤ 0x11F) || (0x200 ≤ n && n ≤ 0x202) ||
  (0x300 ≤ n && n ≤ 0x31E) || (0x400 ≤ n && n ≤ 0x42F)

/-- The control addresses whose CRR is a step of its own: SQ, RARES, SCRCFG, DCNT (rows SQ, RARES, SCRCFG_READ, DCNT). -/
def crrOwn (n : Nat) : Bool := n == 0x002 || n == 0x00D || n == 0x318 || n == 0x31C || n == 0x31D

/-- The control addresses whose CRW is a step of its own (the rows MSWAIT to THERM of the table). -/
def crwOwn (n : Nat) : Bool :=
  n == 0x004 || n == 0x005 || n == 0x008 || n == 0x009 || n == 0x00C || n == 0x00E || n == 0x00F || n == 0x010 ||
  n == 0x012 || n == 0x200 || n == 0x304 || n == 0x305 || n == 0x306 || n == 0x30D || n == 0x31B || n == 0x31E

end Sys2Proof.Machine
end

