-- ==== Sys2Proof/WellFormed.lean ====
section
/-!
DEFINITION. Which instructions are well formed: for a word, the fields that decode accepts (R182 and the entries). A step without a word
has no fields.
-/
namespace Sys2Proof

open Sys2Proof.Machine

/-- Well-formed instructions. -/
def Instr.wf : Instr → Bool
  | .cAdd _ _ _ => true
  | .cSub _ _ _ => true
  | .cAnd _ _ _ => true
  | .cOr _ _ _ => true
  | .cXor _ _ _ => true
  | .andn _ _ _ => true
  | .cShl _ _ _ => true
  | .cShr _ _ _ => true
  | .cSra _ _ _ => true
  | .cMul _ _ _ => true
  | .mulh _ _ _ => true
  | .mulhu _ _ _ => true
  | .div _ _ _ => true
  | .divu _ _ _ => true
  | .rem _ _ _ => true
  | .remu _ _ _ => true
  | .cMin _ _ _ => true
  | .cMax _ _ _ => true
  | .minu _ _ _ => true
  | .maxu _ _ _ => true
  | .clz _ _ => true
  | .popc _ _ => true
  | .seq _ _ _ => true
  | .sne _ _ _ => true
  | .cSlt _ _ _ => true
  | .cSltu _ _ _ => true
  | .sel _ _ _ => true
  | .cAddi _ _ _ => true
  | .andi _ _ _ => true
  | .ori _ _ _ => true
  | .xori _ _ _ => true
  | .cShli _ _ _ => true
  | .cShri _ _ _ => true
  | .cSrai _ _ _ => true
  | .slti _ _ _ => true
  | .sltiu _ _ _ => true
  | .cLiz _ _ _ => true
  | .cLik _ _ _ => true
  | .cBeqz _ _ => true
  | .cBnez _ _ => true
  | .cBltz _ _ => true
  | .cBgez _ _ => true
  | .cBlez _ _ => true
  | .cBgtz _ _ => true
  | .cJmp _ => true
  | .call _ => true
  | .jr _ => true
  | .callr _ => true
  | .cLdb _ _ _ => true
  | .cLdbu _ _ _ => true
  | .cLdh _ _ _ => true
  | .cLdhu _ _ _ => true
  | .cLdw _ _ _ => true
  | .cLdwu _ _ _ => true
  | .cLdd _ _ _ => true
  | .cStb _ _ _ => true
  | .cSth _ _ _ => true
  | .cStw _ _ _ => true
  | .cStd _ _ _ => true
  | .atadd _ _ _ _ => true
  | .atswp _ _ _ _ => true
  | .atcas _ _ _ _ => true
  | .atmin _ _ _ _ => true
  | .atmax _ _ _ _ => true
  | .atminu _ _ _ _ => true
  | .atmaxu _ _ _ _ => true
  | .arm _ => true
  | .rinit _ _ => true
  | .rclaim _ _ => true
  | .rpub _ _ => true
  | .rwfill _ _ => true
  | .rtake _ _ _ => true
  | .rwfree _ _ => true
  | .reos _ => true
  | .bind _ _ _ _ => true
  | .acq _ _ _ _ => true
  | .rel _ _ _ _ => true
  | .fence _ => true
  | .fenceFlagged _ _ _ _ => true
  | .spawn _ => true
  | .join _ _ => true
  | .exit _ => true
  | .yield _ => true
  | .segw _ _ _ => true
  | .mxq _ _ => true
  | .mxd _ _ _ => true
  | .xfc _ _ => true
  | .evx _ _ => true
  | .cplan _ _ => true
  | .ctrig _ _ => true
  | .cseal _ _ _ => true
  | .cmani _ _ => true
  | .cabort _ => true
  | .crr _ c => ctlAssigned c.toNat && !crrOwn c.toNat
  | .crw _ c => ctlAssigned c.toNat && !crwOwn c.toNat
  | .trap _ => true
  | .tlbiPage _ => true
  | .tlbiAsid _ => true
  | .tlbiAll _ => true
  | .c16Mov _ _ => true
  | .c16Add _ _ => true
  | .c16Sub _ _ => true
  | .c16And _ _ => true
  | .c16Or _ _ => true
  | .c16Xor _ _ => true
  | .c16Addi _ _ => true
  | .c16Liz _ _ => true
  | .c16Shli _ _ => true
  | .c16Shri _ _ => true
  | .c16Srai _ _ => true
  | .c16Ldd _ _ => true
  | .c16Std _ _ => true
  | .aAdd _ _ _ => true
  | .aSub _ _ _ => true
  | .aAnd _ _ _ => true
  | .aOr _ _ _ => true
  | .aXor _ _ _ => true
  | .aShl _ _ _ => true
  | .aShr _ _ _ => true
  | .aSra _ _ _ => true
  | .aMul _ _ _ => true
  | .aMin _ _ _ => true
  | .aMax _ _ _ => true
  | .aSlt _ _ _ => true
  | .aSltu _ _ _ => true
  | .aAddi _ _ _ => true
  | .aLiz _ _ _ => true
  | .aLik _ _ _ => true
  | .aShli _ _ _ => true
  | .aShri _ _ _ => true
  | .aSrai _ _ _ => true
  | .ldq _ _ _ _ _ => true
  | .ldq2 _ _ _ _ s => (s.extractLsb' 6 3).toNat < 4
  | .stq _ _ _ _ _ => true
  | .stqnt _ _ _ _ _ => true
  | .gather _ _ _ _ e => e.toNat < 5
  | .scatter _ _ _ _ e => e.toNat < 5
  | .ldsr _ _ _ => true
  | .pfc _ _ _ => true
  | .aLdb _ _ _ _ => true
  | .aLdbu _ _ _ _ => true
  | .aLdh _ _ _ _ => true
  | .aLdhu _ _ _ _ => true
  | .aLdw _ _ _ _ => true
  | .aLdwu _ _ _ _ => true
  | .aLdd _ _ _ _ => true
  | .aStb _ _ _ _ => true
  | .aSth _ _ _ _ => true
  | .aStw _ _ _ _ => true
  | .aStd _ _ _ _ => true
  | .sqp _ => true
  | .ldsq _ _ _ => true
  | .aBeqz _ _ => true
  | .aBnez _ _ => true
  | .aBltz _ _ => true
  | .aBgez _ _ => true
  | .aBlez _ _ => true
  | .aBgtz _ _ => true
  | .aJmp _ => true
  | .cset _ _ _ _ => true
  | .a16Add _ _ => true
  | .a16Sub _ _ => true
  | .a16Addi _ _ => true
  | .a16Mov _ _ => true
  | .a16Shli _ _ => true
  | .a16Liz _ _ => true
  | .vnop _ => true
  | .vadd _ _ _ _ t => isFI t
  | .vsub _ _ _ _ t => isFI t
  | .vmul _ _ _ _ t => isFI t
  | .vmulh _ _ _ _ t => isI t
  | .vfma _ _ _ _ t => isFI t
  | .vfms _ _ _ _ t => isFI t
  | .vmin _ _ _ _ t => isFI t
  | .vmax _ _ _ _ t => isFI t
  | .vand _ _ _ _ t => isI t
  | .vor _ _ _ _ t => isI t
  | .vxor _ _ _ _ t => isI t
  | .vshl _ _ _ _ t => isI t
  | .vshr _ _ _ _ t => isI t
  | .vadds _ _ _ _ t => isI t
  | .vsubs _ _ _ _ t => isI t
  | .vabs _ _ _ t => isFS t
  | .vneg _ _ _ t => isFS t
  | .vnot _ _ _ t => isI t
  | .vmov _ _ _ => true
  | .vexp2 _ _ _ t => isF t
  | .vlog2 _ _ _ t => isF t
  | .vrcp _ _ _ t => isF t
  | .vrsq _ _ _ t => isF t
  | .vrcpf _ _ _ => true
  | .vrsqf _ _ _ => true
  | .vclz _ _ _ t => isI t
  | .vpopc _ _ _ t => isI t
  | .vcmp c _ _ _ _ t => isFI t && (isF t || (c != .uo && c != .od))
  | .vsel _ _ _ _ _ => true
  | .pand _ _ _ => true
  | .por _ _ _ => true
  | .pxor _ _ _ => true
  | .pandn _ _ _ => true
  | .pnot _ _ => true
  | .vcvt _ _ s _ t => isCvt t && isCvt s && t != s
  | .vqmx _ _ _ _ t => isF t
  | .vdqmx _ _ _ _ t => isF t
  | .vrsum _ _ _ t => isFI t
  | .vrmax _ _ _ t => isFI t
  | .vrmin _ _ _ t => isFI t
  | .vrargmax _ _ _ t => isFI t
  | .vperm _ _ _ _ _ => true
  | .vshuf _ _ p _ _ => p.toNat < 12
  | .vzip _ _ _ _ _ => true
  | .vunzip _ _ _ _ _ => true
  | .vbcast _ _ _ _ _ => true
  | .vslideu _ _ _ _ _ => true
  | .vslided _ _ _ _ _ => true
  | .vwiden d _ u f _ t => (f == 1 || f == 2) && widenOk t u f && d.toNat % widenK f == 0
  | .vnarrow _ a s _ _ t => narrowOk t s && a.toNat % narrowK t s == 0
  | .vpop _ _ _ => true
  | .vpush _ _ => true
  | .vsett x _ => x != 0
  | .vldc _ _ => true
  | .vrot _ => true
  | .viota _ _ _ _ t => isI t
  | .mswait _ => true
  | .mssig _ => true
  | .xevwait _ => true
  | .xevsig _ => true
  | .rago _ => true
  | .rares _ => true
  | .sq _ => true
  | .cnopen _ => true
  | .cncur _ => true
  | .cnbind _ => true
  | .rqfin _ => true
  | .kvcfgWrite _ => true
  | .mdcfgWrite _ => true
  | .mnqCiWrite _ => true
  | .wload _ => true
  | .dcnt _ _ => true
  | .therm _ => true
  | .rsttlenWrite _ => true
  | .cqcfgWrite _ => true
  | .scrcfgRead _ => true
  | .waite => true
  | .rdv => true
  | .eretReturn => true
  | .eretResume => true
  | .c16Nop => true
  | .a16Nop => true
  | .realn => true
  | .writeBackLanding => true
  | .realnBoundary => true
  | .blockFetch => true
  | .accessPerform => true
  | .waiteWake => true
  | .rdvComplete => true
  | .exitEnd => true
  | .yieldEnd => true
  | .segwComplete => true
  | .ringWaitComplete => true
  | .queueWaitComplete => true
  | .jobTake => true
  | .recordPromotion => true
  | .heldPushEntry => true
  | .recordWindowStore => true
  | .admissionWindowStore => true
  | .admissionHeldEntry => true
  | .allocationWindowRead => true
  | .launchEntryFire => true
  | .preempt => true
  | .preemptionFreeze => true
  | .engineFaultDelivery => true
  | .descriptorLoad => true
  | .mnop => true
  | .mma => true
  | .mmax => true
  | .zeroz => true
  | .loadz => true
  | .storez => true
  | .drainz => true
  | .drainq => true
  | .glz => true
  | .atsc => true
  | .atsoInit => true
  | .atsoUpdate => true
  | .atsoFinal => true
  | .atsoMass => true
  | .atav => true
  | .atmc => true
  | .matrixCommandComplete => true
  | .chainStart => true
  | .copy => true
  | .copynd => true
  | .mcast => true
  | .fill => true
  | .kvmove => true
  | .kvshare => true
  | .promote => true
  | .demote => true
  | .kvmark => true
  | .loop => true
  | .cond => true
  | .note => true
  | .waitev => true
  | .commandRetire => true
  | .evscan => true
  | .evcompact => true
  | .evdecay => true
  | .ringStationRun => true
  | .ringStationStop => true
  | .wloadComplete => true
  | .rpair => true
  | .bypass => true
  | .tagPresentation => true
  | .dispatchRound1 => true
  | .frameClose => true
  | .segmentLanding => true
  | .landingAcknowledgement => true
  | .ackTimeoutResend => true
  | .slotPark => true
  | .parkRetry => true
  | .scrub => true
  | .postedWrite => true
  | .slotReinject => true
  | .readRequest => true
  | .readResponse => true
  | .acknowledgement => true
  | .remoteAtomic => true
  | .atomicResult => true
  | .planTransfer => true
  | .consignmentStore => true
  | .timing => true
  | .sync => true
  | .failureNotice => true
  | .slotResendRequest => true
  | .linkError => true
  | .linkRetrainEnd => true
  | .mergedWrite => true
  | .triggerWrite => true
  | .planFiringStart => true
  | .planFiringComplete => true
  | .planStall => true
  | .planHoldNotice => true
  | .planReleaseNotice => true
  | .holdCeilingExpiry => true
  | .planAbortNotice => true
  | .manifestEntry => true
  | .confirmation => true
  | .publishTime => true
  | .publish => true
  | .bondDrain => true
  | .censusNotice => true
  | .abortRequest => true
  | .abortNotice => true
  | .cnwaitExpiry => true
  | .destinationHoldExpiry => true
  | .ethernetSend => true
  | .ethernetWrite => true
  | .ethernetAck => true
  | .contextTeardown => true
  | .ethernetLinkDown => true
  | .ethernetAckTimeout => true
  | .telemetryUpdate => true
  | .deviceReset => true
  | .attestationRequest => true
  | .ringcfgWrite => true
  | .combiningBufferExpiry => true
  | .orphanPlaceDiscard => true
  | .negativeAcknowledgement => true
  | .planReservation => true

end Sys2Proof
end

