-- ==== Sys2Proof/Decode.lean ====
section
/-!
DEFINITION. Decoding, total on every word, and the encoder beside it (chapter 07: Tables 7-3 to 7-12, R161, R162, R165-R182).
A word that no entry assigns is refused with the CODE of the encoding class (Table 19-1): 0 unassigned major, OP,
sub-operation, condition or mode; 1 type outside the set; 2 reserved or zero field holding a 1; 4 a 32-bit word straddling
its body; 5 misaligned pair or quad; 6 RM or scope 6 or 7; 8 unassigned control address. Where a word breaks several rules
the checks are made in the order sub-operation, type, reserved field, mode, alignment (log entry 4).
-/
namespace Sys2Proof

open Sys2Proof.Machine

/-- What decoding answers: an instruction, or the CODE of the encoding class (R182, Table 19-1). -/
inductive Dec where
  | ok (i : Instr)
  | bad (code : Nat)
  deriving DecidableEq, Repr

/-- Bits [lo + len - 1 : lo] of a word (R4). -/
def fld {n : Nat} (w : BitVec n) (lo len : Nat) : BitVec len := w.extractLsb' lo len

/-- The instruction, if every field that must be zero is zero (R182). -/
def Dec.zeros (z : Bool) (i : Instr) : Dec := if z then .ok i else .bad 2
/-- The instruction, if its type lies in the row's set and its zero fields are zero (R179, R182). -/
def Dec.typed (t : Option VTy) (okT : VTy → Bool) (z : Bool) (f : VTy → Instr) : Dec :=
  match t with
  | none => .bad 1
  | some t => if okT t then .zeros z (f t) else .bad 1

/-- Table 7-7, ALU. -/
def decCAlu (w : W32) : Dec :=
  let d := fld w 21 5
  let a := fld w 16 5
  let b := fld w 11 5
  match (fld w 0 6).toNat with
  | 0 => .zeros (fld w 6 5 == 0) (.cAdd d a b)
  | 1 => .zeros (fld w 6 5 == 0) (.cSub d a b)
  | 2 => .zeros (fld w 6 5 == 0) (.cAnd d a b)
  | 3 => .zeros (fld w 6 5 == 0) (.cOr d a b)
  | 4 => .zeros (fld w 6 5 == 0) (.cXor d a b)
  | 5 => .zeros (fld w 6 5 == 0) (.andn d a b)
  | 6 => .zeros (fld w 6 5 == 0) (.cShl d a b)
  | 7 => .zeros (fld w 6 5 == 0) (.cShr d a b)
  | 8 => .zeros (fld w 6 5 == 0) (.cSra d a b)
  | 9 => .zeros (fld w 6 5 == 0) (.cMul d a b)
  | 10 => .zeros (fld w 6 5 == 0) (.mulh d a b)
  | 11 => .zeros (fld w 6 5 == 0) (.mulhu d a b)
  | 12 => .zeros (fld w 6 5 == 0) (.div d a b)
  | 13 => .zeros (fld w 6 5 == 0) (.divu d a b)
  | 14 => .zeros (fld w 6 5 == 0) (.rem d a b)
  | 15 => .zeros (fld w 6 5 == 0) (.remu d a b)
  | 16 => .zeros (fld w 6 5 == 0) (.cMin d a b)
  | 17 => .zeros (fld w 6 5 == 0) (.cMax d a b)
  | 18 => .zeros (fld w 6 5 == 0) (.minu d a b)
  | 19 => .zeros (fld w 6 5 == 0) (.maxu d a b)
  | 20 => .zeros (fld w 6 5 == 0 && b == 0) (.clz d a)
  | 21 => .zeros (fld w 6 5 == 0 && b == 0) (.popc d a)
  | 22 => .zeros (fld w 6 5 == 0) (.seq d a b)
  | 23 => .zeros (fld w 6 5 == 0) (.sne d a b)
  | 24 => .zeros (fld w 6 5 == 0) (.cSlt d a b)
  | 25 => .zeros (fld w 6 5 == 0) (.cSltu d a b)
  | 26 => .zeros (fld w 6 5 == 0) (.sel d a b)
  | _ => .bad 0

/-- Table 7-7, atomics: [7:6] holds the width, 2 a word or 3 a doubleword. -/
def decCAtomic (w : W32) : Dec :=
  let d := fld w 21 5
  let a := fld w 16 5
  let b := fld w 11 5
  if fld w 7 1 = 0 then .bad 0 else
  match (fld w 8 3).toNat with
  | 0 => .zeros (fld w 0 6 == 0) (.atadd d a b (fld w 6 1 == 1))
  | 1 => .zeros (fld w 0 6 == 0) (.atswp d a b (fld w 6 1 == 1))
  | 2 => .zeros (fld w 0 6 == 0) (.atcas d a b (fld w 6 1 == 1))
  | 3 => .zeros (fld w 0 6 == 0) (.atmin d a b (fld w 6 1 == 1))
  | 4 => .zeros (fld w 0 6 == 0) (.atmax d a b (fld w 6 1 == 1))
  | 5 => .zeros (fld w 0 6 == 0) (.atminu d a b (fld w 6 1 == 1))
  | 6 => .zeros (fld w 0 6 == 0) (.atmaxu d a b (fld w 6 1 == 1))
  | _ => .bad 0

/-- CRR and CRW (R223): a control address with behaviour of its own decodes to its own row. -/
def decCtl (w : W32) : Dec :=
  let d := fld w 21 5
  let c := fld w 9 12
  if ctlAssigned c.toNat then
    match (fld w 0 9).toNat with
    | 0 =>
      if crrOwn c.toNat then
        match c.toNat with
        | 0x002 => .ok (.sq d)
        | 0x00D => .ok (.rares d)
        | 0x318 => .ok (.scrcfgRead d)
        | 0x31C => .ok (.dcnt d false)
        | _ => .ok (.dcnt d true)
      else .ok (.crr d c)
    | 1 =>
      if crwOwn c.toNat then
        match c.toNat with
        | 0x004 => .ok (.mswait d)
        | 0x005 => .ok (.mssig d)
        | 0x008 => .ok (.xevwait d)
        | 0x009 => .ok (.xevsig d)
        | 0x00C => .ok (.rago d)
        | 0x00E => .ok (.cncur d)
        | 0x00F => .ok (.cnopen d)
        | 0x010 => .ok (.cnbind d)
        | 0x012 => .ok (.rqfin d)
        | 0x200 => .ok (.cqcfgWrite d)
        | 0x304 => .ok (.rsttlenWrite d)
        | 0x305 => .ok (.mdcfgWrite d)
        | 0x306 => .ok (.kvcfgWrite d)
        | 0x30D => .ok (.mnqCiWrite d)
        | 0x31B => .ok (.wload d)
        | _ => .ok (.therm d)
      else .ok (.crw d c)
    | _ => .bad 0
  else .bad 8

/-- A 32-bit C-stream word (Table 7-6). R225 writes `TLBI sa, kind` for every kind and gives `s[sa]` no part in kind 2; R175 has unused fields
zero. Nothing says whether SA counts as used in kind 2: any SA is accepted (the model's choice: log entry 52). -/
def decC32 (w : W32) : Dec :=
  let d := fld w 21 5
  let a := fld w 16 5
  let b := fld w 11 5
  let i := fld w 0 16
  let z6 := fld w 0 6 == 0
  match (fld w 26 5).toNat with
  | 0x00 => decCAlu w
  | 0x01 => .ok (.cAddi d a i)
  | 0x02 => .ok (.andi d a i)
  | 0x03 => .ok (.ori d a i)
  | 0x04 => .ok (.xori d a i)
  | 0x05 =>
    match (fld w 6 2).toNat with
    | 0 => .zeros (fld w 8 8 == 0) (.cShli d a (fld w 0 6))
    | 1 => .zeros (fld w 8 8 == 0) (.cShri d a (fld w 0 6))
    | 2 => .zeros (fld w 8 8 == 0) (.cSrai d a (fld w 0 6))
    | _ => .bad 0
  | 0x06 => .ok (.slti d a i)
  | 0x07 => .ok (.sltiu d a i)
  | 0x08 =>
    match (fld w 0 3).toNat with
    | 0 => .ok (.cLiz d (fld w 5 16) (fld w 3 2))
    | 1 => .ok (.cLik d (fld w 5 16) (fld w 3 2))
    | _ => .bad 0
  | 0x09 =>
    match d.toNat with
    | 0 => .ok (.cBeqz a i)
    | 1 => .ok (.cBnez a i)
    | 2 => .ok (.cBltz a i)
    | 3 => .ok (.cBgez a i)
    | 4 => .ok (.cBlez a i)
    | 5 => .ok (.cBgtz a i)
    | _ => .bad 0
  | 0x0A => .ok (.cJmp (fld w 0 26))
  | 0x0B => .ok (.call (fld w 0 26))
  | 0x0C =>
    match (fld w 6 5).toNat with
    | 0 => .zeros (d == 0 && b == 0 && z6) (.jr a)
    | 1 => .zeros (d == 0 && b == 0 && z6) (.callr a)
    | _ => .bad 0
  | 0x0D =>
    match b.toNat with
    | 0 => .ok (.cLdb d a (fld w 0 11))
    | 1 => .ok (.cLdbu d a (fld w 0 11))
    | 2 => .ok (.cLdh d a (fld w 0 11))
    | 3 => .ok (.cLdhu d a (fld w 0 11))
    | 4 => .ok (.cLdw d a (fld w 0 11))
    | 5 => .ok (.cLdwu d a (fld w 0 11))
    | 6 => .ok (.cLdd d a (fld w 0 11))
    | _ => .bad 0
  | 0x0E =>
    match b.toNat with
    | 0 => .ok (.cStb d a (fld w 0 11))
    | 1 => .ok (.cSth d a (fld w 0 11))
    | 2 => .ok (.cStw d a (fld w 0 11))
    | 3 => .ok (.cStd d a (fld w 0 11))
    | _ => .bad 0
  | 0x0F => decCAtomic w
  | 0x10 =>
    match (fld w 6 5).toNat with
    | 0 => .zeros (d == 0 && b == 0 && z6) (.arm a)
    | 1 => .zeros (d == 0 && a == 0 && b == 0 && z6) .waite
    | _ => .bad 0
  | 0x11 =>
    match (fld w 6 5).toNat with
    | 0 => .zeros (d == 0 && z6) (.rinit a b)
    | 1 => .zeros (b == 0 && z6) (.rclaim d a)
    | 2 => .zeros (d == 0 && z6) (.rpub a b)
    | 3 => .zeros (d == 0 && z6) (.rwfill a b)
    | 4 => .zeros z6 (.rtake d a b)
    | 5 => .zeros (d == 0 && z6) (.rwfree a b)
    | 6 => .zeros (d == 0 && b == 0 && z6) (.reos a)
    | _ => .bad 0
  | 0x12 =>
    let v := fld w 3 1 == 1
    let z3 := fld w 0 3 == 0
    let nf := fld w 4 1 == 0
    match (fld w 8 3).toNat with
    | 0 => .zeros (fld w 5 3 == 0 && nf && z3) (.bind d a b v)
    | 1 =>
      match scopeOf (fld w 5 3) with
      | none => .bad 6
      | some s => .zeros (b == 0 && nf && z3) (.acq d a s v)
    | 2 =>
      match scopeOf (fld w 5 3) with
      | none => .bad 6
      | some s => .zeros (d == 0 && nf && z3) (.rel a b s v)
    | 3 =>
      match scopeOf (fld w 5 3) with
      | none => .bad 6
      | some s =>
        if nf then .zeros (d == 0 && a == 0 && b == 0 && !v && z3) (.fence s)
        else .zeros (d == 0 && z3) (.fenceFlagged a b s v)
    | _ => .bad 0
  | 0x13 =>
    match (fld w 6 5).toNat with
    | 0 => .zeros (d == 0 && b == 0 && z6) (.spawn a)
    | 1 => .zeros (d == 0 && z6) (.join a b)
    | 2 => .zeros (d == 0 && a == 0 && b == 0 && z6) .rdv
    | 3 => .zeros (d == 0 && b == 0 && z6) (.exit a)
    | 4 => .zeros (d == 0 && b == 0 && z6) (.yield a)
    | 5 => .zeros z6 (.segw d a b)
    | _ => .bad 0
  | 0x14 =>
    match (fld w 6 5).toNat with
    | 0 => .zeros (d == 0 && z6) (.mxq a b)
    | 1 => .zeros (fld w 24 2 == 0 && z6) (.mxd (fld w 21 3) a b)
    | 2 => .zeros (d == 0 && z6) (.xfc a b)
    | 3 => .zeros (d == 0 && z6) (.evx a b)
    | 4 => .zeros (b == 0 && z6) (.cplan d a)
    | 5 => .zeros (d == 0 && z6) (.ctrig a b)
    | _ => .bad 0
  | 0x15 =>
    match (fld w 6 5).toNat with
    | 0 => .zeros z6 (.cseal d a b)
    | 1 => .zeros (d == 0 && z6) (.cmani a b)
    | 2 => .zeros (d == 0 && b == 0 && z6) (.cabort a)
    | _ => .bad 0
  | 0x16 => decCtl w
  | 0x17 =>
    match (fld w 6 5).toNat with
    | 0 => .zeros (d == 0 && a == 0 && b == 0) (.trap (fld w 0 6))
    | 1 =>
      match (fld w 0 6).toNat with
      | 0 => .zeros (d == 0 && a == 0 && b == 0) .eretReturn
      | 1 => .zeros (d == 0 && a == 0 && b == 0) .eretResume
      | _ => .bad 0
    | 2 =>
      match (fld w 0 6).toNat with
      | 0 => .zeros (d == 0 && b == 0) (.tlbiPage a)
      | 1 => .zeros (d == 0 && b == 0) (.tlbiAsid a)
      | 2 => .zeros (d == 0 && b == 0) (.tlbiAll a)
      | _ => .bad 0
    | _ => .bad 0
  | _ => .bad 0

/-- A 16-bit C-stream word (Table 7-8). -/
def decC16 (h : H16) : Dec :=
  let d := fld h 6 5
  let a := fld h 0 5
  let i := fld h 0 6
  let z := fld h 5 1 == 0
  match (fld h 11 4).toNat with
  | 0 => .zeros z (.c16Mov d a)
  | 1 => .zeros z (.c16Add d a)
  | 2 => .zeros z (.c16Sub d a)
  | 3 => .zeros z (.c16And d a)
  | 4 => .zeros z (.c16Or d a)
  | 5 => .zeros z (.c16Xor d a)
  | 6 => .ok (.c16Addi d i)
  | 7 => .ok (.c16Liz d i)
  | 8 => .ok (.c16Shli d i)
  | 9 => .ok (.c16Shri d i)
  | 10 => .ok (.c16Srai d i)
  | 11 => .zeros z (.c16Ldd d a)
  | 12 => .zeros z (.c16Std d a)
  | 13 => .zeros (d == 0 && i == 0) .c16Nop
  | _ => .bad 0

/-- A 32-bit A-stream word (Tables 7-9 and 9-2). -/
def decA32 (w : W32) : Dec :=
  let d := fld w 22 4
  let a := fld w 18 4
  let b := fld w 14 4
  let q := fld w 11 3
  let k := fld w 9 2
  let o := fld w 0 9
  match (fld w 26 5).toNat with
  | 0x00 =>
    let z := q == 0 && k == 0
    match o.toNat with
    | 0 => .zeros z (.aAdd d a b)
    | 1 => .zeros z (.aSub d a b)
    | 2 => .zeros z (.aAnd d a b)
    | 3 => .zeros z (.aOr d a b)
    | 4 => .zeros z (.aXor d a b)
    | 5 => .zeros z (.aShl d a b)
    | 6 => .zeros z (.aShr d a b)
    | 7 => .zeros z (.aSra d a b)
    | 8 => .zeros z (.aMul d a b)
    | 9 => .zeros z (.aMin d a b)
    | 10 => .zeros z (.aMax d a b)
    | 11 => .zeros z (.aSlt d a b)
    | 12 => .zeros z (.aSltu d a b)
    | _ => .bad 0
  | 0x01 => .zeros (b == 0) (.aAddi d a (fld w 0 14))
  | 0x02 =>
    match (fld w 0 4).toNat with
    | 0 => .ok (.aLiz d (fld w 6 16) (fld w 4 2))
    | 1 => .ok (.aLik d (fld w 6 16) (fld w 4 2))
    | _ => .bad 0
  | 0x03 =>
    let z := b == 0 && fld w 6 6 == 0
    match (fld w 12 2).toNat with
    | 0 => .zeros z (.aShli d a (fld w 0 6))
    | 1 => .zeros z (.aShri d a (fld w 0 6))
    | 2 => .zeros z (.aSrai d a (fld w 0 6))
    | _ => .bad 0
  | 0x04 => .zeros (d == 0) (.ldq a b q k o)
  | 0x05 => if (fld w 6 3).toNat < 4 then .zeros (d == 0) (.ldq2 a b q k o) else .bad 0
  | 0x06 => .zeros (d == 0 && fld w 13 1 == 0) (.stq a b (fld w 11 2) k o)
  | 0x07 => .zeros (d == 0 && fld w 13 1 == 0) (.stqnt a b (fld w 11 2) k o)
  | 0x08 => if o.toNat < 5 then .zeros (d == 0) (.gather a b q k o) else .bad 0
  | 0x09 => if o.toNat < 5 then .zeros (d == 0 && fld w 13 1 == 0) (.scatter a b (fld w 11 2) k o) else .bad 0
  | 0x0A => .zeros (d == 0 && b == 0 && o == 0) (.ldsr a q k)
  | 0x0B => .zeros (d == 0 && q == 0 && o == 0) (.pfc a b k)
  | 0x0C =>
    match q.toNat with
    | 0 => .zeros (b == 0) (.aLdb d a k o)
    | 1 => .zeros (b == 0) (.aLdbu d a k o)
    | 2 => .zeros (b == 0) (.aLdh d a k o)
    | 3 => .zeros (b == 0) (.aLdhu d a k o)
    | 4 => .zeros (b == 0) (.aLdw d a k o)
    | 5 => .zeros (b == 0) (.aLdwu d a k o)
    | 6 => .zeros (b == 0) (.aLdd d a k o)
    | _ => .bad 0
  | 0x0D =>
    match q.toNat with
    | 0 => .zeros (d == 0) (.aStb a b k o)
    | 1 => .zeros (d == 0) (.aSth a b k o)
    | 2 => .zeros (d == 0) (.aStw a b k o)
    | 3 => .zeros (d == 0) (.aStd a b k o)
    | _ => .bad 0
  | 0x0E =>
    match q.toNat with
    | 0 => .zeros (d == 0 && a == 0 && k == 0 && o == 0) (.sqp b)
    | 1 => .zeros (d == 0 && b == 0) (.ldsq a k o)
    | _ => .bad 0
  | 0x0F =>
    match d.toNat with
    | 0 => .zeros (b == 0) (.aBeqz a (fld w 0 14))
    | 1 => .zeros (b == 0) (.aBnez a (fld w 0 14))
    | 2 => .zeros (b == 0) (.aBltz a (fld w 0 14))
    | 3 => .zeros (b == 0) (.aBgez a (fld w 0 14))
    | 4 => .zeros (b == 0) (.aBlez a (fld w 0 14))
    | 5 => .zeros (b == 0) (.aBgtz a (fld w 0 14))
    | _ => .bad 0
  | 0x10 => .zeros (d == 0) (.aJmp (fld w 0 22))
  | 0x11 =>
    match cndOf q with
    | none => .bad 0
    | some c => .zeros (fld w 0 11 == 0) (.cset d a b c)
  | _ => .bad 0

/-- A 16-bit A-stream word (Tables 7-10 and 9-3). -/
def decA16 (h : H16) : Dec :=
  let d := fld h 8 4
  let a := fld h 4 4
  let b := fld h 0 4
  match (fld h 12 3).toNat with
  | 0 => .zeros (b == 0) (.a16Add d a)
  | 1 => .zeros (b == 0) (.a16Sub d a)
  | 2 => .ok (.a16Addi d (fld h 0 8))
  | 3 => .zeros (b == 0) (.a16Mov d a)
  | 4 => .zeros (a == 0) (.a16Shli d b)
  | 5 => .ok (.a16Liz d (fld h 0 8))
  | 6 => .zeros (d == 0 && a == 0 && b == 0) .a16Nop
  | _ => .bad 0

/-- The unary group (Table 10-3): VMOV needs TYPE 0, VRCPF and VRSQF the type f32. -/
def decVUnary (w : W32) : Dec :=
  let d := fld w 20 6
  let a := fld w 14 6
  let q := fld w 5 3
  let t := vtyOf (fld w 1 4)
  let r0 := fld w 0 1 == 0
  match (fld w 8 6).toNat with
  | 0 => .typed t isFS r0 (.vabs d a q)
  | 1 => .typed t isFS r0 (.vneg d a q)
  | 2 => .typed t isI r0 (.vnot d a q)
  | 4 => .typed t isF r0 (.vexp2 d a q)
  | 5 => .typed t isF r0 (.vlog2 d a q)
  | 6 => .typed t isF r0 (.vrcp d a q)
  | 7 => .typed t isF r0 (.vrsq d a q)
  | 10 => .typed t isI r0 (.vclz d a q)
  | 11 => .typed t isI r0 (.vpopc d a q)
  | 3 => if fld w 1 4 = 0 then .zeros r0 (.vmov d a q) else .bad 1
  | 8 => if fld w 1 4 = 6 then .zeros r0 (.vrcpf d a q) else .bad 1
  | 9 => if fld w 1 4 = 6 then .zeros r0 (.vrsqf d a q) else .bad 1
  | _ => .bad 0

/-- Predicate logic (R261). -/
def decVPred (w : W32) : Dec :=
  let d := fld w 20 3
  let a := fld w 17 3
  let b := fld w 11 3
  let z := fld w 14 3 == 0 && fld w 0 11 == 0
  match (fld w 23 3).toNat with
  | 0 => .zeros z (.pand d a b)
  | 1 => .zeros z (.por d a b)
  | 2 => .zeros z (.pxor d a b)
  | 3 => .zeros z (.pandn d a b)
  | 4 => .zeros (z && b == 0) (.pnot d a)
  | _ => .bad 0

/-- VCVT (R263): RM in the Q field, source type in [13:10]. -/
def decVCvt (w : W32) : Dec :=
  match vtyOf (fld w 1 4), vtyOf (fld w 10 4) with
  | some t, some s =>
    if isCvt t && isCvt s && t != s then
      if fld w 8 2 = 0 && fld w 0 1 = 0 then
        match rmOf (fld w 5 3) with
        | none => .bad 6
        | some r => .ok (.vcvt (fld w 20 6) (fld w 14 6) s r t)
      else .bad 2
    else .bad 1
  | _, _ => .bad 1

/-- VWIDEN (R273). -/
def decVWiden (w : W32) : Dec :=
  let d := fld w 20 6
  let f := fld w 8 2
  if f == 1 || f == 2 then
    match vtyOf (fld w 1 4), vtyOf (fld w 10 4) with
    | some t, some u =>
      if widenOk t u f then
        if fld w 0 1 = 0 then
          if d.toNat % widenK f == 0 then .ok (.vwiden d (fld w 14 6) u f (fld w 5 3) t) else .bad 5
        else .bad 2
      else .bad 1
    | _, _ => .bad 1
  else .bad 0

/-- VNARROW (R274). -/
def decVNarrow (w : W32) : Dec :=
  let a := fld w 14 6
  match vtyOf (fld w 1 4), vtyOf (fld w 10 4) with
  | some t, some s =>
    if narrowOk t s then
      if fld w 9 1 = 0 && fld w 0 1 = 0 then
        if a.toNat % narrowK t s == 0 then .ok (.vnarrow (fld w 20 6) a s (fld w 8 1 == 1) (fld w 5 3) t) else .bad 5
      else .bad 2
    else .bad 1
  | _, _ => .bad 1

/-- A V-stream word (Tables 7-11 and 7-12). -/
def decV (w : W32) : Dec :=
  let d := fld w 20 6
  let a := fld w 14 6
  let b := fld w 8 6
  let q := fld w 5 3
  let t := vtyOf (fld w 1 4)
  let r0 := fld w 0 1 == 0
  let any : VTy → Bool := fun _ => true
  match (fld w 26 6).toNat with
  | 0x00 => .zeros (fld w 0 8 == 0) (.vnop (fld w 8 18))
  | 0x01 => .zeros (fld w 0 26 == 0) .realn
  | 0x02 => .typed t isFI r0 (.vadd d a b q)
  | 0x03 => .typed t isFI r0 (.vsub d a b q)
  | 0x04 => .typed t isFI r0 (.vmul d a b q)
  | 0x05 => .typed t isI r0 (.vmulh d a b q)
  | 0x06 => .typed t isFI r0 (.vfma d a b q)
  | 0x07 => .typed t isFI r0 (.vfms d a b q)
  | 0x08 => .typed t isFI r0 (.vmin d a b q)
  | 0x09 => .typed t isFI r0 (.vmax d a b q)
  | 0x0A => .typed t isI r0 (.vand d a b q)
  | 0x0B => .typed t isI r0 (.vor d a b q)
  | 0x0C => .typed t isI r0 (.vxor d a b q)
  | 0x0D => .typed t isI r0 (.vshl d a b q)
  | 0x0E => .typed t isI r0 (.vshr d a b q)
  | 0x0F => .typed t isI r0 (.vadds d a b q)
  | 0x10 => .typed t isI r0 (.vsubs d a b q)
  | 0x11 => decVUnary w
  | 0x12 =>
    let c := vcondOf (fld w 23 3)
    .typed t (fun t => isFI t && (isF t || (c != .uo && c != .od))) r0 (.vcmp c (fld w 20 3) a b q)
  | 0x13 => .typed t any r0 (.vsel d a b q)
  | 0x14 => decVPred w
  | 0x15 => decVCvt w
  | 0x16 => .typed t isF r0 (.vqmx d a b q)
  | 0x17 =>
    match t with
    | none => .bad 1
    | some t =>
      if isF t then
        if r0 then (if fld w 20 2 = 0 then .ok (.vdqmx (fld w 22 4) a b q t) else .bad 5) else .bad 2
      else .bad 1
  | 0x18 =>
    let z := r0 && fld w 8 2 == 0
    match (fld w 10 4).toNat with
    | 0 => .typed t isFI z (.vrsum d a q)
    | 1 => .typed t isFI z (.vrmax d a q)
    | 2 => .typed t isFI z (.vrmin d a q)
    | 3 => .typed t isFI z (.vrargmax d a q)
    | _ => .bad 0
  | 0x19 => .typed t any r0 (.vperm d a b q)
  | 0x1A => if b.toNat < 12 then .typed t any r0 (.vshuf d a b q) else .bad 0
  | 0x1B =>
    match t with
    | none => .bad 1
    | some t => if r0 then (if fld w 20 1 = 0 then .ok (.vzip (fld w 21 5) a b q t) else .bad 5) else .bad 2
  | 0x1C =>
    match t with
    | none => .bad 1
    | some t => if r0 then (if fld w 20 1 = 0 then .ok (.vunzip (fld w 21 5) a b q t) else .bad 5) else .bad 2
  | 0x1D => .typed t any r0 (.vbcast d a b q)
  | 0x1E => .typed t any r0 (.vslideu d a b q)
  | 0x1F => .typed t any r0 (.vslided d a b q)
  | 0x20 => decVWiden w
  | 0x21 => decVNarrow w
  | 0x22 => .zeros (fld w 0 14 == 0) (.vpop d (fld w 17 3) (fld w 14 3))
  | 0x23 => .zeros (fld w 22 4 == 0 && fld w 0 14 == 0) (.vpush (fld w 20 2) a)
  | 0x24 => if fld w 20 3 = 0 then .bad 0 else .zeros (fld w 23 3 == 0 && fld w 0 14 == 0) (.vsett (fld w 20 3) a)
  | 0x25 => .zeros (fld w 24 2 == 0 && fld w 0 14 == 0) (.vldc (fld w 20 4) a)
  | 0x26 => .zeros (fld w 25 1 == 0 && fld w 0 20 == 0) (.vrot (fld w 20 5))
  | 0x27 => .typed t isI r0 (.viota d a b q)
  | _ => .bad 0

/-- The 32-bit word of two halfwords: the one at the lower address holds bits [31:16] (R162). -/
def word2 (h0 h1 : H16) : W32 := h0 ++ h1

/-- What the next word of a body decodes to, for the C-, A- and V-streams: an instruction and its length in halfwords
(R161, R162), or the CODE of the encoding trap. The body's halfwords from the word on are given. -/
def decodeAt (st : Strm) (hs : List H16) : Dec × Nat :=
  match st, hs with
  | _, [] => (.bad 4, 0)
  | .c, h :: t =>
    if fld h 15 1 = 0 then (decC16 h, 1)
    else match t with
      | [] => (.bad 4, 1)
      | h1 :: _ => (decC32 (word2 h h1), 2)
  | .a, h :: t =>
    if fld h 15 1 = 0 then (decA16 h, 1)
    else match t with
      | [] => (.bad 4, 1)
      | h1 :: _ => (decA32 (word2 h h1), 2)
  | .v, h :: t =>
    match t with
    | [] => (.bad 4, 1)
    | h1 :: _ => (decV (word2 h h1), 2)
  | .m, _ :: _ => (.bad 0, 1)

/-- The words of an instruction: 16 or 32 bits, or none for a step that has no word. -/
inductive Enc where
  | noWord
  | half (w : H16)
  | full (w : W32)
  deriving DecidableEq, Repr

/-- A flag bit. -/
def bit (b : Bool) : BitVec 1 := BitVec.ofBool b

/-- The encoder, from the same tables: the fixed bits and fields of each row, from the highest bit down. -/
def encode : Instr → Enc
  | .cAdd d a b => .full (0x20#6 ++ d ++ a ++ b ++ 0x0#11)
  | .cSub d a b => .full (0x20#6 ++ d ++ a ++ b ++ 0x1#11)
  | .cAnd d a b => .full (0x20#6 ++ d ++ a ++ b ++ 0x2#11)
  | .cOr d a b => .full (0x20#6 ++ d ++ a ++ b ++ 0x3#11)
  | .cXor d a b => .full (0x20#6 ++ d ++ a ++ b ++ 0x4#11)
  | .andn d a b => .full (0x20#6 ++ d ++ a ++ b ++ 0x5#11)
  | .cShl d a b => .full (0x20#6 ++ d ++ a ++ b ++ 0x6#11)
  | .cShr d a b => .full (0x20#6 ++ d ++ a ++ b ++ 0x7#11)
  | .cSra d a b => .full (0x20#6 ++ d ++ a ++ b ++ 0x8#11)
  | .cMul d a b => .full (0x20#6 ++ d ++ a ++ b ++ 0x9#11)
  | .mulh d a b => .full (0x20#6 ++ d ++ a ++ b ++ 0xA#11)
  | .mulhu d a b => .full (0x20#6 ++ d ++ a ++ b ++ 0xB#11)
  | .div d a b => .full (0x20#6 ++ d ++ a ++ b ++ 0xC#11)
  | .divu d a b => .full (0x20#6 ++ d ++ a ++ b ++ 0xD#11)
  | .rem d a b => .full (0x20#6 ++ d ++ a ++ b ++ 0xE#11)
  | .remu d a b => .full (0x20#6 ++ d ++ a ++ b ++ 0xF#11)
  | .cMin d a b => .full (0x20#6 ++ d ++ a ++ b ++ 0x10#11)
  | .cMax d a b => .full (0x20#6 ++ d ++ a ++ b ++ 0x11#11)
  | .minu d a b => .full (0x20#6 ++ d ++ a ++ b ++ 0x12#11)
  | .maxu d a b => .full (0x20#6 ++ d ++ a ++ b ++ 0x13#11)
  | .clz d a => .full (0x20#6 ++ d ++ a ++ 0x14#16)
  | .popc d a => .full (0x20#6 ++ d ++ a ++ 0x15#16)
  | .seq d a b => .full (0x20#6 ++ d ++ a ++ b ++ 0x16#11)
  | .sne d a b => .full (0x20#6 ++ d ++ a ++ b ++ 0x17#11)
  | .cSlt d a b => .full (0x20#6 ++ d ++ a ++ b ++ 0x18#11)
  | .cSltu d a b => .full (0x20#6 ++ d ++ a ++ b ++ 0x19#11)
  | .sel d a b => .full (0x20#6 ++ d ++ a ++ b ++ 0x1A#11)
  | .cAddi d a i => .full (0x21#6 ++ d ++ a ++ i)
  | .andi d a i => .full (0x22#6 ++ d ++ a ++ i)
  | .ori d a i => .full (0x23#6 ++ d ++ a ++ i)
  | .xori d a i => .full (0x24#6 ++ d ++ a ++ i)
  | .cShli d a n => .full (0x25#6 ++ d ++ a ++ 0x0#10 ++ n)
  | .cShri d a n => .full (0x25#6 ++ d ++ a ++ 0x1#10 ++ n)
  | .cSrai d a n => .full (0x25#6 ++ d ++ a ++ 0x2#10 ++ n)
  | .slti d a i => .full (0x26#6 ++ d ++ a ++ i)
  | .sltiu d a i => .full (0x27#6 ++ d ++ a ++ i)
  | .cLiz d i p => .full (0x28#6 ++ d ++ i ++ p ++ 0x0#3)
  | .cLik d i p => .full (0x28#6 ++ d ++ i ++ p ++ 0x1#3)
  | .cBeqz a o => .full (0x520#11 ++ a ++ o)
  | .cBnez a o => .full (0x521#11 ++ a ++ o)
  | .cBltz a o => .full (0x522#11 ++ a ++ o)
  | .cBgez a o => .full (0x523#11 ++ a ++ o)
  | .cBlez a o => .full (0x524#11 ++ a ++ o)
  | .cBgtz a o => .full (0x525#11 ++ a ++ o)
  | .cJmp o => .full (0x2A#6 ++ o)
  | .call o => .full (0x2B#6 ++ o)
  | .jr a => .full (0x580#11 ++ a ++ 0x0#16)
  | .callr a => .full (0x580#11 ++ a ++ 0x40#16)
  | .cLdb d a o => .full (0x2D#6 ++ d ++ a ++ 0x0#5 ++ o)
  | .cLdbu d a o => .full (0x2D#6 ++ d ++ a ++ 0x1#5 ++ o)
  | .cLdh d a o => .full (0x2D#6 ++ d ++ a ++ 0x2#5 ++ o)
  | .cLdhu d a o => .full (0x2D#6 ++ d ++ a ++ 0x3#5 ++ o)
  | .cLdw d a o => .full (0x2D#6 ++ d ++ a ++ 0x4#5 ++ o)
  | .cLdwu d a o => .full (0x2D#6 ++ d ++ a ++ 0x5#5 ++ o)
  | .cLdd d a o => .full (0x2D#6 ++ d ++ a ++ 0x6#5 ++ o)
  | .cStb d a o => .full (0x2E#6 ++ d ++ a ++ 0x0#5 ++ o)
  | .cSth d a o => .full (0x2E#6 ++ d ++ a ++ 0x1#5 ++ o)
  | .cStw d a o => .full (0x2E#6 ++ d ++ a ++ 0x2#5 ++ o)
  | .cStd d a o => .full (0x2E#6 ++ d ++ a ++ 0x3#5 ++ o)
  | .atadd d a b w => .full (0x2F#6 ++ d ++ a ++ b ++ 0x1#4 ++ bit w ++ 0x0#6)
  | .atswp d a b w => .full (0x2F#6 ++ d ++ a ++ b ++ 0x3#4 ++ bit w ++ 0x0#6)
  | .atcas d a b w => .full (0x2F#6 ++ d ++ a ++ b ++ 0x5#4 ++ bit w ++ 0x0#6)
  | .atmin d a b w => .full (0x2F#6 ++ d ++ a ++ b ++ 0x7#4 ++ bit w ++ 0x0#6)
  | .atmax d a b w => .full (0x2F#6 ++ d ++ a ++ b ++ 0x9#4 ++ bit w ++ 0x0#6)
  | .atminu d a b w => .full (0x2F#6 ++ d ++ a ++ b ++ 0xB#4 ++ bit w ++ 0x0#6)
  | .atmaxu d a b w => .full (0x2F#6 ++ d ++ a ++ b ++ 0xD#4 ++ bit w ++ 0x0#6)
  | .arm a => .full (0x600#11 ++ a ++ 0x0#16)
  | .waite => .full (0xC0000040#32)
  | .rinit a b => .full (0x620#11 ++ a ++ b ++ 0x0#11)
  | .rclaim d a => .full (0x31#6 ++ d ++ a ++ 0x40#16)
  | .rpub a b => .full (0x620#11 ++ a ++ b ++ 0x80#11)
  | .rwfill a b => .full (0x620#11 ++ a ++ b ++ 0xC0#11)
  | .rtake d a b => .full (0x31#6 ++ d ++ a ++ b ++ 0x100#11)
  | .rwfree a b => .full (0x620#11 ++ a ++ b ++ 0x140#11)
  | .reos a => .full (0x620#11 ++ a ++ 0x180#16)
  | .bind d a b v => .full (0x32#6 ++ d ++ a ++ b ++ 0x0#7 ++ bit v ++ 0x0#3)
  | .acq d a s v => .full (0x32#6 ++ d ++ a ++ 0x1#8 ++ scopeCode s ++ 0x0#1 ++ bit v ++ 0x0#3)
  | .rel a b s v => .full (0x640#11 ++ a ++ b ++ 0x2#3 ++ scopeCode s ++ 0x0#1 ++ bit v ++ 0x0#3)
  | .fence s => .full (0xC80003#24 ++ scopeCode s ++ 0x0#5)
  | .fenceFlagged a b s v => .full (0x640#11 ++ a ++ b ++ 0x3#3 ++ scopeCode s ++ 0x1#1 ++ bit v ++ 0x0#3)
  | .spawn a => .full (0x660#11 ++ a ++ 0x0#16)
  | .join a b => .full (0x660#11 ++ a ++ b ++ 0x40#11)
  | .rdv => .full (0xCC000080#32)
  | .exit a => .full (0x660#11 ++ a ++ 0xC0#16)
  | .yield a => .full (0x660#11 ++ a ++ 0x100#16)
  | .segw d a b => .full (0x33#6 ++ d ++ a ++ b ++ 0x140#11)
  | .mxq a b => .full (0x680#11 ++ a ++ b ++ 0x0#11)
  | .mxd n a b => .full (0xD0#8 ++ n ++ a ++ b ++ 0x40#11)
  | .xfc a b => .full (0x680#11 ++ a ++ b ++ 0x80#11)
  | .evx a b => .full (0x680#11 ++ a ++ b ++ 0xC0#11)
  | .cplan d a => .full (0x34#6 ++ d ++ a ++ 0x100#16)
  | .ctrig a b => .full (0x680#11 ++ a ++ b ++ 0x140#11)
  | .cseal d a b => .full (0x35#6 ++ d ++ a ++ b ++ 0x0#11)
  | .cmani a b => .full (0x6A0#11 ++ a ++ b ++ 0x40#11)
  | .cabort a => .full (0x6A0#11 ++ a ++ 0x80#16)
  | .crr d c => .full (0x36#6 ++ d ++ c ++ 0x0#9)
  | .crw d c => .full (0x36#6 ++ d ++ c ++ 0x1#9)
  | .trap c => .full (0x3700000#26 ++ c)
  | .eretReturn => .full (0xDC000040#32)
  | .eretResume => .full (0xDC000041#32)
  | .tlbiPage a => .full (0x6E0#11 ++ a ++ 0x80#16)
  | .tlbiAsid a => .full (0x6E0#11 ++ a ++ 0x81#16)
  | .tlbiAll a => .full (0x6E0#11 ++ a ++ 0x82#16)
  | .c16Mov d a => .half (0x0#5 ++ d ++ 0x0#1 ++ a)
  | .c16Add d a => .half (0x1#5 ++ d ++ 0x0#1 ++ a)
  | .c16Sub d a => .half (0x2#5 ++ d ++ 0x0#1 ++ a)
  | .c16And d a => .half (0x3#5 ++ d ++ 0x0#1 ++ a)
  | .c16Or d a => .half (0x4#5 ++ d ++ 0x0#1 ++ a)
  | .c16Xor d a => .half (0x5#5 ++ d ++ 0x0#1 ++ a)
  | .c16Addi d i => .half (0x6#5 ++ d ++ i)
  | .c16Liz d i => .half (0x7#5 ++ d ++ i)
  | .c16Shli d n => .half (0x8#5 ++ d ++ n)
  | .c16Shri d n => .half (0x9#5 ++ d ++ n)
  | .c16Srai d n => .half (0xA#5 ++ d ++ n)
  | .c16Ldd d a => .half (0xB#5 ++ d ++ 0x0#1 ++ a)
  | .c16Std d a => .half (0xC#5 ++ d ++ 0x0#1 ++ a)
  | .c16Nop => .half (0x6800#16)
  | .aAdd d a b => .full (0x20#6 ++ d ++ a ++ b ++ 0x0#14)
  | .aSub d a b => .full (0x20#6 ++ d ++ a ++ b ++ 0x1#14)
  | .aAnd d a b => .full (0x20#6 ++ d ++ a ++ b ++ 0x2#14)
  | .aOr d a b => .full (0x20#6 ++ d ++ a ++ b ++ 0x3#14)
  | .aXor d a b => .full (0x20#6 ++ d ++ a ++ b ++ 0x4#14)
  | .aShl d a b => .full (0x20#6 ++ d ++ a ++ b ++ 0x5#14)
  | .aShr d a b => .full (0x20#6 ++ d ++ a ++ b ++ 0x6#14)
  | .aSra d a b => .full (0x20#6 ++ d ++ a ++ b ++ 0x7#14)
  | .aMul d a b => .full (0x20#6 ++ d ++ a ++ b ++ 0x8#14)
  | .aMin d a b => .full (0x20#6 ++ d ++ a ++ b ++ 0x9#14)
  | .aMax d a b => .full (0x20#6 ++ d ++ a ++ b ++ 0xA#14)
  | .aSlt d a b => .full (0x20#6 ++ d ++ a ++ b ++ 0xB#14)
  | .aSltu d a b => .full (0x20#6 ++ d ++ a ++ b ++ 0xC#14)
  | .aAddi d a i => .full (0x21#6 ++ d ++ a ++ 0x0#4 ++ i)
  | .aLiz d i p => .full (0x22#6 ++ d ++ i ++ p ++ 0x0#4)
  | .aLik d i p => .full (0x22#6 ++ d ++ i ++ p ++ 0x1#4)
  | .aShli d a n => .full (0x23#6 ++ d ++ a ++ 0x0#12 ++ n)
  | .aShri d a n => .full (0x23#6 ++ d ++ a ++ 0x40#12 ++ n)
  | .aSrai d a n => .full (0x23#6 ++ d ++ a ++ 0x80#12 ++ n)
  | .ldq a b q k n => .full (0x240#10 ++ a ++ b ++ q ++ k ++ n)
  | .ldq2 a b q k s => .full (0x250#10 ++ a ++ b ++ q ++ k ++ s)
  | .stq a b q k n => .full (0x260#10 ++ a ++ b ++ 0x0#1 ++ q ++ k ++ n)
  | .stqnt a b q k n => .full (0x270#10 ++ a ++ b ++ 0x0#1 ++ q ++ k ++ n)
  | .gather a b q k e => .full (0x280#10 ++ a ++ b ++ q ++ k ++ e)
  | .scatter a b q k e => .full (0x290#10 ++ a ++ b ++ 0x0#1 ++ q ++ k ++ e)
  | .ldsr a q k => .full (0x2A0#10 ++ a ++ 0x0#4 ++ q ++ k ++ 0x0#9)
  | .pfc a b k => .full (0x2B0#10 ++ a ++ b ++ 0x0#3 ++ k ++ 0x0#9)
  | .aLdb d a k o => .full (0x2C#6 ++ d ++ a ++ 0x0#7 ++ k ++ o)
  | .aLdbu d a k o => .full (0x2C#6 ++ d ++ a ++ 0x1#7 ++ k ++ o)
  | .aLdh d a k o => .full (0x2C#6 ++ d ++ a ++ 0x2#7 ++ k ++ o)
  | .aLdhu d a k o => .full (0x2C#6 ++ d ++ a ++ 0x3#7 ++ k ++ o)
  | .aLdw d a k o => .full (0x2C#6 ++ d ++ a ++ 0x4#7 ++ k ++ o)
  | .aLdwu d a k o => .full (0x2C#6 ++ d ++ a ++ 0x5#7 ++ k ++ o)
  | .aLdd d a k o => .full (0x2C#6 ++ d ++ a ++ 0x6#7 ++ k ++ o)
  | .aStb a b k o => .full (0x2D0#10 ++ a ++ b ++ 0x0#3 ++ k ++ o)
  | .aSth a b k o => .full (0x2D0#10 ++ a ++ b ++ 0x1#3 ++ k ++ o)
  | .aStw a b k o => .full (0x2D0#10 ++ a ++ b ++ 0x2#3 ++ k ++ o)
  | .aStd a b k o => .full (0x2D0#10 ++ a ++ b ++ 0x3#3 ++ k ++ o)
  | .sqp b => .full (0x2E00#14 ++ b ++ 0x0#14)
  | .ldsq a k o => .full (0x2E0#10 ++ a ++ 0x1#7 ++ k ++ o)
  | .aBeqz a o => .full (0x2F0#10 ++ a ++ 0x0#4 ++ o)
  | .aBnez a o => .full (0x2F1#10 ++ a ++ 0x0#4 ++ o)
  | .aBltz a o => .full (0x2F2#10 ++ a ++ 0x0#4 ++ o)
  | .aBgez a o => .full (0x2F3#10 ++ a ++ 0x0#4 ++ o)
  | .aBlez a o => .full (0x2F4#10 ++ a ++ 0x0#4 ++ o)
  | .aBgtz a o => .full (0x2F5#10 ++ a ++ 0x0#4 ++ o)
  | .aJmp o => .full (0x300#10 ++ o)
  | .cset d a b c => .full (0x31#6 ++ d ++ a ++ b ++ cndCode c ++ 0x0#11)
  | .a16Add d a => .half (0x0#4 ++ d ++ a ++ 0x0#4)
  | .a16Sub d a => .half (0x1#4 ++ d ++ a ++ 0x0#4)
  | .a16Addi d i => .half (0x2#4 ++ d ++ i)
  | .a16Mov d a => .half (0x3#4 ++ d ++ a ++ 0x0#4)
  | .a16Shli d n => .half (0x4#4 ++ d ++ 0x0#4 ++ n)
  | .a16Liz d i => .half (0x5#4 ++ d ++ i)
  | .a16Nop => .half (0x6000#16)
  | .vnop c => .full (0x0#6 ++ c ++ 0x0#8)
  | .realn => .full (0x4000000#32)
  | .vadd d a b q t => .full (0x2#6 ++ d ++ a ++ b ++ q ++ vtyCode t ++ 0x0#1)
  | .vsub d a b q t => .full (0x3#6 ++ d ++ a ++ b ++ q ++ vtyCode t ++ 0x0#1)
  | .vmul d a b q t => .full (0x4#6 ++ d ++ a ++ b ++ q ++ vtyCode t ++ 0x0#1)
  | .vmulh d a b q t => .full (0x5#6 ++ d ++ a ++ b ++ q ++ vtyCode t ++ 0x0#1)
  | .vfma d a b q t => .full (0x6#6 ++ d ++ a ++ b ++ q ++ vtyCode t ++ 0x0#1)
  | .vfms d a b q t => .full (0x7#6 ++ d ++ a ++ b ++ q ++ vtyCode t ++ 0x0#1)
  | .vmin d a b q t => .full (0x8#6 ++ d ++ a ++ b ++ q ++ vtyCode t ++ 0x0#1)
  | .vmax d a b q t => .full (0x9#6 ++ d ++ a ++ b ++ q ++ vtyCode t ++ 0x0#1)
  | .vand d a b q t => .full (0xA#6 ++ d ++ a ++ b ++ q ++ vtyCode t ++ 0x0#1)
  | .vor d a b q t => .full (0xB#6 ++ d ++ a ++ b ++ q ++ vtyCode t ++ 0x0#1)
  | .vxor d a b q t => .full (0xC#6 ++ d ++ a ++ b ++ q ++ vtyCode t ++ 0x0#1)
  | .vshl d a b q t => .full (0xD#6 ++ d ++ a ++ b ++ q ++ vtyCode t ++ 0x0#1)
  | .vshr d a b q t => .full (0xE#6 ++ d ++ a ++ b ++ q ++ vtyCode t ++ 0x0#1)
  | .vadds d a b q t => .full (0xF#6 ++ d ++ a ++ b ++ q ++ vtyCode t ++ 0x0#1)
  | .vsubs d a b q t => .full (0x10#6 ++ d ++ a ++ b ++ q ++ vtyCode t ++ 0x0#1)
  | .vabs d a q t => .full (0x11#6 ++ d ++ a ++ 0x0#6 ++ q ++ vtyCode t ++ 0x0#1)
  | .vneg d a q t => .full (0x11#6 ++ d ++ a ++ 0x1#6 ++ q ++ vtyCode t ++ 0x0#1)
  | .vnot d a q t => .full (0x11#6 ++ d ++ a ++ 0x2#6 ++ q ++ vtyCode t ++ 0x0#1)
  | .vmov d a q => .full (0x11#6 ++ d ++ a ++ 0x3#6 ++ q ++ 0x0#5)
  | .vexp2 d a q t => .full (0x11#6 ++ d ++ a ++ 0x4#6 ++ q ++ vtyCode t ++ 0x0#1)
  | .vlog2 d a q t => .full (0x11#6 ++ d ++ a ++ 0x5#6 ++ q ++ vtyCode t ++ 0x0#1)
  | .vrcp d a q t => .full (0x11#6 ++ d ++ a ++ 0x6#6 ++ q ++ vtyCode t ++ 0x0#1)
  | .vrsq d a q t => .full (0x11#6 ++ d ++ a ++ 0x7#6 ++ q ++ vtyCode t ++ 0x0#1)
  | .vrcpf d a q => .full (0x11#6 ++ d ++ a ++ 0x8#6 ++ q ++ 0xC#5)
  | .vrsqf d a q => .full (0x11#6 ++ d ++ a ++ 0x9#6 ++ q ++ 0xC#5)
  | .vclz d a q t => .full (0x11#6 ++ d ++ a ++ 0xA#6 ++ q ++ vtyCode t ++ 0x0#1)
  | .vpopc d a q t => .full (0x11#6 ++ d ++ a ++ 0xB#6 ++ q ++ vtyCode t ++ 0x0#1)
  | .vcmp c p a b q t => .full (0x12#6 ++ vcondCode c ++ p ++ a ++ b ++ q ++ vtyCode t ++ 0x0#1)
  | .vsel d a b q t => .full (0x13#6 ++ d ++ a ++ b ++ q ++ vtyCode t ++ 0x0#1)
  | .pand d a b => .full (0xA0#9 ++ d ++ a ++ 0x0#3 ++ b ++ 0x0#11)
  | .por d a b => .full (0xA1#9 ++ d ++ a ++ 0x0#3 ++ b ++ 0x0#11)
  | .pxor d a b => .full (0xA2#9 ++ d ++ a ++ 0x0#3 ++ b ++ 0x0#11)
  | .pandn d a b => .full (0xA3#9 ++ d ++ a ++ 0x0#3 ++ b ++ 0x0#11)
  | .pnot d a => .full (0xA4#9 ++ d ++ a ++ 0x0#17)
  | .vcvt d a s r t => .full (0x15#6 ++ d ++ a ++ vtyCode s ++ 0x0#2 ++ rmCode r ++ vtyCode t ++ 0x0#1)
  | .vqmx d a b q t => .full (0x16#6 ++ d ++ a ++ b ++ q ++ vtyCode t ++ 0x0#1)
  | .vdqmx d a b q t => .full (0x17#6 ++ d ++ 0x0#2 ++ a ++ b ++ q ++ vtyCode t ++ 0x0#1)
  | .vrsum d a q t => .full (0x18#6 ++ d ++ a ++ 0x0#6 ++ q ++ vtyCode t ++ 0x0#1)
  | .vrmax d a q t => .full (0x18#6 ++ d ++ a ++ 0x4#6 ++ q ++ vtyCode t ++ 0x0#1)
  | .vrmin d a q t => .full (0x18#6 ++ d ++ a ++ 0x8#6 ++ q ++ vtyCode t ++ 0x0#1)
  | .vrargmax d a q t => .full (0x18#6 ++ d ++ a ++ 0xC#6 ++ q ++ vtyCode t ++ 0x0#1)
  | .vperm d a b q t => .full (0x19#6 ++ d ++ a ++ b ++ q ++ vtyCode t ++ 0x0#1)
  | .vshuf d a p q t => .full (0x1A#6 ++ d ++ a ++ p ++ q ++ vtyCode t ++ 0x0#1)
  | .vzip d a b q t => .full (0x1B#6 ++ d ++ 0x0#1 ++ a ++ b ++ q ++ vtyCode t ++ 0x0#1)
  | .vunzip d a b q t => .full (0x1C#6 ++ d ++ 0x0#1 ++ a ++ b ++ q ++ vtyCode t ++ 0x0#1)
  | .vbcast d a b q t => .full (0x1D#6 ++ d ++ a ++ b ++ q ++ vtyCode t ++ 0x0#1)
  | .vslideu d a c q t => .full (0x1E#6 ++ d ++ a ++ c ++ q ++ vtyCode t ++ 0x0#1)
  | .vslided d a c q t => .full (0x1F#6 ++ d ++ a ++ c ++ q ++ vtyCode t ++ 0x0#1)
  | .vwiden d a u f q t => .full (0x20#6 ++ d ++ a ++ vtyCode u ++ f ++ q ++ vtyCode t ++ 0x0#1)
  | .vnarrow d a s m q t => .full (0x21#6 ++ d ++ a ++ vtyCode s ++ 0x0#1 ++ bit m ++ q ++ vtyCode t ++ 0x0#1)
  | .vpop d q x => .full (0x22#6 ++ d ++ q ++ x ++ 0x0#14)
  | .vpush q a => .full (0x230#10 ++ q ++ a ++ 0x0#14)
  | .vsett x a => .full (0x120#9 ++ x ++ a ++ 0x0#14)
  | .vldc k a => .full (0x94#8 ++ k ++ a ++ 0x0#14)
  | .vrot n => .full (0x4C#7 ++ n ++ 0x0#20)
  | .viota d a b q t => .full (0x27#6 ++ d ++ a ++ b ++ q ++ vtyCode t ++ 0x0#1)
  | .writeBackLanding => .noWord
  | .realnBoundary => .noWord
  | .blockFetch => .noWord
  | .accessPerform => .noWord
  | .waiteWake => .noWord
  | .rdvComplete => .noWord
  | .exitEnd => .noWord
  | .yieldEnd => .noWord
  | .segwComplete => .noWord
  | .ringWaitComplete => .noWord
  | .queueWaitComplete => .noWord
  | .jobTake => .noWord
  | .recordPromotion => .noWord
  | .heldPushEntry => .noWord
  | .recordWindowStore => .noWord
  | .admissionWindowStore => .noWord
  | .admissionHeldEntry => .noWord
  | .allocationWindowRead => .noWord
  | .launchEntryFire => .noWord
  | .preempt => .noWord
  | .preemptionFreeze => .noWord
  | .engineFaultDelivery => .noWord
  | .descriptorLoad => .noWord
  | .mnop => .noWord
  | .mma => .noWord
  | .mmax => .noWord
  | .zeroz => .noWord
  | .loadz => .noWord
  | .storez => .noWord
  | .drainz => .noWord
  | .drainq => .noWord
  | .glz => .noWord
  | .atsc => .noWord
  | .atsoInit => .noWord
  | .atsoUpdate => .noWord
  | .atsoFinal => .noWord
  | .atsoMass => .noWord
  | .atav => .noWord
  | .atmc => .noWord
  | .matrixCommandComplete => .noWord
  | .mswait d => .full (0x36#6 ++ d ++ 0x004#12 ++ 1#9)
  | .mssig d => .full (0x36#6 ++ d ++ 0x005#12 ++ 1#9)
  | .chainStart => .noWord
  | .copy => .noWord
  | .copynd => .noWord
  | .mcast => .noWord
  | .fill => .noWord
  | .kvmove => .noWord
  | .kvshare => .noWord
  | .promote => .noWord
  | .demote => .noWord
  | .kvmark => .noWord
  | .loop => .noWord
  | .cond => .noWord
  | .note => .noWord
  | .waitev => .noWord
  | .commandRetire => .noWord
  | .xevwait d => .full (0x36#6 ++ d ++ 0x008#12 ++ 1#9)
  | .xevsig d => .full (0x36#6 ++ d ++ 0x009#12 ++ 1#9)
  | .evscan => .noWord
  | .evcompact => .noWord
  | .evdecay => .noWord
  | .rago d => .full (0x36#6 ++ d ++ 0x00C#12 ++ 1#9)
  | .rares d => .full (0x36#6 ++ d ++ 0x00D#12 ++ 0#9)
  | .sq d => .full (0x36#6 ++ d ++ 0x002#12 ++ 0#9)
  | .cnopen d => .full (0x36#6 ++ d ++ 0x00F#12 ++ 1#9)
  | .cncur d => .full (0x36#6 ++ d ++ 0x00E#12 ++ 1#9)
  | .cnbind d => .full (0x36#6 ++ d ++ 0x010#12 ++ 1#9)
  | .rqfin d => .full (0x36#6 ++ d ++ 0x012#12 ++ 1#9)
  | .ringStationRun => .noWord
  | .ringStationStop => .noWord
  | .kvcfgWrite d => .full (0x36#6 ++ d ++ 0x306#12 ++ 1#9)
  | .mdcfgWrite d => .full (0x36#6 ++ d ++ 0x305#12 ++ 1#9)
  | .mnqCiWrite d => .full (0x36#6 ++ d ++ 0x30D#12 ++ 1#9)
  | .wload d => .full (0x36#6 ++ d ++ 0x31B#12 ++ 1#9)
  | .wloadComplete => .noWord
  | .dcnt d hi => .full (0x36#6 ++ d ++ (if hi then 0x31D#12 else 0x31C#12) ++ 0#9)
  | .therm d => .full (0x36#6 ++ d ++ 0x31E#12 ++ 1#9)
  | .rpair => .noWord
  | .bypass => .noWord
  | .tagPresentation => .noWord
  | .dispatchRound1 => .noWord
  | .frameClose => .noWord
  | .segmentLanding => .noWord
  | .landingAcknowledgement => .noWord
  | .ackTimeoutResend => .noWord
  | .slotPark => .noWord
  | .parkRetry => .noWord
  | .scrub => .noWord
  | .postedWrite => .noWord
  | .slotReinject => .noWord
  | .readRequest => .noWord
  | .readResponse => .noWord
  | .acknowledgement => .noWord
  | .remoteAtomic => .noWord
  | .atomicResult => .noWord
  | .planTransfer => .noWord
  | .consignmentStore => .noWord
  | .timing => .noWord
  | .sync => .noWord
  | .failureNotice => .noWord
  | .slotResendRequest => .noWord
  | .linkError => .noWord
  | .linkRetrainEnd => .noWord
  | .mergedWrite => .noWord
  | .triggerWrite => .noWord
  | .planFiringStart => .noWord
  | .planFiringComplete => .noWord
  | .planStall => .noWord
  | .planHoldNotice => .noWord
  | .planReleaseNotice => .noWord
  | .holdCeilingExpiry => .noWord
  | .planAbortNotice => .noWord
  | .manifestEntry => .noWord
  | .confirmation => .noWord
  | .publishTime => .noWord
  | .publish => .noWord
  | .bondDrain => .noWord
  | .censusNotice => .noWord
  | .abortRequest => .noWord
  | .abortNotice => .noWord
  | .cnwaitExpiry => .noWord
  | .destinationHoldExpiry => .noWord
  | .ethernetSend => .noWord
  | .ethernetWrite => .noWord
  | .ethernetAck => .noWord
  | .contextTeardown => .noWord
  | .ethernetLinkDown => .noWord
  | .ethernetAckTimeout => .noWord
  | .telemetryUpdate => .noWord
  | .deviceReset => .noWord
  | .attestationRequest => .noWord
  | .rsttlenWrite d => .full (0x36#6 ++ d ++ 0x304#12 ++ 1#9)
  | .cqcfgWrite d => .full (0x36#6 ++ d ++ 0x200#12 ++ 1#9)
  | .ringcfgWrite => .noWord
  | .scrcfgRead d => .full (0x36#6 ++ d ++ 0x318#12 ++ 0#9)
  | .combiningBufferExpiry => .noWord
  | .orphanPlaceDiscard => .noWord
  | .negativeAcknowledgement => .noWord
  | .planReservation => .noWord

/-- Which stream an instruction word belongs to; a step without a word belongs to none. -/
def streamOf : Instr → Option Strm
  | .cAdd _ _ _ => some .c
  | .cSub _ _ _ => some .c
  | .cAnd _ _ _ => some .c
  | .cOr _ _ _ => some .c
  | .cXor _ _ _ => some .c
  | .andn _ _ _ => some .c
  | .cShl _ _ _ => some .c
  | .cShr _ _ _ => some .c
  | .cSra _ _ _ => some .c
  | .cMul _ _ _ => some .c
  | .mulh _ _ _ => some .c
  | .mulhu _ _ _ => some .c
  | .div _ _ _ => some .c
  | .divu _ _ _ => some .c
  | .rem _ _ _ => some .c
  | .remu _ _ _ => some .c
  | .cMin _ _ _ => some .c
  | .cMax _ _ _ => some .c
  | .minu _ _ _ => some .c
  | .maxu _ _ _ => some .c
  | .clz _ _ => some .c
  | .popc _ _ => some .c
  | .seq _ _ _ => some .c
  | .sne _ _ _ => some .c
  | .cSlt _ _ _ => some .c
  | .cSltu _ _ _ => some .c
  | .sel _ _ _ => some .c
  | .cAddi _ _ _ => some .c
  | .andi _ _ _ => some .c
  | .ori _ _ _ => some .c
  | .xori _ _ _ => some .c
  | .cShli _ _ _ => some .c
  | .cShri _ _ _ => some .c
  | .cSrai _ _ _ => some .c
  | .slti _ _ _ => some .c
  | .sltiu _ _ _ => some .c
  | .cLiz _ _ _ => some .c
  | .cLik _ _ _ => some .c
  | .cBeqz _ _ => some .c
  | .cBnez _ _ => some .c
  | .cBltz _ _ => some .c
  | .cBgez _ _ => some .c
  | .cBlez _ _ => some .c
  | .cBgtz _ _ => some .c
  | .cJmp _ => some .c
  | .call _ => some .c
  | .jr _ => some .c
  | .callr _ => some .c
  | .cLdb _ _ _ => some .c
  | .cLdbu _ _ _ => some .c
  | .cLdh _ _ _ => some .c
  | .cLdhu _ _ _ => some .c
  | .cLdw _ _ _ => some .c
  | .cLdwu _ _ _ => some .c
  | .cLdd _ _ _ => some .c
  | .cStb _ _ _ => some .c
  | .cSth _ _ _ => some .c
  | .cStw _ _ _ => some .c
  | .cStd _ _ _ => some .c
  | .atadd _ _ _ _ => some .c
  | .atswp _ _ _ _ => some .c
  | .atcas _ _ _ _ => some .c
  | .atmin _ _ _ _ => some .c
  | .atmax _ _ _ _ => some .c
  | .atminu _ _ _ _ => some .c
  | .atmaxu _ _ _ _ => some .c
  | .arm _ => some .c
  | .waite => some .c
  | .rinit _ _ => some .c
  | .rclaim _ _ => some .c
  | .rpub _ _ => some .c
  | .rwfill _ _ => some .c
  | .rtake _ _ _ => some .c
  | .rwfree _ _ => some .c
  | .reos _ => some .c
  | .bind _ _ _ _ => some .c
  | .acq _ _ _ _ => some .c
  | .rel _ _ _ _ => some .c
  | .fence _ => some .c
  | .fenceFlagged _ _ _ _ => some .c
  | .spawn _ => some .c
  | .join _ _ => some .c
  | .rdv => some .c
  | .exit _ => some .c
  | .yield _ => some .c
  | .segw _ _ _ => some .c
  | .mxq _ _ => some .c
  | .mxd _ _ _ => some .c
  | .xfc _ _ => some .c
  | .evx _ _ => some .c
  | .cplan _ _ => some .c
  | .ctrig _ _ => some .c
  | .cseal _ _ _ => some .c
  | .cmani _ _ => some .c
  | .cabort _ => some .c
  | .crr _ _ => some .c
  | .crw _ _ => some .c
  | .trap _ => some .c
  | .eretReturn => some .c
  | .eretResume => some .c
  | .tlbiPage _ => some .c
  | .tlbiAsid _ => some .c
  | .tlbiAll _ => some .c
  | .c16Mov _ _ => some .c
  | .c16Add _ _ => some .c
  | .c16Sub _ _ => some .c
  | .c16And _ _ => some .c
  | .c16Or _ _ => some .c
  | .c16Xor _ _ => some .c
  | .c16Addi _ _ => some .c
  | .c16Liz _ _ => some .c
  | .c16Shli _ _ => some .c
  | .c16Shri _ _ => some .c
  | .c16Srai _ _ => some .c
  | .c16Ldd _ _ => some .c
  | .c16Std _ _ => some .c
  | .c16Nop => some .c
  | .aAdd _ _ _ => some .a
  | .aSub _ _ _ => some .a
  | .aAnd _ _ _ => some .a
  | .aOr _ _ _ => some .a
  | .aXor _ _ _ => some .a
  | .aShl _ _ _ => some .a
  | .aShr _ _ _ => some .a
  | .aSra _ _ _ => some .a
  | .aMul _ _ _ => some .a
  | .aMin _ _ _ => some .a
  | .aMax _ _ _ => some .a
  | .aSlt _ _ _ => some .a
  | .aSltu _ _ _ => some .a
  | .aAddi _ _ _ => some .a
  | .aLiz _ _ _ => some .a
  | .aLik _ _ _ => some .a
  | .aShli _ _ _ => some .a
  | .aShri _ _ _ => some .a
  | .aSrai _ _ _ => some .a
  | .ldq _ _ _ _ _ => some .a
  | .ldq2 _ _ _ _ _ => some .a
  | .stq _ _ _ _ _ => some .a
  | .stqnt _ _ _ _ _ => some .a
  | .gather _ _ _ _ _ => some .a
  | .scatter _ _ _ _ _ => some .a
  | .ldsr _ _ _ => some .a
  | .pfc _ _ _ => some .a
  | .aLdb _ _ _ _ => some .a
  | .aLdbu _ _ _ _ => some .a
  | .aLdh _ _ _ _ => some .a
  | .aLdhu _ _ _ _ => some .a
  | .aLdw _ _ _ _ => some .a
  | .aLdwu _ _ _ _ => some .a
  | .aLdd _ _ _ _ => some .a
  | .aStb _ _ _ _ => some .a
  | .aSth _ _ _ _ => some .a
  | .aStw _ _ _ _ => some .a
  | .aStd _ _ _ _ => some .a
  | .sqp _ => some .a
  | .ldsq _ _ _ => some .a
  | .aBeqz _ _ => some .a
  | .aBnez _ _ => some .a
  | .aBltz _ _ => some .a
  | .aBgez _ _ => some .a
  | .aBlez _ _ => some .a
  | .aBgtz _ _ => some .a
  | .aJmp _ => some .a
  | .cset _ _ _ _ => some .a
  | .a16Add _ _ => some .a
  | .a16Sub _ _ => some .a
  | .a16Addi _ _ => some .a
  | .a16Mov _ _ => some .a
  | .a16Shli _ _ => some .a
  | .a16Liz _ _ => some .a
  | .a16Nop => some .a
  | .vnop _ => some .v
  | .realn => some .v
  | .vadd _ _ _ _ _ => some .v
  | .vsub _ _ _ _ _ => some .v
  | .vmul _ _ _ _ _ => some .v
  | .vmulh _ _ _ _ _ => some .v
  | .vfma _ _ _ _ _ => some .v
  | .vfms _ _ _ _ _ => some .v
  | .vmin _ _ _ _ _ => some .v
  | .vmax _ _ _ _ _ => some .v
  | .vand _ _ _ _ _ => some .v
  | .vor _ _ _ _ _ => some .v
  | .vxor _ _ _ _ _ => some .v
  | .vshl _ _ _ _ _ => some .v
  | .vshr _ _ _ _ _ => some .v
  | .vadds _ _ _ _ _ => some .v
  | .vsubs _ _ _ _ _ => some .v
  | .vabs _ _ _ _ => some .v
  | .vneg _ _ _ _ => some .v
  | .vnot _ _ _ _ => some .v
  | .vmov _ _ _ => some .v
  | .vexp2 _ _ _ _ => some .v
  | .vlog2 _ _ _ _ => some .v
  | .vrcp _ _ _ _ => some .v
  | .vrsq _ _ _ _ => some .v
  | .vrcpf _ _ _ => some .v
  | .vrsqf _ _ _ => some .v
  | .vclz _ _ _ _ => some .v
  | .vpopc _ _ _ _ => some .v
  | .vcmp _ _ _ _ _ _ => some .v
  | .vsel _ _ _ _ _ => some .v
  | .pand _ _ _ => some .v
  | .por _ _ _ => some .v
  | .pxor _ _ _ => some .v
  | .pandn _ _ _ => some .v
  | .pnot _ _ => some .v
  | .vcvt _ _ _ _ _ => some .v
  | .vqmx _ _ _ _ _ => some .v
  | .vdqmx _ _ _ _ _ => some .v
  | .vrsum _ _ _ _ => some .v
  | .vrmax _ _ _ _ => some .v
  | .vrmin _ _ _ _ => some .v
  | .vrargmax _ _ _ _ => some .v
  | .vperm _ _ _ _ _ => some .v
  | .vshuf _ _ _ _ _ => some .v
  | .vzip _ _ _ _ _ => some .v
  | .vunzip _ _ _ _ _ => some .v
  | .vbcast _ _ _ _ _ => some .v
  | .vslideu _ _ _ _ _ => some .v
  | .vslided _ _ _ _ _ => some .v
  | .vwiden _ _ _ _ _ _ => some .v
  | .vnarrow _ _ _ _ _ _ => some .v
  | .vpop _ _ _ => some .v
  | .vpush _ _ => some .v
  | .vsett _ _ => some .v
  | .vldc _ _ => some .v
  | .vrot _ => some .v
  | .viota _ _ _ _ _ => some .v
  | .writeBackLanding => none
  | .realnBoundary => none
  | .blockFetch => none
  | .accessPerform => none
  | .waiteWake => none
  | .rdvComplete => none
  | .exitEnd => none
  | .yieldEnd => none
  | .segwComplete => none
  | .ringWaitComplete => none
  | .queueWaitComplete => none
  | .jobTake => none
  | .recordPromotion => none
  | .heldPushEntry => none
  | .recordWindowStore => none
  | .admissionWindowStore => none
  | .admissionHeldEntry => none
  | .allocationWindowRead => none
  | .launchEntryFire => none
  | .preempt => none
  | .preemptionFreeze => none
  | .engineFaultDelivery => none
  | .descriptorLoad => none
  | .mnop => none
  | .mma => none
  | .mmax => none
  | .zeroz => none
  | .loadz => none
  | .storez => none
  | .drainz => none
  | .drainq => none
  | .glz => none
  | .atsc => none
  | .atsoInit => none
  | .atsoUpdate => none
  | .atsoFinal => none
  | .atsoMass => none
  | .atav => none
  | .atmc => none
  | .matrixCommandComplete => none
  | .mswait _ => some .c
  | .mssig _ => some .c
  | .chainStart => none
  | .copy => none
  | .copynd => none
  | .mcast => none
  | .fill => none
  | .kvmove => none
  | .kvshare => none
  | .promote => none
  | .demote => none
  | .kvmark => none
  | .loop => none
  | .cond => none
  | .note => none
  | .waitev => none
  | .commandRetire => none
  | .xevwait _ => some .c
  | .xevsig _ => some .c
  | .evscan => none
  | .evcompact => none
  | .evdecay => none
  | .rago _ => some .c
  | .rares _ => some .c
  | .sq _ => some .c
  | .cnopen _ => some .c
  | .cncur _ => some .c
  | .cnbind _ => some .c
  | .rqfin _ => some .c
  | .ringStationRun => none
  | .ringStationStop => none
  | .kvcfgWrite _ => some .c
  | .mdcfgWrite _ => some .c
  | .mnqCiWrite _ => some .c
  | .wload _ => some .c
  | .wloadComplete => none
  | .dcnt _ _ => some .c
  | .therm _ => some .c
  | .rpair => none
  | .bypass => none
  | .tagPresentation => none
  | .dispatchRound1 => none
  | .frameClose => none
  | .segmentLanding => none
  | .landingAcknowledgement => none
  | .ackTimeoutResend => none
  | .slotPark => none
  | .parkRetry => none
  | .scrub => none
  | .postedWrite => none
  | .slotReinject => none
  | .readRequest => none
  | .readResponse => none
  | .acknowledgement => none
  | .remoteAtomic => none
  | .atomicResult => none
  | .planTransfer => none
  | .consignmentStore => none
  | .timing => none
  | .sync => none
  | .failureNotice => none
  | .slotResendRequest => none
  | .linkError => none
  | .linkRetrainEnd => none
  | .mergedWrite => none
  | .triggerWrite => none
  | .planFiringStart => none
  | .planFiringComplete => none
  | .planStall => none
  | .planHoldNotice => none
  | .planReleaseNotice => none
  | .holdCeilingExpiry => none
  | .planAbortNotice => none
  | .manifestEntry => none
  | .confirmation => none
  | .publishTime => none
  | .publish => none
  | .bondDrain => none
  | .censusNotice => none
  | .abortRequest => none
  | .abortNotice => none
  | .cnwaitExpiry => none
  | .destinationHoldExpiry => none
  | .ethernetSend => none
  | .ethernetWrite => none
  | .ethernetAck => none
  | .contextTeardown => none
  | .ethernetLinkDown => none
  | .ethernetAckTimeout => none
  | .telemetryUpdate => none
  | .deviceReset => none
  | .attestationRequest => none
  | .rsttlenWrite _ => some .c
  | .cqcfgWrite _ => some .c
  | .ringcfgWrite => none
  | .scrcfgRead _ => some .c
  | .combiningBufferExpiry => none
  | .orphanPlaceDiscard => none
  | .negativeAcknowledgement => none
  | .planReservation => none

/-- The halfwords of an encoding in address order (R162). -/
def Enc.halves : Enc → List H16
  | .noWord => []
  | .half w => [w]
  | .full w => [fld w 16 16, fld w 0 16]

/-- The halfwords of a number of nbits bits as the opcode table numbers them: one halfword for a row of 16 bits, otherwise
the two halfwords of a 32-bit word, the one with bits [31:16] first (R162). -/
def tableHalves (nbits w : Nat) : List H16 :=
  if nbits ≤ 16 then [BitVec.ofNat 16 w] else [BitVec.ofNat 16 (w / 65536), BitVec.ofNat 16 w]

/-- Does a stream's decoder read these halfwords as one whole word? -/
def tableReads (st : Strm) (hs : List H16) : Bool :=
  match decodeAt st hs with
  | (.ok _, n) => n == hs.length
  | (.bad _, _) => false

/-- The stream whose decoder reads a table word: the C-stream where its decoder accepts it, else the A-stream, else the
V-stream. The three streams number their words independently, so one number may be a word of each (R175-R179; log entry 3). -/
def tableStream (nbits w : Nat) : Option Strm :=
  let hs := tableHalves nbits w
  if tableReads .c hs then some .c else if tableReads .a hs then some .a else if tableReads .v hs then some .v else none

/-- What the decoder reads from a word numbered as spec/opcode_table.json numbers it. -/
def decodeTableWord (nbits w : Nat) : Option Instr :=
  match tableStream nbits w with
  | none => none
  | some st =>
    match decodeAt st (tableHalves nbits w) with
    | (.ok i, _) => some i
    | (.bad _, _) => none

end Sys2Proof
end

