-- ==== Sys2Proof/Config.lean ====
section
/-!
DEFINITION. What the manual leaves open: free values. Each is an opaque constant with no body, so that no proof can see
its value. Each has a row of the assumption log.
-/
namespace Sys2Proof.Config

/-- Which agent acts next when State.agenda is empty (log entry 1). The argument is the counter State.fresh. -/
opaque schedule : Nat → Move
/-- Bytes of a context area whose inner layout the manual does not give (Table 2-10 rows without one), by freeze and offset
(log entry 6). -/
opaque contextByte : Nat → Nat → Byte
/-- Whether a translation uses an entry held in the TLB or the die translation cache, or walks the tables afresh (R88, R89;
log entry 8). -/
opaque tlbHit : Nat → Bool
/-- Internal formats that a readback window returns and no chapter gives, by what the region shows and the offset (R388; log entry 22). -/
opaque readbackByte : List Nat → Nat → Byte
/-- Whether a fabric slot addressed to the home bank or a waystation near the start or end of a reservation executes in the
waystation (R342, R399; log entry 16). -/
opaque inWaystation : Nat → Bool
/-- Seed of the identity key pair, derived from a fused die secret (R391; log entry 20), by die. -/
opaque identitySeed : Nat → BitVec 256
/-- Fused key hash number k: its first 32 bytes of SHA-512, whether it is revoked, and the fused minimum security version of
an image kind (R390; log entry 20). -/
opaque fusedKeyHash : Nat → BitVec 256
/-- Whether fused key hash k is revoked (R390; log entry 20). -/
opaque fusedRevoked : Nat → Bool
/-- Fused minimum security version of image kind k (R390; log entry 20). -/
opaque fusedMinSvn : Nat → Nat
/-- The value of a field the manual states no value for, by use (log entry 21). -/
opaque openWord : Nat → W64

end Sys2Proof.Config
end

