-- ==== Sys2Proof/Machine/Sparse.lean ====
section
/-!
DEFINITION. Sparse tables: a list of (key, value) pairs with keys rising, and a default for a key that is not listed. Register
files, control registers, cores, clusters and dies are held so: the state lists what differs from reset and stays plain data.
-/
namespace Sys2Proof.Machine

/-- A sparse table: pairs of a key and a value. -/
abbrev Sp (α : Type) := List (Nat × α)

/-- The value listed at a key, if one is. -/
def spFind {α : Type} : Sp α → Nat → Option α
  | [], _ => none
  | (j, v) :: t, k => if j = k then some v else spFind t k

/-- The value at a key: the listed one, else the default d. -/
def spGet {α : Type} (d : α) (t : Sp α) (k : Nat) : α := (spFind t k).getD d

/-- The table with a value at a key; keys stay rising. -/
def spSet {α : Type} : Sp α → Nat → α → Sp α
  | [], k, v => [(k, v)]
  | (j, w) :: t, k, v => if j = k then (k, v) :: t else if k < j then (k, v) :: (j, w) :: t else (j, w) :: spSet t k v

/-- The table without a key. -/
def spDel {α : Type} (t : Sp α) (k : Nat) : Sp α := t.filter fun p => p.1 != k

/-- Replaces item k of a list; beyond the end the list is unchanged. -/
def setNth {α : Type} : List α → Nat → α → List α
  | [], _, _ => []
  | _ :: t, 0, v => v :: t
  | h :: t, k + 1, v => h :: setNth t k v

/-- Removes item k of a list. -/
def dropNth {α : Type} : List α → Nat → List α
  | [], _ => []
  | _ :: t, 0 => t
  | h :: t, k + 1 => h :: dropNth t k

/-- The numbers a, a + 1, ..., a + n - 1. -/
def upFrom (a : Nat) : Nat → List Nat
  | 0 => []
  | n + 1 => a :: upFrom (a + 1) n

/-- Applies f to a state once for each item of a list, first item first. -/
def each {α σ : Type} (f : α → σ → σ) : List α → σ → σ
  | [], s => s
  | x :: t, s => each f t (f x s)

/-- The bytes of a number, least significant first (R5). -/
def bytesOf : Nat → Nat → List Byte
  | 0, _ => []
  | n + 1, v => BitVec.ofNat 8 v :: bytesOf n (v / 256)

/-- The number whose bytes, least significant first, are given (R5). -/
def ofBytes : List Byte → Nat
  | [] => 0
  | b :: t => b.toNat + 256 * ofBytes t

/-- A list cut or padded with zero bytes to n. -/
def padTo (n : Nat) (l : List Byte) : List Byte := (l ++ List.replicate (n - l.length) 0).take n

/-- Bits [lo + len - 1 : lo] of a number (R4). -/
def bitsAt (v lo len : Nat) : Nat := v / 2 ^ lo % 2 ^ len

/-- A field of a doubleword, as a number (R4). -/
def fieldOf (w : W64) (lo len : Nat) : Nat := (w.toNat >>> lo) % 2 ^ len

/-- A bit of a doubleword. -/
def bitOf (w : W64) (k : Nat) : Bool := w.toNat.testBit k

/-- A doubleword with bits [lo + len - 1 : lo] replaced. -/
def setField (w : W64) (lo len v : Nat) : W64 :=
  let m : Nat := (2 ^ len - 1) <<< lo
  (w &&& ~~~ (BitVec.ofNat 64 m)) ||| BitVec.ofNat 64 ((v % 2 ^ len) <<< lo)

/-- sext(x, w) of a w-bit field, as an integer (R169). -/
def sextNat (x w : Nat) : Int := if x % 2 ^ w < 2 ^ (w - 1) then (x % 2 ^ w : Nat) else (x % 2 ^ w : Nat) - (2 ^ w : Nat)

end Sys2Proof.Machine
end

