-- ==== Sys2Proof/Machine/State.lean ====
section
/-!
DEFINITION. The state of the device: every die of the ring, its cores, clusters and units, memory, and what is in flight
between them, as plain data. Sparse tables list what differs from reset. Reasons a step can stop, and the state after reset.
-/
namespace Sys2Proof.Machine

/-- Why a step stops with a fault. -/
inductive Fault where
  /-- A move names an agent that the device does not have, or gives a word of a stream as a step without a word: raised by
  step alone. Safe: no such move exists on the hardware. -/
  | noSuchMove
  deriving DecidableEq, Repr

/-- Why a step is refused. -/
inductive Refusal where
  /-- An instruction without a meaning, by the mnemonic of spec/opcode_table.json: raised by an arm of exec alone. Safe. -/
  | notModelled (mnemonic : String)
  deriving DecidableEq, Repr

/-- What a trap reports (Table 16-3, R401, R402): class, code, stream, pc, address, the word, bytes 44-47 and 48-63 of DETAIL; whether the fetch of
the block at pc trapped (R403, R419). -/
structure TrapInfo where
  cls : Nat
  code : Nat
  strm : Strm
  pc : Nat
  addr : Nat := 0
  word : Nat := 0
  d44 : Nat := 0
  d48 : Nat := 0
  d56 : Nat := 0
  fetch : Bool := false
  deriving DecidableEq, Repr, Inhabited

/-- What an access needs of its page or area (R83, R86); none: nothing is accessed, the address alone is asked for (R205). -/
structure Need where
  rd : Bool := false
  w : Bool := false
  x : Bool := false
  none : Bool := false
  deriving DecidableEq, Repr, Inhabited

/-- A park (R415-R419): its failing virtual address, t0, retries made, whether the page is in motion, the SUB of its records, what the
access needs, and the whole access by its pieces of one page each (virtual address, bytes), which a retry asks for again. -/
structure ParkSt where
  va : Nat
  t0 : W64
  k : Nat
  motion : Bool
  sub : Nat := 0
  need : Need := {}
  span : List (Nat × Nat) := []
  deriving DecidableEq, Repr, Inhabited

/-- Where a stream's block stands (R158-R164): idle, its block at hdr to be fetched, body running, or stopped at an entry
header (R41). -/
inductive BMode where
  | off | fetch | run | stopped
  deriving DecidableEq, Repr, Inhabited

/-- A stream's block state: header address, header word, body, place of the next word in halfwords, iterations still to run
with the current one, whether the first body word is still to be presented (R159), the word that is waiting, the progress of a
multi-access word, lines of its current row already sent with the row's physical runs, its park, and the access whose first park has
written its record (R418). -/
structure Blk where
  mode : BMode := .off
  hdr : Nat := 0
  word : W32 := 0
  body : List H16 := []
  pos : Nat := 0
  left : Nat := 0
  fresh : Bool := false
  again : Bool := false
  wait : Option Instr := none
  prog : Nat := 0
  sub : Nat := 0
  rowAt : List (Nat × Nat) := []
  park : Option ParkSt := none
  told : List (Nat × Nat) := []
  deriving DecidableEq, Repr, Inhabited

/-- A pending landing of the V-stream (R172, R52): ck still to pass, register writes (physical register, data, bit mask),
predicate writes, an expected tag, a count, an entry pushed to an out queue, flags, and the word's address and ORD. -/
structure Landing where
  rem : Nat := 0
  vs : List (Nat × VReg × VReg) := []
  qs : List (Nat × QReg × QReg) := []
  xt : Option (Nat × BitVec 16) := none
  kc : Option (Nat × W32) := none
  oq : Option (Nat × VReg) := none
  flags : BitVec 5 := 0
  pc : Nat := 0
  ord : W64 := 0
  deriving DecidableEq, Repr, Inhabited

/-- A place of a dq (R236): its reservation number, its data once filled, its tag (R95), the A-stream stores before it (R233). -/
structure DqEnt where
  id : Nat
  data : Option VReg := none
  tag : BitVec 16 := 0
  seen : Nat := 0
  deriving DecidableEq, Repr, Inhabited

/-- A place of the scalar queue (R244): its reservation number, its data once filled, the A-stream stores before its push. -/
structure SqEnt where
  id : Nat
  data : Option W64 := none
  seen : Nat := 0
  deriving DecidableEq, Repr, Inhabited

/-- What an access of a stream does when it performs (R108). -/
inductive AccK where
  /-- load into register d of the stream, sign-extended if sg -/
  | ld (d : Nat) (sg : Bool)
  /-- fill of the dq place with the access's number; tile: exactly one aligned tile -/
  | dq (q : Nat) (tile : Bool)
  /-- fill of a place of the scalar queue -/
  | sq
  /-- store -/
  | st
  /-- non-temporal store to companion memory: its line enters the combining buffer (R238) -/
  | nt
  /-- atomic of the C-stream: operation, destination, width in bytes, operand, compare value -/
  | at (op d w : Nat) (x y : W64)
  /-- acquire load into d at a scope -/
  | acq (d : Nat) (scope : Scope)
  /-- release store: waits for the C-stream's stores that it releases, by number, and for the A-stream's up to a number -/
  | rel (deps : List Nat) (seen : Nat) (scope : Scope)
  /-- read of a monitored line -/
  | arm
  deriving DecidableEq, Repr, Inhabited

/-- An issued access that has not performed (R108, R114): its number, stream, alias class, effect, the runs of physical bytes
it touches (address, length), the bytes a store writes, whether a read request is on the ring, the word's pc, the tag its tile had
when the first of its requests was served (R107), whether an acquire has its value and waits (R117). -/
structure Acc where
  id : Nat
  strm : Strm
  cls : Nat
  kind : AccK
  runs : List (Nat × Nat)
  data : List Byte := []
  sent : Bool := false
  pc : Nat := 0
  word : Nat := 0
  seq : Nat := 0
  tag : Option (BitVec 16) := none
  back : Bool := false
  deriving DecidableEq, Repr, Inhabited

/-- A binding (R112): a range of 64-byte lines of physical bytes and its sync object. -/
structure Binding where
  lo : Nat
  hi : Nat
  obj : Nat
  deriving DecidableEq, Repr, Inhabited

/-- An entry of the matrix command queue (R219): a command, or a descriptor for a slot. -/
structure MEnt where
  desc : Option Nat
  lo : W64
  hi : W64
  deriving DecidableEq, Repr, Inhabited

/-- A glaze slot (R300): LEN, operation words, constants. -/
structure Glaze where
  len : Nat := 0
  ops : List W32 := []
  cs : List W32 := []
  deriving DecidableEq, Repr, Inhabited

/-- The matrix engine of a core (R285-R290): queue, accumulators (element 4096 z + 64 r + c), the head's next K-block or row,
whether its step 1 and CLR zeroing are done, whether it has executed, flags gathered, the fault that halted it, the A-stream stores
before what it popped (R233), each dq at which a pop of it waits and whether a VPOP waited there before (R280). -/
structure Eng where
  q : List MEnt := []
  z : Sp W32 := []
  prog : Nat := 0
  step1 : Bool := false
  clr : Bool := false
  done : Bool := false
  flags : BitVec 3 := 0
  halt : Option TrapInfo := none
  seen : Nat := 0
  popw : List (Nat × Bool) := []
  deriving DecidableEq, Repr, Inhabited

/-- A continuation record on its way or in a queue (R29-R34): the record, its push tick, the start of its 64-microsecond clock,
its supervisor mark (R377), the path that pushed it (Table 19-7), whether its core takes it ahead of all others (R49, R380), its place
in the memory of its level (log entry 24). -/
structure QRec where
  r : Rec
  push : W64 := 0
  clk : W64 := 0
  sup : Bool := false
  path : Nat := 0
  ahead : Bool := false
  place : Nat := 0
  deriving DecidableEq, Repr, Inhabited

/-- A job: the streams of a core, the region, and every register and queue that a job owns (Tables 1-2, 1-3, 2-5, 2-10). ckOn: the
landings of the ck in which the V-stream's next word is due have been applied (R407); arith: an arithmetic trap of that ck that is still to
be raised (R404, R410); mseen: the A-stream stores before the signals of each matrix semaphore (R233); pend: a trap that waits for the
engine's command to complete (R290). -/
structure Job where
  live : Bool := false
  id : Nat := 0
  smask : BitVec 4 := 0
  src : QRec := {r := {d0 := 0, d1 := 0, d2 := 0, d3 := 0}}
  sup : Bool := false
  handler : Bool := false
  roff : Nat := 0
  rcls : Nat := 0
  c : Blk := {}
  a : Blk := {}
  v : Blk := {}
  s : Sp W64 := []
  ar : Sp W64 := []
  vr : Sp VReg := []
  q : Sp QReg := []
  kc : Sp W32 := []
  xt : Sp (BitVec 16) := []
  vrb : BitVec 5 := 0
  ord : W64 := 0
  vnop : Nat := 0
  realn : Option W64 := none
  land : List Landing := []
  ckOn : Bool := false
  arith : Option TrapInfo := none
  pend : Option TrapInfo := none
  fps : W64 := 0
  rxp : W64 := 0
  dq : Sp (List DqEnt) := []
  oq : Sp (List VReg) := []
  sq : List SqEnt := []
  acc : List Acc := []
  seq : Nat := 0
  aSeen : Nat := 0
  lost : List (Nat × Nat) := []
  binds : List Binding := []
  mon : Option Nat := none
  evt : Bool := false
  sem : Sp Nat := []
  mseen : Sp Nat := []
  desc : Sp (W64 × W64) := []
  glaze : Sp Glaze := []
  cncur : W64 := 0
  cnsent : Sp Nat := []
  raopnd : W64 := 0
  racmp : W64 := 0
  rares : W64 := 0
  rago : Bool := false
  rafail : Option Nat := none
  deriving DecidableEq, Repr, Inhabited

/-- A frozen context of a core (R51-R54, R379): the address of its area, the job, its trap if a trap froze it, and the 64 KiB units
of its region that have been saved to its save area (R53). -/
structure Held where
  ctxp : Nat
  job : Job
  trap : Option TrapInfo
  saved : List Nat := []
  deriving DecidableEq, Repr, Inhabited

/-- An entry of a TLB or of the die translation cache (R88): ASID, global, page base, page size in bits, the leaf. -/
structure TlbEnt where
  asid : Nat
  glob : Bool
  va : Nat
  bits : Nat
  leaf : W64
  deriving DecidableEq, Repr, Inhabited

/-- A line of the combining buffer (R238): its address, its bytes (offset, byte), the ring tick it entered, its store. -/
structure NtLine where
  pa : Nat
  bytes : List (Nat × Byte)
  at0 : W64
  seq : Nat
  deriving DecidableEq, Repr, Inhabited

/-- A core: its job, the contexts frozen on it, the engine, supervisor registers by control address (0x100-0x11F, and TROOT as
0x400), the context whose engine state a freeze left in the engine (R408), a held pre-emption request, a taken record whose entry block
is still to be fetched, its TLB, its combining buffer. -/
structure Core where
  job : Job := {}
  held : List Held := []
  eng : Eng := {}
  engHeld : Bool := false
  engCtx : Option Nat := none
  cr : Sp W64 := []
  preq : Bool := false
  taken : Option (QRec × Option ParkSt) := none
  tlb : List TlbEnt := []
  nt : List NtLine := []
  deriving DecidableEq, Repr, Inhabited

/-- A level of an active LOOP of a chain (R317). -/
structure LoopLvl where
  pc : Nat
  n : Nat
  so : Int
  dof : Int
  deriving DecidableEq, Repr, Inhabited

/-- An unstarted chain head (R307): its address, and the core, translation root and privilege of the job that issued it. -/
structure ChainHead where
  pc : Nat
  core : Nat
  root : W64
  sup : Bool
  deriving DecidableEq, Repr, Inhabited

/-- How far a chain's current command is: to be read, read and waiting for its events, acting, or acted and to be retired. -/
inductive ChainPh where
  | read | wait | act | retire
  deriving DecidableEq, Repr, Inhabited

/-- A KV command that moves a page (R323, R325): the source record, the record, the frame or page written, the place read, and the
old destination entry or the slow-tier page. -/
structure KvRun where
  src : Nat
  md : Nat
  frame : Nat
  pa0 : Nat
  old : Nat
  deriving DecidableEq, Repr, Inhabited

/-- A running chain of a transfer engine (R307-R318): its head, command address, the core whose port it uses, root and privilege;
loops; phase, command and its progress; tiles completed, and by tile the bytes written and the tag; status code, failed members,
detail; the next command; slots held, page being moved, slot whose HOLD it raised; bytes read, whether they are whole, whether
requests for them are on the ring, whether STATUS is written; its park, and the access whose first park has written its record (R418). -/
structure Chain where
  head : Nat
  pc : Nat
  core : Nat
  root : W64
  sup : Bool
  lv : List LoopLvl := []
  ph : ChainPh := .read
  cmd : List Byte := []
  prog : Nat := 0
  tiles : Nat := 0
  part : Sp (Nat × BitVec 16) := []
  code : Nat := 0
  mask : Nat := 0
  detail : Nat := 0
  nxt : Nat := 0
  slots : List Nat := []
  kv : Option KvRun := none
  hold : Option Nat := none
  buf : List Byte := []
  got : Bool := false
  asked : Bool := false
  sent : Bool := false
  park : Option ParkSt := none
  told : List (Nat × Nat) := []
  deriving DecidableEq, Repr, Inhabited

/-- A transfer engine (R307): unstarted heads in order, and up to four chains. -/
structure XEng where
  heads : List ChainHead := []
  chains : Sp Chain := []
  deriving DecidableEq, Repr, Inhabited

/-- A cluster: control registers 0x200-0x202, whether CQCFG has been written, record queues by level, held pushes of the ordinary
and of the reserved paths by level, levels whose exhaustion is reported, event counts, transfer engines. -/
structure Cluster where
  cr : Sp W64 := []
  cq : Bool := false
  q : Sp (List QRec) := []
  heldO : Sp (List QRec) := []
  heldR : Sp (List QRec) := []
  exh : Sp Bool := []
  ev : Sp Nat := []
  eng : Sp XEng := []
  deriving DecidableEq, Repr, Inhabited

/-- A request slot (Table 3-7), with its channel cursor (R101), and whether its state was lost by a bypass (R435). -/
structure ReqSlot where
  state : Nat := 0
  prio : Nat := 0
  model : Nat := 0
  layer : Nat := 0
  slice : Nat := 0
  fin : Bool := false
  defer : Bool := false
  parkp : Bool := false
  hold : Nat := 0
  skips : Nat := 0
  ptbase : Nat := 0
  reqid : W64 := 0
  steps : Nat := 0
  budget : Nat := 0
  ptick : W64 := 0
  cursor : Nat := 0
  lost : Bool := false
  deriving DecidableEq, Repr, Inhabited

/-- A record of the admission queue (R74, R76), with the reason of a completion record that is still to be written. -/
structure AdmEnt where
  r : AdmRec
  pend : Option Nat := none
  deriving DecidableEq, Repr, Inhabited

/-- What a serai frame holds (R63, R64, R429; its readback is R451): free, landing, landed, open, retained; acknowledgements
still awaited clockwise and counter-clockwise, whether WLOAD loaded it, its entry, tag with RPAR, rotation and landing tick. -/
structure Frame where
  st : Nat := 0
  ackCw : Bool := false
  ackCcw : Bool := false
  loaded : Bool := false
  entry : Nat := 0
  tag : W32 := 0
  rot : Nat := 0
  land : W64 := 0
  seqno : Nat := 0
  deriving DecidableEq, Repr, Inhabited

/-- A segment copy on a link (R64, R429-R431): sender and its frame, receiver, the SRC its direction gives, tag, rotation, tick of its
first slot, whether it has been resent, whether it has landed and its acknowledgement is on the way, whether it was on the link when
the receiver's station stopped, whether its first slot has come, the frame it lands in, whether it is the second of a landed copy. -/
structure Seg where
  src : Nat
  frame : Nat
  dst : Nat
  dir : Nat
  tag : W32
  rot : Nat
  sent : W64
  resent : Bool := false
  ack : Bool := false
  prog : Bool := false
  begun : Bool := false
  land : Option Nat := none
  dup : Bool := false
  deriving DecidableEq, Repr, Inhabited

/-- The state of a timetable entry (R63, R429): the rotation next presented, next at LATEST, next to close; the due tick of a
presentation whose frame is open and that the tile scheduler is still to handle (R32). -/
structure EntSt where
  next0 : Nat := 0
  next1 : Nat := 0
  nextC : Nat := 0
  wait : Option Nat := none
  deriving DecidableEq, Repr, Inhabited

/-- A scraper command (R326): its 128 bits, the issuing cluster and the supervisor mark. -/
structure ScrCmd where
  lo : W64
  hi : W64
  cl : Nat
  deriving DecidableEq, Repr, Inhabited

/-- Who waits at the source of a fabric slot. -/
inductive Who where
  /-- an A-stream store: window charged, store number -/
  | store (win seq : Nat)
  /-- a load: number of the access -/
  | load (id : Nat)
  /-- RAGO -/
  | rago
  /-- a transfer chain -/
  | chain (cl eng ch : Nat)
  /-- a plan: place, generation, firing, bytes of the chunk -/
  | plan (place gen firing : Nat)
  /-- an Ethernet write packet at the receiving die -/
  | eth
  | none
  deriving DecidableEq, Repr, Inhabited

/-- A fabric slot in flight (R334-R337, Table 14-1). A response keeps the request's src and dst; pid: the PLANID by which a plan
transfer finds its participant (R344); placed: it holds a reception place of its destination (R337). -/
structure FSlot where
  kind : Nat
  refc : Nat := 0
  dst : Nat
  dstc : Nat := 0
  src : Nat
  srcc : Nat := 0
  job : Nat := 0
  seq : Nat := 0
  opx : Nat := 0
  pa : Nat := 0
  len : Nat := 0
  handle : Nat := 0
  tag : BitVec 16 := 0
  need : Nat := 0
  rank : Nat := 0
  data : List Byte := []
  who : Who := .none
  rets : Nat := 0
  back : Bool := false
  due : W64 := 0
  pid : Nat := 0
  placed : Bool := false
  deriving DecidableEq, Repr, Inhabited

/-- Bytes of a plan transfer gathered for one aligned 256-byte chunk (R443): firing, chunk address, offset and bytes; of a transfer that a
consignment is bound to, its slots that are acknowledged once the chunk has entered the bond (R366). -/
structure Chunk where
  key : Nat
  firing : Nat
  addr : Nat
  need : Nat
  got : List (Nat × Byte)
  slots : List FSlot := []
  deriving DecidableEq, Repr, Inhabited

/-- A reserved plan (R343-R349, R440-R442): generation, the record's virtual address, the job, the record's bytes, translation root and privilege, firing
count, pending trigger values, the firing in progress and its value, the walk's next transfer, byte and destination, slots not yet
acknowledged, bytes landed of even and odd firings, the consignment bound last and the firing from which it is, the bindings before it
likewise, abort cause, holds, tick of the last progress and the tick since which the stall timer is suspended (R440), partly arrived
chunks, bytes landed per transfer and tile, whole-tile contributions per firing and tile. -/
structure Plan where
  gen : Nat
  va : Nat := 0
  core : Nat
  job : Nat
  bytes : List Byte
  root : W64
  sup : Bool
  f : Nat := 0
  pend : List W64 := []
  act : Option W64 := none
  walk : Nat := 0
  off : Nat := 0
  target : Nat := 0
  unack : Nat := 0
  cnt0 : Nat := 0
  cnt1 : Nat := 0
  bound : Nat := 0
  bindAt : Nat := 0
  bound0 : List (Nat × Nat) := []
  abort : Option Nat := none
  frozen : Option W64 := none
  holds : Nat := 0
  prog : W64 := 0
  holdAt : W64 := 0
  park : Option ParkSt := none
  told : List (Nat × Nat) := []
  chunks : List Chunk := []
  tiles : List (Nat × Nat × Nat) := []
  conts : List (Nat × Nat × Nat) := []
  deriving DecidableEq, Repr, Inhabited

/-- An entry of a release manifest at the coordinator (R370, R371). -/
structure ManEnt where
  stata : Nat
  expect : Nat
  conf : Bool := false
  deriving DecidableEq, Repr, Inhabited

/-- A coordinator place (R360, R371, R444): handle, state as Table 15-2, status object, scope, lead, manifest, census, T. -/
structure Coord where
  handle : Nat
  state : Nat
  stata : Nat
  scope : Nat := 4
  lead : Nat := 0
  ents : List ManEnt := []
  census : Bool := false
  t : W64 := 0
  sentAt : W64 := 0
  deriving DecidableEq, Repr, Inhabited

/-- A destination place (R360, R368, R371, R446): handle, state (0 until its entry arrives), status object, RECV, EXPECT, T,
whether it has confirmed, whether the census passed it, expiry of its HOLD, bytes discarded late, when it opened. -/
structure Dest where
  handle : Nat
  state : Nat := 0
  stata : Nat := 0
  scope : Nat := 4
  recv : Nat := 0
  expect : Nat := 0
  t : W64 := 0
  conf : Bool := false
  census : Bool := false
  orphan : Bool := false
  hold : W64 := 0
  late : Nat := 0
  lateAddr : Nat := 0
  tKnown : Bool := false
  opened : W64 := 0
  deriving DecidableEq, Repr, Inhabited

/-- A bond line (R367, R372): its number, handle, home line, the bytes that its mask shows (offset, byte), whether its overlay is on,
whether a word of it is uncorrectable, and the home line's value that an accumulation began from (R373). -/
structure Bond where
  line : Nat
  handle : Nat
  home : Nat
  bytes : List (Nat × Byte)
  on : Bool := false
  bad : Bool := false
  base : List Byte := []
  deriving DecidableEq, Repr, Inhabited

/-- A tile tag that a publish applies (R373): handle, tile, tag. -/
structure BondTag where
  handle : Nat
  tile : Nat
  tag : BitVec 16
  deriving DecidableEq, Repr, Inhabited

/-- A send entry in progress at an Ethernet port (R356): its index and bytes. -/
structure EthSend where
  idx : Nat
  ent : List Byte
  deriving DecidableEq, Repr, Inhabited

/-- A delivery context (R355, R439): peer, tick of its last packet or acknowledgement, tick of its last acknowledgement (of its first
packet before any), entries whose bytes are not all acknowledged. -/
structure EthCtx where
  peer : Nat
  last : W64
  acked : W64
  ents : List Nat
  deriving DecidableEq, Repr, Inhabited

/-- An Ethernet port (R354-R356): next entry to send, sends in progress, contexts, entries handed to the network (index, source address,
length), negative acknowledgements answered (window, reason), entries over that CI has not passed. -/
structure EthPort where
  next : Nat := 0
  sends : List EthSend := []
  ctxs : List EthCtx := []
  out : List (Nat × Nat × Nat) := []
  nacks : List (Nat × Nat) := []
  done : List Nat := []
  deriving DecidableEq, Repr, Inhabited

/-- A die: die registers by control address (0x300-0x31E, root registers 0x401-0x42F), the addresses written since reset, the source,
frame and tag of a WLOAD in progress (R433), T of the consignments it has published as coordinator (R446), the 100 µs of ring tick of its
last telemetry (R455), and the state of its units. -/
structure Die where
  cr : Sp W64 := []
  wrote : List Nat := []
  wload : Option (Nat × Nat × Nat) := none
  slots : Sp ReqSlot := []
  adm : List AdmEnt := []
  admHeld : List AdmRec := []
  frames : Sp Frame := []
  ents : Sp EntSt := []
  n0 : Nat := 0
  openSeq : Nat := 0
  wc : Sp Nat := []
  kvUsed : List Nat := []
  mdUsed : List Nat := []
  mnOvf : Bool := false
  mnMdx : Option (Nat × Bool) := none
  motion : List Nat := []
  scr : List ScrCmd := []
  scrProg : Bool := false
  scrBound : Bool := false
  scrAt : Nat := 0
  scrN : Nat := 0
  scrSaw : Option (List W64 × Nat) := none
  plans : Sp Plan := []
  planGen : Nat := 0
  coords : Sp Coord := []
  dests : Sp Dest := []
  cnseq : Nat := 0
  cnT : Sp W64 := []
  bonds : List Bond := []
  btags : List BondTag := []
  censused : List Nat := []
  expired : List Nat := []
  eth : EthPort := {}
  links : Sp Nat := []
  tcache : List TlbEnt := []
  released : Bool := false
  imgRoot : List Byte := []
  imgSvc : List Byte := []
  bypassed : Bool := false
  telem : Nat := 0
  deriving DecidableEq, Repr, Inhabited

/-- Notices between dies: of plans, of consignments, failure notices and timing (R358, R371, R375, R437, R440-R446). -/
inductive MsgK where
  | manifest | confirm | time | census | abortReq | abort | planHold | planRelease | planAbort | failure | timing
  deriving DecidableEq, Repr, Inhabited

/-- A notice in flight. -/
structure Msg where
  kind : MsgK
  dst : Nat
  src : Nat := 0
  handle : Nat := 0
  x : Nat := 0
  y : Nat := 0
  z : Nat := 0
  slot : Option FSlot := none
  deriving DecidableEq, Repr, Inhabited

/-- A line of a waystation's combining table (R342): running value, whether an atomic is not yet merged, the tick of the first such. -/
structure CombLine where
  pa : Nat
  bytes : List Byte
  dirty : Bool
  first : W64
  deriving DecidableEq, Repr, Inhabited

/-- A reserved reduction window of a waystation (R342, R399): the plan, its base and lines, whether its stream has made a release
since the reservation, whether it is ending. -/
structure CombWin where
  die : Nat
  place : Nat
  pa : Nat
  lines : Nat
  firm : Bool := false
  ending : Bool := false
  deriving DecidableEq, Repr, Inhabited

/-- A tile tag that waits for the merged writes of lines of the tile (R347). -/
structure WayTag where
  tile : Nat
  tag : BitVec 16
  lines : List Nat
  deriving DecidableEq, Repr, Inhabited

/-- A waystation (number 2 * package, plus 1 for the west one). -/
structure Way where
  wins : List CombWin := []
  lines : List CombLine := []
  tags : List WayTag := []
  deriving DecidableEq, Repr, Inhabited

/-- A release store at a scope that not every agent of the ring lies within, which has performed before stores that it released
(R113, R117): its object, the core and job that made it, those stores by number, the A-stream's up to a number, its scope. An acquire of
the object by an agent within both scopes completes after them. -/
structure RelPend where
  obj : Nat
  core : Nat
  job : Nat
  deps : List Nat
  seen : Nat
  scope : Scope
  deriving DecidableEq, Repr, Inhabited

/-- The state of the device and of what it holds of the ring. -/
structure State where
  /-- memory by physical global address (R80), canonical: see Memory.wf -/
  mem : List Host.Cell
  /-- soft errors by aligned doubleword address (R424): 1 one bad bit, 2 two, 3 an uncorrectable word copied with its check bits (R425) -/
  ecc : Sp Nat
  /-- sequence tags by tile, the tile-store address divided by 512 (R95) -/
  tags : Sp (BitVec 16)
  /-- ring tick in ns (R22), and each package's offset from it (R358) -/
  tick : W64
  adj : Sp W64
  /-- what is left of a correction by which a package slews its tick, and which Sync is next (R358) -/
  slew : Sp Int
  syncs : Nat
  cores : Sp Core
  clusters : Sp Cluster
  dies : Sp Die
  ways : Sp Way
  slots : List FSlot
  segs : List Seg
  msgs : List Msg
  /-- releases whose stores an acquire within their scope still waits for (R117) -/
  rels : List RelPend
  /-- which move comes next, the operands of the step in progress, a counter for the model's free values (log entries 1, 2) -/
  agenda : List Move
  here : At
  fresh : Nat
  deriving DecidableEq, Repr, Inhabited

/-- The state after reset (R392): every core idle, RUN 0, no ring; everything else as the tables' reset columns say, and where
they give none 0 or empty (log entry 5). -/
def State.reset : State :=
  { mem := [], ecc := [], tags := [], tick := 0, adj := [], slew := [], syncs := 0, cores := [], clusters := [], dies := [], ways := [], slots := []
    segs := [], msgs := [], rels := [], agenda := [], here := {}, fresh := 0 }

end Sys2Proof.Machine
end

