-- ==== Sys2Proof/Machine/Access.lean ====
section
/-!
DEFINITION. Reading and changing the parts of the state: cores, clusters, dies, jobs, streams, and the numbers that name them.
-/
namespace Sys2Proof.Machine

/-- The number of a core of the ring: 384 * die + core (R15). -/
def cid (die core : Nat) : Nat := 384 * die + core
/-- The core that the step in progress is about. -/
def State.me (s : State) : Nat := cid s.here.die s.here.core
/-- The number of a core's cluster on the ring: 2 * die + cluster (R15). -/
def clid (die core : Nat) : Nat := 2 * die + core / 192

/-- A core. -/
def State.coreAt (s : State) (n : Nat) : Core := spGet {} s.cores n
/-- Replaces a core. -/
def State.setCoreAt (s : State) (n : Nat) (c : Core) : State := { s with cores := spSet s.cores n c }
/-- The core of the step in progress. -/
def State.core (s : State) : Core := s.coreAt s.me
/-- Replaces the core of the step in progress. -/
def State.setCore (s : State) (c : Core) : State := s.setCoreAt s.me c
/-- The job of the core of the step in progress. -/
def State.job (s : State) : Job := s.core.job
/-- Replaces that job. -/
def State.setJob (s : State) (j : Job) : State := s.setCore { s.core with job := j }
/-- The matrix engine of the core of the step in progress. -/
def State.eng (s : State) : Eng := s.core.eng
/-- Replaces that engine. -/
def State.setEng (s : State) (e : Eng) : State := s.setCore { s.core with eng := e }

/-- A cluster, by its number on the ring. -/
def State.clusterAt (s : State) (n : Nat) : Cluster := spGet {} s.clusters n
/-- Replaces a cluster. -/
def State.setClusterAt (s : State) (n : Nat) (c : Cluster) : State := { s with clusters := spSet s.clusters n c }
/-- The cluster number of the core of the step in progress. -/
def State.myCl (s : State) : Nat := clid s.here.die s.here.core
/-- A die. -/
def State.dieAt (s : State) (n : Nat) : Die := spGet {} s.dies n
/-- Replaces a die. -/
def State.setDieAt (s : State) (n : Nat) (d : Die) : State := { s with dies := spSet s.dies n d }
/-- A waystation: 2 * package, plus 1 for the west one. -/
def State.wayAt (s : State) (n : Nat) : Way := spGet {} s.ways n
/-- Replaces a waystation. -/
def State.setWayAt (s : State) (n : Nat) (w : Way) : State := { s with ways := spSet s.ways n w }

/-- The ring tick as a die reads it (R22, R358). -/
def State.tickOf (s : State) (die : Nat) : W64 := s.tick + spGet 0 s.adj (die / 8)

/-- The block state of a stream. -/
def Job.blk (j : Job) : Strm → Blk
  | .c => j.c | .a => j.a | .v => j.v | .m => {}
/-- Replaces it. -/
def Job.setBlk (j : Job) (st : Strm) (b : Blk) : Job :=
  match st with
  | .c => { j with c := b } | .a => { j with a := b } | .v => { j with v := b } | .m => j
/-- Bit k of SMASK (Table 2-2): 0 C, 1 A, 2 V, 3 matrix engine. -/
def Job.has (j : Job) : Strm → Bool
  | .c => j.smask.getLsbD 0 | .a => j.smask.getLsbD 1 | .v => j.smask.getLsbD 2 | .m => j.smask.getLsbD 3

/-- The reset value of a control register, by address (the reset columns of
the register tables; 0 where a table shows a dash or 0; log entry 5). -/
def crReset (addr : Nat) : W64 :=
  match addr with
  | 0x307 => BitVec.ofNat 64 (64 <<< 32)
  | 0x308 => BitVec.ofNat 64 (1000000 <<< 32 + 1000)
  | 0x309 => 100000
  | 0x317 => BitVec.ofNat 64 (50 <<< 16 + 1000)
  | 0x318 => 60000
  | 0x319 => BitVec.ofNat 64 (64 <<< 48 + 1000 <<< 32 + 100 <<< 16 + 50)
  | 0x404 => 400
  | _ => 0

/-- A register of a die (0x300-0x31E) or a root register of a die (0x401-0x42F), as stored. -/
def Die.reg (d : Die) (addr : Nat) : W64 := spGet (crReset addr) d.cr addr
/-- Stores it and marks it written. -/
def Die.setReg (d : Die) (addr : Nat) (v : W64) : Die :=
  { d with cr := spSet d.cr addr v, wrote := if d.wrote.contains addr then d.wrote else addr :: d.wrote }
/-- A register of a cluster, as stored. -/
def Cluster.reg (c : Cluster) (addr : Nat) : W64 := spGet 0 c.cr addr
/-- A register of a core, as stored. -/
def Core.reg (c : Core) (addr : Nat) : W64 := spGet 0 c.cr addr
/-- The fields of a pair of die registers, low doubleword first (R223): 128 bits as a number. -/
def Die.reg2 (d : Die) (addr : Nat) : Nat := (d.reg addr).toNat + 2 ^ 64 * (d.reg (addr + 1)).toNat
/-- Stores a pair of die registers. -/
def Die.setReg2 (d : Die) (addr v : Nat) : Die :=
  (d.setReg addr (BitVec.ofNat 64 v)).setReg (addr + 1) (BitVec.ofNat 64 (v / 2 ^ 64))
/-- A number with bits [lo + len - 1 : lo] replaced. -/
def putBits (w lo len v : Nat) : Nat := w - (bitsAt w lo len) * 2 ^ lo + (v % 2 ^ len) * 2 ^ lo

/-- Changes the die numbered n. -/
def State.onDie (s : State) (n : Nat) (f : Die → Die) : State := s.setDieAt n (f (s.dieAt n))
/-- Changes the cluster numbered n. -/
def State.onCluster (s : State) (n : Nat) (f : Cluster → Cluster) : State := s.setClusterAt n (f (s.clusterAt n))
/-- Changes the core numbered n. -/
def State.onCore (s : State) (n : Nat) (f : Core → Core) : State := s.setCoreAt n (f (s.coreAt n))
/-- Changes the job of the core of the step in progress. -/
def State.onJob (s : State) (f : Job → Job) : State := s.setJob (f s.job)
/-- Changes the block state of a stream of that job. -/
def State.onBlk (s : State) (st : Strm) (f : Blk → Blk) : State := s.onJob fun j => j.setBlk st (f (j.blk st))
/-- Makes the step in progress be about a core. -/
def State.at (s : State) (die core : Nat) : State := { s with here := { s.here with die := die, core := core } }

/-- The cores listed in the state that belong to a die, as numbers of the ring. -/
def State.coresOf (s : State) (die : Nat) : List Nat := (s.cores.map Prod.fst).filter fun n => n / 384 == die

/-- The ring's mode, from RINGCFG of the die (Table 16-1): 0 none, 1 package, 2 rack. -/
def State.ringMode (s : State) (die : Nat) : Nat := fieldOf ((s.dieAt die).reg 0x402) 0 2
/-- The number of packages of the ring a die is on (R14, R81): 1 unless it is in rack mode. -/
def State.ringPkgs (s : State) (die : Nat) : Nat :=
  if s.ringMode die = 2 then fieldOf ((s.dieAt die).reg 0x402) 40 8 + 1 else 1
/-- The number of dies of the ring (R58); before its ring configuration is written a die is on no ring (R14). -/
def State.ringDies (s : State) (die : Nat) : Nat := if s.ringMode die = 0 then 1 else 8 * s.ringPkgs die
/-- Does a die reach another: is the other itself, or have both joined one ring (R14, R81)? A package joins a ring once its own configuration
is written, with the mode of that ring. -/
def State.ringHas (s : State) (die g : Nat) : Bool :=
  g == die || (s.ringMode die != 0 && s.ringMode g == s.ringMode die && decide (g / 8 < s.ringPkgs die) && decide (die / 8 < s.ringPkgs die))
/-- The package place of a die on its ring, as PLACE states it; 0 outside rack mode (R81). -/
def State.ringPlace (s : State) (die : Nat) : Nat :=
  if s.ringMode die = 2 then fieldOf ((s.dieAt die).reg 0x402) 32 8 else 0
/-- The ring position of a die (R58): its die number, or 8 k + its die number in rack mode. The state holds one ring: the die at
place k, die d is number 8 k + d, and firmware gives it PLACE k (log entry 23). -/
def State.ringPos (s : State) (g : Nat) : Nat := 8 * s.ringPlace g + g % 8

end Sys2Proof.Machine
end

