-- ==== Sys2Proof/Machine/Mem.lean ====
section
/-!
DEFINITION. Memory: bytes by physical global address in one canonical list, sequence tags, monitors, the overlay of published
bond lines, soft errors, and the counting of slow-tier accesses. Wider accesses are built here from bytes, little-endian (R5).
-/
namespace Sys2Proof.Machine

/-- What an address that is not listed reads as: 0 (the manual gives RAM no reset contents; log entry 7). -/
def memDefault : Byte := 0

/-- The byte at an address. -/
def memGet : List Host.Cell → Nat → Byte
  | [], _ => memDefault
  | (a, b) :: t, k => if a = k then b else memGet t k

/-- Memory with a byte at an address listed, addresses rising. -/
def memIns : List Host.Cell → Nat → Byte → List Host.Cell
  | [], k, v => [(k, v)]
  | (a, b) :: t, k, v => if a = k then (k, v) :: t else if k < a then (k, v) :: (a, b) :: t else (a, b) :: memIns t k v

/-- Memory with a byte written: writing the default unlists the address. -/
def memPut (m : List Host.Cell) (k : Nat) (v : Byte) : List Host.Cell :=
  if v = memDefault then m.filter fun p => p.1 != k else memIns m k v

/-- Does the canonical form hold: addresses strictly rising, no entry equal to the default? -/
def Memory.wf : List Host.Cell → Bool
  | [] => true
  | [(_, v)] => v != memDefault
  | (a, v) :: (b, w) :: t => v != memDefault && decide (a < b) && Memory.wf ((b, w) :: t)

/-- n bytes from an address. -/
def memRead (m : List Host.Cell) (a : Nat) : Nat → List Byte
  | 0 => []
  | n + 1 => memGet m a :: memRead m (a + 1) n

/-- Writes bytes from an address on. -/
def memWrite (m : List Host.Cell) (a : Nat) : List Byte → List Host.Cell
  | [] => m
  | b :: t => memWrite (memPut m a b) (a + 1) t

/-- The space of a physical global address (Table 4-1). -/
def paSpace (pa : Nat) : Nat := pa / 2 ^ 52
/-- The die of the ring that an address of spaces 0, 1 and 3 names: 8 * package + die (R81). -/
def paDie (pa : Nat) : Nat := bitsAt pa 41 11
/-- The core of a tile-store address. -/
def paCore (pa : Nat) : Nat := bitsAt pa 32 9
/-- The offset of a tile-store address in its slice. -/
def paOff (pa : Nat) : Nat := bitsAt pa 0 22
/-- The tile-store address of an offset in a core's slice. -/
def tilePa (die core off : Nat) : Nat := die * 2 ^ 41 + core * 2 ^ 32 + off
/-- The address of an offset in a die's control space (Table 4-1). -/
def ctlPa (die off : Nat) : Nat := 3 * 2 ^ 52 + die * 2 ^ 41 + off
/-- The address of an offset in a die's serai. -/
def seraiPa (die off : Nat) : Nat := 2 ^ 52 + die * 2 ^ 41 + off

/-- May the address be accessed at all (R80, R81): its space assigned, its package on the ring, its core at most 383, its zero
fields zero, its serai offset below 0xA000_0000? Device control offsets are judged where they are served (R385). -/
def paOk (s : State) (die pa : Nat) : Bool :=
  match paSpace pa with
  | 0 => s.ringHas die (paDie pa) && decide (paCore pa < 384) && bitsAt pa 22 10 == 0
  | 1 => s.ringHas die (paDie pa) && bitsAt pa 32 9 == 0 && decide (bitsAt pa 0 32 < 0xA0000000)
  | 2 => true
  | 3 => s.ringHas die (paDie pa) && bitsAt pa 24 17 == 0
  | _ => false

/-- How many of n bytes from an address on exist for a die (R80, R81), in steps of 256. -/
def okLen (s : State) (die a n : Nat) : Nat :=
  if paOk s die a && paOk s die (a + n - 1) then n else 256 * ((upFrom 0 (n / 256)).takeWhile fun k => paOk s die (a + 256 * k)).length

/-- The tick at which Sync k is due (R358): the first ns at or after k * 2⁻¹⁰ s. -/
def syncTick (k : Nat) : Nat := (k * 1000000000 + 1023) / 1024

/-- The byte a bond line holds at an offset of its home line. -/
def bondFind : List (Nat × Byte) → Nat → Option Byte
  | [], _ => none
  | (o, b) :: t, k => if o = k then some b else bondFind t k

/-- The byte that the overlay of the published bond lines of a die shows at an address, if one does (R372): the lines stand in
order, latest publish first, and within one publish the greater handle first. -/
def overlayFind : List Bond → Nat → Option Byte
  | [], _ => none
  | b :: t, a =>
    if b.on && b.home == a / 64 * 64 then
      match bondFind b.bytes (a % 64) with
      | some v => some v
      | none => overlayFind t a
    else overlayFind t a

/-- The number of the bond line whose overlay shows the byte at an address, if one does (R372). -/
def overlayLine : List Bond → Nat → Option Nat
  | [], _ => none
  | b :: t, a => if b.on && b.home == a / 64 * 64 && (bondFind b.bytes (a % 64)).isSome then some b.line else overlayLine t a

/-- Puts a byte into the first overlaid bond line that shows the address (R372). -/
def overlayPut : List Bond → Nat → Byte → List Bond
  | [], _, _ => []
  | b :: t, a, v =>
    if b.on && b.home == a / 64 * 64 && (bondFind b.bytes (a % 64)).isSome then
      { b with bytes := spSet b.bytes (a % 64) v } :: t
    else b :: overlayPut t a v

/-- The byte that an access is served at an address (R108, R372). -/
def State.byteAt (s : State) (a : Nat) : Byte :=
  if paSpace a = 0 then
    match overlayFind (s.dieAt (paDie a)).bonds a with
    | some v => v
    | none => memGet s.mem a
  else memGet s.mem a

/-- n bytes as accesses are served them. -/
def State.peek (s : State) (a : Nat) : Nat → List Byte
  | 0 => []
  | n + 1 => s.byteAt a :: s.peek (a + 1) n

/-- The doubleword at an address. -/
def State.peek64 (s : State) (a : Nat) : W64 := BitVec.ofNat 64 (ofBytes (s.peek a 8))

/-- Writes one byte where it is served: the overlaid bond line, or the home (R372). -/
def State.pokeByte (s : State) (a : Nat) (v : Byte) : State :=
  if paSpace a = 0 && (overlayFind (s.dieAt (paDie a)).bonds a).isSome then
    s.onDie (paDie a) fun d => { d with bonds := overlayPut d.bonds a v }
  else { s with mem := memPut s.mem a v }

/-- Writes bytes and nothing else. -/
def State.pokeRaw (s : State) (a : Nat) : List Byte → State
  | [] => s
  | b :: t => (s.pokeByte a b).pokeRaw (a + 1) t

/-- Sets the sequence tag of every tile that n bytes from a touch, in tile store (R95). -/
def State.tagTiles (s : State) (a n : Nat) (tag : BitVec 16) : State :=
  if paSpace a = 0 && n != 0 then
    let lo := a / 512
    let hi := (a + n - 1) / 512
    let rest := s.tags.filter fun p => !(decide (lo ≤ p.1) && decide (p.1 ≤ hi))
    if tag = 0 then { s with tags := rest }
    else { s with tags := (upFrom lo (hi - lo + 1)).foldl (fun m t => spSet m t tag) rest }
  else s

/-- The tag of the tile that holds an address. -/
def State.tagAt (s : State) (a : Nat) : BitVec 16 := if paSpace a = 0 then spGet 0 s.tags (a / 512) else 0

/-- A job whose monitor stands on a line that n bytes at a touch has its sticky event set (R130). -/
def Job.wakeOn (j : Job) (a n : Nat) : Job :=
  match j.mon with
  | some l => if l / 64 * 64 < a + n && a < l / 64 * 64 + 64 && j.live then { j with evt := true } else j
  | none => j
/-- A write of n bytes at a sets the sticky event of every monitor armed on one of its lines (R130), a frozen job's too (R132). -/
def State.wake (s : State) (a n : Nat) : State :=
  { s with cores := s.cores.map fun p =>
      (p.1, { p.2 with job := p.2.job.wakeOn a n, held := p.2.held.map fun h => { h with job := h.job.wakeOn a n } }) }

/-- A whole doubleword written anew carries fresh check bits; a doubleword written in part keeps its error (R424; log entry 10). -/
def State.eccFresh (s : State) (a n : Nat) : State :=
  { s with ecc := s.ecc.filter fun p => !(decide (a ≤ p.1) && decide (p.1 + 8 ≤ a + n)) }

/-- A write of any kind but a whole tile's landing (R95, R130): its bytes, tag 0 for its tiles, monitor events. -/
def State.store (s : State) (a : Nat) (bs : List Byte) : State :=
  (((s.pokeRaw a bs).tagTiles a bs.length 0).wake a bs.length).eccFresh a bs.length

/-- A device write of a doubleword. -/
def State.store64 (s : State) (a : Nat) (v : W64) : State := s.store a (bytesOf 8 v.toNat)

/-- The doublewords that n bytes at a touch. -/
def wordsOf (a n : Nat) : List Nat := (upFrom (a / 8) ((a + n - 1) / 8 - a / 8 + 1)).map (8 * ·)

/-- The bank, group and line of a slice offset (R92): the addresses of the same word of the group's other three data banks. -/
def groupMates (a : Nat) : List Nat :=
  let line := a / 64 * 64
  let g := line / 256 * 256
  (upFrom 0 4).filterMap fun k => if g + 64 * k = line then none else some (g + 64 * k + a % 64)

/-- Where the model keeps the error mark of the parity word of a tile-store word: the parity bank is not addressable (R92), so
the mark stands at bit 31 of the slice address, a zero field of Table 4-1 (log entry 10). -/
def parityOf (a : Nat) : Nat := a / 2 ^ 32 * 2 ^ 32 + 2 ^ 31 + bitsAt a 10 12 * 1024 + bitsAt a 8 2 * 64 + a % 64

/-- The words that parity word w is the XOR of (R92). -/
def parityData (w : Nat) : List Nat :=
  (upFrom 0 4).map fun b => w / 2 ^ 32 * 2 ^ 32 + bitsAt w 10 12 * 1024 + bitsAt w 6 2 * 256 + 64 * b + w % 64

/-- The place of bond line k in the slice of core k mod 384 (R365). -/
def bondPa (s : State) (die k : Nat) : Nat :=
  tilePa die (k % 384) (fieldOf ((s.dieAt die).reg 0x307) 0 22 + 64 * (k / 384))
/-- Where the marks of the doubleword at byte o of bond line k stand (log entry 10): an address that no access can name. -/
def bondWord (die line o : Nat) : Nat := 4 * 2 ^ 52 + die * 2 ^ 41 + 64 * line + o / 8 * 8
/-- The bond line in use whose place in the slices holds a tile-store word (R365): where the marks of that word stand. -/
def bondAt (s : State) (w : Nat) : Option Nat :=
  let d := s.dieAt (paDie w)
  let base := fieldOf (d.reg 0x307) 0 22
  let k := paCore w + 384 * ((paOff w - base) / 64)
  if bitsAt w 31 1 = 0 && decide (base ≤ paOff w) && d.bonds.any fun b => b.line == k then some (bondWord (paDie w) k (w % 64)) else none
/-- The mark of a word of a slice, one of a bond line included. -/
def State.markOf (s : State) (w : Nat) : Nat :=
  match spGet 0 s.ecc w with
  | 0 => match bondAt s w with | some b => spGet 0 s.ecc b | none => 0
  | k => k

/-- The words that a word is rebuilt from (R424, R92): the group's other words and parity for one of a data bank, a bond line's at its place
(R365), and its data for one of a parity bank. -/
def rebuildWords (s : State) (w : Nat) : List Nat :=
  let p := if paSpace w = 4 then bondPa s (paDie w) (bitsAt w 0 41 / 64) + w % 64 else w
  if bitsAt p 31 1 = 1 then parityData p else parityOf p :: groupMates p
/-- Is a word uncorrectable (R424): marked 3, or two of its bits are bad and it is not rebuilt, which a word of a slice is as long as those
that it is rebuilt from check clean? -/
def State.uncorrectable (s : State) (w : Nat) : Bool :=
  let k := spGet 0 s.ecc w
  k == 3 || (k == 2 && ((paSpace w != 0 && paSpace w != 4) || (rebuildWords s w).any fun m => s.markOf m != 0))

/-- The words that are read when the doubleword w is served: the home's, and that of the overlaid bond line over it (R372). -/
def State.servedWords (s : State) (w : Nat) : List Nat :=
  if paSpace w = 0 then
    w :: ((upFrom w 8).findSome? (overlayLine (s.dieAt (paDie w)).bonds)).elim [] fun k => [bondWord (paDie w) k (w % 64)]
  else [w]

end Sys2Proof.Machine
end

