-- ==== Sys2Proof/Machine/Errors.lean ====
section
/-!
DEFINITION. The die's error queue (R413, R414) and the writing of the other device rings: completion records and migration
notifications use the same form.
-/
namespace Sys2Proof.Machine

/-- Bytes 0-7 of an error record (Table 19-6). -/
def errHead (die core kind sub cause : Nat) : Nat :=
  kind * 2 ^ 56 + (sub % 64) * 2 ^ 50 + (die / 8 % 256) * 2 ^ 40 + (die % 8) * 2 ^ 37 + (core % 512) * 2 ^ 28 +
    (cause % 4096) * 2 ^ 16

/-- The CORE field of an agent that is not of one core (Table 19-6). -/
def noCore : Nat := 0x1FF

/-- Capacity of a ring of 64 << CAP records, CAP in bits [95:92] of its register. -/
def ringCap (r : Nat) : Nat := 64 * 2 ^ bitsAt r 92 4

/-- Writes an error record to a die's error queue (R413): dropped and counted in LOST when the queue is full or ERRQ has not been
written. core is the die core, or noCore; body is bytes 32-63. -/
def State.err (s : State) (die core kind sub cause : Nat) (addr aux : Nat) (body : List Byte := []) : State :=
  let d := s.dieAt die
  let r := d.reg2 0x315
  let pi := bitsAt r 112 16
  let ci := bitsAt r 96 16
  let lost := bitsAt r 76 16
  if (d.wrote.contains 0x315 || d.wrote.contains 0x316) && (pi + 1) % ringCap r != ci then
    let rec_ := bytesOf 8 (errHead die core kind sub cause) ++ bytesOf 8 (s.tickOf die).toNat ++ bytesOf 8 addr ++
      bytesOf 8 aux ++ padTo 32 body
    let s := s.store (bitsAt r 0 56 + 64 * pi) rec_
    s.onDie die fun d => { d with cr := (d.setReg2 0x315 (putBits r 112 16 ((pi + 1) % ringCap r))).cr }
  else
    s.onDie die fun d => { d with cr := (d.setReg2 0x315 (putBits r 76 16 (min (lost + 1) 65535))).cr }

/-- An event counter of DCNT rises, saturating (R454): by address 0x31C or 0x31D and half. -/
def State.count (s : State) (die addr : Nat) (hi : Bool) : State :=
  s.onDie die fun d =>
    let r := d.reg addr
    let lo := if hi then 32 else 0
    { d with cr := spSet d.cr addr (setField r lo 32 (min (fieldOf r lo 32 + 1) 0xFFFFFFFF)) }
/-- DCNT.SKIP rises. -/
def State.countSkip (s : State) (die : Nat) : State := s.count die 0x31D true
/-- DCNT.REFUSE rises. -/
def State.countRefuse (s : State) (die : Nat) : State := s.count die 0x31D false
/-- DCNT.PARK rises. -/
def State.countPark (s : State) (die : Nat) : State := s.count die 0x31C true
/-- DCNT.RESEND rises. -/
def State.countResend (s : State) (die : Nat) : State := s.count die 0x31C false

/-- The 32 bytes of a record (Table 2-2). -/
def recBytes (r : Rec) : List Byte := bytesOf 8 r.d0.toNat ++ bytesOf 8 r.d1.toNat ++ bytesOf 8 r.d2.toNat ++ bytesOf 8 r.d3.toNat

/-- The record that 32 bytes hold. -/
def recOf (bs : List Byte) : Rec :=
  { d0 := BitVec.ofNat 64 (ofBytes (bs.take 8)), d1 := BitVec.ofNat 64 (ofBytes ((bs.drop 8).take 8))
    d2 := BitVec.ofNat 64 (ofBytes ((bs.drop 16).take 8)), d3 := BitVec.ofNat 64 (ofBytes ((bs.drop 24).take 8)) }

/-- The doubleword at byte offset o of a list of bytes. -/
def dwAt (bs : List Byte) (o : Nat) : W64 := BitVec.ofNat 64 (ofBytes ((bs.drop o).take 8))

/-- Bits [31:20] of a trap's cause word: CLASS, STREAM, CODE (Table 16-3). -/
def TrapInfo.cause (t : TrapInfo) : Nat :=
  t.cls * 256 + (match t.strm with | .c => 0 | .a => 1 | .v => 2 | .m => 3) * 64 + t.code % 64

/-- The address of metadata record i of a die (R97). R321, R87 and R328 speak of records under KVROOT, but nothing gives a record a virtual
address: the model reaches it at this place, without translation and without a fault of one (the model's reading: log entry 19). -/
def mdPa (s : State) (die i : Nat) : Nat := tilePa die (i % 384) (fieldOf ((s.dieAt die).reg 0x305) 0 22 + 256 * (i / 384))

/-- Writes a migration notification (R104, Table 4-12), if the queue has room; answers whether it had. The manual gives no outcome for a BASE
that is not 32 KiB aligned: it is used as written (the model's choice: log entry 42). -/
def State.notify (s : State) (die kind mdx : Nat) (pa accnt : Nat) : State × Bool :=
  let d := s.dieAt die
  let r := d.reg2 0x30C
  let pi := bitsAt r 112 10
  let ci := bitsAt r 96 10
  if d.wrote.contains 0x30C && (pi + 1) % 1024 != ci then
    let p := mdPa s die mdx
    let ownv := (s.byteAt (p + 239)).toNat / 128
    let rec_ := bytesOf 8 (kind * 2 ^ 60 + mdx % 2 ^ 18) ++ bytesOf 8 pa ++
      bytesOf 8 (ownv * 2 ^ 40 + (s.byteAt (p + 238)).toNat * 2 ^ 32 + accnt % 2 ^ 32) ++ bytesOf 8 (s.tickOf die).toNat
    let s := s.store (bitsAt r 0 56 + 32 * pi) rec_
    (s.onDie die fun d => { d with cr := (d.setReg2 0x30C (putBits r 112 10 ((pi + 1) % 1024))).cr }, true)
  else (s, false)

/-- A notification that found the queue full (R422): the overflow flag, and the first page since the last kind-2 record with
whether the loss was of kind 1. -/
def State.notifyLost (s : State) (die mdx : Nat) (k1 : Bool) : State :=
  s.onDie die fun d => { d with mnOvf := true, mnMdx := match d.mnMdx with | some m => some m | none => some (mdx, k1) }

/-- The count of slow-tier accesses (R103, R104, R422): a line of companion memory moved for an agent of a die raises ACCNT of
the page's record, and a count that reaches THRESH writes a notification of kind 0. -/
def State.slowLine (s : State) (die line : Nat) : State :=
  let d := s.dieAt die
  let r := d.reg2 0x30A
  let base := bitsAt r 0 39 * 8192
  let off := bitsAt line 0 52
  let p := (off - base) / 8192
  if paSpace line = 2 && decide (base ≤ off) && decide (p < bitsAt r 104 24) then
    let e := ofBytes (s.peek (bitsAt r 48 56 + 4 * p) 4)
    if e / 2 ^ 31 % 2 = 1 then
      let mdx := e % 2 ^ 18
      let rp := mdPa s die mdx
      let acc := ofBytes (s.peek (rp + 232) 4)
      let b := (s.byteAt (rp + 239)).toNat
      let thresh := bitsAt (d.reg2 0x30C) 56 32
      if b / 8 % 2 = 1 then s                           -- OVF: the count holds at THRESH
      else
        let acc := min (acc + 1) 0xFFFFFFFF
        let s := s.store (rp + 232) (bytesOf 4 acc)
        if acc = thresh && thresh != 0 && b / 16 % 2 = 0 then
          match s.notify die 0 mdx (s.peek64 (rp + 240)).toNat acc with
          | (s, true) => s.store (rp + 239) [BitVec.ofNat 8 (b + 16)]
          | (s, false) => (s.store (rp + 239) [BitVec.ofNat 8 (b + 8)]).notifyLost die mdx false
        else s
    else s
  else s

/-- Counts every line of companion memory that n bytes at a touch, for an agent of a die: each access counts its own (log entry 41). -/
def State.slow (s : State) (die a n : Nat) : State :=
  if paSpace a = 2 && n != 0 then
    each (fun l s => s.slowLine die (64 * l)) (upFrom (a / 64) ((a + n - 1) / 64 - a / 64 + 1)) s
  else s

/-- Repairs a word that is read: one bad bit, or two that a rebuild or the parity mends (R424, R426). -/
def State.repair (s : State) (w : Nat) : State :=
  let k := spGet 0 s.ecc w
  if k = 0 || s.uncorrectable w then s
  else
    let die := paDie w
    let d := s.dieAt die
    let r := d.reg 0x318
    let s := { s with ecc := spDel s.ecc w }
    let s := s.onDie die fun d =>
      { d with cr := spSet d.cr 0x318 (setField r 48 16 (min (fieldOf r 48 16 + 1) 65535)) }
    if bitOf r 32 then s.err die noCore 0x14 (if k = 1 then 0 else if bitsAt w 31 1 = 1 && paSpace w = 0 then 2 else 1) 0
      (if paSpace w = 4 then bondPa s die (bitsAt w 0 41 / 64) + w % 64 else w) 0 else s

/-- UCNT counts an uncorrectable word that is met (R426). -/
def State.metBad (s : State) (g : Nat) : State :=
  s.onDie g fun d => { d with cr := spSet d.cr 0x318 (setField (d.reg 0x318) 40 8 (min (fieldOf (d.reg 0x318) 40 8 + 1) 255)) }

/-- The first uncorrectable word among those that n bytes at a touch. -/
def State.badIn (s : State) (a n : Nat) : Option Nat :=
  if n = 0 || s.ecc.isEmpty then none else (wordsOf a n).find? fun w => (s.servedWords w).any s.uncorrectable

/-- The device reads n bytes at a: what they need of repair is done (R424). -/
def State.mend (s : State) (a n : Nat) : State :=
  if n = 0 || s.ecc.isEmpty then s
  else each (fun w s => each (fun v s => s.repair v) (s.servedWords w) s) (wordsOf a n) s

/-- Lines of the combining buffer of core n that a test picks are written over TXL (R238). -/
def State.ntFlush (s : State) (n : Nat) (p : NtLine → Bool) : State :=
  let go := (s.coreAt n).nt.filter p
  let s := s.onCore n fun k => { k with nt := k.nt.filter fun l => !p l }
  each (fun (l : NtLine) s => (s.store l.pa (l.bytes.map Prod.snd)).slow (n / 384) l.pa l.bytes.length) go s
/-- An access to companion memory is served after the stores there that combining buffers hold (R120, R238): lines that it touches leave
them first. -/
def State.ntServe (s : State) (a n : Nat) : State :=
  let hit : NtLine → Bool := fun l => decide (a < l.pa + 64) && decide (l.pa < a + n)
  if paSpace a = 2 then each (fun k s => s.ntFlush k hit) ((s.cores.filter fun p => p.2.nt.any hit).map Prod.fst) s else s

/-- A read of n bytes at a by an agent of a die (R108, R103, R424): the bytes, or the first uncorrectable word. -/
def State.readMem (s : State) (die a n : Nat) : Except Nat (List Byte) × State :=
  let s := s.ntServe a n
  match s.badIn a n with
  | some w => (.error w, s.metBad (paDie w))
  | none => (.ok (s.peek a n), (s.mend a n).slow die a n)

/-- What follows a read: the uncorrectable word, or the bytes. -/
def readThen (r : Except Nat (List Byte) × State) (bad : Nat → State → State) (k : List Byte → State → State) : State :=
  match r with
  | (.error w, s) => bad w s
  | (.ok bs, s) => k bs s

/-- A write of bytes at a by an agent of a die. -/
def State.writeMem (s : State) (die a : Nat) (bs : List Byte) : State := ((s.ntServe a bs.length).store a bs).slow die a bs.length

end Sys2Proof.Machine
end

