-- ==== Sys2Proof/Machine/Operands.lean ====
section
/-!
DEFINITION. Operands: the register files with their hard-wired registers (R17), effective addresses (R191, R228), and how a
stream moves from word to word, block to block and to a branch target (R158-R164).
-/
namespace Sys2Proof.Machine

/-- s[n]: s0 reads 0 (R17). -/
def State.rs (s : State) (n : BitVec 5) : W64 := if n = 0 then 0 else spGet 0 s.job.s n.toNat
/-- sd := v: a write to s0 is discarded (R17). -/
def State.setRs (s : State) (n : BitVec 5) (v : W64) : State :=
  if n = 0 then s else s.onJob fun j => { j with s := spSet j.s n.toNat v }
/-- a[n]: a0 reads 0 (R17). -/
def State.ra (s : State) (n : BitVec 4) : W64 := if n = 0 then 0 else spGet 0 s.job.ar n.toNat
/-- ad := v: a write to a0 is discarded (R17). -/
def State.setRa (s : State) (n : BitVec 4) (v : W64) : State :=
  if n = 0 then s else s.onJob fun j => { j with ar := spSet j.ar n.toNat v }

/-- phys_v (R169): the physical register that a name stands for under a value of VRB. -/
def physV (n : Nat) (vrb : BitVec 5) : Nat := if n < 32 then n else 32 + (n - 32 + vrb.toNat) % 32
/-- The v-register a name stands for now (R169). -/
def State.rv (s : State) (n : Nat) : VReg := spGet 0 s.job.vr (physV n s.job.vrb)
/-- A predicate register: q0 reads all ones (R17). -/
def State.rq (s : State) (n : BitVec 3) : QReg := if n = 0 then BitVec.allOnes 1024 else spGet 0 s.job.q n.toNat
/-- The expected tag that a register of xt names; 0 disables the check (R95, R168). -/
def State.rxt (s : State) (n : BitVec 3) : BitVec 16 := if n = 0 then 0 else spGet 0 s.job.xt n.toNat

/-- The effective address of a C-stream word: s[sa], as i64, plus a signed offset (R191). -/
def State.eaC (s : State) (a : BitVec 5) {w : Nat} (off : BitVec w) : Int := (s.rs a).toInt + off.toInt
/-- The effective address of an A-stream word with an offset (R228). -/
def State.eaA (s : State) (a : BitVec 4) {w : Nat} (off : BitVec w) : Int := (s.ra a).toInt + off.toInt

/-- LEN of a header: body length in halfwords (Table 7-1). -/
def Blk.len (b : Blk) : Nat := bitsAt b.word.toNat 16 12
/-- KIND of a header: 0 plain, 1 counted, 2 register-counted, 3 entry. -/
def Blk.kind (b : Blk) : Nat := bitsAt b.word.toNat 30 2
/-- ROT of a header. -/
def Blk.rot (b : Blk) : Bool := b.word.toNat.testBit 29
/-- ARG of a header. -/
def Blk.arg (b : Blk) : Nat := bitsAt b.word.toNat 0 16
/-- The address of the next word (R27): the header's while the block is not running. -/
def Blk.pc (b : Blk) : Nat := match b.mode with | .run => b.hdr + 4 + 2 * b.pos | _ => b.hdr
/-- Where the next header stands (R161). -/
def Blk.next (b : Blk) : Nat := (b.hdr + 4 + 2 * b.len + 3) / 4 * 4
/-- The halfwords from the next word on. -/
def Blk.code (b : Blk) : List H16 := b.body.drop b.pos
/-- Where the body's first word stands: after the stream vector in a C-stream entry block (R161). -/
def Blk.start (st : Strm) (b : Blk) : Nat := if st = .c && b.kind = 3 then 4 else 0

/-- Does a header break Table 7-1, Table 7-2 or R162 for a stream (R182)? -/
def headerBroken (st : Strm) (w : W32) : Bool :=
  let b : Blk := { word := w }
  b.len == 0 || w.getLsbD 28 || (b.rot && (st != .v || b.kind == 0 || b.kind == 3)) ||
  (st == .v && (b.len % 2 == 1 || decide (1022 < b.len))) ||
  match b.kind with
  | 0 => b.arg != 0
  | 1 => b.arg == 0
  | 2 => decide (15 < b.arg)
  | _ => b.arg % 4096 != 0 || (if st == .c then decide (6 < b.arg / 4096) || decide (b.len < 4) else b.arg != 0)

/-- Has a stream's next word still to be fetched, its block being longer than the loop buffer (R164)? -/
def Blk.short (b : Blk) : Bool :=
  decide (b.body.length < b.len) && match b.code with | [] => true | [h] => fld h 15 1 == 1 | _ => false

/-- The stream at a header that is still to be fetched. -/
def Blk.at (b : Blk) (hdr : Nat) : Blk :=
  { b with mode := .fetch, hdr := hdr, body := [], pos := 0, left := 0, fresh := true, again := false, wait := none, prog := 0
           sub := 0, rowAt := [], park := none, told := [] }

/-- A word of n halfwords has issued (R159-R164): the next word, the body again while iterations are left (fetched afresh where
header and body exceed 2 KiB, but in the V-stream), or the next header. -/
def Blk.advance (st : Strm) (b : Blk) (n : Nat) : Blk :=
  let b := { b with wait := none, prog := 0, sub := 0, rowAt := [], park := none, told := [], fresh := false }
  if b.pos + n < b.len then { b with pos := b.pos + n }
  else if 1 < b.left then
    let b := { b with left := b.left - 1, pos := 0 }
    if st != .v && decide (2048 < 4 + 2 * b.len) then { b with mode := .fetch, again := true } else b
  else b.at b.next

/-- Does a word of n halfwords end an iteration of a repeating block whose ROT bit advances VRB (R160)? -/
def Blk.rotates (b : Blk) (n : Nat) : Bool := b.rot && !decide (b.pos + n < b.len) && decide (1 < b.left)

/-- A word of n halfwords of a stream has issued. -/
def State.advance (s : State) (st : Strm) (n : Nat) : State :=
  s.onJob fun j =>
    let b := j.blk st
    let j := j.setBlk st (b.advance st n)
    match st with
    | .v => if b.rotates n then { j with vrb := j.vrb + 1 } else j
    | _ => j

/-- Transfers a stream to a header (R163). -/
def State.goto (s : State) (st : Strm) (target : Nat) : State := s.onBlk st fun b => b.at target

/-- The pc of a stream of the job (R27). -/
def State.pcOf (s : State) (st : Strm) : Nat := (s.job.blk st).pc

/-- The word at a stream's pc, or its header while the block is not running (R402). -/
def State.wordOf (s : State) (st : Strm) : Nat :=
  let b := s.job.blk st
  match b.mode with
  | .run =>
    match b.code with
    | [] => 0
    | [h] => h.toNat
    | h :: h1 :: _ => if (st = .v) || fld h 15 1 = 1 then (word2 h h1).toNat else h.toNat
  | _ => b.word.toNat

/-- A trap of the word at a stream's pc (R379, R402). -/
def State.trapAt (s : State) (st : Strm) (cls code : Nat) (addr : Nat := 0) : TrapInfo :=
  { cls := cls, code := code, strm := st, pc := s.pcOf st, addr := addr, word := s.wordOf st }

/-- Is an s-register waiting for an access that has not performed (R189)? -/
def Job.sBusy (j : Job) (n : Nat) : Bool :=
  n != 0 && j.acc.any fun a => a.strm == .c && match a.kind with
    | .ld d _ => d == n | .at _ d _ _ _ => d == n | .acq d _ => d == n | _ => false
/-- Is an a-register waiting for an access that has not performed (R226)? -/
def Job.aBusy (j : Job) (n : Nat) : Bool :=
  n != 0 && j.acc.any fun a => a.strm == .a && match a.kind with | .ld d _ => d == n | _ => false

/-- Loads of a stream that have not performed (Tables 8-1 and 9-1): atomics count as a load and as a store. -/
def Job.loads (j : Job) (st : Strm) : Nat :=
  (j.acc.filter fun a => a.strm == st && match a.kind with
    | .ld _ _ | .dq _ _ | .sq | .at _ _ _ _ _ | .acq _ _ | .arm => true | _ => false).length
/-- Stores of a stream that have not performed. -/
def Job.stores (j : Job) (st : Strm) : Nat :=
  (j.acc.filter fun a => a.strm == st && match a.kind with
    | .st | .nt | .at _ _ _ _ _ | .rel _ _ _ => true | _ => false).length

end Sys2Proof.Machine
end

