-- ==== Sys2Proof/Machine/Xlate.lean ====
section
/-!
DEFINITION. Translation of virtual addresses (R84-R89, R320), cluster-window checks (R82, R83), the supervisor's bounds (R378).
-/
namespace Sys2Proof.Machine

/-- What a translation answers: the physical address and the bits of the leaf's page; a trap of the access class by code (2, 3,
4, 5 of Table 19-1); the leaf not present; a place in motion. -/
inductive XRes where
  | ok (pa : Nat)
  | bad (code : Nat)
  | absent
  | motion
  deriving DecidableEq, Repr

/-- What walking the tables answers (R86). -/
inductive Walk where
  | leaf (e : W64) (bits : Nat)
  | format
  | absent
  | range
  deriving DecidableEq, Repr

/-- The walk of R86 from a level down: lvl + 1 levels are still to be read, by the die's units. A table at an address that does not
exist is an access fault (R80, R81). -/
def walkFrom (s : State) (die base va : Nat) : Nat → Walk
  | 0 => .format
  | n + 1 =>
    let lvl := n
    let e := s.peek64 (base + 8 * bitsAt va (13 + 10 * lvl) 10)
    if !paOk s die base then .range
    else if !bitOf e 0 then .absent
    else if fieldOf e 2 2 != 0 || fieldOf e 10 3 != 0 then .format
    else if bitOf e 1 then
      if lvl = 3 then .format
      else
        let w := 13 + 10 * lvl
        if fieldOf e 13 (w - 13) != 0 then .format else .leaf e w
    else if fieldOf e 4 6 != 0 || lvl = 0 then .format
    else walkFrom s die (fieldOf e 13 43 * 8192) va n

/-- The walk of R86 under a translation root (Table 4-5). -/
def walk (s : State) (die : Nat) (root : W64) (va : Nat) : Walk := walkFrom s die (fieldOf root 0 43 * 8192) va 4

/-- The words that the walk of R86 reads. -/
def walkWords (s : State) (die base va : Nat) : Nat → List Nat
  | 0 => []
  | n + 1 =>
    let w := base + 8 * bitsAt va (13 + 10 * n) 10
    let e := s.peek64 w
    if !paOk s die base then [] else if !bitOf e 0 || bitOf e 1 then [w] else w :: walkWords s die (fieldOf e 13 43 * 8192) va n
/-- The words of a walk under a root are read: what they need of repair is done (R424). One that is uncorrectable is counted (R426), and the
walk goes on with its stored bits, for which the manual names no outcome (the model's choice: log entry 10). -/
def State.walkMend (s : State) (die : Nat) (root : W64) (va : Nat) : State :=
  if s.ecc.isEmpty then s
  else
    each (fun w s => if s.uncorrectable w then s.metBad (paDie w) else s.mend w 8) (walkWords s die (fieldOf root 0 43 * 8192) va 4) s

/-- Does an entry of a TLB cover an address under an ASID (R88)? -/
def TlbEnt.covers (t : TlbEnt) (asid va : Nat) : Bool :=
  (t.glob || t.asid == asid) && t.va / 2 ^ t.bits == va / 2 ^ t.bits

/-- Is the 8 KiB place that holds a physical address in motion (R320)? A place in tile store stands in the motion table of its
die, a companion page in that of the die whose slow tier holds it. -/
def State.inMotion (s : State) (pa : Nat) : Bool := s.dies.any fun d => d.2.motion.contains (pa / 8192)

/-- Place and permission checks on a leaf (R80, R81, R86, R320), in the order of R190 and R227: the physical range first, which for a
job leaves out the serai. -/
def leafCheck (s : State) (die : Nat) (sup : Bool) (need : Need) (va : Nat) (e : W64) (bits : Nat) : XRes :=
  let pa := fieldOf e bits (56 - bits) * 2 ^ bits + va % 2 ^ bits
  if !paOk s die pa || (!sup && paSpace pa == 1) then .bad 2
  else if need.none then .ok pa
  else if (bitOf e 4 && !sup) || (need.rd && !bitOf e 5) || (need.w && !bitOf e 6) || (need.x && !bitOf e 7) then .bad 4
  else if s.inMotion pa then .motion
  else .ok pa

/-- Translation at the port of a core (R84-R88): n is the core's number on the ring. Where the TLB or the die translation cache
holds an entry for the address, Config.tlbHit says whether it or a walk answers (R89, log entry 8). -/
def translate (s : State) (n : Nat) (root : W64) (sup : Bool) (need : Need) (va : Nat) : XRes × State :=
  if 2 ^ 53 ≤ va then (.bad 5, s)
  else
    let die := n / 384
    let asid := fieldOf root 52 12
    let held := ((s.coreAt n).tlb ++ (s.dieAt die).tcache).find? fun t => t.covers asid va
    let hit := held.isSome && Config.tlbHit s.fresh
    let s := if held.isSome then { s with fresh := s.fresh + 1 } else s
    match held, hit with
    | some t, true => (leafCheck s die sup need va t.leaf t.bits, s)
    | _, _ =>
      let s := s.walkMend die root va
      match walk s die root va with
      | .format => (.bad 3, s)
      | .absent => (.absent, s)
      | .range => (.bad 2, s)
      | .leaf e bits =>
        let t : TlbEnt := { asid := asid, glob := bitOf e 8, va := va / 2 ^ bits * 2 ^ bits, bits := bits, leaf := e }
        let s := s.onCore n fun c => { c with tlb := (t :: c.tlb).take 128 }
        let s := s.onDie die fun d => { d with tcache := (t :: d.tcache).take 16384 }
        (leafCheck s die sup need va e bits, s)

/-- Translation without effect, under a root of the die's own (KVROOT; R87): a physical address, or the code of the failure. The
device reads and writes as no job does, so S holds nothing back; a read needs RD and a write W (R86). -/
def kvTranslate (s : State) (die : Nat) (need : Need) (va : Nat) : Except Nat Nat :=
  if 2 ^ 53 ≤ va then .error 5
  else
    match walk s die ((s.dieAt die).reg 0x401) va with
    | .format => .error 3
    | .absent => .error 0
    | .range => .error 2
    | .leaf e bits =>
      let pa := fieldOf e bits (56 - bits) * 2 ^ bits + va % 2 ^ bits
      if !paOk s die pa then .error 2
      else if (need.rd && !bitOf e 5) || (need.w && !bitOf e 6) then .error 4
      else .ok pa

/-- Does an address under KVROOT lead to a place in motion, for which KV, scraper and attention commands wait (R320)? -/
def kvMoving (s : State) (die va : Nat) : Bool :=
  match kvTranslate s die { rd := true } va with
  | .ok pa => s.inMotion pa
  | .error _ => false

/-- Is an access by a supervisor within a valid SUPMAP entry of its die (R378)? Spaces 0, 1 and 2 only. -/
def supmapOk (s : State) (die pa n : Nat) (w : Bool) : Bool :=
  let d := s.dieAt die
  (upFrom 0 16).any fun k =>
    let r := d.reg2 (0x410 + 2 * k)
    let base := bitsAt r 0 56
    bitsAt r 127 1 == 1 && (!w || bitsAt r 126 1 == 1) && decide (base ≤ pa) && decide (pa + n ≤ base + 4096 * bitsAt r 64 40)

/-- TROOT of a core (Table 4-5), held as address 0x400 of its registers. -/
def Core.troot (c : Core) : W64 := c.reg 0x400

/-- Does SUPMAP keep n bytes at an address from a supervisor (R378)? -/
def levelBad (s : State) (die : Nat) (sup : Bool) (pa n : Nat) (w : Bool) : Bool :=
  sup && decide (paSpace pa < 3) && !supmapOk s die pa n w

/-- The first of n bytes at an address that SUPMAP keeps from a supervisor together with those before it (R378, R402). -/
def levelFail (s : State) (die : Nat) (sup : Bool) (pa n : Nat) (w : Bool) : Nat :=
  ((upFrom 0 n).find? fun k => levelBad s die sup pa (k + 1) w).getD 0

/-- Translation of an access of the job of the step in progress, by its core's port, within its page (R86, R378): with a failure, how far
into the access the failing byte lies. -/
def State.xlateAt (s : State) (need : Need) (va n : Nat) : (XRes × Nat) × State :=
  let j := s.job
  match translate s s.me s.core.troot j.sup need va with
  | (.ok pa, s) =>
    if need.none then ((.ok pa, 0), s)
    else if levelBad s s.here.die j.sup pa n need.w then ((.bad 1, levelFail s s.here.die j.sup pa n need.w), s)
    else ((.ok pa, 0), s)
  | (r, s) => ((r, 0), s)
/-- The same without the place of the failure. -/
def State.xlate (s : State) (need : Need) (va n : Nat) : XRes × State :=
  let r := s.xlateAt need va n
  (r.1.1, r.2)

/-- The pieces of a range of n bytes at va that lie in one 8 KiB page each: (va, length). -/
def pageSplit (va n : Nat) : Nat → List (Nat × Nat)
  | 0 => []
  | fuel + 1 =>
    if n = 0 then []
    else
      let k := min n (8192 - va % 8192)
      (va, k) :: pageSplit (va + k) (n - k) fuel

/-- What translating a range answers: its physical runs, or the first failure with its address. -/
inductive RRes where
  | ok (runs : List (Nat × Nat))
  | bad (code va : Nat)
  | park (motion : Bool) (va : Nat)
  deriving DecidableEq, Repr

/-- Translates pieces in order. -/
def State.xlatePieces (s : State) (need : Need) : List (Nat × Nat) → RRes × State
  | [] => (.ok [], s)
  | (va, n) :: t =>
    match s.xlateAt need va n with
    | ((.bad c, k), s) => (.bad c (va + k), s)
    | ((.absent, _), s) => (.park false va, s)
    | ((.motion, _), s) => (.park true va, s)
    | ((.ok pa, _), s) =>
      match s.xlatePieces need t with
      | (.ok rs, s) => (.ok ((pa, n) :: rs), s)
      | r => r

/-- Translates n bytes at an address operand taken as i64 (R84, R228): a negative address is not canonical. -/
def State.xlateRange (s : State) (need : Need) (va : Int) (n : Nat) : RRes × State :=
  if va < 0 then (.bad 5 (va % 2 ^ 64).toNat, s)
  else s.xlatePieces need (pageSplit va.toNat n (n / 8192 + 2))

/-- The physical address of a cluster-window address of the step's cluster (R82). -/
def State.winPa (s : State) (x : Nat) : Nat := tilePa s.here.die (192 * (s.here.core / 192) + x / 2 ^ 22) (x % 2 ^ 22)

/-- The region of a job on a core holds n bytes at a slice offset (R39, R83). -/
def Job.regionHas (j : Job) (off n : Nat) : Bool := decide (j.roff ≤ off) && decide (off + n ≤ j.roff + 65536 * 2 ^ j.rcls)

/-- Does a job's RXP grant the access (Table 4-2)? -/
def Job.grants (j : Job) (need : Need) : Bool := (!need.rd || bitOf j.rxp 0) && (!need.w || bitOf j.rxp 1)

/-- Is an access of n bytes at a cluster-window address permitted (R83; R378 for a supervisor job)? core is the die core of the
agent, die its die. -/
def cwOk (s : State) (die core : Nat) (j : Job) (need : Need) (x n : Nat) : Bool :=
  let tc := 192 * (core / 192) + x / 2 ^ 22
  let off := x % 2 ^ 22
  if j.sup then supmapOk s die (tilePa die tc off) n need.w
  else
    let cs := (s.clusterAt (clid die core)).reg 0x201
    let base := fieldOf cs 0 32
    let k := s.coreAt (cid die tc)
    (tc == core && j.regionHas off n) ||
    (decide (base ≤ x) && decide (x + n ≤ base + 65536 * fieldOf cs 32 8)) ||
    (k.job.live && k.job.regionHas off n && k.job.grants need) ||
    k.held.any fun h => h.job.regionHas off n && h.job.grants need

/-- A cluster-window access of a word: what it needs, its effective address, its bytes, its alignment in bytes. -/
structure CwAcc where
  need : Need
  ea : Int
  n : Nat
  al : Nat
  deriving DecidableEq, Repr

/-- Range (R191, R82): the class and code of the trap, with the first failing byte (R402). -/
def CwAcc.range (a : CwAcc) : Option (Nat × Nat × Nat) :=
  if a.ea < 0 || 192 * 2 ^ 22 ≤ a.ea then some (1, 0, (a.ea % 2 ^ 64).toNat)
  else if 192 * 2 ^ 22 < a.ea + a.n then some (1, 0, 192 * 2 ^ 22)
  else none
/-- Alignment (R192). -/
def CwAcc.align (a : CwAcc) : Option (Nat × Nat × Nat) :=
  if a.ea.toNat % a.al != 0 then some (2, 0, a.ea.toNat) else none
/-- Permission (R83, R378): the failing byte is the first that no area holds together with those before it. -/
def CwAcc.perm (s : State) (a : CwAcc) : Option (Nat × Nat × Nat) :=
  let ok : Nat → Bool := cwOk s s.here.die s.here.core s.job a.need a.ea.toNat
  if ok a.n then none else some (1, 1, a.ea.toNat + ((upFrom 0 a.n).find? fun k => !ok (k + 1)).getD 0)
/-- The checks of the cluster-window accesses of a word of the step's job in the order of R190: the first trap. -/
def State.cwAll (s : State) (l : List CwAcc) : Option (Nat × Nat × Nat) :=
  ((l.findSome? CwAcc.range).or (l.findSome? CwAcc.align)).or (l.findSome? (CwAcc.perm s))
/-- The same of one access: its physical address, or the class, code and address of the trap. -/
def State.cw (s : State) (need : Need) (ea : Int) (n al : Nat) : Except (Nat × Nat × Nat) Nat :=
  match s.cwAll [{ need := need, ea := ea, n := n, al := al }] with
  | some e => .error e
  | none => .ok (s.winPa ea.toNat)

end Sys2Proof.Machine
end

