-- ==== Sys2Proof/Machine/Sched.lean ====
section
/-!
DEFINITION. Records, record queues, join objects and the start of a job (R28-R47, R411, R412).
-/
namespace Sys2Proof

open Sys2Proof.Machine

/-- SLOT of a record (Table 2-2). -/
def Rec.slot (r : Rec) : Nat := fieldOf r.d0 56 8
/-- PRIO of a record (Table 2-2). -/
def Rec.prio (r : Rec) : Nat := fieldOf r.d0 52 3
/-- SMASK of a record (Table 2-2). -/
def Rec.smask (r : Rec) : Nat := fieldOf r.d0 48 4
/-- CODE of a record (Table 2-2). -/
def Rec.code (r : Rec) : Nat := fieldOf r.d0 0 48
/-- AFV of a record (Table 2-2). -/
def Rec.afv (r : Rec) : Bool := bitOf r.d1 61
/-- AFCORE of a record (Table 2-2). -/
def Rec.afcore (r : Rec) : Nat := fieldOf r.d1 53 8
/-- FRAME of a record (Table 2-2). -/
def Rec.frame (r : Rec) : Nat := fieldOf r.d1 0 53
/-- TAGKEY of a record (Table 2-2). -/
def Rec.tagkey (r : Rec) : Nat := fieldOf r.d2 32 32
/-- JOINA of a record (Table 2-2). -/
def Rec.joina (r : Rec) : Nat := fieldOf r.d2 0 32

end Sys2Proof

namespace Sys2Proof.Machine

/-- JOINA's value for no join object. -/
def noJoin : Nat := 0xFFFFFFFF

/-- The limits of Table 2-2, as the SUB of an error record of kind 0x01 (R411, Table 19-7): none if the record keeps them. -/
def recBroken (r : Rec) : Option Nat :=
  if r.smask % 2 = 0 then some 0
  else if r.code % 4 != 0 then some 1
  else if r.afv && decide (191 < r.afcore) then some 2
  else if bitOf r.d0 55 || fieldOf r.d1 62 2 != 0 then some 3
  else none

/-- An error record about a record (kind 0x01): not pushed, not started, or removed. -/
def State.recErr (s : State) (die core sub path : Nat) (r : Rec) : State := s.err die core 1 sub 0 r.code path (recBytes r)

/-- Records of a level of a cluster, oldest first. -/
def Cluster.lvl (c : Cluster) (l : Nat) : List QRec := spGet [] c.q l
/-- Capacity of a level (Table 2-3); 0 until CQCFG is written (R29). -/
def Cluster.cap (c : Cluster) : Nat := if c.cq then 1024 * 2 ^ fieldOf (c.reg 0x200) 32 2 else 0
/-- Is a level full for SPAWN, YIELD, the record window and join completion (R31)? -/
def Cluster.fullO (c : Cluster) (l : Nat) : Bool := decide (c.cap ≤ (c.lvl l).length + 256)
/-- Is every place of a level taken (R32)? -/
def Cluster.fullR (c : Cluster) (l : Nat) : Bool := decide (c.cap ≤ (c.lvl l).length)

/-- The physical address of a cluster-window address of a cluster of the ring. -/
def clWin (cl x : Nat) : Nat := tilePa (cl / 2) (192 * (cl % 2) + x / 2 ^ 22) (x % 2 ^ 22)
/-- The cluster-window address of a place of a level (R29). -/
def Cluster.placeAt (c : Cluster) (l k : Nat) : Nat := fieldOf (c.reg 0x200) 0 32 + (l * c.cap + k) * 32
/-- The lowest place of a level that none of its records takes. -/
def Cluster.freeAt (c : Cluster) (l : Nat) : Nat :=
  ((upFrom 0 ((c.lvl l).length + 1)).find? fun k => !(c.lvl l).any fun q => q.place == k).getD 0
/-- A record enters a level of a cluster behind the others; its 32 bytes stand at its place in tile store (R29; log entry 24). -/
def State.enter (s : State) (cl l : Nat) (q : QRec) : State :=
  let k := (s.clusterAt cl).freeAt l
  let x := (s.clusterAt cl).placeAt l k
  let s := s.onCluster cl fun c => { c with q := spSet c.q l (c.lvl l ++ [{ q with place := k }]) }
  if x < 192 * 2 ^ 22 && paOk s (cl / 2) (clWin cl x) then s.store (clWin cl x) (recBytes q.r) else s

/-- A record enters its level with its push tick (R30). -/
def State.enqueue (s : State) (cl : Nat) (q : QRec) : State :=
  let t := s.tickOf (cl / 2)
  s.enter cl q.r.prio { q with push := t, clk := t }

/-- A push by the tile scheduler, the launch schedule table or trap vectoring (R31, R32): into the reserved places, or held in push
order; the first hold since the level last had a free place is reported (kind 0x07, by which: 0, 1, 2). -/
def State.pushR (s : State) (cl which : Nat) (q : QRec) : State :=
  let l := q.r.prio
  let c := s.clusterAt cl
  if c.fullR l || !(spGet [] c.heldR l).isEmpty then
    let s := s.onCluster cl fun c => { c with heldR := spSet c.heldR l (spGet [] c.heldR l ++ [q]), exh := spSet c.exh l true }
    if spGet false c.exh l then s
    else
      let base := fieldOf (c.reg 0x200) 0 32 + l * c.cap * 32
      s.err (cl / 2) noCore 7 which 0 base (l + 256 * (cl % 2)) (recBytes q.r)
  else s.enqueue cl q

/-- A push by a record window or a join completion (R31): into the level, or held in push order. -/
def State.pushO (s : State) (cl : Nat) (q : QRec) : State :=
  let l := q.r.prio
  let c := s.clusterAt cl
  if c.fullO l || !(spGet [] c.heldO l).isEmpty then
    s.onCluster cl fun c => { c with heldO := spSet c.heldO l (spGet [] c.heldO l ++ [q]) }
  else s.enqueue cl q

/-- Adds 1 to the counter of a join object (R46). A counter that is uncorrectable is counted and stays: the manual names no outcome for one
that the tile scheduler meets (the model's choice: log entry 10); a stream that meets one is discarded before (R425). -/
def State.incJoin (s : State) (pa : Nat) : State :=
  readThen (s.readMem (paDie pa) pa 8) (fun _ s => s) fun bs s => s.store64 pa (dwAt bs 0 + 1)
/-- The uncorrectable word that a decrement of a join object meets (R47, R425): of its counter, or of the record that it pushes. -/
def joinBadWord (s : State) (pa : Nat) : Option Nat :=
  (s.badIn pa 8).or (if s.peek64 pa = 1 then s.badIn (pa + 32) 32 else none)

/-- Subtracts 1 from the counter of a join object (R47, R412): 1 to 0 pushes its record in the cluster of its slice; at 0 it stays
0 and is reported, with the die core that decremented. -/
def State.decJoin (s : State) (die core pa : Nat) : State :=
  let s := (s.mend pa 8).mend (pa + 32) 32
  let v := s.peek64 pa
  if v = 0 then s.err die core 2 0 0 pa core
  else
    let s := s.store64 pa (v - 1)
    if v = 1 then
      let r := recOf (s.peek (pa + 32) 32)
      match recBroken r with
      | some sub => s.recErr die core sub 0 r
      | none => s.pushO (clid (paDie pa) (paCore pa)) { r := r, path := 0 }
    else s

/-- What reading the entry block of a record answers (R38, R411): its region class, header word, the stream vector's two offsets
and the S bit of its page; or the SUB of a record that is not started; or a park at a virtual address. -/
inductive Entry where
  | ok (cls : Nat) (word : W32) (aOff vOff : Int) (sPage : Bool)
  | bad (sub : Nat)
  | park (motion : Bool) (va : Nat)
  deriving DecidableEq, Repr

/-- A 32-bit word of code: the halfword at the lower address holds bits [31:16] (R162). -/
def codeWord (bs : List Byte) : W32 := BitVec.ofNat 32 (ofBytes (bs.take 2) * 65536 + ofBytes ((bs.drop 2).take 2))

/-- The next bytes of an entry block, within one page, behind those that are read (none yet: whether the leaf that maps CODE has S = 1
is found here), as a core would fetch them, without effect. A record that bears the supervisor mark runs at supervisor level if that
leaf has S = 1 (R377), and its fetches are bounded as that level's accesses are (R378, R81). -/
def codePiece (s : State) (n : Nat) (mark : Bool) (acc : Except (XRes × Nat) (List Byte × Bool)) (p : Nat × Nat) :
    Except (XRes × Nat) (List Byte × Bool) :=
  match acc with
  | .error e => .error e
  | .ok (bs, sp) =>
    if 2 ^ 53 ≤ p.1 then .error (.bad 5, p.1)
    else match walk s (n / 384) (s.coreAt n).troot p.1 with
      | .format => .error (.bad 3, p.1)
      | .absent => .error (.absent, p.1)
      | .range => .error (.bad 2, p.1)
      | .leaf e bits =>
        let sp := if bs.isEmpty then bitOf e 4 else sp
        match leafCheck s (n / 384) (mark && sp) { x := true } p.1 e bits with
        | .ok pa =>
          if levelBad s (n / 384) (mark && sp) pa p.2 false then .error (.bad 1, p.1)
          else .ok (bs ++ s.peek pa p.2, sp)
        | r => .error (r, p.1)
/-- Bytes of code at a virtual address as a core would fetch them for a record, and S of the leaf that maps the first. -/
def codeAt (s : State) (n : Nat) (mark : Bool) (va len : Nat) : Except (XRes × Nat) (List Byte × Bool) :=
  (pageSplit va len (len / 8192 + 2)).foldl (codePiece s n mark) (.ok ([], false))
/-- Bytes of a block that stand in the loop buffer as it starts (R164): header and body of a block of up to 2 KiB; of a longer one those
in its header's page, a C-stream's stream vector among them in any case. -/
def firstFetch (va len : Nat) : Nat :=
  if 4 + 2 * len ≤ 2048 then 4 + 2 * len else max 12 (min (4 + 2 * len) (8192 - va % 8192))

/-- Reads the entry block that a record names, for a core (R38, R164, R411). -/
def entryOf (s : State) (n : Nat) (q : QRec) : Entry :=
  let failed : XRes × Nat → Entry := fun r =>
    match r.1 with | .absent => .park false r.2 | .motion => .park true r.2 | _ => .bad 4
  match codeAt s n q.sup q.r.code 4 with
  | .error r => failed r
  | .ok (bs, _) =>
    let w := codeWord bs
    if bitsAt w.toNat 30 2 != 3 then .bad 5
    else if bitsAt w.toNat 28 2 != 0 || decide (bitsAt w.toNat 16 12 < 4) || bitsAt w.toNat 0 12 != 0 ||
        decide (6 < bitsAt w.toNat 12 4) then .bad 6
    else
      match codeAt s n q.sup q.r.code (firstFetch q.r.code (bitsAt w.toNat 16 12)) with
      | .error r => failed r
      | .ok (bs, sp) => .ok (bitsAt w.toNat 12 4) w (codeWord (bs.drop 4)).toInt (codeWord (bs.drop 8)).toInt sp

/-- Does [a, a + n) meet [b, b + m)? -/
def meets (a n b m : Nat) : Bool := decide (a < b + m) && decide (b < a + n)

/-- RSAVE's save address of a frozen context: the doubleword at 0xF80 of its header (R53). One whose area is not tile store that exists (R80,
R81) counts as none (the model's choice: log entry 38). -/
def State.saveAddr (s : State) (die : Nat) (h : Held) : Nat :=
  let a := (s.peek64 (h.ctxp + 0xF80)).toNat / 4096 * 4096
  let last := a + 65536 * 2 ^ h.job.rcls - 1
  if paSpace a = 0 && paOk s die a && a / 2 ^ 22 == last / 2 ^ 22 then a else 0

/-- Where a region of class c is placed on a core (R39, R53): the lowest free multiple of its size within the job area, else the
lowest whose every occupant is frozen with a save address. The slice offset. Where JAREA breaks its limit BASE + SIZE ≤ 64, which
the manual gives no outcome for, a place can lie past the end of the slice (the model's choice: log entry 38). -/
def placeRegion (s : State) (die : Nat) (k : Core) (c : Nat) : Option Nat :=
  let ja := k.reg 0x102
  let size := 65536 * 2 ^ c
  let base := 65536 * fieldOf ja 0 6
  let total := 65536 * fieldOf ja 8 7
  let spots := (upFrom 0 (total / size)).map fun i => base + i * size
  match spots.find? fun o => !k.held.any fun h => meets o size h.job.roff (65536 * 2 ^ h.job.rcls) with
  | some o => some o
  | none => spots.find? fun o =>
      k.held.all fun h => !meets o size h.job.roff (65536 * 2 ^ h.job.rcls) || s.saveAddr die h != 0

/-- Is a queued record eligible for a core (R33, R381)? A record whose entry block cannot be read is taken and then handled under
R411; one set ahead for another core is that core's. -/
def eligible (s : State) (n : Nat) (q : QRec) : Bool :=
  let k := s.coreAt n
  (!q.r.afv || q.r.afcore == n % 192) && !(k.engHeld && q.r.smask / 8 % 2 == 1) &&
  match entryOf s n q with
  | .ok c _ _ _ _ => (placeRegion s (n / 384) k c).isSome
  | _ => true

/-- The position of the earliest push tick among the records that a core may take at a level. Of several with one push tick it is the one that
entered the level first: the manual puts none before another (the model's choice: log entry 38). -/
def bestOf (s : State) (n : Nat) : List QRec → Nat → Option (Nat × W64) → Option (Nat × W64)
  | [], _, b => b
  | q :: t, i, b =>
    if eligible s n q then
      match b with
      | some (_, tk) => bestOf s n t (i + 1) (if q.push < tk then some (i, q.push) else b)
      | none => bestOf s n t (i + 1) (some (i, q.push))
    else bestOf s n t (i + 1) b

/-- The level and position of the record that an idle core takes (R33, R49, R380): a record set ahead for it before all others, and
nothing else while one waits, be its push still held; else the earliest at the highest level that holds one eligible. Of several set ahead
for one core, each of which the manual puts ahead of every other, the model takes that of the highest level, and within the level the
first in the queue (the model's choice: log entry 38). -/
def chooseRec (s : State) (n : Nat) : Option (Nat × Nat) :=
  let c := s.clusterAt (clid (n / 384) (n % 384))
  let levels := (upFrom 0 8).map fun i => 7 - i
  let mine : QRec → Bool := fun q => q.ahead && q.r.afcore == n % 192
  match levels.find? fun l => (c.lvl l).any mine with
  | some l =>
    let i := (c.lvl l).findIdx mine
    match (c.lvl l)[i]? with
    | some q => if eligible s n q then some (l, i) else none
    | none => none
  | none =>
    if c.heldR.any fun p => p.2.any mine then none
    else levels.findSome? fun l => (bestOf s n (c.lvl l) 0 none).map fun b => (l, b.1)

/-- Saves the bytes of frozen jobs in a place that is taken (R53): each 64 KiB unit that is not yet saved, at the same offset of
the save area, of a job that has one. -/
def State.savePlace (s : State) (n off size : Nat) : State :=
  let k := s.coreAt n
  let pa := tilePa (n / 384) (n % 384)
  let hs := k.held.map fun h =>
    let us := if s.saveAddr (n / 384) h = 0 then [] else (upFrom (h.job.roff / 65536) (2 ^ h.job.rcls)).filter fun u =>
      decide (off ≤ 65536 * u) && decide (65536 * u < off + size) && !h.saved.contains u
    (h, us)
  let s := each (fun (p : Held × List Nat) s =>
    each (fun u s => s.store (s.saveAddr (n / 384) p.1 + (65536 * u - p.1.job.roff)) (s.peek (pa (65536 * u)) 65536)) p.2 s) hs s
  s.onCore n fun k => { k with held := hs.map fun p => { p.1 with saved := p.1.saved ++ p.2 } }

/-- The state of a job's streams at its start (R40, Table 2-5). -/
def startJob (id : Nat) (q : QRec) (core roff c : Nat) (w : W32) (aOff vOff : Int) (sPage : Bool) : Job :=
  let r := q.r
  let sm : BitVec 4 := BitVec.ofNat 4 r.smask
  let blkAt : Int → Blk := fun o => ({} : Blk).at (((r.code : Int) + o) % 2 ^ 64).toNat
  let f := BitVec.ofNat 64 r.frame
  { live := true, id := id, smask := sm, src := q, sup := q.sup && sPage, roff := roff, rcls := c
    handler := q.path == 5
    c := { ({} : Blk).at r.code with word := w }
    a := if sm.getLsbD 1 then blkAt aOff else {}
    v := if sm.getLsbD 2 then blkAt vOff else {}
    s := [(1, BitVec.ofNat 64 r.tagkey), (2, BitVec.ofNat 64 r.slot), (3, BitVec.ofNat 64 r.joina),
      (4, BitVec.ofNat 64 ((core % 192) * 2 ^ 22 + roff)), (5, BitVec.ofNat 64 (65536 * 2 ^ c)), (30, f)]
    ar := if sm.getLsbD 1 then [(1, f), (2, BitVec.ofNat 64 r.tagkey)] else [] }

/-- Removes record i of a level; a level that then has a free place may report exhaustion again (R32). -/
def State.unqueue (s : State) (cl l i : Nat) : State :=
  s.onCluster cl fun c => { c with q := spSet c.q l (dropNth (c.lvl l) i), exh := spSet c.exh l false }

/-- Starts a taken record on a core, if its entry block can be read (R38-R41, R411): else it is not started and reported, or the
core holds it while its fetch is parked (R415). -/
def State.startRec (s : State) (n : Nat) (q : QRec) (pk : Option ParkSt) : State :=
  let die := n / 384
  let core := n % 384
  match entryOf s n q with
  | .bad sub => (s.onCore n fun k => { k with taken := none }).recErr die core sub q.path q.r
  | .park m va =>
    match pk with
    | some p => s.onCore n fun k => { k with taken := some (q, some { p with motion := m, va := va }) }
    | none =>
      let t := s.tickOf die
      let s := (s.countPark die).onCore n fun k =>
        { k with taken := some (q, some { va := va, t0 := t, k := 0, motion := m, sub := 2 }) }
      if m then s
      else s.err die core 0x10 2 0 va (fieldOf (s.coreAt n).troot 52 12) (bytesOf 8 t.toNat)
  | .ok c w ao vo sp =>
    match placeRegion s die (s.coreAt n) c with
    | none => s.onCore n fun k => { k with taken := some (q, pk) }
    | some off =>
      let s := s.savePlace n off (65536 * 2 ^ c)
      let j := startJob s.fresh q core off c w ao vo sp
      let s := { s with fresh := s.fresh + 1 }
      s.onCore n fun k =>
        { k with taken := none, job := j
                 eng := if k.engHeld then k.eng else if j.smask.getLsbD 3 then {} else k.eng }

end Sys2Proof.Machine
end

