-- ==== Sys2Proof/Machine/Kv.lean ====
section
/-!
DEFINITION. KV pages: page tables and metadata records, channel bitmaps, allocation, reference counts (R96-R102, R319, R456).
-/
namespace Sys2Proof.Machine

/-- Byte offset and width of the fields of a metadata record (Table 4-9) that the device uses. -/
def State.mdRead (s : State) (die i off n : Nat) : Nat := ofBytes (s.peek (mdPa s die i + off) n)
/-- Writes a field of a metadata record. -/
def State.mdWrite (s : State) (die i off n v : Nat) : State := s.store (mdPa s die i + off) (bytesOf n v)
/-- REFC of a record. -/
def State.refc (s : State) (die i : Nat) : Nat := s.mdRead die i 236 2
/-- MIG of a record: 0 tile store, 1 slow tier, 2 promoting, 3 demoting. -/
def State.mig (s : State) (die i : Nat) : Nat := bitsAt (s.mdRead die i 239 1) 5 2
/-- Sets MIG. -/
def State.setMig (s : State) (die i m : Nat) : State := s.mdWrite die i 239 1 (putBits (s.mdRead die i 239 1) 5 2 m)
/-- PA of a record: the page's current place. -/
def State.mdPage (s : State) (die i : Nat) : Nat := s.mdRead die i 240 8 / 8192 % 2 ^ 43 * 8192
/-- OWNV of a record. -/
def State.ownv (s : State) (die i : Nat) : Bool := bitsAt (s.mdRead die i 239 1) 7 1 == 1
/-- OWNER of a record. -/
def State.owner (s : State) (die i : Nat) : Nat := s.mdRead die i 238 1

/-- The place of frame f of channel k (R100): page f div 8 of the pool of core 8 k + f mod 8. -/
def framePa (s : State) (die k f : Nat) : Nat :=
  let r := (s.dieAt die).reg 0x306
  tilePa die (8 * k + f % 8) (65536 * fieldOf r 0 6 + 8192 * (f / 8))

/-- The channel and frame of a place of the KV pool of a die (R100). -/
def frameOf (s : State) (pa : Nat) : Nat × Nat :=
  let r := (s.dieAt (paDie pa)).reg 0x306
  (paCore pa / 8, 8 * ((paOff pa - 65536 * fieldOf r 0 6) / 8192) + paCore pa % 8)

/-- The key of a frame in the list of frames taken. Where KVCFG gives a pool beyond its range, frames from 4,096 on share the keys of the next
channel (the model's choice: log entry 42). -/
def frameKey (k f : Nat) : Nat := 4096 * k + f

/-- The lowest free frame of a channel. -/
def freeFrame (s : State) (die k : Nat) : Option Nat :=
  let d := s.dieAt die
  (upFrom 0 (8 * fieldOf (d.reg 0x306) 16 16)).find? fun f => !d.kvUsed.contains (frameKey k f)

/-- A frame of the first channel from a cursor upward, mod 48, that has one (R101). -/
def chooseFrame (s : State) (die cur : Nat) : Option (Nat × Nat) :=
  (upFrom 0 48).findSome? fun i => (freeFrame s die ((cur + i) % 48)).map fun f => ((cur + i) % 48, f)

/-- The lowest free metadata index (R100). -/
def freeMd (s : State) (die : Nat) : Option Nat :=
  let d := s.dieAt die
  (upFrom 0 (fieldOf (d.reg 0x305) 32 19)).find? fun i => !d.mdUsed.contains i

/-- A request slot of a die. -/
def State.slotAt (s : State) (die n : Nat) : ReqSlot := spGet {} (s.dieAt die).slots n
/-- Changes a request slot. -/
def State.onSlot (s : State) (die n : Nat) (f : ReqSlot → ReqSlot) : State :=
  s.onDie die fun d => { d with slots := spSet d.slots n (f (spGet {} d.slots n)) }

/-- An allocation for a request slot (R101): a frame and a metadata index, the record set, the cursor moved; nothing where either
is lacking. Answers the frame's place and the index. -/
def State.alloc (s : State) (die slot : Nat) : Option (Nat × Nat) × State :=
  match chooseFrame s die (s.slotAt die slot).cursor, freeMd s die with
  | some (k, f), some i =>
    let pa := framePa s die k f
    let s := s.onDie die fun d => { d with kvUsed := frameKey k f :: d.kvUsed, mdUsed := i :: d.mdUsed }
    let s := s.store (mdPa s die i)
      (List.replicate 236 0 ++ bytesOf 2 1 ++ [BitVec.ofNat 8 slot, 0x80] ++ bytesOf 8 pa ++ List.replicate 8 0)
    (some (pa, i), s.onSlot die slot fun r => { r with cursor := (k + 1) % 48 })
  | _, _ => (none, s)

/-- A frame returns to its channel bitmap (R99). -/
def State.freeFramePa (s : State) (pa : Nat) : State :=
  let (k, f) := frameOf s pa
  s.onDie (paDie pa) fun d => { d with kvUsed := d.kvUsed.filter fun x => x != frameKey k f }

/-- The slow-tier page of a die that a companion address lies in (R103). -/
def slowPage (s : State) (die pa : Nat) : Nat := (bitsAt pa 0 52 - bitsAt ((s.dieAt die).reg2 0x30A) 0 39 * 8192) / 8192
/-- The address of STMAP's entry for a slow-tier page. -/
def stmapPa (s : State) (die p : Nat) : Nat := bitsAt ((s.dieAt die).reg2 0x30A) 48 56 + 4 * p

/-- Frees the page of a record whose REFC is 0 (R99), by its MIG; while it moves the free waits. -/
def State.freePage (s : State) (die i : Nat) : State :=
  let pa := s.mdPage die i
  match s.mig die i with
  | 0 =>
    let s := (s.freeFramePa pa).onDie die fun d => { d with mdUsed := d.mdUsed.filter fun x => x != i }
    s.mdWrite die i 239 1 (s.mdRead die i 239 1 % 128)
  | 1 =>
    let acc := s.mdRead die i 232 4
    let s := s.onDie die fun d => { d with mdUsed := d.mdUsed.filter fun x => x != i }
    let e := stmapPa s die (slowPage s die pa)
    let s := s.store e (bytesOf 4 (ofBytes (s.peek e 4) % 2 ^ 31))
    match s.notify die 1 i pa acc with
    | (s, true) => s
    | (s, false) => s.notifyLost die i true
  | _ => s

/-- Lowers REFC of a record (R99, R456): at 0 it stays and is reported with a SUB; 1 to 0 frees the page. -/
def State.dropRef (s : State) (die i sub : Nat) : State :=
  let r := s.refc die i
  if r = 0 then s.err die noCore 0x15 sub 0 (mdPa s die i) i
  else
    let s := s.mdWrite die i 236 2 (r - 1)
    if r = 1 then s.freePage die i else s

/-- A move of a page completes (R99, R105, R325): its new MIG, QUEUED and ACCNT cleared where asked, and a free that waited acts. -/
def State.endMove (s : State) (die i m : Nat) : State :=
  let s := s.setMig die i m
  if s.refc die i = 0 then s.freePage die i else s

/-- Reads n bytes at a virtual address under KVROOT, within a page. -/
def State.kvRead (s : State) (die va n : Nat) : Except Nat (List Byte) :=
  match kvTranslate s die { rd := true } va with
  | .error c => .error c
  | .ok pa => .ok (s.peek pa n)

/-- The virtual address of entry i of a slot's KV page table (R96). -/
def entVa (s : State) (die slot i : Nat) : Nat := (s.slotAt die slot).ptbase + 8 + 8 * i
/-- NPAGES of a slot's KV page table (R96). -/
def State.npages (s : State) (die slot : Nat) : Except Nat Nat :=
  match s.kvRead die (s.slotAt die slot).ptbase 8 with
  | .error c => .error c
  | .ok bs => .ok (ofBytes bs % 2 ^ 32)
/-- Entry i of a slot's KV page table. -/
def State.ptEntry (s : State) (die slot i : Nat) : Except Nat W64 :=
  match s.kvRead die (entVa s die slot i) 8 with
  | .error c => .error c
  | .ok bs => .ok (BitVec.ofNat 64 (ofBytes bs))
/-- Writes entry i of a slot's KV page table, one 8-byte store (R321), which counts where the table lies in the slow tier (R103). -/
def State.setPtEntry (s : State) (die slot i : Nat) (e : W64) : State :=
  match kvTranslate s die { w := true } (entVa s die slot i) with
  | .error _ => s
  | .ok pa => s.writeMem die pa (bytesOf 8 e.toNat)

/-- V of a page-table entry (Table 4-7). -/
def entV (e : W64) : Bool := bitOf e 63
/-- MDX of a page-table entry. -/
def entMdx (e : W64) : Nat := fieldOf e 42 18

/-- kv_va: the virtual address of a place of the KV pool (R319). -/
def kvVa (s : State) (pa : Nat) : Nat :=
  let die := paDie pa
  let r := (s.dieAt die).reg2 0x310
  let cfg := (s.dieAt die).reg 0x306
  bitsAt r 0 40 * 8192 + (512 * paCore pa + (paOff pa - 65536 * fieldOf cfg 0 6) / 8192) * 8192
/-- st_va: the virtual address of a slow-tier page (R319). -/
def stVa (s : State) (die p : Nat) : Nat := bitsAt ((s.dieAt die).reg2 0x310) 64 40 * 8192 + 8192 * p

/-- The words of a walk under KVROOT are read: what they need of repair is done (R424, R87). -/
def State.kvWalk (s : State) (die va : Nat) : State := s.walkMend die ((s.dieAt die).reg 0x401) va
/-- The device reads a doubleword under KVROOT, with what it needs of repair (R424); a word that is uncorrectable cannot be read (R426). -/
def State.kvGet (s : State) (die va : Nat) : Option W64 × State :=
  let s := s.kvWalk die va
  match kvTranslate s die { rd := true } va with
  | .error _ => (none, s)
  | .ok pa =>
    match s.readMem die pa 8 with
    | (.error _, s) => (none, s)
    | (.ok bs, s) => (some (dwAt bs 0), s)

/-- A reference of a slot that retires is dropped; where the record has an uncorrectable word it is not, and its frame stays allocated
(R425). -/
def State.dropRec (s : State) (die slot i : Nat) : State :=
  readThen (s.readMem die (mdPa s die i) 256) (fun w s => s.err die noCore 0x12 5 0 w slot) fun _ s => s.dropRef die i 0

/-- Drops one reference for each entry with V = 1, in increasing index, at retirement (R75, R99, R456): an entry that cannot be read
is reported once for its 8 KiB page of the table, and the walk goes on with the next page. -/
def State.dropAll (s : State) (die slot i n : Nat) : Nat → State
  | 0 => s
  | fuel + 1 =>
    if n ≤ i then s
    else
      let va := entVa s die slot i
      match s.kvGet die va with
      | (none, s) => (s.err die noCore 0x15 3 0 va slot).dropAll die slot (i + (8192 - va % 8192 + 7) / 8) n fuel
      | (some e, s) => (if entV e then s.dropRec die slot (entMdx e) else s).dropAll die slot (i + 1) n fuel

/-- The references of a slot's pages are dropped (R75 step 1). -/
def State.dropPages (s : State) (die slot : Nat) : State :=
  match s.kvGet die (s.slotAt die slot).ptbase with
  | (none, s) => s.err die noCore 0x15 3 0 (s.slotAt die slot).ptbase slot
  | (some h, s) => s.dropAll die slot 0 (min (fieldOf h 0 32) 65535) (min (fieldOf h 0 32) 65535 + 1)

/-- Writes a completion record (R76, Table 3-12) if the queue has room; answers whether it had. -/
def State.complete (s : State) (die : Nat) (reqid : W64) (steps slot model reason skips : Nat) : Bool × State :=
  let d := s.dieAt die
  let r := d.reg2 0x30E
  let pi := bitsAt r 112 16
  if d.wrote.contains 0x30E && (pi + 1) % ringCap r != bitsAt r 96 16 then
    let rec_ := bytesOf 8 reqid.toNat ++
      bytesOf 8 ((steps % 2 ^ 32) * 2 ^ 32 + (slot % 256) * 2 ^ 24 + (model % 64) * 2 ^ 18 + (reason % 16) * 2 ^ 14) ++
      bytesOf 8 (s.tickOf die).toNat ++ bytesOf 8 (skips % 65536)
    let s := s.store (bitsAt r 0 56 + 32 * pi) rec_
    (true, s.onDie die fun d => { d with cr := (d.setReg2 0x30E (putBits r 112 16 ((pi + 1) % ringCap r))).cr })
  else (false, s)

/-- Retires a slot (R75): its page references, its completion record, FREE. With the completion queue full it stays DONE. -/
def State.retire (s : State) (die slot reason : Nat) (pages : Bool) : State :=
  let r := s.slotAt die slot
  let d := s.dieAt die
  let q := d.reg2 0x30E
  if d.wrote.contains 0x30E && (bitsAt q 112 16 + 1) % ringCap q != bitsAt q 96 16 then
    let s := if pages then s.dropPages die slot else s
    let (_, s) := s.complete die r.reqid r.steps slot r.model reason r.skips
    s.onSlot die slot fun r => { r with state := 0 }
  else s

end Sys2Proof.Machine
end

