-- ==== Sys2Proof/Machine/Caravan.lean ====
section
/-!
DEFINITION. The caravan at a die: serai frames, timetable, presentations, dispatch rounds, tag dispatch, rotation boundaries,
admission and retirement, late and missed segments (R56-R76, R429-R436, R457, R458).
-/
namespace Sys2Proof.Machine

/-- SEGSZ in bytes (R56). -/
def segSz (d : Die) : Nat := 0x1000000 * 2 ^ fieldOf (d.reg 0x301) 0 3
/-- LANESZ in bytes (R56). -/
def laneSz (d : Die) : Nat := 4096 * (segSz d / 0x180000)
/-- Frames of a die (Table 3-1). -/
def frameCount (d : Die) : Nat := 0xA0000000 / segSz d
/-- RSCFG.RUN. -/
def stationRuns (d : Die) : Bool := bitOf (d.reg 0x301) 63
/-- The number of valid timetable entries: RSTTLEN.LEN, which the table bounds at 65,536 (log entry 21). -/
def ttLen (d : Die) : Nat := min (fieldOf (d.reg 0x304) 0 17) 65536
/-- RSPERIOD.NS. -/
def rsPeriod (d : Die) : Nat := fieldOf (d.reg 0x303) 0 32

/-- A timetable entry (Table 3-6). -/
structure TtEnt where
  arrive : Nat
  latest : Nat
  depart : Nat
  tag : Nat
  fcw : Bool
  fccw : Bool
  src : Nat
  frame : Nat
  deriving DecidableEq, Repr

/-- Entry e of a die's timetable, as it stands in device control space. -/
def ttEnt (s : State) (die e : Nat) : TtEnt :=
  let b := s.peek (ctlPa die (0x80000 + 32 * e)) 24
  let w := dwAt b 16
  { arrive := ofBytes (b.take 4), latest := ofBytes ((b.drop 4).take 4), depart := ofBytes ((b.drop 8).take 4)
    tag := ofBytes ((b.drop 12).take 4), fcw := bitOf w 11, fccw := bitOf w 10, src := fieldOf w 8 2, frame := fieldOf w 0 8 }

/-- The ring tick of an offset in rotation n (R58). -/
def rotTick (d : Die) (n off : Nat) : Nat := (d.reg 0x302).toNat + n * rsPeriod d + off

/-- The state of a timetable entry; before its first presentation it stands at the station's first rotation (R59). -/
def entSt (d : Die) (e : Nat) : EntSt := spGet { next0 := d.n0, next1 := d.n0, nextC := d.n0 } d.ents e
/-- Changes it. -/
def State.onEnt (s : State) (die e : Nat) (f : EntSt → EntSt) : State :=
  s.onDie die fun d => { d with ents := spSet d.ents e (f (entSt d e)) }
/-- A serai frame. -/
def frameAt (d : Die) (f : Nat) : Frame := spGet {} d.frames f
/-- Changes a frame. -/
def State.onFrame (s : State) (die f : Nat) (g : Frame → Frame) : State :=
  s.onDie die fun d => { d with frames := spSet d.frames f (g (frameAt d f)) }

/-- The valid entry with SRC 0 that names the frame, if one does (R59, R62). -/
def homeEntry (s : State) (die f : Nat) : Option Nat :=
  (upFrom 0 (ttLen (s.dieAt die))).find? fun e => let t := ttEnt s die e; t.src == 0 && t.frame == f
/-- Is a frame a home frame? -/
def homeFrame (s : State) (die f : Nat) : Bool := (homeEntry s die f).isSome
/-- Is a serai read of a frame issued and not served (R242)? -/
def seraiBusy (s : State) (die f : Nat) : Bool :=
  let lo := seraiPa die (f * segSz (s.dieAt die))
  let reads : Job → Bool := fun j => j.acc.any fun a => a.runs.any fun r =>
    decide (r.1 < lo + segSz (s.dieAt die)) && decide (lo < r.1 + r.2)
  (s.coresOf die).any fun n => reads (s.coreAt n).job || (s.coreAt n).held.any fun h => reads h.job
/-- Is a frame free (R59, R64, R242, R433)? -/
def freeFr (s : State) (die f : Nat) : Bool :=
  let fr := frameAt (s.dieAt die) f
  !((s.dieAt die).wload.any fun w => w.2.1 == f) && fr.st == 0 && !fr.loaded && !homeFrame s die f && !seraiBusy s die f

/-- The frame that is open with a tag, RPAR included (R78): its number. -/
def openFrame (d : Die) (tag : Nat) : Option Nat := (d.frames.find? fun p => p.2.st == 3 && p.2.tag.toNat == tag).map Prod.fst
/-- The tag of the open frame that a pattern and a mask match, earliest presentation first (R79, R217). -/
def matchFrame (d : Die) (pat mask : W32) : Option W32 :=
  let ms := d.frames.filter fun p => p.2.st == 3 && (p.2.tag ^^^ pat) &&& mask == 0
  (ms.foldl (fun b p => match b with
    | none => some p.2
    | some q => if p.2.seqno < q.seqno then some p.2 else some q) none).map fun f => f.tag

/-- The tag an entry presents in rotation n (R57, R63). -/
def tagIn (t : TtEnt) (n : Nat) : W32 := BitVec.ofNat 32 (t.tag / 16 * 16 + n % 16)

/-- The die joined to a die in a direction of its ring (R13, R14): 1 clockwise, 2 counter-clockwise; itself on no ring, or where the package
there has not joined the ring. -/
def adjDie (s : State) (g dir : Nat) : Nat :=
  let n := s.ringDies g
  let a := if dir = 1 then (g + 1) % n else (g + n - 1) % n
  if 1 < n && s.ringHas g a then a else g
/-- The next die that traffic reaches in a direction: a bypassed die is passed by its chord (R434, R435). -/
def nextDie (s : State) (g dir : Nat) : Nat :=
  let a := adjDie s g dir
  if (s.dieAt a).bypassed then adjDie s a dir else a

/-- Codes of link directions (Table 21-6). -/
def linkCode : LinkDir → Nat
  | .cwIn => 0 | .cwOut => 1 | .ccwIn => 2 | .ccwOut => 3 | .east => 4 | .west => 5
/-- Has a link of a die failed, or is it retraining (R432)? -/
def linkDown (d : Die) (l : LinkDir) : Bool := spGet 0 d.links (linkCode l) != 0
/-- The four link directions of the physical link that a direction of a die belongs to, both ways at both ends (R432); of a
waystation link the two ends. -/
def linkMates (s : State) (g : Nat) : LinkDir → List (Nat × LinkDir)
  | .cwOut | .ccwIn => [(g, .cwOut), (g, .ccwIn), (adjDie s g 1, .cwIn), (adjDie s g 1, .ccwOut)]
  | .cwIn | .ccwOut => [(g, .cwIn), (g, .ccwOut), (adjDie s g 2, .cwOut), (adjDie s g 2, .ccwIn)]
  | .east => [(g, .east), (adjDie s g 1, .west)]
  | .west => [(g, .west), (adjDie s g 2, .east)]
/-- Is the hop of a die in a direction down: its link, at either end, unless the hop is a chord; and on the hop between die 7 and die 0 the
waystation link (R14, R434)? There is none to a package that has not joined the ring (R14). -/
def hopDown (s : State) (g dir : Nat) : Bool :=
  let b := nextDie s g dir
  let chord := b != adjDie s g dir
  let seam := if dir = 1 then decide (b % 8 < g % 8) else decide (g % 8 < b % 8)
  (decide (1 < s.ringDies g) && b == g) ||
  (!chord && (if dir = 1 then linkDown (s.dieAt g) .cwOut || linkDown (s.dieAt b) .cwIn
    else linkDown (s.dieAt g) .ccwOut || linkDown (s.dieAt b) .ccwIn)) ||
  (seam && (if dir = 1 then linkDown (s.dieAt (g / 8 * 8 + 7)) .east || linkDown (s.dieAt (b / 8 * 8)) .west
    else linkDown (s.dieAt (g / 8 * 8)) .west || linkDown (s.dieAt (b / 8 * 8 + 7)) .east))
/-- The dies that traffic from a die to another leaves, in order, in a direction: the last is the one joined to its goal. -/
def hopsTo (s : State) (b dir : Nat) : Nat → Nat → List Nat
  | 0, _ => []
  | fuel + 1, a => if a = b then [] else if adjDie s a dir = b then [a] else a :: hopsTo s b dir fuel (nextDie s a dir)
/-- The direction in which a fabric slot travels (R336, R435): that with fewer hops, a chord counting one; clockwise on a tie. -/
def routeDir (s : State) (a b : Nat) : Nat :=
  if (hopsTo s b 1 (s.ringDies a) a).length ≤ (hopsTo s b 2 (s.ringDies a) a).length then 1 else 2
/-- The dies that a slot from a die to another leaves on its way. -/
def routeOf (s : State) (a b : Nat) : List Nat := hopsTo s b (routeDir s a b) (s.ringDies a) a

/-- The valid entry of a die whose tag, RPAR aside, and SRC a copy has (R458). -/
def entryOfSeg (s : State) (g : Seg) : Option Nat :=
  (upFrom 0 (ttLen (s.dieAt g.dst))).find? fun e =>
    let t := ttEnt s g.dst e
    t.src == g.dir && t.tag / 16 == g.tag.toNat / 16

/-- The frame a copy lands in (R429). -/
def landFrame (s : State) (die : Nat) (t : TtEnt) : Option Nat :=
  if freeFr s die t.frame && decide (t.frame < frameCount (s.dieAt die)) then some t.frame
  else (upFrom 0 (frameCount (s.dieAt die))).find? fun f => freeFr s die f

/-- Copy k changes. -/
def State.onSeg (s : State) (k : Nat) (f : Seg → Seg) : State :=
  { s with segs := match s.segs[k]? with | some g => setNth s.segs k (f g) | none => s.segs }

/-- Does a copy find its link down at either end (R432)? -/
def segBlocked (s : State) (g : Seg) : Bool := hopDown s g.src g.dir

/-- The first slot of copy k, if its link is up (R429): the copy takes the frame that it will land in, or, where R458 discards it, none;
with no frame free the sender holds the transmission. -/
def State.segFirst (s : State) (k : Nat) (g : Seg) : State :=
  let d := s.dieAt g.dst
  let go : State → Option Nat → State := fun s f => s.onSeg k fun g => { g with begun := true, sent := s.tickOf g.src, land := f }
  if segBlocked s g then s
  else if !stationRuns d || decide (g.rot < d.n0) then go s none
  else
    match entryOfSeg s g with
    | none => go s none
    | some e =>
      match landFrame s g.dst (ttEnt s g.dst e) with
      | none => s
      | some f => (go s (some f)).onFrame g.dst f fun fr => { fr with st := 1, entry := e, tag := g.tag, rot := g.rot }

/-- Sends a frame's segment on (R63, R64): a copy to each neighbour named; the frame is retained until both acknowledge, and one
that forwards nowhere is free, or back to landed for a home frame. -/
def State.forward (s : State) (die e f : Nat) (t : TtEnt) (n : Nat) : State :=
  let tag := tagIn t n
  let mk : Nat → Seg := fun dir =>
    { src := die, frame := f, dst := nextDie s die dir, dir := dir, tag := tag, rot := n, sent := s.tickOf die }
  let goes : Nat → Bool := fun dir => !(s.dieAt die).bypassed && nextDie s die dir != die
  let segs := (if t.fcw && goes 1 then [mk 1] else []) ++ (if t.fccw && goes 2 then [mk 2] else [])
  let home := t.src == 0
  let s := if home then
      each (fun w s => s.err die noCore 0x35 0 0 w tag.toNat)
        ((s.ecc.filter fun p => p.2 != 1 && decide (seraiPa die (f * segSz (s.dieAt die)) ≤ p.1) &&
          decide (p.1 < seraiPa die ((f + 1) * segSz (s.dieAt die)))).map Prod.fst) s
    else s
  let s := s.onFrame die f fun fr => { fr with st := if segs.isEmpty then (if home then 2 else 0) else 4, ackCw := t.fcw && goes 1,
                                                ackCcw := t.fccw && goes 2, entry := e, tag := tag, rot := n }
  each (fun g s => ({ s with segs := s.segs ++ [g] } : State).segFirst s.segs.length g) segs s

/-- Opens a frame (R63). -/
def State.openFr (s : State) (die e f : Nat) (tag : W32) (n : Nat) : State :=
  let q := (s.dieAt die).openSeq
  let s := s.onDie die fun d => { d with openSeq := q + 1 }
  s.onFrame die f fun fr => { fr with st := 3, entry := e, tag := tag, rot := n, seqno := q }

/-- Fields of a tag (Table 3-2). -/
def tagModel (t : W32) : Nat := bitsAt t.toNat 26 6
def tagLayer (t : W32) : Nat := bitsAt t.toNat 14 12
def tagSlice (t : W32) : Nat := bitsAt t.toNat 4 10

/-- A model table entry (Table 3-5). -/
def modelEnt (s : State) (die m : Nat) : W64 := s.peek64 (ctlPa die (0x280000 + 8 * m))

/-- Does a slot want a tag (R67)? -/
def ReqSlot.wants (r : ReqSlot) (t : W32) : Bool :=
  r.state == 1 && !r.fin && r.model == tagModel t && r.layer == tagLayer t && r.slice == tagSlice t

/-- A skip of a slot (R68, R429, R436): SKIPS rises, saturating, and each multiple of SKIPN is reported. -/
def State.skip (s : State) (die k : Nat) : State :=
  let r := s.slotAt die k
  let v := min (r.skips + 1) 65535
  let s := s.countSkip die
  let s := s.onSlot die k fun r => { r with skips := v, defer := false }
  let n := fieldOf ((s.dieAt die).reg 0x319) 48 16
  if n != 0 && r.skips != v && v % n == 0 then s.err die noCore 0x31 0 0 0 (v * 2 ^ 32 + k) (bytesOf 8 r.reqid.toNat) else s

/-- The cursor of a dispatched slot advances (R68). SLICE + 1 and LAYER + 1 are compared before they are stored, so that a model with
SLCM1 1,023 or LAYM1 4,095 wraps its field at its end (log entry 39). -/
def advanceCursor (m : W64) (ptick : W64) (r : ReqSlot) : ReqSlot :=
  let slc := r.slice + 1
  if fieldOf m 0 10 < slc then
    let lay := r.layer + 1
    if fieldOf m 10 12 < lay then
      { r with slice := 0, layer := 0, steps := (r.steps + 1) % 2 ^ 32, budget := (r.budget + 2 ^ 32 - 1) % 2 ^ 32, parkp := true,
               ptick := ptick }
    else { r with slice := 0, layer := lay }
  else { r with slice := slc }

/-- The want set of a dispatch round of a tag (R68) in increasing slot number, with the slots deferred or skipped. -/
def State.dispatchRound (s : State) (die : Nat) (t : W32) (round : Nat) (ptick : W64) : List Nat × State :=
  let (want, s) := (upFrom 0 256).foldl (fun (acc : List Nat × State) k =>
    let (w, s) := acc
    let r := s.slotAt die k
    if round = 0 then
      if r.wants t then
        if r.hold = 0 then (w ++ [k], s) else (w, s.onSlot die k fun r => { r with defer := true })
      else (w, s)
    else if r.defer then
      if r.hold == 0 && r.wants t then (w ++ [k], s.onSlot die k fun r => { r with defer := false })
      else (w, s.skip die k)
    else (w, s)) ([], s)
  let m := modelEnt s die (tagModel t)
  (want, each (fun k s => s.onSlot die k (advanceCursor m ptick)) want s)

/-- The miss round (R429). -/
def State.missRound (s : State) (die : Nat) (t : W32) : State :=
  each (fun k s => let r := s.slotAt die k; if r.wants t || r.defer then s.skip die k else s) (upFrom 0 256) s

/-- The limits of a tag dispatch entry that R457 checks. -/
def dispatchBroken (b : List Byte) : Bool :=
  let w1 := dwAt b 8
  let w2 := dwAt b 16
  let w3 := dwAt b 24
  let w4 := dwAt b 32
  let w5 := dwAt b 40
  let fan := bitOf w1 62
  let joina := fieldOf w3 0 32
  let wv := fieldOf w4 0 32
  fieldOf w1 58 2 != 0 || bitOf w1 51 || fieldOf w2 53 11 != 0 || fieldOf w5 50 14 != 0 || fieldOf w5 0 32 != 0 ||
  ((b.drop 48).any fun x => x != 0) ||
  (fan && (decide (383 < fieldOf w5 32 9 + fieldOf w5 41 9) || decide (191 < wv / 2 ^ 22) || wv % 512 != 0)) ||
  (joina != noJoin && (decide (191 < joina / 2 ^ 22) || joina % 64 != 0))

/-- Pushes one record of a firing of a dispatch entry into a cluster (R71, R411). -/
def State.dispatchPush (s : State) (cl : Nat) (r : Rec) : State :=
  match recBroken r with
  | some sub => s.recErr (cl / 2) noCore sub 3 r
  | none =>
    let s := if r.joina = noJoin then s else s.incJoin (clWin cl r.joina)
    s.pushR cl 0 { r := r, sup := true, path := 3 }

/-- A record of a dispatch entry (Table 3-9). -/
def dispatchRec (b : List Byte) (t : W32) (prio slot k : Nat) (af : Option Nat) : Rec :=
  let w1 := dwAt b 8
  let w2 := dwAt b 16
  let w3 := dwAt b 24
  let w4 := dwAt b 32
  { d0 := BitVec.ofNat 64 (slot * 2 ^ 56 + prio * 2 ^ 52 + fieldOf w1 52 4 * 2 ^ 48 + fieldOf w1 0 48)
    d1 := BitVec.ofNat 64 ((match af with | some c => 2 ^ 61 + c * 2 ^ 53 | none => 0) +
      (fieldOf w2 0 53 + fieldOf w3 32 32 * k) % 2 ^ 53)
    d2 := BitVec.ofNat 64 (t.toNat * 2 ^ 32 + fieldOf w3 0 32)
    d3 := BitVec.ofNat 64 (fieldOf w4 32 32 * 2 ^ 32) + BitVec.ofNat 64 (t.toNat ^^^ (k <<< 16)) }

/-- A matching dispatch entry fires (R70, R71, R457): one with FAN 1 that would not is not checked either. -/
def State.dispatchFire (s : State) (die e : Nat) (b : List Byte) (t : W32) (want : List Nat) : State :=
  let pa := ctlPa die (0x40000 + 64 * e)
  let w1 := dwAt b 8
  if bitOf w1 62 && want.isEmpty && !bitOf w1 61 then s
  else if dispatchBroken b then
    (s.store64 (pa + 8) (setField w1 63 1 0)).err die noCore 8 1 0 pa t.toNat (b.take 32)
  else
    let w4 := dwAt b 32
    let w5 := dwAt b 40
    if bitOf w1 62 then
      let w := spGet 0 (s.dieAt die).wc e
      let cores := upFrom (fieldOf w5 32 9) (fieldOf w5 41 9 + 1)
      let vec := bytesOf 32 (want.foldl (fun v k => v + 2 ^ k) 0)
      let s := each (fun c s =>
          if cores.any fun x => x / 192 == c then s.store (clWin (2 * die + c) (fieldOf w4 0 32 + 32 * w)) vec else s) [0, 1] s
      let s := each (fun c s => s.dispatchPush (clid die c)
        (dispatchRec b t (fieldOf w1 48 3) w c (some (c % 192)))) cores s
      s.onDie die fun d => { d with wc := spSet d.wc e ((w + 1) % 16) }
    else
      each (fun k s =>
        let prio := if bitOf w1 60 then (s.slotAt die k).prio else fieldOf w1 48 3
        let c0 := ((s.clusterAt (2 * die)).lvl prio).length
        let c1 := ((s.clusterAt (2 * die + 1)).lvl prio).length
        let cl := match fieldOf w1 56 2 with
          | 0 => 0 | 1 => 1 | 2 => k % 2 | _ => if c1 < c0 then 1 else 0
        s.dispatchPush (2 * die + cl) (dispatchRec b t prio k k none)) want s

/-- After a dispatch round every matching entry fires, in increasing index (R70). -/
def State.dispatchAll (s : State) (die : Nat) (t : W32) (want : List Nat) : State :=
  each (fun e s =>
    let b := s.peek (ctlPa die (0x40000 + 64 * e)) 64
    let w0 := dwAt b 0
    if bitOf (dwAt b 8) 63 && (t ^^^ BitVec.ofNat 32 (fieldOf w0 32 32)) &&& BitVec.ofNat 32 (fieldOf w0 0 32) == 0 then
      s.dispatchFire die e b t want
    else s) (upFrom 0 4096) s

/-- Is the scraper at work on a slot (R326)? -/
def scraping (d : Die) (slot : Nat) : Bool :=
  d.scrProg && match d.scr with | c :: _ => fieldOf c.hi 52 8 == slot | [] => false

/-- Completion records of admission records that are due (R74, R76), in arrival order, for as long as the queue has room. -/
def State.admPending (s : State) (die : Nat) : State :=
  let (keep, s, _) := (s.dieAt die).adm.foldl (fun (acc : List AdmEnt × State × Bool) a =>
    let (keep, s, stuck) := acc
    match a.pend with
    | some why =>
      if stuck then (keep ++ [a], s, stuck)
      else
        match s.complete die a.r.d0 0 0xFF (fieldOf a.r.d1 54 6) why 0 with
        | (true, s) => (keep, s, false)
        | (false, s) => (keep ++ [a], s, true)
    | none => (keep ++ [a], s, stuck)) ([], s, false)
  s.onDie die fun d => { d with adm := keep }

/-- Slots that a model holds. -/
def modelSlots (s : State) (die m : Nat) : Nat :=
  ((upFrom 0 256).filter fun k => let r := s.slotAt die k; r.state != 0 && r.model == m).length

/-- The walk of the admission queue at a model's boundary (R74, R76). -/
def State.admWalk (s : State) (die m : Nat) : List AdmEnt → State × List AdmEnt
  | [] => (s, [])
  | a :: t =>
    if a.pend.isSome || fieldOf a.r.d1 54 6 != m then
      let (s, rest) := s.admWalk die m t
      (s, a :: rest)
    else if fieldOf a.r.d2 0 32 = 0 then
      match s.complete die a.r.d0 0 0xFF m 0 0 with
      | (true, s) => s.admWalk die m t
      | (false, s) =>
        let (s, rest) := s.admWalk die m t
        (s, { a with pend := some 0 } :: rest)
    else
      let maxs := fieldOf (modelEnt s die m) 32 8
      match (upFrom 0 256).find? fun k => (s.slotAt die k).state == 0 with
      | some k =>
        if modelSlots s die m < maxs + 1 then
          let s := s.onSlot die k fun _ =>
            { state := 1, prio := fieldOf a.r.d1 60 3, model := m, ptbase := fieldOf a.r.d1 0 53, reqid := a.r.d0,
              budget := fieldOf a.r.d2 0 32, cursor := k % 48 }
          s.admWalk die m t
        else (s, a :: t)
      | none => (s, a :: t)

/-- A rotation boundary of a model (R73). -/
def State.boundary (s : State) (die m : Nat) : State :=
  let s := s.admPending die
  let s := each (fun k s =>
    let r := s.slotAt die k
    if r.state == 3 && r.model == m && !scraping (s.dieAt die) k then 
      s.retire die k (if r.lost then 3 else if r.fin then 1 else 0) (!r.lost) else s)
    (upFrom 0 256) s
  let p := s.admWalk die m (s.dieAt die).adm
  let s := p.1.onDie die fun d => { d with adm := p.2 }
  each (fun k s =>
    let r := s.slotAt die k
    if r.model == m then
      if r.state == 2 then
        if scraping (s.dieAt die) k then s.onDie die fun d => { d with scrBound := true }
        else s.onSlot die k fun r => { r with state := 1, parkp := false }
      else if r.state == 1 then s.onSlot die k fun r => { r with parkp := false }
      else s
    else s) (upFrom 0 256) s

/-- Appends an admission record (R74): one of a model that is not resident is removed as it is written, with a completion record. -/
def State.admitRecord (s : State) (die : Nat) (r : AdmRec) : State :=
  let m := fieldOf r.d1 54 6
  if bitOf (modelEnt s die m) 63 then s.onDie die fun d => { d with adm := d.adm ++ [{ r := r }] }
  else
    match s.complete die r.d0 0 0xFF m 2 0 with
    | (true, s) => s
    | (false, s) => s.onDie die fun d => { d with adm := d.adm ++ [{ r := r, pend := some 2 }] }

/-- A store of an admission record (R74), its reserved bits 0 (R7): held while the queue is full. The record is put aside, and for its
issuer the store has performed (log entry 39). -/
def State.admStore (s : State) (die : Nat) (r : AdmRec) : State :=
  let r : AdmRec := { r with d1 := setField (setField r.d1 63 1 0) 53 1 0, d2 := setField r.d2 32 32 0 }
  let d := s.dieAt die
  if d.adm.length < 1024 && d.admHeld.isEmpty then s.admitRecord die r
  else s.onDie die fun d => { d with admHeld := d.admHeld ++ [r] }

/-- A write of RQFIN (R75). -/
def State.rqfin (s : State) (die k : Nat) : State :=
  s.onSlot die k fun r => if r.state == 1 || r.state == 2 then { r with fin := true, state := 3 } else r

/-- A push of the tile scheduler of a die is held (R32). -/
def schedHeld (s : State) (die : Nat) : Bool :=
  [0, 1].any fun c => (s.clusterAt (2 * die + c)).heldR.any fun p => p.2.any fun q => q.path == 3

/-- The frame that holds entry e's copy of rotation n, landed or open. -/
def heldFrame (d : Die) (e n : Nat) : Option Nat :=
  (d.frames.find? fun p => p.2.entry == e && p.2.rot == n && (p.2.st == 2 || p.2.st == 3)).map Prod.fst

/-- The tick of entry e's next round-0 presentation, if it is one that will be made (R63, R429): a home segment at ARRIVE; a
received copy at the later of ARRIVE and its landing, when it landed by LATEST; the tick of one that waits (R32). -/
def due0 (s : State) (die e : Nat) : Option Nat :=
  let d := s.dieAt die
  let t := ttEnt s die e
  let st := entSt d e
  let arr := rotTick d st.next0 t.arrive
  match st.wait with
  | some x => some x
  | none =>
    if t.src = 0 then some arr
    else
      match heldFrame d e st.next0 with
      | some f =>
        let fr := frameAt d f
        if fr.st == 2 && decide (fr.land.toNat ≤ rotTick d st.next0 t.latest) then some (max arr fr.land.toNat) else none
      | none => none
/-- The tick of entry e's next round 1 or miss round (R63, R429). -/
def due1 (s : State) (die e : Nat) : Nat :=
  let d := s.dieAt die
  rotTick d (entSt d e).next1 (ttEnt s die e).latest

/-- Is no presentation of another entry due earlier, or at the same tick with a lower index (R63)? -/
def firstDue (s : State) (die e tick : Nat) : Bool :=
  (upFrom 0 (ttLen (s.dieAt die))).all fun x =>
    let before : Nat → Bool := fun t => decide (t < tick) || (t == tick && decide (x < e))
    x == e ||
    (match due0 s die x with | some t => !before t | none => true) && !before (due1 s die x)

/-- The ring station of a die starts (R58, R59, R70): the first rotation it runs, and place counters 0. -/
def State.stationStart (s : State) (die : Nat) : State :=
  s.onDie die fun d =>
    let base := (d.reg 0x302).toNat
    let x := (s.tickOf die).toNat
    let p := rsPeriod d
    { d with n0 := if x ≤ base then 0 else (x - base + p - 1) / p, ents := [], wc := [] }

/-- The ring station of a die stops (R59): open and landed frames close and are free, retained copies stay, copies on a link to the
die still land. -/
def State.stationStop (s : State) (die : Nat) : State :=
  let s := s.onDie die fun d =>
    { d with frames := d.frames.map fun p => if p.2.st == 4 || p.2.st == 1 then p else (p.1, { p.2 with st := 0 }), ents := [] }
  { s with segs := s.segs.map fun g => if g.dst == die && g.begun then { g with prog := true } else g }

/-- A write of RSCFG (R58, R59). -/
def State.rscfg (s : State) (die : Nat) (v : W64) : State :=
  let d := s.dieAt die
  let old := d.reg 0x301
  let seg := fieldOf v 0 3
  let run := bitOf v 63
  let put : State → State := fun s =>
    s.onDie die fun d => d.setReg 0x301 (setField (BitVec.ofNat 64 seg) 63 1 (if run then 1 else 0))
  if 4 < seg then s
  else if bitOf old 63 then
    if !run && seg == fieldOf old 0 3 then (put s).stationStop die else s
  else if run && rsPeriod d == 0 then s
  else if run then (put s).stationStart die
  else put s

/-- A write of RSTTLEN (R58, R59, R433): ignored while RUN is 1; retained copies and loaded frames are then free. -/
def State.rsttlen (s : State) (die : Nat) (v : W64) : State :=
  if bitOf ((s.dieAt die).reg 0x301) 63 then s
  else
    s.onDie die fun d =>
      { d.setReg 0x304 (BitVec.ofNat 64 (fieldOf v 0 17)) with
        frames := d.frames.map fun p =>
          (p.1, { p.2 with st := if p.2.st = 1 then 1 else 0, loaded := false, ackCw := false, ackCcw := false }) }

/-- Copies n bytes of the address space, with the stored check bits (R433). -/
def State.copyRange (s : State) (src dst n : Nat) : State :=
  let keep := s.mem.filter fun p => !(decide (dst ≤ p.1) && decide (p.1 < dst + n))
  let got := (s.mem.filter fun p => decide (src ≤ p.1) && decide (p.1 < src + n)).map fun p => (p.1 - src + dst, p.2)
  let ecc := (s.ecc.filter fun p => !(decide (dst ≤ p.1) && decide (p.1 < dst + n)))
  let eg := (s.ecc.filter fun p => decide (src ≤ p.1) && decide (p.1 < src + n)).map fun p => (p.1 - src + dst, p.2)
  { s with mem := got.foldl (fun m p => memPut m p.1 p.2) keep, ecc := eg.foldl (fun m p => spSet m p.1 p.2) ecc }

/-- Marks copy k as landed, its acknowledgement on the way. -/
def State.segAck (s : State) (k : Nat) : State := s.onSeg k fun g => { g with ack := true }

/-- A record of kind 0x30 about a copy (R430, R447). -/
def State.lateErr (s : State) (g : Seg) (sub addr : Nat) : State :=
  s.err g.dst noCore 0x30 sub 0 addr g.tag.toNat (bytesOf 8 (s.tickOf g.dst).toNat)

/-- Copy k completes its landing (R429, R430, R458, R59, R431): the second of a landed copy is discarded; so is one that took no frame, one
of a rotation before those that the die runs, and one that comes a rotation late. After a stop the frame is free, its bytes landed. -/
def State.segLand (s : State) (k : Nat) (g : Seg) : State :=
  let die := g.dst
  let d := s.dieAt die
  let run := stationRuns d
  let drop : Nat → State → State := fun f s =>
    s.onFrame die f fun fr => { fr with st := if fr.st = 1 then 0 else fr.st, land := s.tickOf die }
  let base := fun f => seraiPa die (f * segSz d)
  if g.dup then s.segAck k
  else
    match g.land with
    | none => (s.segAck k).lateErr g 4 0
    | some f =>
      let e := (frameAt d f).entry
      let t := ttEnt s die e
      let st := entSt d e
      let l := (s.tickOf die).toNat
      if run && decide (g.rot < d.n0) then (drop f (s.segAck k)).lateErr g 4 0
      else if run && decide (rotTick d (g.rot + 1) t.arrive < l) then (drop f (s.segAck k)).lateErr g 3 (base f)
      else
        let s := (s.copyRange (seraiPa g.src (g.frame * segSz (s.dieAt g.src))) (base f) (segSz d)).segAck k
        let s := s.onFrame die f fun fr => { fr with land := s.tickOf die }
        if !run || g.prog then drop f s
        else
          let s := s.onFrame die f fun fr => { fr with st := 2 }
          if l ≤ rotTick d g.rot t.arrive then s
          else if l ≤ rotTick d g.rot t.latest && decide (st.next1 ≤ g.rot) then s.lateErr g 0 (base f)
          else if l < rotTick d g.rot t.depart then (s.openFr die e f g.tag g.rot).lateErr g 1 (base f)
          else (s.forward die e f t g.rot).lateErr g 2 (base f)

/-- A frame's copy is acknowledged (R64): with none awaited it is free, or landed for a home frame of a station that runs (R59). -/
def State.frameAcked (s : State) (g : Seg) : State :=
  let home := homeFrame s g.src g.frame && stationRuns (s.dieAt g.src)
  s.onFrame g.src g.frame fun fr =>
    if fr.st == 4 && fr.tag == g.tag && fr.rot == g.rot then
      let fr := if g.dir = 1 then { fr with ackCw := false } else { fr with ackCcw := false }
      if fr.ackCw || fr.ackCcw then fr else { fr with st := if home then 2 else 0 }
    else fr

/-- The die that the RPAIR registers of a package bypass, once all of them agree (R434, R435). -/
def pairAgreed (s : State) (pkg : Nat) : Option Nat :=
  let v := fieldOf ((s.dieAt (8 * pkg)).reg 0x405) 0 4
  if 8 ≤ v && (upFrom 0 8).all fun k => fieldOf ((s.dieAt (8 * pkg + k)).reg 0x405) 0 4 == v then some (8 * pkg + v % 8) else none

end Sys2Proof.Machine
end

