-- ==== Sys2Proof/Machine/Flags.lean ====
section
/-!
DEFINITION. Number formats and arithmetic (06_arithmetic.md): exact values, rounding with its flags (R143), sums, products, minimum and
maximum, conversions, stochastic bits, MX blocks, special functions. A flag set is [4] NV, [3] DZ, [2] OF, [1] UF, [0] NX (Table 6-5).
-/
namespace Sys2Proof.Machine

/-- A set of flags in FLG order. -/
abbrev Fl := BitVec 5
def flNX : Fl := 1
def flUF : Fl := 2
def flOF : Fl := 4
def flDZ : Fl := 8
def flNV : Fl := 16

/-- An exact value: NaN, an infinity, or (-1)^neg * m * 2^e; m = 0 is a zero with its sign. -/
inductive Num where
  | nan
  | inf (neg : Bool)
  | fin (neg : Bool) (m : Nat) (e : Int)
  deriving DecidableEq, Repr, Inhabited

/-- A floating-point format (Tables 6-1, 6-2): width, fraction bits, bias, the greatest finite magnitude's encoding, whether it has
infinities, its canonical NaN. -/
structure Fmt where
  w : Nat
  man : Nat
  bias : Nat
  maxBits : Nat
  hasInf : Bool
  nan : Nat
  deriving DecidableEq, Repr

def fmtF32 : Fmt := { w := 32, man := 23, bias := 127, maxBits := 0x7F7FFFFF, hasInf := true, nan := 0x7FC00000 }
def fmtF16 : Fmt := { w := 16, man := 10, bias := 15, maxBits := 0x7BFF, hasInf := true, nan := 0x7E00 }
def fmtBf16 : Fmt := { w := 16, man := 7, bias := 127, maxBits := 0x7F7F, hasInf := true, nan := 0x7FC0 }
def fmtE4m3 : Fmt := { w := 8, man := 3, bias := 7, maxBits := 0x7E, hasInf := false, nan := 0x7F }
def fmtE5m2 : Fmt := { w := 8, man := 2, bias := 15, maxBits := 0x7B, hasInf := true, nan := 0x7E }
/-- E2M1 has no NaN: its nan is not used. -/
def fmtE2m1 : Fmt := { w := 4, man := 1, bias := 1, maxBits := 7, hasInf := false, nan := 0 }

/-- The format of a floating-point element type. -/
def fmtOf : VTy → Fmt
  | .f32 => fmtF32 | .f16 => fmtF16 | .bf16 => fmtBf16 | .e4m3 => fmtE4m3 | .e5m2 => fmtE5m2 | _ => fmtE2m1

/-- The least exponent of a normal number (R136). -/
def Fmt.emin (f : Fmt) : Int := 1 - (f.bias : Int)
/-- value(F, bits) (R136, R138, R157). -/
def Fmt.val (f : Fmt) (b : Nat) : Num :=
  let s := b.testBit (f.w - 1)
  let mag := b % 2 ^ (f.w - 1)
  let ex := mag / 2 ^ f.man
  let fr := mag % 2 ^ f.man
  if f.maxBits < mag then (if f.hasInf && mag == f.maxBits + 1 then .inf s else .nan)
  else if ex = 0 then .fin s fr (f.emin - f.man)
  else .fin s (2 ^ f.man + fr) ((ex : Int) - f.bias - f.man)

/-- The sign bit of a format. -/
def Fmt.sgn (f : Fmt) (neg : Bool) : Nat := if neg then 2 ^ (f.w - 1) else 0
/-- inf(F, s) (R157). -/
def Fmt.infBits (f : Fmt) (neg : Bool) : Nat := f.sgn neg + f.maxBits + 1

/-- k of round_fp (R143): the rounding of the number k0 + r/d (0 <= r < d). -/
def roundK (rm : Rm) (neg : Bool) (k0 r d rb : Nat) : Nat :=
  match rm with
  | .rne => if d < 2 * r || (d == 2 * r && k0 % 2 == 1) then k0 + 1 else k0
  | .rna => if d ≤ 2 * r then k0 + 1 else k0
  | .rtz => k0
  | .rup => if r != 0 && !neg then k0 + 1 else k0
  | .rdn => if r != 0 && neg then k0 + 1 else k0
  | .sr => (k0 * 65536 + r * 65536 / d + rb) / 65536

/-- Does a finite overflow become an infinity (Table 6-4)? -/
def overflowsInf (rm : Rm) (neg : Bool) : Bool :=
  match rm with
  | .rtz => false | .rdn => neg | .rup => !neg | _ => true

/-- m * 2^d as a whole number and a remainder r of a denominator: a fraction too small to matter stands as 2^-20. -/
def scaleInt (m : Nat) (d : Int) : Nat × Nat × Nat :=
  if 0 ≤ d then (m * 2 ^ d.toNat, 0, 1)
  else if (Nat.log2 m : Int) + d < -20 then (0, 1, 2 ^ 20)
  else (m / 2 ^ (-d).toNat, m % 2 ^ (-d).toNat, 2 ^ (-d).toNat)

/-- round_fp (R143): the encoding and the flags. -/
def Fmt.round (f : Fmt) (rm : Rm) (rb : Nat) : Num → Nat × Fl
  | .nan => (f.nan, 0)
  | .inf s => if f.hasInf then (f.infBits s, 0) else (f.nan, flNV)
  | .fin s 0 _ => (f.sgn s, 0)
  | .fin s m ex =>
    let lg : Int := (Nat.log2 m : Int) + ex
    let e := max lg f.emin
    let (k0, r, d) := scaleInt m (ex - (e - f.man))
    let k := roundK rm s k0 r d rb
    let code := ((e + f.bias - 1) * 2 ^ f.man).toNat + k
    let fl : Fl := (if r = 0 then 0 else flNX) ||| (if r != 0 && decide (lg < f.emin) then flUF else 0)
    if f.maxBits < code then
      (f.sgn s + (if f.hasInf && overflowsInf rm s then f.maxBits + 1 else f.maxBits), fl ||| flOF ||| flNX)
    else (f.sgn s + code, fl)

/-- Rounding to nearest even, as arithmetic words use it (R142). -/
def Fmt.rne (f : Fmt) (x : Num) : Nat × Fl := f.round .rne 0 x

/-- A finite value as a signed integer at a common exponent. -/
def signedAt (neg : Bool) (m : Nat) (e lo : Int) : Int :=
  let v : Int := (m * 2 ^ (e - lo).toNat : Nat)
  if neg then -v else v

/-- An exact sum and the flag of infinity minus infinity (R144, R145), for rounding modes other than RDN. -/
def addNum : Num → Num → Num × Fl
  | .nan, _ => (.nan, 0)
  | _, .nan => (.nan, 0)
  | .inf a, .inf b => if a = b then (.inf a, 0) else (.nan, flNV)
  | .inf a, _ => (.inf a, 0)
  | _, .inf b => (.inf b, 0)
  | .fin a m e, .fin b n g =>
    if m = 0 && n = 0 then (.fin (a && b) 0 0, 0)
    else if m = 0 then (.fin b n g, 0)
    else if n = 0 then (.fin a m e, 0)
    else
      let lo := min e g
      let v := signedAt a m e lo + signedAt b n g lo
      if v = 0 then (.fin false 0 0, 0) else (.fin (decide (v < 0)) v.natAbs lo, 0)
/-- The negation of a value. -/
def Num.neg : Num → Num
  | .nan => .nan | .inf s => .inf (!s) | .fin s m e => .fin (!s) m e
/-- An exact product and the flag of zero times infinity (R144, R145). -/
def mulNum : Num → Num → Num × Fl
  | .nan, _ => (.nan, 0)
  | _, .nan => (.nan, 0)
  | .inf a, .inf b => (.inf (a != b), 0)
  | .inf a, .fin b n _ => if n = 0 then (.nan, flNV) else (.inf (a != b), 0)
  | .fin a m _, .inf b => if m = 0 then (.nan, flNV) else (.inf (a != b), 0)
  | .fin a m e, .fin b n g => (.fin (a != b) (m * n) (e + g), 0)
/-- Is a value a NaN? -/
def Num.isNan : Num → Bool
  | .nan => true | _ => false
/-- Is a value infinite? -/
def Num.isInf : Num → Bool
  | .inf _ => true | _ => false
/-- Is a value a zero? -/
def Num.isZero : Num → Bool
  | .fin _ 0 _ => true | _ => false
/-- The sign of a value; that of a NaN is of no account. -/
def Num.sign : Num → Bool
  | .nan => false | .inf s => s | .fin s _ _ => s
/-- An exact multiply-add (R144, R145, R255): a NaN operand raises nothing. -/
def fmaNum (a b c : Num) : Num × Fl :=
  if a.isNan || b.isNan || c.isNan then (.nan, 0)
  else
    let (p, f) := mulNum a b
    if f != 0 then (.nan, flNV) else addNum p c

/-- Rounds an exact result in a format to nearest even, with the flags of both. -/
def Fmt.done (f : Fmt) (x : Num × Fl) : Nat × Fl :=
  let (r, g) := f.rne x.1
  (r, g ||| x.2)
/-- Sum, difference, product and multiply-add of encodings (R253, R255). -/
def Fmt.add (f : Fmt) (a b : Nat) : Nat × Fl := f.done (addNum (f.val a) (f.val b))
def Fmt.sub (f : Fmt) (a b : Nat) : Nat × Fl := f.done (addNum (f.val a) (f.val b).neg)
def Fmt.mul (f : Fmt) (a b : Nat) : Nat × Fl := f.done (mulNum (f.val a) (f.val b))
def Fmt.fma (f : Fmt) (a b c : Nat) : Nat × Fl := f.done (fmaNum (f.val a) (f.val b) (f.val c))
def Fmt.fms (f : Fmt) (a b c : Nat) : Nat × Fl := f.done (fmaNum (f.val a) (f.val b) (f.val c).neg)

/-- Three-way order of finite values, zeros equal: negative, 0 or positive as a - b. -/
def cmpFin (a : Bool) (m : Nat) (e : Int) (b : Bool) (n : Nat) (g : Int) : Int :=
  let lo := min e g
  signedAt a m e lo - signedAt b n g lo
/-- a < b, neither being a NaN; zeros are equal. -/
def ltNum : Num → Num → Bool
  | .inf a, .inf b => a && !b
  | .inf a, _ => a
  | _, .inf b => !b
  | .fin a m e, .fin b n g => decide (cmpFin a m e b n g < 0)
  | _, _ => false
/-- The order of R154: as ltNum, with -0 below +0. -/
def ltSigned (a b : Num) : Bool := if a.isZero && b.isZero then a.sign && !b.sign else ltNum a b
/-- Equality of compares (R259): zeros are equal, a NaN equals nothing. -/
def eqNum (a b : Num) : Bool := !a.isNan && !b.isNan && !ltNum a b && !ltNum b a
/-- Minimum and maximum of encodings (R154). -/
def Fmt.minB (f : Fmt) (a b : Nat) : Nat :=
  if (f.val a).isNan || (f.val b).isNan then f.nan else if ltSigned (f.val b) (f.val a) then b else a
def Fmt.maxB (f : Fmt) (a b : Nat) : Nat :=
  if (f.val a).isNan || (f.val b).isNan then f.nan else if ltSigned (f.val a) (f.val b) then b else a

/-- wrap and sat of R141, as w-bit patterns. -/
def wrapW (w : Nat) (x : Int) : Nat := (x % (2 ^ w : Nat)).toNat
def satW (w : Nat) (sg : Bool) (x : Int) : Nat :=
  let lo : Int := if sg then -(2 ^ (w - 1) : Nat) else 0
  let hi : Int := if sg then (2 ^ (w - 1) : Nat) - 1 else (2 ^ w : Nat) - 1
  wrapW w (min (max x lo) hi)
/-- The integer that an element of an integer type stands for (R140). -/
def intOf (t : VTy) (b : Nat) : Int := if isSigned t then sextNat b (vtyWidth t) else (b % 2 ^ vtyWidth t : Nat)

/-- Rounds a value to an integer type (R150). -/
def toIntTy (t : VTy) (rm : Rm) (rb : Nat) : Num → Nat × Fl
  | .nan => (0, flNV)
  | .inf s => (satW (vtyWidth t) (isSigned t) (if s then -(2 ^ 40) else 2 ^ 40), flNV)
  | .fin _ 0 _ => (0, 0)
  | .fin s m e =>
    let (k0, r, d) := scaleInt m e
    let k := roundK rm s k0 r d rb
    let y : Int := if s then -(k : Int) else k
    let z := satW (vtyWidth t) (isSigned t) y
    (z, (if r = 0 then 0 else flNX) ||| (if intOf t z = y then 0 else flNV))
/-- An integer as an exact value. -/
def numOfInt (x : Int) : Num := .fin (decide (x < 0)) x.natAbs 0
/-- VCVT's conversion of one element (R150, R264). -/
def convert (src dst : VTy) (rm : Rm) (rb : Nat) (b : Nat) : Nat × Fl :=
  if isInt src && isInt dst then (satW (vtyWidth dst) (isSigned dst) (intOf src b), 0)
  else
    let x := if isInt src then numOfInt (intOf src b) else (fmtOf src).val b
    if isInt dst then toIntTy dst rm rb x else (fmtOf dst).round rm rb x

/-- One stage of sr_bits (R148). -/
def srMix (x : W64) (sh : Nat) (mul : W64) : W64 := (x ^^^ (x >>> sh)) * mul
/-- sr_bits (R148, Table 6-6). -/
def srBits (seed ord : W64) (i : Nat) : Nat :=
  let x := seed ^^^ ((ord <<< 12) ||| BitVec.ofNat 64 i)
  let x := srMix x 29 0xB3C51F276A9D04E1
  let x := srMix x 32 0x8F216C4D3E95B7A3
  let x := srMix x 27 0xC76A2E195D83F04B
  let x := srMix x 31 0x9A1DE5B72C6438F9
  let x := x ^^^ (x >>> 32)
  fieldOf x 48 16

/-- floor(log2 |x|) of a finite value that is not 0. -/
def Num.lg : Num → Int
  | .fin _ m e => (Nat.log2 m : Int) + e
  | _ => 0
/-- A value times a power of two. -/
def Num.scale (x : Num) (k : Int) : Num :=
  match x with
  | .fin s m e => .fin s m (e + k)
  | x => x
/-- The scale exponent of qmx (R151) for values without NaN, not all zero. -/
def qmxExp (xs : List Num) : Int :=
  if xs.any Num.isInf then 127
  else
    let big := (xs.filter fun x => !x.isZero).map Num.lg
    let top := big.foldl max (-1000)
    min (max (top - 2) (-127)) 127
/-- qmx (R151): the scale byte, the codes, and NV for a block that holds a NaN. -/
def qmx (xs : List Num) : Nat × List Nat × Fl :=
  if xs.any Num.isNan then (0xFF, xs.map fun _ => 0, flNV)
  else if xs.all Num.isZero then (0, xs.map fun x => fmtE2m1.sgn x.sign, 0)
  else
    let s := qmxExp xs
    ((s + 127).toNat, xs.map fun x => if x.isInf then fmtE2m1.sgn x.sign + 7 else (fmtE2m1.rne (x.scale (-s))).1, 0)
/-- The value of an E8M0 scale byte (R139). -/
def e8m0 (b : Nat) : Num := if b = 255 then .nan else .fin false 1 ((b : Int) - 127)

/-- One level of reduce_tree (R153): adjacent pairs. -/
def pairUp {α : Type} (op : α → α → α) : List α → List α
  | a :: b :: t => op a b :: pairUp op t
  | l => l
/-- reduce_tree (R153) over 2^n leaves. -/
def reduceTree {α : Type} (op : α → α → α) : Nat → List α → List α
  | 0, l => l
  | n + 1, l => reduceTree op n (pairUp op l)

/-- Fraction bits of the fixed-point numbers that the special functions are computed with. -/
def fixP : Nat := 320
/-- ln 2 as the sum of 1/(k 2^k), in fixed point. -/
def ln2Sum : Nat → Nat
  | 0 => 0
  | k + 1 => ln2Sum k + 2 ^ fixP / ((k + 1) * 2 ^ (k + 1))
def ln2Fix : Nat := ln2Sum 330
/-- The sum of the series of e^y from the term t = y^k/k! on, n terms. -/
def expSum (y : Nat) : Nat → Nat → Nat → Nat
  | 0, _, _ => 0
  | n + 1, k, t => t + expSum y n (k + 1) (t * y / 2 ^ fixP / (k + 1))
/-- The sum of z^(2j+1)/(2j+1) from the power p on, n terms. -/
def atanhSum (z2 : Nat) : Nat → Nat → Nat → Nat
  | 0, _, _ => 0
  | n + 1, j, p => p / (2 * j + 1) + atanhSum z2 n (j + 1) (p * z2 / 2 ^ fixP)
/-- Integer square root, bit by bit from bit b - 1 down. -/
def isqrtGo (n : Nat) : Nat → Nat → Nat
  | 0, r => r
  | b + 1, r => let c := r + 2 ^ b; isqrtGo n b (if c * c ≤ n then c else r)
def isqrt (n : Nat) : Nat := isqrtGo n (Nat.log2 n / 2 + 1) 0

/-- 2^x of a finite value that is not 0: exact for an integer, else cut to 320 places with a last place that stands for the rest. -/
def exp2Num (neg : Bool) (m : Nat) (e : Int) : Num :=
  if 0 ≤ e then .fin false 1 (signedAt neg m e 0)
  else
    let d : Nat := 2 ^ (-e).toNat
    let v : Int := if neg then -(m : Int) else m
    let fl := v / (d : Int)
    let fr := (v % (d : Int)).toNat
    if fr = 0 then .fin false 1 fl
    else
      let y := fr * ln2Fix / d
      .fin false (2 * expSum y 80 0 (2 ^ fixP) + 1) (fl - fixP - 1)
/-- log2 of a positive finite value. -/
def log2Num (m : Nat) (e : Int) : Num :=
  let lg := Nat.log2 m
  let E : Int := (lg : Int) + e
  if m = 2 ^ lg then .fin (decide (E < 0)) E.natAbs 0
  else
    let z := (m - 2 ^ lg) * 2 ^ fixP / (m + 2 ^ lg)
    let ln := 2 * atanhSum (z * z / 2 ^ fixP) 120 0 z
    let t : Int := E * 2 ^ fixP + (ln * 2 ^ fixP / ln2Fix : Nat)
    .fin (decide (t < 0)) (2 * t.natAbs + 1) (-(fixP : Int) - 1)
/-- 1/x of a finite value that is not 0. -/
def rcpNum (neg : Bool) (m : Nat) (e : Int) : Num :=
  let p := Nat.log2 m + 64
  .fin neg (2 * (2 ^ p / m) + (if 2 ^ p % m = 0 then 0 else 1)) (-e - p - 1)
/-- 1/sqrt(x) of a positive finite value. -/
def rsqNum (m : Nat) (e : Int) : Num :=
  let (m, e) := if e % 2 = 0 then (m, e) else (2 * m, e - 1)
  let p := Nat.log2 m + 64
  let r := isqrt (2 ^ (2 * p) / m)
  .fin false (2 * r + (if r * r * m = 2 ^ (2 * p) then 0 else 1)) (-(e / 2) - p - 1)
/-- The nearest integer to a/b, ties to even. -/
def nearest (a b : Nat) : Nat := roundK .rne false (a / b) (a % b) b 0
/-- VRCPF's y (R258). -/
def rcpfNum (neg : Bool) (m : Nat) (e : Int) : Num :=
  let lg := Nat.log2 m
  let i := (m - 2 ^ lg) * 4096 / 2 ^ lg
  .fin neg (nearest (65536 * 8192) (8193 + 2 * i)) (-16 - ((lg : Int) + e))
/-- VRSQF's y (R258). -/
def rsqfNum (m : Nat) (e : Int) : Num :=
  let lg := Nat.log2 m
  let E : Int := (lg : Int) + e
  let odd := E % 2 == 1
  let num := if odd then 2 * m else m
  let (j, den) := if odd then (num * 1024 / 2 ^ lg, 2048) else (num * 2048 / 2 ^ lg, 4096)
  let k := (isqrt (4 * 2 ^ 32 * den / (2 * j + 1)) + 1) / 2
  .fin false k (-16 - ((if odd then E - 1 else E) / 2))

/-- The special functions of the unary group: their codes in Table 10-3 are 4 to 9 in this order. -/
inductive SpFn where
  | exp2 | log2 | rcp | rsq | rcpf | rsqf
  deriving DecidableEq, Repr
/-- Of an exact result only OF survives the rounding (R257, R258). -/
def Fmt.onlyOf (f : Fmt) (x : Num) : Nat × Fl := let (r, g) := f.rne x; (r, g &&& flOF)
/-- Is a number +1? -/
def isOne : Num → Bool
  | .fin false m e => decide (e ≤ 0) && m == 2 ^ e.natAbs
  | _ => false
/-- A special function of an encoding (Table 6-8, whose rows go before the sequences of R258: log entry 45; R257). -/
def Fmt.special (f : Fmt) (fn : SpFn) (b : Nat) : Nat × Fl :=
  if (fn == .rcpf || fn == .rsqf) && isOne (f.val b) then f.rne (.fin false 1 0) else
  match fn, f.val b with
  | _, .nan => (f.nan, 0)
  | .exp2, .inf s => (if s then 0 else f.infBits false, 0)
  | .exp2, .fin _ 0 _ => f.rne (.fin false 1 0)
  | .exp2, .fin s m e => f.onlyOf (exp2Num s m e)
  | .log2, .fin _ 0 _ => (f.infBits true, flDZ)
  | .log2, .inf s => if s then (f.nan, flNV) else (f.infBits false, 0)
  | .log2, .fin s m e => if s then (f.nan, flNV) else f.onlyOf (log2Num m e)
  | .rcp, .inf s => (f.sgn s, 0)
  | .rcp, .fin s 0 _ => (f.infBits s, flDZ)
  | .rcp, .fin s m e => f.onlyOf (rcpNum s m e)
  | .rcpf, .inf s => (f.sgn s, 0)
  | .rcpf, .fin s 0 _ => (f.infBits s, flDZ)
  | .rcpf, .fin s m e => f.onlyOf (rcpfNum s m e)
  | .rsq, .inf s => if s then (f.nan, flNV) else (0, 0)
  | .rsq, .fin s 0 _ => (f.infBits s, flDZ)
  | .rsq, .fin s m e => if s then (f.nan, flNV) else f.onlyOf (rsqNum m e)
  | .rsqf, .inf s => if s then (f.nan, flNV) else (0, 0)
  | .rsqf, .fin s 0 _ => (f.infBits s, flDZ)
  | .rsqf, .fin s m e => if s then (f.nan, flNV) else f.onlyOf (rsqfNum m e)

/-- One element of an accumulation into memory (R346): the ETYPE codes 6 f32, 7 bf16, 2 i32, 5 n32 (Table 14-4); floating-point sums
round to nearest even, integer sums wrap. -/
def accElem (etype : Nat) (old e : Nat) : Nat :=
  if etype = 6 then (fmtF32.add old e).1
  else if etype = 7 then (fmtBf16.add old e).1
  else (old + e) % 2 ^ 32

end Sys2Proof.Machine
end

