-- ==== Sys2Proof/Machine/Plans.lean ====
section
/-!
DEFINITION. Collective plans: the record and its checks, triggers, transfers and landings, completion, aborts and holds
(R343-R349, R440-R443), and the reduction windows of the waystations (R342).
-/
namespace Sys2Proof.Machine

/-- Fields of a plan record (Table 14-4), from its 256 bytes. -/
def pNRank (b : List Byte) : Nat := fieldOf (dwAt b 0) 52 12 + 1
def pRank (b : List Byte) : Nat := fieldOf (dwAt b 0) 40 12
def pNLev (b : List Byte) : Nat := fieldOf (dwAt b 0) 38 2 + 1
def pAcc (b : List Byte) : Bool := bitOf (dwAt b 0) 34
def pEtype (b : List Byte) : Nat := fieldOf (dwAt b 0) 30 4
def pId (b : List Byte) : Nat := fieldOf (dwAt b 8) 32 32
def pSrc (b : List Byte) : W64 := dwAt b 16
def pDst (b : List Byte) : W64 := dwAt b 24
def pPeerTab (b : List Byte) : W64 := dwAt b 32
def pLen (b : List Byte) : Nat := fieldOf (dwAt b 40) 0 24
def pExpect (b : List Byte) : Nat := fieldOf (dwAt b 48) 0 56
def pDonea (b : List Byte) : W64 := dwAt b 56
def pRwv (b : List Byte) : Bool := bitOf (dwAt b 192) 63
def pWay (b : List Byte) : Bool := bitOf (dwAt b 192) 62
def pRwpa (b : List Byte) : Nat := fieldOf (dwAt b 192) 0 56
def pRwLines (b : List Byte) : Nat := fieldOf (dwAt b 200) 0 13
def pTag (b : List Byte) : Nat := fieldOf (dwAt b 208) 0 16
def pAccn (b : List Byte) : Nat := fieldOf (dwAt b 208) 16 16
/-- BM1 of level l. -/
def pBm1 (b : List Byte) (l : Nat) : Nat := fieldOf (dwAt b (64 + 32 * l)) 0 16
/-- PA, PB, PC of level l (k = 0, 1, 2), signed. -/
def pCoef (b : List Byte) (l k : Nat) : Int := sextNat (fieldOf (dwAt b (64 + 32 * l)) (16 + 16 * k) 16) 16
/-- SSTR and DSTR of level l. -/
def pSstr (b : List Byte) (l : Nat) : Int := (dwAt b (64 + 32 * l + 8)).toInt
def pDstr (b : List Byte) (l : Nat) : Int := (dwAt b (64 + 32 * l + 16)).toInt

/-- Do the fields of a plan record keep Table 14-4 (R344)? -/
def planOk (s : State) (die : Nat) (b : List Byte) : Bool :=
  decide (pRank b < pNRank b) && decide (fieldOf (dwAt b 0) 35 3 ≤ 5) &&
  (if pAcc b then [6, 7, 2, 5].contains (pEtype b) && pAccn b != 0 else pEtype b == 0) &&
  fieldOf (dwAt b 0) 0 30 == 0 && pId b != 0 && fieldOf (dwAt b 8) 0 32 == 0 && fieldOf (dwAt b 40) 24 40 == 0 &&
  pLen b % 64 == 0 && decide (64 ≤ pLen b) && decide (pLen b ≤ 16777152) && fieldOf (dwAt b 48) 56 8 == 0 &&
  (pSrc b).toNat % 64 == 0 && (pDst b).toNat % 64 == 0 && (pDonea b).toNat % 8 == 0 &&
  ((upFrom 0 4).all fun l =>
    if l < pNLev b then (dwAt b (64 + 32 * l + 8)).toNat % 64 == 0 && (dwAt b (64 + 32 * l + 16)).toNat % 64 == 0 &&
      dwAt b (64 + 32 * l + 24) == 0
    else ((b.drop (64 + 32 * l)).take 32).all fun x => x == 0) &&
  (if pRwv b then fieldOf (dwAt b 192) 56 6 == 0 && pRwpa b % 4096 == 0 && decide (1 ≤ pRwLines b) &&
      decide (pRwLines b ≤ 4096) && paSpace (pRwpa b) == 0 && paOk s die (pRwpa b)
   else pRwLines b == 0 && fieldOf (dwAt b 192) 56 6 == 0) &&
  fieldOf (dwAt b 200) 13 51 == 0 && fieldOf (dwAt b 208) 32 32 == 0 && ((b.drop 216).all fun x => x == 0)

/-- Is a peer entry good (R344): bits [63:56] zero, 64-byte aligned, in tile store of a die of the ring? -/
def peerOk (s : State) (die : Nat) (e : W64) : Bool :=
  fieldOf e 56 8 == 0 && paSpace (fieldOf e 0 56) == 0 && fieldOf e 0 6 == 0 && paOk s die (fieldOf e 0 56)

/-- A plan place of a die, while it is reserved. -/
def Die.plan (d : Die) (place : Nat) : Option Plan := spFind d.plans place
/-- The consignment that a firing of a plan is bound to (R373): of the last binding made before it; 0 for none. -/
def Plan.boundOf (p : Plan) (f : Nat) : Nat :=
  if p.bound != 0 && decide (p.bindAt ≤ f) then p.bound
  else match p.bound0.reverse.find? fun q => decide (q.2 ≤ f) with | some q => q.1 | none => 0
/-- The consignments that firings of a plan from the one in progress on are bound to. -/
def Plan.bounds (p : Plan) : List Nat :=
  ((if p.bound = 0 then [] else [p.bound]) ++ (upFrom p.f (p.bindAt - p.f)).map p.boundOf).eraseDups.filter fun h => h != 0
/-- Changes the plan of a place. -/
def State.onPlan (s : State) (die place : Nat) (f : Plan → Plan) : State :=
  s.onDie die fun d => match d.plan place with | some p => { d with plans := spSet d.plans place (f p) } | none => d
/-- The handle of a plan (R344): the place in [7:0], the generation in [31:8]. -/
def planHandle (place : Nat) (p : Plan) : Nat := p.gen * 256 + place
/-- The plan of a die with a PLANID and a rank (R344). -/
def findPlan (d : Die) (id rank : Nat) : Option (Nat × Plan) :=
  d.plans.find? fun q => pId q.2.bytes == id && pRank q.2.bytes == rank

/-- A trigger write (R349): ignored with 255 firings pending, or when the plan has aborted (R442). -/
def State.trigger (s : State) (die place : Nat) (v : W64) : State :=
  s.onPlan die place fun p =>
    if p.abort.isNone && decide (p.pend.length < 255) then { p with pend := p.pend ++ [v] } else p

/-- Transfers of one firing (R345). -/
def planCount (b : List Byte) : Nat := (upFrom 0 (pNLev b)).foldl (fun n l => n * (pBm1 b l + 1)) 1

/-- The loop indices of transfer t of a firing, level 0 outermost, in lexicographic order (R345). -/
def planIdx (b : List Byte) (t : Nat) : List Nat :=
  ((upFrom 0 (pNLev b)).reverse.foldl (fun (acc : List Nat × Nat) l =>
    (acc.2 % (pBm1 b l + 1) :: acc.1, acc.2 / (pBm1 b l + 1))) ([], t)).1

/-- The peer of a transfer (R345). -/
def planPeer (b : List Byte) (ix : List Nat) : Nat :=
  (((upFrom 0 (pNLev b)).zip ix).foldl (fun (n : Int) p =>
    n + pCoef b p.1 0 * (pRank b : Int) + pCoef b p.1 1 * (p.2 : Int) + pCoef b p.1 2) 0 % (pNRank b : Int)).toNat

/-- The offset that the strides of a transfer add. -/
def planOff (b : List Byte) (str : List Byte → Nat → Int) (ix : List Nat) : Int :=
  ((upFrom 0 (pNLev b)).zip ix).foldl (fun (n : Int) p => n + (p.2 : Int) * str b p.1) 0

/-- The peers that a plan's PEERTAB names, as dies of the ring, for notices (R440, R441): entries that can be read and are good. -/
def planPeers (s : State) (n : Nat) (p : Plan) : List (Nat × Nat) :=
  (upFrom 0 (pNRank p.bytes)).filterMap fun r =>
    match translate s n p.root p.sup { rd := true } (((pPeerTab p.bytes).toNat + 8 * r) % 2 ^ 64) with
    | (.ok pa, _) => let e := s.peek64 pa; if peerOk s (n / 384) e then some (r, paDie (fieldOf e 0 56)) else none
    | _ => none

/-- A notice of a plan to every peer but itself. -/
def State.planNotice (s : State) (die : Nat) (p : Plan) (k : MsgK) (x : Nat) : State :=
  let peers := (planPeers s (cid die p.core) p).filter fun q => q.1 != pRank p.bytes
  { s with msgs := s.msgs ++ peers.map fun q => { kind := k, dst := q.2, src := die, handle := pId p.bytes, x := x, y := q.1 } }

/-- The abort value reaches DONEA (R442), within the bounds of its job (R378): a trigger address there fires the plan that it names (R349); no
other place of device control space holds a word of its own. -/
def State.doneWrite (s : State) (die : Nat) (p : Plan) (pa : Nat) (v : W64) : State :=
  if levelBad s die p.sup pa 8 true then s
  else if paSpace pa = 3 then
    let o := bitsAt pa 0 24
    if 0x14000 ≤ o && o < 0x14800 then s.trigger (paDie pa) ((o - 0x14000) / 8) v else s
  else s.store64 pa v

/-- Slots that a participant has kept are acknowledged (R366, R442). -/
def State.ackAll (s : State) (fs : List FSlot) : State := { s with slots := s.slots ++ fs.map fun f => { f with kind := 3, data := [] } }
/-- The slots of a plan whose bytes have not entered a bond. -/
def Plan.kept (p : Plan) : List FSlot := p.chunks.flatMap fun c => c.slots

/-- A plan aborts at a participant (R441, R442): its firings are discarded, the slots of chunks that are not whole
acknowledged, DONEA takes the cause but at cause 8, the record, the notices, and an abort request to the coordinator of a bound consignment. -/
def State.planAbort (s : State) (die place cause : Nat) : State :=
  match (s.dieAt die).plan place with
  | none => s
  | some p =>
    if p.abort.isSome then s
    else
      let s := (s.onPlan die place fun p => { p with abort := some cause, pend := [], act := none, chunks := [], unack := 0 }).ackAll p.kept
      let s := if cause = 8 then s else
        match translate s (cid die p.core) p.root p.sup { w := true } (pDonea p.bytes).toNat with
        | (.ok pa, s) => s.doneWrite die p pa (BitVec.ofNat 64 (2 ^ 63 + cause))
        | (_, s) => s
      let s := s.err die noCore 0x3B cause 0 (pDonea p.bytes).toNat (planHandle place p) (bytesOf 8 p.f)
      let s := s.planNotice die p .planAbort cause
      { s with msgs := s.msgs ++ p.bounds.map fun h => { kind := .abortReq, dst := h / 2 ^ 21 % 2048, src := die, handle := h, x := 9 } }

/-- A hold of a plan or the freeze of its job begins (R440): the stall timer is suspended from the first such. -/
def Plan.suspend (p : Plan) (t : W64) : Plan := if p.frozen.isNone && p.holds == 0 then { p with holdAt := t } else p
/-- The last such has ended: the timer goes on with the time that it had counted. -/
def Plan.unsuspend (p : Plan) (t : W64) : Plan :=
  if p.frozen.isNone && p.holds == 0 then { p with prog := p.prog + (t - (if p.holdAt < p.prog then p.prog else p.holdAt)) } else p
/-- The walkers of a frozen job stop (R440). -/
def Plan.freezeAt (p : Plan) (t : W64) : Plan := { p with frozen := some t }

/-- Sends hold notices for the plans of a job with a firing pending or in progress, as its core freezes (R440). -/
def State.planHold (s : State) (n job : Nat) : State :=
  let die := n / 384
  each (fun (q : Nat × Plan) s =>
    let p := q.2
    if p.job == job && (!p.pend.isEmpty || p.act.isSome) && p.abort.isNone then
      let s := s.onPlan die q.1 fun p => (p.suspend (s.tickOf die)).freezeAt (s.tickOf die)
      let s := s.err die noCore 0x3A 0 0 (pId p.bytes) (planHandle q.1 p)
      s.planNotice die p .planHold 0
    else s) (s.dieAt die).plans s

/-- The walkers of a resumed job continue, with release notices (R440); a park of one starts anew at G (R417). -/
def State.planRelease (s : State) (n job : Nat) : State :=
  let die := n / 384
  each (fun (q : Nat × Plan) s =>
    let p := q.2
    if p.job == job && p.frozen.isSome then
      let t := s.tickOf die
      let s := s.onPlan die q.1 fun p =>
        ({ p with frozen := none, park := p.park.map fun k => { k with t0 := t, k := 0 } } : Plan).unsuspend t
      let s := s.err die noCore 0x3A 1 0 (pId p.bytes) (planHandle q.1 p)
      s.planNotice die p .planRelease 0
    else s) (s.dieAt die).plans s

/-- The waystation that a plan's window names (R342): 2 * package of RWPA, plus 1 for the west one. -/
def wayOf (b : List Byte) : Nat := 2 * (paDie (pRwpa b) / 8) + (if pWay b then 1 else 0)
/-- Does a window hold an address? -/
def CombWin.has (w : CombWin) (pa : Nat) : Bool := decide (w.pa ≤ pa) && decide (pa < w.pa + 64 * w.lines)
/-- The waystation and window that hold an address (R342): one whose reservation is firm before others. -/
def State.window (s : State) (pa : Nat) : Option (Nat × CombWin) :=
  match s.ways.findSome? fun w => (w.2.wins.find? fun x => x.has pa && x.firm && !x.ending).map fun x => (w.1, x) with
  | some r => some r
  | none => s.ways.findSome? fun w => (w.2.wins.find? fun x => x.has pa).map fun x => (w.1, x)
/-- The lines of a combining table that windows take, each once (R342). -/
def combUsed (ws : List CombWin) : Nat := ((ws.flatMap fun w => (upFrom 0 w.lines).map fun k => w.pa + 64 * k).eraseDups).length

/-- The running value of a window line, read from its home at its first atomic (R342). -/
def State.combLine (s : State) (way pa : Nat) : CombLine :=
  match (s.wayAt way).lines.find? fun l => l.pa == pa / 64 * 64 with
  | some l => l
  | none => { pa := pa / 64 * 64, bytes := s.peek (pa / 64 * 64) 64, dirty := false, first := s.tick }
/-- The same with what the read of the home needs of repair (R424), or its first uncorrectable word (R425). -/
def State.combOpen (s : State) (way pa : Nat) : Except Nat CombLine × State :=
  if (s.wayAt way).lines.any fun l => l.pa == pa / 64 * 64 then (.ok (s.combLine way pa), s)
  else
    match s.readMem (paDie pa) (pa / 64 * 64) 64 with
    | (.error w, s) => (.error w, s)
    | (.ok _, s) => (.ok (s.combLine way pa), s)
/-- Replaces a line of a combining table. -/
def State.setCombLine (s : State) (way : Nat) (l : CombLine) : State :=
  let w := s.wayAt way
  s.setWayAt way { w with lines := l :: w.lines.filter fun x => x.pa != l.pa }

/-- The plans of a job that is discarded abort with cause 3 (R441); places of an ended job are released when its windows have
merged (R342, R349). -/
def State.planLost (s : State) (n job : Nat) : State :=
  let die := n / 384
  each (fun (q : Nat × Plan) s => if q.2.job == job then s.planAbort die q.1 3 else s) (s.dieAt die).plans s

/-- Are all plans of a job at rest: no firing pending or in progress (R349)? -/
def plansIdle (s : State) (n job : Nat) : Bool :=
  (s.dieAt (n / 384)).plans.all fun q => q.2.job != job || (q.2.pend.isEmpty && q.2.act.isNone)

/-- Ends the reservations of a job's plans (R342, R349): places and counters are released; a window ends with its final merged
writes. -/
def State.planFree (s : State) (n job : Nat) : State :=
  let die := n / 384
  let mine := (s.dieAt die).plans.filter fun q => q.2.job == job
  let s := (s.onDie die fun d => { d with plans := d.plans.filter fun q => q.2.job != job }).ackAll (mine.flatMap fun q => q.2.kept)
  each (fun (q : Nat × Plan) s =>
    if pRwv q.2.bytes then
      let w := wayOf q.2.bytes
      let x := s.wayAt w
      s.setWayAt w { x with wins := x.wins.map fun c => if c.die == die && c.place == q.1 then { c with ending := true } else c }
    else s) mine s

end Sys2Proof.Machine
end

