-- ==== Sys2Proof/Machine/Consign.lean ====
section
/-!
DEFINITION. Consignments: handles, places, status objects, the bond, and the steps of the protocol between dies (R359-R375,
R444-R446).
-/
namespace Sys2Proof.Machine

/-- The outcome type of every meaning. -/
abbrev Out := Host.Outcome State Fault Refusal

/-- A step that is not due or not enabled leaves the state as it is (log entry 2). -/
def State.when (s : State) (b : Bool) (t : State) : Out := .next (if b then t else s)

/-- Coordinator of a handle (Table 15-1): CPKG and CDIE, as a die of the ring. -/
def cnDie (h : Nat) : Nat := h / 2 ^ 21 % 2048
/-- The coordinator place of a die that holds a handle. -/
def Die.coord (d : Die) (h : Nat) : Option (Nat × Coord) := d.coords.find? fun p => p.2.handle == h
/-- The destination place of a die that holds a handle. -/
def Die.dest (d : Die) (h : Nat) : Option (Nat × Dest) := d.dests.find? fun p => p.2.handle == h

/-- Writes a status object (R361, Table 15-2). -/
def State.status (s : State) (stata st cause h : Nat) : State :=
  s.store64 stata (BitVec.ofNat 64 (st * 2 ^ 60 + cause * 2 ^ 52 + h))

/-- Sends a notice. -/
def State.send (s : State) (m : Msg) : State := { s with msgs := s.msgs ++ [m] }
/-- Sends an abort request to a handle's coordinator (R445). -/
def State.abortReq (s : State) (die h cause : Nat) : State :=
  s.send { kind := .abortReq, dst := cnDie h, src := die, handle := h, x := cause }

/-- Takes notice k, if it is of a kind. -/
def State.takeMsg (s : State) (k : Nat) (kind : MsgK) : Option (Msg × State) :=
  match s.msgs[k]? with
  | some m => if m.kind == kind then some (m, { s with msgs := dropNth s.msgs k }) else none
  | none => none

/-- The lowest free place of n. -/
def freePlace {α : Type} (t : Sp α) (n : Nat) : Option Nat := (upFrom 0 n).find? fun k => (spFind t k).isNone

/-- The destination place of a handle on a die, taken if it has none (R360, R444): none free sends an abort request, cause 8. -/
def State.destTake (s : State) (die h : Nat) : Option Nat × State :=
  let d := s.dieAt die
  match d.dest h with
  | some (k, _) => (some k, s)
  | none =>
    match freePlace d.dests 128 with
    | some k =>
      let x : Nat → Die → Dest := fun t d =>
        { handle := h, opened := BitVec.ofNat 64 t, orphan := d.expired.contains h, census := d.censused.contains h }
      (some k, s.onDie die fun d => { d with dests := spSet d.dests k (x (s.tickOf die).toNat d) })
    | none => (none, s.abortReq die h 8)

/-- Changes a destination place. -/
def State.onDest (s : State) (die k : Nat) (f : Dest → Dest) : State :=
  s.onDie die fun d => match spFind d.dests k with | some x => { d with dests := spSet d.dests k (f x) } | none => d
/-- Changes a coordinator place. -/
def State.onCoord (s : State) (die k : Nat) (f : Coord → Coord) : State :=
  s.onDie die fun d => match spFind d.coords k with | some x => { d with coords := spSet d.coords k (f x) } | none => d

/-- A destination whose entry has arrived confirms once RECV = EXPECT, and asks for an abort when RECV exceeds it (R371, R444). -/
def State.confirm (s : State) (die k : Nat) : State :=
  match spFind (s.dieAt die).dests k with
  | some x =>
    if x.state == 2 && !x.conf then
      if x.recv = x.expect then
        (s.onDest die k fun x => { x with conf := true }).send
          { kind := .confirm, dst := cnDie x.handle, src := die, handle := x.handle }
      else if x.expect < x.recv then s.abortReq die x.handle 4
      else s
    else s
  | none => s

/-- Bytes that arrive too late are discarded (R446): the first such arrival sends an abort request. Once T is known to be fixed a record
covers those that none has covered: at once where it is known already, so that a later arrival has a record of its own (log entry 48). -/
def State.lateBytes (s : State) (die k n pa cause : Nat) : State :=
  match spFind (s.dieAt die).dests k with
  | some x =>
    let s := if x.late = 0 then s.abortReq die x.handle cause else s
    let s := s.onDest die k fun x => { x with late := x.late + n, lateAddr := if x.late = 0 then pa else x.lateAddr }
    if x.tKnown || x.state == 3 || x.state == 4 then s.err die noCore 0x3D 1 0 pa x.handle (bytesOf 8 n) else s
  | none => s

/-- Pieces of a run within one 64-byte line each: offset in the access, address, length. -/
def linePieces (off pa n : Nat) : Nat → List (Nat × Nat × Nat)
  | 0 => []
  | fuel + 1 =>
    if n = 0 then []
    else
      let k := min n (64 - pa % 64)
      (off, pa, k) :: linePieces (off + k) (pa + k) (n - k) fuel

/-- The byte at offset o of a bond line's data: written under the handle, else what the line began from. -/
def Bond.byte (b : Bond) (o : Nat) : Option Byte := (bondFind b.bytes o).or b.base[o]?
/-- The data of a bond line that tagged stores fill stands at its place in the slice, whose tile then has tag 0 (R365, R95; log entry 46). -/
def State.bondShow (s : State) (die : Nat) (b : Bond) : State :=
  let m := (upFrom 0 64).foldl (fun m o => match b.byte o with | some v => memPut m (bondPa s die b.line + o) v | none => m) s.mem
  ({ s with mem := m } : State).tagTiles (bondPa s die b.line) 64 0
/-- The doublewords of a bond line, as offsets, that are uncorrectable. -/
def bondBad (s : State) (die : Nat) (b : Bond) : List Nat :=
  ((upFrom 0 8).map fun k => 8 * k).filter fun o => s.uncorrectable (bondWord die b.line o)
/-- The marks of a bond line go. -/
def State.bondClean (s : State) (die k : Nat) : State :=
  { s with ecc := s.ecc.filter fun p => p.1 / 64 != bondWord die k 0 / 64 }

/-- The line that bytes under a handle for a home line enter, before them (R367, R373): the one that stands, or a new one. An accumulation
makes one that holds the home line's value; where it meets a line that writes alone have made, the bytes they left out are free. None
when the bond store is full (R444). -/
def bondLineFor (s : State) (die h home : Nat) (acc : Bool) : Option (Bond × State) :=
  let d := s.dieAt die
  match d.bonds.find? fun b => b.handle == h && b.home == home && !b.on with
  | some b =>
    if acc && b.base.isEmpty then
      some ({ b with base := (upFrom 0 8).flatMap fun k => bytesOf 8 (Config.openWord (s.fresh + k)).toNat }, { s with fresh := s.fresh + 8 })
    else some (b, s)
  | none =>
    match (upFrom 0 (d.bonds.length + 1)).find? fun k => !d.bonds.any fun b => b.line == k with
    | some k =>
      if k < fieldOf (d.reg 0x307) 32 9 * 16384 then
        let b : Bond := { line := k, handle := h, home := home, bytes := [], base := if acc then s.peek home 64 else [] }
        some (b, (s.bondClean die k).onDie die fun d => { d with bonds := d.bonds ++ [b] })
      else none
    | none => none

/-- Bytes at an address within one line, put into a list of a line's bytes. -/
def lineBytes (pa : Nat) : List Byte → List (Nat × Byte) → List (Nat × Byte)
  | [], m => m
  | b :: t, m => lineBytes (pa + 1) t (spSet m (pa % 64) b)

/-- An uncorrectable word at an address is met in a bond line (R425): before T is fixed SUB 3, after it SUB 4. -/
def State.bondMet (s : State) (die sub h w : Nat) : State := (s.metBad die).err die noCore 0x12 sub 0 w h
/-- The uncorrectable word of the home line that a new line of an accumulation would take its value from (R373, R425): the consignment aborts
as for a word of the line (the model's choice: log entry 10). -/
def homeBad (s : State) (die h home acc : Nat) : Option Nat :=
  if acc = 0 || (s.dieAt die).bonds.any fun b => b.handle == h && b.home == home && !b.on then none else s.badIn home 64

/-- Bytes within one 64-byte line enter the bond (R367, R373, R425, R444): the state, and whether they have; acc is the element type code
of an accumulation, 0 for a write. -/
def State.bondPut (s : State) (die h pa acc : Nat) (bs : List Byte) : State × Bool :=
  let home := pa / 64 * 64
  if let some w := homeBad s die h home acc then ((s.bondMet die 3 h w).abortReq die h 3, false)
  else match bondLineFor (if acc = 0 then s else s.mend home 64) die h home (acc != 0) with
  | none => (s.abortReq die h 7, false)
  | some (b, s) =>
    let bads := if b.bad then bondBad s die b else []
    if !bads.isEmpty then ((each (fun o s => s.bondMet die 3 h (bondPa s die b.line + o)) bads s).abortReq die h 3, false)
    else
      let s := if s.ecc.isEmpty then s else each (fun o s => s.repair (bondWord die b.line (8 * o))) (upFrom 0 8) s
      let w := if acc = 7 then 2 else 4
      let new := if acc = 0 then bs else (upFrom 0 (bs.length / w)).flatMap fun i =>
        let old := ofBytes ((upFrom 0 w).map fun o => (b.byte ((pa + w * i + o) % 64)).getD 0)
        bytesOf w (accElem acc old (ofBytes ((bs.drop (w * i)).take w)))
      let c := { b with bytes := lineBytes pa new b.bytes }
      let s := s.onDie die fun d =>
        { d with bonds := d.bonds.map fun x =>
          if x.handle == h && x.home == home && !x.on then
            { x with bytes := lineBytes pa new x.bytes, base := if acc = 0 then x.base else c.base }
          else x }
      (s.bondShow die c, true)

/-- A tagged store reaches its destination (R360, R366-R368, R444, R446), and whether its bytes are in the bond: acc is the element type code
of an accumulation, 0 for a write. It counts in RECV once it is in the bond whole. -/
def State.taggedIn (s : State) (die h pa acc : Nat) (bs : List Byte) : State × Bool :=
  let n := bs.length
  match s.destTake die h with
  | (none, s) => (s, false)
  | (some k, s) =>
    match spFind (s.dieAt die).dests k with
    | none => (s, false)
    | some x =>
      if x.state = 5 then (s.err die noCore 0x3D 0 0 pa h (bytesOf 8 n), false)
      else if x.conf || x.state == 3 || x.state == 4 then (s.lateBytes die k n pa 4, false)
      else if x.state == 0 && x.census then (s.lateBytes die k n pa 5, false)
      else
        let r := (linePieces 0 pa n (n / 64 + 2)).foldl (fun (r : State × Bool) q =>
          if r.2 then r.1.bondPut die h q.2.1 acc ((bs.drop q.1).take q.2.2) else r) (s, true)
        (if r.2 then (r.1.onDest die k fun x => { x with recv := x.recv + n }).confirm die k else r.1, r.2)
/-- The same without whether they are. -/
def State.tagged (s : State) (die h pa acc : Nat) (bs : List Byte) : State := (s.taggedIn die h pa acc bs).1

/-- The coordinator fixes T once every destination has confirmed and the census has returned (R371, R444). -/
def State.fixT (s : State) (die k : Nat) : State :=
  match spFind (s.dieAt die).coords k with
  | some c =>
    if c.state == 2 && c.census && c.ents.all fun e => e.conf then
      let nb := fieldOf ((s.dieAt die).reg 0x308) 0 32
      let t := s.tickOf die + BitVec.ofNat 64 (max (if c.lead = 0 then 4000 else c.lead) nb)
      let s := (s.onCoord die k fun c => { c with state := 3, t := t }).status c.stata 3 0 c.handle
      { s with msgs := s.msgs ++ c.ents.map fun e =>
          { kind := .time, dst := paDie e.stata, src := die, handle := c.handle, x := t.toNat } }
    else s
  | none => s

/-- Ends the tagging of every job of a die whose CNCUR holds a handle, as though sealed (R375). -/
def State.endTagging (s : State) (die h : Nat) : State :=
  let f : Job → Job := fun j =>
    if fieldOf j.cncur 0 32 == h then { j with cncur := setField j.cncur 40 1 1 } else j
  { s with cores := s.cores.map fun p =>
      if p.1 / 384 == die then
        (p.1, { p.2 with job := f p.2.job, held := p.2.held.map fun x => { x with job := f x.job } }) else p }

/-- The clockwise neighbour a notice goes to next (R375, R444). -/
def cwNext (s : State) (die : Nat) : Nat := nextDie s die 1
/-- Does a notice round the ring end at a die: at its coordinator, or before it where that is bypassed (R435)? -/
def roundEnds (s : State) (die h : Nat) : Bool :=
  die == cnDie h || ((s.dieAt (cnDie h)).bypassed && adjDie s die 1 == cnDie h)

/-- A destination learns of an abort (R375, R445): its bond lines go, its status object takes ABORTED where its entry has arrived,
the place is held HOLD ns; bound plans abort, tagging ends. A place already SCHEDULED publishes, and plans bound to it go on. -/
def State.destAbort (s : State) (die h cause : Nat) : State :=
  let fixed := match (s.dieAt die).dest h with | some (_, x) => x.state == 3 || x.state == 4 | none => false
  let s := s.endTagging die h
  let s := if fixed then s else
    each (fun (q : Nat × Plan) s => if q.2.bounds.contains h then s.planAbort die q.1 6 else s) (s.dieAt die).plans s
  let (k, s) := match (s.dieAt die).dest h with
    | some (k, _) => (some k, s)
    | none => match freePlace (s.dieAt die).dests 128 with | some _ => s.destTake die h | none => (none, s)
  match k with
  | none => s
  | some k =>
    match spFind (s.dieAt die).dests k with
    | some x =>
      if x.state = 0 || x.state = 2 then
        let s := s.onDie die fun d => { d with bonds := d.bonds.filter fun b => b.handle != h || b.on
                                               btags := d.btags.filter fun t => t.handle != h }
        let hold := s.tickOf die + BitVec.ofNat 64 (fieldOf ((s.dieAt die).reg 0x308) 32 32)
        let s := s.onDest die k fun x => { x with state := 5, hold := hold }
        let s := if x.state = 2 then s.status x.stata 5 cause h else s
        s.err die noCore 0x3C cause 0 x.stata h (bytesOf 8 x.recv ++ bytesOf 8 x.expect)
      else s
    | none => s

/-- The coordinator aborts a handle in state OPEN or MANIFESTED (R375, R445). -/
def State.coordAbort (s : State) (die k cause : Nat) : State :=
  match spFind (s.dieAt die).coords k with
  | some c =>
    if c.state = 1 || c.state = 2 then
      let s := (s.onCoord die k fun c => { c with state := 5 }).status c.stata 5 cause c.handle
      let s := s.err die noCore 0x3C cause 0 c.stata c.handle
      s.send { kind := .abort, dst := cwNext s die, src := die, handle := c.handle, x := cause }
    else s
  | none => s

/-- MANIFEST_ENTRY (R371, R374): a destination receives its entry; a bypassed die does not (R435). -/
def execManifestEntry (s : State) : Out :=
  match s.takeMsg s.here.k .manifest with
  | none => .next s
  | some (m, s) =>
    if (s.dieAt m.dst).bypassed then .next s else
    match s.destTake m.dst m.handle with
    | (none, s) => .next s
    | (some k, s) =>
      match spFind (s.dieAt m.dst).dests k with
      | some x =>
        if x.state = 0 then
          let s := s.onDest m.dst k fun x => { x with state := 2, stata := m.x, expect := m.y, scope := m.z, orphan := false }
          .next ((s.status m.x 2 0 m.handle).confirm m.dst k)
        else .next s
      | none => .next s

/-- CONFIRMATION (R371): a destination's confirmation reaches the coordinator. -/
def execConfirmation (s : State) : Out :=
  match s.takeMsg s.here.k .confirm with
  | none => .next s
  | some (m, s) =>
    match (s.dieAt m.dst).coord m.handle with
    | some (k, c) =>
      if c.state = 2 then
        let s := s.onCoord m.dst k fun c =>
          { c with ents := c.ents.map fun e => if paDie e.stata == m.src then { e with conf := true } else e }
        .next (s.fixT m.dst k)
      else .next s
    | none => .next s

/-- PUBLISH_TIME (R371, R446): T reaches a destination, or answers a die that asked for an abort. -/
def execPublishTime (s : State) : Out :=
  match s.takeMsg s.here.k .time with
  | none => .next s
  | some (m, s) =>
    match (s.dieAt m.dst).dest m.handle with
    | some (k, x) =>
      let s := s.onDest m.dst k fun x => { x with tKnown := true }
      let s := if x.late != 0 && !x.tKnown then s.err m.dst noCore 0x3D 1 0 x.lateAddr m.handle (bytesOf 8 x.late) else s
      if x.state = 2 then
        .next ((s.onDest m.dst k fun x => { x with state := 3, t := BitVec.ofNat 64 m.x }).status x.stata 3 0 m.handle)
      else .next s
    | none => .next s

/-- The publish of a destination place (R372, R373): overlays on, monitors, tile tags, PUBLISHED. -/
def State.publish (s : State) (die k : Nat) (x : Dest) : State :=
  let h := x.handle
  let d := s.dieAt die
  let mine := (d.bonds.filter fun b => b.handle == h && !b.on).map fun b => { b with on := true }
  let rest := d.bonds.filter fun b => b.handle != h || b.on
  let tags := d.btags.filter fun t => t.handle == h
  let s := s.onDie die fun d => { d with bonds := mine ++ rest, btags := d.btags.filter fun t => t.handle != h }
  let s := each (fun (b : Bond) s => (s.tagTiles b.home 64 0).wake b.home 64) mine s
  let s := each (fun (t : BondTag) s => s.tagTiles (512 * t.tile) 512 t.tag) tags s
  let s := s.status x.stata 4 0 h
  if mine.isEmpty then s.onDie die fun d => { d with dests := spDel d.dests k }
  else s.onDest die k fun x => { x with state := 4 }

/-- Is a place's publish due, with no other of the die due in the same ck before it: increasing handle (R372)? -/
def publishDue (s : State) (die k : Nat) (x : Dest) : Bool :=
  let now := s.tickOf die
  x.state == 3 && decide (x.t ≤ now) &&
  (s.dieAt die).dests.all fun p =>
    p.1 == k || p.2.state != 3 || decide (now < p.2.t) || decide (x.handle < p.2.handle)

/-- A coordinator's publish at its local T (R372): PUBLISHED, and its place is free. -/
def State.publishCoord (s : State) (die k : Nat) : State :=
  match spFind (s.dieAt die).coords k with
  | some c =>
    if c.state == 3 && decide (c.t ≤ s.tickOf die) then
      (s.status c.stata 4 0 c.handle).onDie die fun d => { d with coords := spDel d.coords k, cnT := spSet d.cnT c.handle c.t }
    else s
  | none => s
/-- The publishes of a die's destinations that are due, at most n, in order of handle (R372). -/
def State.publishDie (s : State) (die : Nat) : Nat → State
  | 0 => s
  | n + 1 =>
    match (s.dieAt die).dests.find? fun p => publishDue s die p.1 p.2 with
    | some p => (s.publish die p.1 p.2).publishDie die n
    | none => s
/-- Every publish that is due is made (R372, R135). -/
def State.publishAll (s : State) : State :=
  each (fun (p : Nat × Die) s =>
    (each (fun (q : Nat × Coord) s => s.publishCoord p.1 q.1) p.2.coords s).publishDie p.1 p.2.dests.length) s.dies s

/-- PUBLISH (R372): a destination's publish step at its local T, or the coordinator's. Time does not pass by one that is due. -/
def execPublish (s : State) : Out :=
  let die := s.here.die
  if s.here.coord then .next (s.publishCoord die s.here.place)
  else
    match spFind (s.dieAt die).dests s.here.place with
    | some x => s.when (publishDue s die s.here.place x) (s.publish die s.here.place x)
    | none => .next s

/-- BOND_DRAIN (R372, R425): a line of a published consignment is copied into place, with its check bits; the place frees with its
last line. -/
def execBondDrain (s : State) : Out :=
  let die := s.here.die
  match (s.dieAt die).bonds.reverse.find? fun b => b.on && b.line == s.here.k with
  | some b =>
    -- a line drains before a later publish's line over the same home line
    let older := ((s.dieAt die).bonds.reverse.takeWhile fun c => c != b).any fun c => c.on && c.home == b.home
    if older then .next s
    else
      let bads := bondBad s die b
      let s := if s.ecc.isEmpty then s else each (fun o s => s.repair (bondWord die b.line (8 * o))) (upFrom 0 8) s
      let s := s.onDie die fun d => { d with bonds := d.bonds.filter fun c => c != b }
      let s := { s with mem := b.bytes.foldl (fun m p => memPut m (b.home + p.1) p.2) s.mem }
      let s := each (fun o s =>
          let shown := (upFrom o 8).any fun i => (bondFind b.bytes i).isSome
          (if shown then { s with ecc := spSet s.ecc (b.home + o) 3 } else s).bondMet die 4 b.handle (bondPa s die b.line + o)) bads s
      let s := if b.bad then s.bondClean die b.line else s
      if (s.dieAt die).bonds.any fun c => c.handle == b.handle && c.on then .next s
      else .next (s.onDie die fun d => { d with dests := d.dests.filter fun p => !(p.2.handle == b.handle && p.2.state == 4) })
  | none => .next s

/-- CENSUS_NOTICE (R444): the census passes a die, or returns to the coordinator. It does not overtake the die's manifest entry: a
die whose entry is on its way is one that an entry names (log 37). -/
def execCensusNotice (s : State) : Out :=
  match s.takeMsg s.here.k .census with
  | none => .next s
  | some (m, s') =>
    if s.msgs.any fun e => e.kind == .manifest && e.handle == m.handle && e.dst == m.dst then .next s else
    let s := s'
    let die := m.dst
    let s := s.onDie die fun d => { d with censused := m.handle :: d.censused.filter fun h => h != m.handle }
    let s := match (s.dieAt die).dest m.handle with
      | some (k, x) =>
        let s := s.onDest die k fun x => { x with census := true }
        if x.state = 0 then s.abortReq die m.handle 5 else s
      | none => s
    if roundEnds s die m.handle then
      match (s.dieAt die).coord m.handle with
      | some (k, _) => .next ((s.onCoord die k fun c => { c with census := true }).fixT die k)
      | none => .next s
    else .next (s.send { m with dst := cwNext s die, src := die })

/-- ABORT_REQUEST (R375, R445, R446): a request reaches the coordinator, which answers one about late bytes with T, also once its place
is freed. -/
def execAbortRequest (s : State) : Out :=
  match s.takeMsg s.here.k .abortReq with
  | none => .next s
  | some (m, s) =>
    match (s.dieAt m.dst).coord m.handle with
    | some (k, c) =>
      if c.state = 1 || c.state = 2 then .next (s.coordAbort m.dst k m.x)
      else if c.state = 3 && (m.x == 4 || m.x == 5) then
        .next (s.send { kind := .time, dst := m.src, src := m.dst, handle := m.handle, x := c.t.toNat })
      else .next s
    | none =>
      match spFind (s.dieAt m.dst).cnT m.handle with
      | some t => s.when (m.x == 4 || m.x == 5) (s.send { kind := .time, dst := m.src, src := m.dst, handle := m.handle, x := t.toNat })
      | none => .next s

/-- ABORT_NOTICE (R375, R445): the notice reaches a die, and at last the coordinator, whose place is freed. -/
def execAbortNotice (s : State) : Out :=
  match s.takeMsg s.here.k .abort with
  | none => .next s
  | some (m, s) =>
    let s := s.destAbort m.dst m.handle m.x
    if roundEnds s m.dst m.handle then
      .next (s.onDie m.dst fun d => { d with coords := d.coords.filter fun p => !(p.2.handle == m.handle && p.2.state == 5) })
    else .next (s.send { m with dst := cwNext s m.dst, src := m.dst })

/-- CNWAIT_EXPIRY (R444): no last confirmation within CNWAIT ms of CMANI. -/
def execCnwaitExpiry (s : State) : Out :=
  let die := s.here.die
  let w := fieldOf ((s.dieAt die).reg 0x319) 32 16
  match spFind (s.dieAt die).coords s.here.place with
  | some c =>
    s.when (c.state == 2 && decide (c.sentAt.toNat + (if w = 0 then 65536 else w) * 1000000 ≤ (s.tickOf die).toNat))
      (s.coordAbort die s.here.place 6)
  | none => .next s

/-- DESTINATION_HOLD_EXPIRY (R360): an aborted place is freed HOLD ns after its abort. -/
def execDestinationHoldExpiry (s : State) : Out :=
  let die := s.here.die
  match spFind (s.dieAt die).dests s.here.place with
  | some x =>
    s.when (x.state == 5 && decide (x.hold ≤ s.tickOf die))
      (s.onDie die fun d => { d with dests := spDel d.dests s.here.place, expired := x.handle :: d.expired })
  | none => .next s

/-- ORPHAN_PLACE_DISCARD (R446): a place opened after its handle's HOLD expired, without an entry within CNWAIT ms. -/
def execOrphanPlaceDiscard (s : State) : Out :=
  let die := s.here.die
  let w := fieldOf ((s.dieAt die).reg 0x319) 32 16
  match spFind (s.dieAt die).dests s.here.place with
  | some x =>
    let home := (((s.dieAt die).bonds.find? fun b => b.handle == x.handle).map Bond.home).getD 0
    s.when (x.orphan && x.state == 0 &&
        decide (x.opened.toNat + (if w = 0 then 65536 else w) * 1000000 ≤ (s.tickOf die).toNat))
      ((s.onDie die fun d => { d with dests := spDel d.dests s.here.place, bonds := d.bonds.filter fun b => b.handle != x.handle }).err
        die noCore 0x3D 2 0 home x.handle (bytesOf 8 x.recv))
  | none => .next s

end Sys2Proof.Machine
end

