-- ==== Sys2Proof/Machine/Control.lean ====
section
/-!
DEFINITION. Control registers and device control space: levels, reads and writes of every address of Table 16-6 (R384), the
regions and windows of Table 16-7 (R385, R386), and readback (R388, R451, R452). A core is named by its number on the ring.
-/
namespace Sys2Proof.Machine

/-- The level that a CRR of an assigned address needs; none where Table 16-6 shows a dash. -/
def crrLevel (a : Nat) : Option Nat :=
  if a ≤ 0x003 || a == 0x006 || a == 0x007 || a == 0x00A || a == 0x00B || a == 0x00D || a == 0x00E || a == 0x011 ||
      (decide (0x013 ≤ a) && decide (a ≤ 0x017)) then some 0
  else if a ≤ 0x012 || a == 0x100 || decide (0x400 ≤ a) then none
  else some 1
/-- The level that a CRW of an assigned address needs. -/
def crwLevel (a : Nat) : Option Nat :=
  if a ≤ 0x001 || a == 0x004 || a == 0x005 || (decide (0x008 ≤ a) && decide (a ≤ 0x00C)) ||
      (decide (0x00E ≤ a) && decide (a ≤ 0x010)) || a == 0x012 then some 0
  else if a ≤ 0x017 || (decide (0x103 ≤ a) && decide (a ≤ 0x105)) || a == 0x31C || a == 0x31D || decide (0x400 ≤ a) then none
  else some 1
/-- Does a level satisfy what a register needs (R384)? -/
def levelOk (need : Option Nat) (sup : Bool) : Bool :=
  match need with | some 0 => true | some _ => sup | none => false

/-- The bits of a register that a write stores (the RW fields of its table), for registers with no other behaviour. -/
def rwMask (a : Nat) : Nat :=
  match a with
  | 0x000 => 0x71F1F | 0x001 => 3 | 0x101 => 0xFFFFFFFFFFF000 | 0x102 => 0x7F3F | 0x106 => 0xFFFFFFFFFFF000
  | 0x201 => 0xFFFFFFFFFF | 0x200 => 0x3FFFFFFFF | 0x202 => 0xFFFFFFFF | 0x303 => 0xFFFFFFFF
  | 0x305 => 0x7FFFF003FFFFF | 0x306 => 0xFFFF003F | 0x307 => 0x1FF003FFFFF | 0x309 => 0xFFFFFFFF
  | 0x30A => 0xFFFF007FFFFFFFFF | 0x30C => 0xFFFFFFFFFFFFFFFF | 0x30D => 0x3FF00FFFFFF
  | 0x30E => 0xFFFFFFFFFFFFFF | 0x30F => 0xFFFFF0000000 | 0x310 => 0xFFFFFFFFFF | 0x311 => 0xFFFFFFFFFF
  | 0x312 => 0xFFFFFFFFFFFFFF | 0x313 => 0xFFFF0000F0000000 | 0x314 => 0xFFFF
  | 0x315 => 0xFFFFFFFFFFFFFF | 0x316 => 0xFFFFFFFFF000 | 0x317 => 0xFFFFFFFF | 0x318 => 0x1FFFFFFFF
  | 0x31A => 0xFFFFFFFFFFFFFF | 0x31B => 0xFFFFFFFFFF000000
  | 0x400 => 0xFFF007FFFFFFFFFF | 0x401 => 0xFFF007FFFFFFFFFF | 0x402 => 0xFFFF00000003 | 0x403 => 0xFF | 0x404 => 0xFFFF
  | 0x405 => 0xF | 0x406 | 0x407 | 0x408 | 0x409 | 0x40A | 0x40B | 0x40C | 0x40D | 0x40E | 0x40F => 0
  | _ =>
    if 0x110 ≤ a && a ≤ 0x11F then (if a % 2 = 0 then 0xFFFFFFFFFFFFFFFF else 0xFFF000000FFFF)
    else if 0x410 ≤ a && a ≤ 0x42F then (if a % 2 = 0 then 0xFFFFFFFFFFFFFF else 0xC00000FFFFFFFFFF)
    else 0xFFFFFFFFFFFFFFFF
/-- The stored value with its RW fields replaced (R6, R7). -/
def merged (a : Nat) (old v : W64) : W64 :=
  let m : W64 := BitVec.ofNat 64 (rwMask a)
  (v &&& m) ||| (old &&& ~~~ m)

/-- RSCFG as it reads: NM1 and POS from the ring configuration (Table 3-3). -/
def rscfgRead (s : State) (die : Nat) : W64 :=
  let r := (s.dieAt die).reg 0x301
  if s.ringMode die = 0 then r
  else setField (setField r 45 11 (s.ringDies die - 1)) 34 11 (s.ringPos die)

/-- RSROT.N (Table 3-4). -/
def rsrot (s : State) (die : Nat) : W64 :=
  let d := s.dieAt die
  let t := s.tickOf die
  let b := d.reg 0x302
  if stationRuns d && decide (b ≤ t) then BitVec.ofNat 64 ((t - b).toNat / rsPeriod d) else 0

/-- CSTAT of a core (Table 16-5). -/
def cstat (k : Core) : W64 :=
  BitVec.ofNat 64 ((if k.preq then 32 else 0) + (if k.job.sup && k.job.live then 8 else 0) + (if k.engHeld then 4 else 0) +
    (if k.held.isEmpty then 0 else 2) + (if k.job.live then 1 else 0))

/-- The counts of a table of 8-bit counts from entry b on, packed eight to a doubleword (Tables 12-1, 13-3). -/
def packCounts (t : Sp Nat) (b : Nat) : W64 := BitVec.ofNat 64 (ofBytes ((upFrom b 8).map fun k => BitVec.ofNat 8 (spGet 0 t k)))

/-- The value a register reads as, for core n of the ring, without the effect of the read. -/
def ctlRead (s : State) (n a : Nat) : W64 :=
  let k := s.coreAt n
  let j := k.job
  let die := n / 384
  match a with
  | 0x000 => j.fps | 0x001 => j.rxp
  | 0x002 => match j.sq with | e :: _ => e.data.getD 0 | [] => 0
  | 0x003 => packCounts j.sem 0
  | 0x006 => packCounts (s.clusterAt (clid die (n % 384))).ev 0
  | 0x007 => packCounts (s.clusterAt (clid die (n % 384))).ev 8
  | 0x00A => j.raopnd | 0x00B => j.racmp | 0x00D => j.rares | 0x00E => j.cncur
  | 0x011 => rsrot s die
  | 0x013 => j.src.r.d0 | 0x014 => j.src.r.d1 | 0x015 => j.src.r.d2 | 0x016 => j.src.r.d3 | 0x017 => j.src.r.d3
  | 0x103 => cstat k
  | 0x104 => s.tickOf die
  | 0x105 => BitVec.ofNat 64 (die / 8 % 256 * 2 ^ 12 + die % 8 * 2 ^ 9 + n % 384)
  | 0x301 => rscfgRead s die
  | _ =>
    if a < 0x100 then 0
    else if a < 0x200 then k.reg a
    else if a < 0x300 then (s.clusterAt (clid die (n % 384))).reg a
    else (s.dieAt die).reg a

/-- The value of a read and the state after it: a field of access code RC clears (R6, R424, R454). -/
def State.ctlReadRc (s : State) (n a : Nat) : W64 × State :=
  let v := ctlRead s n a
  let die := n / 384
  if a == 0x31C || a == 0x31D then (v, s.onDie die fun d => { d with cr := spSet d.cr a 0 })
  else if a = 0x318 then (v, s.onDie die fun d => { d with cr := spSet d.cr a (setField v 40 24 0) })
  else (v, s)

/-- A request to pre-empt a core (R51, R55, R383): held until the freeze; a core without a job has nothing to freeze. -/
def State.preemptReq (s : State) (n : Nat) : State := s.onCore n fun k => if k.job.live then { k with preq := true } else k

/-- Increments the counts that a mask names; a count at 255 loses it (R287, R310). -/
def bumpCounts (t : Sp Nat) (mask n : Nat) : Sp Nat :=
  (upFrom 0 n).foldl (fun t k => if mask.testBit k then spSet t k (min (spGet 0 t k + 1) 255) else t) t
/-- Is every count that a mask names at least 1? -/
def countsReady (t : Sp Nat) (mask n : Nat) : Bool := (upFrom 0 n).all fun k => !mask.testBit k || decide (1 ≤ spGet 0 t k)
/-- Decrements them. -/
def takeCounts (t : Sp Nat) (mask n : Nat) : Sp Nat :=
  (upFrom 0 n).foldl (fun t k => if mask.testBit k then spSet t k (spGet 0 t k - 1) else t) t

/-- The notification of kind 2 that a freed place takes (R423). -/
def State.mnqDrain (s : State) (die : Nat) : State :=
  let d := s.dieAt die
  if d.mnOvf then
    let (mdx, k1) := d.mnMdx.getD (0, false)
    let acc := if k1 then 0 else s.mdRead die mdx 232 4
    match s.notify die 2 mdx (s.mdPage die mdx) acc with
    | (s, true) => s.onDie die fun d => { d with mnOvf := false, mnMdx := none }
    | (s, false) => s
  else s

/-- Does a coordinator or destination handle name a die of the ring (R364)? -/
def cnDieOk (s : State) (die h : Nat) : Bool := s.ringHas die (cnDie h)

/-- CRW of CNCUR by the job of core n (R364). -/
def State.cnCur (s : State) (n : Nat) (v : W64) : Except (Nat × Nat) State :=
  let h := fieldOf v 0 32
  let c := (s.coreAt n).job.cncur
  if h != 0 && !cnDieOk s (n / 384) h then .error (8, 6)
  else if h != 0 && h == fieldOf c 0 32 && bitOf c 40 then .error (8, 2)
  else .ok (s.onCore n fun k => { k with job := { k.job with cncur := BitVec.ofNat 64 (v.toNat % 2 ^ 40) } })

/-- CRW of CNOPEN by the job of core n (R363): the handle of Table 15-1 takes the die and the next SEQ, never 0. -/
def State.cnOpen (s : State) (n : Nat) (v : W64) : Except (Nat × Nat) State :=
  let die := n / 384
  let pa := fieldOf v 0 56
  if paSpace pa != 0 || paDie pa != die || !paOk s die pa || pa % 8 != 0 then .error (1, 9)
  else
    match freePlace (s.dieAt die).coords 64 with
    | none => .ok (s.store64 pa 0)
    | some k =>
      let sq0 := ((s.dieAt die).cnseq + 1) % 2 ^ 21
      let sq := if sq0 = 0 then 1 else sq0
      let h := die * 2 ^ 21 + sq
      let s := s.onDie die fun d => { d with cnseq := sq, coords := spSet d.coords k { handle := h, state := 1, stata := pa } }
      .ok (s.status pa 1 0 h)

/-- CRW of CNBIND by the job of core n (R373). -/
def State.cnBind (s : State) (n : Nat) (v : W64) : Except (Nat × Nat) State :=
  let die := n / 384
  let ph := fieldOf v 0 32
  let ch := fieldOf v 32 32
  match (s.dieAt die).plan (ph % 256) with
  | some p =>
    if planHandle (ph % 256) p != ph || p.job != (s.coreAt n).job.id then .error (7, 2)
    else if ch = 0 || !cnDieOk s die ch then .error (8, 6)
    else .ok (s.onPlan die (ph % 256) fun p =>
      { p with bound := ch, bindAt := p.f + p.pend.length + if p.act.isSome then 1 else 0
               bound0 := if p.bound = 0 then [] else p.bound0 ++ [(p.bound, p.bindAt)] })
  | none => .error (7, 2)

/-- Is a frame one that WLOAD may load (R433)? -/
def wloadOk (s : State) (die : Nat) (lo hi : W64) : Bool :=
  let d := s.dieAt die
  let f := fieldOf hi 24 8
  let src := fieldOf lo 0 56
  decide (f < frameCount d) && paSpace src == 2 && src % 4096 == 0 &&
  (freeFr s die f || (upFrom 0 (ttLen d)).any fun e =>
    let t := ttEnt s die e
    t.src == 0 && t.frame == f && t.tag / 16 == fieldOf hi 36 28)

/-- The record of kind 0x36 (R433) about a load. -/
def State.wloadErr (s : State) (die sub src f tag : Nat) : State := s.err die noCore 0x36 sub 0 src (tag * 2 ^ 32 + f)

/-- CRW of the upper half of WLOAD (R433): TAG and FRAME take the value (R6); a load starts, or is refused, unless one is in progress. -/
def State.wload (s : State) (die : Nat) (v : W64) : State :=
  let lo := (s.dieAt die).reg 0x31A
  let hi := merged 0x31B 0 v
  let s := s.onDie die fun d => d.setReg 0x31B hi
  let src := fieldOf lo 0 56
  let f := fieldOf hi 24 8
  let tag := fieldOf hi 32 32
  if fieldOf lo 56 2 = 1 then s
  else if wloadOk s die lo hi then
    s.onDie die fun d => { d.setReg 0x31A (setField lo 56 2 1) with wload := some (src, f, tag) }
  else (s.onDie die fun d => d.setReg 0x31A (setField lo 56 2 3)).wloadErr die 1 src f tag

/-- CRW of KVCFG frees every frame (R100). The manual gives no outcome for a value out of its range: it is stored (the model's choice:
log entry 42). -/
def State.kvcfg (s : State) (die : Nat) (v : W64) : State :=
  s.onDie die fun d => { d.setReg 0x306 (merged 0x306 (d.reg 0x306) v) with kvUsed := [] }
/-- CRW of MDCFG frees every metadata place (R100). The manual gives no outcome for a CAP or an OFF beyond R97's limits: the value is stored
as written (the model's choice: log entry 42). -/
def State.mdcfg (s : State) (die : Nat) (v : W64) : State :=
  s.onDie die fun d => { d.setReg 0x305 (merged 0x305 (d.reg 0x305) v) with mdUsed := [] }
/-- CRW of MNQ's upper half, which holds CI (R104, R423). -/
def State.mnqCi (s : State) (die : Nat) (v : W64) : State :=
  (s.onDie die fun d => d.setReg 0x30D (merged 0x30D (d.reg 0x30D) v)).mnqDrain die
/-- CRW of CQCFG (R29): the cluster's queues exist from then on; a level that then has a free place may report exhaustion again (R32). -/
def State.cqcfg (s : State) (cl : Nat) (v : W64) : State :=
  s.onCluster cl fun c =>
    let c := { c with cr := spSet c.cr 0x200 (merged 0x200 (c.reg 0x200) v), cq := true }
    { c with exh := c.exh.filter fun p => c.fullR p.1 }
/-- CRW of THERM clears TMAX (R455). -/
def State.therm (s : State) (die : Nat) : State :=
  s.onDie die fun d => { d with cr := spSet d.cr 0x31E (setField (d.reg 0x31E) 32 16 0) }

/-- A plain die register takes its RW fields. -/
def State.dieReg (s : State) (die a : Nat) (v : W64) : State := s.onDie die fun d => d.setReg a (merged a (d.reg a) v)

/-- A write of a control register, for core n of the ring. The registers whose write raises a trap or waits (CNCUR, CNOPEN, CNBIND,
RAGO, MSWAIT, XEVWAIT) are words of their own; written otherwise than by their C words they take effect where they could at
once and else nothing happens (log entry 25). -/
def State.ctlWrite (s : State) (n a : Nat) (v : W64) : State :=
  let die := n / 384
  let cl := clid die (n % 384)
  let jobPut : (Job → Job) → State := fun f => s.onCore n fun k => { k with job := f k.job }
  let orSame : Except (Nat × Nat) State → State := fun e => match e with | .ok t => t | .error _ => s
  match a with
  | 0x000 => jobPut fun j => { j with fps := merged 0 j.fps v }
  | 0x001 => jobPut fun j => { j with rxp := merged 1 j.rxp v }
  | 0x004 => jobPut fun j => if countsReady j.sem v.toNat 8 then { j with sem := takeCounts j.sem v.toNat 8 } else j
  | 0x005 => jobPut fun j => { j with sem := bumpCounts j.sem v.toNat 8 }
  | 0x008 => s.onCluster cl fun c => if countsReady c.ev v.toNat 16 then { c with ev := takeCounts c.ev v.toNat 16 } else c
  | 0x009 => s.onCluster cl fun c => { c with ev := bumpCounts c.ev v.toNat 16 }
  | 0x00A => jobPut fun j => { j with raopnd := v }
  | 0x00B => jobPut fun j => { j with racmp := v }
  | 0x00E => orSame (s.cnCur n v)
  | 0x00F => orSame (s.cnOpen n v)
  | 0x010 => orSame (s.cnBind n v)
  | 0x012 => s.rqfin die (fieldOf v 0 8)
  | 0x100 => if bitOf v 0 then s.preemptReq n else s
  | 0x200 => s.cqcfg cl v
  | 0x301 => s.rscfg die v
  | 0x302 => if stationRuns (s.dieAt die) then s else s.dieReg die a v
  | 0x303 => if stationRuns (s.dieAt die) then s else s.dieReg die a v
  | 0x304 => s.rsttlen die v
  | 0x305 => s.mdcfg die v
  | 0x306 => s.kvcfg die v
  | 0x307 => if !(s.dieAt die).dests.isEmpty || decide (fieldOf v 32 9 < 16) || decide (256 < fieldOf v 32 9) then s
             else s.dieReg die a v
  | 0x30D => s.mnqCi die v
  | 0x30F => if 10 < fieldOf v 28 4 then s else s.dieReg die a v
  | 0x313 => if 10 < fieldOf v 28 4 then s else s.dieReg die a v
  | 0x316 => if 10 < fieldOf v 28 4 then s else s.dieReg die a v
  | 0x31B => s.wload die v
  | 0x31E => s.therm die
  | _ =>
    if (crwLevel a).isNone || decide (a < 0x100) then s
    else if a < 0x200 then s.onCore n fun k => { k with cr := spSet k.cr a (merged a (k.reg a) v) }
    else if a < 0x300 then s.onCluster cl fun c => { c with cr := spSet c.cr a (merged a (c.reg a) v) }
    else s.dieReg die a v

/-- The register that an offset of a register region of space 3 names (R385): the core of the die and the control address; 0x1000, which
no register has, where a region has none. -/
def regionReg (off : Nat) : Option (Nat × Nat) :=
  let only : Nat → Nat → Nat := fun c top => if c ≤ top then c else 0x1000
  if off < 0x1000 then some (0, only (0x300 + off / 8) 0x42F)
  else if off < 0x2000 then some (0, only (0x200 + (off - 0x1000) / 8) 0x2FF)
  else if off < 0x3000 then some (192, only (0x200 + (off - 0x2000) / 8) 0x2FF)
  else if 0x400000 ≤ off && off < 0x700000 then some ((off - 0x400000) / 0x2000, only ((off - 0x400000) % 0x2000 / 8) 0x1FF)
  else none

/-- Is an offset listed in Table 16-7? -/
def ctlListed (off : Nat) : Bool :=
  off < 0x3000 || (decide (0xF000 ≤ off) && decide (off < 0x13800)) || (decide (0x14000 ≤ off) && decide (off < 0x14800)) ||
  (decide (0x15000 ≤ off) && decide (off < 0x16000)) || (decide (0x20000 ≤ off) && decide (off < 0x24000)) ||
  (decide (0x40000 ≤ off) && decide (off < 0x280200)) || (decide (0x300000 ≤ off) && decide (off < 0x400000)) ||
  (decide (0x400000 ≤ off) && decide (off < 0x700000) && decide ((off - 0x400000) % 0x2000 < 0x1000)) ||
  (decide (0x700000 ≤ off) && decide (off < 0x8C0000))
/-- Is an offset in a window that jobs may reach (R385)? -/
def jobWindow (off : Nat) : Bool :=
  (decide (0x10000 ≤ off) && decide (off < 0x13800)) || (decide (0x14000 ≤ off) && decide (off < 0x14800))

/-- The check of an access at one offset of space 3 (R385), n bytes from off in all: the CODE of the access fault, if it fails. A
register address that Table 16-6 does not assign counts as an offset not listed (log entry 26). -/
def ctlAt (sup : Bool) (off n : Nat) (w : Bool) (o : Nat) : Option Nat :=
  if !ctlListed o then some 2
  else if !sup && !jobWindow o then some 6
  else
    match regionReg o with
    | some (_, a) =>
      if n != 8 || off % 8 != 0 then some 10
      else if !ctlAssigned a then some 2
      else if levelOk (if w then crwLevel a else crrLevel a) sup then none else some 6
    | none => none
/-- The checks of an access of n bytes in space 3 (R385): the CODE of the access fault and how far into the access the failing byte
lies, if one does. What Table 16-7 lists begins and ends at multiples of 512 bytes. -/
def ctlCheck (sup : Bool) (pa n : Nat) (w : Bool) : Option (Nat × Nat) :=
  let off := bitsAt pa 0 24
  let points := 0 :: ((upFrom 1 (n / 512 + 1)).map fun k => off / 512 * 512 + 512 * k - off).filter fun k => decide (k < n)
  points.findSome? fun k => (ctlAt sup off n w (off + k)).map fun c => (c, k)

/-- The error record of an access that a window or a register region does not take (R386, R385). -/
def State.windowErr (s : State) (pa n sub : Nat) (w noPlan : Bool) (bs : List Byte) : State :=
  s.err (paDie pa) noCore 3 sub 0 pa (n % 256 + (if w then 256 else 0) + (if noPlan then 512 else 0)) (bs.take 32)

/-- A record stored to a record window (R30, R386, R411): sup is the mark of R377. -/
def State.recordStore (s : State) (die cl : Nat) (sup : Bool) (r : Rec) : State :=
  match recBroken r with
  | some sub => s.recErr die noCore sub 1 r
  | none => s.pushO (2 * die + cl) { r := r, sup := sup, path := 1 }

/-- An 8-byte write to a trigger window (R386, R349). -/
def State.triggerStore (s : State) (die place : Nat) (v : W64) : State :=
  if ((s.dieAt die).plan place).isSome then s.trigger die place v
  else s.windowErr (ctlPa die (0x14000 + 8 * place)) 8 3 true true (bytesOf 8 v.toNat)

/-- What a write of bytes at an offset stores of them: of an Ethernet reception window V, LEN and BASE, the other bits being reserved
(R357, R7). -/
def windowBits (off : Nat) (bs : List Byte) : List Byte :=
  if 0x15000 ≤ off && off < 0x16000 then
    bs.zipIdx.map fun p =>
      let k := (off + p.2) % 16
      if k = 15 then p.1 &&& 0x80 else if k = 7 || k = 13 || k = 14 then 0 else p.1
  else bs

/-- A write to device control space is served (R385-R388): sup the level of the writer, txl whether it is the companion. -/
def State.ctlStore (s : State) (pa : Nat) (bs : List Byte) (sup txl : Bool) : State :=
  let die := paDie pa
  let off := bitsAt pa 0 24
  let n := bs.length
  if 0x10000 ≤ off && off < 0x12000 then
    if n = 32 && off % 32 = 0 then s.recordStore die ((off - 0x10000) / 0x1000) sup (recOf bs)
    else s.windowErr pa n 0 true false bs
  else if 0x12000 ≤ off && off < 0x13000 then
    if n = 64 && off % 64 = 0 then s.admStore die { d0 := dwAt bs 0, d1 := dwAt bs 8, d2 := dwAt bs 16 }
    else s.windowErr pa n 1 true false bs
  else if 0x13000 ≤ off && off < 0x13800 then s.windowErr pa n 2 true false bs
  else if 0x14000 ≤ off && off < 0x14800 then
    if n = 8 && off % 8 = 0 then s.triggerStore die ((off - 0x14000) / 8) (dwAt bs 0)
    else s.windowErr pa n 3 true false bs
  else
    match regionReg off with
    | some (c, a) =>
      if n = 8 && off % 8 = 0 then
        if ctlAssigned a && levelOk (crwLevel a) sup then s.ctlWrite (cid die c) a (dwAt bs 0) else s
      else if txl then s.windowErr pa n 4 true false bs
      else s
    | none =>
      if !ctlListed off || (decide (0x300000 ≤ off) && decide (off < 0x400000)) || decide (0x700000 ≤ off) then s -- readback (R388)
      else s.store pa (windowBits off bs)

/-- Bytes of a request slot's readback (Table 3-7). -/
def slotBytes (r : ReqSlot) : List Byte :=
  let b : Bool → Nat → Nat := fun x k => if x then 2 ^ k else 0
  padTo 64 (bytesOf 8 (r.state * 2 ^ 62 + r.prio * 2 ^ 59 + r.model * 2 ^ 53 + r.layer * 2 ^ 41 + r.slice * 2 ^ 31 + b r.fin 30 +
      b r.defer 29 + b r.parkp 28 + r.hold % 256 * 2 ^ 16 + r.skips) ++
    bytesOf 8 r.ptbase ++ bytesOf 8 r.reqid.toNat ++ bytesOf 8 (r.steps * 2 ^ 32 + r.budget) ++ bytesOf 8 r.ptick.toNat)

/-- Bytes of serai frame f's readback (Table 23-1): a frame that holds a segment and is not open reads as state 1, be it landed or a
home frame (R64; log entry 22). A home frame that is not presented shows the entry that names it, and the tag that it presents next. -/
def frameBytes (s : State) (die fn : Nat) : List Byte :=
  let d := s.dieAt die
  let f := frameAt d fn
  let f := match f.st, homeEntry s die fn with
    | 0, some e => { f with entry := e, tag := tagIn (ttEnt s die e) (entSt d e).next0 }
    | _, _ => f
  let t := ttEnt s die f.entry
  let st := match f.st with | 0 => (if homeFrame s die fn then 1 else 0) | 1 => 1 | 2 => 1 | 3 => 2 | _ => 3
  padTo 64 (bytesOf 8 (st * 2 ^ 62 + (if f.st == 4 && t.fccw && !f.ackCcw then 2 ^ 61 else 0) +
    (if f.st == 4 && t.fcw && !f.ackCw then 2 ^ 60 else 0) +
    (if f.loaded then 2 ^ 59 else 0) + f.entry * 2 ^ 32 + f.tag.toNat) ++ bytesOf 8 f.land.toNat)

/-- Bytes of a bond directory entry (Table 23-2). -/
def bondBytes (d : Die) (i : Nat) : List Byte :=
  match d.bonds.find? fun b => b.line == i with
  | some b =>
    let place := ((d.dests.find? fun p => p.2.handle == b.handle).map Prod.fst).getD 0
    bytesOf 16 (2 ^ 127 + (if b.on then 2 ^ 126 else 0) + place * 2 ^ 119 + (b.home / 64) * 2 ^ 64 +
      b.bytes.foldl (fun m p => m + 2 ^ p.1) 0)
  | none => bytesOf 16 0

/-- What a readback region shows whose format no chapter gives (Tables 16-8, 16-7), as numbers: head, tail and count of the queues; chains
and chain heads, pages in motion and scraper commands; plan places; consignment places with RECV, EXPECT and T; the translation cache; a core's TLB. -/
def readbackState (s : State) (die off : Nat) : List Nat :=
  let d := s.dieAt die
  let tlb : List TlbEnt → List Nat := fun l => l.flatMap fun t => [t.asid, if t.glob then 1 else 0, t.va, t.bits, t.leaf.toNat]
  if off < 0x318000 then
    let ends : List QRec → List Nat := fun q => [(q.head?.map QRec.place).getD 0, (q.getLast?.map QRec.place).getD 0, q.length]
    [0, d.adm.length - 1, d.adm.length] ++ [0, 1].flatMap fun c => (upFrom 0 8).flatMap fun l => ends ((s.clusterAt (2 * die + c)).lvl l)
  else if off < 0x320000 then
    ([0, 1].flatMap fun c => (s.clusterAt (2 * die + c)).eng.flatMap fun e => e.2.chains.flatMap fun x =>
      [c, e.1, x.1, x.2.head, x.2.pc, x.2.core, x.2.prog, x.2.tiles]) ++
      ([0, 1].flatMap fun c => (s.clusterAt (2 * die + c)).eng.flatMap fun e => e.2.heads.flatMap fun h => [c, e.1, h.pc, h.core]) ++
      d.motion ++ d.scr.flatMap fun c => [c.lo.toNat, c.hi.toNat]
  else if off < 0x324000 then
    d.plans.flatMap fun p => [p.1, p.2.gen, p.2.core, p.2.f, p.2.pend.length, p.2.cnt0, p.2.cnt1, p.2.abort.getD 0]
  else if off < 0x330000 then
    (d.coords.flatMap fun p => [p.1, p.2.handle, p.2.state, p.2.stata, p.2.t.toNat]) ++
      d.dests.flatMap fun p => [p.1, p.2.handle, p.2.state, p.2.stata, p.2.recv, p.2.expect, p.2.t.toNat]
  else if off < 0x400000 then tlb d.tcache
  else tlb (s.coreAt (cid die ((off - 0x800000) / 2048))).tlb

/-- A byte of a readback window (Table 16-8, R388, R451, R452); in a region whose format no chapter gives it is a free value that
depends on what the region shows alone (log entry 22). -/
def readback (s : State) (die off : Nat) : Byte :=
  let d := s.dieAt die
  let at8 : List Byte → Nat → Byte := fun l k => l.getD k 0
  if 0x300000 ≤ off && off < 0x304000 then at8 (slotBytes (s.slotAt die ((off - 0x300000) / 64))) (off % 64)
  else if 0x304000 ≤ off && off < 0x314000 then
    match d.adm[(off - 0x304000) / 64]? with
    | some a => at8 (padTo 64 (bytesOf 8 a.r.d0.toNat ++ bytesOf 8 a.r.d1.toNat ++ bytesOf 8 a.r.d2.toNat)) (off % 64)
    | none => 0
  else if 0x318000 ≤ off && off < 0x31C000 then
    let f := (off - 0x318000) / 64
    if f < frameCount d then at8 (frameBytes s die f) (off % 64) else 0
  else if 0x700000 ≤ off && off < 0x800000 then
    let i := 65536 * fieldOf (d.reg 0x314) 0 16 + (off - 0x700000) / 16
    if i < fieldOf (d.reg 0x307) 32 9 * 16384 then at8 (bondBytes d i) (off % 16) else 0
  else Config.readbackByte (readbackState s die off) off

/-- A read of a register through space 3 (R385): as its CRR, but that the event counters of DCNT stay (R454). -/
def State.regLoad (s : State) (n a : Nat) : W64 × State :=
  if a = 0x31C || a = 0x31D then (ctlRead s n a, s) else s.ctlReadRc n a

/-- A read of n bytes of device control space is served (R385-R388). The tag dispatch table, timetable and model table read as plain memory,
as R385 says; R77 speaks of their readback windows, of which Table 16-8 has none (log entry 39). -/
def State.ctlLoad (s : State) (pa n : Nat) (sup txl : Bool) : List Byte × State :=
  let die := paDie pa
  let off := bitsAt pa 0 24
  let zero := List.replicate n 0
  if 0x10000 ≤ off && off < 0x12000 then (zero, s.windowErr pa n 0 false false [])
  else if 0x12000 ≤ off && off < 0x13000 then (zero, s.windowErr pa n 1 false false [])
  else if 0x13000 ≤ off && off < 0x13800 then
    if n = 8 && off % 8 = 0 then
      match s.alloc die ((off - 0x13000) / 8) with
      | (some (p, i), s) => (bytesOf 8 (2 ^ 63 + i * 2 ^ 43 + p / 8192), s)
      | (none, s) => (zero, s)
    else (zero, s.windowErr pa n 2 false false [])
  else if 0x14000 ≤ off && off < 0x14800 then (zero, s.windowErr pa n 3 false false [])
  else
    match regionReg off with
    | some (c, a) =>
      if n = 8 && off % 8 = 0 then
        if ctlAssigned a && levelOk (crrLevel a) sup then
          let (v, s) := s.regLoad (cid die c) a
          (bytesOf 8 v.toNat, s)
        else (zero, s)
      else if txl then (zero, s.windowErr pa n 4 false false [])
      else (zero, s)
    | none =>
      if !ctlListed off then (zero, s)
      else if (decide (0x300000 ≤ off) && decide (off < 0x400000)) || decide (0x700000 ≤ off) then
        ((upFrom 0 n).map fun k => readback s die (off + k), s)
      else (s.peek pa n, s)

/-- A store of bytes at a physical address is served for an agent of a die, whatever its space. -/
def State.serveStore (s : State) (die pa : Nat) (bs : List Byte) (sup : Bool) : State :=
  if paSpace pa = 3 then s.ctlStore pa bs sup false else s.writeMem die pa bs
/-- A load likewise: the bytes, or the first uncorrectable word. -/
def State.serveLoad (s : State) (die pa n : Nat) (sup : Bool) : Except Nat (List Byte) × State :=
  if paSpace pa = 3 then let (bs, s) := s.ctlLoad pa n sup false; (.ok bs, s) else s.readMem die pa n

/-- A write of a root register (Table 16-1) through the root controller's port (R376, R384): of die `die`, and for TROOT of its
core `core`. MODE 3 and reserved bits are ignored. A bypass ends once the RPAIR of all eight dies names no die, or another (log entry 47). -/
def State.rootWrite (s : State) (die core a : Nat) (v : W64) : State :=
  if a = 0x400 then s.onCore (cid die core) fun k => { k with cr := spSet k.cr a (merged a (k.reg a) v) }
  else if a == 0x402 && fieldOf v 0 2 == 3 then s
  else if a < 0x400 then s.ctlWrite (cid die core) a v
  else
    let s := s.dieReg die a v
    let g := die / 8 * 8
    let pair : Nat → Nat := fun k => fieldOf ((s.dieAt (g + k)).reg 0x405) 0 4
    if a == 0x405 && (upFrom 0 8).all fun k => pair k == pair 0 then
      each (fun k s => s.onDie (g + k) fun d => { d with bypassed := d.bypassed && pair 0 == 8 + k }) (upFrom 0 8) s
    else s

end Sys2Proof.Machine
end

