-- ==== Sys2Proof/Machine/Perform.lean ====
section
/-!
DEFINITION. How an access that a stream has issued performs (R107, R108, R113-R116, R128, R129): what holds it back, what it does
when its bank serves it, and the slots that carry it to another die. Cores are named by their number on the ring.
-/
namespace Sys2Proof.Machine

/-- The physical address that stands for a null element of a gather: its bytes read as zero (R239). -/
def nullPa : Nat := 2 ^ 60
/-- Total length of runs. -/
def runsLen (rs : List (Nat × Nat)) : Nat := rs.foldl (fun n r => n + r.2) 0
/-- Do two lists of runs touch a common location? -/
def runsMeet (a b : List (Nat × Nat)) : Bool :=
  a.any fun x => decide (x.1 < nullPa) && b.any fun y => decide (x.1 < y.1 + y.2) && decide (y.1 < x.1 + x.2)
/-- Pieces of the runs of an access. -/
def accPieces : List (Nat × Nat) → Nat → List (Nat × Nat × Nat)
  | [], _ => []
  | (pa, n) :: t, off => (if nullPa ≤ pa then [] else linePieces off pa n (n / 64 + 2)) ++ accPieces t (off + n)
/-- A list of bytes with some of them replaced, from an offset on. -/
def splice (l : List Byte) (off : Nat) (bs : List Byte) : List Byte := l.take off ++ bs ++ l.drop (off + bs.length)

/-- Is an access a store of its stream (Table 8-1, Table 9-1)? -/
def AccK.isStore : AccK → Bool
  | .st | .nt | .at _ _ _ _ _ | .rel _ _ _ => true
  | _ => false
/-- Does a location lie within a scope of a core (R116, R128)? Companion memory lies within sys alone. -/
def inScope (sc : Scope) (n pa : Nat) : Bool :=
  match sc with
  | .sys => true
  | .ring => paSpace pa != 2
  | .pkg => paSpace pa != 2 && paDie pa / 8 == n / 384 / 8
  | .die => paSpace pa != 2 && paDie pa == n / 384
  | .cluster => paSpace pa == 0 && clid (paDie pa) (paCore pa) == clid (n / 384) (n % 384)
  | .core => paSpace pa == 0 && cid (paDie pa) (paCore pa) == n

/-- Do two cores lie in one unit of a scope (R109, Table 5-1)? -/
def sameUnit (sc : Scope) (n m : Nat) : Bool :=
  match sc with
  | .ring | .sys => true
  | .pkg => n / 384 / 8 == m / 384 / 8
  | .die => n / 384 == m / 384
  | .cluster => clid (n / 384) (n % 384) == clid (m / 384) (m % 384)
  | .core => n == m
/-- Does every agent of the ring lie within a scope of another (R109)? -/
def scopeWide : Scope → Bool
  | .ring | .sys => true
  | _ => false
/-- Is a store of a stream one of sync objects, or of those that may be: a release store or an atomic (R110, R122)? -/
def AccK.isSync : AccK → Bool
  | .rel _ _ _ | .at _ _ _ _ _ => true
  | _ => false

/-- Is a 64-byte line bound to a sync object other than obj (R112)? -/
def boundElsewhere (bs : List Binding) (obj line : Nat) : Bool :=
  let cover := bs.filter fun b => decide (b.lo ≤ line) && decide (line < b.hi)
  !cover.isEmpty && cover.all fun b => b.obj != obj
/-- Does a release of an object release a store (Table 5-2)? all: whatever its binding. -/
def releases (bs : List Binding) (all : Bool) (obj : Nat) (a : Acc) : Bool :=
  all || a.runs.any fun r => (wordsOf r.1 r.2).any fun w => !boundElsewhere bs obj (w / 64 * 64)

/-- OUT of a window (Table 14-2): bits [103:91] of the register pair. -/
def winOut (s : State) (n w : Nat) : Nat := fieldOf ((s.coreAt n).reg (0x111 + 2 * w)) 27 13
/-- Changes OUT of a window (R339). -/
def State.setOut (s : State) (n w v : Nat) : State :=
  s.onCore n fun k => { k with cr := spSet k.cr (0x111 + 2 * w) (setField (k.reg (0x111 + 2 * w)) 27 13 v) }

/-- The number by which a lost line of a C-stream store stands among those of the A-stream's (R438). -/
def ownLost : Nat := 2 ^ 64
/-- Is a fabric slot a posted store of core n that is not acknowledged (R128)? -/
def postedBy (n : Nat) (f : FSlot) : Bool :=
  f.src == n / 384 && f.srcc == n % 384 && match f.who with | .store _ _ => true | _ => false
/-- The number of the A-stream store that a posted slot carries. -/
def FSlot.storeSeq (f : FSlot) : Nat := match f.who with | .store _ q => q | _ => 0
/-- The slots that their sources await: those in flight, and those lost whose notice has not come (R437). -/
def State.awaited (s : State) : List FSlot := s.slots ++ s.msgs.filterMap fun m => if m.kind == .failure then m.slot else none
/-- Is a posted store of core n, numbered below a bound and within a scope, still unacknowledged (R128, R233)? -/
def State.postedWait (s : State) (n seen : Nat) (sc : Scope) : Bool :=
  s.awaited.any fun f => postedBy n f && decide (f.storeSeq < seen) && inScope sc n f.pa
/-- Is any posted store of core n unacknowledged? -/
def State.postedAny (s : State) (n : Nat) : Bool := s.awaited.any (postedBy n)

/-- Is an access a store of the A-stream into a trigger, record or admission window, which releases the stream's earlier stores at system
scope (Table 5-2)? -/
def Acc.window (a : Acc) : Bool :=
  a.strm == .a && (match a.kind with | .st | .nt => true | _ => false) && a.runs.any fun r =>
    paSpace r.1 == 3 && let off := bitsAt r.1 0 24
    (decide (0x10000 ≤ off) && decide (off < 0x13000)) || (decide (0x14000 ≤ off) && decide (off < 0x14800) && r.2 == 8)

/-- Has a store that a narrow release released still to perform, or to be acknowledged (R117, R128)? Its job may run or be frozen. -/
def RelPend.waits (s : State) (r : RelPend) : Bool :=
  let k := s.coreAt r.core
  let mine : Acc → Bool := fun a => r.deps.contains a.id || (a.strm == .a && a.kind.isStore && decide (a.seq < r.seen))
  ((k.job :: k.held.map fun h => h.job).any fun j => j.id == r.job && j.acc.any mine) ||
  s.awaited.any fun f => postedBy r.core f && f.job == r.job && decide (f.storeSeq < r.seen)
/-- Does an acquire of an object by core n at a scope wait (R113, R117): a release of the object whose scope and agent lie with this one's in
one unit has stores that have not performed? An agent outside either scope waits for none: nothing synchronises there. -/
def State.relHeld (s : State) (n : Nat) (sc : Scope) (obj : Nat) : Bool :=
  s.rels.any fun r => r.obj == obj && sameUnit sc n r.core && sameUnit r.scope n r.core && r.waits s
/-- The same of an access, where it is an acquire. -/
def Acc.acqWaits (s : State) (n : Nat) (a : Acc) : Bool :=
  match a.kind with
  | .acq _ sc => a.runs.any fun r => s.relHeld n sc r.1
  | _ => false

/-- Does an access of core n have to wait for earlier ones of its job (R114, R115, R116, R128)? A push into a queue releases the
A-stream's earlier stores at core scope (R113), so it comes after them. REL waits for the release stores and atomics that it released as it
issued, wherever they lie, so that the order of sync operations keeps happens-before (R118, R122), and for the posted stores within its
scope (R128); at ring and system scope for every store that it released, since every agent lies within these; at the others the
acquires that it synchronises with wait for the rest (R117). -/
def State.accBlocked (s : State) (n : Nat) (a : Acc) : Bool :=
  let j := (s.coreAt n).job
  let earlier := j.acc.takeWhile fun b => b.id != a.id
  (earlier.any fun b =>
    b.strm == a.strm &&
    (((a.cls == 0 || b.cls == 0 || a.cls == b.cls) && runsMeet a.runs b.runs) ||
      match b.kind with | .acq _ _ => true | _ => false)) ||
  (a.strm == .c && s.slots.any fun f => f.who == .rago && f.src == n / 384 && f.srcc == n % 384 && runsMeet a.runs [(f.pa, f.len)]) ||
  (a.strm == .a && s.awaited.any fun f => postedBy n f && decide (f.storeSeq < a.seq) &&
    (a.cls == 0 || f.opx == 0 || a.cls == f.opx) && runsMeet a.runs [(f.pa, f.data.length)]) ||
  match a.kind with
  | .rel deps seen sc =>
    (j.acc.any fun b => deps.contains b.id && (scopeWide sc || b.kind.isSync)) ||
    (scopeWide sc && j.acc.any fun b => b.strm == .a && b.kind.isStore && decide (b.seq < seen)) ||
    s.postedWait n seen sc || j.rago
  | .acq _ _ => a.acqWaits s n
  | .st => a.window && ((earlier.any fun b => b.strm == .a && b.kind.isStore) || s.postedWait n a.seq .sys)
  | .nt => a.window && ((earlier.any fun b => b.strm == .a && b.kind.isStore) || s.postedWait n a.seq .sys)
  | .sq => earlier.any fun b => b.strm == .a && b.kind.isStore
  | .dq _ _ => earlier.any fun b => b.strm == .a && b.kind.isStore
  | _ => false

/-- Changes the job of core n. -/
def State.jobOf (s : State) (n : Nat) (f : Job → Job) : State := s.onCore n fun k => { k with job := f k.job }
/-- Removes an access from the list of those that have not performed. -/
def Job.done (j : Job) (id : Nat) : Job := { j with acc := j.acc.filter fun a => a.id != id }
/-- Delivers a result to a register of a stream. -/
def Job.put (j : Job) (st : Strm) (d : Nat) (v : W64) : Job :=
  if d = 0 then j
  else if st == .a then { j with ar := spSet j.ar d v } else { j with s := spSet j.s d v }

/-- What the loss of a job means to others (R441, R444, R380): its plans abort with cause 3 and end, an unsealed consignment of its
CNCUR aborts with cause 2. -/
def State.jobLost (s : State) (n : Nat) (j : Job) : State :=
  let s := (s.planLost n j.id).planFree n j.id
  let h := fieldOf j.cncur 0 32
  if h != 0 && !bitOf j.cncur 40 then s.abortReq (n / 384) h 2 else s

/-- An engine whose job is no more: its queue and progress are gone, z0-z7 stay (R408). -/
def Eng.emptied (e : Eng) : Eng :=
  { e with q := [], prog := 0, step1 := false, clr := false, done := false, flags := 0, halt := none, seen := 0, popw := [] }

/-- The running job of core n ends without a release (R425): an uncorrectable word reached it. -/
def State.discardJob (s : State) (n w : Nat) : State :=
  let j := (s.coreAt n).job
  let s := s.onCore n fun k => { k with job := {}, preq := false, eng := if j.has .m then k.eng.emptied else k.eng }
  (s.jobLost n j).err (n / 384) (n % 384) 0x12 0 0 w 0 (recBytes j.src.r)

/-- The 64-byte pieces of a non-temporal row enter the buffer (R238): a line held for the same address, and the oldest line of a full
buffer, leave first. -/
def State.ntEnter (s : State) (n : Nat) (pa : Nat) (bs : List Byte) : State :=
  let s := s.ntServe (pa / 64 * 64) 64
  let ls := (s.coreAt n).nt
  let s := if ls.length < 16 then s else match ls with | o :: _ => s.ntFlush n fun l => l.pa == o.pa | [] => s
  let l : NtLine := { pa := pa / 64 * 64, bytes := (upFrom (pa % 64) bs.length).zip bs, at0 := s.tickOf (n / 384), seq := s.fresh }
  s.onCore n fun k => { k with nt := k.nt ++ [l] }

/-- Serves the reads of runs, in order: the bytes, or the first uncorrectable word. -/
def State.loadRuns (s : State) (n : Nat) : List (Nat × Nat) → Except Nat (List Byte) × State
  | [] => (.ok [], s)
  | (pa, k) :: t =>
    let (r, s) := if nullPa ≤ pa then (Except.ok (List.replicate k 0), s) else s.serveLoad (n / 384) pa k (s.coreAt n).job.sup
    match r with
    | .error w => (.error w, s)
    | .ok bs =>
      match s.loadRuns n t with
      | (.ok cs, s) => (.ok (bs ++ cs), s)
      | e => e
/-- Serves the writes of runs, in order. -/
def State.storeRuns (s : State) (n : Nat) : List (Nat × Nat) → List Byte → State
  | [], _ => s
  | (pa, k) :: t, bs => (s.serveStore (n / 384) pa (bs.take k) (s.coreAt n).job.sup).storeRuns n t (bs.drop k)

/-- The value that an atomic stores, if it stores one (R201): op the sub-operation of Table 7-7, w its width in bits. -/
def atomicNew (op w old x y : Nat) : Option Nat :=
  let a := sextNat old w
  let b := sextNat x w
  match op with
  | 0 => some ((old + x) % 2 ^ w)
  | 1 => some (x % 2 ^ w)
  | 2 => if old % 2 ^ w = y % 2 ^ w then some (x % 2 ^ w) else none
  | 3 => some (if a ≤ b then old else x % 2 ^ w)
  | 4 => some (if a ≤ b then x % 2 ^ w else old)
  | 5 => some (min old (x % 2 ^ w))
  | _ => some (max old (x % 2 ^ w))
/-- The value that an atomic delivers (R201): zero-extended for ATMINU and ATMAXU, else sign-extended. -/
def atomicOld (op w old : Nat) : W64 := if op = 5 || op = 6 then BitVec.ofNat 64 old else BitVec.ofInt 64 (sextNat old w)

/-- An atomic at its home bank for core n (R126, R201): the value delivered, or the uncorrectable word. -/
def State.atomic (s : State) (die pa op w : Nat) (x y : Nat) : Except Nat Nat × State :=
  match s.readMem die pa (w / 8) with
  | (.error e, s) => (.error e, s)
  | (.ok bs, s) =>
    let old := ofBytes bs
    (.ok old, match atomicNew op w old x y with | some v => s.store pa (bytesOf (w / 8) v) | none => s)

/-- The stream of core n has made a release (R399): the windows that its job's plans reserve are firm. -/
def State.released (s : State) (n : Nat) : State :=
  let id := (s.coreAt n).job.id
  let mine := ((s.dieAt (n / 384)).plans.filter fun q => q.2.job == id && pRwv q.2.bytes).map Prod.fst
  if mine.isEmpty then s
  else
    { s with ways := s.ways.map fun w =>
        (w.1, { w.2 with wins := w.2.wins.map fun x =>
          if x.die == n / 384 && mine.contains x.place then { x with firm := true } else x }) }

/-- Where a remote atomic or an accumulating landing at an address executes (R342, R399): the waystation, or none for the home bank. -/
def State.placeAtomic (s : State) (pa : Nat) : Option Nat × State :=
  match s.window pa with
  | some (w, x) =>
    if x.firm && !x.ending then (some w, s)
    else (if Config.inWaystation s.fresh then some w else none, { s with fresh := s.fresh + 1 })
  | none => (none, s)

/-- Marks a line of a combining table changed now: its first atomic not yet merged keeps its tick (R342). -/
def CombLine.touch (l : CombLine) (t : W64) : CombLine := if l.dirty then l else { l with dirty := true, first := t }

/-- A remote atomic executes at a waystation or at the home bank (R340, R342): the old value, or the uncorrectable word. w in bits. -/
def State.atomicAt (s : State) (pa op w x y : Nat) : Except Nat Nat × State :=
  match s.placeAtomic pa with
  | (some way, s) =>
    match s.combOpen way pa with
    | (.error e, s) => (.error e, s)
    | (.ok l, s) =>
      let old := ofBytes ((l.bytes.drop (pa % 64)).take (w / 8))
      match atomicNew op w old x y with
      | some v =>
        let l := (l.touch s.tick)
        (.ok old, s.setCombLine way { l with bytes := splice l.bytes (pa % 64) (bytesOf (w / 8) v) })
      | none => (.ok old, s.setCombLine way l)
  | (none, s) => s.atomic (paDie pa) pa op w x y

/-- Is a slot bound for a die undeliverable on arrival: another tenant's, or for a bypassed die (R378, R437)? The SUB of its record. -/
def undeliverable (s : State) (src dst : Nat) : Option Nat :=
  if fieldOf ((s.dieAt src).reg 0x403) 0 8 != fieldOf ((s.dieAt dst).reg 0x403) 0 8 then some 0
  else if (s.dieAt dst).bypassed then some 1
  else none

/-- The place of a dq that an access fills takes its data and tag (R236, R95). -/
def fillDq (es : List DqEnt) (id : Nat) (v : VReg) (tag : BitVec 16) : List DqEnt :=
  es.map fun e => if e.id == id then { e with data := some v, tag := tag } else e

/-- The bytes of an access delivered by another die or served here arrive (R199, R232, R234, R244, R204). The tag of a tile is the one it
had when the first of its lines was read, so that a new tag never comes with old bytes (R107). -/
def State.deliver (s : State) (n : Nat) (a : Acc) (bs : List Byte) : State :=
  let v := ofBytes bs
  let w := 8 * bs.length
  match a.kind with
  | .ld d sg =>
    s.jobOf n fun j => (j.done a.id).put a.strm d (if sg then BitVec.ofInt 64 (sextNat v w) else BitVec.ofNat 64 v)
  | .acq d _ => s.jobOf n fun j => (j.done a.id).put a.strm d (BitVec.ofNat 64 v)
  | .dq q tile =>
    let tag := if tile then (match a.runs with | (pa, _) :: _ => a.tag.getD (s.tagAt pa) | [] => 0) else 0
    s.jobOf n fun j => { j.done a.id with dq := spSet j.dq q (fillDq (spGet [] j.dq q) a.id (BitVec.ofNat 4096 v) tag) }
  | .sq =>
    s.jobOf n fun j =>
      { j.done a.id with sq := j.sq.map fun e => if e.id == a.id then { e with data := some (BitVec.ofNat 64 v) } else e }
  | _ => s.jobOf n fun j => j.done a.id

/-- A release store has performed (R113, R117): where stores that it released have not, acquires that it synchronises with wait for them. -/
def State.relDone (s : State) (n : Nat) (a : Acc) : State :=
  match a.kind, a.runs with
  | .rel deps seen sc, (pa, _) :: _ =>
    let r : RelPend := { obj := pa, core := n, job := (s.coreAt n).job.id, deps := deps, seen := seen, scope := sc }
    if scopeWide sc then s else { s with rels := (s.rels ++ [r]).filter fun x => x.waits s }
  | _, _ => s

/-- An access is served whole at this die's banks or by TXL's home agent (R108). -/
def State.perform (s : State) (n : Nat) (a : Acc) : State :=
  let s := if a.window then s.ntFlush n fun _ => true else s
  match a.kind with
  | .st => (s.storeRuns n a.runs a.data).jobOf n fun j => j.done a.id
  | .rel _ _ sc =>
    let s := if sc = .sys then s.ntFlush n fun _ => true else s
    ((s.storeRuns n a.runs a.data).relDone n a).jobOf n fun j => j.done a.id
  | .nt =>
    let s := each (fun (p : Nat × Nat × Nat) s =>
      if paSpace p.2.1 = 2 then s.ntEnter n p.2.1 ((a.data.drop p.1).take p.2.2)
      else s.serveStore (n / 384) p.2.1 ((a.data.drop p.1).take p.2.2) (s.coreAt n).job.sup) (accPieces a.runs 0) s
    s.jobOf n fun j => j.done a.id
  | .at op d w x y =>
    match a.runs with
    | (pa, _) :: _ =>
      match s.atomicAt pa op (8 * w) (x.toNat % 2 ^ (8 * w)) (y.toNat % 2 ^ (8 * w)) with
      | (.error e, s) => s.discardJob n e
      | (.ok old, s) => s.jobOf n fun j => (j.done a.id).put .c d (atomicOld op (8 * w) old)
    | [] => s.jobOf n fun j => j.done a.id
  | .arm =>
    s.jobOf n fun j => { j.done a.id with mon := (a.runs.head?).map Prod.fst, evt := false }
  | _ =>
    match s.loadRuns n a.runs with
    | (.error w, s) => s.discardJob n w
    | (.ok bs, s) => s.deliver n a bs

/-- Is an address served by another die (R334)? -/
def remoteTo (die pa : Nat) : Bool := pa < nullPa && paSpace pa != 2 && paDie pa != die
/-- Does any run of an access lie on another die? -/
def Acc.remote (a : Acc) (die : Nat) : Bool := a.runs.any fun r => remoteTo die r.1

/-- A slot is injected at its source with the next source sequence number (R334, R336). -/
def State.inject (s : State) (f : FSlot) : State :=
  { s with slots := s.slots ++ [{ f with seq := s.fresh % 32768 }], fresh := s.fresh + 1 }

/-- Marks an access as sent, with the bytes it gathers. -/
def State.markSent (s : State) (n : Nat) (a : Acc) (data : List Byte) : State :=
  s.jobOf n fun j => { j with acc := j.acc.map fun b => if b.id == a.id then { b with sent := true, data := data } else b }

/-- Sends the pieces of an access that lie on other dies as slots (R334): read requests of one line, or writes; pieces on this die are
served with the last of them. -/
def State.sendAcc (s : State) (n : Nat) (a : Acc) : State :=
  let die := n / 384
  let far := (accPieces a.runs 0).filter fun p => remoteTo die p.2.1
  let st := a.kind.isStore
  let s := if st then s.ntFlush n (fun _ => a.window || match a.kind with | .rel _ _ .sys => true | _ => false) else s
  let s := s.markSent n a (if st then a.data else List.replicate (runsLen a.runs) 0)
  each (fun (p : Nat × Nat × Nat) s =>
    s.inject { kind := if st then 0 else 1, dst := paDie p.2.1, dstc := paCore p.2.1, src := die, srcc := n % 384,
               job := (s.coreAt n).job.id, opx := 0, pa := p.2.1, len := p.2.2, need := p.1, who := .load a.id,
               data := if st then (a.data.drop p.1).take p.2.2 else [] }) far s

/-- Is a slot one of an access of core n? -/
def FSlot.ofAcc (f : FSlot) (n id : Nat) : Bool := f.src == n / 384 && f.srcc == n % 384 && f.who == .load id
/-- Has core n lost a slot of an access, whose notice has not come (R437)? -/
def State.accLost (s : State) (n id : Nat) : Bool := s.msgs.any fun m => m.kind == .failure && m.slot.any fun f => f.ofAcc n id
/-- Has core n a slot of an access in flight, or a lost one? -/
def State.accSlots (s : State) (n id : Nat) : Bool := (s.slots.any fun f => f.ofAcc n id) || s.accLost n id

/-- A read request of an access is served: the tag of its tile is the one at the first of them (R107). -/
def State.noteTag (s : State) (n id pa : Nat) : State :=
  let t := s.tagAt pa
  let put : Acc → Acc := fun a => if a.id == id && a.tag.isNone then { a with tag := some t } else a
  s.jobOf n fun j => { j with acc := j.acc.map put }

/-- Reads one piece of an access of core n that its own die serves into the bytes of the access. -/
def servePiece (n : Nat) (acc : Except Nat (List Byte) × State) (p : Nat × Nat × Nat) : Except Nat (List Byte) × State :=
  match acc with
  | (.ok d, s) =>
    match s.serveLoad (n / 384) p.2.1 p.2.2 (s.coreAt n).job.sup with
    | (.ok bs, s) => (.ok (splice d p.1 bs), s)
    | (.error w, s) => (.error w, s)
  | e => e

/-- All slots of a sent access have come back: its pieces on this die are served and it completes. -/
def State.finishAcc (s : State) (n : Nat) (a : Acc) : State :=
  let die := n / 384
  let near := (accPieces a.runs 0).filter fun p => !remoteTo die p.2.1
  if a.kind.isStore then
    let s := each (fun (p : Nat × Nat × Nat) s =>
      s.serveStore die p.2.1 ((a.data.drop p.1).take p.2.2) (s.coreAt n).job.sup) near s
    (s.relDone n a).jobOf n fun j => j.done a.id
  else
    match near.foldl (servePiece n) (.ok a.data, s) with
    | (.error w, s) => s.discardJob n w
    | (.ok d, s) => s.deliver n a d

/-- A sent access that has no slot left in flight completes, an acquire after what the release that it reads from released (R117). -/
def State.accBack (s : State) (n id : Nat) : State :=
  match (s.coreAt n).job.acc.find? fun a => a.id == id with
  | some a =>
    if !a.sent || s.accSlots n id then s
    else if a.acqWaits s n then s.jobOf n fun j => { j with acc := j.acc.map fun b => if b.id == id then { b with back := true } else b }
    else s.finishAcc n a
  | none => s

/-- ACCESS_PERFORM (R108): the access numbered k of a core performs, or is sent to the die that serves it. -/
def execAccessPerform (s : State) : Out :=
  let n := s.me
  match s.job.acc.find? fun a => a.id == s.here.k with
  | none => .next s
  | some a =>
    if a.sent then .next (if a.back && !a.acqWaits s n then s.finishAcc n a else s)
    else if s.accBlocked n a then .next s
    else if a.remote s.here.die then .next (s.sendAcc n a)
    else .next (s.perform n a)

/-- COMBINING_BUFFER_EXPIRY (R238): a line that the combining buffer has held for 512 ns is written. Lines may be held for at most that
long: the buffer holds each until then, but for what makes it leave before (the model's choice: log entry 43). -/
def execCombiningBufferExpiry (s : State) : Out :=
  match s.core.nt[s.here.k]? with
  | some l => s.when (decide (l.at0.toNat + 512 ≤ (s.tickOf s.here.die).toNat)) (s.ntFlush s.me fun x => x.pa == l.pa)
  | none => .next s

end Sys2Proof.Machine
end

