-- ==== Sys2Proof/Machine/Ops.lean ====
section
/-!
DEFINITION. Shared operations of the instructions: the end of a job, the freeze of a core and its context (R51-R55, R410), taking a
trap (R379-R381) and the return from one (R382, R406-R409), parks (R415-R419), atomics in reduction windows (R342, R399).
-/
namespace Sys2Proof.Machine

/-- Can what a slot carries not be performed at its destination (R378, R437)? -/
def FSlot.lostTo (s : State) (f : FSlot) : Bool := (undeliverable s f.src f.dst).isSome
/-- Before a freeze a posted line of core n that is on its way lands and is acknowledged (R51, R233): one that has landed is acknowledged,
one that cannot be delivered stays on its way. -/
def State.settlePosted (s : State) (n : Nat) (f : FSlot) : State :=
  match f.who with
  | .store w _ =>
    if f.kind != 3 && f.lostTo s then { s with slots := s.slots ++ [f] }
    else
      let s := if f.kind = 0 then s.serveStore f.dst f.pa f.data (s.coreAt n).job.sup
        else if f.kind = 7 then s.tagged f.dst f.handle f.pa 0 f.data
        else s
      s.setOut n w (winOut s n w - 1)
  | _ => { s with slots := s.slots ++ [f] }
/-- The same of a slot of an access that has been sent to another die: what it still asks for is served, and its answer is in the bytes of
the access; the uncorrectable word if there is one. -/
def settleSlot (n id : Nat) (acc : Except Nat (List Byte) × State) (f : FSlot) : Except Nat (List Byte) × State :=
  match acc with
  | (.ok d, s) =>
    if f.kind = 0 then (.ok d, s.serveStore f.dst f.pa f.data (s.coreAt n).job.sup)
    else if f.kind = 1 then
      match (s.noteTag n id f.pa).serveLoad f.dst f.pa f.len (s.coreAt n).job.sup with
      | (.ok bs, s) => (.ok (splice d f.need bs), s)
      | (.error w, s) => (.error w, s)
    else if f.kind = 2 then (.ok (splice d f.need f.data), s)
    else (.ok d, s)
  | e => e
/-- An access of core n that has issued performs before a freeze (R51): sent slots are served once each (R119, R122). One that a line
that cannot be delivered keeps back stays with the frozen job. -/
def State.settleAcc (s : State) (n : Nat) (a : Acc) : State :=
  let die := n / 384
  let mine : FSlot → Bool := fun f => f.src == die && f.srcc == n % 384 && f.who == .load a.id
  if a.sent then
    let fs := s.slots.filter mine
    if a.acqWaits s n || s.accLost n a.id || fs.any fun f => f.kind < 2 && f.lostTo s then s
    else
      match fs.foldl (settleSlot n a.id) (.ok a.data, { s with slots := s.slots.filter fun f => !mine f }) with
      | (.error w, s) => s.discardJob n w
      | (.ok d, s) =>
        match (s.coreAt n).job.acc.find? fun b => b.id == a.id with
        | some b => s.finishAcc n { b with data := d }
        | none => s
  else if s.accBlocked n a || (accPieces a.runs 0).any fun p => remoteTo die p.2.1 && (undeliverable s die (paDie p.2.1)).isSome then s
  else s.perform n a
/-- A remote atomic of core n in flight performs before a freeze (R51, R340). -/
def State.settleRago (s : State) (n : Nat) : State :=
  let die := n / 384
  let mine : FSlot → Bool := fun f => f.src == die && f.srcc == n % 384 && f.who == .rago
  match s.slots.find? mine with
  | some f =>
    let drop : State → State := fun s => { s with slots := s.slots.filter fun g => !mine g }
    let give : State → Nat → State := fun s v =>
      (drop s).jobOf n fun j => { j with rago := false, rares := atomicOld (f.opx / 2) (8 * f.len) v }
    if f.kind = 5 then give s (ofBytes f.data)
    else if f.lostTo s then s
    else
      match s.atomicAt f.pa (f.opx / 2) (8 * f.len) (ofBytes (f.data.take 8) % 2 ^ (8 * f.len))
          (ofBytes (f.data.drop 8) % 2 ^ (8 * f.len)) with
      | (.ok v, s) => give s v
      | (.error w, s) => (drop s).discardJob n w
  | none => s
/-- Before a freeze the accesses of core n that issued perform (R51): its remote atomic, its posted lines in the order in which they were
sent, and the others in issue order; then the combining buffer is written (R108). What a line that cannot be delivered keeps back, and an
acquire that waits for another job's stores (R117), stays with the frozen job (log entry 28). -/
def State.settle (s : State) (n : Nat) : State :=
  let s := s.settleRago n
  let s := (s.slots.filter (postedBy n)).foldl (fun s f => s.settlePosted n f) { s with slots := s.slots.filter fun f => !postedBy n f }
  let s := (s.coreAt n).job.acc.foldl (fun s a => s.settleAcc n a) s
  s.ntFlush n fun _ => true

/-- n bytes from an address become zero but for some parts (offset, bytes): a device write of the whole range for a die, which has no effect on
places that do not exist (R80). -/
def State.storeArea (s : State) (die a n : Nat) (parts : List (Nat × List Byte)) : State :=
  let n := okLen s die a n
  let s := s.ntServe a n
  let s := if (s.dieAt (paDie a)).bonds.isEmpty then
      { s with mem := s.mem.filter fun p => !(decide (a ≤ p.1) && decide (p.1 < a + n)) }
    else s.pokeRaw a (List.replicate n 0)
  let s := each (fun (p : Nat × List Byte) s => s.pokeRaw (a + p.1) (p.2.take (n - p.1))) parts s
  ((s.tagTiles a n 0).wake a n).eccFresh a n

/-- What a pending write-back lands, as a place of the context area holds it (R52, Table 2-9): its v-registers, then its predicate registers,
then its queue entry, its expected tag and its count (log entry 6). -/
def Landing.bytes (l : Landing) : List Byte :=
  l.vs.flatMap (fun p => bytesOf 512 p.2.1.toNat) ++ l.qs.flatMap (fun p => bytesOf 128 p.2.1.toNat) ++
  (match l.oq with | some (_, v) => bytesOf 512 v.toNat | none => []) ++
  (match l.xt with | some (_, v) => bytesOf 2 v.toNat | none => []) ++
  match l.kc with | some (_, v) => bytesOf 4 v.toNat | none => []

/-- The bytes of a context area that the device writes at a freeze (R52, Tables 2-9 and 2-10), and of its trap record (Table 16-3,
Table 19-2). Rows of the header whose inner layout the manual does not give hold bytes that nothing fixes. The manual does not say what these
hold: the trap record of a context that a pre-emption froze, and the places of a queue or of a pending write-back that hold no entry; the
model writes zeros there, and pending write-backs take the places in issue order (the model's choices: log entry 6). -/
def contextParts (s : State) (n : Nat) (j : Job) (t : Option TrapInfo) : List (Nat × List Byte) :=
  let open_ : Nat → Nat → Nat × List Byte := fun o len => (o, (upFrom o len).map fun k => Config.contextByte s.fresh k)
  let w64s : Sp W64 → Nat → List (Nat × List Byte) := fun m o => m.map fun p => (o + 8 * p.1, bytesOf 8 p.2.toNat)
  let vq : Sp (List VReg) → Nat → List (Nat × List Byte) := fun m o =>
    m.flatMap fun p => ((upFrom 0 p.2.length).zip p.2).map fun e => (o + 8192 * p.1 + 512 * e.1, bytesOf 512 e.2.toNat)
  [open_ 0 256] ++ w64s j.s 0x100 ++ w64s j.ar 0x200 ++
  ((upFrom 0 j.sq.length).zip j.sq).map (fun e => (0x280 + 8 * e.1, bytesOf 8 ((e.2.data).getD 0).toNat)) ++
  j.desc.map (fun p => (0x300 + 16 * p.1, bytesOf 8 p.2.1.toNat ++ bytesOf 8 p.2.2.toNat)) ++
  [open_ 0x380 128, open_ 0x400 512, open_ 0x600 256, open_ 0x700 256, open_ 0x800 128, open_ 0xE00 256] ++
  [(0xF80, bytesOf 8 ((s.coreAt n).reg 0x106).toNat)] ++
  j.vr.map (fun p => (0x1000 + 512 * p.1, bytesOf 512 p.2.toNat)) ++
  [(0x9000, List.replicate 128 0xFF)] ++ (j.q.filter fun p => p.1 != 0).map (fun p => (0x9000 + 128 * p.1, bytesOf 128 p.2.toNat)) ++
  ((upFrom 0 j.land.length).zip j.land).map (fun p => (0x9400 + 2048 * p.1, p.2.bytes)) ++
  vq (j.dq.map fun p => (p.1, p.2.map fun e => e.data.getD 0)) 0xE400 ++ vq j.oq 0x1E400 ++
  match t with
  | some t =>
    [(0xF00, bytesOf 4 (t.cause * 2 ^ 20) ++ bytesOf 4 0 ++ bytesOf 8 t.pc ++ bytesOf 8 t.addr ++
      bytesOf 8 (s.tickOf (n / 384)).toNat ++ bytesOf 8 j.ord.toNat ++ bytesOf 4 t.word ++ bytesOf 4 t.d44 ++
      bytesOf 8 t.d48 ++ bytesOf 8 t.d56)]
  | none => []

/-- A stream at a freeze (R51, R403): a word that waits has not issued. -/
def Blk.unwait (b : Blk) : Blk := { b with wait := none }

/-- Semaphores that a mask names carry what the A-stream had stored before their signal (R118, R233). -/
def raiseSeen (t : Sp Nat) (mask seen : Nat) : Sp Nat :=
  (upFrom 0 8).foldl (fun t k => if mask.testBit k then spSet t k (max (spGet 0 t k) seen) else t) t
/-- A command that has executed completes (R285 step 4, R146, R286): its flags reach FPS.MFLG, its signals rise, it leaves the queue. -/
def Core.engComplete (k : Core) : Core :=
  if k.eng.done && k.job.live && k.job.has .m then
    match k.eng.q with
    | m :: t =>
      { k with eng := { k.eng with q := t, prog := 0, step1 := false, clr := false, done := false, flags := 0 },
               job := { k.job with sem := bumpCounts k.job.sem (fieldOf m.hi 40 8) 8,
                                   mseen := raiseSeen k.job.mseen (fieldOf m.hi 40 8) k.eng.seen,
                                   fps := k.job.fps ||| ((k.eng.flags.setWidth 64) <<< 16) } }
    | [] => k
  else k

/-- Is the engine of a core executing a command that runs to completion before a freeze, and that waits in step 2 for a page (R290, R299)?
Such are the attention commands; what the other commands of that kind do, they do in one step. -/
def Core.engBusy (k : Core) : Bool :=
  k.job.live && k.job.has .m && k.eng.step1 && !k.eng.done && k.eng.halt.isNone &&
  match k.eng.q with
  | m :: _ => m.desc.isNone && [0x11, 0x13, 0x14].contains (fieldOf m.hi 56 8)
  | [] => false

/-- A landing is applied (R170, R172): registers under their masks, predicates but q0, xt, kc, an oq entry, the flags. -/
def Job.land1 (j : Job) (l : Landing) : Job :=
  let vr := l.vs.foldl (fun m p => spSet m p.1 ((spGet 0 m p.1 &&& ~~~ p.2.2) ||| (p.2.1 &&& p.2.2))) j.vr
  let q := l.qs.foldl (fun m p => if p.1 = 0 then m else spSet m p.1 ((spGet 0 m p.1 &&& ~~~ p.2.2) ||| (p.2.1 &&& p.2.2))) j.q
  { j with vr := vr, q := q
           xt := match l.xt with | some (k, v) => spSet j.xt k v | none => j.xt
           kc := match l.kc with | some (k, v) => spSet j.kc k v | none => j.kc
           oq := match l.oq with | some (k, v) => spSet j.oq k (spGet [] j.oq k ++ [v]) | none => j.oq
           fps := j.fps ||| l.flags.setWidth 64 }
/-- TEN of FPS (Table 6-5). -/
def tenOf (fps : W64) : BitVec 5 := BitVec.ofNat 5 (fieldOf fps 8 5)
/-- The arithmetic trap of landings that came in one ck, if an enabled flag is among them (R404). Where several of them set one, which V word
the trap names and whose flags it shows the manual does not say: the first in issue order, with the flags of all (the model's choice: log entry
51). -/
def arithOf (due : List Landing) (ten : BitVec 5) : Option TrapInfo :=
  (due.find? fun l => (l.flags &&& ten) != 0).map fun l =>
    let all := due.foldl (fun f l => f ||| l.flags) (0 : BitVec 5)
    { cls := 5, code := (all &&& ten).toNat, strm := .v, pc := 0, d44 := all.toNat, d48 := l.pc, d56 := l.ord.toNat }
/-- The ck in which the V-stream's next word is due begins (R172, R173): every pending landing comes one ck nearer, those due are applied in
issue order, and an enabled flag among them leaves the arithmetic trap to be raised. A ck that has begun does not begin again: so it is
at G, where a landing saved with count k comes at G + k (R407). -/
def Job.beginCk (j : Job) : Job :=
  if j.ckOn then j
  else
    let ls := j.land.map fun l => { l with rem := l.rem - 1 }
    let due := ls.filter fun l => l.rem == 0
    let j := due.foldl Job.land1 { j with land := ls.filter fun l => l.rem != 0, ckOn := true }
    { j with arith := arithOf due (tenOf j.fps) }

/-- The job of core n freezes and its context is written at CTXP (R51-R53, R379, R383, R440); a context that an earlier freeze left
there is lost (R410), and with it what the engine holds of it (R408). Landings due at F apply before (R407, R410). The area but for z0-z7
and the matrix queue area is written; at an address that does not exist the writes have no effect (R80). -/
def State.freeze (s : State) (n : Nat) (t : Option TrapInfo) : State :=
  let s := (s.settle n).onCore n fun k => { k.engComplete with job := k.engComplete.job.beginCk }
  let k := s.coreAt n
  if !k.job.live then s
  else
    let j := k.job
    let pa := fieldOf (k.reg 0x101) 0 56
    let parts := contextParts s n j t
    let s := (s.storeArea (n / 384) pa 0xC00 (parts.filter fun p => decide (p.1 < 0xC00))).storeArea (n / 384) (pa + 0xE00) 0x25600
      ((parts.filter fun p => decide (0xE00 ≤ p.1)).map fun p => (p.1 - 0xE00, p.2))
    let s := { s with fresh := s.fresh + 1 }
    let s := each (fun (h : Held) s => s.jobLost n h.job) (k.held.filter fun h => h.ctxp == pa) s
    let m := j.smask.getLsbD 3
    let gone := k.engHeld && k.engCtx == some pa && k.held.any fun h => h.ctxp == pa
    let j := { j with c := j.c.unwait, a := j.a.unwait, v := j.v.unwait, realn := none }
    let s := s.onCore n fun k =>
      { k with held := { ctxp := pa, job := j, trap := t } :: (k.held.filter fun h => h.ctxp != pa),
               engHeld := (k.engHeld && !gone) || m, engCtx := if m then some pa else if gone then none else k.engCtx
               eng := { (if gone && !m then k.eng.emptied else k.eng) with popw := if m then [] else k.eng.popw }
               job := {}, preq := t.isSome && k.preq }
    s.planHold n j.id

/-- The frozen job of a core is discarded (R380, R381): nothing is released; kind 0x00, or 0x04 for a supervisor job. -/
def State.discardTrap (s : State) (n : Nat) (j : Job) (t : TrapInfo) (kind : Nat) : State :=
  (s.jobLost n j).err (n / 384) (n % 384) kind 0 t.cause t.addr t.pc (recBytes j.src.r)

/-- The handler record of a trap (R380). -/
def handlerRec (n : Nat) (code frame : W64) (t : TrapInfo) (slot : Nat) : Rec :=
  { d0 := BitVec.ofNat 64 (slot * 2 ^ 56 + 7 * 2 ^ 52 + 1 * 2 ^ 48 + fieldOf code 0 48)
    d1 := BitVec.ofNat 64 (2 ^ 61 + n % 192 * 2 ^ 53 + fieldOf frame 0 53)
    d2 := BitVec.ofNat 64 (t.cause * 2 ^ 52 + noJoin)
    d3 := 0 }

/-- The engine of a core loses what it holds of a job that is no more. -/
def Core.dropEng (k : Core) : Core :=
  { k with eng := k.eng.emptied }

/-- TAKING A TRAP (R379-R381, R403): the job of the core of the step freezes at the trapping word, its context and trap record are
written, and entry CLASS of the cluster's vector table starts a handler, or the job is discarded. A supervisor job is discarded. The freeze
comes when an attention command that waits for a page has completed (R290): until then the trap is kept, and no stream goes on. -/
def State.trap (s : State) (t : TrapInfo) : State :=
  let n := s.me
  let die := n / 384
  let j0 := s.job
  if j0.sup then
    let s := s.settle n
    let s := s.onCore n fun k => { (if j0.smask.getLsbD 3 then k.dropEng else k) with job := {}, preq := false }
    s.discardTrap n j0 t 4
  else if s.core.engBusy then s.onJob fun j => { j with pend := j.pend.or (some t) }
  else
    let s := s.freeze n (some t)
    let cl := s.myCl
    let base := fieldOf ((s.clusterAt cl).reg 0x202) 0 32
    let ent := clWin cl (base + 16 * t.cls)
    let code := s.peek64 ent
    match (s.coreAt n).held with
    | h :: rest =>
      if h.job.id != j0.id then s
      else if fieldOf code 0 48 = 0 then
        let s := s.onCore n fun k =>
          { (if h.job.smask.getLsbD 3 then k.dropEng else k) with
            held := rest, engHeld := k.engHeld && !h.job.smask.getLsbD 3
            engCtx := if h.job.smask.getLsbD 3 then none else k.engCtx, preq := false }
        s.discardTrap n h.job t 0
      else
        let r := handlerRec n code (s.peek64 (ent + 8)) t h.job.src.r.slot
        match recBroken r with
        | some sub => s.recErr die (n % 384) sub 5 r
        | none => s.pushR cl 2 { r := r, sup := true, path := 5, ahead := true }
    | [] => s

/-- A trap that waited for the engine is taken once it may be (R290). -/
def State.pended (s : State) : State :=
  match s.job.pend with
  | some t => if s.core.engBusy then s else (s.onJob fun j => { j with pend := none }).trap t
  | none => s

/-- A trap of the word at a stream's pc. -/
def State.trapW (s : State) (st : Strm) (cls code : Nat) (addr : Nat := 0) : State := s.trap (s.trapAt st cls code addr)
/-- A trap of a stream's access with the SUB of its records (Table 20-4): of a block fetch PC is the header's address (R403, R419). -/
def State.trapSub (s : State) (st : Strm) (sub cls code addr : Nat) : State :=
  let b := s.job.blk st
  let t := s.trapAt st cls code addr
  s.trap (if sub = 2 then { t with pc := b.hdr, word := b.word.toNat, fetch := true } else t)
/-- A trap of a C word. -/
def State.trapC (s : State) (cls code : Nat) (addr : Nat := 0) : State := s.trapW .c cls code addr

/-- Posted lines that were lost are reported at a word that waits for them (R438): class 7 code 4 with the first such line. -/
def State.lostTrap (s : State) (st : Strm) (waits : Nat × Nat → Bool) : Option State :=
  match s.job.lost.find? waits with
  | some l => some ((s.onJob fun j => { j with lost := j.lost.filter fun x => !waits x }).trapW st 7 4 l.2)
  | none => none

/-- The back-off of PARKCFG (R417): the ticks from t0 to retry k + 1, in nanoseconds. -/
def parkDelay (ceil : Nat) : Nat → Nat
  | 0 => min 1 ceil * 1000
  | k + 1 => parkDelay ceil k + min (2 ^ (k + 1)) ceil * 1000
/-- PARKCFG.CEIL of a die in microseconds; 0 stands for 1 (Table 20-2). -/
def parkCeil (d : Die) : Nat := let c := fieldOf (d.reg 0x317) 0 16; if c = 0 then 1 else c
/-- PARKCFG.LIMIT of a die in nanoseconds. -/
def parkLimit (d : Die) : Nat := let l := fieldOf (d.reg 0x317) 16 16; (if l = 0 then 65536 else l) * 1000000
/-- Is the next retry of a park due (R417)? -/
def parkDue (s : State) (die : Nat) (p : ParkSt) : Bool :=
  decide (p.t0.toNat + parkDelay (parkCeil (s.dieAt die)) p.k ≤ (s.tickOf die).toNat)
/-- Does a retry that fails now escalate (R417)? -/
def parkOver (s : State) (die : Nat) (p : ParkSt) : Bool :=
  decide (p.t0.toNat + parkLimit (s.dieAt die) ≤ (s.tickOf die).toNat)

/-- An access of a stream's word parks (R415, R418): the park begins, counted and, the first time that the access finds a leaf not present,
reported; sub is the SUB of kind 0x10, need what the access needs, span the pieces of it. -/
def State.parkAt (s : State) (st : Strm) (sub va : Nat) (motion : Bool) (need : Need) (span : List (Nat × Nat)) : State :=
  let die := s.here.die
  let t := s.tickOf die
  let told := (s.job.blk st).told == span
  let s := (s.countPark die).onBlk st fun b =>
    { b with park := some { va := va, t0 := t, k := 0, motion := motion, sub := sub, need := need, span := span }
             told := if motion then b.told else span }
  if motion || told then s
  else s.err die s.here.core 0x10 sub 0 va (fieldOf s.core.troot 52 12) (bytesOf 8 t.toNat)

/-- The SUB of a park's records for a stream's own access (Table 20-4). -/
def parkSub : Strm → Nat
  | .c => 1 | _ => 0

/-- Is a stream ready for RDV (R42): idle, or stopped at an entry header? -/
def Blk.rested (b : Blk) : Bool := match b.mode with | .off => true | .stopped => true | _ => false
/-- The condition of RDV for core n (R42). -/
def rdvReady (s : State) (n : Nat) : Bool :=
  let j := (s.coreAt n).job
  (!j.smask.getLsbD 1 || j.a.rested) && (!j.smask.getLsbD 2 || (j.v.rested && j.land.isEmpty)) &&
  (j.acc.all fun a => a.strm != .a) && !s.postedAny n && (s.coreAt n).nt.isEmpty &&
  (!j.smask.getLsbD 3 || ((s.coreAt n).eng.q.isEmpty && (s.coreAt n).eng.halt.isNone))
/-- What the end of a job waits for besides (R43, R44, R349, R128): its C accesses performed, its plans at rest. -/
def exitReady (s : State) (n : Nat) : Bool :=
  let j := (s.coreAt n).job
  rdvReady s n && j.acc.isEmpty && !j.rago && plansIdle s n j.id

/-- A stopped stream goes on into the body of the block it stopped at (R42). -/
def Blk.resumeStop (b : Blk) : Blk := match b.mode with | .stopped => { b with mode := .fetch, again := true } | _ => b

/-- The job of core n is over (R43, R44): its region is free, its plans end, the core is idle; a request that was held freezes nothing
(R55, R381). -/
def State.endJob (s : State) (n : Nat) : State :=
  let j := (s.coreAt n).job
  let s := (s.planFree n j.id)
  s.onCore n fun k => { (if j.smask.getLsbD 3 then k.dropEng else k) with job := {}, preq := false }

/-- The join objects that the end of a job decrements (R43): the operand's, then JOINA's. -/
def State.exitJoins (s : State) (n : Nat) (obj : Option Nat) : State :=
  let r := (s.coreAt n).job.src.r
  let s := match obj with | some pa => s.decJoin (n / 384) (n % 384) pa | none => s
  if r.joina = noJoin then s else s.decJoin (n / 384) (n % 384) (clWin (clid (n / 384) (n % 384)) r.joina)

/-- A job ends with its decrements, unless one of their join objects has an uncorrectable word: that discards it (R425). -/
def State.endJoins (s : State) (obj : Option Nat) (k : State → State) : State :=
  let r := s.job.src.r
  let objs := obj.toList ++ if r.joina = noJoin then [] else [clWin s.myCl r.joina]
  match objs.findSome? (joinBadWord s) with
  | some w => (s.metBad (paDie w)).discardJob s.me w
  | none => k s

/-- The context held on a core at its CTXP (R382). -/
def Core.heldHere (k : Core) : Option Held := k.held.find? fun h => h.ctxp == fieldOf (k.reg 0x101) 0 56

/-- Bytes that a taken place made the device save come back (R53). What other frozen jobs hold there, of which the manual says nothing, is
saved at their save addresses first, and is lost where a job has none; where the job's own save address has become one that does not exist, or
0, nothing comes back (the model's choices: log entry 38). -/
def State.restoreRegion (s : State) (n : Nat) (h : Held) : State :=
  let s := s.savePlace n h.job.roff (65536 * 2 ^ h.job.rcls)
  let a := s.saveAddr (n / 384) h
  if a = 0 then s
  else each (fun u s =>
    let x := a + (65536 * u - h.job.roff)
    let s := s.mend x 65536
    s.store (tilePa (n / 384) (n % 384) (65536 * u)) (s.peek x 65536)) h.saved s

/-- n bytes from an address, as a number. -/
def State.peekNat (s : State) (a n : Nat) : Nat := ofBytes (s.peek a n)

/-- A pending write-back with its data as a place of the context area holds it (R52, R54). -/
def Landing.reload (s : State) (a : Nat) (l : Landing) : Landing :=
  let v := 512 * l.vs.length
  let q := v + 128 * l.qs.length
  { l with vs := ((upFrom 0 l.vs.length).zip l.vs).map fun p => (p.2.1, BitVec.ofNat 4096 (s.peekNat (a + 512 * p.1) 512), p.2.2.2)
           qs := ((upFrom 0 l.qs.length).zip l.qs).map fun p => (p.2.1, BitVec.ofNat 1024 (s.peekNat (a + v + 128 * p.1) 128), p.2.2.2)
           oq := l.oq.map fun p => (p.1, BitVec.ofNat 4096 (s.peekNat (a + q) 512))
           xt := l.xt.map fun p => (p.1, BitVec.ofNat 16 (s.peekNat (a + q + if l.oq.isSome then 512 else 0) 2))
           kc := l.kc.map fun p =>
             (p.1, BitVec.ofNat 32 (s.peekNat (a + q + (if l.oq.isSome then 512 else 0) + if l.xt.isSome then 2 else 0) 4)) }
/-- What a resume takes from the context area (R54, R448, R297): s1-s31, a1-a15, the descriptor slots, v0-v63, q1-q7, the data of pending
write-backs and of the entries that the scalar queue, the dq and the oq hold (Tables 2-9 and 2-10); the rest is in the held context (log
entry 27). Of an area at an address that does not exist nothing is read (R80). -/
def State.reload (s : State) (n pa : Nat) (j : Job) : Job :=
  if !paOk s (n / 384) pa then j
  else
  { j with s := (upFrom 1 31).map fun k => (k, s.peek64 (pa + 0x100 + 8 * k))
           ar := (upFrom 1 15).map fun k => (k, s.peek64 (pa + 0x200 + 8 * k))
           desc := (upFrom 0 8).map fun k => (k, (s.peek64 (pa + 0x300 + 16 * k), s.peek64 (pa + 0x308 + 16 * k)))
           vr := (upFrom 0 64).map fun k => (k, BitVec.ofNat 4096 (s.peekNat (pa + 0x1000 + 512 * k) 512))
           q := (upFrom 1 7).map fun k => (k, BitVec.ofNat 1024 (s.peekNat (pa + 0x9000 + 128 * k) 128))
           land := ((upFrom 0 j.land.length).zip j.land).map fun p => p.2.reload s (pa + 0x9400 + 2048 * p.1)
           sq := ((upFrom 0 j.sq.length).zip j.sq).map fun e =>
             { e.2 with data := e.2.data.map fun _ => s.peek64 (pa + 0x280 + 8 * e.1) }
           dq := j.dq.map fun p => (p.1, ((upFrom 0 p.2.length).zip p.2).map fun e =>
             { e.2 with data := e.2.data.map fun _ => BitVec.ofNat 4096 (s.peekNat (pa + 0xE400 + 8192 * p.1 + 512 * e.1) 512) })
           oq := j.oq.map fun p => (p.1, (upFrom 0 p.2.length).map fun k =>
             BitVec.ofNat 4096 (s.peekNat (pa + 0x1E400 + 8192 * p.1 + 512 * k) 512)) }

/-- What a resume reads of the context area and of the save area of a held context, in runs. -/
def State.resumeRuns (s : State) (n : Nat) (h : Held) : List (Nat × Nat) :=
  (if paOk s (n / 384) h.ctxp then [(h.ctxp + 0x100, 0x280), (h.ctxp + 0x1000, 0x25400)] else []) ++
  let a := s.saveAddr (n / 384) h
  if a = 0 then [] else h.saved.map fun u => (a + (65536 * u - h.job.roff), 65536)

/-- A park restarts at G (R410, R417). -/
def Blk.repark (b : Blk) (t : W64) : Blk := { b with park := b.park.map fun p => { p with t0 := t, k := 0 } }

/-- Skips the trapping word of a resumed job under ERET form 0 (R382, R406, R438): past the whole header where its block could not be fetched
(R419, R403). -/
def skipTrapped (j : Job) (t : TrapInfo) : Job :=
  let st := t.strm
  let b := j.blk st
  let late := j.acc.find? fun a => t.cls == 7 && t.code == 3 && a.strm == st && a.pc == t.pc
  let j := match late with
    | some a =>
      { j.done a.id with dq := j.dq.map fun p => (p.1, p.2.filter fun e => e.id != a.id), sq := j.sq.filter fun e => e.id != a.id }
    | none => j
  if b.pc != t.pc then (if b.mode == .run && b.hdr == t.pc && t.fetch then j.setBlk st { (b.at (b.hdr + 4)) with fresh := true } else j)
  else
    match b.mode with
    | .run =>
      let n := if st == .v then 2 else match b.code with | h :: _ => if fld h 15 1 = 1 then 2 else 1 | [] => 1
      let j := { (j.setBlk st (b.advance st n)) with vrb := if st == .v && b.rotates n then j.vrb + 1 else j.vrb }
      if st == .v then { j with ord := j.ord + 1, vnop := 1 } else j
    | _ => j.setBlk st { (b.at (b.hdr + 4)) with fresh := true }

/-- Where a resumed job goes on (R382, R404, R405, R409): past a TRAP under either form; past any other trapping word under form 0,
but for the arithmetic and engine classes, whose word has not issued. -/
def resumeJob (form1 : Bool) (t : Option TrapInfo) (j : Job) : Job :=
  match t with
  | none => j
  | some t =>
    if t.cls = 9 then skipTrapped j t
    else if form1 || t.cls == 5 || t.cls == 6 then j
    else skipTrapped j t

/-- The engine of a resumed core (R409): the command that an engine fault halted starts again with form 1, and is discarded with form
0. -/
def resumeEng (form1 : Bool) (t : Option TrapInfo) (e : Eng) : Eng :=
  match t with
  | some t =>
    if t.cls = 6 then
      let e := { e with halt := none, prog := 0, step1 := false, clr := false, done := false, flags := 0 }
      if form1 then e else { e with q := e.q.drop 1 }
    else e
  | none => e

/-- THE RETURN FROM A TRAP (R382, R54, R132, R404, R407, R410): the context at CTXP of the core of the step goes on; an arithmetic trap of
landings that were applied at F is raised at G. A word that is uncorrectable where the resume reads discards the job, for which it is read
(R425). -/
def State.resume (s : State) (form1 : Bool) (h : Held) : State :=
  let n := s.me
  let bad := (s.resumeRuns n h).findSome? fun r => s.badIn r.1 r.2
  let s := each (fun (r : Nat × Nat) s => s.mend r.1 r.2) (s.resumeRuns n h) s
  let s := s.onCore n fun k => { k with held := k.held.filter fun x => x.ctxp != h.ctxp }
  let s := s.restoreRegion n h
  let t := s.tickOf (n / 384)
  let j := resumeJob form1 h.trap (s.reload n h.ctxp h.job)
  let j := { j with c := j.c.repark t, a := j.a.repark t, v := j.v.repark t, evt := j.evt || (h.trap.isNone && j.mon.isSome) }
  let s := s.onCore n fun k =>
    { k with job := j, eng := if j.smask.getLsbD 3 then resumeEng form1 h.trap k.eng else k.eng,
             engHeld := k.engHeld && !j.smask.getLsbD 3, engCtx := if j.smask.getLsbD 3 then none else k.engCtx }
  let s := s.planRelease n j.id
  match bad, s.job.arith with
  | some w, _ => (s.metBad (paDie w)).discardJob n w
  | none, some t => (s.onJob fun j => { j with arith := none }).trap { t with pc := s.pcOf .v }
  | none, none => s

/-- Would a pre-emption request of a core be held (R381): it runs the handler of its held context? -/
def preemptHeld (s : State) (n : Nat) : Bool :=
  (s.coreAt n).job.live && (s.coreAt n).job.handler && (s.coreAt n).held.any fun h => h.trap.isSome
/-- Does a stream of the step's core stand at the boundary at which its job stops: a pre-emption request that is not held freezes the job
there (R51, R381), a fault that halted the engine traps at the C-stream's (R405), and a trap may wait for the engine (R290)? -/
def State.stops (s : State) (st : Strm) : Bool :=
  (s.core.preq && !preemptHeld s s.me) || s.job.pend.isSome || (st == .c && s.eng.halt.isSome && s.job.has .m)
/-- Changes the C-stream so that the word at its pc waits (R189): what completes it is a step of its own. -/
def State.waitC (s : State) (i : Instr) : State := s.onBlk .c fun b => { b with wait := some i }
/-- The C-stream's word that waits and may still issue. -/
def State.waitingC (s : State) : Option Instr := if s.stops .c then none else s.job.c.wait

end Sys2Proof.Machine
end

