-- ==== Sys2Proof/Machine/Scalar.lean ====
section
/-!
DEFINITION. C-stream arithmetic and branches (R193-R198), in their 32-bit and 16-bit forms, and the A-stream's (R229-R231).
-/
namespace Sys2Proof.Machine

/-- A C word of n halfwords writes a result and issues (R189). -/
def State.setC (s : State) (n : Nat) (d : BitVec 5) (v : W64) : State := (s.setRs d v).advance .c n
/-- An A word of n halfwords writes a result and issues (R226). -/
def State.setA (s : State) (n : Nat) (d : BitVec 4) (v : W64) : State := (s.setRa d v).advance .a n
/-- 1 or 0. -/
def boolW (b : Bool) : W64 := if b then 1 else 0
/-- Shifts of Tables 8-3 and 8-4: bits [63:6] of the count are ignored. -/
def shl (a b : W64) : W64 := a <<< (b.toNat % 64)
def shr (a b : W64) : W64 := a >>> (b.toNat % 64)
def sra (a b : W64) : W64 := a.sshiftRight (b.toNat % 64)
/-- High halves of products (Table 8-3). -/
def mulHi (a b : W64) : W64 := BitVec.ofInt 64 (a.toInt * b.toInt / 2 ^ 64)
def mulHiU (a b : W64) : W64 := BitVec.ofNat 64 (a.toNat * b.toNat / 2 ^ 64)
/-- DIV, DIVU, REM, REMU (Table 8-3): division by zero and the overflow case have stated results. -/
def divS (a b : W64) : W64 := if b = 0 then BitVec.allOnes 64 else BitVec.ofInt 64 (Int.tdiv a.toInt b.toInt)
def divU (a b : W64) : W64 := if b = 0 then BitVec.allOnes 64 else BitVec.ofNat 64 (a.toNat / b.toNat)
def remS (a b : W64) : W64 := if b = 0 then a else BitVec.ofInt 64 (Int.tmod a.toInt b.toInt)
def remU (a b : W64) : W64 := if b = 0 then a else BitVec.ofNat 64 (a.toNat % b.toNat)
/-- MIN, MAX, MINU, MAXU. -/
def minS (a b : W64) : W64 := if a.toInt ≤ b.toInt then a else b
def maxS (a b : W64) : W64 := if a.toInt ≤ b.toInt then b else a
def minU (a b : W64) : W64 := if a.toNat ≤ b.toNat then a else b
def maxU (a b : W64) : W64 := if a.toNat ≤ b.toNat then b else a
/-- Leading zero bits of the low n bits of a number. -/
def clzNat (x : Nat) : Nat → Nat
  | 0 => 0
  | n + 1 => if x.testBit n then 0 else clzNat x n + 1
/-- One bits among the low n bits of a number. -/
def popNat (x : Nat) : Nat → Nat
  | 0 => 0
  | n + 1 => popNat x n + (if x.testBit n then 1 else 0)
/-- LIZ and LIK (R195). -/
def lizV (i : BitVec 16) (p : BitVec 2) : W64 := (i.setWidth 64) <<< (16 * p.toNat)
def likV (old : W64) (i : BitVec 16) (p : BitVec 2) : W64 :=
  (old &&& ~~~ ((0xFFFF : W64) <<< (16 * p.toNat))) ||| lizV i p

/-- ADD sd, sa, sb (R193). -/
def execCAdd (d a b : BitVec 5) (s : State) : Out := .next (s.setC 2 d ((s.rs a) + (s.rs b)))
/-- SUB sd, sa, sb (R193). -/
def execCSub (d a b : BitVec 5) (s : State) : Out := .next (s.setC 2 d ((s.rs a) - (s.rs b)))
/-- AND sd, sa, sb (R193). -/
def execCAnd (d a b : BitVec 5) (s : State) : Out := .next (s.setC 2 d ((s.rs a) &&& (s.rs b)))
/-- OR sd, sa, sb (R193). -/
def execCOr (d a b : BitVec 5) (s : State) : Out := .next (s.setC 2 d ((s.rs a) ||| (s.rs b)))
/-- XOR sd, sa, sb (R193). -/
def execCXor (d a b : BitVec 5) (s : State) : Out := .next (s.setC 2 d ((s.rs a) ^^^ (s.rs b)))
/-- ANDN sd, sa, sb (R193). -/
def execAndn (d a b : BitVec 5) (s : State) : Out := .next (s.setC 2 d ((s.rs a) &&& ~~~ (s.rs b)))
/-- SHL sd, sa, sb (R193). -/
def execCShl (d a b : BitVec 5) (s : State) : Out := .next (s.setC 2 d (shl (s.rs a) (s.rs b)))
/-- SHR sd, sa, sb (R193). -/
def execCShr (d a b : BitVec 5) (s : State) : Out := .next (s.setC 2 d (shr (s.rs a) (s.rs b)))
/-- SRA sd, sa, sb (R193). -/
def execCSra (d a b : BitVec 5) (s : State) : Out := .next (s.setC 2 d (sra (s.rs a) (s.rs b)))
/-- MUL sd, sa, sb (R193). -/
def execCMul (d a b : BitVec 5) (s : State) : Out := .next (s.setC 2 d ((s.rs a) * (s.rs b)))
/-- MULH sd, sa, sb (R193). -/
def execMulh (d a b : BitVec 5) (s : State) : Out := .next (s.setC 2 d (mulHi (s.rs a) (s.rs b)))
/-- MULHU sd, sa, sb (R193). -/
def execMulhu (d a b : BitVec 5) (s : State) : Out := .next (s.setC 2 d (mulHiU (s.rs a) (s.rs b)))
/-- DIV sd, sa, sb (R193). -/
def execDiv (d a b : BitVec 5) (s : State) : Out := .next (s.setC 2 d (divS (s.rs a) (s.rs b)))
/-- DIVU sd, sa, sb (R193). -/
def execDivu (d a b : BitVec 5) (s : State) : Out := .next (s.setC 2 d (divU (s.rs a) (s.rs b)))
/-- REM sd, sa, sb (R193). -/
def execRem (d a b : BitVec 5) (s : State) : Out := .next (s.setC 2 d (remS (s.rs a) (s.rs b)))
/-- REMU sd, sa, sb (R193). -/
def execRemu (d a b : BitVec 5) (s : State) : Out := .next (s.setC 2 d (remU (s.rs a) (s.rs b)))
/-- MIN sd, sa, sb (R193). -/
def execCMin (d a b : BitVec 5) (s : State) : Out := .next (s.setC 2 d (minS (s.rs a) (s.rs b)))
/-- MAX sd, sa, sb (R193). -/
def execCMax (d a b : BitVec 5) (s : State) : Out := .next (s.setC 2 d (maxS (s.rs a) (s.rs b)))
/-- MINU sd, sa, sb (R193). -/
def execMinu (d a b : BitVec 5) (s : State) : Out := .next (s.setC 2 d (minU (s.rs a) (s.rs b)))
/-- MAXU sd, sa, sb (R193). -/
def execMaxu (d a b : BitVec 5) (s : State) : Out := .next (s.setC 2 d (maxU (s.rs a) (s.rs b)))
/-- SEQ sd, sa, sb (R193). -/
def execSeq (d a b : BitVec 5) (s : State) : Out := .next (s.setC 2 d (boolW ((s.rs a) == (s.rs b))))
/-- SNE sd, sa, sb (R193). -/
def execSne (d a b : BitVec 5) (s : State) : Out := .next (s.setC 2 d (boolW ((s.rs a) != (s.rs b))))
/-- SLT sd, sa, sb (R193). -/
def execCSlt (d a b : BitVec 5) (s : State) : Out := .next (s.setC 2 d (boolW (decide ((s.rs a).toInt < (s.rs b).toInt))))
/-- SLTU sd, sa, sb (R193). -/
def execCSltu (d a b : BitVec 5) (s : State) : Out := .next (s.setC 2 d (boolW (decide ((s.rs a).toNat < (s.rs b).toNat))))
/-- CLZ (R193). -/
def execClz (d a : BitVec 5) (s : State) : Out := .next (s.setC 2 d (BitVec.ofNat 64 (clzNat (s.rs a).toNat 64)))
/-- POPC (R193). -/
def execPopc (d a : BitVec 5) (s : State) : Out := .next (s.setC 2 d (BitVec.ofNat 64 (popNat (s.rs a).toNat 64)))
/-- SEL (R193): reads sd before it writes it. -/
def execSel (d a b : BitVec 5) (s : State) : Out := .next (s.setC 2 d (if s.rs d != 0 then s.rs a else s.rs b))
/-- ADDI sd, sa, imm (R194). -/
def execCAddi (d a : BitVec 5) (i : BitVec 16) (s : State) : Out := .next (s.setC 2 d (s.rs a + i.signExtend 64))
/-- ANDI (R194). -/
def execAndi (d a : BitVec 5) (i : BitVec 16) (s : State) : Out := .next (s.setC 2 d (s.rs a &&& i.setWidth 64))
/-- ORI (R194). -/
def execOri (d a : BitVec 5) (i : BitVec 16) (s : State) : Out := .next (s.setC 2 d (s.rs a ||| i.setWidth 64))
/-- XORI (R194). -/
def execXori (d a : BitVec 5) (i : BitVec 16) (s : State) : Out := .next (s.setC 2 d (s.rs a ^^^ i.setWidth 64))
/-- SHLI (R194). -/
def execCShli (d a : BitVec 5) (n : BitVec 6) (s : State) : Out := .next (s.setC 2 d (shl (s.rs a) (n.setWidth 64)))
/-- SHRI (R194). -/
def execCShri (d a : BitVec 5) (n : BitVec 6) (s : State) : Out := .next (s.setC 2 d (shr (s.rs a) (n.setWidth 64)))
/-- SRAI (R194). -/
def execCSrai (d a : BitVec 5) (n : BitVec 6) (s : State) : Out := .next (s.setC 2 d (sra (s.rs a) (n.setWidth 64)))
/-- SLTI (R194). -/
def execSlti (d a : BitVec 5) (i : BitVec 16) (s : State) : Out :=
  .next (s.setC 2 d (boolW (decide ((s.rs a).toInt < i.toInt))))
/-- SLTIU (R194). -/
def execSltiu (d a : BitVec 5) (i : BitVec 16) (s : State) : Out :=
  .next (s.setC 2 d (boolW (decide ((s.rs a).toNat < (i.signExtend 64).toNat))))
/-- LIZ sd, imm, p (R195). -/
def execCLiz (d : BitVec 5) (i : BitVec 16) (p : BitVec 2) (s : State) : Out := .next (s.setC 2 d (lizV i p))
/-- LIK sd, imm, p (R195). -/
def execCLik (d : BitVec 5) (i : BitVec 16) (p : BitVec 2) (s : State) : Out := .next (s.setC 2 d (likV (s.rs d) i p))

/-- 16-bit MOV (R196). -/
def execC16Mov (d a : BitVec 5) (s : State) : Out := .next (s.setC 1 d (s.rs a))
/-- 16-bit ADD (R196). -/
def execC16Add (d a : BitVec 5) (s : State) : Out := .next (s.setC 1 d (s.rs d + s.rs a))
/-- 16-bit SUB (R196). -/
def execC16Sub (d a : BitVec 5) (s : State) : Out := .next (s.setC 1 d (s.rs d - s.rs a))
/-- 16-bit AND (R196). -/
def execC16And (d a : BitVec 5) (s : State) : Out := .next (s.setC 1 d (s.rs d &&& s.rs a))
/-- 16-bit OR (R196). -/
def execC16Or (d a : BitVec 5) (s : State) : Out := .next (s.setC 1 d (s.rs d ||| s.rs a))
/-- 16-bit XOR (R196). -/
def execC16Xor (d a : BitVec 5) (s : State) : Out := .next (s.setC 1 d (s.rs d ^^^ s.rs a))
/-- 16-bit ADDI (R196). -/
def execC16Addi (d : BitVec 5) (i : BitVec 6) (s : State) : Out := .next (s.setC 1 d (s.rs d + i.signExtend 64))
/-- 16-bit LIZ (R196). -/
def execC16Liz (d : BitVec 5) (i : BitVec 6) (s : State) : Out := .next (s.setC 1 d (i.signExtend 64))
/-- 16-bit SHLI (R196). -/
def execC16Shli (d : BitVec 5) (n : BitVec 6) (s : State) : Out := .next (s.setC 1 d (shl (s.rs d) (n.setWidth 64)))
/-- 16-bit SHRI (R196). -/
def execC16Shri (d : BitVec 5) (n : BitVec 6) (s : State) : Out := .next (s.setC 1 d (shr (s.rs d) (n.setWidth 64)))
/-- 16-bit SRAI (R196). -/
def execC16Srai (d : BitVec 5) (n : BitVec 6) (s : State) : Out := .next (s.setC 1 d (sra (s.rs d) (n.setWidth 64)))
/-- 16-bit NOP (R196). -/
def execC16Nop (s : State) : Out := .next (s.advance .c 1)

/-- A relative target of a stream (R163): the header of the word's own block plus 4 times the offset. -/
def State.relTarget (s : State) (st : Strm) {w : Nat} (o : BitVec w) : Int := ((s.job.blk st).hdr : Int) + 4 * o.toInt

/-- A transfer to a block (R163): an address that is not canonical is a fault at the target's fetch; addresses are 64 bits wide. -/
def State.jump (s : State) (st : Strm) (t : Int) : State := s.goto st (t % 2 ^ 64).toNat
/-- The link that CALL and CALLR write (R163): the header after the current block. -/
def State.link (s : State) : W64 := BitVec.ofNat 64 s.job.c.next
/-- The park that the block fetch of a target of the C-stream meets, if it meets one (R415, R164): at its header, or in what stands in the
loop buffer as the block starts; with the pieces of the access that parks. -/
def State.targetPark (s : State) (t : Int) : Option (Bool × Nat × List (Nat × Nat)) :=
  match s.xlateRange { x := true } t 4 with
  | (.park m va, _) => some (m, va, pageSplit t.toNat 4 2)
  | (.bad _ _, _) => none
  | (.ok rs, s) =>
    let w := codeWord (rs.flatMap fun r => s.peek r.1 r.2)
    if headerBroken .c w then none
    else
      let n := firstFetch t.toNat ({ word := w } : Blk).len
      match s.xlateRange { x := true } t n with
      | (.park m va, _) => some (m, va, pageSplit t.toNat n (n / 8192 + 2))
      | _ => none
/-- A branch or call of the C-stream to a target, link its link (R163, R197, R415): while the target's block fetch is parked, the word is
held without effect. -/
def State.branchC (s : State) (t : Int) (link : Bool) : State :=
  match s.targetPark t with
  | some (m, va, span) => s.parkAt .c 2 va m { x := true } span
  | none => (if link then s.setRs 31 s.link else s).jump .c t

/-- BEQZ of the C-stream (R197). -/
def execCBeqz (a : BitVec 5) (o : BitVec 16) (s : State) : Out :=
  .next (if (s.rs a) = 0 then s.branchC (s.relTarget .c o) false else s.advance .c 2)
/-- BNEZ of the C-stream (R197). -/
def execCBnez (a : BitVec 5) (o : BitVec 16) (s : State) : Out :=
  .next (if (s.rs a) ≠ 0 then s.branchC (s.relTarget .c o) false else s.advance .c 2)
/-- BLTZ of the C-stream (R197). -/
def execCBltz (a : BitVec 5) (o : BitVec 16) (s : State) : Out :=
  .next (if (s.rs a).toInt < 0 then s.branchC (s.relTarget .c o) false else s.advance .c 2)
/-- BGEZ of the C-stream (R197). -/
def execCBgez (a : BitVec 5) (o : BitVec 16) (s : State) : Out :=
  .next (if 0 ≤ (s.rs a).toInt then s.branchC (s.relTarget .c o) false else s.advance .c 2)
/-- BLEZ of the C-stream (R197). -/
def execCBlez (a : BitVec 5) (o : BitVec 16) (s : State) : Out :=
  .next (if (s.rs a).toInt ≤ 0 then s.branchC (s.relTarget .c o) false else s.advance .c 2)
/-- BGTZ of the C-stream (R197). -/
def execCBgtz (a : BitVec 5) (o : BitVec 16) (s : State) : Out :=
  .next (if 0 < (s.rs a).toInt then s.branchC (s.relTarget .c o) false else s.advance .c 2)
/-- BEQZ of the A-stream (R231). -/
def execABeqz (a : BitVec 4) (o : BitVec 14) (s : State) : Out :=
  .next (if (s.ra a) = 0 then s.jump .a (s.relTarget .a o) else s.advance .a 2)
/-- BNEZ of the A-stream (R231). -/
def execABnez (a : BitVec 4) (o : BitVec 14) (s : State) : Out :=
  .next (if (s.ra a) ≠ 0 then s.jump .a (s.relTarget .a o) else s.advance .a 2)
/-- BLTZ of the A-stream (R231). -/
def execABltz (a : BitVec 4) (o : BitVec 14) (s : State) : Out :=
  .next (if (s.ra a).toInt < 0 then s.jump .a (s.relTarget .a o) else s.advance .a 2)
/-- BGEZ of the A-stream (R231). -/
def execABgez (a : BitVec 4) (o : BitVec 14) (s : State) : Out :=
  .next (if 0 ≤ (s.ra a).toInt then s.jump .a (s.relTarget .a o) else s.advance .a 2)
/-- BLEZ of the A-stream (R231). -/
def execABlez (a : BitVec 4) (o : BitVec 14) (s : State) : Out :=
  .next (if (s.ra a).toInt ≤ 0 then s.jump .a (s.relTarget .a o) else s.advance .a 2)
/-- BGTZ of the A-stream (R231). -/
def execABgtz (a : BitVec 4) (o : BitVec 14) (s : State) : Out :=
  .next (if 0 < (s.ra a).toInt then s.jump .a (s.relTarget .a o) else s.advance .a 2)
/-- JMP of the C-stream (R197). -/
def execCJmp (o : BitVec 26) (s : State) : Out := .next (s.branchC (s.relTarget .c o) false)
/-- JMP of the A-stream (R231). -/
def execAJmp (o : BitVec 22) (s : State) : Out := .next (s.jump .a (s.relTarget .a o))
/-- CALL (R197, R163). -/
def execCall (o : BitVec 26) (s : State) : Out := .next (s.branchC (s.relTarget .c o) true)

/-- An indirect transfer of the C-stream (R198): a target with bits [1:0] set is an alignment trap; one that fails translation is a
trap at the branch word. The range comes before the alignment (R190). -/
def State.indirect (s : State) (a : BitVec 5) (link : Bool) : State :=
  let t := s.rs a
  if 2 ^ 53 ≤ t.toNat then s.trapC 1 5 t.toNat
  else if t.toNat % 4 != 0 then
    match s.xlate { none := true } t.toNat 1 with
    | (.bad c, s) => if c = 2 then s.trapC 1 2 t.toNat else s.trapC 2 1 t.toNat
    | (_, s) => s.trapC 2 1 t.toNat
  else
    match s.xlateRange { x := true } t.toNat 4 with
    | (.bad c va, s) => s.trapC 1 c va
    | _ => s.branchC t.toNat link

/-- JR sa (R198). -/
def execJr (a : BitVec 5) (s : State) : Out := .next (s.indirect a false)
/-- CALLR sa (R198): reads sa before it writes s31. -/
def execCallr (a : BitVec 5) (s : State) : Out := .next (s.indirect a true)

/-- A-stream ADD (R230). -/
def execAAdd (d a b : BitVec 4) (s : State) : Out := .next (s.setA 2 d ((s.ra a) + (s.ra b)))
/-- A-stream SUB (R230). -/
def execASub (d a b : BitVec 4) (s : State) : Out := .next (s.setA 2 d ((s.ra a) - (s.ra b)))
/-- A-stream AND (R230). -/
def execAAnd (d a b : BitVec 4) (s : State) : Out := .next (s.setA 2 d ((s.ra a) &&& (s.ra b)))
/-- A-stream OR (R230). -/
def execAOr (d a b : BitVec 4) (s : State) : Out := .next (s.setA 2 d ((s.ra a) ||| (s.ra b)))
/-- A-stream XOR (R230). -/
def execAXor (d a b : BitVec 4) (s : State) : Out := .next (s.setA 2 d ((s.ra a) ^^^ (s.ra b)))
/-- A-stream SHL (R230). -/
def execAShl (d a b : BitVec 4) (s : State) : Out := .next (s.setA 2 d (shl (s.ra a) (s.ra b)))
/-- A-stream SHR (R230). -/
def execAShr (d a b : BitVec 4) (s : State) : Out := .next (s.setA 2 d (shr (s.ra a) (s.ra b)))
/-- A-stream SRA (R230). -/
def execASra (d a b : BitVec 4) (s : State) : Out := .next (s.setA 2 d (sra (s.ra a) (s.ra b)))
/-- A-stream MUL (R230). -/
def execAMul (d a b : BitVec 4) (s : State) : Out := .next (s.setA 2 d ((s.ra a) * (s.ra b)))
/-- A-stream MIN (R230). -/
def execAMin (d a b : BitVec 4) (s : State) : Out := .next (s.setA 2 d (minS (s.ra a) (s.ra b)))
/-- A-stream MAX (R230). -/
def execAMax (d a b : BitVec 4) (s : State) : Out := .next (s.setA 2 d (maxS (s.ra a) (s.ra b)))
/-- A-stream SLT (R230). -/
def execASlt (d a b : BitVec 4) (s : State) : Out := .next (s.setA 2 d (boolW (decide ((s.ra a).toInt < (s.ra b).toInt))))
/-- A-stream SLTU (R230). -/
def execASltu (d a b : BitVec 4) (s : State) : Out := .next (s.setA 2 d (boolW (decide ((s.ra a).toNat < (s.ra b).toNat))))
/-- A-stream ADDI (R230). -/
def execAAddi (d a : BitVec 4) (i : BitVec 14) (s : State) : Out := .next (s.setA 2 d (s.ra a + i.signExtend 64))
/-- A-stream LIZ (R230, R195). -/
def execALiz (d : BitVec 4) (i : BitVec 16) (p : BitVec 2) (s : State) : Out := .next (s.setA 2 d (lizV i p))
/-- A-stream LIK (R230, R195). -/
def execALik (d : BitVec 4) (i : BitVec 16) (p : BitVec 2) (s : State) : Out := .next (s.setA 2 d (likV (s.ra d) i p))
/-- A-stream SHLI (R230). -/
def execAShli (d a : BitVec 4) (n : BitVec 6) (s : State) : Out := .next (s.setA 2 d (shl (s.ra a) (n.setWidth 64)))
/-- A-stream SHRI (R230). -/
def execAShri (d a : BitVec 4) (n : BitVec 6) (s : State) : Out := .next (s.setA 2 d (shr (s.ra a) (n.setWidth 64)))
/-- A-stream SRAI (R230). -/
def execASrai (d a : BitVec 4) (n : BitVec 6) (s : State) : Out := .next (s.setA 2 d (sra (s.ra a) (n.setWidth 64)))
/-- Does a pair of values satisfy a condition (R231)? -/
def cndHolds (c : Cnd) (x y : W64) : Bool :=
  match c with
  | .eq => x == y | .ne => x != y | .lt => decide (x.toInt < y.toInt) | .ge => decide (y.toInt ≤ x.toInt)
  | .ltu => decide (x.toNat < y.toNat) | .geu => decide (y.toNat ≤ x.toNat)
/-- CSET (R231). -/
def execCset (d a b : BitVec 4) (c : Cnd) (s : State) : Out := .next (s.setA 2 d (boolW (cndHolds c (s.ra a) (s.ra b))))
/-- 16-bit ADD of the A-stream (R229). -/
def execA16Add (d a : BitVec 4) (s : State) : Out := .next (s.setA 1 d (s.ra d + s.ra a))
/-- 16-bit SUB of the A-stream (R229). -/
def execA16Sub (d a : BitVec 4) (s : State) : Out := .next (s.setA 1 d (s.ra d - s.ra a))
/-- 16-bit ADDI of the A-stream (R229). -/
def execA16Addi (d : BitVec 4) (i : BitVec 8) (s : State) : Out := .next (s.setA 1 d (s.ra d + i.signExtend 64))
/-- 16-bit MOV of the A-stream (R229). -/
def execA16Mov (d a : BitVec 4) (s : State) : Out := .next (s.setA 1 d (s.ra a))
/-- 16-bit SHLI of the A-stream (R229). -/
def execA16Shli (d n : BitVec 4) (s : State) : Out := .next (s.setA 1 d (shl (s.ra d) (n.setWidth 64)))
/-- 16-bit LIZ of the A-stream (R229). -/
def execA16Liz (d : BitVec 4) (i : BitVec 8) (s : State) : Out := .next (s.setA 1 d (i.signExtend 64))
/-- 16-bit NOP of the A-stream (R229). -/
def execA16Nop (s : State) : Out := .next (s.advance .a 1)

end Sys2Proof.Machine
end

