-- ==== Sys2Proof/Machine/CMem.lean ====
section
/-!
DEFINITION. C-stream loads, stores, atomics and monitors (R199-R202), and what every access needs before it issues: the checks of
an address (R190, R84-R86, R320, R385), and the list of accesses that have not performed.
-/
namespace Sys2Proof.Machine

/-- What checking a virtual access answers: its physical runs; a trap with its failing address; a park. -/
inductive Acs where
  | ok (runs : List (Nat × Nat))
  | trap (cls code addr : Nat)
  | park (motion : Bool) (va : Nat)
  deriving DecidableEq, Repr

/-- The first byte that device control space does not accept (R385, R402) of physical runs that hold consecutive virtual addresses from
va on: the code and its virtual address. -/
def ctlBad (sup : Bool) (w : Bool) (va : Nat) : List (Nat × Nat) → Option (Nat × Nat)
  | [] => none
  | (pa, n) :: t =>
    if paSpace pa = 3 then match ctlCheck sup pa n w with | some (c, o) => some (c, va + o) | none => ctlBad sup w (va + n) t
    else ctlBad sup w (va + n) t

/-- Does the leaf of an address name a place out of range (R80, R81)? -/
def State.outOfRange (s : State) (va : Nat) : Bool × State :=
  match s.xlate { none := true } va 1 with
  | (.bad c, s) => (c == 2, s)
  | (_, s) => (false, s)

/-- The checks of an access of n bytes at a virtual address, aligned to al bytes, in the order of R190 and R227: range (R84, R80, R81),
alignment (R192), translation and permission (R86), place in motion (R320), device control space (R385). -/
def State.access (s : State) (need : Need) (va : Int) (n al : Nat) : Acs × State :=
  let v := (va % 2 ^ 64).toNat
  if va < 0 || 2 ^ 53 ≤ va then (.trap 1 5 v, s)
  else if v % al != 0 then
    match s.outOfRange v with
    | (true, s) => (.trap 1 2 v, s)
    | (false, s) => (.trap 2 0 v, s)
  else
    match s.xlateRange need va n with
    | (.bad c a, s) => (.trap 1 c a, s)
    | (.park m a, s) => (.park m a, s)
    | (.ok runs, s) =>
      match ctlBad s.job.sup need.w v runs with
      | some (c, a) => (.trap 1 c a, s)
      | none => (.ok runs, s)

/-- Carries out the checks of an access of a stream's word: the trap, the park, or the word goes on with the runs. -/
def State.withAccess (s : State) (st : Strm) (need : Need) (va : Int) (n al : Nat)
    (f : List (Nat × Nat) → State → State) : State :=
  match s.access need va n al with
  | (.ok runs, s) => f runs s
  | (.trap c k a, s) => s.trapW st c k a
  | (.park m a, s) => s.parkAt st (parkSub st) a m need (pageSplit va.toNat n (n / 8192 + 2))

/-- Carries out the checks of a cluster-window access of a C word: the trap, or the word goes on with the physical address. -/
def State.withCw (s : State) (need : Need) (ea : Int) (n al : Nat) (f : Nat → State) : State :=
  match s.cw need ea n al with
  | .ok pa => f pa
  | .error (c, k, x) => s.trapC c k x

/-- An access of a stream issues: it joins the accesses that have not performed (R108, R114). An A-stream store takes a number. -/
def State.issueAcc (s : State) (st : Strm) (cls : Nat) (kind : AccK) (runs : List (Nat × Nat)) (data : List Byte := []) : State :=
  let a : Acc := { id := s.fresh, strm := st, cls := cls, kind := kind, runs := runs, data := data, pc := s.pcOf st,
                   word := s.wordOf st, seq := s.job.seq }
  let s := { s with fresh := s.fresh + 1 }
  s.onJob fun j => { j with acc := j.acc ++ [a], seq := if st == .a && kind.isStore then j.seq + 1 else j.seq }

/-- May another load of the C-stream issue (Table 8-1)? -/
def State.loadRoomC (s : State) : Bool := decide (s.job.loads .c < 8)
/-- May another store of the C-stream issue (Table 8-1)? -/
def State.storeRoomC (s : State) : Bool := decide (s.job.stores .c < 16)

/-- A C-stream load of n bytes into sd (R199), its word hw halfwords long. -/
def State.loadC (s : State) (d : BitVec 5) (ea : Int) (n hw : Nat) (sg : Bool) : State :=
  s.withCw { rd := true } ea n n fun pa =>
    if s.loadRoomC then (s.issueAcc .c 0 (.ld d.toNat sg) [(pa, n)]).advance .c hw else s
/-- A C-stream store of the low n bytes of a value (R200). -/
def State.storeC (s : State) (v : W64) (ea : Int) (n hw : Nat) : State :=
  s.withCw { w := true } ea n n fun pa =>
    if s.storeRoomC then (s.issueAcc .c 0 .st [(pa, n)] (bytesOf n v.toNat)).advance .c hw else s

/-- An atomic of the C-stream (R201): w is the width bit of the word, 1 for 64 bits. -/
def State.atomicC (s : State) (op : Nat) (d a b : BitVec 5) (w : Bool) : State :=
  let n := if w then 8 else 4
  s.withCw { rd := true, w := true } (s.rs a).toInt n n fun pa =>
    if s.loadRoomC && s.storeRoomC then (s.issueAcc .c 0 (.at op d.toNat n (s.rs b) (s.rs d)) [(pa, n)]).advance .c 2 else s

/-- LDB sd, off(sa) (R199). -/
def execCLdb (d a : BitVec 5) (o : BitVec 11) (s : State) : Out := .next (s.loadC d (s.eaC a o) 1 2 true)
/-- LDBU sd, off(sa) (R199). -/
def execCLdbu (d a : BitVec 5) (o : BitVec 11) (s : State) : Out := .next (s.loadC d (s.eaC a o) 1 2 false)
/-- LDH sd, off(sa) (R199). -/
def execCLdh (d a : BitVec 5) (o : BitVec 11) (s : State) : Out := .next (s.loadC d (s.eaC a o) 2 2 true)
/-- LDHU sd, off(sa) (R199). -/
def execCLdhu (d a : BitVec 5) (o : BitVec 11) (s : State) : Out := .next (s.loadC d (s.eaC a o) 2 2 false)
/-- LDW sd, off(sa) (R199). -/
def execCLdw (d a : BitVec 5) (o : BitVec 11) (s : State) : Out := .next (s.loadC d (s.eaC a o) 4 2 true)
/-- LDWU sd, off(sa) (R199). -/
def execCLdwu (d a : BitVec 5) (o : BitVec 11) (s : State) : Out := .next (s.loadC d (s.eaC a o) 4 2 false)
/-- LDD sd, off(sa) (R199). -/
def execCLdd (d a : BitVec 5) (o : BitVec 11) (s : State) : Out := .next (s.loadC d (s.eaC a o) 8 2 false)
/-- The 16-bit LDD: offset 0 (R196). -/
def execC16Ldd (d a : BitVec 5) (s : State) : Out := .next (s.loadC d (s.rs a).toInt 8 1 false)
/-- STB sd, off(sa) (R200). -/
def execCStb (d a : BitVec 5) (o : BitVec 11) (s : State) : Out := .next (s.storeC (s.rs d) (s.eaC a o) 1 2)
/-- STH sd, off(sa) (R200). -/
def execCSth (d a : BitVec 5) (o : BitVec 11) (s : State) : Out := .next (s.storeC (s.rs d) (s.eaC a o) 2 2)
/-- STW sd, off(sa) (R200). -/
def execCStw (d a : BitVec 5) (o : BitVec 11) (s : State) : Out := .next (s.storeC (s.rs d) (s.eaC a o) 4 2)
/-- STD sd, off(sa) (R200). -/
def execCStd (d a : BitVec 5) (o : BitVec 11) (s : State) : Out := .next (s.storeC (s.rs d) (s.eaC a o) 8 2)
/-- The 16-bit STD: offset 0 (R196). -/
def execC16Std (d a : BitVec 5) (s : State) : Out := .next (s.storeC (s.rs d) (s.rs a).toInt 8 1)

/-- ATADD (R201). -/
def execAtadd (d a b : BitVec 5) (w : Bool) (s : State) : Out := .next (s.atomicC 0 d a b w)
/-- ATSWP (R201). -/
def execAtswp (d a b : BitVec 5) (w : Bool) (s : State) : Out := .next (s.atomicC 1 d a b w)
/-- ATCAS (R201). -/
def execAtcas (d a b : BitVec 5) (w : Bool) (s : State) : Out := .next (s.atomicC 2 d a b w)
/-- ATMIN (R201). -/
def execAtmin (d a b : BitVec 5) (w : Bool) (s : State) : Out := .next (s.atomicC 3 d a b w)
/-- ATMAX (R201). -/
def execAtmax (d a b : BitVec 5) (w : Bool) (s : State) : Out := .next (s.atomicC 4 d a b w)
/-- ATMINU (R201). -/
def execAtminu (d a b : BitVec 5) (w : Bool) (s : State) : Out := .next (s.atomicC 5 d a b w)
/-- ATMAXU (R201). -/
def execAtmaxu (d a b : BitVec 5) (w : Bool) (s : State) : Out := .next (s.atomicC 6 d a b w)

/-- ARM (sa) (R202, R129): the read of the line that holds the address, of any alignment. -/
def execArm (a : BitVec 5) (s : State) : Out :=
  .next (s.withCw { rd := true } (s.rs a).toInt 1 1 fun pa =>
    if s.loadRoomC then (s.issueAcc .c 0 .arm [(pa / 64 * 64, 64)]).advance .c 2 else s)

/-- Does WAITE complete (R131): E set, or no ARM since the job's start? An ARM that has not performed will clear E. -/
def waiteReady (j : Job) : Bool :=
  (j.evt || j.mon.isNone) && !j.acc.any fun a => a.kind == .arm
/-- WAITE (R202, R131). -/
def execWaite (s : State) : Out := .next (if waiteReady s.job then s.advance .c 2 else s.waitC .waite)
/-- WAITE_WAKE (R131): the event that a waiting WAITE waits for has come. -/
def execWaiteWake (s : State) : Out :=
  s.when (s.waitingC == some .waite && waiteReady s.job) (s.advance .c 2)

end Sys2Proof.Machine
end

