-- ==== Sys2Proof/Machine/CSync.lean ====
section
/-!
DEFINITION. Sync objects, fences and bindings (R112, R113, R116, R203-R206), control registers (R223, R224, R287, R310, R340), TRAP,
ERET and TLBI (R225, R382).
-/
namespace Sys2Proof.Machine

/-- Is an earlier access unperformed that a release of the C-stream must follow: a store that it covers (R113, R233), an acquire (R114)?
RAGO counts as a store (R340). -/
def State.cStoresOut (s : State) : Bool :=
  s.job.rago || s.job.acc.any fun a =>
    (a.kind.isStore && (a.strm == .c || (a.strm == .a && decide (a.seq < s.job.aSeen)))) ||
      (a.strm == .c && match a.kind with | .acq _ _ => true | _ => false)
/-- May a release of every earlier store of the C-stream take effect at a scope (R113, R128, R233)? -/
def State.releaseReady (s : State) (sc : Scope) : Bool := !s.cStoresOut && !s.postedWait s.me s.job.aSeen sc
/-- Lines lost that a release of the C-stream at a scope waits on (R438): its own, and those of the A-stream that it has seen. -/
def State.lostWithin (s : State) (sc : Scope) (l : Nat × Nat) : Bool :=
  (decide (l.1 < s.job.aSeen) || l.1 == ownLost) && inScope sc s.me l.2
/-- A release of every earlier store of the C-stream (R113): the trap of a lost line, the stall, or the word takes effect. Stores that the
combining buffer holds have reached TXL's home agent as far as any access can tell (R120, R238): a release at system scope writes them. -/
def State.releaseC (s : State) (sc : Scope) (k : State → State) : State :=
  match s.lostTrap .c (s.lostWithin sc) with
  | some t => t
  | none =>
    if s.releaseReady sc then
      k ((if sc = .sys then s.ntFlush s.me fun _ => true else s).released s.me)
    else s

/-- The address of a sync object operand (R203): a cluster-window address, or with V = 1 a virtual one; the word goes on with its
physical address. -/
def State.withObj (s : State) (a : BitVec 5) (v : Bool) (need : Need) (k : Nat → State → State) : State :=
  if v then s.withAccess .c need (s.rs a).toInt 8 8 fun rs s => match rs with | (pa, _) :: _ => k pa s | [] => s
  else s.withCw need (s.rs a).toInt 8 8 fun pa => k pa s

/-- ACQ sd, (sa), scope (R204). -/
def execAcq (d a : BitVec 5) (sc : Scope) (v : Bool) (s : State) : Out :=
  .next (s.withObj a v { rd := true } fun pa s =>
    if s.loadRoomC then (s.issueAcc .c 0 (.acq d.toNat sc) [(pa, 8)]).advance .c 2 else s)

/-- The stores that a release to an object releases under the bindings of now, by number (R112, R113): the C-stream's that it names, and those
that happen before one of them through an earlier release of the job (R118). -/
def State.relDeps (s : State) (all : Bool) (obj : Nat) : List Nat :=
  let own := s.job.acc.filter fun a => a.strm == .c && a.kind.isStore && releases s.job.binds all obj a
  own.map Acc.id ++ own.flatMap (fun a => match a.kind with | .rel ds _ _ => ds | _ => []) ++
    (s.rels.filter fun r => r.core == s.me && r.job == s.job.id).flatMap RelPend.deps
/-- A release store of a value to an object issues (R204, R206): it performs when the stores that it releases and has to follow have (R113,
R117, R128). -/
def State.relStore (s : State) (all : Bool) (sc : Scope) (pa : Nat) (v : W64) : State :=
  match s.lostTrap .c (s.lostWithin sc) with
  | some t => t
  | none =>
    if s.storeRoomC then
      ((s.issueAcc .c 0 (.rel (s.relDeps all pa) s.job.aSeen sc) [(pa, 8)] (bytesOf 8 v.toNat)).advance .c 2).released s.me
    else s

/-- REL sb, (sa), scope (R204). -/
def execRel (a b : BitVec 5) (sc : Scope) (v : Bool) (s : State) : Out :=
  .next (s.withObj a v { w := true } fun pa s => s.relStore false sc pa (s.rs b))

/-- Does FENCE at a scope have to wait (R116, R206): an earlier access of the C-stream within the scope has not performed, or a
posted store that it waits for is not acknowledged (R233)? -/
def State.fenceWaits (s : State) (sc : Scope) : Bool :=
  (s.job.acc.any fun a => a.strm == .c && a.runs.any fun r => inScope sc s.me r.1) ||
  (s.slots.any fun f => f.who == .rago && f.src == s.here.die && f.srcc == s.here.core && inScope sc s.me f.pa) ||
  s.postedWait s.me s.job.aSeen sc

/-- FENCE: the trap of a lost line, the wait, or the word goes on (R116, R438). -/
def State.fenceC (s : State) (sc : Scope) (k : State → State) : State :=
  match s.lostTrap .c (s.lostWithin sc) with
  | some t => t
  | none => if s.fenceWaits sc then s else k (if sc = .sys then s.ntFlush s.me fun _ => true else s)

/-- FENCE scope (R206). -/
def execFence (sc : Scope) (s : State) : Out := .next (s.fenceC sc fun s => s.advance .c 2)
/-- FENCE scope, sb, (sa) (R206): the flag is written as a release of every earlier store. -/
def execFenceFlagged (a b : BitVec 5) (sc : Scope) (v : Bool) (s : State) : Out :=
  .next (s.withObj a v { w := true } fun pa s => s.fenceC sc fun s => s.relStore true sc pa (s.rs b))

/-- Physical pieces of a cluster-window range (R205, R82): one for each slice it touches. -/
def cwPieces (s : State) (x n : Nat) : Nat → List (Nat × Nat)
  | 0 => []
  | fuel + 1 =>
    if n = 0 then []
    else
      let k := min n (2 ^ 22 - x % 2 ^ 22)
      (s.winPa x, k) :: cwPieces s (x + k) (n - k) fuel
/-- Adjoining physical pieces become one (R205). -/
def joinPieces : List (Nat × Nat) → List (Nat × Nat)
  | [] => []
  | (pa, n) :: t =>
    match joinPieces t with
    | (pb, m) :: u => if pa + n = pb then (pa, n + m) :: u else (pa, n) :: (pb, m) :: u
    | [] => [(pa, n)]
/-- The bindings of a job after BIND of pieces to an object (R112): older bindings of other objects that a piece overlaps are removed,
and the last 16 stay. -/
def bindPieces (obj : Nat) (ps : List (Nat × Nat)) (bs : List Binding) : List Binding :=
  let new := ps.map fun p => ({ lo := p.1 / 64 * 64, hi := (p.1 + p.2 + 63) / 64 * 64, obj := obj } : Binding)
  let kept := bs.filter fun b => b.obj == obj || !(new.any fun p => decide (p.lo < b.hi) && decide (b.lo < p.hi))
  let all := kept ++ new
  all.drop (all.length - 16)
/-- BIND with its object's address known. -/
def State.bindRange (s : State) (obj : Nat) (v : Bool) (start : Int) (len : Nat) : State :=
  let done : List (Nat × Nat) → State → State := fun ps s =>
    (s.onJob fun j => { j with binds := bindPieces obj (joinPieces ps) j.binds }).advance .c 2
  if len = 0 then (s.onJob fun j => { j with binds := j.binds.filter fun b => b.obj != obj }).advance .c 2
  else if v then
    match s.xlateRange { none := true } start len with
    | (.bad c a, s) => s.trapC 1 c a
    | (.park m a, s) => s.parkAt .c 1 a m { none := true } (pageSplit start.toNat len (len / 8192 + 2))
    | (.ok rs, s) => done rs s
  else if start < 0 then s.trapC 1 0 (start % 2 ^ 64).toNat
  else
    let x := start.toNat
    if 192 * 2 ^ 22 < x + len then s.trapC 1 0 (max x (192 * 2 ^ 22) % 2 ^ 64) else done (cwPieces s x len 193) s

/-- BIND sd, sb, (sa) (R205, R112): nothing is accessed, so that no permission and no motion counts, only where the addresses lead. The
object's address may be of any alignment: Table 8-2 does not list BIND. A length above 2^32 comes before an object or range that is out of range
or fails translation: R190 puts all of them under the access fault, and neither it nor R205 says which code wins (the model's choices: log
entry 14). -/
def execBind (d a b : BitVec 5) (v : Bool) (s : State) : Out :=
  let len := (s.rs d).toNat
  let o := (s.rs a).toInt
  .next (
    if 2 ^ 32 < len then s.trapC 1 11 ((s.rs b).toNat)
    else if v then
      match s.xlateRange { none := true } o 1 with
      | (.bad c x, s) => s.trapC 1 c x
      | (.park m x, s) => s.parkAt .c 1 x m { none := true } [(o.toNat, 1)]
      | (.ok rs, s) => match rs with | (pa, _) :: _ => s.bindRange pa v (s.rs b).toInt len | [] => s
    else if o < 0 || 192 * 2 ^ 22 ≤ o then s.trapC 1 0 (o % 2 ^ 64).toNat
    else s.bindRange (s.winPa o.toNat) v (s.rs b).toInt len)

/-- A CRR of a register that neither waits nor stops, at the level it needs (R223). -/
def State.crrC (s : State) (d : BitVec 5) (a : Nat) : State :=
  if levelOk (crrLevel a) s.job.sup then
    let (v, s) := s.ctlReadRc s.me a
    (s.setRs d v).advance .c 2
  else s.trapC 1 6
/-- A CRW at the level its register needs (R223): the effect is f of the value written. -/
def State.crwC (s : State) (d : BitVec 5) (a : Nat) (f : W64 → State) : State :=
  if levelOk (crwLevel a) s.job.sup then f (s.rs d) else s.trapC 1 6
/-- The end of a CRW whose write may be refused with a trap, at an address where the class has one (R402). -/
def State.crwTry (s : State) (e : Except (Nat × Nat) State) (addr : Nat := 0) : State :=
  match e with
  | .ok t => t.advance .c 2
  | .error (c, k) => s.trapC c k addr

/-- CRR sd, creg (R223). -/
def execCrr (d : BitVec 5) (c : BitVec 12) (s : State) : Out := .next (s.crrC d c.toNat)
/-- CRW creg, sd (R223). -/
def execCrw (d : BitVec 5) (c : BitVec 12) (s : State) : Out :=
  .next (s.crwC d c.toNat fun v => (s.ctlWrite s.me c.toNat v).advance .c 2)
/-- CRR of SCRCFG returns and clears CCNT and UCNT (R426). -/
def execScrcfgRead (d : BitVec 5) (s : State) : Out := .next (s.crrC d 0x318)
/-- CRR of DCNT returns the pair of event counters and clears it (R454). -/
def execDcnt (d : BitVec 5) (hi : Bool) (s : State) : Out := .next (s.crrC d (if hi then 0x31D else 0x31C))

/-- What the A-stream had stored before the signals of the semaphores that a mask names (R118, R233). -/
def seenBy (t : Sp Nat) (mask : Nat) : Nat := (upFrom 0 8).foldl (fun m k => if mask.testBit k then max m (spGet 0 t k) else m) 0
/-- CRW of MSWAIT waits until every masked semaphore is at least 1 and takes 1 from each (R287), an acquire of what their signals
carry (R113, R233). -/
def execMswait (d : BitVec 5) (s : State) : Out :=
  .next (s.crwC d 0x004 fun v =>
    let m := fieldOf v 0 8
    if countsReady s.job.sem m 8 then
      (s.onJob fun j => { j with sem := takeCounts j.sem m 8, aSeen := max j.aSeen (seenBy j.mseen m) }).advance .c 2
    else s)
/-- CRW of MSSIG adds 1 to every masked semaphore, as a release at core scope (R287). -/
def execMssig (d : BitVec 5) (s : State) : Out :=
  .next (s.crwC d 0x005 fun v => s.releaseC .core fun s =>
    (s.onJob fun j => { j with sem := bumpCounts j.sem (fieldOf v 0 8) 8 }).advance .c 2)
/-- CRW of XEVWAIT waits until every masked event count is at least 1 and takes 1 from each (R310). -/
def execXevwait (d : BitVec 5) (s : State) : Out :=
  .next (s.crwC d 0x008 fun v =>
    let m := fieldOf v 0 16
    let c := s.clusterAt s.myCl
    if countsReady c.ev m 16 then (s.onCluster s.myCl fun c => { c with ev := takeCounts c.ev m 16 }).advance .c 2 else s)
/-- CRW of XEVSIG adds 1 to every masked event count, as a release at cluster scope (R310). -/
def execXevsig (d : BitVec 5) (s : State) : Out :=
  .next (s.crwC d 0x009 fun v => s.releaseC .cluster fun s =>
    (s.onCluster s.myCl fun c => { c with ev := bumpCounts c.ev (fieldOf v 0 16) 16 }).advance .c 2)

/-- The slot of a remote atomic (R340): op and width in OPX, the operand and the expected value as its data. -/
def ragoSlot (s : State) (op n pa : Nat) : FSlot :=
  { kind := 4, dst := paDie pa, dstc := paCore pa, src := s.here.die, srcc := s.here.core, job := s.job.id,
    opx := op * 2 + (if n = 8 then 1 else 0), pa := pa, len := n, who := .rago,
    data := bytesOf 8 s.job.raopnd.toNat ++ bytesOf 8 s.job.racmp.toNat }

/-- CRW of RAGO starts one remote atomic (R340, R341). -/
def execRago (d : BitVec 5) (s : State) : Out :=
  .next (s.crwC d 0x00C fun v =>
    let n := if bitOf v 56 then 8 else 4
    let op := fieldOf v 53 3
    let va := fieldOf v 0 53
    if va % n != 0 then
      match s.xlate { none := true } va 1 with
      | (.ok pa, s) => if paSpace pa != 0 then s.trapC 1 2 va else s.trapC 2 4 va
      | (.bad c, s) => if c = 2 then s.trapC 1 2 va else s.trapC 2 4 va
      | (_, s) => s.trapC 2 4 va
    else s.withAccess .c { rd := true, w := true } va n n fun rs s =>
      match rs with
      | (pa, _) :: _ =>
        if paSpace pa != 0 then s.trapC 1 2 va
        else if op = 7 then s.trapC 3 6
        else if s.job.rago || (s.job.acc.any fun a => a.strm == .c && (runsMeet a.runs [(pa, n)] ||
            match a.kind with | .acq _ _ => true | _ => false)) then s
        else ((s.inject (ragoSlot s op n pa)).onJob fun j => { j with rago := true, rafail := none }).advance .c 2
      | [] => s)
/-- CRR of RARES waits until the result of the last RAGO has arrived and returns it; a failure notice that came instead traps here
(R340, R438). -/
def execRares (d : BitVec 5) (s : State) : Out :=
  .next (
    if s.job.rago then s
    else
      match s.job.rafail with
      | some a => (s.onJob fun j => { j with rafail := none }).trapC 7 3 a
      | none => (s.setRs d s.job.rares).advance .c 2)

/-- The head of the scalar queue leaves it into sd (R245): it carries what the A-stream had stored before its push. -/
def State.popSq (s : State) (d : BitVec 5) : Option State :=
  match s.job.sq with
  | e :: t =>
    match e.data with
    | some v => some (((s.onJob fun j => { j with sq := t, aSeen := max j.aSeen e.seen }).setRs d v).advance .c 2)
    | none => none
  | [] => none
/-- CRR of SQ pops the scalar queue, and waits while its head has not entered (R245). -/
def execSq (d : BitVec 5) (s : State) : Out := .next ((s.popSq d).getD (s.waitC (.sq d)))

/-- CRW of CNOPEN takes a coordinator place and issues a handle (R363). -/
def execCnopen (d : BitVec 5) (s : State) : Out := .next (s.crwC d 0x00F fun v => s.crwTry (s.cnOpen s.me v) (fieldOf v 0 56))
/-- CRW of CNCUR (R364). -/
def execCncur (d : BitVec 5) (s : State) : Out := .next (s.crwC d 0x00E fun v => s.crwTry (s.cnCur s.me v))
/-- CRW of CNBIND (R373). -/
def execCnbind (d : BitVec 5) (s : State) : Out := .next (s.crwC d 0x010 fun v => s.crwTry (s.cnBind s.me v))
/-- CRW of RQFIN finishes a request slot (R75). -/
def execRqfin (d : BitVec 5) (s : State) : Out :=
  .next (s.crwC d 0x012 fun v => (s.rqfin s.here.die (fieldOf v 0 8)).advance .c 2)
/-- CRW of CQCFG gives the cluster its record queues (R29). -/
def execCqcfgWrite (d : BitVec 5) (s : State) : Out := .next (s.crwC d 0x200 fun v => (s.cqcfg s.myCl v).advance .c 2)
/-- CRW of RSTTLEN (R59). -/
def execRsttlenWrite (d : BitVec 5) (s : State) : Out :=
  .next (s.crwC d 0x304 fun v => (s.rsttlen s.here.die v).advance .c 2)
/-- CRW of MDCFG (R100). -/
def execMdcfgWrite (d : BitVec 5) (s : State) : Out := .next (s.crwC d 0x305 fun v => (s.mdcfg s.here.die v).advance .c 2)
/-- CRW of KVCFG (R100). -/
def execKvcfgWrite (d : BitVec 5) (s : State) : Out := .next (s.crwC d 0x306 fun v => (s.kvcfg s.here.die v).advance .c 2)
/-- CRW of MNQ's upper half, with CI (R423). -/
def execMnqCiWrite (d : BitVec 5) (s : State) : Out := .next (s.crwC d 0x30D fun v => (s.mnqCi s.here.die v).advance .c 2)
/-- CRW of WLOAD's upper half starts a segment reload (R433). -/
def execWload (d : BitVec 5) (s : State) : Out := .next (s.crwC d 0x31B fun v => (s.wload s.here.die v).advance .c 2)
/-- CRW of THERM clears TMAX (R455). -/
def execTherm (d : BitVec 5) (s : State) : Out := .next (s.crwC d 0x31E fun _ => (s.therm s.here.die).advance .c 2)

/-- TRAP code raises the explicit TRAP class (R225). -/
def execTrap (c : BitVec 6) (s : State) : Out := .next (s.trapC 9 c.toNat)

/-- A supervisor form at job privilege raises the encoding trap (R190, R225). -/
def State.supC (s : State) (t : State) : State := if s.job.sup then t else s.trapC 0 7

/-- Removes entries from the core's TLB and from the die translation cache (R225). -/
def State.tlbDrop (s : State) (p : TlbEnt → Bool) : State :=
  (s.onCore s.me fun k => { k with tlb := k.tlb.filter fun t => !p t }).onDie s.here.die fun d =>
    { d with tcache := d.tcache.filter fun t => !p t }
/-- TLBI sa, 0: the page that holds s[sa] under the current ASID (R225). -/
def execTlbiPage (a : BitVec 5) (s : State) : Out :=
  .next (s.supC ((s.tlbDrop fun t => t.covers (fieldOf s.core.troot 52 12) (s.rs a).toNat).advance .c 2))
/-- TLBI sa, 1: every entry of ASID s[sa][11:0] (R225); entries of global leaves carry no ASID (R88). -/
def execTlbiAsid (a : BitVec 5) (s : State) : Out :=
  .next (s.supC ((s.tlbDrop fun t => !t.glob && t.asid == fieldOf (s.rs a) 0 12).advance .c 2))
/-- TLBI sa, 2: every entry (R225). -/
def execTlbiAll (_a : BitVec 5) (s : State) : Out := .next (s.supC ((s.tlbDrop fun _ => true).advance .c 2))

/-- The checks of a join object that the end of a job decrements by JOINA (R43, R82, R192). -/
def joinaBad (s : State) (n : Nat) : Option (Nat × Nat × Nat) :=
  let x := (s.coreAt n).job.src.r.joina
  if x = noJoin then none
  else if 192 * 2 ^ 22 ≤ x then some (1, 0, x)
  else if x % 64 != 0 then some (2, 0, x)
  else none

/-- Lines lost that the end of a job waits on (R438): every one. -/
def State.endWaits (s : State) (k : State → State) : State :=
  match s.lostTrap .c fun _ => true with
  | some t => t
  | none => k s

/-- ERET form (R382): ends the supervisor job as EXIT does and resumes the context held at CTXP. -/
def State.eret (s : State) (form1 : Bool) : State :=
  s.supC (
    match s.core.heldHere with
    | none => s.trapC 3 7
    | some h =>
      match joinaBad s s.me with
      | some (c, k, x) => s.trapC c k x
      | none => s.endWaits fun s =>
        if exitReady s s.me then s.endJoins none fun s =>
          let p := s.core.preq
          let s := (((s.released s.me).exitJoins s.me none).endJob s.me).resume form1 h
          s.onCore s.me fun k => { k with preq := p }
        else s)
/-- ERET 0, return (R382): goes on at the word after the trapping word. -/
def execEretReturn (s : State) : Out := .next (s.eret false)
/-- ERET 1, resume (R382, R54): issues the trapping word again. -/
def execEretResume (s : State) : Out := .next (s.eret true)

end Sys2Proof.Machine
end

