-- ==== Sys2Proof/Machine/CRing.lean ====
section
/-!
DEFINITION. Hardware rings (R207-R211): the header, the conditions that forms wait for, and their effects. Every form acts on the
header in one step.
-/
namespace Sys2Proof.Machine

/-- Fields of a ring header (Table 8-5), from its 256 bytes. -/
def hCfg (h : List Byte) : Nat := ofBytes (h.take 8)
def hScope (h : List Byte) : Scope := (scopeOf (BitVec.ofNat 3 (bitsAt (hCfg h) 53 3))).getD .sys
def hEos (h : List Byte) : Bool := (hCfg h).testBit 52
def hNcons (h : List Byte) : Nat := bitsAt (hCfg h) 44 5
def hN (h : List Byte) : Nat := 2 ^ bitsAt (hCfg h) 40 4
def hZ (h : List Byte) : Nat := (bitsAt (hCfg h) 56 8 + 1) * 64
def hData (h : List Byte) : Nat := bitsAt (hCfg h) 0 32
/-- A 32-bit count of a header at a byte offset: CLAIM 8, PUB 12, EOSAT 16, TAKE[j] 64 + 4 j, FREE[j] 128 + 4 j. -/
def hCount (h : List Byte) (o : Nat) : Nat := ofBytes ((h.drop o).take 4)
/-- READY bit k. -/
def hReady (h : List Byte) (k : Nat) : Bool := (ofBytes ((h.drop 32).take 32)).testBit k
/-- behind(x, y) of R209. -/
def behind (x y : Nat) : Nat := (x + 2 ^ 32 - y) % 2 ^ 32
/-- slot_addr(c) of R209. -/
def slotAddr (h : List Byte) (c : Nat) : Nat := hData h + c % hN h * hZ h
/-- A header with bytes replaced. -/
def hPut (h : List Byte) (o n v : Nat) : List Byte := splice h o (bytesOf n v)

/-- Is s[sb] a good configuration for RINIT (R209)? -/
def rinitOk (c : W64) : Bool :=
  let n := 2 ^ fieldOf c 40 4
  let z := (fieldOf c 56 8 + 1) * 64
  let data := fieldOf c 0 32
  decide (fieldOf c 44 5 ≤ 16) && decide (fieldOf c 40 4 ≤ 8) && decide (fieldOf c 53 3 ≤ 5) && fieldOf c 49 3 == 0 &&
  fieldOf c 32 8 == 0 && data % 64 == 0 && decide (data / 2 ^ 22 < 192) && decide (data % 2 ^ 22 + n * z ≤ 2 ^ 22)

/-- What a ring form does at its header: wait, raise the schedule fault, or write the header and deliver a value. -/
inductive RingRes where
  | wait
  | bad
  | go (h : List Byte) (d : Option W64)
  deriving DecidableEq, Repr

/-- RCLAIM (R209). -/
def ringClaim (h : List Byte) : RingRes :=
  let cl := hCount h 8
  if hEos h then .go h (some 0)
  else if decide (behind cl (hCount h 12) < hN h) &&
      ((upFrom 0 (hNcons h)).all fun j => decide (behind cl (hCount h (128 + 4 * j)) < hN h)) then
    .go (hPut h 8 4 (cl + 1)) (some (BitVec.ofNat 64 (slotAddr h cl)))
  else .wait
/-- PUB advances over published slots (R209). -/
def ringPubs (h : List Byte) : Nat → List Byte
  | 0 => h
  | n + 1 =>
    let p := hCount h 12
    let k := p % hN h
    if p != hCount h 8 && hReady h k then
      ringPubs (hPut (hPut h 32 32 (ofBytes ((h.drop 32).take 32) - 2 ^ k)) 12 4 (p + 1)) n
    else h
/-- The slot that an address names, if it is claimed and not yet counted in PUB (R209). -/
def pubSlot (h : List Byte) (x : Nat) : Option Nat :=
  let d := x - hData h
  let k := d / hZ h
  let p := hCount h 12
  if decide (hData h ≤ x) && d % hZ h == 0 && decide (k < hN h) &&
      decide ((k + hN h - p % hN h) % hN h < behind (hCount h 8) p) then some k else none
/-- RPUB of an address (R209). -/
def ringPub (h : List Byte) (x : W64) : RingRes :=
  match pubSlot h x.toNat with
  | some k =>
    if hReady h k then .bad else .go (ringPubs (hPut h 32 32 (ofBytes ((h.drop 32).take 32) + 2 ^ k)) 257) none
  | none => .bad
/-- RWFILL to a target (R209). -/
def ringFill (h : List Byte) (x : W64) : RingRes :=
  if behind (hCount h 12) (fieldOf x 0 32) < 2 ^ 31 then .go h none else .wait
/-- RTAKE for a consumer (R209). -/
def ringTake (h : List Byte) (x : W64) : RingRes :=
  let j := x.toNat
  if hNcons h ≤ j then .bad
  else
    let t := hCount h (64 + 4 * j)
    if t != hCount h 12 then .go (hPut h (64 + 4 * j) 4 (t + 1)) (some (BitVec.ofNat 64 (slotAddr h t)))
    else if hEos h then .go h (some 0)
    else .wait
/-- RWFREE for a consumer (R209). -/
def ringFree (h : List Byte) (x : W64) : RingRes :=
  let j := x.toNat
  if hNcons h ≤ j then .bad
  else
    let f := hCount h (128 + 4 * j)
    if f = hCount h (64 + 4 * j) then .bad else .go (hPut h (128 + 4 * j) 4 (f + 1)) none
/-- REOS (R209). -/
def ringEos (h : List Byte) : RingRes :=
  if hCount h 12 != hCount h 8 then .wait
  else if hEos h then .go h none
  else .go (hPut (hPut h 0 8 (hCfg h + 2 ^ 52)) 16 4 (hCount h 12)) none

/-- Does an earlier access of the C-stream hold a ring word back (R114, R207, R210): an acquire, a store, one that touches the header;
for RWFREE any access? -/
def State.ringHeld (s : State) (pa : Nat) (all : Bool) : Bool :=
  s.job.rago || s.job.acc.any fun a => a.strm == .c && (all || a.kind.isStore || runsMeet a.runs [(pa, 256)] ||
    match a.kind with | .acq _ _ => true | _ => false)

/-- What a ring word writes into its header is one write of the bytes that change: line by line, so that a monitor sees only the
lines written (R130). -/
def State.putHeader (s : State) (pa : Nat) (old new : List Byte) : State :=
  each (fun l s =>
    let o := (old.drop (64 * l)).take 64
    let w := (new.drop (64 * l)).take 64
    if o == w then s else s.store (pa + 64 * l) w) (upFrom 0 4) s

/-- A ring word on its header (R207-R210): its checks, what earlier accesses hold back, then f of the header. A release form also waits
as a release at the ring's scope. What waits is f's to say. It counts as a load and as a store (Table 8-1). -/
def State.ring (s : State) (a : BitVec 5) (rel all : Bool) (d : Option (BitVec 5)) (i : Instr) (f : List Byte → RingRes) : State :=
  s.withCw { rd := true, w := true } (s.rs a).toInt 256 256 fun pa =>
    if s.ringHeld pa all then s
    else
      match s.readMem s.here.die pa 256 with
      | (.error w, s) => s.discardJob s.me w
      | (.ok h, s) =>
        match f h with
        | .bad => s.trapC 3 2
        | .wait => s.waitC i
        | .go h' v =>
          if !(s.loadRoomC && s.storeRoomC) then s else
          let done : State → State := fun s =>
            let s := s.putHeader pa h h'
            (match d, v with | some d, some v => s.setRs d v | _, _ => s).advance .c 2
          if rel then s.releaseC (hScope h) done else done s

/-- RINIT sb, (sa) (R209): the header is written whole. -/
def execRinit (a b : BitVec 5) (s : State) : Out :=
  .next (s.withCw { rd := true, w := true } (s.rs a).toInt 256 256 fun pa =>
    let c := s.rs b
    if !rinitOk c then s.trapC 3 2
    else if s.ringHeld pa false || !(s.loadRoomC && s.storeRoomC) then s
    else (s.store pa (padTo 256 (bytesOf 8 (c.toNat - (if bitOf c 52 then 2 ^ 52 else 0))))).advance .c 2)
/-- RCLAIM sd, (sa) (R209). -/
def execRclaim (d a : BitVec 5) (s : State) : Out := .next (s.ring a false false (some d) (.rclaim d a) ringClaim)
/-- RPUB sb, (sa) (R209, R210). -/
def execRpub (a b : BitVec 5) (s : State) : Out :=
  .next (s.ring a true false none (.rpub a b) fun h => ringPub h (s.rs b))
/-- RWFILL sb, (sa) (R209). -/
def execRwfill (a b : BitVec 5) (s : State) : Out :=
  .next (s.ring a false false none (.rwfill a b) fun h => ringFill h (s.rs b))
/-- RTAKE sd, sb, (sa) (R209). -/
def execRtake (d a b : BitVec 5) (s : State) : Out :=
  .next (s.ring a false false (some d) (.rtake d a b) fun h => ringTake h (s.rs b))
/-- RWFREE sb, (sa) (R209, R210). -/
def execRwfree (a b : BitVec 5) (s : State) : Out :=
  .next (s.ring a true true none (.rwfree a b) fun h => ringFree h (s.rs b))
/-- REOS (sa) (R209). -/
def execReos (a : BitVec 5) (s : State) : Out := .next (s.ring a false false none (.reos a) ringEos)

/-- RING_WAIT_COMPLETE (R209): a waiting ring word acts on a header that now satisfies it. -/
def execRingWaitComplete (s : State) : Out :=
  .next (
    match s.waitingC with
    | some (.rclaim d a) => s.ring a false false (some d) (.rclaim d a) ringClaim
    | some (.rwfill a b) => s.ring a false false none (.rwfill a b) fun h => ringFill h (s.rs b)
    | some (.rtake d a b) => s.ring a false false (some d) (.rtake d a b) fun h => ringTake h (s.rs b)
    | some (.reos a) => s.ring a false false none (.reos a) ringEos
    | _ => s)

end Sys2Proof.Machine
end

