-- ==== Sys2Proof/Machine/CJob.lean ====
section
/-!
DEFINITION. Job control (R42-R47, R213-R217), records entering and leaving the queues (R30-R34, R39), windows (R386), the launch
schedule (R48, R49, R457), pre-emption (R51, R55), block fetch (R158-R164).
-/
namespace Sys2Proof.Machine

/-- Has every earlier access of the C-stream that a read or write of runs must follow performed (R114)? -/
def State.runsFree (s : State) (rs : List (Nat × Nat)) : Bool :=
  !(s.slots.any fun f => f.who == .rago && f.src == s.here.die && f.srcc == s.here.core && runsMeet rs [(f.pa, f.len)]) &&
  !(s.job.acc.any fun a => a.strm == .c && (runsMeet a.runs rs || match a.kind with | .acq _ _ => true | _ => false))

/-- The checks of a join object named by a record (R82, R192). -/
def joinObjBad (x : Nat) : Option (Nat × Nat) :=
  if x = noJoin then none
  else if 192 * 2 ^ 22 ≤ x then some (1, 0)
  else if x % 64 != 0 then some (2, 0)
  else none

/-- SPAWN (sa) (R213, R46): its checks come before its waits (R190). -/
def execSpawn (a : BitVec 5) (s : State) : Out :=
  .next (s.withCw { rd := true } (s.rs a).toInt 32 32 fun pa =>
    if !s.runsFree [(pa, 32)] then s
    else
      match s.readMem s.here.die pa 32 with
      | (.error w, s) => s.discardJob s.me w
      | (.ok bs, s) =>
        let r := recOf bs
        if (recBroken r).isSome then s.trapC 3 3
        else
          match joinObjBad r.joina with
          | some (c, k) => s.trapC c k r.joina
          | none =>
            if (s.clusterAt s.myCl).fullO r.prio then s
            else s.releaseC .cluster fun s =>
              let obj := if r.joina = noJoin then none else some (s.winPa r.joina)
              if let some w := obj.bind fun pa => s.badIn pa 8 then (s.metBad (paDie w)).discardJob s.me w else
              let s := obj.elim s s.incJoin
              (s.enqueue s.myCl { r := r, sup := s.job.sup, path := 6 }).advance .c 2)

/-- JOIN (sa), sb (R214, R45): each check covers both operands before the next (R190). -/
def execJoin (a b : BitVec 5) (s : State) : Out :=
  let obj := s.winPa (s.rs a).toInt.toNat
  let pa := s.winPa (s.rs b).toInt.toNat
  .next (match s.cwAll [{ need := { w := true }, ea := (s.rs a).toInt, n := 64, al := 64 },
      { need := { rd := true }, ea := (s.rs b).toInt, n := 32, al := 32 }] with
  | some (c, k, x) => s.trapC c k x
  | none =>
    if !s.runsFree [(obj, 64), (pa, 32)] then s
    else
      match s.readMem s.here.die pa 32 with
      | (.error w, s) => s.discardJob s.me w
      | (.ok bs, s) => ((s.store64 obj 1).store (obj + 32) bs).advance .c 2)

/-- RDV (R42, R215): the rendezvous is complete on the ck on which its condition holds, at the earliest as it issues. -/
def execRdv (s : State) : Out := .next (s.waitC .rdv)
/-- The C-stream continues past a word that completed a rendezvous, and each stopped stream into its block (R42). -/
def State.rdvDone (s : State) : State :=
  (s.onJob fun j => { j with a := j.a.resumeStop, v := j.v.resumeStop }).advance .c 2
/-- RDV_COMPLETE (R42). -/
def execRdvComplete (s : State) : Out := s.when (s.waitingC == some .rdv && rdvReady s s.me) s.rdvDone

/-- The join object that EXIT's operand names (R215): none for 0; the checks of the address else. -/
def exitObj (s : State) (a : BitVec 5) : Except (Nat × Nat × Nat) (Option Nat) :=
  if s.rs a = 0 then .ok none
  else match s.cw { rd := true, w := true } (s.rs a).toInt 64 64 with
    | .ok pa => .ok (some pa)
    | .error e => .error e
/-- EXIT (sa) (R215, R43): the checks; then it waits for its ending step. -/
def execExit (a : BitVec 5) (s : State) : Out :=
  .next (
    match exitObj s a with
    | .error (c, k, x) => s.trapC c k x
    | .ok _ =>
      match joinaBad s s.me with
      | some (c, k, x) => s.trapC c k x
      | none => s.endWaits fun s => s.waitC (.exit a))
/-- EXIT_END (R43): the release, the decrements of the join objects, the region is free, the core idle. -/
def execExitEnd (s : State) : Out :=
  .next (
    match s.waitingC with
    | some (.exit a) =>
      if exitReady s s.me then
        s.endWaits fun s =>
          let obj := match exitObj s a with | .ok o => o | .error _ => none
          s.endJoins obj fun s => ((s.released s.me).exitJoins s.me obj).endJob s.me
      else s
    | _ => s)

/-- YIELD sa (R216, R44): the checks of the new CODE; then it waits. -/
def execYield (a : BitVec 5) (s : State) : Out :=
  let v := s.rs a
  .next (
    if fieldOf v 48 16 != 0 then s.trapC 1 8 v.toNat
    else if fieldOf v 0 2 != 0 then s.trapC 2 1 v.toNat
    else s.endWaits fun s => s.waitC (.yield a))
/-- The record that YIELD pushes (R44). -/
def yieldRec (s : State) (a : BitVec 5) : Rec :=
  let r := s.job.src.r
  { r with d0 := setField r.d0 0 48 (s.rs a).toNat, d1 := setField r.d1 0 53 (s.rs 30).toNat }
/-- YIELD_END (R44, R31): the wait of RDV and a place at its level are over. -/
def execYieldEnd (s : State) : Out :=
  .next (
    match s.waitingC with
    | some (.yield a) =>
      let r := yieldRec s a
      if exitReady s s.me && !(s.clusterAt s.myCl).fullO r.prio then
        s.endWaits fun s =>
          let s := s.released s.me
          let s := match recBroken r with
            | some sub => s.recErr s.here.die s.here.core sub 4 r
            | none => s.enqueue s.myCl { r := r, sup := s.job.sup, path := 4 }
          s.endJob s.me
      else s
    | _ => s)

/-- SEGW delivers the tag of an open frame that matches (R79, R217). -/
def State.segwTry (s : State) (d a b : BitVec 5) : Option State :=
  (matchFrame (s.dieAt s.here.die) ((s.rs a).setWidth 32) ((s.rs b).setWidth 32)).map fun t =>
    (s.setRs d (t.setWidth 64)).advance .c 2
/-- SEGW sd, sa, sb (R79, R217). -/
def execSegw (d a b : BitVec 5) (s : State) : Out := .next ((s.segwTry d a b).getD (s.waitC (.segw d a b)))
/-- SEGW_COMPLETE (R79): a matching frame is open. -/
def execSegwComplete (s : State) : Out :=
  .next (match s.waitingC with | some (.segw d a b) => (s.segwTry d a b).getD s | _ => s)

/-- Does a record's region exceed the job area of every core that may run it (R39)? -/
def neverFits (s : State) (cl : Nat) (q : QRec) : Bool :=
  let cs := if q.r.afv then [q.r.afcore] else upFrom 0 192
  cs.all fun c =>
    let n := cid (cl / 2) (192 * (cl % 2) + c)
    match entryOf s n q with
    | .ok k _ _ _ _ => decide (fieldOf ((s.coreAt n).reg 0x102) 8 7 < 2 ^ k)
    | _ => false
/-- The position of the record of a level with the earliest push tick. -/
def firstPush : List QRec → Nat → Option (Nat × W64) → Option (Nat × W64)
  | [], _, b => b
  | q :: t, i, b =>
    firstPush t (i + 1) (match b with | some (_, k) => if q.push < k then some (i, q.push) else b | none => some (i, q.push))
/-- Removes from a level the records that stand first and fit no core (R39). -/
def State.pruneLevel (s : State) (cl l : Nat) : Nat → State
  | 0 => s
  | n + 1 =>
    match firstPush ((s.clusterAt cl).lvl l) 0 none with
    | some (i, _) =>
      match ((s.clusterAt cl).lvl l)[i]? with
      | some q =>
        if neverFits s cl q then ((s.unqueue cl l i).recErr (cl / 2) noCore 7 q.path q.r).pruneLevel cl l n else s
      | none => s
    | none => s
/-- Does the same for every level of a cluster. -/
def State.prune (s : State) (cl : Nat) : State :=
  each (fun l s => s.pruneLevel cl l ((s.clusterAt cl).lvl l).length) (upFrom 0 8) s

/-- An idle core takes the record that it chooses from its cluster's levels (R33). -/
def State.takeRec (s : State) : State :=
  match chooseRec s s.me with
  | none => s
  | some p =>
    ((s.clusterAt s.myCl).lvl p.1)[p.2]?.elim s fun q => (s.unqueue s.myCl p.1 p.2).startRec s.me q none
/-- JOB_TAKE (R33, R39, R40): an idle core takes its next record, or starts one that it holds. Records that stand first and never fit are
removed, also while the core is not idle. -/
def execJobTake (s : State) : Out :=
  .next (
    if s.job.live then s.prune s.myCl
    else
      match s.core.taken with
      | some (q, none) => s.startRec s.me q none
      | some (_, some _) => s
      | none => (s.prune s.myCl).takeRec)

/-- Is a record due for promotion (R34)? -/
def promoDue (t : W64) (q : QRec) : Bool := decide (q.clk.toNat + 64000 ≤ t.toNat)
/-- RECORD_PROMOTION (R34): record k of level lvl of a cluster of the die; waiting promotions enter in order of push tick. One that stands
first and never fits is removed instead (R39). -/
def execRecordPromotion (s : State) : Out :=
  let cl := 2 * s.here.die + s.here.cl
  let l := s.here.lvl
  let c := s.clusterAt cl
  let t := s.tickOf s.here.die
  .next (
    match (c.lvl l)[s.here.k]? with
    | some q =>
      if decide (l < 7) && promoDue t q && !c.fullO (l + 1) && (c.lvl l).all fun x => !promoDue t x || decide (q.push ≤ x.push) then
        if (firstPush (c.lvl l) 0 none).any fun p => p.1 == s.here.k && neverFits s cl q then s.pruneLevel cl l (c.lvl l).length
        else (s.unqueue cl l s.here.k).enter cl (l + 1) { q with clk := t }
      else s
    | none => s)

/-- HELD_PUSH_ENTRY (R31, R32, R34): the first held push of a level enters when it has a place; reserved paths first, and a due
promotion ahead of the held pushes of R31. -/
def execHeldPushEntry (s : State) : Out :=
  let cl := 2 * s.here.die + s.here.cl
  let l := s.here.lvl
  let c := s.clusterAt cl
  let t := s.tickOf s.here.die
  .next (
    match spGet [] c.heldR l, c.fullR l with
    | q :: rest, false => (s.onCluster cl fun c => { c with heldR := spSet c.heldR l rest }).enqueue cl q
    | _, _ =>
      match spGet [] c.heldO l with
      | q :: rest =>
        if c.fullO l || (decide (0 < l) && (c.lvl (l - 1)).any (promoDue t)) then s
        else (s.onCluster cl fun c => { c with heldO := spSet c.heldO l rest }).enqueue cl q
      | [] => s)

/-- RECORD_WINDOW_STORE (R30, R386): the companion stores a record to the window of cluster cl of the die, once it may reach more of the die
than its mailbox (R392). -/
def execRecordWindowStore (s : State) : Out :=
  s.when (s.dieAt s.here.die).released (s.recordStore s.here.die s.here.cl true s.here.job)
/-- ADMISSION_WINDOW_STORE (R74, R386): the companion stores an admission record. -/
def execAdmissionWindowStore (s : State) : Out := s.when (s.dieAt s.here.die).released (s.admStore s.here.die s.here.adm)
/-- ADMISSION_HELD_ENTRY (R74): a held admission store enters the queue when it has a place. -/
def execAdmissionHeldEntry (s : State) : Out :=
  let d := s.dieAt s.here.die
  .next (
    match d.admHeld with
    | r :: rest =>
      if d.adm.length < 1024 then (s.onDie s.here.die fun d => { d with admHeld := rest }).admitRecord s.here.die r else s
    | [] => s)
/-- ALLOCATION_WINDOW_READ (R101): the companion's read takes a frame and a metadata index for a slot. -/
def execAllocationWindowRead (s : State) : Out := s.when (s.dieAt s.here.die).released (s.alloc s.here.die s.here.slot).2

/-- The doublewords of a launch schedule entry (Table 2-7). -/
def launchPa (die e : Nat) : Nat := ctlPa die (0x20000 + 64 * e)
/-- Is a launch entry armed and due (R49)? -/
def launchDue (s : State) (die e : Nat) : Bool :=
  bitOf (s.peek64 (launchPa die e + 8)) 63 && decide (s.peek64 (launchPa die e) ≤ s.tickOf die)
/-- A launch entry pushes its record for one core (R49, R381). -/
def State.launchFor (s : State) (die : Nat) (r : Rec) (pre : Bool) (core : Nat) : State :=
  let n := cid die core
  let r := { r with d1 := setField (setField r.d1 61 1 1) 53 8 (core % 192) }
  match recBroken r with
  | some sub => s.recErr die noCore sub 2 r
  | none =>
    let ahead := pre && !preemptHeld s n
    let s := s.pushR (clid die core) 1 { r := r, sup := true, path := 2, ahead := ahead }
    if ahead then s.preemptReq n else s
/-- LAUNCH_ENTRY_FIRE (R49, R457): entry e of a die fires; entries that are due fire in increasing index. -/
def execLaunchEntryFire (s : State) : Out :=
  let die := s.here.die
  let e := s.here.e
  let pa := launchPa die e
  let tick := (s.peek64 pa).toNat
  let w := s.peek64 (pa + 8)
  let first := fieldOf w 32 9
  let count := fieldOf w 41 9
  let period := fieldOf w 0 32
  let now := (s.tickOf die).toNat
  s.when (decide (e < 256) && launchDue s die e && (upFrom 0 e).all fun k => !launchDue s die k) (
    if 383 < first + count || fieldOf w 51 12 != 0 || s.peek64 (pa + 16) != 0 || s.peek64 (pa + 24) != 0 then
      (s.store64 (pa + 8) (setField w 63 1 0)).err die noCore 8 0 0 pa 0 (s.peek pa 32)
    else
      let r := recOf (s.peek (pa + 32) 32)
      let s := if period = 0 then s.store64 (pa + 8) (setField w 63 1 0)
        else s.store64 pa (BitVec.ofNat 64 (tick + ((now - tick) / period + 1) * period))
      each (fun c s => s.launchFor die r (bitOf w 50) c) (upFrom first (count + 1)) s)

/-- PREEMPT (R383): a write of PREEMPT.GO for a core. -/
def execPreempt (s : State) : Out := .next (s.preemptReq s.me)
/-- PREEMPTION_FREEZE (R51, R55, R381): a request that is not held freezes the job; an engine fault goes first (R405), and a command
that runs to completion (R290). -/
def execPreemptionFreeze (s : State) : Out :=
  s.when (s.core.preq && s.job.live && !preemptHeld s s.me && !(s.eng.halt.isSome && s.job.has .m) &&
    !s.core.engBusy) (s.freeze s.me none)
/-- ENGINE_FAULT_DELIVERY (R288, R405): the fault that halted the engine traps at the C-stream's boundary. -/
def execEngineFaultDelivery (s : State) : Out :=
  .next (
    match s.eng.halt, s.job.live && s.job.has .m with
    | some t, true => s.trap { t with pc := s.pcOf .c }
    | _, _ => s)

/-- The halfwords that bytes hold, in address order. -/
def halvesOf : List Byte → List H16
  | a :: b :: t => (b ++ a) :: halvesOf t
  | _ => []

/-- Code bytes arrive through the translation port (R88), or the fetch fails or parks at the stream's header (R403, R415). -/
def State.withCode (s : State) (st : Strm) (va n : Nat) (f : List Byte → State → State) : State :=
  match s.access { x := true } va n 1 with
  | (.trap c k a, s) => s.trapSub st 2 c k a
  | (.park m a, s) => s.parkAt st 2 a m { x := true } (pageSplit va n (n / 8192 + 2))
  | (.ok runs, s) =>
    match s.loadRuns s.me runs with
    | (.error w, s) => s.discardJob s.me w
    | (.ok bs, s) => f bs s

/-- The block of a stream at the header to be fetched arrives (R158-R164, R41): its header and, where they exceed the loop buffer, what the
header's page holds of it. -/
def State.fetchBlock (s : State) (st : Strm) : State :=
  let b := s.job.blk st
  if b.hdr < 2 ^ 53 && b.hdr % 4 != 0 then s.trapW st 2 1 b.hdr
  else s.withCode st b.hdr 4 fun bs s =>
    let w := codeWord bs
    let s := s.onBlk st fun b => { b with word := w }
    let b := s.job.blk st
    if headerBroken st w then s.trapW st 0 3
    else if b.kind == 3 && st != .c && !b.again then s.onBlk st fun b => { b with mode := .stopped, left := 1 }
    else s.withCode st (b.hdr + 4) (if st == .v then 2 * b.len else firstFetch b.hdr b.len - 4) fun bs s =>
      s.onBlk st fun b =>
        { b with mode := .run, body := halvesOf bs, pos := b.start st,
                 left := if b.again then b.left else if b.kind = 1 then b.arg else 1, fresh := !b.again, again := false, told := [] }
/-- The next page of a block longer than the loop buffer arrives (R164). -/
def State.fetchMore (s : State) (st : Strm) : State :=
  let b := s.job.blk st
  let va := b.hdr + 4 + 2 * b.body.length
  s.withCode st va (min (2 * (b.len - b.body.length)) (8192 - va % 8192)) fun bs s =>
    s.onBlk st fun b => { b with body := b.body ++ halvesOf bs }
/-- BLOCK_FETCH (R164): the next block of the stream st of a core arrives. -/
def execBlockFetch (s : State) : Out :=
  let b := s.job.blk s.here.st
  s.when (s.job.live && b.mode == .fetch && b.park.isNone) (s.fetchBlock s.here.st)

end Sys2Proof.Machine
end

