-- ==== Sys2Proof/Machine/VStream.lean ====
section
/-!
DEFINITION. The V-stream (R172-R174, R249-R252, R404): elements of registers, landings, the passing of a ck, and the words that hold
the stream still (R50, R283, R284).
-/
namespace Sys2Proof.Machine

/-- Element i of width w of a register (R249). -/
def vElem (w : Nat) (v : VReg) (i : Nat) : Nat := (v.toNat >>> (w * i)) % 2 ^ w
/-- Elements of width w at places of a register: the data and the mask of the bits they take. -/
def lay (w : Nat) (l : List (Nat × Nat)) : VReg × VReg :=
  (BitVec.ofNat 4096 (l.foldl (fun m p => m ||| ((p.2 % 2 ^ w) <<< (w * p.1))) 0),
   BitVec.ofNat 4096 (l.foldl (fun m p => m ||| ((2 ^ w - 1) <<< (w * p.1))) 0))
/-- The elements that a predicate makes active (R251). -/
def active (q : QReg) (n : Nat) : List Nat := let p := q.toNat; (upFrom 0 n).filter fun i => p.testBit i

/-- A ck of the V-stream begins (R172, R173); an arithmetic trap of its landings is raised before any V word issues (R404). The second
result says whether one was. -/
def State.vPass (s : State) : State × Bool :=
  let s := s.onJob Job.beginCk
  match s.job.arith with
  | none => (s, false)
  | some t => ((s.onJob fun j => { j with arith := none }).trap { t with pc := s.pcOf .v }, true)
/-- The ck is over (R174). -/
def State.vEnd (s : State) : State := s.onJob fun j => { j with ckOn := false }

/-- A V word issues (R147, R172): what it lands is due after its latency; ORD counts it. -/
def State.issueV (s : State) (lat : Nat) (l : Landing) : State :=
  let l := { l with rem := lat, pc := s.pcOf .v, ord := s.job.ord }
  (s.onJob fun j => { j with land := j.land ++ [l], ord := j.ord + 1, ckOn := false }).advance .v 2
/-- A V word that lands nothing issues. -/
def State.issueV0 (s : State) : State := (s.onJob fun j => { j with ord := j.ord + 1, ckOn := false }).advance .v 2

/-- The physical register of a register field under VRB now (R169). -/
def State.pv (s : State) (n : Nat) : Nat := physV n s.job.vrb
/-- A governed element-wise word (R251-R253): element i of vd, of width w, receives f i for every active i below n. -/
def State.vMap (s : State) (d : Nat) (q : BitVec 3) (w n lat : Nat) (f : Nat → Nat × Fl) : State :=
  let rs := (active (s.rq q) n).map fun i => (i, f i)
  let (x, m) := lay w (rs.map fun p => (p.1, p.2.1))
  s.issueV lat { vs := [(s.pv d, x, m)], flags := rs.foldl (fun g p => g ||| p.2.2) (0 : Fl) }
/-- A governed word whose element i of n lands in register d + (i mod k), at place i div k (R171). -/
def State.vMapK (s : State) (d k : Nat) (q : BitVec 3) (w n lat : Nat) (f : Nat → Nat × Fl) : State :=
  let rs := (active (s.rq q) n).map fun i => (i, f i)
  let vs := (upFrom 0 k).map fun r =>
    let (x, m) := lay w ((rs.filter fun p => p.1 % k == r).map fun p => (p.1 / k, p.2.1))
    (s.pv (d + r), x, m)
  s.issueV lat { vs := vs, flags := rs.foldl (fun g p => g ||| p.2.2) (0 : Fl) }
/-- A word that writes all 512 bytes of a register. -/
def State.vAll (s : State) (d : Nat) (lat : Nat) (x : Nat) (fl : Fl) : State :=
  s.issueV lat { vs := [(s.pv d, BitVec.ofNat 4096 x, BitVec.allOnes 4096)], flags := fl }

/-- VNOP count (R283): c is count - 1. The word occupies count ck. -/
def execVnop (c : BitVec 18) (s : State) : Out := .next ((s.issueV0).onJob fun j => { j with vnop := c.toNat })

/-- DTICK of a die: PHASE and PERIOD (Table 2-8), at control address 0x300. -/
def dtick (d : Die) : Nat × Nat := (fieldOf (d.reg 0x300) 32 32, fieldOf (d.reg 0x300) 0 32)
/-- The first boundary of the die tick later than a tick (R50). -/
def nextBoundary (phase period t : Nat) : Nat :=
  let r := (phase % period + period - t % period) % period
  t + (if r = 0 then period else r)
/-- REALN (R50, R284): with PERIOD 0 it completes; else the stream waits for the first boundary after now. -/
def execRealn (s : State) : Out :=
  let (ph, per) := dtick (s.dieAt s.here.die)
  .next (
    if per = 0 then s.issueV0
    else s.onJob fun j =>
      { j with realn := some (BitVec.ofNat 64 (nextBoundary ph per (s.tickOf s.here.die).toNat)), ckOn := false })
/-- The boundary that REALN waits for is reached (R50): the next V word issues in this ck. -/
def State.realnDone (s : State) : State :=
  match s.job.realn with
  | some t => if t ≤ s.tickOf s.here.die then (s.onJob fun j => { j with realn := none }).issueV0 else s
  | none => s
/-- REALN_BOUNDARY (R50): the boundary that REALN waits for is reached. -/
def execRealnBoundary (s : State) : Out := s.when (!s.stops .v) s.realnDone

/-- Entries of an oq that are present or on their way (R279). -/
def Job.oqCount (j : Job) (q : Nat) : Nat :=
  (spGet [] j.oq q).length + (j.land.filter fun l => match l.oq with | some (k, _) => k == q | none => false).length
/-- May a VPOP take the head of a dq: it is present, and no pop of the matrix engine reached the queue before (R277, R280)? -/
def dqReady (j : Job) (e : Eng) (q : Nat) : Bool :=
  (match spGet [] j.dq q with | d :: _ => d.data.isSome | [] => false) && !(j.has .m && e.popw.contains (q, false))
/-- Does the queue that a V word waits at let it go on in this ck (R277, R279)? -/
def queueReady (j : Job) (e : Eng) : Instr → Bool
  | .vpop _ q _ => dqReady j e q.toNat
  | .vpush q _ => decide (j.oqCount q.toNat < 16)
  | _ => true
/-- Does the V-stream issue nothing in this ck (R174): it has no body to run, a queue or the boundary of REALN is still to come, or a
VNOP holds it? -/
def State.vHeld (s : State) : Bool :=
  let j := s.job
  !j.live || !j.smask.getLsbD 2 || j.v.mode != .run || j.v.park.isSome || j.vnop != 0 ||
  (match j.v.wait with | some i => !queueReady j s.eng i | none => false) ||
  (match j.realn with | some t => decide (s.tickOf s.here.die < t) | none => false)
/-- A ck in which the V-stream issues nothing. -/
def State.vHoldCk (s : State) : State :=
  match s.vPass with
  | (s, true) => s
  | (s, false) => s.onJob fun j => { j with vnop := j.vnop - 1, ckOn := false }
/-- WRITE_BACK_LANDING (R172, R174): a ck passes while the stream issues nothing, and what is due in it lands. -/
def execWriteBackLanding (s : State) : Out := s.when (s.job.live && s.vHeld && !s.stops .v) s.vHoldCk

end Sys2Proof.Machine
end

