-- ==== Sys2Proof/Machine/VArith.lean ====
section
/-!
DEFINITION. V-stream arithmetic, compares, predicate logic, conversions and MX words (R253-R266).
-/
namespace Sys2Proof.Machine

/-- Elements of a type in a register (R249). -/
def nElem (t : VTy) : Nat := 4096 / vtyWidth t
/-- A two-source word (R253): f of the elements of va and vb; latencies of the F and of the I form. -/
def State.v2 (s : State) (d a b : BitVec 6) (q : BitVec 3) (t : VTy) (latF latI : Nat) (ff : Nat → Nat → Nat × Fl)
    (fi : Int → Int → Nat) : State :=
  let w := vtyWidth t
  let x := s.rv a.toNat
  let y := s.rv b.toNat
  if isF t then s.vMap d.toNat q w (nElem t) latF fun i => ff (vElem w x i) (vElem w y i)
  else s.vMap d.toNat q w (nElem t) latI fun i => (fi (intOf t (vElem w x i)) (intOf t (vElem w y i)), 0)
/-- A word on bit patterns of w bits. -/
def State.v2b (s : State) (d a b : BitVec 6) (q : BitVec 3) (t : VTy) (f : Nat → Nat → Nat) : State :=
  let w := vtyWidth t
  let x := s.rv a.toNat
  let y := s.rv b.toNat
  s.vMap d.toNat q w (nElem t) 2 fun i => (f (vElem w x i) (vElem w y i), 0)
/-- A three-source word: vd, read at issue, is the addend (R255). -/
def State.v3 (s : State) (d a b : BitVec 6) (q : BitVec 3) (t : VTy) (ff : Nat → Nat → Nat → Nat × Fl)
    (fi : Int → Int → Int → Nat) : State :=
  let w := vtyWidth t
  let x := s.rv a.toNat
  let y := s.rv b.toNat
  let z := s.rv d.toNat
  if isF t then s.vMap d.toNat q w (nElem t) 5 fun i => ff (vElem w x i) (vElem w y i) (vElem w z i)
  else s.vMap d.toNat q w (nElem t) 4 fun i =>
    (fi (intOf t (vElem w x i)) (intOf t (vElem w y i)) (intOf t (vElem w z i)), 0)
/-- A unary word on elements (R256). -/
def State.v1 (s : State) (d a : BitVec 6) (q : BitVec 3) (t : VTy) (lat : Nat) (f : Nat → Nat × Fl) : State :=
  let w := vtyWidth t
  let x := s.rv a.toNat
  s.vMap d.toNat q w (nElem t) lat fun i => f (vElem w x i)
/-- No F form. -/
def noF (_ _ : Nat) : Nat × Fl := (0, 0)
/-- VSHL of an element (R253): c is the unsigned count. -/
def shlElem (t : VTy) (x c : Nat) : Nat := if c < vtyWidth t then wrapW (vtyWidth t) (intOf t x * 2 ^ c) else 0
/-- VSHR of an element (R253). -/
def shrElem (t : VTy) (x c : Nat) : Nat :=
  let w := vtyWidth t
  if isSigned t then wrapW w (intOf t x / 2 ^ min c (w - 1)) else if c < w then x / 2 ^ c else 0

/-- VADD (R253). -/
def execVadd (d a b : BitVec 6) (q : BitVec 3) (t : VTy) (s : State) : Out :=
  .next (s.v2 d a b q t 4 2 (fmtOf t).add (fun x y => wrapW (vtyWidth t) (x + y)))
/-- VSUB (R253). -/
def execVsub (d a b : BitVec 6) (q : BitVec 3) (t : VTy) (s : State) : Out :=
  .next (s.v2 d a b q t 4 2 (fmtOf t).sub (fun x y => wrapW (vtyWidth t) (x - y)))
/-- VMUL (R253). -/
def execVmul (d a b : BitVec 6) (q : BitVec 3) (t : VTy) (s : State) : Out :=
  .next (s.v2 d a b q t 4 4 (fmtOf t).mul (fun x y => wrapW (vtyWidth t) (x * y)))
/-- VMULH (R253). -/
def execVmulh (d a b : BitVec 6) (q : BitVec 3) (t : VTy) (s : State) : Out :=
  .next (s.v2 d a b q t 4 4 noF (fun x y => wrapW (vtyWidth t) (x * y / 2 ^ vtyWidth t)))
/-- VMIN (R253). -/
def execVmin (d a b : BitVec 6) (q : BitVec 3) (t : VTy) (s : State) : Out :=
  .next (s.v2 d a b q t 3 2 (fun x y => ((fmtOf t).minB x y, 0)) (fun x y => wrapW (vtyWidth t) (min x y)))
/-- VMAX (R253). -/
def execVmax (d a b : BitVec 6) (q : BitVec 3) (t : VTy) (s : State) : Out :=
  .next (s.v2 d a b q t 3 2 (fun x y => ((fmtOf t).maxB x y, 0)) (fun x y => wrapW (vtyWidth t) (max x y)))
/-- VAND (R253). -/
def execVand (d a b : BitVec 6) (q : BitVec 3) (t : VTy) (s : State) : Out :=
  .next (s.v2b d a b q t fun x y => x &&& y)
/-- VOR (R253). -/
def execVor (d a b : BitVec 6) (q : BitVec 3) (t : VTy) (s : State) : Out :=
  .next (s.v2b d a b q t fun x y => x ||| y)
/-- VXOR (R253). -/
def execVxor (d a b : BitVec 6) (q : BitVec 3) (t : VTy) (s : State) : Out :=
  .next (s.v2b d a b q t fun x y => x ^^^ y)
/-- VSHL (R253). -/
def execVshl (d a b : BitVec 6) (q : BitVec 3) (t : VTy) (s : State) : Out := .next (s.v2b d a b q t (shlElem t))
/-- VSHR (R253). -/
def execVshr (d a b : BitVec 6) (q : BitVec 3) (t : VTy) (s : State) : Out := .next (s.v2b d a b q t (shrElem t))
/-- VADDS (R253). -/
def execVadds (d a b : BitVec 6) (q : BitVec 3) (t : VTy) (s : State) : Out :=
  .next (s.v2 d a b q t 2 2 noF (fun x y => satW (vtyWidth t) (isSigned t) (x + y)))
/-- VSUBS (R253). -/
def execVsubs (d a b : BitVec 6) (q : BitVec 3) (t : VTy) (s : State) : Out :=
  .next (s.v2 d a b q t 2 2 noF (fun x y => satW (vtyWidth t) (isSigned t) (x - y)))
/-- VFMA (R255). -/
def execVfma (d a b : BitVec 6) (q : BitVec 3) (t : VTy) (s : State) : Out :=
  .next (s.v3 d a b q t (fmtOf t).fma fun x y z => wrapW (vtyWidth t) (x * y + z))
/-- VFMS (R255). -/
def execVfms (d a b : BitVec 6) (q : BitVec 3) (t : VTy) (s : State) : Out :=
  .next (s.v3 d a b q t (fmtOf t).fms fun x y z => wrapW (vtyWidth t) (x * y - z))

/-- VABS and VNEG of an F element: the sign bit cleared or inverted; a NaN gives the canonical one (Table 10-3). -/
def absElem (f : Fmt) (x : Nat) : Nat := if (f.val x).isNan then f.nan else x % 2 ^ (f.w - 1)
def negElem (f : Fmt) (x : Nat) : Nat := if (f.val x).isNan then f.nan else x ^^^ 2 ^ (f.w - 1)
/-- VABS (Table 10-3). -/
def execVabs (d a : BitVec 6) (q : BitVec 3) (t : VTy) (s : State) : Out :=
  .next (s.v1 d a q t 2 fun x => (if isF t then absElem (fmtOf t) x else wrapW (vtyWidth t) (intOf t x).natAbs, 0))
/-- VNEG (Table 10-3). -/
def execVneg (d a : BitVec 6) (q : BitVec 3) (t : VTy) (s : State) : Out :=
  .next (s.v1 d a q t 2 fun x => (if isF t then negElem (fmtOf t) x else wrapW (vtyWidth t) (-(intOf t x)), 0))
/-- VNOT (Table 10-3). -/
def execVnot (d a : BitVec 6) (q : BitVec 3) (t : VTy) (s : State) : Out := .next (s.v1 d a q t 2 fun x => (2 ^ vtyWidth t - 1 - x, 0))
/-- VMOV (Table 10-3): bytes under the predicate. -/
def execVmov (d a : BitVec 6) (q : BitVec 3) (s : State) : Out := .next (s.v1 d a q .n8 2 fun x => (x, 0))
/-- VCLZ (Table 10-3). -/
def execVclz (d a : BitVec 6) (q : BitVec 3) (t : VTy) (s : State) : Out := .next (s.v1 d a q t 2 fun x => (clzNat x (vtyWidth t), 0))
/-- VPOPC (Table 10-3). -/
def execVpopc (d a : BitVec 6) (q : BitVec 3) (t : VTy) (s : State) : Out := .next (s.v1 d a q t 2 fun x => (popNat x (vtyWidth t), 0))
/-- VEXP2 (R257). -/
def execVexp2 (d a : BitVec 6) (q : BitVec 3) (t : VTy) (s : State) : Out := .next (s.v1 d a q t 8 ((fmtOf t).special .exp2))
/-- VLOG2 (R257). -/
def execVlog2 (d a : BitVec 6) (q : BitVec 3) (t : VTy) (s : State) : Out := .next (s.v1 d a q t 8 ((fmtOf t).special .log2))
/-- VRCP (R257). -/
def execVrcp (d a : BitVec 6) (q : BitVec 3) (t : VTy) (s : State) : Out := .next (s.v1 d a q t 10 ((fmtOf t).special .rcp))
/-- VRSQ (R257). -/
def execVrsq (d a : BitVec 6) (q : BitVec 3) (t : VTy) (s : State) : Out := .next (s.v1 d a q t 10 ((fmtOf t).special .rsq))
/-- VRCPF (R258). -/
def execVrcpf (d a : BitVec 6) (q : BitVec 3) (s : State) : Out := .next (s.v1 d a q .f32 6 (fmtF32.special .rcpf))
/-- VRSQF (R258). -/
def execVrsqf (d a : BitVec 6) (q : BitVec 3) (s : State) : Out := .next (s.v1 d a q .f32 6 (fmtF32.special .rsqf))

/-- A compare of F elements (Table 10-4). -/
def cmpF (c : VCond) (x y : Num) : Bool :=
  let un := x.isNan || y.isNan
  match c with
  | .eq => eqNum x y
  | .ne => !eqNum x y
  | .lt => !un && ltNum x y
  | .le => !un && !ltNum y x
  | .gt => !un && ltNum y x
  | .ge => !un && !ltNum x y
  | .uo => un
  | .od => !un
/-- A compare of I elements (Table 10-4); conditions 6 and 7 take F only. -/
def cmpI (c : VCond) (x y : Int) : Bool :=
  match c with
  | .eq => decide (x = y) | .ne => decide (x ≠ y) | .lt => decide (x < y) | .le => decide (x ≤ y) | .gt => decide (y < x)
  | .ge => decide (y ≤ x) | .uo => false | .od => true
/-- A predicate result: bit i for each active element (R170). -/
def State.vPred (s : State) (p : BitVec 3) (q : BitVec 3) (n lat : Nat) (f : Nat → Bool) : State :=
  let act := active (s.rq q) n
  let m := act.foldl (fun m i => m ||| 2 ^ i) 0
  let x := act.foldl (fun m i => if f i then m ||| 2 ^ i else m) 0
  s.issueV lat { qs := [(p.toNat, BitVec.ofNat 1024 x, BitVec.ofNat 1024 m)] }
/-- VCMP (R259). -/
def execVcmp (c : VCond) (p : BitVec 3) (a b : BitVec 6) (q : BitVec 3) (t : VTy) (s : State) : Out :=
  let w := vtyWidth t
  let x := s.rv a.toNat
  let y := s.rv b.toNat
  .next (s.vPred p q (nElem t) 3 fun i =>
    if isF t then cmpF c ((fmtOf t).val (vElem w x i)) ((fmtOf t).val (vElem w y i))
    else cmpI c (intOf t (vElem w x i)) (intOf t (vElem w y i)))
/-- VSEL (R260): the predicate selects; every element is written. -/
def execVsel (d a b : BitVec 6) (q : BitVec 3) (t : VTy) (s : State) : Out :=
  let w := vtyWidth t
  let x := s.rv a.toNat
  let y := s.rv b.toNat
  let p := (s.rq q).toNat
  .next (s.vMap d.toNat 0 w (nElem t) 2 fun i => (if p.testBit i then vElem w x i else vElem w y i, 0))
/-- Predicate logic on all 1,024 bits (R261). -/
def State.pLogic (s : State) (d : BitVec 3) (x : QReg) : State := s.issueV 2 { qs := [(d.toNat, x, BitVec.allOnes 1024)] }
/-- PAND (R261). -/
def execPand (d a b : BitVec 3) (s : State) : Out := .next (s.pLogic d (s.rq a &&& s.rq b))
/-- POR (R261). -/
def execPor (d a b : BitVec 3) (s : State) : Out := .next (s.pLogic d (s.rq a ||| s.rq b))
/-- PXOR (R261). -/
def execPxor (d a b : BitVec 3) (s : State) : Out := .next (s.pLogic d (s.rq a ^^^ s.rq b))
/-- PANDN (R261). -/
def execPandn (d a b : BitVec 3) (s : State) : Out := .next (s.pLogic d (s.rq a &&& ~~~ (s.rq b)))
/-- PNOT (R261). -/
def execPnot (d a : BitVec 3) (s : State) : Out := .next (s.pLogic d (~~~ (s.rq a)))
/-- VIOTA (R262). -/
def execViota (d a b : BitVec 6) (q : BitVec 3) (t : VTy) (s : State) : Out :=
  let w := vtyWidth t
  let x := intOf t (vElem w (s.rv a.toNat) 0)
  let y := intOf t (vElem w (s.rv b.toNat) 0)
  .next (s.vMap d.toNat q w (nElem t) 2 fun i => (wrapW w (x + i * y), 0))

/-- VCVT (R263, R264): elements of the wider type's count; bytes beyond the result are zero. -/
def execVcvt (d a : BitVec 6) (u : VTy) (r : Rm) (t : VTy) (s : State) : Out :=
  let ws := vtyWidth u
  let wd := vtyWidth t
  let x := s.rv a.toNat
  let rs := (upFrom 0 (4096 / max ws wd)).map fun i =>
    (i, convert u t r (if r = .sr then srBits s.job.src.r.d3 s.job.ord i else 0) (vElem ws x i))
  .next (s.vAll d.toNat 4 (lay wd (rs.map fun p => (p.1, p.2.1))).1.toNat (rs.foldl (fun g p => g ||| p.2.2) 0))

/-- VQMX (R265): codes into vd, scales into vb; predicate bit k governs block k. -/
def execVqmx (d a b : BitVec 6) (q : BitVec 3) (t : VTy) (s : State) : Out :=
  let w := vtyWidth t
  let x := s.rv a.toNat
  let bs := (active (s.rq q) (nElem t / 32)).map fun k =>
    (k, qmx ((upFrom (32 * k) 32).map fun i => (fmtOf t).val (vElem w x i)))
  let (cx, cm) := lay 4 (bs.flatMap fun p => (upFrom (32 * p.1) 32).zip p.2.2.1)
  let (sx, sm) := lay 8 (bs.map fun p => (p.1, p.2.1))
  .next (s.issueV 6 { vs := [(s.pv d.toNat, cx, cm), (s.pv b.toNat, sx, sm)],
                      flags := bs.foldl (fun g p => g ||| p.2.2.2) (0 : Fl) })
/-- An element of VDQMX (R266). -/
def dqmxElem (f : Fmt) (code scale : Nat) : Nat × Fl :=
  if scale = 255 then (f.nan, 0) else f.rne ((fmtE2m1.val code).scale ((scale : Int) - 127))
/-- VDQMX (R266): the quad that starts at register 4 d. -/
def execVdqmx (d : BitVec 4) (a b : BitVec 6) (q : BitVec 3) (t : VTy) (s : State) : Out :=
  let x := s.rv a.toNat
  let y := s.rv b.toNat
  .next (s.vMapK (4 * d.toNat) 4 q (vtyWidth t) (4 * nElem t) 5 fun i =>
    dqmxElem (fmtOf t) (vElem 4 x i) (vElem 8 y (i / 32)))

end Sys2Proof.Machine
end

