-- ==== Sys2Proof/Machine/VData.lean ====
section
/-!
DEFINITION. V-stream movement, reductions, queue words and small registers (R267-R282), and the completion of queue waits.
-/
namespace Sys2Proof.Machine

/-- A permute (R267): element i of the result is element g i of va, for the active elements. -/
def State.vPermute (s : State) (d a : BitVec 6) (q : BitVec 3) (t : VTy) (g : Nat → Nat) : State :=
  let w := vtyWidth t
  let x := s.rv a.toNat
  s.vMap d.toNat q w (nElem t) 3 fun i => (vElem w x (g i), 0)
/-- VPERM (R268). -/
def execVperm (d a b : BitVec 6) (q : BitVec 3) (t : VTy) (s : State) : Out :=
  let w := vtyWidth t
  let y := s.rv b.toNat
  let g := min (nElem t) (2 ^ w)
  .next (s.vPermute d a q t fun i => i / g * g + vElem w y i % g)
/-- f of Table 11-2. -/
def shufAt (n p i : Nat) : Nat :=
  match p with
  | 0 => n - 1 - i | 1 => i ^^^ 1 | 2 => i ^^^ 2 | 3 => i ^^^ 4 | 4 => i ^^^ 8 | 5 => i ^^^ 16
  | 6 => i ^^^ 32 | 7 => i ^^^ (n / 2) | 8 => i ^^^ 3 | 9 => i ^^^ 7 | 10 => i ^^^ 15 | _ => i ^^^ 31
/-- VSHUF (R269). -/
def execVshuf (d a p : BitVec 6) (q : BitVec 3) (t : VTy) (s : State) : Out :=
  .next (s.vPermute d a q t (shufAt (nElem t) p.toNat))
/-- A pair d, d + 1 filled consecutively (R270): element k of 2 n is g k; predicate bit i governs place i of both. -/
def State.vPair (s : State) (d : Nat) (q : BitVec 3) (w n : Nat) (g : Nat → Nat) : State :=
  let act := active (s.rq q) n
  let half : Nat → Nat × VReg × VReg := fun r =>
    let (x, m) := lay w (act.map fun i => (i, g (r * n + i)))
    (s.pv (d + r), x, m)
  s.issueV 3 { vs := [half 0, half 1] }
/-- VZIP (R270): the pair that starts at register 2 d. -/
def execVzip (d : BitVec 5) (a b : BitVec 6) (q : BitVec 3) (t : VTy) (s : State) : Out :=
  let w := vtyWidth t
  let x := s.rv a.toNat
  let y := s.rv b.toNat
  .next (s.vPair (2 * d.toNat) q w (nElem t) fun k => if k % 2 = 0 then vElem w x (k / 2) else vElem w y (k / 2))
/-- VUNZIP (R270). -/
def execVunzip (d : BitVec 5) (a b : BitVec 6) (q : BitVec 3) (t : VTy) (s : State) : Out :=
  let w := vtyWidth t
  let n := nElem t
  let x := s.rv a.toNat
  let y := s.rv b.toNat
  .next (s.vPair (2 * d.toNat) q w n fun k =>
    let c := if k < n then 2 * k else 2 * (k - n) + 1
    if c < n then vElem w x c else vElem w y (c - n))
/-- VBCAST (R271). -/
def execVbcast (d a b : BitVec 6) (q : BitVec 3) (t : VTy) (s : State) : Out :=
  let j := vElem 16 (s.rv b.toNat) 0 % nElem t
  .next (s.vPermute d a q t fun _ => j)
/-- VSLIDEU (R272): vd, read at issue, is slid in from below. -/
def execVslideu (d a c : BitVec 6) (q : BitVec 3) (t : VTy) (s : State) : Out :=
  let w := vtyWidth t
  let n := nElem t
  let k := c.toNat
  let x := s.rv a.toNat
  let z := s.rv d.toNat
  .next (s.vMap d.toNat q w n 3 fun i => (if k ≤ i then vElem w x (i - k) else vElem w z (n - k + i), 0))
/-- VSLIDED (R272). -/
def execVslided (d a c : BitVec 6) (q : BitVec 3) (t : VTy) (s : State) : Out :=
  let w := vtyWidth t
  let n := nElem t
  let k := c.toNat
  let x := s.rv a.toNat
  let z := s.rv d.toNat
  .next (s.vMap d.toNat q w n 3 fun i => (if i + k < n then vElem w x (i + k) else vElem w z (i + k - n), 0))

/-- VWIDEN (R273): u is the destination type, f the factor code, t the source type. -/
def execVwiden (d a : BitVec 6) (u : VTy) (f : BitVec 2) (q : BitVec 3) (t : VTy) (s : State) : Out :=
  let x := s.rv a.toNat
  .next (s.vMapK d.toNat (widenK f) q (vtyWidth u) (nElem t) 3 fun i =>
    (wrapW (vtyWidth u) (intOf t (vElem (vtyWidth t) x i)), 0))
/-- VNARROW (R274): u is the source type, m saturates, t the destination type; the sources start at va. -/
def execVnarrow (d a : BitVec 6) (u : VTy) (m : Bool) (q : BitVec 3) (t : VTy) (s : State) : Out :=
  let k := narrowK t u
  let src := (upFrom 0 k).map fun r => s.rv (a.toNat + r)
  .next (s.vMap d.toNat q (vtyWidth t) (nElem t) 3 fun i =>
    let x := intOf u (vElem (vtyWidth u) (src.getD (i % k) 0) (i / k))
    (if m then satW (vtyWidth t) (isSigned t) x else wrapW (vtyWidth t) x, 0))

/-- The lanes of a reduction (R153, R275): inactive ones hold the identity. -/
def State.lanes (s : State) (a : BitVec 6) (q : BitVec 3) (t : VTy) (ident : Nat) : List Nat :=
  let w := vtyWidth t
  let x := s.rv a.toNat
  let p := (s.rq q).toNat
  (upFrom 0 (nElem t)).map fun i => if p.testBit i then vElem w x i else ident
/-- Identities of Table 6-7 for maximum and minimum. -/
def maxIdent (t : VTy) : Nat :=
  if isF t then (fmtOf t).infBits true else if isSigned t then 2 ^ (vtyWidth t - 1) else 0
def minIdent (t : VTy) : Nat :=
  if isF t then (fmtOf t).infBits false else if isSigned t then 2 ^ (vtyWidth t - 1) - 1 else 2 ^ vtyWidth t - 1
/-- The tree of a reduction over a register (R153). -/
def treeOf {α : Type} (t : VTy) (op : α → α → α) (l : List α) (d : α) : α :=
  ((reduceTree op (Nat.log2 (nElem t)) l).head?).getD d
/-- Maximum and minimum of elements of a type (R154). -/
def maxElem (t : VTy) (x y : Nat) : Nat :=
  if isF t then (fmtOf t).maxB x y else if intOf t x ≤ intOf t y then y else x
def minElem (t : VTy) (x y : Nat) : Nat :=
  if isF t then (fmtOf t).minB x y else if intOf t y < intOf t x then y else x
/-- Is y greater than x in the order of argmax (R154)? -/
def argGreater (t : VTy) (x y : Nat) : Bool :=
  if isF t then
    let a := (fmtOf t).val x
    let b := (fmtOf t).val y
    if a.isNan then false else if b.isNan then true else ltSigned a b
  else decide (intOf t x < intOf t y)
/-- The sum of two f32 encodings with the flags so far (R275). -/
def sumF (x y : Nat × Fl) : Nat × Fl := let (r, f) := fmtF32.add x.1 y.1; (r, x.2 ||| y.2 ||| f)
/-- VRSUM (R275, R276). -/
def execVrsum (d a : BitVec 6) (q : BitVec 3) (t : VTy) (s : State) : Out :=
  .next (
    if isF t then
      let w := vtyWidth t
      let x := s.rv a.toNat
      let p := (s.rq q).toNat
      let l := (upFrom 0 (nElem t)).map fun i =>
        ((if p.testBit i then (fmtF32.rne ((fmtOf t).val (vElem w x i))).1 else 0x80000000, 0) : Nat × Fl)
      let r := treeOf t sumF l (0, 0)
      s.vAll d.toNat 6 r.1 r.2
    else
      let l := (s.lanes a q t 0).map fun x => wrapW 32 (intOf t x)
      s.vAll d.toNat 6 (treeOf t (fun x y => (x + y) % 2 ^ 32) l 0) 0)
/-- VRMAX (R275, R276). -/
def execVrmax (d a : BitVec 6) (q : BitVec 3) (t : VTy) (s : State) : Out :=
  .next (s.vAll d.toNat 6 (treeOf t (maxElem t) (s.lanes a q t (maxIdent t)) 0) 0)
/-- VRMIN (R275, R276). -/
def execVrmin (d a : BitVec 6) (q : BitVec 3) (t : VTy) (s : State) : Out :=
  .next (s.vAll d.toNat 6 (treeOf t (minElem t) (s.lanes a q t (minIdent t)) 0) 0)
/-- VRARGMAX (R275, R276): the value in the low bytes, the index in bytes 4 to 7. -/
def execVrargmax (d a : BitVec 6) (q : BitVec 3) (t : VTy) (s : State) : Out :=
  let l := s.lanes a q t (maxIdent t)
  let op : Nat × Nat → Nat × Nat → Nat × Nat := fun x y => if argGreater t x.1 y.1 then y else x
  let r := treeOf t op (l.zip (upFrom 0 (nElem t))) (0, 0)
  let v := if isF t && ((fmtOf t).val r.1).isNan then (fmtOf t).nan else r.1
  let idx := if active (s.rq q) (nElem t) == [] then 0 else r.2
  .next (s.vAll d.toNat 6 (v + idx * 2 ^ 32) 0)

/-- A pop of a dq whose head has entered (R277, R278, R280): the head leaves, or its tag raises the schedule fault. A pop of the engine
that came to the queue after this one is next. -/
def State.vpopTry (s : State) (d : BitVec 6) (q x : BitVec 3) : Option State :=
  if !dqReady s.job s.eng q.toNat then none
  else
    match spGet [] s.job.dq q.toNat with
    | e :: rest =>
      let want := s.rxt x
      if x != 0 && want != 0 && want != e.tag then
        some (s.trap { s.trapAt .v 3 1 with d44 := want.toNat * 65536 + e.tag.toNat })
      else
        some (((s.setEng { s.eng with popw := s.eng.popw.map fun p => (p.1, p.2 && p.1 != q.toNat) }).onJob fun j =>
          { j with dq := spSet j.dq q.toNat rest }).issueV 1 { vs := [(s.pv d.toNat, e.data.getD 0, BitVec.allOnes 4096)] })
    | [] => none
/-- The V-stream waits at a queue (R277, R279): the ck passes. -/
def State.waitV (s : State) (i : Instr) : State := (s.onBlk .v fun b => { b with wait := some i }).vEnd
/-- VPOP vd, dq, xtN (R277, R278, R280). -/
def execVpop (d : BitVec 6) (q x : BitVec 3) (s : State) : Out :=
  .next (if !s.job.smask.getLsbD 1 then s.trapW .v 3 4 else (s.vpopTry d q x).getD (s.waitV (.vpop d q x)))
/-- A push to an oq that has a place (R279). -/
def State.vpushTry (s : State) (q : BitVec 2) (a : BitVec 6) : Option State :=
  if s.job.oqCount q.toNat < 16 then some (s.issueV 1 { oq := some (q.toNat, s.rv a.toNat) }) else none
/-- VPUSH oq, va (R279, R280). -/
def execVpush (q : BitVec 2) (a : BitVec 6) (s : State) : Out :=
  .next (if !s.job.smask.getLsbD 1 then s.trapW .v 3 4 else (s.vpushTry q a).getD (s.waitV (.vpush q a)))
/-- VSETT xtN, va (R281). -/
def execVsett (x : BitVec 3) (a : BitVec 6) (s : State) : Out :=
  .next (s.issueV 2 { xt := some (x.toNat, BitVec.ofNat 16 (vElem 16 (s.rv a.toNat) 0)) })
/-- VLDC kcN, va (R281). -/
def execVldc (k : BitVec 4) (a : BitVec 6) (s : State) : Out :=
  .next (s.issueV 2 { kc := some (k.toNat, BitVec.ofNat 32 (vElem 32 (s.rv a.toNat) 0)) })
/-- VROT n (R282): every later word resolves its names under n; an advance of the repeat applies after it. -/
def execVrot (n : BitVec 5) (s : State) : Out := .next ((s.onJob fun j => { j with vrb := n }).issueV0)

/-- QUEUE_WAIT_COMPLETE (R277, R245): a queue of the stream st of a core has gained an entry or a place, and the word that waited at it
issues, in a ck of the V-stream for its words. -/
def execQueueWaitComplete (s : State) : Out :=
  .next (
    match s.here.st with
    | .c => match s.waitingC with | some (.sq d) => (s.popSq d).getD s | _ => s
    | .v =>
      if s.stops .v then s else
      match s.job.v.wait with
      | some (.vpop d q x) =>
        if (s.vpopTry d q x).isNone then s
        else match s.vPass with | (s, true) => s | (s, false) => (s.vpopTry d q x).getD s
      | some (.vpush q a) =>
        if (s.vpushTry q a).isNone then s
        else match s.vPass with | (s, true) => s | (s, false) => (s.vpushTry q a).getD s
      | _ => s
    | _ => s)

end Sys2Proof.Machine
end

