-- ==== Sys2Proof/Machine/AStream.lean ====
section
/-!
DEFINITION. A-stream memory words (R226-R248): single accesses, rows and entries of queues, gather and scatter, posted stores with
their windows (R233, R338, R339), serai reads, prefetch and the scalar queue. One move of the stream makes one row, entry or
single access; a word that waits keeps its progress.
-/
namespace Sys2Proof.Machine

/-- A piece of a store: offset in its data, virtual address, physical address, length. -/
structure Piece where
  off : Nat
  va : Nat
  pa : Nat
  len : Nat
  deriving DecidableEq, Repr

/-- Pieces of physical runs that hold consecutive virtual addresses, within one 64-byte line each. -/
def piecesOf (va : Nat) : List (Nat × Nat) → Nat → List Piece
  | [], _ => []
  | (pa, n) :: t, off =>
    (linePieces off pa n (n / 64 + 2)).map (fun p => { off := p.1, va := va + p.1, pa := p.2.1, len := p.2.2 }) ++
    piecesOf va t (off + n)

/-- The window that a posted store of core n charges (R338). -/
def winOf (s : State) (n va : Nat) : Nat :=
  let k := s.coreAt n
  let page := va / 8192
  ((upFrom 1 7).find? fun w =>
    let base := fieldOf (k.reg (0x110 + 2 * w)) 0 40
    let size := fieldOf (k.reg (0x110 + 2 * w)) 40 24 + fieldOf (k.reg (0x111 + 2 * w)) 0 16 * 2 ^ 24
    decide (base ≤ page) && decide (page < base + size)).getD 0
/-- ALLOW of a window: 0 stands for 4,096. -/
def winAllow (s : State) (n w : Nat) : Nat :=
  let a := fieldOf ((s.coreAt n).reg (0x111 + 2 * w)) 40 12
  if a = 0 then 4096 else a
/-- Is a store of core n to an address posted (R233): tile store of another core's slice? -/
def posted (n pa : Nat) : Bool := paSpace pa == 0 && cid (paDie pa) (paCore pa) != n
/-- May a posted line be sent now (R337, R339, R114): allowance left, no posted write of this source to the line unacknowledged,
no earlier A-stream access that it must follow? -/
def State.canPost (s : State) (n cls : Nat) (p : Piece) : Bool :=
  let w := winOf s n p.va
  decide (winOut s n w < winAllow s n w) &&
  !(s.awaited.any fun f => postedBy n f && f.pa / 64 == p.pa / 64) &&
  !((s.coreAt n).job.acc.any fun b => b.strm == .a && (cls == 0 || b.cls == 0 || cls == b.cls) && runsMeet b.runs [(p.pa, p.len)])
/-- Is a posted store that charges window w tagged (R364)? -/
def taggedBy (c : W64) (w : Nat) : Bool := fieldOf c 0 32 != 0 && !bitOf c 40 && bitOf c (32 + w)
/-- A posted line is sent (R128, R339, R364, R366): it charges its window; a tagged one travels under the handle of CNCUR. -/
def State.post (s : State) (n cls : Nat) (p : Piece) (bs : List Byte) : State :=
  let w := winOf s n p.va
  let j := (s.coreAt n).job
  let tag := taggedBy j.cncur w
  let s := s.setOut n w (winOut s n w + 1)
  let s := if tag then
      s.jobOf n fun j =>
        let k := fieldOf j.cncur 0 32 * 2048 + paDie p.pa
        { j with cnsent := spSet j.cnsent k (spGet 0 j.cnsent k + p.len) }
    else s
  s.inject { kind := if tag then 7 else 0, dst := paDie p.pa, dstc := paCore p.pa, src := n / 384, srcc := n % 384,
             job := j.id, opx := cls, pa := p.pa, len := p.len, handle := if tag then fieldOf j.cncur 0 32 else 0,
             who := .store w j.seq, data := bs }

/-- Sends the posted pieces of a store in order from a list on; answers the state and how many pieces it passed. -/
def State.sendPieces (s : State) (n cls : Nat) (data : List Byte) : List Piece → Nat → State × Nat
  | [], k => (s, k)
  | p :: t, k =>
    if !posted n p.pa then s.sendPieces n cls data t (k + 1)
    else if s.canPost n cls p then (s.post n cls p ((data.drop p.off).take p.len)).sendPieces n cls data t (k + 1)
    else (s, k)

/-- A store of pieces by the A-stream goes on from where it stands (R233, R339): posted lines one at a time; with the last of them the
rest joins the accesses that have not performed, and `done` follows. rs: the physical runs, kept while it waits. -/
def State.storePieces (s : State) (cls : Nat) (nt : Bool) (rs : List (Nat × Nat)) (ps : List Piece) (data : List Byte)
    (done : State → State) : State :=
  let n := s.me
  let k0 := s.job.a.sub
  let (s, k) := s.sendPieces n cls data (ps.drop k0) k0
  if k < ps.length then s.onBlk .a fun b => { b with sub := k, rowAt := if k = 0 then [] else rs }
  else
    let near := ps.filter fun p => !posted n p.pa
    let s := if near.isEmpty then s.onJob fun j => { j with seq := j.seq + 1 }
      else s.issueAcc .a cls (if nt then .nt else .st) (near.map fun p => (p.pa, p.len))
        (near.flatMap fun p => (data.drop p.off).take p.len)
    done (s.onBlk .a fun b => { b with sub := 0, rowAt := [] })
/-- The physical runs of a row or of a scatter's elements: those that its checks gave while lines of it have been sent (R247: what parks has
no effect), else those that the checks give now. -/
def State.keptRuns (s : State) (check : (List (Nat × Nat) → State → State) → State) (f : List (Nat × Nat) → State → State) : State :=
  if s.job.a.sub != 0 then f s.job.a.rowAt s else check f

/-- Loads and stores of the A-stream that have not performed, a posted store until it is acknowledged (R226, Table 9-1). -/
def State.loadRoomA (s : State) : Bool := decide (s.job.loads .a < 32)
def State.storeRoomA (s : State) : Bool :=
  let near := (s.job.acc.filter fun a => a.strm == .a && a.kind.isStore).map fun a => a.seq
  let far := (s.awaited.filter (postedBy s.me)).map FSlot.storeSeq
  decide ((near ++ far).eraseDups.length < 32) || s.job.a.sub != 0

/-- A single load (R232). -/
def State.loadA (s : State) (d a : BitVec 4) (k : BitVec 2) (o : BitVec 9) (n : Nat) (sg : Bool) : State :=
  s.withAccess .a { rd := true } (s.eaA a o) n n fun rs s =>
    if s.loadRoomA then (s.issueAcc .a k.toNat (.ld d.toNat sg) rs).advance .a 2 else s
/-- A single store of the low n bytes of a[ab] (R232). -/
def State.storeA (s : State) (a b : BitVec 4) (k : BitVec 2) (o : BitVec 9) (n : Nat) : State :=
  let ea := s.eaA a o
  s.withAccess .a { w := true } ea n n fun rs s =>
    if s.storeRoomA then
      s.storePieces k.toNat false rs (piecesOf ea.toNat rs 0) (bytesOf n (s.ra b).toNat) fun s => s.advance .a 2
    else s

/-- LDB ad, off(aa) (R232). -/
def execALdb (d a : BitVec 4) (k : BitVec 2) (o : BitVec 9) (s : State) : Out := .next (s.loadA d a k o 1 true)
/-- LDBU (R232). -/
def execALdbu (d a : BitVec 4) (k : BitVec 2) (o : BitVec 9) (s : State) : Out := .next (s.loadA d a k o 1 false)
/-- LDH (R232). -/
def execALdh (d a : BitVec 4) (k : BitVec 2) (o : BitVec 9) (s : State) : Out := .next (s.loadA d a k o 2 true)
/-- LDHU (R232). -/
def execALdhu (d a : BitVec 4) (k : BitVec 2) (o : BitVec 9) (s : State) : Out := .next (s.loadA d a k o 2 false)
/-- LDW (R232). -/
def execALdw (d a : BitVec 4) (k : BitVec 2) (o : BitVec 9) (s : State) : Out := .next (s.loadA d a k o 4 true)
/-- LDWU (R232). -/
def execALdwu (d a : BitVec 4) (k : BitVec 2) (o : BitVec 9) (s : State) : Out := .next (s.loadA d a k o 4 false)
/-- LDD (R232). -/
def execALdd (d a : BitVec 4) (k : BitVec 2) (o : BitVec 9) (s : State) : Out := .next (s.loadA d a k o 8 false)
/-- STB ab, off(aa) (R232). -/
def execAStb (a b : BitVec 4) (k : BitVec 2) (o : BitVec 9) (s : State) : Out := .next (s.storeA a b k o 1)
/-- STH (R232). -/
def execASth (a b : BitVec 4) (k : BitVec 2) (o : BitVec 9) (s : State) : Out := .next (s.storeA a b k o 2)
/-- STW (R232). -/
def execAStw (a b : BitVec 4) (k : BitVec 2) (o : BitVec 9) (s : State) : Out := .next (s.storeA a b k o 4)
/-- STD (R232). -/
def execAStd (a b : BitVec 4) (k : BitVec 2) (o : BitVec 9) (s : State) : Out := .next (s.storeA a b k o 8)

/-- Is a place of a dq free (R234, R236)? -/
def State.dqRoom (s : State) (q : Nat) : Bool := decide ((spGet [] s.job.dq q).length < 16)
/-- A place of a dq is reserved for an entry that its access will fill (R236); its push carries the A-stream's stores before it (R233). -/
def State.reserveDq (s : State) (cls q : Nat) (tile : Bool) (rs : List (Nat × Nat)) : State :=
  let id := s.fresh
  let s := s.onJob fun j => { j with dq := spSet j.dq q (spGet [] j.dq q ++ [{ id := id, seen := j.seq }]) }
  s.issueAcc .a cls (.dq q tile) rs
/-- Do the bytes of an entry all come from one aligned tile of tile store (R236)? -/
def oneTile (rs : List (Nat × Nat)) : Bool :=
  match rs with
  | (pa, _) :: _ => paSpace pa == 0 && runsLen rs == 512 && rs.all fun r => r.1 / 512 == pa / 512 && (r.1 + r.2 - 1) / 512 == pa / 512
  | [] => false
/-- A multi-access word of the A-stream has made access `prog` of `total` (R227, R247). -/
def State.stepA (s : State) (total : Nat) : State :=
  if s.job.a.prog + 1 < total then s.onBlk .a fun b => { b with prog := b.prog + 1, sub := 0, rowAt := [] } else s.advance .a 2
/-- Base and stride of a row word (R234): multiples of 64. -/
def State.rowCheck (s : State) (a : BitVec 4) (ok : Bool) (k : State) : State :=
  if (s.ra a).toNat % 64 != 0 || !ok then s.trapW .a 2 2 (s.ra a).toNat else k

/-- LDQ dq, (aa), ab, n (R234): one row. n is the count minus 1. -/
def execLdq (a b : BitVec 4) (q : BitVec 3) (k : BitVec 2) (n : BitVec 9) (s : State) : Out :=
  .next (s.rowCheck a ((s.ra b).toNat % 64 == 0) (
    if s.dqRoom q.toNat && s.loadRoomA then
      s.withAccess .a { rd := true } ((s.ra a).toInt + s.job.a.prog * (s.ra b).toInt) 512 1 fun rs s =>
        (s.reserveDq k.toNat q.toNat (oneTile rs) rs).stepA (n.toNat + 1)
    else s))

/-- The checks of several ranges of one access, in order: all runs, or the first trap or park. -/
def State.accessAll (s : State) (need : Need) (al : Nat) : List (Int × Nat) → Acs × State
  | [] => (.ok [], s)
  | (va, n) :: t =>
    match s.access need va n al with
    | (.ok rs, s) =>
      match s.accessAll need al t with
      | (.ok us, s) => (.ok (rs ++ us), s)
      | r => r
    | r => r
/-- Carries out those checks for an A-stream word. -/
def State.withAll (s : State) (need : Need) (al : Nat) (l : List (Int × Nat)) (f : List (Nat × Nat) → State → State) : State :=
  match s.accessAll need al l with
  | (.ok rs, s) => f rs s
  | (.trap c k a, s) => s.trapW .a c k a
  | (.park m a, s) =>
    s.parkAt .a 0 a m need (l.flatMap fun r => pageSplit (r.1 % 2 ^ 64).toNat r.2 (r.2 / 8192 + 2))

/-- LDQ2 dq, (aa), ab, w, m (R235): one entry. -/
def execLdq2 (a b : BitVec 4) (q : BitVec 3) (k : BitVec 2) (sh : BitVec 9) (s : State) : Out :=
  let w := 64 * 2 ^ (sh.toNat / 64)
  let m := sh.toNat % 64 + 1
  let rp : Int := if w = 512 then 0 else sextNat (s.ra b).toNat 32
  let ep : Int := sextNat ((s.ra b).toNat / 2 ^ 32) 32
  .next (s.rowCheck a (rp % 64 == 0 && ep % 64 == 0) (
    if s.dqRoom q.toNat && s.loadRoomA then
      s.withAll { rd := true } 1 ((upFrom 0 (512 / w)).map fun (r : Nat) =>
          ((s.ra a).toInt + (s.job.a.prog : Int) * ep + (r : Int) * rp, w)) fun rs s =>
        (s.reserveDq k.toNat q.toNat (oneTile rs) rs).stepA m
    else s))

/-- STQ and STQNT (R237, R238): one row; the entry leaves its oq with the row's last line. -/
def State.storeRow (s : State) (a b : BitVec 4) (q k : BitVec 2) (n : BitVec 9) (nt : Bool) : State :=
  s.rowCheck a ((s.ra b).toNat % 64 == 0) (
    match spGet [] s.job.oq q.toNat with
    | [] => s
    | v :: rest =>
      if s.storeRoomA then
        let ea := (s.ra a).toInt + s.job.a.prog * (s.ra b).toInt
        s.keptRuns (s.withAccess .a { w := true } ea 512 1) fun rs s =>
          s.storePieces k.toNat nt rs (piecesOf ea.toNat rs 0) (bytesOf 512 v.toNat) fun s =>
            (s.onJob fun j => { j with oq := spSet j.oq q.toNat rest }).stepA (n.toNat + 1)
      else s)
/-- STQ oq, (aa), ab, n (R237). -/
def execStq (a b : BitVec 4) (q k : BitVec 2) (n : BitVec 9) (s : State) : Out := .next (s.storeRow a b q k n false)
/-- STQNT oq, (aa), ab, n (R238). -/
def execStqnt (a b : BitVec 4) (q k : BitVec 2) (n : BitVec 9) (s : State) : Out := .next (s.storeRow a b q k n true)

/-- Element size of a size code (R239). -/
def elemSize (e : BitVec 9) : Nat := if e = 4 then 64 else 2 ^ e.toNat
/-- The addresses of the elements of a gather or scatter (R239): none for a null index. -/
def idxAddrs (base : Int) (sh e : Nat) (ix : VReg) : List (Option Int) :=
  (upFrom 0 (min 128 (512 / e))).map fun j =>
    let i := sextNat (vElem 32 ix j) 32
    if i = -(2 ^ 31) then none else some (base + i * 2 ^ sh)
/-- GATHER dq, (aa), ab (R239, R240). -/
def execGather (a b : BitVec 4) (q : BitVec 3) (k : BitVec 2) (e : BitVec 9) (s : State) : Out :=
  let d := s.ra b
  let e := elemSize e
  let iq := fieldOf d 0 2
  .next (
    if fieldOf d 6 58 != 0 then s.trapW .a 3 5
    else
      match spGet [] s.job.oq iq with
      | [] => s
      | ix :: rest =>
        if s.dqRoom q.toNat && s.loadRoomA then
          let ads := idxAddrs (s.ra a).toInt (fieldOf d 2 4) e ix
          s.withAll { rd := true } e (ads.filterMap fun x => x.map fun v => (v, e)) fun rs s =>
            let runs := (ads.foldl (fun (acc : List (Nat × Nat) × List (Nat × Nat)) x =>
              match x, acc.2 with
              | some _, r :: t => (r :: acc.1, t)
              | _, t => ((nullPa, e) :: acc.1, t)) ([], rs)).1.reverse
            ((s.reserveDq k.toNat q.toNat false runs).onJob fun j => { j with oq := spSet j.oq iq rest }).advance .a 2
        else s)
/-- SCATTER oq, (aa), ab (R239, R240). -/
def execScatter (a b : BitVec 4) (q k : BitVec 2) (e : BitVec 9) (s : State) : Out :=
  let d := s.ra b
  let e := elemSize e
  let iq := fieldOf d 0 2
  let dq := q.toNat
  let data := if iq = dq then (spGet [] s.job.oq dq).drop 1 else spGet [] s.job.oq dq
  .next (
    if fieldOf d 6 58 != 0 then s.trapW .a 3 5
    else
      match spGet [] s.job.oq iq, data with
      | ix :: _, v :: _ =>
        if s.storeRoomA then
          let ads := idxAddrs (s.ra a).toInt (fieldOf d 2 4) e ix
          let live := ((upFrom 0 ads.length).zip ads).filterMap fun p => p.2.map fun x => (p.1, x)
          s.keptRuns (s.withAll { w := true } e (live.map fun p => (p.2, e))) fun rs s =>
            let ps : List Piece := (live.zip rs).map fun p =>
              { off := e * p.1.1, va := p.1.2.toNat, pa := p.2.1, len := e }
            s.storePieces k.toNat false rs ps (bytesOf 512 v.toNat) fun s =>
              (s.onJob fun j =>
                let oq := spSet j.oq iq ((spGet [] j.oq iq).drop 1)
                { j with oq := spSet oq dq ((spGet [] oq dq).drop 1) }).advance .a 2
        else s
      | _, _ => s)

/-- LDSR dq, (aa) (R241, R242, R78). -/
def execLdsr (a : BitVec 4) (q : BitVec 3) (k : BitVec 2) (s : State) : Out :=
  let x := s.ra a
  let die := s.here.die
  let d := s.dieAt die
  let lane := fieldOf x 20 9
  let off := fieldOf x 0 20
  .next (
    if fieldOf x 29 3 != 0 || decide (383 < lane) || off % 64 != 0 || decide (laneSz d < off + 512) then
      s.trapW .a 1 7 x.toNat
    else if s.dqRoom q.toNat && s.loadRoomA then
      match openFrame d (fieldOf x 32 32) with
      | none => s.trapW .a 3 0
      | some f => (s.reserveDq k.toNat q.toNat false [(seraiPa die (f * segSz d + lane * laneSz d + off), 512)]).advance .a 2
    else s)

/-- Pages of a prefetch (R243): translated if they can be; lines of companion memory are read, the first 512 of the range. -/
def State.prefetch (s : State) : List (Nat × Nat) → Nat → State
  | [], _ => s
  | (va, n) :: t, used =>
    match s.xlate { rd := true } va n with
    | (.ok pa, s) =>
      if paSpace pa = 2 then
        let lines := min ((pa % 64 + n + 63) / 64) (512 - used)
        (s.slow s.here.die (pa / 64 * 64) (64 * lines)).prefetch t (used + lines)
      else s.prefetch t used
    | (_, s) => s.prefetch t used
/-- PFC (aa), ab (R243). -/
def execPfc (a b : BitVec 4) (_k : BitVec 2) (s : State) : Out :=
  let lo := max (s.ra a).toInt 0
  let hi := min ((s.ra a).toInt + (s.ra b).toInt) (2 ^ 53)
  .next ((if (s.ra b).toInt ≤ 0 || hi ≤ lo then s
    else s.prefetch (pageSplit lo.toNat (hi - lo).toNat ((hi - lo).toNat / 8192 + 2)) 0).advance .a 2)

/-- Is a place of the scalar queue free (R244)? -/
def State.sqRoom (s : State) : Bool := decide (s.job.sq.length < 16)
/-- SQP ab (R244): the push releases the A-stream's earlier stores at core scope; it waits for no posted store. -/
def execSqp (b : BitVec 4) (s : State) : Out :=
  .next (
    if s.sqRoom && !(s.job.acc.any fun a => a.strm == .a && a.kind.isStore) then
      let e : SqEnt := { id := s.fresh, data := some (s.ra b), seen := s.job.seq }
      let s := { s with fresh := s.fresh + 1 }
      (s.onJob fun j => { j with sq := j.sq ++ [e] }).advance .a 2
    else s)
/-- LDSQ off(aa) (R244). -/
def execLdsq (a : BitVec 4) (k : BitVec 2) (o : BitVec 9) (s : State) : Out :=
  .next (s.withAccess .a { rd := true } (s.eaA a o) 8 8 fun rs s =>
    if s.sqRoom && s.loadRoomA then
      let e : SqEnt := { id := s.fresh, seen := s.job.seq }
      let s := s.onJob fun j => { j with sq := j.sq ++ [e] }
      (s.issueAcc .a k.toNat .sq rs).advance .a 2
    else s)

end Sys2Proof.Machine
end

