-- ==== Sys2Proof/Machine/CEngine.lean ====
section
/-!
DEFINITION. Engine pushes (R218-R221): the decoding of matrix commands and descriptors (R181, R291, R293, R298, R303), transfer and
scraper pushes, plans; and the consignment words (R222, R369, R370).
-/
namespace Sys2Proof.Machine

/-- Operand bits of a matrix command that its row of Table 12-3 names. -/
def cmdMask (op : Nat) : Nat :=
  match op with
  | 0x01 => 2 ^ 48 - 1
  | 0x02 => 2 ^ 48 - 1 - (2 ^ 19 - 2 ^ 11) - 2 ^ 3 - 2 ^ 7
  | 0x03 => 2 ^ 8 - 1
  | 0x04 => 2 ^ 18 - 1
  | 0x05 => 2 ^ 25 - 1
  | 0x06 => 2 ^ 17 - 1
  | 0x07 => 2 ^ 9 - 1
  | 0x10 => 2 ^ 40 - 2 ^ 15 + 3
  | 0x11 => 2 ^ 34 - 1
  | 0x12 => 2 ^ 22 - 1
  | 0x13 => 2 ^ 34 - 1
  | 0x14 => 2 ^ 22 - 1
  | _ => 0

/-- Is a number a set bit of a mask? -/
def inMask (m k : Nat) : Bool := m.testBit k

/-- Does decode refuse a matrix command (R181, R293, R303)? sup: at supervisor level. -/
def cmdBad (c : Nat) (sup : Bool) : Bool :=
  let op := bitsAt c 120 8
  let arg := bitsAt c 0 104
  let ta := bitsAt c 11 4
  let tb := bitsAt c 15 4
  let fp8 : Nat → Bool := fun t => t == 9 || t == 10
  let zs := bitsAt c 0 3
  let zt := bitsAt c 3 3
  let zom := bitsAt c 6 8
  arg &&& cmdMask op != arg ||
  match op with
  | 0x00 => false
  | 0x01 => !((ta == 7 && tb == 7) || (ta == 8 && tb == 8) || (fp8 ta && fp8 tb))
  | 0x02 => (bitsAt c 31 16 + 1) % 32 != 0
  | 0x03 => false
  | 0x04 => false
  | 0x05 => !([6, 7, 8, 9, 10].contains (bitsAt c 18 4) && decide (bitsAt c 22 3 ≤ 4))
  | 0x06 => !sup || decide (191 < bitsAt c 0 8)
  | 0x07 => !sup || decide (191 < bitsAt c 0 8)
  | 0x10 => false
  | 0x11 => false
  | 0x12 =>
    inMask zom zt ||
    (match bitsAt c 20 2 with
     | 1 => inMask zom zs || zs == zt
     | 3 => zom != 0 || zs == zt
     | _ => false)
  | 0x13 => zs == zt
  | 0x14 => false
  | _ => true

/-- Element size in bytes of KVTYPE (R298): bf16 and f16 two, e4m3 and e5m2 one. -/
def kvSize (t : Nat) : Nat := if t = 7 || t = 8 then 2 else 1

/-- Does decode refuse a descriptor (R291, R298)? -/
def descBad (d : Nat) : Bool :=
  if d.testBit 127 then
    let es := kvSize (bitsAt d 11 4)
    let row := (bitsAt d 15 9 + 1) * es
    let g := 256 * 2 ^ bitsAt d 8 3
    bitsAt d 86 41 != 0 || decide (6 < bitsAt d 8 3) || !([7, 8, 9, 10].contains (bitsAt d 11 4)) || row % 64 != 0 ||
    decide (g < bitsAt d 24 8 * 64 + row) || decide (g < bitsAt d 32 8 * 64 + row)
  else bitsAt d 108 19 != 0 || bitsAt d 59 5 != 0 || decide (4 < bitsAt d 56 3)

/-- The encoding trap of a command or descriptor that decode refuses (Table 19-1 code 9, Table 19-2). -/
def State.cmdTrap (s : State) (lo hi : W64) : State := s.trap { s.trapAt .c 0 9 with d48 := lo.toNat, d56 := hi.toNat }

/-- A push into the matrix command queue (R219, R181, Table 8-8). -/
def State.mxPush (s : State) (bad : Bool) (m : MEnt) : State :=
  if bad then s.cmdTrap m.lo m.hi
  else if !s.job.has .m then s.trapC 3 4
  else if 16 ≤ s.eng.q.length then s
  else s.releaseC .core fun s => (s.setEng { s.eng with q := s.eng.q ++ [m] }).advance .c 2

/-- MXQ sa, sb (R219, R181). -/
def execMxq (a b : BitVec 5) (s : State) : Out :=
  let lo := s.rs a
  let hi := s.rs b
  .next (s.mxPush (cmdBad (hi.toNat * 2 ^ 64 + lo.toNat) s.job.sup) { desc := none, lo := lo, hi := hi })
/-- MXD n, sa, sb (R219, R291). -/
def execMxd (n : BitVec 3) (a b : BitVec 5) (s : State) : Out :=
  let lo := s.rs a
  let hi := s.rs b
  .next (s.mxPush (descBad (hi.toNat * 2 ^ 64 + lo.toNat)) { desc := some n.toNat, lo := lo, hi := hi })

/-- A transfer engine of a cluster. -/
def Cluster.xeng (c : Cluster) (e : Nat) : XEng := spGet {} c.eng e
/-- Changes a transfer engine. -/
def State.onXeng (s : State) (cl e : Nat) (f : XEng → XEng) : State :=
  s.onCluster cl fun c => { c with eng := spSet c.eng e (f (c.xeng e)) }

/-- XFC sa, sb hands a chain to a transfer engine of the cluster (R220). Address bits [63:53] are not checked here: R220 names no such trap,
and the engine, which translates the address, meets them (R308; the model's choice: log entry 44). -/
def execXfc (a b : BitVec 5) (s : State) : Out :=
  let va := (s.rs a).toNat
  let e := (s.rs b).toNat % 2
  .next (
    if va % 128 != 0 then s.trapC 2 3 va
    else if 32 ≤ ((s.clusterAt s.myCl).xeng e).heads.length then s
    else s.releaseC .cluster fun s =>
      (s.onXeng s.myCl e fun x =>
        { x with heads := x.heads ++ [{ pc := va, core := s.me, root := s.core.troot, sup := s.job.sup }] }).advance .c 2)

/-- EVX sa, sb pushes a scraper command, unchecked (R220). -/
def execEvx (a b : BitVec 5) (s : State) : Out :=
  let lo := s.rs a
  let hi := s.rs b
  .next (
    if 16 ≤ (s.dieAt s.here.die).scr.length then s
    else s.releaseC .die fun s =>
      (s.onDie s.here.die fun d => { d with scr := d.scr ++ [{ lo := lo, hi := hi, cl := s.here.core / 192 }] }).advance .c 2)

/-- The checks of CPLAN on a record (R344): its bytes, with what follows. -/
def State.planChecks (s : State) (a : BitVec 5) (k : List Byte → State → State) : State :=
  let va := (s.rs a).toInt
  let v := (s.rs a).toNat
  if 2 ^ 53 ≤ v then s.trapC 1 5 v
  else if v % 256 != 0 then s.trapC 2 5 v
  else s.withAccess .c { rd := true } va 256 1 fun rs s =>
    if !s.runsFree rs then s
    else
      match s.loadRuns s.me rs with
      | (.error w, s) => s.discardJob s.me w
      | (.ok b, s) =>
        if !planOk s s.here.die b then s.trapC 7 1
        else s.withAccess .c { rd := true } (pPeerTab b).toInt (8 * pNRank b) 1 fun ps s =>
          if !s.runsFree ps then s
          else
            match s.loadRuns s.me ps with
            | (.error w, s) => s.discardJob s.me w
            | (.ok t, s) =>
              if !((upFrom 0 (pNRank b)).all fun r => peerOk s s.here.die (dwAt t (8 * r))) then s.trapC 7 1
              else if 2 ^ 53 ≤ (pDonea b).toNat then s.trapC 7 1
              else
                match s.xlate { w := true } (pDonea b).toNat 8 with
                | (.bad _, s) => s.trapC 7 1
                | (.absent, s) => s.trapC 7 1
                | (.motion, s) => k b s
                | (.ok _, s) => k b s

/-- Are the waystation's lines for a plan's window to be had (R342)? -/
def windowRoom (s : State) (b : List Byte) : Bool :=
  !pRwv b || decide (combUsed ({ die := 0, place := 0, pa := pRwpa b, lines := pRwLines b } :: (s.wayAt (wayOf b)).wins) ≤ 4096)

/-- The reservation of a plan (R344, R342): a place with its two counters, and the window; sd takes the handle, or 0. -/
def State.planReserve (s : State) (d : BitVec 5) (va : Nat) (b : List Byte) : State :=
  let die := s.here.die
  match freePlace (s.dieAt die).plans 256, windowRoom s b with
  | some place, true =>
    let g0 := ((s.dieAt die).planGen + 1) % 2 ^ 24
    let g := if g0 = 0 then 1 else g0
    let p : Plan := { gen := g, va := va, core := s.here.core, job := s.job.id, bytes := b, root := s.core.troot, sup := s.job.sup,
                      prog := s.tickOf die }
    let s := s.onDie die fun x => { x with planGen := g, plans := spSet x.plans place p }
    let s := if pRwv b then
        let w := s.wayAt (wayOf b)
        s.setWayAt (wayOf b) { w with wins := w.wins ++ [{ die := die, place := place, pa := pRwpa b, lines := pRwLines b }] }
      else s
    (s.setRs d (BitVec.ofNat 64 (planHandle place p))).advance .c 2
  | _, _ => (s.setRs d 0).advance .c 2

/-- CPLAN sd, (sa) submits a plan record (R221, R344); the word waits for the reservation. -/
def execCplan (d a : BitVec 5) (s : State) : Out := .next (s.planChecks a fun _ s => s.waitC (.cplan d a))
/-- PLAN_RESERVATION (R344): the reservation that CPLAN waits for is made or refused. -/
def execPlanReservation (s : State) : Out :=
  .next (match s.waitingC with
    | some (.cplan d a) => s.planChecks a fun b s => s.planReserve d (s.rs a).toNat b
    | _ => s)

/-- CTRIG sa, sb triggers a plan of the job (R221, R349). -/
def execCtrig (a b : BitVec 5) (s : State) : Out :=
  let h := (s.rs a).toNat
  let v := s.rs b
  .next (
    match (s.dieAt s.here.die).plan (h % 256) with
    | some p =>
      if planHandle (h % 256) p != h || p.job != s.job.id then s.trapC 7 0
      else s.releaseC .sys fun s => (s.trigger s.here.die (h % 256) v).advance .c 2
    | none => s.trapC 7 0)

/-- Is a consignment open on a die (R359)? -/
def cnOpenOn (s : State) (die h : Nat) : Bool :=
  let d := s.dieAt die
  (d.coord h).isSome || (d.dest h).isSome || (d.plans.any fun p => p.2.bounds.contains h) ||
  (s.coresOf die).any fun n => let j := (s.coreAt n).job; j.live && fieldOf j.cncur 0 32 == h

/-- The bytes of a seal report (Table 15-6): destinations in increasing DIE with the bytes sent. -/
def sealReport (h : Nat) (ds : List (Nat × Nat)) : List Byte :=
  bytesOf 8 (h * 2 ^ 32 + ds.length) ++ bytesOf 8 0 ++ ds.flatMap fun p => bytesOf 8 p.1 ++ bytesOf 8 (p.2 % 2 ^ 40)
/-- What a job's tagged stores under a handle carried to each destination (R369). -/
def sentTo (j : Job) (h : Nat) : List (Nat × Nat) :=
  (j.cnsent.filter fun p => p.1 / 2048 == h).map fun p => (p.1 % 2048, p.2)

/-- CSEAL sd, sa, (sb) seals the job's part of a consignment (R222, R369). -/
def execCseal (d a b : BitVec 5) (s : State) : Out :=
  let v := (s.rs a).toNat
  let h := fieldOf s.job.cncur 0 32
  let ds := sentTo s.job v
  let n := 16 + 16 * ds.length
  .next (s.withCw { w := true } (s.rs b).toInt n 1 fun _ =>
    let rs := cwPieces s (s.rs b).toNat n 3
    if 2 ^ 32 ≤ v then s.trapC 8 0
    else if h != v || h == 0 then (if v = 0 || !cnOpenOn s s.here.die v then s.trapC 8 1 else s.trapC 8 7)
    else if bitOf s.job.cncur 40 then s.trapC 8 2
    else
      match s.lostTrap .c fun _ => true with
      | some t => t
      | none =>
        if rdvReady s s.me && s.runsFree rs then
          let s := s.onJob fun j => { j with cncur := setField j.cncur 40 1 1 }
          let s := s.storeRuns s.me rs (sealReport v ds)
          (s.setRs d (BitVec.ofNat 64 ds.length)).rdvDone
        else s)

/-- Is a release manifest good (R370, Table 15-7)? -/
def manifestOk (s : State) (die : Nat) (m : List Byte) : Bool :=
  let w := dwAt m 0
  let n := fieldOf w 56 8
  let st : Nat → W64 := fun i => dwAt m (16 + 16 * i)
  (fieldOf w 50 3 == 4 || fieldOf w 50 3 == 5) && fieldOf w 53 3 == 0 && fieldOf w 32 18 == 0 && dwAt m 8 == 0 &&
  ((upFrom 0 n).all fun i =>
    fieldOf (st i) 56 8 == 0 && paSpace (st i).toNat == 0 && (st i).toNat % 8 == 0 && paOk s die (st i).toNat &&
    fieldOf (dwAt m (24 + 16 * i)) 40 24 == 0) &&
  (((upFrom 0 n).map fun i => paDie (st i).toNat).eraseDups).length == n

/-- The manifest of a handle is accepted (R370, R371, R444): MANIFESTED, an entry to each destination, a census round the ring; one that
names a bypassed die aborts. -/
def State.cnManifest (s : State) (k h : Nat) (m : List Byte) : State :=
  let die := s.here.die
  let w := dwAt m 0
  let es : List ManEnt := (upFrom 0 (fieldOf w 56 8)).map fun i =>
    { stata := (dwAt m (16 + 16 * i)).toNat, expect := (dwAt m (24 + 16 * i)).toNat }
  let s := s.onCoord die k fun c =>
    { c with state := 2, scope := fieldOf w 50 3, lead := fieldOf w 0 32, ents := es, census := false, sentAt := s.tickOf die }
  let s := match spFind (s.dieAt die).coords k with | some c => s.status c.stata 2 0 h | none => s
  let mk : ManEnt → Msg := fun e =>
    { kind := .manifest, dst := paDie e.stata, src := die, handle := h, x := e.stata, y := e.expect, z := fieldOf w 50 3 }
  let s := { s with msgs := s.msgs ++ es.map mk }
  let s := s.send { kind := .census, dst := cwNext s die, src := die, handle := h }
  if es.any fun e => (s.dieAt (paDie e.stata)).bypassed then s.coordAbort die k 2 else s

/-- CMANI sa, (sb) sends the release manifest (R222, R370): NDEST says how long it is, so that range and permission of all of it come before
the checks on the handle (R190). -/
def execCmani (a b : BitVec 5) (s : State) : Out :=
  let v := (s.rs a).toNat
  let die := s.here.die
  let ea := (s.rs b).toInt
  .next (s.withCw { rd := true } ea 16 1 fun _ =>
    if !s.runsFree (cwPieces s ea.toNat 16 3) then s
    else
      let n := fieldOf (BitVec.ofNat 64 (ofBytes ((cwPieces s ea.toNat 8 3).flatMap fun p => s.peek p.1 p.2))) 56 8
      s.withCw { rd := true } ea (16 + 16 * n) 1 fun _ =>
        let rs := cwPieces s ea.toNat (16 + 16 * n) 3
        if 2 ^ 32 ≤ v then s.trapC 8 0
        else if v = 0 || !cnOpenOn s die v then s.trapC 8 1
        else if cnDie v != die then s.trapC 8 3
        else
          match (s.dieAt die).coord v with
          | none => s.trapC 8 4
          | some (k, c) =>
            if c.state != 1 then s.trapC 8 4
            else if n = 0 then s.trapC 8 5
            else if !s.runsFree rs then s
            else
              match s.loadRuns s.me rs with
              | (.error w, s) => s.discardJob s.me w
              | (.ok m, s) =>
                if !manifestOk s die m then s.trapC 8 5
                else s.releaseC (if fieldOf (dwAt m 0) 50 3 = 5 then .sys else .ring) fun s => (s.cnManifest k v m).advance .c 2)

/-- CABORT sa asks for the abort of a consignment (R222, R375). -/
def execCabort (a : BitVec 5) (s : State) : Out :=
  let v := (s.rs a).toNat
  .next (
    if 2 ^ 32 ≤ v then s.trapC 8 0
    else if !cnDieOk s s.here.die v then s.trapC 8 6
    else (s.abortReq s.here.die v 1).advance .c 2)

end Sys2Proof.Machine
end

