-- ==== Sys2Proof/Machine/Matrix.lean ====
section
/-!
DEFINITION. The matrix engine (chapter 12): the steps of its commands (R285-R290), tile addresses (R292), dense products (R294, R295),
accumulators (R296), drains (R297, R408) and glazes (R300).
-/
namespace Sys2Proof.Machine

/-- The command at the head of the engine's queue, as 128 bits. -/
def Eng.head (e : Eng) : Option Nat :=
  match e.q with
  | m :: _ => if m.desc.isNone then some (m.hi.toNat * 2 ^ 64 + m.lo.toNat) else none
  | [] => none
/-- OP of a command (R181). -/
def cOp (c : Nat) : Nat := bitsAt c 120 8
/-- The semaphore wait mask of a command (R181). -/
def cWait (c : Nat) : Nat := bitsAt c 112 8

/-- May the engine of the core of the step act: its job runs there and it is not halted (R288, R290)? -/
def engActs (s : State) : Bool := s.job.live && s.job.has .m && s.eng.halt.isNone && !s.eng.done

/-- A command fails before it has any effect (R288, R402): its waits are taken back, it stays at the head, the engine halts. -/
def State.engFault (s : State) (c code addr : Nat) : State :=
  let t : TrapInfo := { cls := 6, code := code, strm := .m, pc := 0, addr := addr, d48 := c % 2 ^ 64, d56 := c / 2 ^ 64 }
  ((s.onJob fun j => { j with sem := bumpCounts j.sem (cWait c) 8 }).setEng { s.eng with step1 := false, clr := false, halt := some t }).pended

/-- What a check of a command answers: it may run, it fails with a code and an address, or it waits in step 2. -/
inductive EChk where
  | ok
  | bad (code addr : Nat)
  | wait
  deriving DecidableEq, Repr

/-- Steps 1 and 2 of the command at the head, if it is the one a step names (R285): its wait, its checks while it has had no effect
(R288), and then what it does. -/
def State.engDo (s : State) (is : Nat → Bool) (check : State → Nat → EChk) (act : Nat → State → State) : State :=
  match s.eng.head with
  | some c =>
    if engActs s && is c && (s.eng.step1 || countsReady s.job.sem (cWait c) 8) then
      let s := if s.eng.step1 then s
        else (s.onJob fun j => { j with sem := takeCounts j.sem (cWait c) 8 }).setEng { s.eng with step1 := true }
      if s.eng.prog = 0 && !s.eng.clr then
        match check s c with
        | .ok => act c s
        | .bad k a => s.engFault c k a
        | .wait => s
      else act c s
    else s
  | none => s
/-- Flags NV, OF and NX, as MFLG holds them (R146, Table 6-5). -/
def mflag (f : Fl) : BitVec 3 :=
  (if f &&& flNV != 0 then 4 else 0) ||| (if f &&& flOF != 0 then 2 else 0) ||| (if f &&& flNX != 0 then 1 else 0)
/-- A unit of the head command is done: K-block, row, or the whole of it. -/
def State.engUnit (s : State) (total : Nat) (f : Fl) : State :=
  let p := s.eng.prog + 1
  s.setEng { s.eng with prog := p, done := decide (total ≤ p), flags := s.eng.flags ||| mflag f }

/-- MATRIX_COMMAND_COMPLETE (R285, R286, R146). -/
def execMatrixCommandComplete (s : State) : Out := .next (s.onCore s.me Core.engComplete).pended
/-- DESCRIPTOR_LOAD (R219, R285): an MXD entry at the head loads its slot. -/
def execDescriptorLoad (s : State) : Out :=
  .next (
    match s.eng.q with
    | m :: t =>
      match m.desc with
      | some n => if engActs s then (s.onJob fun j => { j with desc := spSet j.desc n (m.lo, m.hi) }).setEng { s.eng with q := t } else s
      | none => s
    | [] => s)
/-- MNOP (R285): waits and signals only. -/
def execMnop (s : State) : Out := .next (s.engDo (fun c => cOp c == 0) (fun _ _ => .ok) fun _ s => s.engUnit 1 0)

/-- The descriptor in a slot, as 128 bits. -/
def descOf (s : State) (n : Nat) : Nat := let d := spGet (0, 0) s.job.desc n; d.2.toNat * 2 ^ 64 + d.1.toNat
/-- ROT's change to bits [9:6] of an address (R292). -/
def rotated (d i x : Nat) : Nat :=
  let r := bitsAt d 56 3
  if r = 0 then x else putBits x 6 4 ((bitsAt x 6 4 + i % 2 ^ r) % 16)
/-- tile_addr (R292); es2 is the element size in half bytes. -/
def tileAddr (d i k es2 : Nat) : Nat :=
  rotated d i (bitsAt d 0 32 + 64 * bitsAt d 32 12 * i + 16 * bitsAt d 44 12 * (k / 32) + k % 32 * es2 / 2)
/-- acc_addr (R292). -/
def accAddr (d i c es : Nat) : Nat := rotated d i (bitsAt d 0 32 + 64 * bitsAt d 32 12 * i + c * es)
/-- scale_addr (R292). -/
def scaleAddr (d i kb : Nat) : Nat := bitsAt d 64 32 + bitsAt d 96 12 * i + kb

/-- The check of accesses of n bytes at cluster-window addresses (R289, R288): code 0 with the first that fails. -/
def engAccess (s : State) (need : Need) (n : Nat) (xs : List Nat) : EChk :=
  match xs.find? fun (x : Nat) => match s.cw need (x : Int) n 1 with | .ok _ => false | .error _ => true with
  | some x => .bad 0 x
  | none => .ok
/-- Both checks, the first first. -/
def EChk.and : EChk → EChk → EChk
  | .ok, c => c
  | c, _ => c

/-- Reads of n bytes each at cluster-window addresses: the numbers, or the uncorrectable word that ends the job (R425). -/
def State.engReads (s : State) (n : Nat) : List Nat → Except Nat (List Nat) × State
  | [] => (.ok [], s)
  | x :: t =>
    match s.loadRuns s.me (cwPieces s x n 2) with
    | (.error w, s) => (.error w, s)
    | (.ok bs, s) =>
      match s.engReads n t with
      | (.ok l, s) => (.ok (ofBytes bs :: l), s)
      | e => e

/-- Element (r, c) of accumulator z. -/
def Eng.zAt (e : Eng) (z r c : Nat) : Nat := (spGet 0 e.z (4096 * z + 64 * r + c)).toNat
/-- Elements put into an accumulator: (row, column, bits). -/
def Eng.zPut (e : Eng) (z : Nat) (l : List (Nat × Nat × Nat)) : Eng :=
  { e with z := l.foldl (fun m p => spSet m (4096 * z + 64 * p.1 + p.2.1) (BitVec.ofNat 32 p.2.2)) e.z }
/-- All pairs of m rows and n columns. -/
def grid (m n : Nat) : List (Nat × Nat) := (upFrom 0 m).flatMap fun i => (upFrom 0 n).map fun j => (i, j)

/-- dot_block (R152): products of two rows, scaled; the encoding in FP32 and the flags. -/
def dotBlock (xs ys : List Num) (sa sb : Num) : Nat × Fl :=
  let ps := List.zipWith mulNum xs ys
  if sa.isNan || sb.isNan || xs.any Num.isNan || ys.any Num.isNan then (fmtF32.nan, 0)
  else if ps.any fun p => p.2 != 0 then (fmtF32.nan, flNV)
  else
    let vs := ps.map Prod.fst
    if vs.contains (.inf false) && vs.contains (.inf true) then (fmtF32.nan, flNV)
    else
      match vs with
      | [] => (0, 0)
      | v :: t =>
        let sum := t.foldl (fun a b => (addNum a b).1) v
        fmtF32.rne (mulNum (mulNum sum sa).1 sb).1

/-- The element type of a type code of a matrix command. -/
def cTy (t : Nat) : VTy := (vtyOf (BitVec.ofNat 4 t)).getD .f32
/-- Size of a type's element in half bytes. -/
def halfBytes (t : VTy) : Nat := vtyWidth t / 4
/-- An element of a type read at an address: for mx4 the nibble that k's parity names (R292, R5). -/
def elemVal (t : VTy) (k b : Nat) : Num :=
  match t with
  | .mx4 => fmtE2m1.val (if k % 2 = 0 then b % 16 else b / 16)
  | t => (fmtOf t).val b

/-- An operand of a dense product (Table 12-3): from a dq or a descriptor slot, its type, its rows. -/
structure Opnd where
  q : Bool
  slot : Nat
  ty : VTy
  rows : Nat
  deriving DecidableEq, Repr
/-- The operands of MMA and MMAX. -/
def opndA (c : Nat) : Opnd :=
  if cOp c = 2 then { q := false, slot := bitsAt c 4 3, ty := .mx4, rows := bitsAt c 19 6 + 1 }
  else { q := c.testBit 3, slot := bitsAt c 4 3, ty := cTy (bitsAt c 11 4), rows := bitsAt c 19 6 + 1 }
def opndB (c : Nat) : Opnd :=
  if cOp c = 2 then { q := false, slot := bitsAt c 8 3, ty := .mx4, rows := bitsAt c 25 6 + 1 }
  else { q := c.testBit 7, slot := bitsAt c 8 3, ty := cTy (bitsAt c 15 4), rows := bitsAt c 25 6 + 1 }
/-- K of a dense product. -/
def cK (c : Nat) : Nat := bitsAt c 31 16 + 1

/-- The checks on an operand (R288, R289, R294, R295): the KIND of its slot, and every address. -/
def opndCheck (s : State) (k : Nat) (o : Opnd) : EChk :=
  if o.q then .ok
  else
    let d := descOf s o.slot
    if d.testBit 127 then .bad 1 0
    else
      let es2 := halfBytes o.ty
      (engAccess s { rd := true } (max 1 (es2 / 2)) ((grid o.rows k).map fun p => tileAddr d p.1 p.2 es2)).and
        (if o.ty == .mx4 then engAccess s { rd := true } 1 ((grid o.rows (k / 32)).map fun p => scaleAddr d p.1 p.2) else .ok)

/-- What fetching an operand's K-block answers: rows of n elements with their scales; wait for dq entries; or an uncorrectable word. -/
inductive Got where
  | ok (rows : List (List Num)) (scale : List Num)
  | wait
  | dead (w : Nat)
  deriving DecidableEq, Repr

/-- A list cut into rows of n. -/
def chunks {α : Type} (n : Nat) : Nat → List α → List (List α)
  | 0, _ => []
  | r + 1, l => l.take n :: chunks n r (l.drop n)

/-- Does the V-stream's VPOP wait at a dq (R277)? -/
def Job.vpopAt (j : Job) (q : Nat) : Bool :=
  match j.v.wait with
  | some (.vpop _ k _) => k.toNat == q
  | _ => false
/-- May a pop of the engine take from a dq: no VPOP came to the queue before it (R280)? -/
def popFirst (j : Job) (e : Eng) (q : Nat) : Bool := !j.vpopAt q || e.popw.contains (q, false)
/-- A pop of the engine waits at a dq (R280): a VPOP that waits there came before it. -/
def State.popWaits (s : State) (q : Nat) : State :=
  if s.eng.popw.any fun p => p.1 == q then s else s.setEng { s.eng with popw := (q, s.job.vpopAt q) :: s.eng.popw }

/-- Fetches K-block kb of an operand, n elements to a row (R294, R295). -/
def State.fetchOpnd (s : State) (o : Opnd) (kb n : Nat) : Got × State :=
  let es2 := halfBytes o.ty
  if o.q then
    let es := 8 * (es2 / 2)
    let cnt := (o.rows * 32 * (es2 / 2) + 511) / 512
    let es_ := (spGet [] s.job.dq o.slot).take cnt
    if es_.length = cnt && (es_.all fun e => e.data.isSome) && popFirst s.job s.eng o.slot then
      let v := ofBytes (es_.flatMap fun e => bytesOf 512 ((e.data.getD 0).toNat))
      let s := s.onJob fun j => { j with dq := spSet j.dq o.slot ((spGet [] j.dq o.slot).drop cnt) }
      let s := s.setEng { s.eng with seen := es_.foldl (fun m e => max m e.seen) s.eng.seen }
      (.ok ((upFrom 0 o.rows).map fun i => (upFrom 0 n).map fun k => elemVal o.ty k (bitsAt v (es * (32 * i + k)) es))
        (List.replicate o.rows (.fin false 1 0)), s)
    else (.wait, s.popWaits o.slot)
  else
    let d := descOf s o.slot
    match s.engReads (max 1 (es2 / 2)) ((grid o.rows n).map fun p => tileAddr d p.1 (32 * kb + p.2) es2) with
    | (.error w, s) => (.dead w, s)
    | (.ok l, s) =>
      let rows := (chunks n o.rows l).map fun r => ((upFrom 0 n).zip r).map fun p => elemVal o.ty p.1 p.2
      if o.ty == .mx4 then
        match s.engReads 1 ((upFrom 0 o.rows).map fun i => scaleAddr d i kb) with
        | (.error w, s) => (.dead w, s)
        | (.ok c, s) => (.ok rows (c.map e8m0), s)
      else (.ok rows (List.replicate o.rows (.fin false 1 0)), s)

/-- One element of a K-block's update (R152, R294). -/
def mmaElem (acc : Nat) (x y : List Num) (sa sb : Num) : Nat × Fl :=
  let (b, f) := dotBlock x y sa sb
  let (r, g) := fmtF32.add acc b
  (r, f ||| g)

/-- One K-block of a dense product (R294, R295, R290); with CLR the accumulator's rows and columns are zeroed first. While the second
operand's entries are still to come, the first's stay where they are, and are the engine's (log entry 15). -/
def State.mmaBlock (s : State) (c : Nat) : State :=
  let oa := opndA c
  let ob := opndB c
  let zd := bitsAt c 0 3
  let cells := grid oa.rows ob.rows
  let s := if c.testBit 47 && !s.eng.clr && s.eng.prog == 0 then
      s.setEng { (s.eng.zPut zd (cells.map fun p => (p.1, p.2, 0))) with clr := true } else s
  let kb := s.eng.prog
  let n := min 32 (cK c - 32 * kb)
  match s.fetchOpnd oa kb n with
  | (.wait, t) => t
  | (.dead w, t) => t.discardJob t.me w
  | (.ok xs sx, t) =>
    match t.fetchOpnd ob kb n with
    | (.wait, _) => (if oa.q then s.popWaits oa.slot else s).popWaits ob.slot
    | (.dead w, t) => t.discardJob t.me w
    | (.ok ys sy, t) =>
      let out := cells.map fun p =>
        (p, mmaElem (t.eng.zAt zd p.1 p.2) (xs.getD p.1 []) (ys.getD p.2 []) (sx.getD p.1 .nan) (sy.getD p.2 .nan))
      let t := t.setEng { (t.eng.zPut zd (out.map fun o => (o.1.1, o.1.2, o.2.1))) with popw := [] }
      t.engUnit ((cK c + 31) / 32) (out.foldl (fun f o => f ||| o.2.2) 0)

/-- MMA (R294): the next K-block of the command at the head. -/
def execMma (s : State) : Out :=
  .next (s.engDo (fun c => cOp c == 1) (fun s c => (opndCheck s (cK c) (opndA c)).and (opndCheck s (cK c) (opndB c))) fun c s => s.mmaBlock c)
/-- MMAX (R295): the next K-block of the command at the head. -/
def execMmax (s : State) : Out :=
  .next (s.engDo (fun c => cOp c == 2) (fun s c => (opndCheck s (cK c) (opndA c)).and (opndCheck s (cK c) (opndB c))) fun c s => s.mmaBlock c)

/-- Accumulators without those that a mask names. -/
def zDrop (z : Sp W32) (mask : Nat) : Sp W32 := z.filter fun p => !mask.testBit (p.1 / 4096)
/-- ZEROZ (R296). -/
def execZeroz (s : State) : Out :=
  .next (s.engDo (fun c => cOp c == 3) (fun _ _ => .ok) fun c s =>
    (s.setEng { s.eng with z := zDrop s.eng.z (bitsAt c 0 8) }).engUnit 1 0)

/-- The checks of LOADZ and STOREZ (R288, R296): es the element size in bytes. -/
def rowsCheck (need : Need) (es : Nat → Nat) (s : State) (c : Nat) : EChk :=
  let d := descOf s (bitsAt c 3 3)
  if d.testBit 127 then .bad 1 0
  else engAccess s need (es c) ((grid (bitsAt c 6 6 + 1) (bitsAt c 12 6 + 1)).map fun p => accAddr d p.1 p.2 (es c))
/-- LOADZ (R296): the next row. -/
def execLoadz (s : State) : Out :=
  .next (s.engDo (fun c => cOp c == 4) (rowsCheck { rd := true } fun _ => 4) fun c s =>
    let i := s.eng.prog
    let cols := upFrom 0 (bitsAt c 12 6 + 1)
    match s.engReads 4 (cols.map fun x => accAddr (descOf s (bitsAt c 3 3)) i x 4) with
    | (.error w, s) => s.discardJob s.me w
    | (.ok l, s) =>
      (s.setEng (s.eng.zPut (bitsAt c 0 3) ((cols.zip l).map fun p => (i, p.1, p.2)))).engUnit (bitsAt c 6 6 + 1) 0)
/-- The type of STOREZ. -/
def storezTy (c : Nat) : VTy := cTy (bitsAt c 18 4)
/-- STOREZ (R296, R150): the next row. -/
def execStorez (s : State) : Out :=
  .next (s.engDo (fun c => cOp c == 5) (rowsCheck { w := true } fun c => vtyWidth (storezTy c) / 8) fun c s =>
    let i := s.eng.prog
    let t := storezTy c
    let es := vtyWidth t / 8
    let rm := (rmOf (BitVec.ofNat 3 (bitsAt c 22 3))).getD .rne
    let d := descOf s (bitsAt c 3 3)
    let out := (upFrom 0 (bitsAt c 12 6 + 1)).map fun x => (x, convert .f32 t rm 0 (s.eng.zAt (bitsAt c 0 3) i x))
    let s := each (fun (o : Nat × Nat × Fl) s =>
      s.storeRuns s.me (cwPieces s (accAddr d i o.1 es) es 2) (bytesOf es o.2.1)) out s
    s.engUnit (bitsAt c 6 6 + 1) (out.foldl (fun f o => f ||| o.2.2) 0))

/-- The core that a drain targets, by its number on the ring (R297): core CORE of the issuer's cluster. -/
def drainTarget (s : State) (c : Nat) : Nat := cid s.here.die (192 * (s.here.core / 192) + bitsAt c 0 8)
/-- Is the target of a drain held (R408)? -/
def drainHeld (s : State) (c : Nat) : EChk :=
  let k := s.coreAt (drainTarget s c)
  if !k.held.isEmpty && !(k.job.live && k.job.has .m) then .ok else .bad 5 0
/-- CTXP of a core. -/
def ctxpOf (s : State) (n : Nat) : Nat := fieldOf ((s.coreAt n).reg 0x101) 0 56

/-- The context area of an accumulator (R297). -/
def zArea (ctxp z : Nat) : Nat := ctxp + 0x26400 + 0x4000 * z
/-- The check of a drain's transfer (R80, R81, R288): code 0 with the first of its areas, each n bytes, that does not exist (log entry 21). -/
def areasCheck (s : State) (n : Nat) (as : List Nat) : EChk :=
  match as.find? fun a => okLen s s.here.die a n != n with | some a => .bad 0 a | none => .ok
/-- The accumulators that a DRAINZ names. -/
def drainzZs (c : Nat) : List Nat := (upFrom 0 8).filter fun z => (bitsAt c 9 8).testBit z
/-- The checks of DRAINZ (R297, R408, R80). -/
def drainzCheck (s : State) (c : Nat) : EChk :=
  (drainHeld s c).and (areasCheck s 0x4000 ((drainzZs c).map (zArea (ctxpOf s (drainTarget s c)))))
/-- The accumulators of a core with z taken from its area. -/
def zFrom (s : State) (e : Eng) (ctxp z : Nat) : Eng :=
  let new := (upFrom 0 4096).filterMap fun i =>
    let v := ofBytes (s.peek (zArea ctxp z + 4 * i) 4)
    if v = 0 then none else some (4096 * z + i, BitVec.ofNat 32 v)
  { e with z := (e.z.filter fun p => decide (p.1 < 4096 * z)) ++ new ++ e.z.filter fun p => decide (4096 * (z + 1) ≤ p.1) }
/-- The engine reads areas of n bytes at physical addresses (R106, R103, R424): an uncorrectable word in one discards its job (R425). -/
def State.drainReads (s : State) (n : Nat) (as : List Nat) (k : State → State) : State :=
  match as with
  | [] => k s
  | a :: t => readThen (s.readMem s.here.die a n) (fun w s => s.discardJob s.me w) fun _ s => s.drainReads n t k
/-- DRAINZ (R297, R408): each 16 KiB is moved as lines of companion memory are where it lies there (R103, R106). -/
def execDrainz (s : State) : Out :=
  .next (s.engDo (fun c => cOp c == 6) drainzCheck fun c s =>
    let n := drainTarget s c
    let ctxp := ctxpOf s n
    let zs := drainzZs c
    if c.testBit 8 then
      s.drainReads 0x4000 (zs.map (zArea ctxp)) fun s =>
        (s.onCore n fun k => { k with eng := zs.foldl (fun e z => zFrom s e ctxp z) k.eng }).engUnit 1 0
    else
      (each (fun z s =>
        (s.storeArea s.here.die (zArea ctxp z) 0x4000 (((s.coreAt n).eng.z.filter fun p => p.1 / 4096 == z).map fun p =>
          (4 * (p.1 % 4096), bytesOf 4 (spGet 0 (s.coreAt n).eng.z p.1).toNat))).slow s.here.die (zArea ctxp z) 0x4000) zs s).engUnit 1 0)

/-- The bytes of the DRAINQ area (Table 12-4). -/
def drainqBytes (e : Eng) : List Byte :=
  let b : Bool → Nat → Nat := fun x k => if x then 2 ^ k else 0
  padTo 256 (e.q.flatMap fun m => bytesOf 8 m.lo.toNat ++ bytesOf 8 m.hi.toNat) ++
  padTo 16 (e.q.map fun m => match m.desc with | some n => BitVec.ofNat 8 (128 + n) | none => 0) ++
  bytesOf 8 e.q.length ++
  bytesOf 8 (e.prog % 2 ^ 17 + b e.step1 17 + b e.clr 18 + b e.halt.isSome 19 + e.flags.toNat * 2 ^ 20) ++ bytesOf 224 0
/-- Is every bit of a DRAINQ area that Table 12-4 shows as zero zero, and every entry one that decode takes (R297)? -/
def drainqOk (a : List Byte) (sup : Bool) : Bool :=
  let cnt := (dwAt a 0x110).toNat
  let kind : Nat → Nat := fun i => ((a.getD (0x100 + i) 0) : Byte).toNat
  let ent : Nat → Nat := fun i => (dwAt a (16 * i + 8)).toNat * 2 ^ 64 + (dwAt a (16 * i)).toNat
  decide (cnt ≤ 16) && fieldOf (dwAt a 0x118) 23 41 == 0 && ((a.drop 0x120).all fun x => x == 0) &&
  (upFrom 0 16).all fun i =>
    if i < cnt then
      if kind i = 0 then !cmdBad (ent i) sup else kind i / 8 == 16 && !descBad (ent i)
    else kind i == 0 && ent i == 0
/-- The engine that a DRAINQ area describes, its accumulators those of e. What halted a command is not in the area: a free value (log
entry 21). -/
def drainqEng (a : List Byte) (e : Eng) (fresh : Nat) : Eng :=
  let cnt := (dwAt a 0x110).toNat
  let p := dwAt a 0x118
  let q : List MEnt := (upFrom 0 cnt).map fun i =>
    let kd := ((a.getD (0x100 + i) 0) : Byte).toNat
    { desc := if kd = 0 then none else some (kd % 8), lo := dwAt a (16 * i), hi := dwAt a (16 * i + 8) }
  let t : TrapInfo := { cls := 6, code := fieldOf (Config.openWord fresh) 0 3, strm := .m, pc := 0,
                        addr := fieldOf (Config.openWord (fresh + 1)) 0 64, d48 := (dwAt a 0).toNat, d56 := (dwAt a 8).toNat }
  { e with q := q, prog := fieldOf p 0 17, step1 := bitOf p 17, clr := bitOf p 18, done := false,
           flags := BitVec.ofNat 3 (fieldOf p 20 3), halt := if bitOf p 19 then some t else none }
/-- The level at which the job frozen on a core ran: of the context at its CTXP. -/
def frozenSup (k : Core) : Bool := match k.heldHere with | some h => h.job.sup | none => false
/-- The checks of DRAINQ (R297, R408, R80). An area with an uncorrectable word is not judged: its read discards the job (R425). -/
def drainqCheck (s : State) (c : Nat) : EChk :=
  let n := drainTarget s c
  let a := ctxpOf s n + 0xC00
  ((drainHeld s c).and (areasCheck s 0x200 [a])).and (
    if c.testBit 8 && (s.badIn a 0x200).isNone && !drainqOk (s.peek a 0x200) (frozenSup (s.coreAt n)) then .bad 7 0 else .ok)
/-- DRAINQ (R297, R408): what DIR 1 loads is the state of the context at the target's CTXP. -/
def execDrainq (s : State) : Out :=
  .next (s.engDo (fun c => cOp c == 7) drainqCheck fun c s =>
    let n := drainTarget s c
    let a := ctxpOf s n + 0xC00
    if c.testBit 8 then
      s.drainReads 0x200 [a] fun s =>
        let area := s.peek a 0x200
        ({ s.onCore n fun k => { k with eng := drainqEng area k.eng s.fresh, engHeld := true, engCtx := some (ctxpOf s n) } with
            fresh := s.fresh + 2 } : State).engUnit 1 0
    else
      ((s.writeMem s.here.die a (drainqBytes (s.coreAt n).eng)).onCore n fun k =>
        { k with eng := { k.eng.emptied with z := k.eng.z }, engHeld := false, engCtx := none }).engUnit 1 0)

/-- The operation words and constants of a glaze program (Table 12-6). -/
def glazeOf (p : List Byte) : Glaze :=
  let w : Nat → W32 := fun o => BitVec.ofNat 32 (ofBytes ((p.drop o).take 4))
  let len := (w 0).toNat % 32
  { len := len, ops := (upFrom 0 len).map fun i => w (4 + 4 * i), cs := (upFrom 0 8).map fun i => w (68 + 4 * i) }
/-- Is a glaze program valid (R300)? -/
def glazeOk (p : List Byte) : Bool :=
  let w : Nat → Nat := fun o => ofBytes ((p.drop o).take 4)
  let len := w 0 % 32
  w 0 / 32 == 0 && decide (1 ≤ len) && decide (len ≤ 16) && ((p.drop 100).all fun x => x == 0) &&
  (upFrom 0 16).all fun i =>
    let x := w (4 + 4 * i)
    let op := bitsAt x 28 4
    if i < len then
      decide (op ≤ 11) && bitsAt x 0 18 == 0 && (!(op == 0 || op == 7 || op == 8) || bitsAt x 18 4 == 0) &&
      (!(op == 9 || op == 10 || op == 11) || bitsAt x 26 2 == 0)
    else x == 0
/-- The checks of GLZ (R288, R300). -/
def glzCheck (s : State) (c : Nat) : EChk :=
  let x := bitsAt c 8 32
  (engAccess s { rd := true } 128 [x]).and
    (if glazeOk ((cwPieces s x 128 2).flatMap fun p => s.peek p.1 p.2) then .ok else .bad 4 0)
/-- GLZ (R300): the program enters a glaze slot. -/
def execGlz (s : State) : Out :=
  .next (s.engDo (fun c => cOp c == 0x10) glzCheck fun c s =>
    match s.loadRuns s.me (cwPieces s (bitsAt c 8 32) 128 2) with
    | (.error w, s) => s.discardJob s.me w
    | (.ok p, s) => (s.onJob fun j => { j with glaze := spSet j.glaze (bitsAt c 0 2) (glazeOf p) }).engUnit 1 0)

end Sys2Proof.Machine
end

