-- ==== Sys2Proof/Machine/Attn.lean ====
section
/-!
DEFINITION. The attention family (R298-R305): blocks of KV pages, scores and glazes, the online softmax, values and mass commits.
-/
namespace Sys2Proof.Machine

/-- Fields of an attention layout descriptor (Table 12-5). -/
def aSlot (d : Nat) : Nat := bitsAt d 0 8
def aPages (d : Nat) : Nat := 2 ^ bitsAt d 8 3
def aTy (d : Nat) : VTy := cTy (bitsAt d 11 4)
def aEs (d : Nat) : Nat := kvSize (bitsAt d 11 4)
def aDim (d : Nat) : Nat := bitsAt d 15 9 + 1

/-- What a block of keys is (R299): empty; at rest, with its first record's index, LIVE, the keys' positions and the pages' places; in
motion; or what stops the command: a fault of the engine, an uncorrectable word. -/
inductive AtBlk where
  | empty
  | ok (mdx live : Nat) (kpos pas : List Nat)
  | motion
  | fault (code addr : Nat)
  | dead (w : Nat)
  deriving DecidableEq, Repr

/-- The entries i to i + n - 1 of a slot's table (R299): none for an empty block. -/
def blockEnts (s : State) (die slot np i : Nat) : Nat → Except Nat (Option (List W64))
  | 0 => .ok (some [])
  | n + 1 =>
    if np ≤ i then .ok none
    else
      match s.ptEntry die slot i with
      | .error _ => .error (entVa s die slot i)
      | .ok e =>
        if !entV e then .ok none
        else
          match blockEnts s die slot np (i + 1) n with
          | .ok (some l) => .ok (some (e :: l))
          | r => r

/-- The first uncorrectable word of the records' and the table's bytes that an attention command reads, if there is one. -/
def deadIn (s : State) (rs : List (Nat × Nat)) : Option Nat :=
  if s.ecc.isEmpty then none else rs.findSome? fun r => s.badIn r.1 r.2
/-- Physical bytes of the entries of a slot's table, and its header. -/
def tableRuns (s : State) (die slot i n : Nat) : List (Nat × Nat) :=
  ((s.slotAt die slot).ptbase :: (upFrom i n).map fun k => entVa s die slot k).filterMap fun va =>
    match kvTranslate s die { rd := true } va with | .ok pa => some (pa, 8) | .error _ => none

/-- How many of the n entries from i on a slot's table has (R96): the ones that a block's command reads. -/
def tableLen (s : State) (die slot i n : Nat) : Nat := match s.npages die slot with | .ok np => min n (np - i) | .error _ => 0

/-- The virtual address of the page that an entry names (Table 4-7). -/
def entPageVa (e : W64) : Nat := fieldOf e 0 40 * 8192
/-- The first page of a block that fails translation under KVROOT (R302), or that its record places where nothing exists (R80, R81; log entry
21). -/
def pageFails (s : State) (die : Nat) (es : List W64) : Option Nat :=
  (es.find? fun e => !paOk s die (s.mdPage die (entMdx e)) ||
    match kvTranslate s die { rd := true } (entPageVa e) with | .ok _ => false | .error _ => true).map entPageVa

/-- Block b of the slot that a layout descriptor names (R299, R302); pages: the command reads the block's pages. While a place that it reads is
in motion the command waits (R320). -/
def atBlock (s : State) (pages : Bool) (d b : Nat) : AtBlk :=
  let die := s.here.die
  let slot := aSlot d
  let g := aPages d
  if (s.slotAt die slot).state != 1 then .fault 2 0
  else if (tableRuns s die slot (b * g) (tableLen s die slot (b * g) g)).any fun r => s.inMotion r.1 then .motion
  else
    match deadIn s (tableRuns s die slot (b * g) (tableLen s die slot (b * g) g)) with
    | some w => .dead w
    | none =>
      match s.npages die slot with
      | .error _ => .fault 3 (s.slotAt die slot).ptbase
      | .ok np =>
        match blockEnts s die slot np (b * g) g with
        | .error va => .fault 3 va
        | .ok none => .empty
        | .ok (some es) =>
          let ms := es.map entMdx
          match deadIn s (ms.map fun m => (mdPa s die m, 256)) with
          | some w => .dead w
          | none =>
            if ms.any fun m => decide (2 ≤ s.mig die m) || (pages && s.inMotion (s.mdPage die m)) then .motion
            else match if pages then pageFails s die es else none with
            | some va => .fault 3 va
            | none =>
              let m0 := ms.headD 0
              let base := s.mdRead die m0 224 4
              .ok m0 (s.mdRead die m0 228 4) ((upFrom 0 32).map fun j => (base + s.mdRead die m0 (128 + 3 * j) 3) % 2 ^ 32)
                (ms.map fun m => s.mdPage die m)

/-- The check that a block asks of its command (R299, R302). -/
def AtBlk.chk : AtBlk → EChk
  | .fault k a => .bad k a
  | .motion => .wait
  | _ => .ok

/-- An attention command meets an uncorrectable word (R425, R427): it stops, its slot is finished, a record is written. -/
def State.atDead (s : State) (d w : Nat) : State :=
  ((s.rqfin s.here.die (aSlot d)).err s.here.die noCore 0x12 2 0 w (aSlot d)).engUnit 1 0
/-- An attention command goes on with its block (R425, R426): where a word of the table or of a record is uncorrectable, it stops there; else
its reads are made, with what they need of repair (R424) and what they count of companion memory (R103, R106). -/
def State.withBlock (s : State) (pages : Bool) (d b : Nat) (k : AtBlk → State → State) : State :=
  match atBlock s pages d b with
  | .dead w => (s.metBad (paDie w)).atDead d w
  | blk =>
    let die := s.here.die
    let g := aPages d
    let ms := match blockEnts s die (aSlot d) (b * g + g) (b * g) g with | .ok (some es) => es.map entMdx | _ => []
    let n := tableLen s die (aSlot d) (b * g) g
    let vas := (s.slotAt die (aSlot d)).ptbase :: (upFrom (b * g) n).map (entVa s die (aSlot d))
    let runs := tableRuns s die (aSlot d) (b * g) n ++ ms.map fun m => (mdPa s die m, 256)
    k blk (each (fun (r : Nat × Nat) s => (s.readMem die r.1 r.2).2) runs (each (fun va s => s.kvWalk die va) vas s))

/-- Bytes [off, off + n) of token j's row (R298): page g holds row bytes 256 g to 256 g + 255, at page offset 256 j. -/
def rowRuns (pas : List Nat) (j off n : Nat) : List (Nat × Nat) :=
  (upFrom (off / 256) ((off + n + 255) / 256 - off / 256)).map fun g =>
    let lo := max off (256 * g)
    (pas.getD g 0 + 256 * j + (lo - 256 * g), min (off + n) (256 * g + 256) - lo)

/-- The elements [lo, lo + n) of a head in the rows of a block's 32 tokens, its first byte at row offset off. -/
def State.tokens (s : State) (d : Nat) (pas : List Nat) (off lo n : Nat) : Except Nat (List (List Num)) × State :=
  let es := aEs d
  (upFrom 0 32).foldl (fun (acc : Except Nat (List (List Num)) × State) j =>
    match acc with
    | (.error w, s) => (.error w, s)
    | (.ok l, s) =>
      match s.loadRuns s.me (rowRuns pas j (off + es * lo) (es * n)) with
      | (.error w, s) => (.error w, s)
      | (.ok bs, s) =>
        let v := ofBytes bs
        (.ok (l ++ [(upFrom 0 n).map fun k => elemVal (aTy d) 0 (bitsAt v (8 * es * k) (8 * es))]), s)) (.ok [], s)

/-- FP32 minus infinity. -/
def negInf : Nat := 0xFF800000

/-- The registers and flags of a running glaze (R301). -/
structure GSt where
  g : List Nat
  mask : Bool := false
  keep : Bool := false
  fl : Fl := 0
  deriving DecidableEq, Repr
/-- One glaze operation (Table 12-7); src 4 to 15 are qpos, kpos, head, zero and the constants. -/
def glazeOp (src : List Nat) (w : Nat) (x : GSt) : GSt :=
  let rd : Nat → Nat := fun k => if k < 4 then x.g.getD k 0 else src.getD (k - 4) 0
  let d := bitsAt w 26 2
  let a := rd (bitsAt w 22 4)
  let b := rd (bitsAt w 18 4)
  let put : Nat × Fl → GSt := fun r => { x with g := setNth x.g d r.1, fl := x.fl ||| r.2 }
  let lt : Nat → Nat → Bool := fun p q => decide (sextNat p 32 < sextNat q 32)
  match bitsAt w 28 4 with
  | 0 => put (a, 0)
  | 1 => put (fmtF32.add a b)
  | 2 => put (fmtF32.mul a b)
  | 3 => put (fmtF32.fma a b (x.g.getD d 0))
  | 4 => put (fmtF32.maxB a b, 0)
  | 5 => put (fmtF32.minB a b, 0)
  | 6 => put (wrapW 32 (sextNat a 32 - sextNat b 32), 0)
  | 7 => put (fmtF32.rne (numOfInt (sextNat a 32)))
  | 8 => put (fmtF32.special .exp2 a)
  | 9 => { x with mask := x.mask || lt b a }
  | 10 => { x with mask := x.mask || lt a b }
  | _ => { x with keep := x.keep || lt a b }
/-- A glaze runs on the score of a live token (R301). -/
def glazeRun (gl : Glaze) (g0 qpos kpos head : Nat) : Nat × Fl :=
  let src := [qpos, kpos, head, 0] ++ gl.cs.map BitVec.toNat
  let x := gl.ops.foldl (fun x w => glazeOp src w.toNat x) { g := [g0, 0, 0, 0] }
  (if x.mask && !x.keep then negInf else x.g.getD 0 0, x.fl)

/-- The dot product of two rows in K-blocks of 32 from +0 (R152). -/
def dotRows (x y : List Num) : Nat → Nat → Nat × Fl
  | 0, acc => (acc, 0)
  | n + 1, acc =>
    if x.isEmpty then (acc, 0)
    else
      let (a, f) := mmaElem acc (x.take 32) (y.take 32) (.fin false 1 0) (.fin false 1 0)
      let (r, g) := dotRows (x.drop 32) (y.drop 32) n a
      (r, f ||| g)

/-- The score of a row and a live key (R302). -/
def score (d : Nat) (gl : Option Glaze) (r : Nat) (q k : List Num) (kpos : Nat) : Nat × Fl :=
  let nh := bitsAt d 40 6 + 1
  let (v, f) := dotRows q k 17 0
  match gl with
  | some gl =>
    let (w, g) := glazeRun gl v ((bitsAt d 54 32 + r / nh) % 2 ^ 32) kpos (bitsAt d 46 8 + r % nh)
    (w, f ||| g)
  | none => (v, f)

/-- Addresses of a query row's elements (R302). -/
def qAddrs (q d m : Nat) : List Nat := (grid m (aDim d)).map fun p => tileAddr q p.1 p.2 (2 * aEs d)
/-- The checks of ATSC (R302). -/
def atscCheck (s : State) (c : Nat) : EChk :=
  let q := descOf s (bitsAt c 3 3)
  let d := descOf s (bitsAt c 6 3)
  if q.testBit 127 || !d.testBit 127 then .bad 1 0
  else (atBlock s true d (bitsAt c 12 16)).chk.and (engAccess s { rd := true } (aEs d) (qAddrs q d (bitsAt c 28 6 + 1)))
/-- The scores that ATSC writes (R302): of the live keys, and minus infinity elsewhere, with their flags. -/
def atscOut (d m : Nat) (gl : Option Glaze) (live : Nat) (kpos qs : List Nat) (ks : List (List Num)) : List ((Nat × Nat) × Nat × Fl) :=
  let qr := (chunks (aDim d) m qs).map fun r => r.map fun b => elemVal (aTy d) 0 b
  (grid m 32).map fun p =>
    (p, if live.testBit p.2 then score d gl p.1 (qr.getD p.1 []) (ks.getD p.2 []) (kpos.getD p.2 0) else (negInf, 0))
/-- ATSC with its queries read (R302): the keys are read and the scores written. -/
def State.atscKeys (s : State) (zs d m : Nat) (gl : Option Glaze) (live : Nat) (kpos pas qs : List Nat) : State :=
  match s.tokens d pas (64 * bitsAt d 24 8) 0 (aDim d) with
  | (.error w, s) => s.atDead d w
  | (.ok ks, s) =>
    let out := atscOut d m gl live kpos qs ks
    (s.setEng (s.eng.zPut zs (out.map fun o => (o.1.1, o.1.2, o.2.1)))).engUnit 1 (out.foldl (fun f o => f ||| o.2.2) 0)
/-- ATSC with its block found (R302): the queries are read. -/
def State.atscRows (s : State) (zs q d m : Nat) (gl : Option Glaze) (live : Nat) (kpos pas : List Nat) : State :=
  match s.engReads (aEs d) (qAddrs q d m) with
  | (.error w, s) => s.discardJob s.me w
  | (.ok qs, s) => s.atscKeys zs d m gl live kpos pas qs

/-- ATSC (R302): the score tile of a block. -/
def execAtsc (s : State) : Out :=
  .next (s.engDo (fun c => cOp c == 0x11) atscCheck fun c s =>
    let d := descOf s (bitsAt c 6 3)
    let m := bitsAt c 28 6 + 1
    s.withBlock true d (bitsAt c 12 16) fun blk s =>
    match blk with
    | .ok _ live kpos pas =>
      s.atscRows (bitsAt c 0 3) (descOf s (bitsAt c 3 3)) d m
        (if c.testBit 11 then some (spGet {} s.job.glaze (bitsAt c 9 2)) else none) live kpos pas
    | _ => (s.setEng (s.eng.zPut (bitsAt c 0 3) ((grid m 32).map fun p => (p.1, p.2, negInf)))).engUnit 1 0)

/-- 2^x (R303): beyond 1024 in magnitude, where every result that it enters rounds alike, it stands as 2^1024 or 2^-1024. -/
def pow2 : Num → Num
  | .nan => .nan
  | .inf neg => if neg then .fin false 0 0 else .inf false
  | .fin neg m e =>
    if m = 0 then .fin false 1 0
    else if 10 ≤ (Nat.log2 m : Int) + e then .fin false 1 (if neg then -1024 else 1024)
    else exp2Num neg m e
/-- ceil of a finite value. -/
def ceilNum (neg : Bool) (m : Nat) (e : Int) : Int :=
  if 0 ≤ e then signedAt neg m e 0
  else
    let d : Nat := 2 ^ (-e).toNat
    if neg then -((m / d : Nat) : Int) else (((m + d - 1) / d : Nat) : Int)

/-- The operands of ATSO. -/
def atsoZs (c : Nat) : Nat := bitsAt c 0 3
def atsoZt (c : Nat) : Nat := bitsAt c 3 3
def atsoZom (c : Nat) : List Nat := (upFrom 0 8).filter fun z => (bitsAt c 6 8).testBit z
def atsoM (c : Nat) : Nat := bitsAt c 14 6 + 1
/-- Is a command ATSO of a mode? -/
def isAtso (mode c : Nat) : Bool := cOp c == 0x12 && bitsAt c 20 2 == mode

/-- ATSO INIT (R303). -/
def execAtsoInit (s : State) : Out :=
  .next (s.engDo (isAtso 0) (fun _ _ => .ok) fun c s =>
    let zt := atsoZt c
    let m := atsoM c
    let e := s.eng.zPut zt ((upFrom 0 m).flatMap fun r => [(r, 0, negInf), (r, 1, 0)])
    let e := (atsoZom c).foldl (fun e z => e.zPut z ((grid m 64).map fun p => (p.1, p.2, 0))) e
    (s.setEng (e.zPut zt ((upFrom 0 32).map fun j => (j, 32, 0)))).engUnit 1 0)

/-- One row of ATSO UPDATE (R303). -/
def updateRow (zs zt : Nat) (zom : List Nat) (acc : Eng × Fl) (r : Nat) : Eng × Fl :=
  let (e, fl) := acc
  let f32 := fmtF32
  let row := (upFrom 0 32).map fun j => f32.val (e.zAt zs r j)
  let m0 := f32.val (e.zAt zt r 0)
  let pinf := row.contains (.inf false)
  if m0.isNan || pinf || row.any Num.isNan then
    let nan := f32.nan
    let e := (e.zPut zt [(r, 0, nan), (r, 1, nan)]).zPut zs ((upFrom 0 32).map fun j => (r, j, nan))
    (zom.foldl (fun e z => e.zPut z ((upFrom 0 64).map fun c => (r, c, nan))) e, if pinf then fl ||| flNV else fl)
  else
    let top := row.foldl (fun b x => if ltNum b x then x else b) (.inf true)
    let mnew : Num := match top with
      | .fin n m x => let c := numOfInt (ceilNum n m x); if ltNum c m0 then m0 else c
      | _ => m0
    let f : Num := if m0 = .inf true then .fin false 0 0 else pow2 (addNum m0 mnew.neg).1
    let ps := row.map fun x => if x.isInf then (0, 0) else f32.rne (pow2 (addNum x mnew.neg).1)
    let sum := ps.foldl (fun b p => (addNum b (f32.val p.1)).1) (.fin false 0 0)
    let (lf, g1) := mulNum (f32.val (e.zAt zt r 1)) f
    let (l, g2) := f32.done (addNum lf sum)
    let e := (e.zPut zt [(r, 1, l), (r, 0, (f32.rne mnew).1)]).zPut zs (((upFrom 0 32).zip ps).map fun p => (r, p.1, p.2.1))
    let fl := ps.foldl (fun b p => b ||| p.2) (fl ||| g1 ||| g2)
    zom.foldl (fun (a : Eng × Fl) z =>
      let vs := (upFrom 0 64).map fun c => (c, f32.done (mulNum (f32.val (a.1.zAt z r c)) f))
      (a.1.zPut z (vs.map fun v => (r, v.1, v.2.1)), vs.foldl (fun b v => b ||| v.2.2) a.2)) (e, fl)
/-- ATSO UPDATE (R303). -/
def execAtsoUpdate (s : State) : Out :=
  .next (s.engDo (isAtso 1) (fun _ _ => .ok) fun c s =>
    let (e, fl) := (upFrom 0 (atsoM c)).foldl (updateRow (atsoZs c) (atsoZt c) (atsoZom c)) (s.eng, 0)
    (s.setEng e).engUnit 1 fl)

/-- a / b with a last place that stands for the rest (R144, R145); b is no zero. -/
def divNum : Num → Num → Num × Fl
  | .nan, _ => (.nan, 0)
  | _, .nan => (.nan, 0)
  | .inf _, .inf _ => (.nan, flNV)
  | .inf a, .fin b _ _ => (.inf (a != b), 0)
  | .fin a _ _, .inf b => (.fin (a != b) 0 0, 0)
  | .fin a m e, .fin b n g =>
    if m = 0 then (.fin (a != b) 0 0, 0)
    else
      let p := Nat.log2 n + 64
      (.fin (a != b) (2 * (m * 2 ^ p / n) + (if m * 2 ^ p % n = 0 then 0 else 1)) (e - g - p - 1), 0)
/-- ATSO FINAL (R303). -/
def execAtsoFinal (s : State) : Out :=
  .next (s.engDo (isAtso 2) (fun _ _ => .ok) fun c s =>
    let out := (atsoZom c).flatMap fun z => (grid (atsoM c) 64).map fun p =>
      let l := fmtF32.val (s.eng.zAt (atsoZt c) p.1 1)
      (z, p, if l.isZero then (0, 0) else fmtF32.done (divNum (fmtF32.val (s.eng.zAt z p.1 p.2)) l))
    (s.setEng (out.foldl (fun e o => e.zPut o.1 [(o.2.1.1, o.2.1.2, o.2.2.1)]) s.eng)).engUnit 1
      (out.foldl (fun f o => f ||| o.2.2.2) 0))

/-- An exact sum of quotients: NaN, infinity, or num / den * 2^e. -/
inductive Quo where
  | nan
  | inf
  | fin (num den : Nat) (e : Int)
  deriving DecidableEq, Repr
/-- The sum with p / l, p at least 0 and l positive and finite. -/
def Quo.add (q : Quo) (p l : Num) : Quo :=
  match q, p, l with
  | .nan, _, _ => .nan
  | _, .nan, _ => .nan
  | _, .inf _, _ => .inf
  | .inf, _, _ => .inf
  | .fin a b x, .fin _ m e, .fin _ n g =>
    let y := e - g
    let lo := min x y
    .fin (a * n * 2 ^ (x - lo).toNat + m * b * 2 ^ (y - lo).toNat) (b * n) lo
  | q, _, _ => q
/-- The value of such a sum, with a last place that stands for the rest. -/
def Quo.num : Quo → Num
  | .nan => .nan
  | .inf => .inf false
  | .fin a b e =>
    if a = 0 then .fin false 0 0
    else
      let p := Nat.log2 b + 64
      .fin false (2 * (a * 2 ^ p / b) + (if a * 2 ^ p % b = 0 then 0 else 1)) (e - p - 1)
/-- Is a value finite and above 0? -/
def positive : Num → Bool
  | .fin neg m _ => !neg && m != 0
  | _ => false
/-- The mass of key j (R303). -/
def massOf (e : Eng) (zs zt m j : Nat) : Nat × Fl :=
  let (q, fl) := (upFrom 0 m).foldl (fun (a : Quo × Fl) r =>
    let l := fmtF32.val (e.zAt zt r 1)
    if positive l then
      let (x, g) := addNum (fmtF32.val (e.zAt zs r j)) (fmtF32.val (e.zAt zt r 0)).neg
      let (p, h) := fmtF32.rne (pow2 x)
      (a.1.add (fmtF32.val p) l, a.2 ||| g ||| h)
    else a) (.fin 0 1 0, (0 : Fl))
  let (v, g) := fmtF32.round .rdn 0 q.num
  (v, fl ||| g)
/-- ATSO MASS (R303). -/
def execAtsoMass (s : State) : Out :=
  .next (s.engDo (isAtso 3) (fun _ _ => .ok) fun c s =>
    let out := (upFrom 0 32).map fun j => (j, massOf s.eng (atsoZs c) (atsoZt c) (atsoM c) j)
    (s.setEng (s.eng.zPut (atsoZt c) (out.map fun o => (o.1, 32, o.2.1)))).engUnit 1 (out.foldl (fun f o => f ||| o.2.2) 0))

/-- The checks of ATAV (R302, Table 12-3). -/
def atavCheck (s : State) (c : Nat) : EChk :=
  let d := descOf s (bitsAt c 6 3)
  if !d.testBit 127 then .bad 1 0
  else if aDim d ≤ 64 * bitsAt c 9 3 then .bad 6 0
  else (atBlock s true d (bitsAt c 12 16)).chk
/-- The products that ATAV accumulates for columns lo to lo + n - 1 of the values (R304). -/
def State.atavRows (s : State) (c n live : Nat) (vs : List (List Num)) : State :=
  let out := (grid (bitsAt c 28 6 + 1) n).map fun p =>
    let ps := (upFrom 0 32).map fun j => if live.testBit j then fmtF32.val (s.eng.zAt (bitsAt c 3 3) p.1 j) else .fin false 0 0
    (p, mmaElem (s.eng.zAt (bitsAt c 0 3) p.1 p.2) ps (vs.map fun v => v.getD p.2 .nan) (.fin false 1 0) (.fin false 1 0))
  (s.setEng (s.eng.zPut (bitsAt c 0 3) (out.map fun o => (o.1.1, o.1.2, o.2.1)))).engUnit 1
    (out.foldl (fun f o => f ||| o.2.2) 0)
/-- ATAV with its block found (R304): the values are read. -/
def State.atavVals (s : State) (c d lo n live : Nat) (pas : List Nat) : State :=
  match s.tokens d pas (64 * bitsAt d 32 8) lo n with
  | (.error w, s) => s.atDead d w
  | (.ok vs, s) => s.atavRows c n live vs

/-- ATAV (R304). -/
def execAtav (s : State) : Out :=
  .next (s.engDo (fun c => cOp c == 0x13) atavCheck fun c s =>
    let d := descOf s (bitsAt c 6 3)
    let lo := 64 * bitsAt c 9 3
    let n := min 64 (aDim d - lo)
    s.withBlock true d (bitsAt c 12 16) fun blk s =>
    match blk with
    | .ok _ live _ pas => s.atavVals c d lo n live pas
    | _ => s.atavRows c n 0 (List.replicate 32 (List.replicate n (.fin false 0 0))))

/-- What ATMC commits for a key (R305): floor(w * 65536), at most 0xFFFFFFFF. -/
def massCount : Num → Nat
  | .nan => 0
  | .inf neg => if neg then 0 else 0xFFFFFFFF
  | .fin neg m e => if neg then 0 else min (let x := e + 16; if 0 ≤ x then m * 2 ^ x.toNat else m / 2 ^ (-x).toNat) 0xFFFFFFFF
/-- The checks of ATMC (R302, R305): it reads no page. -/
def atmcCheck (s : State) (c : Nat) : EChk :=
  let d := descOf s (bitsAt c 3 3)
  if !d.testBit 127 then .bad 1 0 else (atBlock s false d (bitsAt c 6 16)).chk
/-- ATMC (R305). -/
def execAtmc (s : State) : Out :=
  .next (s.engDo (fun c => cOp c == 0x14) atmcCheck fun c s =>
    let d := descOf s (bitsAt c 3 3)
    s.withBlock false d (bitsAt c 6 16) fun blk s =>
    match blk with
    | .ok mdx _ _ _ =>
      let base := mdPa s s.here.die mdx
      let e := s.eng
      let s := each (fun j s =>
        let k := massCount (fmtF32.val (e.zAt (bitsAt c 0 3) j 32))
        if k = 0 then s
        else s.store (base + 4 * j) (bytesOf 4 (min (ofBytes (s.peek (base + 4 * j) 4) + k) 0xFFFFFFFF))) (upFrom 0 32) s
      s.engUnit 1 0
    | _ => s.engUnit 1 0)

end Sys2Proof.Machine
end

