-- ==== Sys2Proof/Machine/Xfer.lean ====
section
/-!
DEFINITION. The transfer engines (R307-R325, R415-R420, R425, R438): chains, command checks, data commands one element or piece at a
time, chain control, events, KV commands.
-/
namespace Sys2Proof.Machine

/-- A chain of the ring: cluster, engine, place. -/
structure ChId where
  cl : Nat
  e : Nat
  ch : Nat
  deriving DecidableEq, Repr

/-- The chain that the step is about. -/
def State.chId (s : State) : ChId := { cl := 2 * s.here.die + s.here.cl % 2, e := s.here.eng % 2, ch := s.here.ch }
/-- A running chain. -/
def State.chain (s : State) (i : ChId) : Option Chain := spFind ((s.clusterAt i.cl).xeng i.e).chains i.ch
/-- Changes it. -/
def State.onChain (s : State) (i : ChId) (f : Chain → Chain) : State :=
  match s.chain i with
  | some c => s.onXeng i.cl i.e fun x => { x with chains := spSet x.chains i.ch (f c) }
  | none => s
/-- Who waits at the source of a chain's slots. -/
def ChId.who (i : ChId) : Who := .chain i.cl i.e i.ch
/-- The chain is over: its place is free, and nothing waits at the source of a slot of it that is still on the ring. -/
def State.chDrop (s : State) (i : ChId) : State :=
  let free : FSlot → FSlot := fun f => if f.who == i.who then { f with who := .none } else f
  let s : State := { s with slots := s.slots.map free, msgs := s.msgs.map fun m => { m with slot := m.slot.map free } }
  s.onXeng i.cl i.e fun x => { x with chains := spDel x.chains i.ch }

/-- Doubleword k of a command (Table 13-2: its operands are 1 to 14). -/
def Chain.dw (c : Chain) (k : Nat) : W64 := dwAt c.cmd (8 * k)
/-- Fields of a command header (Table 13-1). -/
def Chain.op (c : Chain) : Nat := fieldOf (c.dw 0) 58 6
def Chain.last (c : Chain) : Bool := bitOf (c.dw 0) 57
def Chain.waits (c : Chain) : Nat := fieldOf (c.dw 0) 41 16
def Chain.sig (c : Chain) : Nat := fieldOf (c.dw 0) 25 16
def Chain.tag (c : Chain) : Nat := fieldOf (c.dw 0) 9 16
def Chain.tinc (c : Chain) : Bool := bitOf (c.dw 0) 8
def Chain.esz (c : Chain) : Nat := fieldOf (c.dw 0) 5 3
/-- The loop offsets of a chain (R317). -/
def Chain.soff (c : Chain) : Int := c.lv.foldl (fun n l => n + l.so) 0
def Chain.doff (c : Chain) : Int := c.lv.foldl (fun n l => n + l.dof) 0

/-- The bits that an operand doubleword of a command may have (Table 13-2; address operands below 2^53). -/
def opMask (op k : Nat) : Nat :=
  let A := 2 ^ 53 - 1
  let F := 2 ^ 64 - 1
  match op, k with
  | 0x01, 1 | 0x01, 2 | 0x02, 1 | 0x02, 2 | 0x03, 1 | 0x03, 2 | 0x04, 2 | 0x11, 1 | 0x12, 1 | 0x13, 1 => A
  | 0x01, 3 | 0x04, 3 => 2 ^ 40 - 1
  | 0x03, 3 => 2 ^ 43 - 1
  | 0x02, 3 | 0x04, 4 | 0x10, 2 | 0x10, 3 | 0x11, 2 | 0x12, 2 | 0x13, 2 => F
  | 0x05, 1 | 0x05, 2 | 0x06, 1 | 0x06, 2 | 0x09, 1 | 0x10, 1 => 2 ^ 24 - 1
  | 0x05, 3 => 1
  | 0x07, 1 | 0x08, 1 => 2 ^ 18 - 1
  | 0x07, 2 => 63
  | 0x07, 3 | 0x08, 3 | 0x13, 3 => 15
  | 0x08, 2 | 0x09, 2 => 2 ^ 32 - 1
  | 0x09, 3 => 0x3F1F
  | 0x11, 3 => 0xFF07
  | 0x02, k => if 4 ≤ k && k ≤ 9 then F else 0
  | 0x03, k => if 4 ≤ k && k ≤ 10 then A else 0
  | 0x07, k => if 4 ≤ k then A else 0
  | 0x08, k => if 4 ≤ k then A else 0
  | _, _ => 0

/-- Does a command break its format (R309, R312, code 0x01)? So does a FILL with ESZ 4 to 6, which R313 does not allow and for which Table 13-4
names no code (the model's choice: log entry 19). -/
def Chain.badFormat (c : Chain) : Bool :=
  let op := c.op
  let es := 2 ^ c.esz
  let scope := fieldOf (c.dw 0) 2 3
  let cc := fieldOf (c.dw 3) 0 3
  !([1, 2, 3, 4, 5, 6, 7, 8, 9, 0x10, 0x11, 0x12, 0x13].contains op) || fieldOf (c.dw 0) 0 2 != 0 ||
  ((upFrom 1 14).any fun k => (c.dw k).toNat &&& opMask op k != (c.dw k).toNat) ||
  (if op == 1 || op == 2 || op == 3 then c.esz == 7 else if op = 4 then decide (3 < c.esz) else c.esz != 0) ||
  (if op == 0x12 || op == 0x13 then decide (5 < scope) else scope != 0) ||
  (!([1, 2, 3, 4, 5, 7].contains op) && (c.tag != 0 || c.tinc)) ||
  match op with
  | 0x01 => (c.dw 3).toNat % es != 0
  | 0x04 => (c.dw 3).toNat % es != 0
  | 0x07 => decide (47 < (c.dw 2).toNat) || decide (11 < (c.dw 3).toNat)
  | 0x08 => decide (11 < (c.dw 3).toNat)
  | 0x10 => fieldOf (c.dw 1) 16 8 == 0
  | 0x11 => decide (5 < cc) || fieldOf (c.dw 3) 8 8 == 0
  | 0x13 => if bitOf (c.dw 3) 3 then c.dw 1 != 0 || c.dw 2 != 0 || cc != 0 else decide (5 < cc)
  | _ => false

/-- Is an address or stride of a command misaligned (R313, R317, R318, R325, code 0x02)? -/
def Chain.misaligned (c : Chain) : Bool :=
  let es := 2 ^ c.esz
  let off : Nat → Bool := fun k => (c.dw k).toNat % es != 0
  match c.op with
  | 0x01 => off 1 || off 2
  | 0x02 => [1, 2, 4, 5, 6, 7, 8, 9].any off
  | 0x04 => off 2
  | 0x07 => (upFrom 4 (c.dw 3).toNat).any fun k => (c.dw k).toNat % 8 != 0
  | 0x08 => (upFrom 4 (c.dw 3).toNat).any fun k => (c.dw k).toNat % 8 != 0
  | 0x11 => (((c.dw 1).toNat : Int) + c.soff) % 8 != 0
  | 0x12 => (((c.dw 1).toNat : Int) + c.doff) % 8 != 0
  | 0x13 => !bitOf (c.dw 3) 3 && (((c.dw 1).toNat : Int) + c.soff) % 8 != 0
  | _ => false

/-- The status code that the checks of a command give, 0 if it passes (R312, Table 13-4): format, privilege, alignment. -/
def Chain.check (c : Chain) : Nat :=
  if c.badFormat then 1
  else if (c.op == 7 || c.op == 8) && !c.sup then 4
  else if c.misaligned then 2
  else 0

/-- Is a slot one of a chain's? -/
def ChId.owns (i : ChId) (f : FSlot) : Bool := f.who == i.who
/-- Has the chain a slot of a sort on the ring, or a notice on its way that one was lost (R311, R437)? -/
def State.chAny (s : State) (i : ChId) (p : FSlot → Bool) : Bool :=
  (s.slots.any fun f => i.owns f && p f) || s.msgs.any fun m => match m.slot with | some f => i.owns f && p f | none => false
/-- Does a slot carry a read? -/
def FSlot.reads (f : FSlot) : Bool := f.kind == 1 || f.kind == 2
/-- Has the chain a read on the ring? -/
def State.chReads (s : State) (i : ChId) : Bool := s.chAny i FSlot.reads
/-- Has the chain any slot on the ring? -/
def State.chBusy (s : State) (i : ChId) : Bool := s.chAny i fun _ => true

/-- Translates one piece for a requester at the port of core n, under its root and in its class (R307, R345, R378, R385): with a failure, how far
into the piece the failing byte lies. -/
def State.portPiece (s : State) (n : Nat) (root : W64) (sup : Bool) (need : Need) (va len : Nat) : (XRes × Nat) × State :=
  match translate s n root sup need va with
  | (.ok pa, s) =>
    if levelBad s (n / 384) sup pa len need.w then ((.bad 1, levelFail s (n / 384) sup pa len need.w), s)
    else match if paSpace pa = 3 then ctlCheck sup pa len need.w else none with
      | some (_, o) => ((.bad 2, o), s)
      | none => ((.ok pa, 0), s)
  | (r, s) => ((r, 0), s)
/-- The same for a chain, by the port of the core that issued it. -/
def State.chPiece (s : State) (c : Chain) (need : Need) (va n : Nat) : (XRes × Nat) × State := s.portPiece c.core c.root c.sup need va n
/-- Translates pieces in order. -/
def State.chPieces (s : State) (c : Chain) (need : Need) : List (Nat × Nat) → RRes × State
  | [] => (.ok [], s)
  | (va, n) :: t =>
    match s.chPiece c need va n with
    | ((.bad k, o), s) => (.bad k (va + o), s)
    | ((.absent, _), s) => (.park false va, s)
    | ((.motion, _), s) => (.park true va, s)
    | ((.ok pa, _), s) =>
      match s.chPieces c need t with
      | (.ok rs, s) => (.ok ((pa, n) :: rs), s)
      | r => r
/-- Translates n bytes at an address for a chain. -/
def State.chAccess (s : State) (c : Chain) (need : Need) (va : Int) (n : Nat) : RRes × State :=
  if va < 0 || 2 ^ 53 ≤ va then (.bad 5 (va % 2 ^ 64).toNat, s)
  else s.chPieces c need (pageSplit va.toNat n (n / 8192 + 2))

/-- An access of a chain, n bytes at an address, parks (R415, R418): SUB 3; the first time that it finds a leaf not present it is reported. -/
def State.chPark (s : State) (i : ChId) (c : Chain) (at0 : Int) (n va : Nat) (motion : Bool) : State :=
  let die := i.cl / 2
  let t := s.tickOf die
  let span := pageSplit at0.toNat n (n / 8192 + 2)
  let s := (s.countPark die).onChain i fun c =>
    { c with park := some { va := va, t0 := t, k := 0, motion := motion, sub := 3, span := span }
             told := if motion then c.told else span }
  if motion || c.told == span then s else s.err die noCore 0x10 3 0 va (fieldOf c.root 52 12) (bytesOf 8 t.toNat)

/-- Lowers the HOLD that a PROMOTE raised (R420). Of a slot that has been retired and admitted anew, whose HOLD R74 has made 0, it stays 0
(the model's choice: log entry 40). -/
def State.chUnhold (s : State) (i : ChId) : State :=
  match s.chain i with
  | some c =>
    match c.hold with
    | some k => (s.onSlot (i.cl / 2) k fun r => { r with hold := r.hold - 1 }).onChain i fun c => { c with hold := none }
    | none => s
  | none => s

/-- The command has acted, or ended with a code (R312): it is to be retired. A page on its way is at rest again. -/
def State.chEnd (s : State) (i : ChId) (code detail : Nat) : State :=
  (s.chUnhold i).onChain i fun c =>
    { c with ph := .retire, code := code, detail := detail, nxt := c.pc + 128, sent := false, buf := [], got := false, asked := false }
/-- The command ends with an access code (R312): detail the failing address. -/
def State.chFail (s : State) (i : ChId) (va : Nat) : State := s.chEnd i 3 va

/-- The chain stops at a command that meets an uncorrectable word (R425): no STATUS, no SIG. -/
def State.chStop (s : State) (i : ChId) (c : Chain) (w : Nat) : State :=
  ((s.chUnhold i).chDrop i).err (i.cl / 2) noCore 0x12 1 0 w c.head
/-- A KV command that meets one stops, and its slots are finished as though RQFIN named them (R425, R75). -/
def State.chKvStop (s : State) (i : ChId) (c : Chain) (slots : List Nat) (w : Nat) : State :=
  let die := i.cl / 2
  let s := (s.chUnhold i).chDrop i
  (each (fun k s => s.rqfin die k) slots s).err die noCore 0x12 2 0 w (match slots with | k :: _ => k | [] => c.head)

/-- The chain's command cannot be read (R308): it stops, kind 0x05 SUB 1. -/
def State.chUnread (s : State) (i : ChId) (c : Chain) (code : Nat) : State :=
  (s.chDrop i).err (i.cl / 2) noCore 5 1 0 c.pc (code * 2 ^ 56) (bytesOf 8 c.head)

/-- Reads the runs of an access that lie on the chain's die or in companion memory, into bytes that hold the rest. -/
def State.chNear (s : State) (c : Chain) (rs : List (Nat × Nat)) (d : List Byte) : Except Nat (List Byte) × State :=
  let die := c.core / 384
  (accPieces rs 0).foldl (fun acc p =>
    match acc with
    | (.ok d, s) =>
      if remoteTo die p.2.1 then (.ok d, s)
      else
        match s.serveLoad die p.2.1 p.2.2 c.sup with
        | (.ok bs, s) => (.ok (splice d p.1 bs), s)
        | (.error w, s) => (.error w, s)
    | e => e) (.ok d, s)

/-- A read of a chain (R311, R334): k goes on with the bytes once every piece is there; pieces on other dies are asked for, once no write of
the command to the same bytes is on its way (R313). -/
def State.chLoad (s : State) (i : ChId) (va : Int) (n : Nat) (bad : Nat → State → State) (k : List Byte → State → State) : State :=
  match s.chain i with
  | none => s
  | some c =>
    if c.got then k c.buf s
    else if s.chReads i then s
    else
      match s.chAccess c { rd := true } va n with
      | (.bad _ v, s) => bad v s
      | (.park m v, s) => s.chPark i c va n v m
      | (.ok rs, s) =>
        let die := c.core / 384
        let far := (accPieces rs 0).filter fun p => remoteTo die p.2.1
        if s.chAny i fun f => !f.reads && runsMeet rs [(f.pa, f.len)] then s
        else if far.isEmpty || c.asked then
          match s.chNear c rs (if c.asked then c.buf else List.replicate n 0) with
          | (.error w, s) => s.chStop i c w
          | (.ok bs, s) => k bs (s.onChain i fun c => { c with buf := bs, got := true, told := [] })
        else
          let s := s.onChain i fun c => { c with buf := List.replicate n 0, asked := true }
          each (fun (p : Nat × Nat × Nat) s =>
            s.inject { kind := 1, dst := paDie p.2.1, dstc := paCore p.2.1, src := die, srcc := noCore, pa := p.2.1, len := p.2.2,
                       need := p.1, handle := (va + p.1).toNat, who := i.who }) far s

/-- Bytes of a chain's read arrive from another die. -/
def State.chGot (s : State) (i : ChId) (off : Nat) (bs : List Byte) : State := s.onChain i fun c => { c with buf := splice c.buf off bs }

/-- The bytes of a tile that n bytes at an address cover, as a mask. -/
def tileMask (t pa n : Nat) : Nat :=
  let lo := max pa (512 * t)
  let hi := min (pa + n) (512 * t + 512)
  if lo < hi then (2 ^ (hi - lo) - 1) <<< (lo - 512 * t) else 0

/-- Counts bytes that a command has written in tile store (R315): a tile all of whose bytes it has written has its tag, by the number of
tiles completed before it. -/
def Chain.mark (c : Chain) (pa n : Nat) : Chain :=
  if paSpace pa != 0 || n == 0 then c
  else
    (upFrom (pa / 512) ((pa + n - 1) / 512 - pa / 512 + 1)).foldl (fun c t =>
      let old := (spGet (0, 0) c.part t)
      let m := old.1 ||| tileMask t pa n
      let full := m == 2 ^ 512 - 1 && old.1 != m
      let tag := if full then BitVec.ofNat 16 (c.tag + if c.tinc then c.tiles else 0) else old.2
      { c with part := spSet c.part t (m, tag), tiles := if full then c.tiles + 1 else c.tiles }) c
/-- n bytes of a chain's data command have been written at an address, within one line: the tile takes its tag once all of its bytes have
been (R315, R107). A line that is lost is never written. -/
def State.chTag (s : State) (i : ChId) (pa n : Nat) : State :=
  let s := s.onChain i fun c => c.mark pa n
  match s.chain i with
  | some c =>
    let p := spGet (0, 0) c.part (pa / 512)
    if p.1 == 2 ^ 512 - 1 then s.tagTiles (pa / 512 * 512) 512 p.2 else s
  | none => s

/-- A write of a chain (R311, R313, R337): k goes on once it is served here or sent. A line with a write unacknowledged waits. m is the
member that the slots carry. Where one of its pages fails, none of its bytes is written, those on a good page before it neither: the manual
does not say (the model's choice: log entry 19). -/
def State.chStore (s : State) (i : ChId) (va : Int) (bs : List Byte) (m : Nat) (marks : Bool) (bad : Nat → State → State)
    (k : State → State) : State :=
  match s.chain i with
  | none => s
  | some c =>
    match s.chAccess c { w := true } va bs.length with
    | (.bad _ v, s) => bad v s
    | (.park p v, s) => s.chPark i c va bs.length v p
    | (.ok rs, s) =>
      let die := c.core / 384
      let ps := accPieces rs 0
      if ps.any fun p => remoteTo die p.2.1 && s.chAny i fun f => !f.reads && f.pa / 64 == p.2.1 / 64 then s
      else
        let s := if c.told.isEmpty then s else s.onChain i fun c => { c with told := [] }
        let s := each (fun (p : Nat × Nat × Nat) s =>
          let d := (bs.drop p.1).take p.2.2
          if remoteTo die p.2.1 then
            s.inject { kind := 0, dst := paDie p.2.1, dstc := paCore p.2.1, src := die, srcc := noCore, pa := p.2.1, len := p.2.2,
                       need := if marks then 1 else 0, rank := m, handle := (va + p.1).toNat, who := i.who, data := d }
          else
            let s := s.serveStore die p.2.1 d c.sup
            if marks then s.chTag i p.2.1 p.2.2 else s) ps s
        k s

/-- The chain goes on to its next element or piece. -/
def State.chNext (s : State) (i : ChId) : State :=
  s.onChain i fun c => { c with prog := c.prog + 1, buf := [], got := false, asked := false }

/-- The command of a chain that is to read one is read and checked (R308, R317). Detail of a command that fails its checks is 0, code 0x02 too:
the manual does not say whether the misaligned address is a failing one (the model's choice: log entry 19). -/
def State.chRead (s : State) (i : ChId) : State :=
  match s.chain i with
  | none => s
  | some c =>
    if c.ph != .read || c.park.isSome then s
    else
      s.chLoad i c.pc 128 (fun _ s => s.chUnread i c 3) fun bs s =>
        let c := { c with cmd := bs, prog := 0, tiles := 0, part := [], code := 0, mask := 0, detail := 0, slots := [], kv := none,
                          hold := none, buf := [], got := false, asked := false, sent := false, park := none, nxt := c.pc + 128 }
        match c.check with
        | 0 => s.onChain i fun _ => { c with ph := .wait }
        | code => s.onChain i fun _ => { c with ph := .retire, code := code }

/-- CHAIN_START (R307, R308): the oldest unstarted head takes a free place of its engine, and its first command is read; a command whose
read waited is read. -/
def execChainStart (s : State) : Out :=
  let i := s.chId
  .next (
    if 4 ≤ i.ch then s
    else
      match s.chain i with
      | some _ => s.chRead i
      | none =>
        match ((s.clusterAt i.cl).xeng i.e).heads with
        | h :: t =>
          (s.onXeng i.cl i.e fun x =>
            { x with heads := t, chains := spSet x.chains i.ch { head := h.pc, pc := h.pc, core := h.core, root := h.root, sup := h.sup } }).chRead i
        | [] => s)

/-- The command of the chain of the step acts, if it is of an operation and its events allow it (R310, R317): its WAIT events are taken
once. -/
def State.chAct (s : State) (op : Nat) (k : ChId → Chain → State → State) : Out :=
  let i := s.chId
  .next (
    match s.chain i with
    | none => s
    | some c =>
      if c.op != op || c.park.isSome then s
      else
        match c.ph with
        | .act => k i c s
        | .wait =>
          let cl := s.clusterAt i.cl
          if countsReady cl.ev c.waits 16 then
            let s := (s.onCluster i.cl fun x => { x with ev := takeCounts x.ev c.waits 16 }).onChain i fun c => { c with ph := .act }
            k i { c with ph := .act } s
          else s
        | _ => s)

/-- One element of COPY or COPYND (R313): number prog of the nest n0, n1, n2, innermost first; total elements in all. Each element's accesses
count their own lines of companion memory (the model's choice: log entry 41). -/
def State.copyElem (s : State) (i : ChId) (c : Chain) (n0 n1 n2 total : Nat) : State :=
  if total ≤ c.prog then s.chEnd i 0 0
  else
    let es : Nat := 2 ^ c.esz
    let a : Int := (c.prog % n0 : Nat)
    let b : Int := (c.prog / n0 % n1 : Nat)
    let cc : Int := (c.prog / n0 / n1 % n2 : Nat)
    let d : Int := (c.prog / n0 / n1 / n2 : Nat)
    let nd := c.op == 2
    let str : Nat → Int := fun k => if nd then (c.dw k).toInt else 0
    let x := ((c.dw 1).toNat : Int) + c.soff + a * es + b * str 4 + cc * str 5 + d * str 6
    let y := ((c.dw 2).toNat : Int) + c.doff + a * es + b * str 7 + cc * str 8 + d * str 9
    s.chLoad i x es (fun v s => s.chFail i v) fun bs s => s.chStore i y bs 0 true (fun v s => s.chFail i v) fun s => s.chNext i

/-- COPY (R313): one element. -/
def execCopy (s : State) : Out :=
  s.chAct 0x01 fun i c s => let n := (c.dw 3).toNat / 2 ^ c.esz; s.copyElem i c n 1 1 n
/-- COPYND (R313): one element. -/
def execCopynd (s : State) : Out :=
  s.chAct 0x02 fun i c s =>
    let n : Nat → Nat := fun k => fieldOf (c.dw 3) (16 * k) 16 + 1
    s.copyElem i c (n 0) (n 1) (n 2) (n 0 * n 1 * n 2 * n 3)

/-- A member of MCAST fails (R314): its bit of the mask; the first failing address is the detail. -/
def Chain.memberFail (c : Chain) (m va : Nat) : Chain :=
  { c with mask := c.mask ||| 2 ^ m, code := 7, detail := if c.mask = 0 then va else c.detail }

/-- MCAST (R314): one piece of up to 512 bytes to one member; the piece is read once, before its first member and after every write of the piece
before it. -/
def execMcast (s : State) : Out :=
  s.chAct 0x03 fun i c s =>
    let len := fieldOf (c.dw 3) 0 40
    let nm := fieldOf (c.dw 3) 40 3 + 1
    let p := c.prog / 8
    let m := c.prog % 8
    if len ≤ 512 * p then s.chEnd i c.code c.detail
    else
      let n := min 512 (len - 512 * p)
      if m = 0 && !c.got && !c.asked && s.chBusy i then s
      else s.chLoad i (((c.dw 1).toNat : Int) + c.soff + (512 * p : Nat)) n (fun v s => s.chFail i v) fun bs s =>
        let go : State → State := fun s =>
          if m + 1 < nm then s.onChain i fun c => { c with prog := c.prog + 1 }
          else s.onChain i fun c => { c with prog := 8 * (p + 1), buf := [], got := false, asked := false }
        if c.mask.testBit m then go s
        else
          let dst := (c.dw (if m = 0 then 2 else 3 + m)).toNat
          s.chStore i ((dst : Int) + c.doff + (512 * p : Nat)) bs m true
            (fun v s => go (s.onChain i fun c => c.memberFail m v)) go

/-- FILL (R313): one element of VALUE. -/
def execFill (s : State) : Out :=
  s.chAct 0x04 fun i c s =>
    let es := 2 ^ c.esz
    if (c.dw 3).toNat / es ≤ c.prog then s.chEnd i 0 0
    else
      s.chStore i (((c.dw 2).toNat : Int) + c.doff + (c.prog * es : Nat)) (bytesOf es (c.dw 4).toNat) 0 true
        (fun v s => s.chFail i v) fun s => s.chNext i

/-- LOOP (R317): the innermost loop counts, and the walk goes back, or on. A fifth level, or a jump before the head, is code 0x06. -/
def execLoop (s : State) : Out :=
  s.chAct 0x10 fun i c s =>
    let lv : List LoopLvl := match c.lv.findIdx? fun l => l.pc == c.pc with
      | some k => c.lv.take (k + 1)
      | none => c.lv ++ [({ pc := c.pc, n := 0, so := 0, dof := 0 } : LoopLvl)]
    if 4 < lv.length then s.chEnd i 6 0
    else
      match lv.reverse with
      | [] => s
      | l :: rest =>
        if l.n < fieldOf (c.dw 1) 0 16 then
          let l := { l with n := l.n + 1, so := l.so + (c.dw 2).toInt, dof := l.dof + (c.dw 3).toInt }
          let back := 128 * fieldOf (c.dw 1) 16 8
          if c.pc < c.head + back then s.chEnd i 6 0
          else (s.chEnd i 0 0).onChain i fun c => { c with lv := rest.reverse ++ [l], nxt := c.pc - back }
        else (s.chEnd i 0 0).onChain i fun c => { c with lv := rest.reverse }

/-- Does a doubleword satisfy the condition of COND or WAITEV (R317, R231)? -/
def ccHolds (cc : Nat) (x v : W64) : Bool := match cndOf (BitVec.ofNat 3 cc) with | some k => cndHolds k x v | none => false

/-- COND (R317): a plain read of a doubleword decides how far the walk goes on. -/
def execCond (s : State) : Out :=
  s.chAct 0x11 fun i c s =>
    s.chLoad i (((c.dw 1).toNat : Int) + c.soff) 8 (fun v s => s.chFail i v) fun bs s =>
      let t := ccHolds (fieldOf (c.dw 3) 0 3) (dwAt bs 0) (c.dw 2)
      (s.chEnd i 0 0).onChain i fun c => { c with nxt := c.pc + 128 * ((if t then fieldOf (c.dw 3) 8 8 else 0) + 1) }

/-- NOTE (R318): VALUE is written, after every write of the chain's earlier commands, which have retired. -/
def execNote (s : State) : Out :=
  s.chAct 0x12 fun i c s =>
    s.chStore i (((c.dw 1).toNat : Int) + c.doff) (bytesOf 8 (c.dw 2).toNat) 0 false (fun v s => s.chFail i v) fun s => s.chEnd i 0 0

/-- WAITEV (R318): with NOADDR it waits for its events alone; else until the doubleword satisfies the condition. -/
def execWaitev (s : State) : Out :=
  s.chAct 0x13 fun i c s =>
    if bitOf (c.dw 3) 3 then s.chEnd i 0 0
    else
      s.chLoad i (((c.dw 1).toNat : Int) + c.soff) 8 (fun v s => s.chFail i v) fun bs s =>
        if ccHolds (fieldOf (c.dw 3) 0 3) (dwAt bs 0) (c.dw 2) then s.chEnd i 0 0
        else s.onChain i fun c => { c with buf := [], got := false, asked := false }

/-- A command that has retired (R311, R312, R317): one with a status other than 0x00 is reported (R414); then its events and the next command,
or the chain ends. -/
def State.chRetired (s : State) (i : ChId) (c : Chain) : State :=
  let ok := c.code == 0 || c.code == 7
  let s := if c.code == 0 then s
    else s.err (i.cl / 2) noCore 5 0 0 c.pc (c.code * 2 ^ 56 + c.mask * 2 ^ 48 + c.detail % 2 ^ 48) (bytesOf 8 c.head)
  if ok then
    let s := s.onCluster i.cl fun x => { x with ev := bumpCounts x.ev c.sig 16 }
    if c.last && !(c.op == 0x10 && c.nxt == c.pc - 128 * fieldOf (c.dw 1) 16 8) then s.chDrop i
    else (s.onChain i fun c => { c with pc := c.nxt, ph := .read, slots := [], kv := none, buf := [], got := false, asked := false }).chRead i
  else s.chDrop i

/-- COMMAND_RETIRE (R311, R312): once its writes are acknowledged the command's STATUS is written, then its events rise. A STATUS that
cannot be written ends the command with code 0x03. -/
def execCommandRetire (s : State) : Out :=
  let i := s.chId
  .next (
    match s.chain i with
    | none => s
    | some c =>
      if c.ph != .retire || c.park.isSome || s.chBusy i then s
      else if c.sent then s.chRetired i c
      else
        let v := c.code * 2 ^ 56 + c.mask * 2 ^ 48 + c.detail % 2 ^ 48
        s.chStore i ((c.pc : Int) + 120) (bytesOf 8 v) 0 false
          (fun va s =>
            let c := if c.code == 0 || c.code == 7 then { c with code := 3, detail := va } else c
            s.chRetired i c)
          fun s => if s.chBusy i then s.onChain i fun c => { c with sent := true } else s.chRetired i c)

/-- Are slots held by another KV command of the die, or by the scraper (R321)? -/
def slotsHeld (s : State) (i : ChId) (slots : List Nat) : Bool :=
  slots.any fun k =>
    scraping (s.dieAt (i.cl / 2)) k ||
    [0, 1].any fun c => [0, 1].any fun e =>
      ((s.clusterAt (i.cl / 2 * 2 + c)).xeng e).chains.any fun p =>
        p.2.slots.contains k && !(i.cl == i.cl / 2 * 2 + c && i.e == e && i.ch == p.1)

/-- SLOT and IDX of an operand of a KV command (Table 13-2). -/
def kvSlot (w : W64) : Nat := fieldOf w 16 8
def kvIdx (w : W64) : Nat := fieldOf w 0 16

/-- Has a KV command to wait for an entry that an operand names: its place, or that of its table's header, is in motion (R320)? -/
def entMoving (s : State) (die : Nat) (w : W64) : Bool :=
  kvMoving s die (s.slotAt die (kvSlot w)).ptbase || kvMoving s die (entVa s die (kvSlot w) (kvIdx w))
/-- A KV command takes the slots that its operands name, all at once, or waits (R321); then it waits while an entry is in motion (R320). -/
def State.kvTake (s : State) (i : ChId) (c : Chain) (ops : List W64) (k : State → State) : State :=
  let slots := ops.map kvSlot
  if c.slots.isEmpty && slotsHeld s i slots then s
  else
    let s := s.onChain i fun c => { c with slots := slots }
    if ops.any (entMoving s (i.cl / 2)) then s else k s

/-- entry(slot, idx) (R321): its physical address and value; a translation under KVROOT that fails is code 0x03, a slot or index that is
not there code 0x05, an uncorrectable word a stop. An entry that the command writes needs W (R86), checked before any write. -/
def State.kvEntry (s : State) (i : ChId) (c : Chain) (slots : List Nat) (slot idx : Nat) (w : Bool) (k : Nat → W64 → State → State) : State :=
  let die := i.cl / 2
  let r := s.slotAt die slot
  let word : State → Bool → Nat → (Nat → W64 → State → State) → State := fun s w va f =>
    let s := s.kvWalk die va
    match kvTranslate s die { rd := true, w := w } va with
    | .error _ => s.chFail i va
    | .ok pa =>
      match s.readMem die pa 8 with
      | (.error w, s) => s.chKvStop i c slots w
      | (.ok bs, s) => f pa (dwAt bs 0) s
  if r.state = 0 then s.chEnd i 5 0
  else
    word s false r.ptbase fun _ h s =>
      if fieldOf h 0 32 ≤ idx then s.chEnd i 5 0 else word s w (entVa s die slot idx) k

/-- The record of an index is read whole: an uncorrectable word in it stops the command. -/
def State.kvRec (s : State) (i : ChId) (c : Chain) (slots : List Nat) (md : Nat) (k : State → State) : State :=
  readThen (s.readMem (i.cl / 2) (mdPa s (i.cl / 2) md) 256) (fun w s => s.chKvStop i c slots w) fun _ s => k s

/-- A reference of a KV command is dropped (R321, R99); an uncorrectable word in its record stops the command (R425). -/
def State.kvDrop (s : State) (i : ChId) (c : Chain) (slots : List Nat) (e : W64) (k : State → State) : State :=
  if entV e then s.kvRec i c slots (entMdx e) fun s => k (s.dropRef (i.cl / 2) (entMdx e) 1) else k s

/-- KVSHARE (R322). -/
def execKvshare (s : State) : Out :=
  s.chAct 0x06 fun i c s =>
    let die := i.cl / 2
    let sl := [kvSlot (c.dw 1), kvSlot (c.dw 2)]
    s.kvTake i c [c.dw 1, c.dw 2] fun s =>
      s.kvEntry i c sl (kvSlot (c.dw 1)) (kvIdx (c.dw 1)) false fun _ se s =>
        s.kvEntry i c sl (kvSlot (c.dw 2)) (kvIdx (c.dw 2)) true fun dpa old s =>
          if !entV se then s.chEnd i 5 0
          else
            s.kvRec i c sl (entMdx se) fun s =>
              let n := s.refc die (entMdx se)
              if n = 65535 then s.chEnd i 5 0
              else
                ((s.mdWrite die (entMdx se) 236 2 (n + 1)).writeMem die dpa (bytesOf 8 se.toNat)).kvDrop i c sl old fun s => s.chEnd i 0 0

/-- One tile of a page copy: number prog of 16. -/
def State.pageTile (s : State) (i : ChId) (c : Chain) (slots : List Nat) (r : KvRun) : State :=
  let die := i.cl / 2
  match s.readMem die (r.pa0 + 512 * c.prog) 512 with
  | (.error w, s) => s.chKvStop i c slots w
  | (.ok bs, s) =>
    let dst := r.frame + 512 * c.prog
    let s := (s.writeMem die dst bs).onChain i fun c => { c with prog := c.prog + 1 }
    if paSpace dst = 0 then s.tagTiles dst 512 (BitVec.ofNat 16 (c.tag + if c.tinc then c.prog else 0)) else s

/-- Places enter and leave the motion table of a die (R320). -/
def State.moving (s : State) (die : Nat) (pas : List Nat) : State :=
  s.onDie die fun d => { d with motion := d.motion ++ pas.map (· / 8192) }
def State.atRest (s : State) (die : Nat) (pas : List Nat) : State :=
  s.onDie die fun d => { d with motion := pas.foldl (fun m p => m.erase (p / 8192)) d.motion }

/-- KVMOVE, the copy made (R323): the new record's tokens, its rest, the old reference dropped. -/
def State.kvmoveEnd (s : State) (i : ChId) (c : Chain) (slots : List Nat) (r : KvRun) : State :=
  let die := i.cl / 2
  s.kvRec i c slots r.src fun s =>
    ((((s.store (mdPa s die r.md) (s.peek (mdPa s die r.src) 232)).atRest die [r.frame]).endMove die r.md 0).onChain i fun c =>
      { c with prog := 17 }).kvDrop i c slots (BitVec.ofNat 64 r.old) id
/-- KVMOVE, its last part (R323): with DROP the source entry, unless it is the destination, loses its page. It waits while the entry is in
motion (R320). -/
def State.kvmoveDrop (s : State) (i : ChId) (c : Chain) (slots : List Nat) (r : KvRun) : State :=
  let die := i.cl / 2
  if bitOf (c.dw 3) 0 && !(kvSlot (c.dw 1) == kvSlot (c.dw 2) && kvIdx (c.dw 1) == kvIdx (c.dw 2)) then
    if entMoving s die (c.dw 1) then s
    else s.kvEntry i c slots (kvSlot (c.dw 1)) (kvIdx (c.dw 1)) true fun pa e s =>
      (s.writeMem die pa (bytesOf 8 (setField e 63 1 0).toNat)).kvRec i c slots r.src fun s => (s.dropRef die r.src 1).chEnd i 0 0
  else s.chEnd i 0 0

/-- KVMOVE (R323): its checks and the new page, then one tile of the copy at a time, then the rest. A source page that its record places where
nothing exists fails as an address that does not translate (R80, R81; log entry 21). -/
def execKvmove (s : State) : Out :=
  s.chAct 0x05 fun i c s =>
    let die := i.cl / 2
    let sl := [kvSlot (c.dw 1), kvSlot (c.dw 2)]
    match c.kv with
    | some r =>
      if c.prog < 16 then s.pageTile i c sl r else if c.prog = 16 then s.kvmoveEnd i c sl r else s.kvmoveDrop i c sl r
    | none =>
      s.kvTake i c [c.dw 1, c.dw 2] fun s =>
        s.kvEntry i c sl (kvSlot (c.dw 1)) (kvIdx (c.dw 1)) (bitOf (c.dw 3) 0 && c.dw 1 != c.dw 2) fun _ se s =>
          s.kvEntry i c sl (kvSlot (c.dw 2)) (kvIdx (c.dw 2)) true fun dpa old s =>
            if !entV se then s.chEnd i 5 0
            else
              s.kvRec i c sl (entMdx se) fun s =>
                if 2 ≤ s.mig die (entMdx se) then s
                else if !paOk s die (s.mdPage die (entMdx se)) then s.chFail i (fieldOf se 0 40 * 8192)
                else
                  match s.alloc die (kvSlot (c.dw 2)) with
                  | (none, s) => s.chEnd i 5 0
                  | (some (f, x), s) =>
                    let s := (s.setMig die x 2).moving die [f]
                    let s := s.writeMem die dpa (bytesOf 8 (2 ^ 63 + x * 2 ^ 42 + kvVa s f / 8192 % 2 ^ 40))
                    s.onChain i fun c =>
                      { c with prog := 0, kv := some { src := entMdx se, md := x, frame := f, pa0 := s.mdPage die (entMdx se), old := old.toNat } }

/-- A frame for a PROMOTE (R325, R101): with the cursor of slot OWNER, or of channel CH; no metadata index. -/
def State.promoteFrame (s : State) (die md ch : Nat) : Option Nat × State :=
  if s.ownv die md then
    let o := s.owner die md
    match chooseFrame s die (s.slotAt die o).cursor with
    | some (k, f) =>
      (some (framePa s die k f), (s.onDie die fun d => { d with kvUsed := frameKey k f :: d.kvUsed }).onSlot die o fun r =>
        { r with cursor := (k + 1) % 48 })
    | none => (none, s)
  else
    match freeFrame s die ch with
    | some f => (some (framePa s die ch f), s.onDie die fun d => { d with kvUsed := frameKey ch f :: d.kvUsed })
    | none => (none, s)

/-- The virtual addresses of the entries that a PROMOTE or DEMOTE names (Table 13-2). -/
def Chain.ents (c : Chain) : List Nat := (upFrom 4 (fieldOf (c.dw 3) 0 4)).map fun k => (c.dw k).toNat
/-- Rewrites the VPN of the entries that a PROMOTE or DEMOTE names (R325), one after the other: the first whose word is uncorrectable ends
this. -/
def State.moveEnts (s : State) (die md newVa : Nat) : List Nat → Option Nat × State
  | [] => (none, s)
  | va :: t =>
    match kvTranslate s die { rd := true, w := true } va with
    | .error _ => s.moveEnts die md newVa t
    | .ok pa =>
      match s.readMem die pa 8 with
      | (.error w, s) => (some w, s)
      | (.ok bs, s) =>
        let e := dwAt bs 0
        (if entV e && entMdx e == md then s.writeMem die pa (bytesOf 8 (setField e 0 40 (newVa / 8192)).toNat) else s).moveEnts die md newVa t

/-- The first ENT of a command that KVROOT does not translate, to be read and written (R86). -/
def badEnt (s : State) (die : Nat) (c : Chain) : Option Nat :=
  c.ents.find? fun va => match kvTranslate s die { rd := true, w := true } va with | .error _ => true | .ok _ => false

/-- The slot whose page a PROMOTE or DEMOTE moves, for R425: its OWNER. -/
def moveSlots (s : State) (die md : Nat) : List Nat := if s.ownv die md then [s.owner die md] else []

/-- STCFG (Table 4-11): BASE in bytes, and NPG. -/
def stBase (d : Die) : Nat := bitsAt (d.reg2 0x30A) 0 39 * 8192
def stPages (d : Die) : Nat := bitsAt (d.reg2 0x30A) 104 24
/-- V of STMAP[p]. -/
def stmapV (s : State) (die p : Nat) : Bool := (s.byteAt (stmapPa s die p + 3)).toNat / 128 == 1
/-- The end of a move (R325, R105, R99): the record's fields, and a free that waited. -/
def State.moveEnd (s : State) (i : ChId) (r : KvRun) (m : Nat) : State :=
  let die := i.cl / 2
  let s := s.mdWrite die r.md 240 8 r.frame
  let s := s.mdWrite die r.md 239 1 (putBits (s.mdRead die r.md 239 1) 4 1 0)
  (((s.mdWrite die r.md 232 4 0).atRest die [r.pa0, r.frame]).endMove die r.md m).onChain i fun c => { c with prog := 17 }
/-- The last part of a move (R325): its entries. It waits while the place of one is in motion (R320). -/
def State.moveRewrite (s : State) (i : ChId) (c : Chain) (r : KvRun) (slots : List Nat) (newVa : Nat) : State :=
  let die := i.cl / 2
  if c.ents.any (kvMoving s die) then s
  else
    match s.moveEnts die r.md newVa c.ents with
    | (some w, s) => s.chKvStop i c slots w
    | (none, s) => s.chEnd i 0 0

/-- PROMOTE with its record read and checked (R325, R420): the frame is taken and the move begins. -/
def State.promoteBegin (s : State) (i : ChId) (c : Chain) (md : Nat) : State :=
  let die := i.cl / 2
  let pa := s.mdPage die md
  let old := (bitsAt pa 0 52 - stBase (s.dieAt die)) / 8192
  let own := s.ownv die md
  let o := s.owner die md
  let p := s.promoteFrame die md (c.dw 2).toNat
  p.1.elim (p.2.chEnd i 5 0) fun f =>
    let s := (p.2.setMig die md 2).moving die [pa, f]
    let s := if own then s.onSlot die o fun r => { r with hold := r.hold + 1 } else s
    s.onChain i fun c => { c with prog := 0, hold := if own then some o else none,
                                  kv := some { src := md, md := md, frame := f, pa0 := pa, old := old } }
/-- PROMOTE (R325, R420): its checks and frame, then one tile at a time, then the record and entries. -/
def execPromote (s : State) : Out :=
  s.chAct 0x07 fun i c s =>
    let die := i.cl / 2
    let md := (c.dw 1).toNat
    let sl := moveSlots s die md
    match c.kv with
    | some r =>
      if c.prog < 16 then s.pageTile i c sl r
      else if c.prog = 16 then
        let e := stmapPa s die r.old
        (s.writeMem die e (bytesOf 4 (ofBytes (s.peek e 4) % 2 ^ 31))).moveEnd i r 0
      else s.moveRewrite i c r sl (kvVa s r.frame)
    | none =>
      s.kvRec i c sl md fun s =>
        let pa := s.mdPage die md
        let d := s.dieAt die
        let off := bitsAt pa 0 52
        let p := (off - stBase d) / 8192
        if s.mig die md != 1 || paSpace pa != 2 || decide (off < stBase d) || decide (stPages d ≤ p) then s.chEnd i 5 0
        else
          match badEnt s die c with
          | some va => s.chFail i va
          | none => s.promoteBegin i c md

/-- DEMOTE (R325): its checks, then one tile at a time, then the frame's return, the map, the record and entries. -/
def execDemote (s : State) : Out :=
  s.chAct 0x08 fun i c s =>
    let die := i.cl / 2
    let md := (c.dw 1).toNat
    let sl := moveSlots s die md
    match c.kv with
    | some r =>
      if c.prog < 16 then s.pageTile i c sl r
      else if c.prog = 16 then
        ((s.freeFramePa r.pa0).writeMem die (stmapPa s die r.old) (bytesOf 4 (2 ^ 31 + md))).moveEnd i r 1
      else s.moveRewrite i c r sl (stVa s die r.old)
    | none =>
      s.kvRec i c sl md fun s =>
        let p := (c.dw 2).toNat
        let d := s.dieAt die
        if s.mig die md != 0 || decide (stPages d ≤ p) || stmapV s die p then s.chEnd i 5 0
        else if !paOk s die (s.mdPage die md) then s.chEnd i 3 0
        else
          match badEnt s die c with
          | some va => s.chFail i va
          | none =>
            let dst := 2 * 2 ^ 52 + stBase d + 8192 * p
            let pa := s.mdPage die md
            let s := (s.setMig die md 3).moving die [pa, dst]
            s.onChain i fun c => { c with prog := 0, kv := some { src := md, md := md, frame := dst, pa0 := pa, old := p } }

/-- KVMARK (R324). -/
def execKvmark (s : State) : Out :=
  s.chAct 0x09 fun i c s =>
    let die := i.cl / 2
    let sl := [kvSlot (c.dw 1)]
    let pos := (c.dw 2).toNat
    let first := fieldOf (c.dw 3) 0 5
    let n := fieldOf (c.dw 3) 8 6
    s.kvTake i c [c.dw 1] fun s =>
      s.kvEntry i c sl (kvSlot (c.dw 1)) (kvIdx (c.dw 1)) false fun _ e s =>
        if !entV e then s.chEnd i 5 0
        else if n = 0 || 32 < first + n then s.chEnd i 1 0
        else
          let md := entMdx e
          s.kvRec i c sl md fun s =>
            if 2 ≤ s.mig die md then s
            else
              let live := s.mdRead die md 228 4
              let base := if live = 0 then (pos + 2 ^ 32 - first) % 2 ^ 32 else s.mdRead die md 224 4
              let rel : Nat → Nat := fun k => (pos + k + 2 ^ 32 - base) % 2 ^ 32
              if 2 ^ 24 ≤ rel (n - 1) then s.chEnd i 5 0
              else
                let s := s.mdWrite die md 224 4 base
                let s := each (fun k s => (s.mdWrite die md (128 + 3 * (first + k)) 3 (rel k)).mdWrite die md (4 * (first + k)) 4 0)
                  (upFrom 0 n) s
                let s := s.mdWrite die md 228 4 (live ||| ((2 ^ n - 1) <<< first))
                s.chEnd i 0 0

/-- What the access that a chain is at needs of its page (R308, R313, R318). -/
def Chain.need (c : Chain) : Need :=
  match c.ph with
  | .read => { rd := true }
  | .retire => { w := true }
  | _ => if c.op = 0x04 || c.op = 0x12 || c.got then { w := true } else { rd := true }
/-- A chain's park is retried (R417-R419), its whole access: a leaf still absent or a place still in motion escalates, or waits for the next retry; any
other answer lets the access go on, or find its fault. An escalated command ends with 0x03 and its chain stops, an MCAST too. -/
def State.chRetry (s : State) (i : ChId) (c : Chain) (p : ParkSt) : State :=
  let die := i.cl / 2
  match s.chPieces c c.need p.span with
  | (.park m va, s) =>
    if parkOver s die p then
      let s := (s.onChain i fun c => { c with park := none }).err die noCore 0x11 3 0 va (p.k + 1)
        (bytesOf 8 p.t0.toNat ++ bytesOf 8 c.pc)
      if c.ph = .read then s.chUnread i c 3
      else if c.ph = .retire then s.chRetired i { c with code := 3, detail := va }
      else s.chFail i va
    else s.onChain i fun c => { c with park := some { p with k := p.k + 1, motion := m, va := va } }
  | (_, s) => s.onChain i fun c => { c with park := none }

/-- A slot of a chain could not be delivered (R438): the command ends with status 0x08, 0x09 for a tenant refusal; a member of MCAST
fails; a command that was to be read cannot be. -/
def State.chLost (s : State) (i : ChId) (f : FSlot) (tenant : Bool) : State :=
  match s.chain i with
  | none => s
  | some c =>
    let code := if tenant then 9 else 8
    match c.ph with
    | .read => s.chUnread i c code
    | .retire =>
      if c.sent then s.onChain i fun c => { c with code := code, detail := f.handle }
      else if !f.reads && c.op = 3 then s.onChain i fun c => c.memberFail f.rank f.handle
      else if c.code = 0 then s.onChain i fun c => { c with code := code, detail := f.handle } else s
    | _ => if !f.reads && c.op = 3 then s.onChain i fun c => c.memberFail f.rank f.handle else s.chEnd i code f.handle

end Sys2Proof.Machine
end

