-- ==== Sys2Proof/Machine/Fabric.lean ====
section
/-!
DEFINITION. Fabric slots (R334-R340, R437, R438) and ring-tick discipline (R358).
-/
namespace Sys2Proof.Machine

/-- The privilege of the agent that a slot serves. -/
def slotSup (s : State) (f : FSlot) : Bool :=
  let j := (s.coreAt (cid f.src f.srcc)).job
  match f.who with
  | .chain cl e ch => match s.chain { cl := cl, e := e, ch := ch } with | some c => c.sup | none => false
  | .store _ _ => j.sup && j.id == f.job
  | .load _ => j.sup && j.id == f.job
  | _ => false

/-- Slot k leaves the fabric. -/
def State.dropSlot (s : State) (k : Nat) : State := { s with slots := dropNth s.slots k }
/-- Slot k is replaced. -/
def State.setSlot (s : State) (k : Nat) (f : FSlot) : State := { s with slots := setNth s.slots k f }
/-- Slot k becomes the acknowledgement of what it carried. -/
def State.ackSlot (s : State) (k : Nat) (f : FSlot) : State := s.setSlot k { f with kind := 3, data := [] }

/-- Is a slot an answer (R334): a read response, an acknowledgement, an atomic result? It goes from the destination of its request back to the
source. -/
def FSlot.answers (f : FSlot) : Bool := f.kind == 2 || f.kind == 3 || f.kind == 5
/-- Where a slot comes from, and where it goes: (die, core field) of each. -/
def FSlot.origin (f : FSlot) : Nat × Nat := if f.answers then (f.dst, f.dstc) else (f.src, f.srcc)
def FSlot.goal (f : FSlot) : Nat × Nat := if f.answers then (f.src, f.srcc) else (f.dst, f.dstc)
/-- The direction that a slot travels in (R336). -/
def FSlot.dir (s : State) (f : FSlot) : Nat := routeDir s f.origin.1 f.goal.1

/-- Bytes 0-7 of a slot's header (Table 14-1). -/
def slotHead (s : State) (f : FSlot) : Nat :=
  let n := if f.kind = 1 then 0 else (f.data.length + 63) / 64
  let place : Nat × Nat → Nat := fun p => (p.1 / 8 % 256) * 2 ^ 12 + (p.1 % 8) * 2 ^ 9 + p.2 % 512
  f.kind % 16 * 2 ^ 60 + f.refc % 4 * 2 ^ 58 + (if f.dir s = 1 then 2 ^ 57 else 0) + n % 4 * 2 ^ 55 + place f.goal * 2 ^ 35 +
    place f.origin * 2 ^ 15 + f.seq % 2 ^ 15

/-- The die that drops a slot bound for a bypassed die: the last before it on the slot's way (R336, R435). -/
def dropDie (s : State) (f : FSlot) : Nat := (routeOf s f.origin.1 f.goal.1).getLastD f.origin.1
/-- The record of an undeliverable slot, at the die that drops it (R437, R447): one from another tenant is dropped where it arrives. -/
def State.lostRecord (s : State) (f : FSlot) (sub : Nat) : State :=
  let die := if sub = 0 then f.goal.1 else if sub = 2 then f.origin.1 else dropDie s f
  s.err die noCore 0x37 sub 0 f.pa (slotHead s f)
/-- Slot k is undeliverable (R437): it is dropped and reported, and a failure notice goes to the source; for an answer, which Table 21-4 does
not name, to that of its request, where its loss has the effect of the request's (the model's reading: log entry 31). -/
def State.undeliver (s : State) (k : Nat) (f : FSlot) (sub : Nat) : State :=
  ((s.dropSlot k).lostRecord f sub).send { kind := .failure, dst := f.src, src := f.goal.1, x := sub, slot := some f }

/-- Is a link on the way of a slot down (R432)? Slots wait at their senders meanwhile. -/
def slotWaits (s : State) (f : FSlot) : Bool := (routeOf s f.origin.1 f.goal.1).any fun g => hopDown s g (f.dir s)
/-- Reception places that slots hold at a die, of those for one incoming direction (R337). -/
def placesHeld (s : State) (die dir : Nat) : Nat :=
  (s.slots.filter fun f => f.placed && f.goal.1 == die && f.dir s == dir).length
/-- Slot k finds every reception place taken (R337): after its second refusal it goes on to its source. The die counts it (R454). -/
def State.refuseSlot (s : State) (k : Nat) (f : FSlot) : State :=
  let s := s.countRefuse f.goal.1
  if f.refc = 0 then s.setSlot k { f with refc := 1 } else s.setSlot k { f with refc := 2, back := true, due := 0 }
/-- Slot k of a kind arrives at its destination (R337, R432, R437): it waits for a link that is down; it is undeliverable; it is refused while
the 256 reception places of its direction are taken; it takes one and stays there for a while (here.full); or land serves it. A slot
bound for its own die enters no link. -/
def State.arrive (s : State) (kind : Nat) (land : Nat → FSlot → State → State) : Out :=
  let k := s.here.k
  .next (match s.slots[k]? with
    | none => s
    | some f =>
      if f.kind != kind || f.back then s
      else if f.placed then land k { f with placed := false } s
      else if slotWaits s f then s
      else
        match undeliverable s f.src f.dst with
        | some sub => s.undeliver k f sub
        | none =>
          if f.dst = f.src then land k f s
          else if 256 ≤ placesHeld s f.dst (f.dir s) then s.refuseSlot k f
          else if s.here.full then s.setSlot k { f with placed := true }
          else land k f s)
/-- Slot k, an answer, comes back to the source of its request (R337, R437): it is never refused; it waits for a link that is down, and
it is undeliverable where that die is bypassed. -/
def State.answer (s : State) (kind : Nat) (take : Nat → FSlot → State → State) : Out :=
  let k := s.here.k
  .next (match s.slots[k]? with
    | none => s
    | some f =>
      if f.kind != kind || slotWaits s f then s
      else
        match undeliverable s f.dst f.src with
        | some sub => s.undeliver k f sub
        | none => take k f (s.dropSlot k))
/-- Changes a job of core n by its number, running or frozen. -/
def State.ofJob (s : State) (n id : Nat) (f : Job → Job) : State :=
  let g : Job → Job := fun j => if j.id == id then f j else j
  s.onCore n fun k => { k with job := g k.job, held := k.held.map fun h => { h with job := g h.job } }

/-- POSTED_WRITE (R337, R107): slot here.k lands at its home bank, or is refused. -/
def execPostedWrite (s : State) : Out :=
  s.arrive 0 fun k f s =>
    let s := (s.serveStore f.dst f.pa f.data (slotSup s f)).ackSlot k f
    match f.who with
    | .chain cl e ch => if f.need = 1 then s.chTag { cl := cl, e := e, ch := ch } f.pa f.data.length else s
    | _ => s

/-- An uncorrectable word met for the agent of a slot (R425): its job, or chain, ends. -/
def State.slotBad (s : State) (f : FSlot) (w : Nat) : State :=
  match f.who with
  | .chain cl e ch =>
    let i : ChId := { cl := cl, e := e, ch := ch }
    match s.chain i with | some c => s.chStop i c w | none => s
  | _ =>
    let n := cid f.src f.srcc
    if (s.coreAt n).job.live && (s.coreAt n).job.id == f.job then s.discardJob n w else s

/-- READ_REQUEST (R334): slot here.k is served, and becomes the response. -/
def execReadRequest (s : State) : Out :=
  s.arrive 1 fun k f s =>
    let s := match f.who with | .load id => s.noteTag (cid f.src f.srcc) id f.pa | _ => s
    match s.serveLoad f.dst f.pa f.len (slotSup s f) with
    | (.ok bs, s) => s.setSlot k { f with kind := 2, data := bs }
    | (.error w, s) => (s.dropSlot k).slotBad f w

/-- READ_RESPONSE (R334): the bytes of slot here.k reach the agent that asked for them. -/
def execReadResponse (s : State) : Out :=
  s.answer 2 fun _ f s =>
    match f.who with
    | .chain cl e ch => s.chGot { cl := cl, e := e, ch := ch } f.need f.data
    | .load id =>
      let n := cid f.src f.srcc
      let put : Acc → Acc := fun a => if a.id == id then { a with data := splice a.data f.need f.data } else a
      (s.ofJob n f.job fun j => { j with acc := j.acc.map put }).accBack n id
    | _ => s

/-- A participant that a slot's sender is, if its plan still stands. -/
def senderPlan (s : State) (f : FSlot) : Option (Nat × Plan) :=
  match f.who with
  | .plan place gen _ => match (s.dieAt f.src).plan place with | some p => if p.gen = gen then some (place, p) else none | none => none
  | _ => none

/-- ACKNOWLEDGEMENT (R339, R348): slot here.k comes back to its source. -/
def execAcknowledgement (s : State) : Out :=
  s.answer 3 fun _ f s =>
    let n := cid f.src f.srcc
    match f.who with
    | .store w _ => s.setOut n w (winOut s n w - 1)
    | .load id => s.accBack n id
    | .plan _ _ _ =>
      match senderPlan s f with
      | some (place, _) => s.onPlan f.src place fun p => { p with unack := p.unack - 1, prog := s.tickOf f.src }
      | none => s
    | _ => s

/-- REMOTE_ATOMIC (R340, R342): slot here.k executes and becomes its result. -/
def execRemoteAtomic (s : State) : Out :=
  s.arrive 4 fun k f s =>
    let w := 8 * f.len
    match s.atomicAt f.pa (f.opx / 2) w (ofBytes (f.data.take 8) % 2 ^ w) (ofBytes (f.data.drop 8) % 2 ^ w) with
    | (.ok old, s) => s.setSlot k { f with kind := 5, data := bytesOf 8 old }
    | (.error e, s) => (s.dropSlot k).slotBad f e

/-- ATOMIC_RESULT (R340): the old value of slot here.k reaches RARES. -/
def execAtomicResult (s : State) : Out :=
  s.answer 5 fun _ f s =>
    s.ofJob (cid f.src f.srcc) f.job fun j => { j with rago := false, rares := atomicOld (f.opx / 2) (8 * f.len) (ofBytes f.data) }

/-- CONSIGNMENT_STORE (R366, R367): slot here.k enters the bond of its destination. -/
def execConsignmentStore (s : State) : Out :=
  s.arrive 7 fun k f s =>
    (s.tagged f.dst f.handle f.pa 0 f.data).ackSlot k f

/-- SLOT_REINJECT (R337, R437): slot here.k, refused twice, reaches its source, which re-injects it 1 µs later; the 16th time it is
undeliverable. -/
def execSlotReinject (s : State) : Out :=
  let k := s.here.k
  .next (match s.slots[k]? with
    | none => s
    | some f =>
      let now := s.tickOf f.src
      if !f.back || (f.due = 0 && slotWaits s f) then s
      else if f.due = 0 then
        if 16 ≤ f.rets + 1 then s.undeliver k f 2 else s.setSlot k { f with rets := f.rets + 1, due := now + 1000 }
      else if f.due ≤ now then s.setSlot k { f with back := false, refc := 0, due := 0 }
      else s)

/-- The number by which a lost line of access id stands among a job's lost lines (R438). -/
def Job.lostNo (j : Job) (id : Nat) : Nat :=
  match j.acc.find? fun a => a.id == id with | some a => if a.strm == .a then a.seq else ownLost | none => ownLost
/-- The line of a write that an access of core n sent is lost (R438): the access is over with its last slot. -/
def State.accWriteLost (s : State) (n id : Nat) (f : FSlot) : State :=
  let s := s.ofJob n f.job fun j => { j with lost := j.lost ++ [(j.lostNo id, f.pa / 64 * 64)] }
  if (s.coreAt n).job.id == f.job then s.accBack n id
  else if s.accSlots n id then s
  else s.ofJob n f.job fun j => j.done id
/-- What an undeliverable slot does at its source (R438, Table 21-4). -/
def State.slotLost (s : State) (f : FSlot) (sub : Nat) : State :=
  let n := cid f.src f.srcc
  match f.who with
  | .store w q =>
    let s := s.setOut n w (winOut s n w - 1)
    if f.kind = 7 || (f.kind == 3 && f.handle != 0) then s.abortReq f.src f.handle 10
    else s.ofJob n f.job fun j => { j with lost := j.lost ++ [(q, f.pa / 64 * 64)] }
  | .load id =>
    if f.kind = 0 || f.kind = 3 then s.accWriteLost n id f else
    -- the other requests of the access are no longer awaited; it stays for ERET 1, and in a frozen job is sent again after its resume
    let other : FSlot → Bool := fun g => g.who != Who.load id
    let unsent : Acc → Acc := fun b => if b.id == id then { b with sent := false, tag := none } else b
    let s : State := { s with slots := s.slots.filter other }
    let s := s.ofJob n f.job fun j => { j with acc := j.acc.map unsent }
    match (s.coreAt n).job.acc.find? fun a => a.id == id with
    | some a =>
      let s : State := { s with here := { s.here with die := f.src, core := f.srcc } }
      s.trap { cls := 7, code := 3, strm := a.strm, pc := a.pc, addr := f.pa / 64 * 64, word := a.word }
    | none => s
  | .rago => s.ofJob n f.job fun j => { j with rago := false, rafail := some (f.pa / 64 * 64) }
  | .chain cl e ch => s.chLost { cl := cl, e := e, ch := ch } f (sub == 0)
  | .plan _ _ _ => match senderPlan s f with | some (place, _) => s.planAbort f.src place 4 | none => s
  | _ => if f.kind = 7 then s.abortReq f.src f.handle 10 else s

/-- FAILURE_NOTICE (R437, R438): notice here.k reaches the source of the slot that was dropped. -/
def execFailureNotice (s : State) : Out :=
  match s.takeMsg s.here.k .failure with
  | none => .next s
  | some (m, s) => .next (match m.slot with | some f => s.slotLost f m.x | none => s)

/-- SYNC (R358): every 2⁻¹⁰ s the package at place 0 of a ring in rack mode sends Sync clockwise; at each waystation link the package
after it asks the one before it for the peer delay (log entry 32). -/
def execSync (s : State) : Out :=
  let n := s.ringPkgs 0
  let ask : Nat → Msg := fun p => { kind := .timing, dst := 8 * ((p + n - 1) % n), src := 8 * p, x := 1 }
  let t : State := { s with syncs := s.tick.toNat * 1024 / 1000000000 + 1 }
  s.when (decide (1 < n) && decide (syncTick s.syncs ≤ s.tick.toNat))
    { t with msgs := t.msgs ++ { kind := .timing, dst := 8, src := 0 } :: (upFrom 0 n).map ask }

/-- Is every ring station of a package stopped? -/
def pkgStopped (s : State) (p : Nat) : Bool := (upFrom 0 8).all fun k => !stationRuns (s.dieAt (8 * p + k))

/-- TIMING (R358): notice here.k reaches its package. Sync: it steps its tick to the grandmaster's if its stations are stopped, else slews
it, and passes the message on. A peer-delay request is answered with the package's tick; the answer ends there (log entry 32). -/
def execTiming (s : State) : Out :=
  match s.takeMsg s.here.k .timing with
  | none => .next s
  | some (m, s) =>
    if m.x = 1 then .next (s.send { m with dst := m.src, src := m.dst, x := 2, y := (s.tickOf m.dst).toNat })
    else if m.x != 0 then .next s
    else
    let p := m.dst / 8
    let off := spGet 0 s.adj p
    let s := if pkgStopped s p then { s with adj := spDel s.adj p, slew := spDel s.slew p }
      else if off = 0 then { s with slew := spDel s.slew p }
      else { s with slew := spSet s.slew p (-off.toInt) }
    .next (if p + 1 < s.ringPkgs 0 then s.send { m with dst := m.dst + 8, src := m.dst } else s)

end Sys2Proof.Machine
end

