-- ==== Sys2Proof/Machine/Collect.lean ====
section
/-!
DEFINITION. Events of collective plans (R343-R349, R440-R443), of the waystations' reduction windows (R342), and retries of parked
accesses (R417-R419).
-/
namespace Sys2Proof.Machine

/-- The walker of a plan parks at an access, given by its pieces (R415, R418): SUB 4; the first time that it finds a leaf not present it is
reported. -/
def State.planPark (s : State) (die place : Nat) (p : Plan) (span : List (Nat × Nat)) (va : Nat) (motion : Bool) (need : Need) : State :=
  let t := s.tickOf die
  let s := (s.countPark die).onPlan die place fun p =>
    { p with park := some { va := va, t0 := t, k := 0, motion := motion, sub := 4, need := need, span := span }
             told := if motion then p.told else span }
  if motion || p.told == span then s else s.err die noCore 0x10 4 0 va (fieldOf p.root 52 12) (bytesOf 8 t.toNat)

/-- Translates one piece for a plan's walker, at the port of its core under its job's root and in its class (R345). -/
def State.planPiece (s : State) (die : Nat) (p : Plan) (need : Need) (va n : Nat) : XRes × State :=
  let r := s.portPiece (cid die p.core) p.root p.sup need va n
  (r.1.1, r.2)
/-- Translates pieces in order for a plan's walker. -/
def State.planPieces (s : State) (die : Nat) (p : Plan) (need : Need) : List (Nat × Nat) → RRes × State
  | [] => (.ok [], s)
  | (va, n) :: t =>
    match s.planPiece die p need va n with
    | (.bad c, s) => (.bad c va, s)
    | (.absent, s) => (.park false va, s)
    | (.motion, s) => (.park true va, s)
    | (.ok pa, s) =>
      match s.planPieces die p need t with
      | (.ok rs, s) => (.ok ((pa, n) :: rs), s)
      | r => r
/-- Translates n bytes for a plan's walker; k goes on with the runs. bad is the cause of an abort at any failure but a park. -/
def State.planAccess (s : State) (die place : Nat) (p : Plan) (need : Need) (va n bad : Nat)
    (k : List (Nat × Nat) → State → State) : State :=
  let span := pageSplit va n (n / 8192 + 2)
  match s.planPieces die p need span with
  | (.ok rs, s) => k rs (if p.told.isEmpty then s else s.onPlan die place fun p => { p with told := [] })
  | (.bad _ _, s) => s.planAbort die place bad
  | (.park m v, s) => s.planPark die place p span v m need

/-- Reads runs for a plan's walker: the bytes, or the first uncorrectable word. -/
def State.planRead (s : State) (die : Nat) (rs : List (Nat × Nat)) : Except Nat (List Byte) × State :=
  rs.foldl (fun acc r =>
    match acc with
    | (.ok d, s) => match s.readMem die r.1 r.2 with | (.ok bs, s) => (.ok (d ++ bs), s) | (.error w, s) => (.error w, s)
    | e => e) (.ok [], s)

/-- A frozen job ends without a release (R425): an uncorrectable word reached it. -/
def State.discardHeld (s : State) (n w : Nat) (h : Held) : State :=
  let own : Core → Bool := fun k => h.job.has .m && k.engHeld && k.engCtx == some h.ctxp
  let s := s.onCore n fun k =>
    { (if own k then k.dropEng else k) with held := k.held.filter fun x => x.job.id != h.job.id, engHeld := k.engHeld && !own k
                                            engCtx := if own k then none else k.engCtx }
  (s.jobLost n h.job).err (n / 384) (n % 384) 0x12 0 0 w 0 (recBytes h.job.src.r)
/-- An uncorrectable word that a plan's walker or a landing of it reads ends the job, running or frozen, and with it the plan (R425, R441,
R427). -/
def State.planBad (s : State) (die place : Nat) (p : Plan) (w : Nat) : State :=
  let n := cid die p.core
  if (s.coreAt n).job.live && (s.coreAt n).job.id == p.job then s.discardJob n w
  else match (s.coreAt n).held.find? fun h => h.job.id == p.job with
    | some h => s.discardHeld n w h
    | none => (s.planAbort die place 3).err die noCore 0x12 0 0 w 0

/-- Bytes of a transfer that lie in the aligned 256-byte chunk of an address (R443): the transfer runs n bytes from d. -/
def chunkNeed (d n a : Nat) : Nat := min (d + n) (a / 256 * 256 + 256) - max d (a / 256 * 256)

/-- The walker emits the next slot of its transfer (R345): up to 192 bytes within one aligned 256-byte chunk of the destination. -/
def State.planEmit (s : State) (die place : Nat) (p : Plan) : State :=
  let b := p.bytes
  let ix := planIdx b p.walk
  let peer := planPeer b ix
  let src := (((pSrc b).toNat : Int) + planOff b pSstr ix + (p.off : Int)) % 2 ^ 64
  let d := p.target + p.off
  let n := min (pLen b - p.off) (min 192 (256 - d % 256))
  s.planAccess die place p { rd := true } src.toNat n 5 fun rs s =>
    match rs.findSome? fun r => if remoteTo die r.1 then (undeliverable s die (paDie r.1)).map fun k => (r.1, k) else none with
    | some (pa, k) =>
      let f : FSlot := { kind := 1, dst := paDie pa, dstc := paCore pa, src := die, srcc := noCore, pa := pa, len := 64 }
      (s.lostRecord f k).planAbort die place 4
    | none =>
      match s.planRead die rs with
      | (.error w, s) => s.planBad die place p w
      | (.ok bs, s) =>
        let s := s.inject { kind := 6, dst := paDie d, dstc := paCore d, src := die, srcc := noCore, job := p.walk,
                            opx := pEtype b, pa := d, len := n, handle := planHandle place p, pid := pId b,
                            need := chunkNeed p.target (pLen b) d, rank := peer, who := .plan place p.gen p.f, data := bs }
        s.onPlan die place fun p =>
          { p with unack := p.unack + 1, prog := s.tickOf die
                   off := if pLen b ≤ p.off + n then 0 else p.off + n
                   walk := if pLen b ≤ p.off + n then p.walk + 1 else p.walk }

/-- A transfer starts (R345): its peer entry is read afresh; a bad one aborts the plan; a peer without the plan makes it wait. -/
def State.planTransfer (s : State) (die place : Nat) (p : Plan) : State :=
  let b := p.bytes
  let ix := planIdx b p.walk
  let peer := planPeer b ix
  if p.off != 0 then s.planEmit die place p
  else if p.frozen.isSome then s
  else
    s.planAccess die place p { rd := true } (((pPeerTab b).toNat + 8 * peer) % 2 ^ 64) 8 7 fun rs s =>
      match s.planRead die rs with
      | (.error w, s) => s.planBad die place p w
      | (.ok bs, s) =>
        let e := dwAt bs 0
        let d := ((fieldOf e 0 56 : Int) + (pDst b).toInt + planOff b pDstr ix)
        if !peerOk s die e then s.planAbort die place 7
        else if d < 0 || !paOk s die d.toNat || paSpace d.toNat != 0 then s.planAbort die place 4
        else if (findPlan (s.dieAt (paDie d.toNat)) (pId b) peer).isNone then s
        else
          let p := { p with target := d.toNat, told := [] }
          (s.onPlan die place fun _ => p).planEmit die place p

/-- PLAN_FIRING_START (R345, R349): the plan at here.place starts its next firing, or, with one in progress, emits its next slot. -/
def execPlanFiringStart (s : State) : Out :=
  let die := s.here.die
  let place := s.here.place
  .next (match (s.dieAt die).plan place with
    | none => s
    | some p =>
      if p.abort.isSome || p.park.isSome then s
      else
        match p.act, p.pend with
        | some _, _ => if p.walk < planCount p.bytes then s.planTransfer die place p else s
        | none, v :: t =>
          if p.frozen.isSome then s
          else s.onPlan die place fun p => { p with act := some v, pend := t, walk := 0, off := 0, prog := s.tickOf die }
        | none, [] => s)

/-- Bytes landed of the firing in progress, by its parity (R348). -/
def Plan.landed (p : Plan) (f : Nat) : Nat := if f % 2 = 0 then p.cnt0 else p.cnt1
/-- Changes them. -/
def Plan.setLanded (p : Plan) (f v : Nat) : Plan := if f % 2 = 0 then { p with cnt0 := v } else { p with cnt1 := v }

/-- PLAN_FIRING_COMPLETE (R348): every byte has landed and every slot is acknowledged: the trigger value goes to DONEA. -/
def execPlanFiringComplete (s : State) : Out :=
  let die := s.here.die
  let place := s.here.place
  .next (match (s.dieAt die).plan place with
    | none => s
    | some p =>
      match p.act with
      | none => s
      | some v =>
        if p.abort.isSome || p.park.isSome || decide (p.walk < planCount p.bytes) || p.unack != 0 ||
            p.landed p.f % 2 ^ 56 != pExpect p.bytes then s
        else
          s.planAccess die place p { w := true } (pDonea p.bytes).toNat 8 8 fun rs s =>
            let s := match rs with | (pa, _) :: _ => s.serveStore die pa (bytesOf 8 v.toNat) p.sup | [] => s
            s.onPlan die place fun p => { (p.setLanded p.f 0) with act := none, f := p.f + 1 })

/-- A tile of a plan's destination takes a tag (R347, R373): at once, at the publish of a bound plan, or, in a reduction window, once its
lines have been merged. -/
def State.planTag (s : State) (die tile : Nat) (tag : BitVec 16) (bound : Nat) : State :=
  if bound != 0 then
    let t : BondTag := { handle := bound, tile := tile, tag := tag }
    s.onDie die fun d => { d with btags := d.btags.filter (fun x => !(x.handle == bound && x.tile == tile)) ++ [t] }
  else
    let lines := (upFrom 0 8).map fun k => 512 * tile + 64 * k
    match s.window (512 * tile) with
    | some (way, _) =>
      let dirty := lines.filter fun a => (s.wayAt way).lines.any fun l => l.pa == a && l.dirty
      if dirty.isEmpty then s.tagTiles (512 * tile) 512 tag
      else
        let w := s.wayAt way
        s.setWayAt way { w with tags := w.tags ++ [{ tile := tile, tag := tag, lines := dirty }] }
    | none => s.tagTiles (512 * tile) 512 tag

/-- Elements accumulate at the home bank (R346): bytes at an address. -/
def accHome (s : State) (etype pa : Nat) (bs : List Byte) : List Byte :=
  let w := if etype = 7 then 2 else 4
  (upFrom 0 (bs.length / w)).flatMap fun i =>
    bytesOf w (accElem etype (ofBytes (s.peek (pa + w * i) w)) (ofBytes ((bs.drop (w * i)).take w)))

/-- Bytes of one line of a plan transfer are applied (R346, R342): written, or accumulated at the home bank or in the waystation. -/
def State.planLine (s : State) (die etype pa : Nat) (bs : List Byte) : State :=
  if etype = 0 then s.writeMem die pa bs
  else
    match (s.mend (pa / 64 * 64) 64).placeAtomic pa with
    | (none, s) => s.writeMem die pa (accHome s etype pa bs)
    | (some way, s) =>
      let l := (s.combLine way pa).touch s.tick
      let w := if etype = 7 then 2 else 4
      let o := pa % 64
      let new := (upFrom 0 (bs.length / w)).flatMap fun i =>
        bytesOf w (accElem etype (ofBytes ((l.bytes.drop (o + w * i)).take w)) (ofBytes ((bs.drop (w * i)).take w)))
      s.setCombLine way { l with bytes := splice l.bytes o new }

/-- Counts bytes of a transfer per tile (R347): the tiles that it has now landed whole, and the counts that go on. -/
def tileCounts (ts : List (Nat × Nat × Nat)) (key pa n : Nat) : List Nat × List (Nat × Nat × Nat) :=
  (upFrom (pa / 512) ((pa + n - 1) / 512 - pa / 512 + 1)).foldl (fun acc t =>
    let got := min (pa + n) (512 * t + 512) - max pa (512 * t)
    let old := ((acc.2.find? fun x => x.1 == key && x.2.1 == t).map fun x => x.2.2).getD 0
    let rest := acc.2.filter fun x => !(x.1 == key && x.2.1 == t)
    if old + got = 512 then (acc.1 ++ [t], rest) else (acc.1, rest ++ [(key, t, old + got)])) ([], ts)

/-- The uncorrectable word that an accumulation of n bytes at an address would read (R425): of its home, unless a waystation's line stands for
it. -/
def State.accBad (s : State) (pa n : Nat) : Option Nat :=
  match s.window pa with
  | some (way, x) =>
    if x.firm && !x.ending && (s.wayAt way).lines.any fun l => l.pa == pa / 64 * 64 then none else s.badIn (pa / 64 * 64) 64
  | none => s.badIn pa n

/-- Bytes of a plan that have landed are counted, by firing and by tile, and whole tiles take their tags (R347, R348, R373). -/
def State.planTake (s : State) (die place key f pa n : Nat) (p : Plan) : State :=
    let b := p.bytes
    let (whole, ts) := tileCounts p.tiles key pa n
    let conts := whole.foldl (fun cs t =>
      let old := ((cs.find? fun x => x.1 == f && x.2.1 == t).map fun x => x.2.2).getD 0
      cs.filter (fun x => !(x.1 == f && x.2.1 == t)) ++ [(f, t, old + 1)]) p.conts
    let tag := BitVec.ofNat 16 (pTag b + f)
    let done := whole.filter fun t => !pAcc b || conts.any fun x => x.1 == f && x.2.1 == t && x.2.2 == pAccn b
    let s := s.onPlan die place fun p =>
      { (p.setLanded f (p.landed f + n)) with
        tiles := ts, conts := conts.filter (fun x => decide (f ≤ x.1 + 1)), prog := s.tickOf die }
    each (fun t s => s.planTag die t tag (p.boundOf f)) done s
/-- A chunk of a transfer has arrived whole and is applied in one step (R443, R346-R348, R373): f the receiver's firing it belongs to. Bytes
that a bond does not take count for nothing (R446). -/
def State.planApply (s : State) (die place key f pa : Nat) (bs : List Byte) : State :=
  match (s.dieAt die).plan place with
  | none => s
  | some p =>
    let etype := pEtype p.bytes
    let pieces := linePieces 0 pa bs.length (bs.length / 64 + 2)
    if p.boundOf f != 0 then
      match s.taggedIn die (p.boundOf f) pa etype bs with
      | (s, true) => s.planTake die place key f pa bs.length p
      | (s, false) => s
    else
      match if etype = 0 then none else pieces.findSome? fun q => s.accBad q.2.1 q.2.2 with
      | some w => (s.metBad (paDie w)).planBad die place p w
      | none =>
        (each (fun (q : Nat × Nat × Nat) s => s.planLine die etype q.2.1 ((bs.drop q.1).take q.2.2)) pieces s).planTake
          die place key f pa bs.length p

/-- PLAN_TRANSFER (R443, R442): slot here.k reaches its participant, where its bytes are gathered until their chunk is whole; a plan that
has aborted or ended acknowledges and discards it. A slot of a bound firing is acknowledged once its chunk has entered the bond, or is
discarded (R366, R446). -/
def execPlanTransfer (s : State) : Out :=
  s.arrive 6 fun k f s =>
    let die := f.dst
    match findPlan (s.dieAt die) f.pid f.rank, f.who with
    | some (place, p), .plan sp gen sf =>
      if p.abort.isSome then s.ackSlot k f
      else
        let firing := if sf % 2 == p.f % 2 then p.f else p.f + 1
        let key := ((f.src * 256 + sp) * 2 ^ 24 + gen) * 2 + sf % 2 + 2 ^ 60 * f.job
        let a := f.pa / 256 * 256
        let old := (p.chunks.find? fun c => c.key == key && c.addr == a).getD
          { key := key, firing := firing, addr := a, need := f.need, got := [] }
        let got := ((upFrom (f.pa - a) f.data.length).zip f.data).foldl (fun m x => spSet m x.1 x.2) old.got
        let rest := p.chunks.filter fun c => !(c.key == key && c.addr == a)
        let bound := p.boundOf old.firing != 0
        let kept := old.slots ++ if bound then [f] else []
        let s := if bound then s.dropSlot k else s.ackSlot k f
        if got.length < f.need then
          s.onPlan die place fun p => { p with chunks := rest ++ [{ old with got := got, slots := kept }], prog := s.tickOf die }
        else
          let lo := match got with | x :: _ => x.1 | [] => 0
          ((s.onPlan die place fun p => { p with chunks := rest }).planApply die place key old.firing (a + lo) (got.map Prod.snd)).ackAll kept
    | _, _ => s.ackSlot k f

/-- TRIGGER_WRITE (R349, R386): an 8-byte store of here.v reaches the trigger address of place here.place. -/
def execTriggerWrite (s : State) : Out := .next (s.triggerStore s.here.die (s.here.place % 256) s.here.v)

/-- Milliseconds of a field of FLTCFG in ns; 0 stands for 65,536 (Table 21-1). -/
def msOf (v : Nat) : Nat := (if v = 0 then 65536 else v) * 1000000

/-- PLAN_STALL (R440): a firing in progress has made no progress for STALL ms, no hold being in force. -/
def execPlanStall (s : State) : Out :=
  let die := s.here.die
  match (s.dieAt die).plan s.here.place with
  | none => .next s
  | some p =>
    s.when (p.act.isSome && p.abort.isNone && p.frozen.isNone && p.holds == 0 &&
        decide (p.prog.toNat + msOf (fieldOf ((s.dieAt die).reg 0x319) 16 16) ≤ (s.tickOf die).toNat))
      (s.planAbort die s.here.place 1)

/-- A notice of a plan reaches a participant (R440, R441). -/
def State.planNoticed (s : State) (kind : MsgK) (k : Nat → Plan → Msg → State → State) : Out :=
  match s.takeMsg s.here.k kind with
  | none => .next s
  | some (m, s) => .next (match findPlan (s.dieAt m.dst) m.handle m.y with | some (place, p) => k place p m s | none => s)

/-- PLAN_HOLD_NOTICE (R440): the stall timer is suspended. -/
def execPlanHoldNotice (s : State) : Out :=
  s.planNoticed .planHold fun place _ m s => s.onPlan m.dst place fun p => { p.suspend (s.tickOf m.dst) with holds := p.holds + 1 }
/-- PLAN_RELEASE_NOTICE (R440): a hold ends; with the last one the stall timer goes on from where it stood. -/
def execPlanReleaseNotice (s : State) : Out :=
  s.planNoticed .planRelease fun place _ m s => s.onPlan m.dst place fun p =>
    if p.holds = 0 then p else ({ p with holds := p.holds - 1 } : Plan).unsuspend (s.tickOf m.dst)
/-- PLAN_ABORT_NOTICE (R441, R442): the participant aborts with the notice's cause. -/
def execPlanAbortNotice (s : State) : Out :=
  s.planNoticed .planAbort fun place _ m s => s.planAbort m.dst place m.x

/-- HOLD_CEILING_EXPIRY (R440): a frozen participant has not resumed by F + HOLDC. -/
def execHoldCeilingExpiry (s : State) : Out :=
  let die := s.here.die
  match (s.dieAt die).plan s.here.place with
  | none => .next s
  | some p =>
    match p.frozen with
    | none => .next s
    | some t =>
      s.when (p.abort.isNone && decide (t.toNat + msOf (fieldOf ((s.dieAt die).reg 0x319) 0 16) ≤ (s.tickOf die).toNat))
        (s.planAbort die s.here.place 2)

/-- The last line of an ended window has gone: the window goes (R342). -/
def Way.tidy (w : Way) : Way :=
  { w with wins := w.wins.filter fun x => !x.ending || w.lines.any fun l => x.has l.pa }

/-- MERGED_WRITE (R342, R347): line here.e of waystation here.k is written to its home; a final one ends the line. -/
def execMergedWrite (s : State) : Out :=
  let way := s.here.k
  let w := s.wayAt way
  .next (match w.lines[s.here.e]? with
    | none => s.setWayAt way w.tidy
    | some l =>
      let held := w.wins.any fun x => x.has l.pa && !x.ending
      if held && !l.dirty then s
      else
        let s := s.store l.pa l.bytes
        let lines := if held then setNth w.lines s.here.e { l with dirty := false } else dropNth w.lines s.here.e
        let tags := w.tags.map fun t => { t with lines := t.lines.filter fun a => a != l.pa }
        let s := s.setWayAt way ({ w with lines := lines, tags := tags.filter fun t => !t.lines.isEmpty } : Way).tidy
        each (fun (t : WayTag) s => s.tagTiles (512 * t.tile) 512 t.tag) (tags.filter fun t => t.lines.isEmpty) s)

/-- A plan walker's park is retried (R417-R419, R427), its whole access. -/
def State.planRetry (s : State) (die place : Nat) (p : Plan) (k : ParkSt) : State :=
  match s.planPieces die p k.need k.span with
  | (.park m va, s) =>
    if parkOver s die k then
      ((s.onPlan die place fun p => { p with park := none }).err die noCore 0x11 4 0 va (k.k + 1)
        (bytesOf 8 k.t0.toNat ++ bytesOf 8 p.va)).planAbort
        die place 5
    else s.onPlan die place fun p => { p with park := some { k with k := k.k + 1, motion := m, va := va } }
  | (_, s) => s.onPlan die place fun p => { p with park := none }

/-- A stream's park is retried (R417-R419), its whole access: a leaf still absent or a place still in motion escalates as a trap of class 4, at
the word, or of the fetch of a block that the stream stands at at its header, or waits for the next retry; any other answer lets the word, or the
fetch, go on. -/
def State.streamRetry (s : State) (st : Strm) (k : ParkSt) : State :=
  let die := s.here.die
  match s.xlatePieces k.need k.span with
  | (.park m va, s) =>
    if parkOver s die k then
      let c := if m then 1 else 0
      let s := s.err die s.here.core 0x11 k.sub (s.trapAt st 4 c va).cause va (k.k + 1) (bytesOf 8 k.t0.toNat)
      let b := s.job.blk st
      (s.onBlk st fun b => { b with park := none }).trapSub st (if b.mode == .run && !b.short then 0 else k.sub) 4 c va
    else s.onBlk st fun b => { b with park := some { k with k := k.k + 1, motion := m, va := va } }
  | (_, s) => s.onBlk st fun b => { b with park := none }

/-- The entry-block fetch of a record that a core has taken is retried (R411, R415, R419): one that escalates is not started. -/
def State.takenRetry (s : State) (q : QRec) (k : ParkSt) : State :=
  let n := s.me
  let die := s.here.die
  let again : Bool → Nat → State → State := fun m va s =>
    if parkOver s die k then
      let s := s.err die s.here.core 0x11 k.sub 0 va (k.k + 1) (bytesOf 8 k.t0.toNat)
      (s.onCore n fun c => { c with taken := none }).recErr die s.here.core 4 q.path q.r
    else s.onCore n fun c => { c with taken := some (q, some { k with k := k.k + 1, motion := m, va := va }) }
  match entryOf s n q with
  | .park m va => again m va s
  | _ => s.startRec n q (some k)

/-- PARK_RETRY (R417): the parked access here.park is retried, once it is due. -/
def execParkRetry (s : State) : Out :=
  .next (match s.here.park with
    | .stream die core st =>
      if !(decide (die < 2048) && decide (core < 384)) then s
      else
        let s : State := { s with here := { s.here with die := die, core := core } }
        match s.core.taken with
        | some (q, some k) => if parkDue s die k then s.takenRetry q k else s
        | _ =>
          match (s.job.blk st).park with
          | some k => if s.job.live && parkDue s die k then s.streamRetry st k else s
          | none => s
    | .chain die cl eng ch =>
      let i : ChId := { cl := 2 * die + cl % 2, e := eng % 2, ch := ch }
      match s.chain i with
      | some c => match c.park with | some k => if parkDue s die k then s.chRetry i c k else s | none => s
      | none => s
    | .walker die place =>
      match (s.dieAt die).plan place with
      | some p =>
        match p.park with
        | some k => if p.frozen.isNone && parkDue s die k then s.planRetry die place p k else s
        | none => s
      | none => s)

/-- An uncorrectable word that the scrubber finds is left in place and reported (R425, R424). -/
def State.scrubBad (s : State) (g sub w : Nat) : State := (s.metBad g).err g noCore 0x13 sub 0 w 0

/-- SCRUB (R426, R424, R425): the scrubber reads the word of tile store, serai or a bond line (log entry 10) at here.v: it repairs it, or
leaves it and reports it. PASS 0 disables it. -/
def execScrub (s : State) : Out :=
  let w := s.here.v.toNat / 8 * 8
  let sp := paSpace w
  let g := paDie w
  let on := fieldOf ((s.dieAt g).reg 0x318) 0 32 != 0
  let adr := if sp = 4 then bondPa s g (bitsAt w 0 41 / 64) + w % 64 else w
  s.when ((decide (sp < 2) || sp == 4) && on) (if s.uncorrectable w then s.scrubBad g (if sp = 4 then 2 else sp) adr else s.repair w)

end Sys2Proof.Machine
end

