-- ==== Sys2Proof/Machine/Ether.lean ====
section
/-!
DEFINITION. Ethernet ports (R354-R357, R439): send queues, delivery contexts, packets that arrive, failures. The network and the peers are
outside: their packets and acknowledgements are events.
-/
namespace Sys2Proof.Machine

/-- ENSQ of a die (Table 14-5), as 128 bits. -/
def ensq (d : Die) : Nat := d.reg2 0x312
/-- ENQT.QUIET in ns (Table 14-6). -/
def quiet (d : Die) : Nat := fieldOf (d.reg 0x309) 0 32
/-- PEER of a send entry (Table 14-7). -/
def entPeer (e : List Byte) : Nat := ofBytes ((e.drop 32).take 16)
/-- LOCAL of a send entry. -/
def entLocal (e : List Byte) : Nat := fieldOf (dwAt e 8) 0 56
/-- LEN of a send entry. -/
def entLen (e : List Byte) : Nat := fieldOf (dwAt e 24) 0 40

/-- Changes the port of a die. -/
def State.onEth (s : State) (die : Nat) (f : EthPort → EthPort) : State := s.onDie die fun d => { d with eth := f d.eth }

/-- CI passes every leading entry that is over (R356, R439). -/
def State.ethAdvance (s : State) (die : Nat) : Nat → State
  | 0 => s
  | fuel + 1 =>
    let d := s.dieAt die
    let r := ensq d
    let ci := bitsAt r 96 16
    if d.eth.done.contains ci then
      let s := s.onDie die fun d => { d with cr := (d.setReg2 0x312 (putBits r 96 16 ((ci + 1) % ringCap r))).cr }
      (s.onEth die fun p => { p with done := p.done.erase ci }).ethAdvance die fuel
    else s

/-- Entry idx of a port is over: it leaves the sends and its context, and CI moves. -/
def State.ethOver (s : State) (die idx : Nat) : State :=
  let now := s.tickOf die
  let leave : EthCtx → EthCtx := fun c =>
    if c.ents.contains idx then { c with ents := c.ents.erase idx, last := now, acked := now } else c
  let s := s.onEth die fun p =>
    { p with sends := p.sends.filter fun x => x.idx != idx, ctxs := p.ctxs.map leave, done := p.done ++ [idx] }
  s.ethAdvance die ((s.dieAt die).eth.done.length)

/-- Entry idx fails (R439): a record of kind 0x38, and CI passes it. -/
def State.ethFail (s : State) (die idx sub : Nat) : State :=
  match (s.dieAt die).eth.sends.find? fun x => x.idx == idx with
  | some x => (s.err die noCore 0x38 sub 0 (entLocal x.ent) idx (x.ent.take 32)).ethOver die idx
  | none => s

/-- ETHERNET_SEND (R355, R356): the port takes its next entry and sends it as a burst, if its peer has a context or one is free. An entry
whose OP is not assigned stays at the head of the queue (log entry 30). -/
def execEthernetSend (s : State) : Out :=
  let die := s.here.die
  let d := s.dieAt die
  let r := ensq d
  let i := d.eth.next % ringCap r
  let e := s.peek (bitsAt r 0 56 + 64 * i) 64
  let peer := entPeer e
  let now := s.tickOf die
  let known := d.eth.ctxs.any fun c => c.peer == peer
  let add : EthCtx → EthCtx := fun c => if c.peer == peer then { c with last := now, ents := c.ents ++ [i] } else c
  let fresh : EthCtx := { peer := peer, last := now, acked := now, ents := [i] }
  s.when (d.wrote.contains 0x312 && i != bitsAt r 112 16 && fieldOf (dwAt e 0) 60 4 == 0 && (known || decide (d.eth.ctxs.length < 4096)))
    (s.onEth die fun p =>
      { p with next := (i + 1) % ringCap r, sends := p.sends ++ [{ idx := i, ent := e }], out := p.out ++ [(i, entLocal e, entLen e)],
               ctxs := if known then p.ctxs.map add else p.ctxs ++ [fresh] })

/-- Packets of entry idx are acknowledged, not all of its bytes: its context has traffic and an acknowledgement (R355, R439). -/
def State.ethSome (s : State) (die idx : Nat) : State :=
  let now := s.tickOf die
  s.onEth die fun p =>
    { p with ctxs := p.ctxs.map fun c => if c.ents.contains idx then { c with last := now, acked := now } else c }
/-- ETHERNET_ACK (R356, R439): the peer has acknowledged every byte of entry here.idx; with here.full, packets of it only. -/
def execEthernetAck (s : State) : Out :=
  let die := s.here.die
  s.when ((s.dieAt die).eth.sends.any fun x => x.idx == s.here.idx)
    (if s.here.full then s.ethSome die s.here.idx else s.ethOver die s.here.idx)

/-- NEGATIVE_ACKNOWLEDGEMENT (R439): the peer refused entry here.idx, for reason here.sub: 1 window invalid, 2 beyond LEN. -/
def execNegativeAcknowledgement (s : State) : Out :=
  s.when (s.here.sub == 1 || s.here.sub == 2) (s.ethFail s.here.die s.here.idx s.here.sub)

/-- Every context of a port that carries packets not acknowledged is torn down, and its entries fail (R439). -/
def State.ethDown (s : State) (die : Nat) : State :=
  let es := (s.dieAt die).eth.ctxs.flatMap fun c => c.ents
  let s := s.onEth die fun p => { p with ctxs := p.ctxs.filter fun c => c.ents.isEmpty }
  each (fun i s => s.ethFail die i 0) es s

/-- ETHERNET_LINK_DOWN (R439). -/
def execEthernetLinkDown (s : State) : Out := .next (s.ethDown s.here.die)

/-- ETHERNET_ACK_TIMEOUT (R439): a context has had no acknowledgement for 10 * QUIET ns. -/
def execEthernetAckTimeout (s : State) : Out :=
  let die := s.here.die
  let d := s.dieAt die
  s.when (d.eth.ctxs.any fun c => !c.ents.isEmpty && decide (c.acked.toNat + 10 * quiet d ≤ (s.tickOf die).toNat)) (s.ethDown die)

/-- CONTEXT_TEARDOWN (R355): context here.k has been quiet for QUIET ns. -/
def execContextTeardown (s : State) : Out :=
  let die := s.here.die
  let d := s.dieAt die
  match d.eth.ctxs[s.here.k]? with
  | some c =>
    s.when (c.ents.isEmpty && decide (c.last.toNat + quiet d ≤ (s.tickOf die).toNat))
      (s.onEth die fun p => { p with ctxs := dropNth p.ctxs s.here.k })
  | none => .next s

/-- A reception window of a die (R357), as 128 bits. -/
def rxWindow (s : State) (die w : Nat) : Nat := ofBytes (s.peek (ctlPa die (0x15000 + 16 * w)) 16)
/-- Is a window valid (R357): V, a BASE in tile store of the die, 64-byte aligned? -/
def windowValid (s : State) (die w : Nat) : Bool :=
  let r := rxWindow s die w
  let b := bitsAt r 0 56
  r.testBit 127 && paSpace b == 0 && paDie b == die && b % 64 == 0 && paOk s die b

/-- The whole tiles that n bytes at an address cover. -/
def wholeTiles (pa n : Nat) : List Nat :=
  let lo := (pa + 511) / 512
  let hi := (pa + n) / 512
  upFrom lo (hi - lo)

/-- ETHERNET_WRITE (R354, R357, R439, R366): packet here.pk, of at most 4096 bytes, arrives for a reception window: it lands, with tags for
its whole tiles, or enters the bond, or is refused. -/
def execEthernetWrite (s : State) : Out :=
  let die := s.here.die
  let p := s.here.pk
  let w := p.win % 256
  let r := rxWindow s die w
  let n := p.bytes.length
  let pa := bitsAt r 0 56 + p.off
  let refuse : Nat → State := fun sub =>
    (s.err die noCore 0x39 sub 0 w p.off (bytesOf 16 p.peer.toNat)).onEth die fun e => { e with nacks := e.nacks ++ [(w, sub)] }
  .next (
    if 4096 < n then s
    else if !windowValid s die w then refuse 1
    else if bitsAt r 64 40 < p.off + n then refuse 2
    else if n = 0 then s
    else if p.handle != 0 then s.tagged die p.handle.toNat pa 0 p.bytes
    else
      let s := s.store pa p.bytes
      let ts := wholeTiles pa n
      each (fun (t : Nat × Nat) s => s.tagTiles (512 * t.1) 512 (p.tag + if p.tinc then BitVec.ofNat 16 (p.tile0 + t.2) else 0))
        (ts.zip (upFrom 0 ts.length)) s)

end Sys2Proof.Machine
end

