-- ==== Sys2Proof/Machine/Crypto.lean ====
section
/-!
DEFINITION. SHA-512 (FIPS 180-4) and Ed25519 (RFC 8032, pure form), which R390 and R391 name.
-/
namespace Sys2Proof.Machine

/-- The greatest r below 2^b with r^k <= n, bit by bit. -/
def rootGo (k n : Nat) : Nat → Nat → Nat
  | 0, r => r
  | b + 1, r => let c := r + 2 ^ b; rootGo k n b (if c ^ k ≤ n then c else r)
/-- The first n primes, from a candidate on. -/
def primesGo : Nat → Nat → Nat → List Nat → List Nat
  | 0, _, _, l => l.reverse
  | fuel + 1, c, n, l =>
    if l.length = n then l.reverse
    else if l.any fun p => c % p == 0 then primesGo fuel (c + 1) n l else primesGo fuel (c + 1) n (c :: l)
def sha512Primes : List Nat := primesGo 500 2 80 []
/-- The round constants: the first 64 bits of the fractions of the cube roots of the first 80 primes. -/
def sha512K : List W64 := sha512Primes.map fun p => BitVec.ofNat 64 (rootGo 3 (p * 2 ^ 192) 70 0)
/-- The initial hash value: those of the square roots of the first 8. -/
def sha512H : List W64 := (sha512Primes.take 8).map fun p => BitVec.ofNat 64 (rootGo 2 (p * 2 ^ 128) 70 0)

/-- Right rotation. -/
def rotr (x : W64) (n : Nat) : W64 := (x >>> n) ||| (x <<< (64 - n))
/-- A big-endian number of bytes. -/
def beNat (bs : List Byte) : Nat := bs.foldl (fun n b => n * 256 + b.toNat) 0
/-- n bytes of a number, most significant first. -/
def beBytes (n v : Nat) : List Byte := (bytesOf n v).reverse

/-- The message schedule: words so far, newest first, extended by n words. -/
def sha512Sched : Nat → List W64 → List W64
  | 0, w => w.reverse
  | n + 1, w =>
    let g : Nat → W64 := fun k => (w[k]?).getD 0
    let a := g 14
    let b := g 1
    let s0 := rotr a 1 ^^^ rotr a 8 ^^^ (a >>> 7)
    let s1 := rotr b 19 ^^^ rotr b 61 ^^^ (b >>> 6)
    sha512Sched n ((g 15 + s0 + g 6 + s1) :: w)

/-- The working variables. -/
structure ShaV where
  a : W64
  b : W64
  c : W64
  d : W64
  e : W64
  f : W64
  g : W64
  h : W64

/-- One round. -/
def shaRound (v : ShaV) (kw : W64 × W64) : ShaV :=
  let t1 := v.h + (rotr v.e 14 ^^^ rotr v.e 18 ^^^ rotr v.e 41) + ((v.e &&& v.f) ^^^ (~~~ v.e &&& v.g)) + kw.1 + kw.2
  let t2 := (rotr v.a 28 ^^^ rotr v.a 34 ^^^ rotr v.a 39) + ((v.a &&& v.b) ^^^ (v.a &&& v.c) ^^^ (v.b &&& v.c))
  { a := t1 + t2, b := v.a, c := v.b, d := v.c, e := v.d + t1, f := v.e, g := v.f, h := v.g }

/-- One block of 128 bytes. -/
def sha512Block (hs : List W64) (blk : List Byte) : List W64 :=
  let w := (upFrom 0 16).map fun i => BitVec.ofNat 64 (beNat ((blk.drop (8 * i)).take 8))
  let g : Nat → W64 := fun k => (hs[k]?).getD 0
  let v := (sha512K.zip (sha512Sched 64 w.reverse)).foldl shaRound
    { a := g 0, b := g 1, c := g 2, d := g 3, e := g 4, f := g 5, g := g 6, h := g 7 }
  [g 0 + v.a, g 1 + v.b, g 2 + v.c, g 3 + v.d, g 4 + v.e, g 5 + v.f, g 6 + v.g, g 7 + v.h]

/-- Blocks in order. -/
def sha512Go : Nat → List W64 → List Byte → List W64
  | 0, h, _ => h
  | n + 1, h, m => sha512Go n (sha512Block h (m.take 128)) (m.drop 128)

/-- SHA-512: 64 bytes. -/
def sha512 (m : List Byte) : List Byte :=
  let z := (112 + 256 - (m.length + 1) % 128) % 128
  let p := m ++ [0x80] ++ List.replicate z 0 ++ beBytes 16 (8 * m.length)
  (sha512Go (p.length / 128) sha512H p).flatMap fun x => beBytes 8 x.toNat

/-- The field prime and the group order. -/
def edP : Nat := 2 ^ 255 - 19
def edL : Nat := 2 ^ 252 + 27742317777372353535851937790883648493
/-- b^e mod p, over the bits of e. -/
def powMod (p : Nat) : Nat → Nat → Nat → Nat
  | 0, _, _ => 1 % p
  | n + 1, b, e => let r := powMod p n (b * b % p) (e / 2); if e % 2 = 1 then r * b % p else r
def edPow (b e : Nat) : Nat := powMod edP 256 b e
def edInv (x : Nat) : Nat := edPow x (edP - 2)
def edD : Nat := (edP - 121665) * edInv 121666 % edP

/-- A point in projective coordinates. -/
structure EdPt where
  x : Nat
  y : Nat
  z : Nat
  t : Nat
  deriving DecidableEq

def edZero : EdPt := { x := 0, y := 1, z := 1, t := 0 }
def edSub (a b : Nat) : Nat := (a + edP - b % edP) % edP
/-- The sum of points (RFC 8032, 5.1.4). -/
def EdPt.add (p q : EdPt) : EdPt :=
  let a := edSub p.y p.x * edSub q.y q.x % edP
  let b := (p.y + p.x) * (q.y + q.x) % edP
  let c := 2 * p.t * q.t * edD % edP
  let d := 2 * p.z * q.z % edP
  let e := edSub b a
  let f := edSub d c
  let g := (d + c) % edP
  let h := (b + a) % edP
  { x := e * f % edP, y := g * h % edP, z := f * g % edP, t := e * h % edP }
/-- A multiple of a point. -/
def EdPt.mul : Nat → Nat → EdPt → EdPt
  | 0, _, _ => edZero
  | n + 1, k, p => let r := EdPt.mul n (k / 2) (p.add p); if k % 2 = 1 then r.add p else r
/-- Are two points one? -/
def EdPt.same (p q : EdPt) : Bool := p.x * q.z % edP == q.x * p.z % edP && p.y * q.z % edP == q.y * p.z % edP

/-- The x of a y with a sign bit, if there is one. -/
def edX (y sign : Nat) : Option Nat :=
  if edP ≤ y then none
  else
    let x2 := edSub (y * y) 1 * edInv (edD * y * y + 1) % edP
    if x2 = 0 then (if sign = 1 then none else some 0)
    else
      let r := edPow x2 ((edP + 3) / 8)
      let r := if r * r % edP = x2 then r else r * edPow 2 ((edP - 1) / 4) % edP
      if r * r % edP != x2 then none else some (if r % 2 = sign then r else edP - r)
/-- A point of 32 bytes. -/
def edDecode (bs : List Byte) : Option EdPt :=
  let v := ofBytes (bs.take 32)
  let y := v % 2 ^ 255
  (edX y (v / 2 ^ 255 % 2)).map fun x => { x := x, y := y, z := 1, t := x * y % edP }
/-- The 32 bytes of a point. -/
def EdPt.encode (p : EdPt) : List Byte :=
  let zi := edInv p.z
  bytesOf 32 (p.y * zi % edP + (p.x * zi % edP) % 2 * 2 ^ 255)
/-- The base point. -/
def edBase : EdPt :=
  let y := 4 * edInv 5 % edP
  let x := (edX y 0).getD 0
  { x := x, y := y, z := 1, t := x * y % edP }

/-- The secret scalar and the prefix of a seed. -/
def edSecret (seed : List Byte) : Nat × List Byte :=
  let h := sha512 seed
  let a := ofBytes (h.take 32)
  (a % 2 ^ 254 / 8 * 8 + 2 ^ 254, h.drop 32)
/-- The public key of a seed. -/
def edPublic (seed : List Byte) : List Byte := (EdPt.mul 256 (edSecret seed).1 edBase).encode
/-- A signature. -/
def edSign (seed m : List Byte) : List Byte :=
  let (a, prefix_) := edSecret seed
  let pub := edPublic seed
  let r := ofBytes (sha512 (prefix_ ++ m)) % edL
  let rb := (EdPt.mul 256 r edBase).encode
  let k := ofBytes (sha512 (rb ++ pub ++ m)) % edL
  rb ++ bytesOf 32 ((r + k * a) % edL)
/-- Is a signature valid (the group equation of RFC 8032 with the cofactor; log entry 20)? -/
def edVerify (pub m sig : List Byte) : Bool :=
  let s := ofBytes (sig.drop 32)
  match edDecode pub, edDecode (sig.take 32) with
  | some a, some r =>
    let k := ofBytes (sha512 (sig.take 32 ++ pub ++ m)) % edL
    decide (s < edL) &&
      (EdPt.mul 4 8 (EdPt.mul 256 s edBase)).same (EdPt.mul 4 8 (r.add (EdPt.mul 256 k a)))
  | _, _ => false

end Sys2Proof.Machine
end

