-- ==== Sys2Proof/Machine/Firmware.lean ====
section
/-!
DEFINITION. Reset, image verification, attestation and telemetry (R389-R392, R455), and what root firmware may do through its port (R376).
-/
namespace Sys2Proof.Machine

/-- Fields of an image header (R390). -/
def imgKind (h : List Byte) : Nat := ofBytes ((h.drop 4).take 4)
def imgSvn (h : List Byte) : Nat := ofBytes ((h.drop 8).take 4)
def imgKeysel (h : List Byte) : Nat := ofBytes ((h.drop 12).take 4)
def imgLen (h : List Byte) : Nat := (dwAt h 16).toNat
def imgLoad (h : List Byte) : Nat := (dwAt h 24).toNat
def imgSig (h : List Byte) : List Byte := (h.drop 64).take 64
def imgPub (h : List Byte) : List Byte := (h.drop 128).take 32

/-- The checks of R390 on a header and payload: 0 if the image is accepted, else the failed check of Table 16-9 (1 hash, 2 version,
3 signature). A header that is not of the layout, or of another kind, fails the first (log entry 20). -/
def imageCheck (kind : Nat) (h payload : List Byte) : Nat :=
  let key := imgKeysel h
  if ofBytes (h.take 4) != 0x41494D47 || imgKind h != kind || decide (3 < key) ||
      ((h.drop 32).take 32).any (· != 0) || (h.drop 160).any (· != 0) ||
      (sha512 (imgPub h)).take 32 != bytesOf 32 (Config.fusedKeyHash key).toNat || Config.fusedRevoked key then 1
  else if imgSvn h < Config.fusedMinSvn kind then 2
  else if edVerify (imgPub h) (sha512 (h.take 64 ++ payload)) (imgSig h) then 0
  else 3

/-- The mailbox of a die (Table 16-9): the address of a byte of it. -/
def mailPa (die off : Nat) : Nat := ctlPa die (0xF000 + off)

/-- Root ROM, or root firmware, verifies the image at a companion address for a die (R390): the failed check, its header and payload. -/
def imageAt (s : State) (kind addr : Nat) : Nat × List Byte × List Byte :=
  let h := s.peek addr 256
  let p := s.peek (addr + 256) (imgLen h)
  (if paSpace addr = 2 then imageCheck kind h p else 1, h, p)

/-- Root ROM of a die in reset (STATUS 0) loads IMAGE, once it names one, and runs the image if R390 accepts it (R392). -/
def State.romLoad (s : State) (die : Nat) : State :=
  let img := (s.peek64 (mailPa die 8)).toNat
  if img = 0 || s.peek64 (mailPa die 0) != 0 then s
  else
    let (c, h, p) := imageAt s 0 img
    let s := s.store (mailPa die 0) (bytesOf 8 (if c = 0 then 1 else 0x80 ||| c))
    if c = 0 then s.onDie die fun d => { d with imgRoot := sha512 (h ++ p) } else s

/-- The bytes of device control space that reset sets to 0: STATUS (Table 16-9) and the Ethernet windows (R357). -/
def resetCell (a : Nat) : Bool :=
  let o := bitsAt a 0 24
  paSpace a == 3 && ((decide (0xF000 ≤ o) && decide (o < 0xF008)) || (decide (0x15000 ≤ o) && decide (o < 0x16000)))

/-- DEVICE_RESET (R392): every core is idle, every register as after reset, STATUS and the Ethernet windows 0; other memory keeps its bytes
(log entry 33); root ROM of the dies of the package of here.die loads the images that their mailboxes name. -/
def execDeviceReset (s : State) : Out :=
  let s0 : State := { State.reset with mem := s.mem.filter fun p => !resetCell p.1, tick := s.tick, agenda := s.agenda, here := s.here, fresh := s.fresh }
  .next (each (fun k s => s.romLoad (s.here.die / 8 * 8 + k)) (upFrom 0 8) s0)

/-- Root firmware verifies the service image at a companion address and places it at LOAD (R392 step 2), or reports its rejection. -/
def State.serviceImage (s : State) (die addr : Nat) : State :=
  let (c, h, p) := imageAt s 1 addr
  if c = 0 then (s.store (imgLoad h) p).onDie die fun d => { d with imgSvc := sha512 (h ++ p) }
  else s.store (mailPa die 0) (bytesOf 8 (0x80 ||| c))

/-- What root ROM and, once it runs (R390), root firmware do through their port (R376, R392): 0xF010, ROM loads IMAGE; a write of a
register; 0xF000, of STATUS, where 2 opens the die to the companion; 0xF008, the service image at a companion address; 2^20 + pa, a
doubleword of memory. -/
def State.rootAct (s : State) (die core a : Nat) (v : W64) : State :=
  if a = 0xF010 then s.romLoad die
  else if (s.dieAt die).imgRoot.isEmpty then s
  else if 2 ^ 20 ≤ a then (if paSpace (a - 2 ^ 20) < 4 then s.store64 (a - 2 ^ 20) v else s)
  else if a = 0xF000 then
    (s.store (mailPa die 0) (bytesOf 8 v.toNat)).onDie die fun d => { d with released := d.released || v == 2 }
  else if a = 0xF008 then s.serviceImage die v.toNat
  else s.rootWrite die core a v

/-- The report of R391 but for its signature. -/
def reportBody (s : State) (die : Nat) (nonce : List Byte) : List Byte :=
  let d := s.dieAt die
  let regs := (0x402 :: 0x403 :: upFrom 0x410 32).flatMap fun a => bytesOf 8 (d.reg a).toNat
  nonce ++ padTo 64 d.imgRoot ++ padTo 64 d.imgSvc ++ sha512 regs ++ bytesOf 8 (s.tickOf die).toNat ++
    bytesOf 8 (ctlRead s (cid die 0) 0x105).toNat ++ edPublic (bytesOf 32 (Config.identitySeed die).toNat)

/-- ATTESTATION_REQUEST (R391): a request in the mailbox of a die is answered with a signed report. -/
def execAttestationRequest (s : State) : Out :=
  let die := s.here.die
  let b := reportBody s die (s.peek (mailPa die 24) 32)
  let r := b ++ edSign (bytesOf 32 (Config.identitySeed die).toNat) b
  s.when (s.peek64 (mailPa die 16) == 1) ((s.store (mailPa die 64) r).store64 (mailPa die 16) 0)

/-- IDLE of a die over the next interval (R455): more than before where PWR has been above PWRCAP.W, and else what the step says. -/
def idleNext (d : Die) (idle : Nat) : Nat :=
  let r := d.reg 0x31E
  if fieldOf (d.reg 0x404) 0 16 < fieldOf r 16 16 then max idle (min 255 (fieldOf r 8 8 + 1)) else idle
/-- TELEMETRY_UPDATE (R455): every 100 µs, at the multiples of the die's tick, which time does not pass by without it: TEMP, PWR and IDLE of
the die, and TMAX, in one step (log entry 50). -/
def execTelemetryUpdate (s : State) : Out :=
  let t := s.here.temp
  let now := (s.tickOf s.here.die).toNat / 100000
  s.when (decide ((s.dieAt s.here.die).telem < now)) (s.onDie s.here.die fun d =>
    let r := d.reg 0x31E
    let old : BitVec 16 := BitVec.ofNat 16 (fieldOf r 32 16)
    let m := if old.toInt < t.toInt then t else old
    { d with telem := now, cr := spSet d.cr 0x31E (BitVec.ofNat 64 (t.toNat * 2 ^ 48 + m.toNat * 2 ^ 32 + s.here.pwr.toNat * 2 ^ 16 +
      idleNext d s.here.idle.toNat * 2 ^ 8)) })

end Sys2Proof.Machine
end

