-- ==== Sys2Proof/Machine/Ring.lean ====
section
/-!
DEFINITION. Events of the caravan (R58-R75, R429-R436): the ring station, presentations, landings, acknowledgements, reloads, parks of
slots, bypass, links.
-/
namespace Sys2Proof.Machine

/-- RING_STATION_RUN (R58, R59): a write of RSCFG, here.v, that sets RUN. -/
def execRingStationRun (s : State) : Out := s.when (bitOf s.here.v 63) (s.rscfg s.here.die s.here.v)
/-- RING_STATION_STOP (R58, R59): a write of RSCFG, here.v, that clears RUN. -/
def execRingStationStop (s : State) : Out := s.when (!bitOf s.here.v 63) (s.rscfg s.here.die s.here.v)

/-- Counts lines of companion memory that a copy of many bytes moves, where they may lie in the die's slow-tier range (R103). -/
def State.slowCopy (s : State) (die pa n : Nat) : State :=
  let r := (s.dieAt die).reg2 0x30A
  let base := 2 * 2 ^ 52 + bitsAt r 0 39 * 8192
  if base < pa + n && pa < base + 8192 * bitsAt r 104 24 then s.slow die pa n else s

/-- WLOAD_COMPLETE (R433): the load in progress ends; a free frame that it filled stays occupied. -/
def execWloadComplete (s : State) : Out :=
  let die := s.here.die
  let n := segSz (s.dieAt die)
  match (s.dieAt die).wload with
  | some (src, f, tag) =>
    let s := (s.copyRange src (seraiPa die (f * n)) n).slowCopy die src n
    let s := if homeFrame s die f then s else s.onFrame die f fun fr => { fr with loaded := true }
    .next ((s.onDie die fun d => { d.setReg 0x31A (setField (d.reg 0x31A) 56 2 2) with wload := none }).wloadErr die 0 src f tag)
  | none => .next s

/-- RPAIR (R434): root firmware, where it runs (R390), writes RPAIR of a die with here.v. -/
def execRpair (s : State) : Out :=
  s.when (!(s.dieAt s.here.die).imgRoot.isEmpty) (s.rootWrite s.here.die s.here.core 0x405 s.here.v)
/-- RINGCFG_WRITE (R14, R376): root firmware, where it runs (R390), writes RINGCFG of a die with here.v. -/
def execRingcfgWrite (s : State) : Out :=
  s.when (!(s.dieAt s.here.die).imgRoot.isEmpty) (s.rootWrite s.here.die s.here.core 0x402 s.here.v)

/-- A frame opens for an entry's rotation at its presentation tick (R63), unless that rotation has closed. -/
def State.openDue (s : State) (die e due : Nat) : State :=
  let d := s.dieAt die
  let t := ttEnt s die e
  let st := entSt d e
  let s := s.onEnt die e fun x => { x with wait := some due }
  let f := if t.src = 0 then some t.frame else heldFrame d e st.next0
  f.elim s fun f => if st.nextC ≤ st.next0 then s.openFr die e f (tagIn t st.next0) st.next0 else s

/-- The tile scheduler handles a round-0 presentation (R68, R70, R73). -/
def State.present0 (s : State) (die e : Nat) : State :=
  let d := s.dieAt die
  let t := ttEnt s die e
  let st := entSt d e
  let tag := tagIn t st.next0
  let s := s.onEnt die e fun x => { x with next0 := x.next0 + 1, wait := none }
  let s := if tagLayer tag = 0 && tagSlice tag = 0 then s.boundary die (tagModel tag) else s
  let p := s.dispatchRound die tag 0 (BitVec.ofNat 64 (rotTick d st.next0 t.depart))
  p.2.dispatchAll die tag p.1

/-- A due presentation of an entry (R63, R68, R32): an open frame first, then the tag, unless the Scheduler is held. -/
def State.presentDue (s : State) (die e due : Nat) : State :=
  let t := if (entSt (s.dieAt die) e).wait.isNone then s.openDue die e due else s
  if schedHeld t die || !firstDue t die e due then t else t.present0 die e
/-- TAG_PRESENTATION (R63, R68, R32): entry here.e of a die is presented; while the tile scheduler is held its frame opens alone. -/
def execTagPresentation (s : State) : Out :=
  let die := s.here.die
  let e := s.here.e
  .next (
    if !stationRuns (s.dieAt die) || decide (ttLen (s.dieAt die) ≤ e) then s
    else
      (due0 s die e).elim s fun due => if (s.tickOf die).toNat < due then s else s.presentDue die e due)

/-- The presentation at LATEST of a copy that was presented, or its miss round (R68, R429). -/
def State.round1 (s : State) (die e : Nat) (tag : W32) : State :=
  let d := s.dieAt die
  let st := entSt d e
  let t := s.onEnt die e fun x => { x with next1 := x.next1 + 1, next0 := max x.next0 (x.next1 + 1) }
  if st.next1 < st.next0 then
    let p := t.dispatchRound die tag 1 (BitVec.ofNat 64 (rotTick d st.next1 (ttEnt s die e).depart))
    p.2.dispatchAll die tag p.1
  else t.missRound die tag
/-- DISPATCH_ROUND_1 (R68, R429): the presentation at LATEST of entry here.e, or the miss round of a copy that was not presented. -/
def execDispatchRound1 (s : State) : Out :=
  let die := s.here.die
  let e := s.here.e
  let d := s.dieAt die
  let st := entSt d e
  let t := ttEnt s die e
  let due := due1 s die e
  let first := st.next1 < st.next0 || (match due0 s die e with | some x => decide (due < x) | none => true)
  .next (
    if !stationRuns d || decide (ttLen d ≤ e) || decide ((s.tickOf die).toNat < due) || schedHeld s die || !firstDue s die e due || !first
    then s
    else s.round1 die e (tagIn t st.next1))

/-- FRAME_CLOSE (R63, R64): at DEPART the frame of entry here.e closes and its segment goes on. -/
def execFrameClose (s : State) : Out :=
  let die := s.here.die
  let e := s.here.e
  let d := s.dieAt die
  let st := entSt d e
  let t := ttEnt s die e
  let now := (s.tickOf die).toNat
  let unopened := st.wait.isNone && st.next0 == st.nextC && match due0 s die e with | some x => decide (x ≤ now) | none => false
  .next (
    if !stationRuns d || decide (ttLen d ≤ e) || decide (now < rotTick d st.nextC t.depart) || unopened then s
    else
      let s := s.onEnt die e fun x => { x with nextC := x.nextC + 1 }
      match heldFrame d e st.nextC with
      | some f => if (frameAt d f).st == 3 then s.forward die e f t st.nextC else s
      | none => s)

/-- SEGMENT_LANDING (R429, R430, R458): copy here.k, which its sender held, sends its first slot; one on its link completes its landing, no
sooner than it can cross (R64). -/
def execSegmentLanding (s : State) : Out :=
  match s.segs[s.here.k]? with
  | some g =>
    let cross := segSz (s.dieAt g.src) ≤ 16000 * ((s.tickOf g.dst).toNat - g.sent.toNat)
    s.when (!g.ack && !segBlocked s g && (!g.begun || cross)) (if g.begun then s.segLand s.here.k g else s.segFirst s.here.k g)
  | none => .next s

/-- Is a segment in flight the same copy as another: the one that was sent first, or its second sending (R431)? -/
def Seg.twin (g h : Seg) : Bool :=
  g.src == h.src && g.frame == h.frame && g.dst == h.dst && g.dir == h.dir && g.tag == h.tag && g.rot == h.rot
/-- LANDING_ACKNOWLEDGEMENT (R64): the acknowledgement of copy here.k reaches its sender: nothing of the copy, sent once or twice, is awaited any
longer (R431). -/
def execLandingAcknowledgement (s : State) : Out :=
  match s.segs[s.here.k]? with
  | some g => s.when g.ack (({ s with segs := s.segs.filter fun h => !g.twin h } : State).frameAcked g)
  | none => .next s

/-- Every direction of a link at both ends takes a mark (R432): 2 failed; 4 retraining, where none is set. -/
def State.markLink (s : State) (g : Nat) (l : LinkDir) (v : Nat) : State :=
  each (fun (q : Nat × LinkDir) s => s.onDie q.1 fun d =>
    { d with links := if v = 2 || !linkDown d q.2 then spSet d.links (linkCode q.2) v else d.links }) (linkMates s g l) s

/-- ACK_TIMEOUT_RESEND (R431, R432): copy here.k has no acknowledgement by the bound of R64: it is sent once more, beside a copy that has
landed as a second one; the second time its link fails. -/
def execAckTimeoutResend (s : State) : Out :=
  match s.segs[s.here.k]? with
  | some g =>
    let late := segSz (s.dieAt g.src) + 16000 * 600 < 16000 * ((s.tickOf g.src).toNat - g.sent.toNat)
    let l := if g.dir = 1 then LinkDir.cwOut else LinkDir.ccwOut
    let go :=
      if g.resent then (s.markLink g.src l 2).err g.src noCore 0x33 1 0 0 (linkCode l) (bytesOf 8 0)
      else
        let n := segSz (s.dieAt g.src) / 256
        let h := { g with resent := true, sent := s.tickOf g.src }
        let s := { s with segs := setNth s.segs s.here.k h ++ if g.ack then [{ h with ack := false, dup := true }] else [] }
        (s.countResend g.src).err g.src noCore 0x32 1 0 (seraiPa g.src (g.frame * segSz (s.dieAt g.src))) g.tag.toNat (bytesOf 8 n)
    s.when (g.begun && !g.dup && late && !segBlocked s g) go
  | none => .next s

/-- SLOT_PARK (R75): a pending park of slot here.slot takes effect at PTICK. -/
def execSlotPark (s : State) : Out :=
  let die := s.here.die
  let r := s.slotAt die s.here.slot
  s.when (r.parkp && decide (r.ptick ≤ s.tickOf die) && decide (s.here.slot < 256))
    (s.onSlot die s.here.slot fun r =>
      { r with parkp := false, state := if r.state = 1 then (if r.budget = 0 then 3 else 2) else r.state })

/-- What a bypass does to plans and consignments that involve the die (R435, R441, R444, R445): where the die is the coordinator, every
participant acts by itself, and the senders' tagging ends as in OPEN; a coordinator there with T fixed publishes at T. -/
def State.bypassPlans (s : State) (g : Nat) : State :=
  let s := each (fun (p : Nat × Die) s =>
    each (fun (q : Nat × Plan) s =>
      if p.1 == g || (planPeers s (cid p.1 q.2.core) q.2).any fun r => r.2 == g then s.planAbort p.1 q.1 3 else s) p.2.plans s) s.dies s
  let s := each (fun (p : Nat × Die) s =>
    each (fun (q : Nat × Coord) s =>
      if p.1 != g && q.2.ents.any fun e => paDie e.stata == g then s.coordAbort p.1 q.1 2 else s) p.2.coords s) s.dies s
  let s := each (fun (p : Nat × Die) s =>
    each (fun (q : Nat × Dest) s => if cnDie q.2.handle == g then s.destAbort p.1 q.2.handle 2 else s) p.2.dests s) s.dies s
  let hs := s.cores.flatMap fun p =>
    ((p.2.job :: p.2.held.map fun h => h.job).map fun j => fieldOf j.cncur 0 32).filter fun h => h != 0 && cnDie h == g
  let s := each (fun h s => each (fun (p : Nat × Die) s => s.endTagging p.1 h) s.dies s) hs s
  s.onDie g fun d => { d with coords := d.coords.filter fun q => q.2.state == 3 }

/-- The copies at a die that its neighbours bypass (R435): those that it sent end; those on their way to it go to the next die. -/
def State.bypassSegs (s : State) (g : Nat) : State :=
  { s with segs := (s.segs.filter fun x => (x.ack || x.src != g) && !(x.dup && x.dst == g)).map fun x =>
      if x.dst == g && !x.ack then { x with dst := nextDie s x.src x.dir, sent := s.tickOf x.src, begun := false, land := none } else x }
/-- A die is bypassed (R435): its copies move on, its requests retire, where the completion queue is full at a later boundary (R75), its
plans end, and both neighbours record it. -/
def State.bypassDie (s : State) (g : Nat) : State :=
  let busy := (upFrom 0 256).filter fun k => (s.slotAt g k).state != 0
  let lose : Nat → State → State := fun k s => (s.onSlot g k fun r => { r with state := 3, lost := true }).retire g k 3 false
  let t := each lose busy ((s.onDie g fun d => { d with bypassed := true }).bypassSegs g)
  let body := bytesOf 8 busy.length
  ((t.bypassPlans g).err (g / 8 * 8 + (g + 7) % 8) noCore 0x34 0 0 0 (g % 8) body).err
    (g / 8 * 8 + (g + 1) % 8) noCore 0x34 0 0 0 (g % 8) body

/-- BYPASS (R435): the bypass of package here.k takes effect once its eight dies have the same RPAIR. -/
def execBypass (s : State) : Out :=
  .next ((pairAgreed s s.here.k).elim s fun g => if (s.dieAt g).bypassed then s else s.bypassDie g)

/-- SLOT_RESEND_REQUEST (R431): a die sends again here.k slots that failed their check: of copy here.e where here.seg, else from its
replay buffer. -/
def execSlotResendRequest (s : State) : Out :=
  let die := s.here.die
  let n := s.here.k
  let s := each (fun _ s => s.countResend die) (upFrom 0 n) s
  .next (match s.here.seg, s.segs[s.here.e]? with
    | true, some g => s.err die noCore 0x32 0 0 (seraiPa g.src (g.frame * segSz (s.dieAt g.src))) g.tag.toNat (bytesOf 8 n)
    | _, _ => s.err die noCore 0x32 0 0 0 0 (bytesOf 8 n))

/-- LINK_ERROR (R432): a link direction of a die is in error after here.k bad slots: both directions of its link retrain; copies and slots
wait meanwhile. -/
def execLinkError (s : State) : Out :=
  let die := s.here.die
  s.when (!linkDown (s.dieAt die) s.here.link)
    ((s.markLink die s.here.link 4).onDie die fun d => { d with links := spSet d.links (linkCode s.here.link) (2 * s.here.k + 1) })

/-- LINK_RETRAIN_END (R432): the retrain of a link that a direction began succeeds (here.ok), or the link has failed. -/
def execLinkRetrainEnd (s : State) : Out :=
  let die := s.here.die
  let c := linkCode s.here.link
  let v := spGet 0 (s.dieAt die).links c
  let go :=
    let up := each (fun (q : Nat × LinkDir) s => s.onDie q.1 fun d => { d with links := spDel d.links (linkCode q.2) })
      (linkMates s die s.here.link)
    (if s.here.ok then up s else s.markLink die s.here.link 2).err die noCore 0x33 (if s.here.ok then 0 else 1) 0 0 c (bytesOf 8 (v / 2))
  s.when (v % 2 == 1) go

end Sys2Proof.Machine
end

