-- ==== Sys2Proof/Machine/Scraper.lean ====
section
/-!
DEFINITION. The scraper of a die (R326-R333): checks at the head of its queue, EVSCAN, EVCOMPACT, EVDECAY, result records.
-/
namespace Sys2Proof.Machine

/-- Fields of a scraper command (Table 13-6). -/
def ScrCmd.op (c : ScrCmd) : Nat := fieldOf c.hi 60 4
def ScrCmd.slot (c : ScrCmd) : Nat := fieldOf c.hi 52 8
def ScrCmd.g (c : ScrCmd) : Nat := 2 ^ fieldOf c.hi 49 3
def ScrCmd.sink (c : ScrCmd) : Nat := fieldOf c.hi 32 16
def ScrCmd.thresh (c : ScrCmd) : Nat := fieldOf c.hi 0 32
def ScrCmd.recent (c : ScrCmd) : Nat := fieldOf c.lo 48 16
def ScrCmd.shift (c : ScrCmd) : Nat := fieldOf c.lo 32 4
def ScrCmd.resa (c : ScrCmd) : Nat := fieldOf c.lo 0 32

/-- Is RESA one that a result record can be written at (R327, R83)? -/
def ScrCmd.usable (s : State) (die : Nat) (c : ScrCmd) : Bool :=
  let r := (s.clusterAt (2 * die + c.cl)).reg 0x201
  let base := fieldOf r 0 32
  c.resa % 64 == 0 && decide (base ≤ c.resa) && decide (c.resa + 64 ≤ base + 65536 * fieldOf r 32 8)
/-- Does a command break its format (R327, code 0x01)? -/
def ScrCmd.bad (s : State) (die : Nat) (c : ScrCmd) : Bool :=
  fieldOf c.hi 49 3 == 7 || bitOf c.hi 48 || fieldOf c.lo 36 12 != 0 || (c.resa != 0xFFFFFFFF && !c.usable s die) ||
  match c.op with
  | 1 => c.shift != 0
  | 2 => c.sink != 0 || c.thresh != 0 || c.recent != 0 || c.shift != 0
  | 3 => c.sink != 0 || c.thresh != 0 || c.recent != 0 || c.shift == 0
  | _ => true

/-- Counts of a result record (Table 13-7). -/
structure ScrRes where
  liveB : Nat
  liveA : Nat
  sel : Nat := 0
  bfree : Nat := 0
  deriving DecidableEq, Repr

/-- The command at the head leaves the scraper; a boundary that it held back takes its slot to RUN (R326). -/
def State.scrPop (s : State) (die : Nat) (c : ScrCmd) : State :=
  let b := (s.dieAt die).scrBound
  let s := s.onDie die fun d => { d with scr := d.scr.drop 1, scrProg := false, scrBound := false, scrAt := 0, scrN := 0, scrSaw := none }
  if b then s.onSlot die c.slot fun r => if r.state = 2 then { r with state := 1 } else r else s

/-- The command completes (R332, R327): its result record, and an error record for a code other than 0x00. -/
def State.scrEnd (s : State) (die : Nat) (c : ScrCmd) (code : Nat) (r : ScrRes) : State :=
  let dw := code * 2 ^ 56 + c.op * 2 ^ 52 + c.slot * 2 ^ 44
  let s := if c.resa != 0xFFFFFFFF && c.usable s die then
      s.store (clWin (2 * die + c.cl) c.resa) (padTo 64 (bytesOf 8 dw ++ bytesOf 4 r.liveB ++ bytesOf 4 r.liveA ++ bytesOf 4 r.sel ++
        bytesOf 4 r.bfree ++ bytesOf 8 (s.tickOf die).toNat))
    else s
  let s := if code = 0 then s else s.err die noCore 6 0 0 c.resa dw (bytesOf 8 c.lo.toNat ++ bytesOf 8 c.hi.toNat)
  s.scrPop die c
/-- The live tokens of the slot of a command (R328): none where the slot is FREE, its table does not translate, or it is no whole number of
blocks. -/
def liveCount (s : State) (die : Nat) (c : ScrCmd) : Option Nat :=
  if (s.slotAt die c.slot).state = 0 || fieldOf c.hi 49 3 = 7 then none
  else
    match s.npages die c.slot with
    | .error _ => none
    | .ok n =>
      if n % c.g != 0 then none
      else (upFrom 0 (min n 65535 / c.g)).foldl (fun a b =>
        match a, s.ptEntry die c.slot (b * c.g) with
        | some k, .ok e => some (k + if entV e then ((upFrom 0 32).filter (s.mdRead die (entMdx e) 228 4).testBit).length else 0)
        | _, _ => none) (some 0)
/-- The command completes without effect, with a code. Where the live tokens of its slot have no count, what LIVEB and LIVEA report is a value
the manual does not state (log entry 21). -/
def State.scrFail (s : State) (die : Nat) (c : ScrCmd) (code : Nat) : State :=
  match liveCount s die c with
  | some n => s.scrEnd die c code { liveB := n, liveA := n }
  | none =>
    let n := (Config.openWord s.fresh).toNat % 2 ^ 32
    ({ s with fresh := s.fresh + 1 } : State).scrEnd die c code { liveB := n, liveA := n }
/-- The command meets an uncorrectable word (R425): it stops, its slot is finished, no result record. -/
def State.scrStop (s : State) (die : Nat) (c : ScrCmd) (w : Nat) : State :=
  ((s.rqfin die c.slot).err die noCore 0x12 2 0 w c.slot).scrPop die c

/-- A slot's pages as the scraper sees them (R328): the entries, and the number of blocks. -/
structure ScrView where
  ents : List W64
  nb : Nat
  g : Nat
  deriving DecidableEq, Repr

/-- Entry i. -/
def ScrView.ent (v : ScrView) (i : Nat) : W64 := (v.ents[i]?).getD 0
/-- The entry that names block b's record. -/
def ScrView.head (v : ScrView) (b : Nat) : W64 := v.ent (b * v.g)
/-- The record of block b. -/
def ScrView.md (v : ScrView) (b : Nat) : Nat := entMdx (v.head b)
/-- Entries of block b. -/
def ScrView.block (v : ScrView) (b : Nat) : List W64 := (upFrom (b * v.g) v.g).map v.ent
/-- Is token j of block b live (R328)? -/
def ScrView.live (v : ScrView) (s : State) (die b j : Nat) : Bool := entV (v.head b) && (s.mdRead die (v.md b) 228 4).testBit j
/-- Is block b shared (R328)? -/
def ScrView.shared (v : ScrView) (s : State) (die b : Nat) : Bool := (v.block b).any fun e => entV e && decide (1 < s.refc die (entMdx e))
/-- One past the last shared block: the blocks before it are never changed (R328, R330). -/
def ScrView.start (v : ScrView) (s : State) (die : Nat) : Nat :=
  (upFrom 0 v.nb).foldl (fun n b => if v.shared s die b then b + 1 else n) 0
/-- Live tokens in increasing logical index, from block b0 on. -/
def ScrView.tokens (v : ScrView) (s : State) (die b0 : Nat) : List (Nat × Nat) :=
  (upFrom b0 (v.nb - b0)).flatMap fun b => (upFrom 0 32).filterMap fun j => if v.live s die b j then some (b, j) else none

/-- Reads words in order: the first uncorrectable one. -/
def State.scrWords (s : State) (die : Nat) : List (Nat × Nat) → Option Nat × State
  | [] => (none, s)
  | (pa, n) :: t => match s.readMem die pa n with | (.error w, s) => (some w, s) | (.ok _, s) => s.scrWords die t

/-- The virtual addresses of a slot's table that a command reads: its header, and the entries below NPAGES (R96). -/
def scrVas (s : State) (die slot n : Nat) : List Nat := (s.slotAt die slot).ptbase :: (upFrom 0 n).map (entVa s die slot)
/-- Does a command wait: a place of the table, or a record that an entry names, is in motion (R320, R328)? -/
def scrWaits (s : State) (die slot n : Nat) : Bool :=
  (scrVas s die slot n).any (kvMoving s die) ||
  (upFrom 0 n).any fun i => match s.ptEntry die slot i with | .ok e => entV e && decide (2 ≤ s.mig die (entMdx e)) | .error _ => false

/-- The slot's table and records are read and checked (R328): code 0x03 where KVROOT does not translate, 0x01 where the table is no
whole number of blocks, a wait on a place or a record in motion, a stop at an uncorrectable word, NPAGES among them (R425). EVCOMPACT writes the
table (R330). -/
def State.scrView (s : State) (die : Nat) (c : ScrCmd) (k : ScrView → State → State) : State :=
  match s.npages die c.slot with
  | .error _ => s.scrFail die c 3
  | .ok n =>
    let n := min n 65535
    let pas := (scrVas s die c.slot n).map (kvTranslate s die { rd := true, w := c.op == 2 })
    let runs := pas.filterMap fun p => match p with | .ok pa => some (pa, 8) | .error _ => none
    match runs.head?.bind fun r => s.badIn r.1 r.2 with
    | some w => (s.metBad (paDie w)).scrStop die c w
    | none =>
      if n % c.g != 0 then s.scrFail die c 1
      else if pas.any fun p => match p with | .error _ => true | .ok _ => false then s.scrFail die c 3
      else if scrWaits s die c.slot n then s
      else
        match (each (fun va s => s.kvWalk die va) (scrVas s die c.slot n) s).scrWords die runs with
        | (some w, s) => s.scrStop die c w
        | (none, s) =>
          let es := (pas.drop 1).map fun p => match p with | .ok pa => s.peek64 pa | .error _ => 0
          let v : ScrView := { ents := es, nb := n / c.g, g := c.g }
          match s.scrWords die ((es.filter entV).map fun e => (mdPa s die (entMdx e), 256)) with
          | (some w, s) => s.scrStop die c w
          | (none, s) => k v s

/-- The command at the head of a die's scraper is handled (R326, R327): refused, started once its slot is PARKED and no KV command
holds it, or, once started, carried on. -/
def State.scrape (s : State) (op : Nat) (body : Nat → ScrCmd → State → State) : Out :=
  let die := s.here.die
  .next (
    match (s.dieAt die).scr with
    | [] => s
    | c :: _ =>
      if (s.dieAt die).scrProg then (if c.op = op then body die c s else s)
      else if c.bad s die then s.scrFail die c 1
      else if c.op != op then s
      else
        let st := (s.slotAt die c.slot).state
        if st = 0 || st = 3 then s.scrFail die c 5
        else if st = 2 && !slotsHeld s { cl := 2 * die, e := 2, ch := 0 } [c.slot] then
          s.onDie die fun d => { d with scrProg := true, scrAt := 0, scrN := 0, scrSaw := none }
        else s)

/-- EVSCAN (R329): live tokens below THRESH are cleared, but for the oldest, the newest and those before the end of the shared blocks. -/
def execEvscan (s : State) : Out :=
  s.scrape 1 fun die c s =>
    s.scrView die c fun v s =>
      let ls := v.tokens s die 0
      let n := ls.length
      let b0 := v.start s die
      let sel := ((upFrom 0 n).zip ls).filterMap fun p =>
        if decide (c.sink ≤ p.1) && decide (p.1 + c.recent < n) && decide (b0 ≤ p.2.1) &&
            decide (s.mdRead die (v.md p.2.1) (4 * p.2.2) 4 < c.thresh) then some p.2 else none
      let s := each (fun (t : Nat × Nat) s =>
        let m := v.md t.1
        s.mdWrite die m 228 4 (s.mdRead die m 228 4 &&& (2 ^ 32 - 1 - 2 ^ t.2))) sel s
      s.scrEnd die c 0 { liveB := n, liveA := n - sel.length, sel := sel.length }

/-- A token's new place (R330). -/
structure Packed where
  b : Nat
  j : Nat
  dst : Nat
  pl : Nat
  base : Nat
  off : Nat
  mass : Nat
  deriving DecidableEq, Repr

/-- next_dst (R330): the lowest block above a bound all of whose entries have V = 1. -/
def ScrView.nextDst (v : ScrView) (lo : Nat) : Option Nat := (upFrom lo (v.nb - lo)).find? fun b => (v.block b).all entV

/-- The packing of live tokens (R330): dst is one more than the destination block; none if the blocks do not suffice. -/
def packTokens (v : ScrView) (s : State) (die : Nat) : List (Nat × Nat) → Nat → Nat → Nat → Option (List Packed × Nat)
  | [], dst1, _, _ => some ([], dst1)
  | (b, j) :: t, dst1, pl, base =>
    let m := v.md b
    let pos := (s.mdRead die m 224 4 + s.mdRead die m (128 + 3 * j) 3) % 2 ^ 32
    let mass := s.mdRead die m (4 * j) 4
    let put : Nat → Nat → Nat → Option (List Packed × Nat) := fun dst1 pl base =>
      (packTokens v s die t dst1 (pl + 1) base).map fun r =>
        ({ b := b, j := j, dst := dst1 - 1, pl := pl, base := base, off := (pos + 2 ^ 32 - base) % 2 ^ 32, mass := mass } :: r.1, r.2)
    if pl = 32 || decide (2 ^ 24 ≤ (pos + 2 ^ 32 - base) % 2 ^ 32) then
      match v.nextDst dst1 with
      | some d => put (d + 1) 0 pos
      | none => none
    else put dst1 pl base

/-- Where the pages of a block's entries lie under KVROOT; none if one does not translate. -/
def pagesOf (s : State) (die : Nat) (need : Need) (v : ScrView) (b : Nat) : Option (List Nat) :=
  (v.block b).foldr (fun e acc =>
    match acc, kvTranslate s die need (fieldOf e 0 40 * 8192) with
    | some l, .ok pa => some (pa :: l)
    | _, _ => none) (some [])

/-- EVCOMPACT's writes (R330), the packing formed: rows, records, entries, NPAGES. -/
def State.compact (s : State) (die : Nat) (c : ScrCmd) (v : ScrView) (b0 dst1 : Nat) (ps : List Packed)
    (rows : List (Nat × List Byte)) : State :=
  let s := each (fun (r : Nat × List Byte) s => s.writeMem die r.1 r.2) rows s
  let s := each (fun b s =>
    let mine := ps.filter fun p => p.dst == b
    match mine with
    | p0 :: _ =>
      let m := v.md b
      let s := s.store (mdPa s die m) (List.replicate 224 0)
      let s := s.mdWrite die m 224 4 p0.base
      let s := s.mdWrite die m 228 4 (2 ^ mine.length - 1)
      each (fun (p : Packed) s => (s.mdWrite die m (4 * p.pl) 4 p.mass).mdWrite die m (128 + 3 * p.pl) 3 p.off) mine s
    | [] =>
      if entV (v.head b) then
        let m := v.md b
        (s.store (mdPa s die m) (List.replicate 224 0)).mdWrite die m 228 4 0
      else s) (upFrom b0 (dst1 - b0)) s
  let s := each (fun i s =>
    let e := v.ent i
    if entV e then (s.setPtEntry die c.slot i (setField e 63 1 0)).dropRef die (entMdx e) 2 else s)
    (upFrom (dst1 * v.g) ((v.nb - dst1) * v.g)) s
  match kvTranslate s die { w := true } (s.slotAt die c.slot).ptbase with
  | .ok pa => s.writeMem die pa (bytesOf 4 (dst1 * v.g))
  | .error _ => s

/-- EVCOMPACT (R330): the live tokens that follow the last shared block go to the lowest places, in order. It waits while a page that it touches
is in motion (R320). -/
def execEvcompact (s : State) : Out :=
  s.scrape 2 fun die c s0 =>
    s0.scrView die c fun v s =>
      let b0 := v.start s die
      let n := (v.tokens s die 0).length
      match packTokens v s die (v.tokens s die b0) b0 32 0 with
      | none => s.scrFail die c 5
      | some (ps, dst1) =>
        let moved := ps.filter fun p => !(p.b == p.dst && p.j == p.pl)
        let copies := moved.map fun p => (p, pagesOf s die { rd := true } v p.b, pagesOf s die { w := true } v p.dst)
        if copies.any fun x => x.2.1.isNone || x.2.2.isNone then s.scrFail die c 3
        else
          let rs := copies.flatMap fun x =>
            ((x.2.1.getD []).zip (x.2.2.getD [])).map fun q => (q.1 + 256 * x.1.j, q.2 + 256 * x.1.pl)
          if rs.any fun r => s.inMotion r.1 || s.inMotion r.2 then s0
          else match s.scrWords die (rs.map fun r => (r.1, 256)) with
          | (some w, s) => s.scrStop die c w
          | (none, s) =>
            let s := s.compact die c v b0 dst1 ps (rs.map fun r => (r.2, s.peek r.1 256))
            s.scrEnd die c 0 { liveB := n, liveA := n, sel := moved.length, bfree := v.nb - dst1 }

/-- Does EVDECAY pass over block b: no record, or one that others share and the slot does not own (R331)? -/
def decaySkips (s : State) (die : Nat) (c : ScrCmd) (v : ScrView) (b : Nat) : Bool :=
  !entV (v.head b) ||
  (decide (1 < s.refc die (v.md b)) && !(s.ownv die (v.md b) && s.owner die (v.md b) == c.slot))

/-- One shift of EVDECAY (R331), an atomic at the bank: counter j of record m. It waits while the record is in motion, and an uncorrectable
word stops the command (R328, R425). -/
def State.decayOne (s : State) (die : Nat) (c : ScrCmd) (m j : Nat) : State :=
  if 2 ≤ s.mig die m then s
  else
    readThen (s.readMem die (mdPa s die m + 4 * j) 4) (fun w s => s.scrStop die c w) fun bs s =>
      (s.mdWrite die m (4 * j) 4 (ofBytes bs / 2 ^ c.shift)).onDie die fun d =>
        { d with scrAt := d.scrAt + 1, scrN := if j = 31 then d.scrN + 1 else d.scrN }
/-- EVDECAY (R331): the table and records are read and checked, before any write; then one counter, or a block passed over; scrAt counts 32
places to a block. -/
def execEvdecay (s : State) : Out :=
  s.scrape 3 fun die c s =>
    match (s.dieAt die).scrSaw with
    | none => s.scrView die c fun v s => s.onDie die fun d => { d with scrSaw := some (v.ents, (v.tokens s die 0).length) }
    | some (es, n) =>
      let v : ScrView := { ents := es, nb := es.length / c.g, g := c.g }
      let at_ := (s.dieAt die).scrAt
      let b := at_ / 32
      if v.nb ≤ b then s.scrEnd die c 0 { liveB := n, liveA := (v.tokens s die 0).length, sel := (s.dieAt die).scrN }
      else if at_ % 32 == 0 && entV (v.head b) && (s.badIn (mdPa s die (v.md b)) 256).isSome then
        readThen (s.readMem die (mdPa s die (v.md b)) 256) (fun w s => s.scrStop die c w) fun _ s => s
      else if decaySkips s die c v b then s.onDie die fun d => { d with scrAt := 32 * (b + 1) }
      else s.decayOne die c (v.md b) (at_ % 32)

end Sys2Proof.Machine
end

