-- ==== Sys2Proof/Machine/Dispatch.lean ====
section
/-!
DEFINITION. Which meaning each step of the opcode table has: one arm for each constructor of Instr.
-/
namespace Sys2Proof.Machine

/-- What an instruction or a step of the device does. -/
def exec (i : Instr) (s : State) : Host.Outcome State Fault Refusal :=
  match i with
  | .cAdd d a b => Sys2Proof.Machine.execCAdd d a b s
  | .cSub d a b => Sys2Proof.Machine.execCSub d a b s
  | .cAnd d a b => Sys2Proof.Machine.execCAnd d a b s
  | .cOr d a b => Sys2Proof.Machine.execCOr d a b s
  | .cXor d a b => Sys2Proof.Machine.execCXor d a b s
  | .andn d a b => Sys2Proof.Machine.execAndn d a b s
  | .cShl d a b => Sys2Proof.Machine.execCShl d a b s
  | .cShr d a b => Sys2Proof.Machine.execCShr d a b s
  | .cSra d a b => Sys2Proof.Machine.execCSra d a b s
  | .cMul d a b => Sys2Proof.Machine.execCMul d a b s
  | .mulh d a b => Sys2Proof.Machine.execMulh d a b s
  | .mulhu d a b => Sys2Proof.Machine.execMulhu d a b s
  | .div d a b => Sys2Proof.Machine.execDiv d a b s
  | .divu d a b => Sys2Proof.Machine.execDivu d a b s
  | .rem d a b => Sys2Proof.Machine.execRem d a b s
  | .remu d a b => Sys2Proof.Machine.execRemu d a b s
  | .cMin d a b => Sys2Proof.Machine.execCMin d a b s
  | .cMax d a b => Sys2Proof.Machine.execCMax d a b s
  | .minu d a b => Sys2Proof.Machine.execMinu d a b s
  | .maxu d a b => Sys2Proof.Machine.execMaxu d a b s
  | .clz d a => Sys2Proof.Machine.execClz d a s
  | .popc d a => Sys2Proof.Machine.execPopc d a s
  | .seq d a b => Sys2Proof.Machine.execSeq d a b s
  | .sne d a b => Sys2Proof.Machine.execSne d a b s
  | .cSlt d a b => Sys2Proof.Machine.execCSlt d a b s
  | .cSltu d a b => Sys2Proof.Machine.execCSltu d a b s
  | .sel d a b => Sys2Proof.Machine.execSel d a b s
  | .cAddi d a n => Sys2Proof.Machine.execCAddi d a n s
  | .andi d a n => Sys2Proof.Machine.execAndi d a n s
  | .ori d a n => Sys2Proof.Machine.execOri d a n s
  | .xori d a n => Sys2Proof.Machine.execXori d a n s
  | .cShli d a n => Sys2Proof.Machine.execCShli d a n s
  | .cShri d a n => Sys2Proof.Machine.execCShri d a n s
  | .cSrai d a n => Sys2Proof.Machine.execCSrai d a n s
  | .slti d a n => Sys2Proof.Machine.execSlti d a n s
  | .sltiu d a n => Sys2Proof.Machine.execSltiu d a n s
  | .cLiz d n p => Sys2Proof.Machine.execCLiz d n p s
  | .cLik d n p => Sys2Proof.Machine.execCLik d n p s
  | .cBeqz a o => Sys2Proof.Machine.execCBeqz a o s
  | .cBnez a o => Sys2Proof.Machine.execCBnez a o s
  | .cBltz a o => Sys2Proof.Machine.execCBltz a o s
  | .cBgez a o => Sys2Proof.Machine.execCBgez a o s
  | .cBlez a o => Sys2Proof.Machine.execCBlez a o s
  | .cBgtz a o => Sys2Proof.Machine.execCBgtz a o s
  | .cJmp o => Sys2Proof.Machine.execCJmp o s
  | .call o => Sys2Proof.Machine.execCall o s
  | .jr a => Sys2Proof.Machine.execJr a s
  | .callr a => Sys2Proof.Machine.execCallr a s
  | .cLdb d a o => Sys2Proof.Machine.execCLdb d a o s
  | .cLdbu d a o => Sys2Proof.Machine.execCLdbu d a o s
  | .cLdh d a o => Sys2Proof.Machine.execCLdh d a o s
  | .cLdhu d a o => Sys2Proof.Machine.execCLdhu d a o s
  | .cLdw d a o => Sys2Proof.Machine.execCLdw d a o s
  | .cLdwu d a o => Sys2Proof.Machine.execCLdwu d a o s
  | .cLdd d a o => Sys2Proof.Machine.execCLdd d a o s
  | .cStb d a o => Sys2Proof.Machine.execCStb d a o s
  | .cSth d a o => Sys2Proof.Machine.execCSth d a o s
  | .cStw d a o => Sys2Proof.Machine.execCStw d a o s
  | .cStd d a o => Sys2Proof.Machine.execCStd d a o s
  | .atadd d a b w => Sys2Proof.Machine.execAtadd d a b w s
  | .atswp d a b w => Sys2Proof.Machine.execAtswp d a b w s
  | .atcas d a b w => Sys2Proof.Machine.execAtcas d a b w s
  | .atmin d a b w => Sys2Proof.Machine.execAtmin d a b w s
  | .atmax d a b w => Sys2Proof.Machine.execAtmax d a b w s
  | .atminu d a b w => Sys2Proof.Machine.execAtminu d a b w s
  | .atmaxu d a b w => Sys2Proof.Machine.execAtmaxu d a b w s
  | .arm a => Sys2Proof.Machine.execArm a s
  | .rinit a b => Sys2Proof.Machine.execRinit a b s
  | .rclaim d a => Sys2Proof.Machine.execRclaim d a s
  | .rpub a b => Sys2Proof.Machine.execRpub a b s
  | .rwfill a b => Sys2Proof.Machine.execRwfill a b s
  | .rtake d a b => Sys2Proof.Machine.execRtake d a b s
  | .rwfree a b => Sys2Proof.Machine.execRwfree a b s
  | .reos a => Sys2Proof.Machine.execReos a s
  | .bind d a b v => Sys2Proof.Machine.execBind d a b v s
  | .acq d a x v => Sys2Proof.Machine.execAcq d a x v s
  | .rel a b x v => Sys2Proof.Machine.execRel a b x v s
  | .fence x => Sys2Proof.Machine.execFence x s
  | .fenceFlagged a b x v => Sys2Proof.Machine.execFenceFlagged a b x v s
  | .spawn a => Sys2Proof.Machine.execSpawn a s
  | .join a b => Sys2Proof.Machine.execJoin a b s
  | .exit a => Sys2Proof.Machine.execExit a s
  | .yield a => Sys2Proof.Machine.execYield a s
  | .segw d a b => Sys2Proof.Machine.execSegw d a b s
  | .mxq a b => Sys2Proof.Machine.execMxq a b s
  | .mxd n a b => Sys2Proof.Machine.execMxd n a b s
  | .xfc a b => Sys2Proof.Machine.execXfc a b s
  | .evx a b => Sys2Proof.Machine.execEvx a b s
  | .cplan d a => Sys2Proof.Machine.execCplan d a s
  | .ctrig a b => Sys2Proof.Machine.execCtrig a b s
  | .cseal d a b => Sys2Proof.Machine.execCseal d a b s
  | .cmani a b => Sys2Proof.Machine.execCmani a b s
  | .cabort a => Sys2Proof.Machine.execCabort a s
  | .crr d c => Sys2Proof.Machine.execCrr d c s
  | .crw d c => Sys2Proof.Machine.execCrw d c s
  | .trap c => Sys2Proof.Machine.execTrap c s
  | .tlbiPage a => Sys2Proof.Machine.execTlbiPage a s
  | .tlbiAsid a => Sys2Proof.Machine.execTlbiAsid a s
  | .tlbiAll a => Sys2Proof.Machine.execTlbiAll a s
  | .c16Mov d a => Sys2Proof.Machine.execC16Mov d a s
  | .c16Add d a => Sys2Proof.Machine.execC16Add d a s
  | .c16Sub d a => Sys2Proof.Machine.execC16Sub d a s
  | .c16And d a => Sys2Proof.Machine.execC16And d a s
  | .c16Or d a => Sys2Proof.Machine.execC16Or d a s
  | .c16Xor d a => Sys2Proof.Machine.execC16Xor d a s
  | .c16Addi d n => Sys2Proof.Machine.execC16Addi d n s
  | .c16Liz d n => Sys2Proof.Machine.execC16Liz d n s
  | .c16Shli d n => Sys2Proof.Machine.execC16Shli d n s
  | .c16Shri d n => Sys2Proof.Machine.execC16Shri d n s
  | .c16Srai d n => Sys2Proof.Machine.execC16Srai d n s
  | .c16Ldd d a => Sys2Proof.Machine.execC16Ldd d a s
  | .c16Std d a => Sys2Proof.Machine.execC16Std d a s
  | .aAdd d a b => Sys2Proof.Machine.execAAdd d a b s
  | .aSub d a b => Sys2Proof.Machine.execASub d a b s
  | .aAnd d a b => Sys2Proof.Machine.execAAnd d a b s
  | .aOr d a b => Sys2Proof.Machine.execAOr d a b s
  | .aXor d a b => Sys2Proof.Machine.execAXor d a b s
  | .aShl d a b => Sys2Proof.Machine.execAShl d a b s
  | .aShr d a b => Sys2Proof.Machine.execAShr d a b s
  | .aSra d a b => Sys2Proof.Machine.execASra d a b s
  | .aMul d a b => Sys2Proof.Machine.execAMul d a b s
  | .aMin d a b => Sys2Proof.Machine.execAMin d a b s
  | .aMax d a b => Sys2Proof.Machine.execAMax d a b s
  | .aSlt d a b => Sys2Proof.Machine.execASlt d a b s
  | .aSltu d a b => Sys2Proof.Machine.execASltu d a b s
  | .aAddi d a n => Sys2Proof.Machine.execAAddi d a n s
  | .aLiz d n p => Sys2Proof.Machine.execALiz d n p s
  | .aLik d n p => Sys2Proof.Machine.execALik d n p s
  | .aShli d a n => Sys2Proof.Machine.execAShli d a n s
  | .aShri d a n => Sys2Proof.Machine.execAShri d a n s
  | .aSrai d a n => Sys2Proof.Machine.execASrai d a n s
  | .ldq a b q k n => Sys2Proof.Machine.execLdq a b q k n s
  | .ldq2 a b q k x => Sys2Proof.Machine.execLdq2 a b q k x s
  | .stq a b q k n => Sys2Proof.Machine.execStq a b q k n s
  | .stqnt a b q k n => Sys2Proof.Machine.execStqnt a b q k n s
  | .gather a b q k e => Sys2Proof.Machine.execGather a b q k e s
  | .scatter a b q k e => Sys2Proof.Machine.execScatter a b q k e s
  | .ldsr a q k => Sys2Proof.Machine.execLdsr a q k s
  | .pfc a b k => Sys2Proof.Machine.execPfc a b k s
  | .aLdb d a k o => Sys2Proof.Machine.execALdb d a k o s
  | .aLdbu d a k o => Sys2Proof.Machine.execALdbu d a k o s
  | .aLdh d a k o => Sys2Proof.Machine.execALdh d a k o s
  | .aLdhu d a k o => Sys2Proof.Machine.execALdhu d a k o s
  | .aLdw d a k o => Sys2Proof.Machine.execALdw d a k o s
  | .aLdwu d a k o => Sys2Proof.Machine.execALdwu d a k o s
  | .aLdd d a k o => Sys2Proof.Machine.execALdd d a k o s
  | .aStb a b k o => Sys2Proof.Machine.execAStb a b k o s
  | .aSth a b k o => Sys2Proof.Machine.execASth a b k o s
  | .aStw a b k o => Sys2Proof.Machine.execAStw a b k o s
  | .aStd a b k o => Sys2Proof.Machine.execAStd a b k o s
  | .sqp b => Sys2Proof.Machine.execSqp b s
  | .ldsq a k o => Sys2Proof.Machine.execLdsq a k o s
  | .aBeqz a o => Sys2Proof.Machine.execABeqz a o s
  | .aBnez a o => Sys2Proof.Machine.execABnez a o s
  | .aBltz a o => Sys2Proof.Machine.execABltz a o s
  | .aBgez a o => Sys2Proof.Machine.execABgez a o s
  | .aBlez a o => Sys2Proof.Machine.execABlez a o s
  | .aBgtz a o => Sys2Proof.Machine.execABgtz a o s
  | .aJmp o => Sys2Proof.Machine.execAJmp o s
  | .cset d a b c => Sys2Proof.Machine.execCset d a b c s
  | .a16Add d a => Sys2Proof.Machine.execA16Add d a s
  | .a16Sub d a => Sys2Proof.Machine.execA16Sub d a s
  | .a16Addi d n => Sys2Proof.Machine.execA16Addi d n s
  | .a16Mov d a => Sys2Proof.Machine.execA16Mov d a s
  | .a16Shli d n => Sys2Proof.Machine.execA16Shli d n s
  | .a16Liz d n => Sys2Proof.Machine.execA16Liz d n s
  | .vnop c => Sys2Proof.Machine.execVnop c s
  | .vadd d a b q t => Sys2Proof.Machine.execVadd d a b q t s
  | .vsub d a b q t => Sys2Proof.Machine.execVsub d a b q t s
  | .vmul d a b q t => Sys2Proof.Machine.execVmul d a b q t s
  | .vmulh d a b q t => Sys2Proof.Machine.execVmulh d a b q t s
  | .vfma d a b q t => Sys2Proof.Machine.execVfma d a b q t s
  | .vfms d a b q t => Sys2Proof.Machine.execVfms d a b q t s
  | .vmin d a b q t => Sys2Proof.Machine.execVmin d a b q t s
  | .vmax d a b q t => Sys2Proof.Machine.execVmax d a b q t s
  | .vand d a b q t => Sys2Proof.Machine.execVand d a b q t s
  | .vor d a b q t => Sys2Proof.Machine.execVor d a b q t s
  | .vxor d a b q t => Sys2Proof.Machine.execVxor d a b q t s
  | .vshl d a b q t => Sys2Proof.Machine.execVshl d a b q t s
  | .vshr d a b q t => Sys2Proof.Machine.execVshr d a b q t s
  | .vadds d a b q t => Sys2Proof.Machine.execVadds d a b q t s
  | .vsubs d a b q t => Sys2Proof.Machine.execVsubs d a b q t s
  | .vabs d a q t => Sys2Proof.Machine.execVabs d a q t s
  | .vneg d a q t => Sys2Proof.Machine.execVneg d a q t s
  | .vnot d a q t => Sys2Proof.Machine.execVnot d a q t s
  | .vmov d a q => Sys2Proof.Machine.execVmov d a q s
  | .vexp2 d a q t => Sys2Proof.Machine.execVexp2 d a q t s
  | .vlog2 d a q t => Sys2Proof.Machine.execVlog2 d a q t s
  | .vrcp d a q t => Sys2Proof.Machine.execVrcp d a q t s
  | .vrsq d a q t => Sys2Proof.Machine.execVrsq d a q t s
  | .vrcpf d a q => Sys2Proof.Machine.execVrcpf d a q s
  | .vrsqf d a q => Sys2Proof.Machine.execVrsqf d a q s
  | .vclz d a q t => Sys2Proof.Machine.execVclz d a q t s
  | .vpopc d a q t => Sys2Proof.Machine.execVpopc d a q t s
  | .vcmp c p a b q t => Sys2Proof.Machine.execVcmp c p a b q t s
  | .vsel d a b q t => Sys2Proof.Machine.execVsel d a b q t s
  | .pand d a b => Sys2Proof.Machine.execPand d a b s
  | .por d a b => Sys2Proof.Machine.execPor d a b s
  | .pxor d a b => Sys2Proof.Machine.execPxor d a b s
  | .pandn d a b => Sys2Proof.Machine.execPandn d a b s
  | .pnot d a => Sys2Proof.Machine.execPnot d a s
  | .vcvt d a x r t => Sys2Proof.Machine.execVcvt d a x r t s
  | .vqmx d a b q t => Sys2Proof.Machine.execVqmx d a b q t s
  | .vdqmx d a b q t => Sys2Proof.Machine.execVdqmx d a b q t s
  | .vrsum d a q t => Sys2Proof.Machine.execVrsum d a q t s
  | .vrmax d a q t => Sys2Proof.Machine.execVrmax d a q t s
  | .vrmin d a q t => Sys2Proof.Machine.execVrmin d a q t s
  | .vrargmax d a q t => Sys2Proof.Machine.execVrargmax d a q t s
  | .vperm d a b q t => Sys2Proof.Machine.execVperm d a b q t s
  | .vshuf d a p q t => Sys2Proof.Machine.execVshuf d a p q t s
  | .vzip d a b q t => Sys2Proof.Machine.execVzip d a b q t s
  | .vunzip d a b q t => Sys2Proof.Machine.execVunzip d a b q t s
  | .vbcast d a b q t => Sys2Proof.Machine.execVbcast d a b q t s
  | .vslideu d a c q t => Sys2Proof.Machine.execVslideu d a c q t s
  | .vslided d a c q t => Sys2Proof.Machine.execVslided d a c q t s
  | .vwiden d a u f q t => Sys2Proof.Machine.execVwiden d a u f q t s
  | .vnarrow d a x m q t => Sys2Proof.Machine.execVnarrow d a x m q t s
  | .vpop d q x => Sys2Proof.Machine.execVpop d q x s
  | .vpush q a => Sys2Proof.Machine.execVpush q a s
  | .vsett x a => Sys2Proof.Machine.execVsett x a s
  | .vldc k a => Sys2Proof.Machine.execVldc k a s
  | .vrot n => Sys2Proof.Machine.execVrot n s
  | .viota d a b q t => Sys2Proof.Machine.execViota d a b q t s
  | .mswait d => Sys2Proof.Machine.execMswait d s
  | .mssig d => Sys2Proof.Machine.execMssig d s
  | .xevwait d => Sys2Proof.Machine.execXevwait d s
  | .xevsig d => Sys2Proof.Machine.execXevsig d s
  | .rago d => Sys2Proof.Machine.execRago d s
  | .rares d => Sys2Proof.Machine.execRares d s
  | .sq d => Sys2Proof.Machine.execSq d s
  | .cnopen d => Sys2Proof.Machine.execCnopen d s
  | .cncur d => Sys2Proof.Machine.execCncur d s
  | .cnbind d => Sys2Proof.Machine.execCnbind d s
  | .rqfin d => Sys2Proof.Machine.execRqfin d s
  | .kvcfgWrite d => Sys2Proof.Machine.execKvcfgWrite d s
  | .mdcfgWrite d => Sys2Proof.Machine.execMdcfgWrite d s
  | .mnqCiWrite d => Sys2Proof.Machine.execMnqCiWrite d s
  | .wload d => Sys2Proof.Machine.execWload d s
  | .dcnt d hi => Sys2Proof.Machine.execDcnt d hi s
  | .therm d => Sys2Proof.Machine.execTherm d s
  | .rsttlenWrite d => Sys2Proof.Machine.execRsttlenWrite d s
  | .cqcfgWrite d => Sys2Proof.Machine.execCqcfgWrite d s
  | .scrcfgRead d => Sys2Proof.Machine.execScrcfgRead d s
  | .waite => Sys2Proof.Machine.execWaite s
  | .rdv => Sys2Proof.Machine.execRdv s
  | .eretReturn => Sys2Proof.Machine.execEretReturn s
  | .eretResume => Sys2Proof.Machine.execEretResume s
  | .c16Nop => Sys2Proof.Machine.execC16Nop s
  | .a16Nop => Sys2Proof.Machine.execA16Nop s
  | .realn => Sys2Proof.Machine.execRealn s
  | .writeBackLanding => Sys2Proof.Machine.execWriteBackLanding s
  | .realnBoundary => Sys2Proof.Machine.execRealnBoundary s
  | .blockFetch => Sys2Proof.Machine.execBlockFetch s
  | .accessPerform => Sys2Proof.Machine.execAccessPerform s
  | .waiteWake => Sys2Proof.Machine.execWaiteWake s
  | .rdvComplete => Sys2Proof.Machine.execRdvComplete s
  | .exitEnd => Sys2Proof.Machine.execExitEnd s
  | .yieldEnd => Sys2Proof.Machine.execYieldEnd s
  | .segwComplete => Sys2Proof.Machine.execSegwComplete s
  | .ringWaitComplete => Sys2Proof.Machine.execRingWaitComplete s
  | .queueWaitComplete => Sys2Proof.Machine.execQueueWaitComplete s
  | .jobTake => Sys2Proof.Machine.execJobTake s
  | .recordPromotion => Sys2Proof.Machine.execRecordPromotion s
  | .heldPushEntry => Sys2Proof.Machine.execHeldPushEntry s
  | .recordWindowStore => Sys2Proof.Machine.execRecordWindowStore s
  | .admissionWindowStore => Sys2Proof.Machine.execAdmissionWindowStore s
  | .admissionHeldEntry => Sys2Proof.Machine.execAdmissionHeldEntry s
  | .allocationWindowRead => Sys2Proof.Machine.execAllocationWindowRead s
  | .launchEntryFire => Sys2Proof.Machine.execLaunchEntryFire s
  | .preempt => Sys2Proof.Machine.execPreempt s
  | .preemptionFreeze => Sys2Proof.Machine.execPreemptionFreeze s
  | .engineFaultDelivery => Sys2Proof.Machine.execEngineFaultDelivery s
  | .descriptorLoad => Sys2Proof.Machine.execDescriptorLoad s
  | .mnop => Sys2Proof.Machine.execMnop s
  | .mma => Sys2Proof.Machine.execMma s
  | .mmax => Sys2Proof.Machine.execMmax s
  | .zeroz => Sys2Proof.Machine.execZeroz s
  | .loadz => Sys2Proof.Machine.execLoadz s
  | .storez => Sys2Proof.Machine.execStorez s
  | .drainz => Sys2Proof.Machine.execDrainz s
  | .drainq => Sys2Proof.Machine.execDrainq s
  | .glz => Sys2Proof.Machine.execGlz s
  | .atsc => Sys2Proof.Machine.execAtsc s
  | .atsoInit => Sys2Proof.Machine.execAtsoInit s
  | .atsoUpdate => Sys2Proof.Machine.execAtsoUpdate s
  | .atsoFinal => Sys2Proof.Machine.execAtsoFinal s
  | .atsoMass => Sys2Proof.Machine.execAtsoMass s
  | .atav => Sys2Proof.Machine.execAtav s
  | .atmc => Sys2Proof.Machine.execAtmc s
  | .matrixCommandComplete => Sys2Proof.Machine.execMatrixCommandComplete s
  | .chainStart => Sys2Proof.Machine.execChainStart s
  | .copy => Sys2Proof.Machine.execCopy s
  | .copynd => Sys2Proof.Machine.execCopynd s
  | .mcast => Sys2Proof.Machine.execMcast s
  | .fill => Sys2Proof.Machine.execFill s
  | .kvmove => Sys2Proof.Machine.execKvmove s
  | .kvshare => Sys2Proof.Machine.execKvshare s
  | .promote => Sys2Proof.Machine.execPromote s
  | .demote => Sys2Proof.Machine.execDemote s
  | .kvmark => Sys2Proof.Machine.execKvmark s
  | .loop => Sys2Proof.Machine.execLoop s
  | .cond => Sys2Proof.Machine.execCond s
  | .note => Sys2Proof.Machine.execNote s
  | .waitev => Sys2Proof.Machine.execWaitev s
  | .commandRetire => Sys2Proof.Machine.execCommandRetire s
  | .evscan => Sys2Proof.Machine.execEvscan s
  | .evcompact => Sys2Proof.Machine.execEvcompact s
  | .evdecay => Sys2Proof.Machine.execEvdecay s
  | .ringStationRun => Sys2Proof.Machine.execRingStationRun s
  | .ringStationStop => Sys2Proof.Machine.execRingStationStop s
  | .wloadComplete => Sys2Proof.Machine.execWloadComplete s
  | .rpair => Sys2Proof.Machine.execRpair s
  | .bypass => Sys2Proof.Machine.execBypass s
  | .tagPresentation => Sys2Proof.Machine.execTagPresentation s
  | .dispatchRound1 => Sys2Proof.Machine.execDispatchRound1 s
  | .frameClose => Sys2Proof.Machine.execFrameClose s
  | .segmentLanding => Sys2Proof.Machine.execSegmentLanding s
  | .landingAcknowledgement => Sys2Proof.Machine.execLandingAcknowledgement s
  | .ackTimeoutResend => Sys2Proof.Machine.execAckTimeoutResend s
  | .slotPark => Sys2Proof.Machine.execSlotPark s
  | .parkRetry => Sys2Proof.Machine.execParkRetry s
  | .scrub => Sys2Proof.Machine.execScrub s
  | .postedWrite => Sys2Proof.Machine.execPostedWrite s
  | .slotReinject => Sys2Proof.Machine.execSlotReinject s
  | .readRequest => Sys2Proof.Machine.execReadRequest s
  | .readResponse => Sys2Proof.Machine.execReadResponse s
  | .acknowledgement => Sys2Proof.Machine.execAcknowledgement s
  | .remoteAtomic => Sys2Proof.Machine.execRemoteAtomic s
  | .atomicResult => Sys2Proof.Machine.execAtomicResult s
  | .planTransfer => Sys2Proof.Machine.execPlanTransfer s
  | .consignmentStore => Sys2Proof.Machine.execConsignmentStore s
  | .timing => Sys2Proof.Machine.execTiming s
  | .sync => Sys2Proof.Machine.execSync s
  | .failureNotice => Sys2Proof.Machine.execFailureNotice s
  | .slotResendRequest => Sys2Proof.Machine.execSlotResendRequest s
  | .linkError => Sys2Proof.Machine.execLinkError s
  | .linkRetrainEnd => Sys2Proof.Machine.execLinkRetrainEnd s
  | .mergedWrite => Sys2Proof.Machine.execMergedWrite s
  | .triggerWrite => Sys2Proof.Machine.execTriggerWrite s
  | .planFiringStart => Sys2Proof.Machine.execPlanFiringStart s
  | .planFiringComplete => Sys2Proof.Machine.execPlanFiringComplete s
  | .planStall => Sys2Proof.Machine.execPlanStall s
  | .planHoldNotice => Sys2Proof.Machine.execPlanHoldNotice s
  | .planReleaseNotice => Sys2Proof.Machine.execPlanReleaseNotice s
  | .holdCeilingExpiry => Sys2Proof.Machine.execHoldCeilingExpiry s
  | .planAbortNotice => Sys2Proof.Machine.execPlanAbortNotice s
  | .manifestEntry => Sys2Proof.Machine.execManifestEntry s
  | .confirmation => Sys2Proof.Machine.execConfirmation s
  | .publishTime => Sys2Proof.Machine.execPublishTime s
  | .publish => Sys2Proof.Machine.execPublish s
  | .bondDrain => Sys2Proof.Machine.execBondDrain s
  | .censusNotice => Sys2Proof.Machine.execCensusNotice s
  | .abortRequest => Sys2Proof.Machine.execAbortRequest s
  | .abortNotice => Sys2Proof.Machine.execAbortNotice s
  | .cnwaitExpiry => Sys2Proof.Machine.execCnwaitExpiry s
  | .destinationHoldExpiry => Sys2Proof.Machine.execDestinationHoldExpiry s
  | .ethernetSend => Sys2Proof.Machine.execEthernetSend s
  | .ethernetWrite => Sys2Proof.Machine.execEthernetWrite s
  | .ethernetAck => Sys2Proof.Machine.execEthernetAck s
  | .contextTeardown => Sys2Proof.Machine.execContextTeardown s
  | .ethernetLinkDown => Sys2Proof.Machine.execEthernetLinkDown s
  | .ethernetAckTimeout => Sys2Proof.Machine.execEthernetAckTimeout s
  | .telemetryUpdate => Sys2Proof.Machine.execTelemetryUpdate s
  | .deviceReset => Sys2Proof.Machine.execDeviceReset s
  | .attestationRequest => Sys2Proof.Machine.execAttestationRequest s
  | .ringcfgWrite => Sys2Proof.Machine.execRingcfgWrite s
  | .combiningBufferExpiry => Sys2Proof.Machine.execCombiningBufferExpiry s
  | .orphanPlaceDiscard => Sys2Proof.Machine.execOrphanPlaceDiscard s
  | .negativeAcknowledgement => Sys2Proof.Machine.execNegativeAcknowledgement s
  | .planReservation => Sys2Proof.Machine.execPlanReservation s

end Sys2Proof.Machine
end

