-- ==== Sys2Proof/Machine/Issue.lean ====
section
/-!
DEFINITION. How a stream issues its next word (R158-R164, R172, R189, R226): interlocks, the read of a register count, decoding; and
what the world outside the part does to it. step calls these.
-/
namespace Sys2Proof.Machine

/-- The s-registers that a C-stream word names: sources and destination (R189); CALL and CALLR write s31, YIELD reads s30. -/
def regsC : Instr → List Nat
  | .cAdd d a b => [d.toNat, a.toNat, b.toNat]
  | .cSub d a b => [d.toNat, a.toNat, b.toNat]
  | .cAnd d a b => [d.toNat, a.toNat, b.toNat]
  | .cOr d a b => [d.toNat, a.toNat, b.toNat]
  | .cXor d a b => [d.toNat, a.toNat, b.toNat]
  | .andn d a b => [d.toNat, a.toNat, b.toNat]
  | .cShl d a b => [d.toNat, a.toNat, b.toNat]
  | .cShr d a b => [d.toNat, a.toNat, b.toNat]
  | .cSra d a b => [d.toNat, a.toNat, b.toNat]
  | .cMul d a b => [d.toNat, a.toNat, b.toNat]
  | .mulh d a b => [d.toNat, a.toNat, b.toNat]
  | .mulhu d a b => [d.toNat, a.toNat, b.toNat]
  | .div d a b => [d.toNat, a.toNat, b.toNat]
  | .divu d a b => [d.toNat, a.toNat, b.toNat]
  | .rem d a b => [d.toNat, a.toNat, b.toNat]
  | .remu d a b => [d.toNat, a.toNat, b.toNat]
  | .cMin d a b => [d.toNat, a.toNat, b.toNat]
  | .cMax d a b => [d.toNat, a.toNat, b.toNat]
  | .minu d a b => [d.toNat, a.toNat, b.toNat]
  | .maxu d a b => [d.toNat, a.toNat, b.toNat]
  | .clz d a => [d.toNat, a.toNat]
  | .popc d a => [d.toNat, a.toNat]
  | .seq d a b => [d.toNat, a.toNat, b.toNat]
  | .sne d a b => [d.toNat, a.toNat, b.toNat]
  | .cSlt d a b => [d.toNat, a.toNat, b.toNat]
  | .cSltu d a b => [d.toNat, a.toNat, b.toNat]
  | .sel d a b => [d.toNat, a.toNat, b.toNat]
  | .cAddi d a _ => [d.toNat, a.toNat]
  | .andi d a _ => [d.toNat, a.toNat]
  | .ori d a _ => [d.toNat, a.toNat]
  | .xori d a _ => [d.toNat, a.toNat]
  | .cShli d a _ => [d.toNat, a.toNat]
  | .cShri d a _ => [d.toNat, a.toNat]
  | .cSrai d a _ => [d.toNat, a.toNat]
  | .slti d a _ => [d.toNat, a.toNat]
  | .sltiu d a _ => [d.toNat, a.toNat]
  | .cLiz d _ _ => [d.toNat]
  | .cLik d _ _ => [d.toNat]
  | .cBeqz a _ => [a.toNat]
  | .cBnez a _ => [a.toNat]
  | .cBltz a _ => [a.toNat]
  | .cBgez a _ => [a.toNat]
  | .cBlez a _ => [a.toNat]
  | .cBgtz a _ => [a.toNat]
  | .call _ => [31]
  | .jr a => [a.toNat]
  | .callr a => [a.toNat, 31]
  | .cLdb d a _ => [d.toNat, a.toNat]
  | .cLdbu d a _ => [d.toNat, a.toNat]
  | .cLdh d a _ => [d.toNat, a.toNat]
  | .cLdhu d a _ => [d.toNat, a.toNat]
  | .cLdw d a _ => [d.toNat, a.toNat]
  | .cLdwu d a _ => [d.toNat, a.toNat]
  | .cLdd d a _ => [d.toNat, a.toNat]
  | .cStb d a _ => [d.toNat, a.toNat]
  | .cSth d a _ => [d.toNat, a.toNat]
  | .cStw d a _ => [d.toNat, a.toNat]
  | .cStd d a _ => [d.toNat, a.toNat]
  | .atadd d a b _ => [d.toNat, a.toNat, b.toNat]
  | .atswp d a b _ => [d.toNat, a.toNat, b.toNat]
  | .atcas d a b _ => [d.toNat, a.toNat, b.toNat]
  | .atmin d a b _ => [d.toNat, a.toNat, b.toNat]
  | .atmax d a b _ => [d.toNat, a.toNat, b.toNat]
  | .atminu d a b _ => [d.toNat, a.toNat, b.toNat]
  | .atmaxu d a b _ => [d.toNat, a.toNat, b.toNat]
  | .arm a => [a.toNat]
  | .rinit a b => [a.toNat, b.toNat]
  | .rclaim d a => [d.toNat, a.toNat]
  | .rpub a b => [a.toNat, b.toNat]
  | .rwfill a b => [a.toNat, b.toNat]
  | .rtake d a b => [d.toNat, a.toNat, b.toNat]
  | .rwfree a b => [a.toNat, b.toNat]
  | .reos a => [a.toNat]
  | .bind d a b _ => [d.toNat, a.toNat, b.toNat]
  | .acq d a _ _ => [d.toNat, a.toNat]
  | .rel a b _ _ => [a.toNat, b.toNat]
  | .fenceFlagged a b _ _ => [a.toNat, b.toNat]
  | .spawn a => [a.toNat]
  | .join a b => [a.toNat, b.toNat]
  | .exit a => [a.toNat]
  | .yield a => [a.toNat, 30]
  | .segw d a b => [d.toNat, a.toNat, b.toNat]
  | .mxq a b => [a.toNat, b.toNat]
  | .mxd _ a b => [a.toNat, b.toNat]
  | .xfc a b => [a.toNat, b.toNat]
  | .evx a b => [a.toNat, b.toNat]
  | .cplan d a => [d.toNat, a.toNat]
  | .ctrig a b => [a.toNat, b.toNat]
  | .cseal d a b => [d.toNat, a.toNat, b.toNat]
  | .cmani a b => [a.toNat, b.toNat]
  | .cabort a => [a.toNat]
  | .crr d _ => [d.toNat]
  | .crw d _ => [d.toNat]
  | .tlbiPage a => [a.toNat]
  | .tlbiAsid a => [a.toNat]
  | .tlbiAll a => [a.toNat]
  | .c16Mov d a => [d.toNat, a.toNat]
  | .c16Add d a => [d.toNat, a.toNat]
  | .c16Sub d a => [d.toNat, a.toNat]
  | .c16And d a => [d.toNat, a.toNat]
  | .c16Or d a => [d.toNat, a.toNat]
  | .c16Xor d a => [d.toNat, a.toNat]
  | .c16Addi d _ => [d.toNat]
  | .c16Liz d _ => [d.toNat]
  | .c16Shli d _ => [d.toNat]
  | .c16Shri d _ => [d.toNat]
  | .c16Srai d _ => [d.toNat]
  | .c16Ldd d a => [d.toNat, a.toNat]
  | .c16Std d a => [d.toNat, a.toNat]
  | .mswait d => [d.toNat]
  | .mssig d => [d.toNat]
  | .xevwait d => [d.toNat]
  | .xevsig d => [d.toNat]
  | .rago d => [d.toNat]
  | .rares d => [d.toNat]
  | .sq d => [d.toNat]
  | .cnopen d => [d.toNat]
  | .cncur d => [d.toNat]
  | .cnbind d => [d.toNat]
  | .rqfin d => [d.toNat]
  | .kvcfgWrite d => [d.toNat]
  | .mdcfgWrite d => [d.toNat]
  | .mnqCiWrite d => [d.toNat]
  | .wload d => [d.toNat]
  | .dcnt d _ => [d.toNat]
  | .therm d => [d.toNat]
  | .rsttlenWrite d => [d.toNat]
  | .cqcfgWrite d => [d.toNat]
  | .scrcfgRead d => [d.toNat]
  | _ => []

/-- The a-registers that an A-stream word names (R226). -/
def regsA : Instr → List Nat
  | .aAdd d a b => [d.toNat, a.toNat, b.toNat]
  | .aSub d a b => [d.toNat, a.toNat, b.toNat]
  | .aAnd d a b => [d.toNat, a.toNat, b.toNat]
  | .aOr d a b => [d.toNat, a.toNat, b.toNat]
  | .aXor d a b => [d.toNat, a.toNat, b.toNat]
  | .aShl d a b => [d.toNat, a.toNat, b.toNat]
  | .aShr d a b => [d.toNat, a.toNat, b.toNat]
  | .aSra d a b => [d.toNat, a.toNat, b.toNat]
  | .aMul d a b => [d.toNat, a.toNat, b.toNat]
  | .aMin d a b => [d.toNat, a.toNat, b.toNat]
  | .aMax d a b => [d.toNat, a.toNat, b.toNat]
  | .aSlt d a b => [d.toNat, a.toNat, b.toNat]
  | .aSltu d a b => [d.toNat, a.toNat, b.toNat]
  | .aAddi d a _ => [d.toNat, a.toNat]
  | .aLiz d _ _ => [d.toNat]
  | .aLik d _ _ => [d.toNat]
  | .aShli d a _ => [d.toNat, a.toNat]
  | .aShri d a _ => [d.toNat, a.toNat]
  | .aSrai d a _ => [d.toNat, a.toNat]
  | .ldq a b _ _ _ => [a.toNat, b.toNat]
  | .ldq2 a b _ _ _ => [a.toNat, b.toNat]
  | .stq a b _ _ _ => [a.toNat, b.toNat]
  | .stqnt a b _ _ _ => [a.toNat, b.toNat]
  | .gather a b _ _ _ => [a.toNat, b.toNat]
  | .scatter a b _ _ _ => [a.toNat, b.toNat]
  | .ldsr a _ _ => [a.toNat]
  | .pfc a b _ => [a.toNat, b.toNat]
  | .aLdb d a _ _ => [d.toNat, a.toNat]
  | .aLdbu d a _ _ => [d.toNat, a.toNat]
  | .aLdh d a _ _ => [d.toNat, a.toNat]
  | .aLdhu d a _ _ => [d.toNat, a.toNat]
  | .aLdw d a _ _ => [d.toNat, a.toNat]
  | .aLdwu d a _ _ => [d.toNat, a.toNat]
  | .aLdd d a _ _ => [d.toNat, a.toNat]
  | .aStb a b _ _ => [a.toNat, b.toNat]
  | .aSth a b _ _ => [a.toNat, b.toNat]
  | .aStw a b _ _ => [a.toNat, b.toNat]
  | .aStd a b _ _ => [a.toNat, b.toNat]
  | .sqp b => [b.toNat]
  | .ldsq a _ _ => [a.toNat]
  | .aBeqz a _ => [a.toNat]
  | .aBnez a _ => [a.toNat]
  | .aBltz a _ => [a.toNat]
  | .aBgez a _ => [a.toNat]
  | .aBlez a _ => [a.toNat]
  | .aBgtz a _ => [a.toNat]
  | .cset d a b _ => [d.toNat, a.toNat, b.toNat]
  | .a16Add d a => [d.toNat, a.toNat]
  | .a16Sub d a => [d.toNat, a.toNat]
  | .a16Addi d _ => [d.toNat]
  | .a16Mov d a => [d.toNat, a.toNat]
  | .a16Shli d _ => [d.toNat]
  | .a16Liz d _ => [d.toNat]
  | _ => []

/-- Does a word wait for a register whose producer has not delivered (R189, R226)? -/
def Job.interlocked (j : Job) (st : Strm) (i : Instr) : Bool :=
  match st with
  | .c => (regsC i).any j.sBusy
  | .a => (regsA i).any j.aBusy
  | _ => false
/-- Does the header of the block wait for its count register (R159)? -/
def Job.countBusy (j : Job) (st : Strm) (r : Nat) : Bool :=
  match st with
  | .c => j.sBusy r
  | .a => j.aBusy r
  | _ => false
/-- The count of a register-counted block (R159). -/
def State.countOf (s : State) (st : Strm) (r : Nat) : Nat :=
  match st with
  | .c => fieldOf (s.rs (BitVec.ofNat 5 r)) 0 32
  | .a => fieldOf (s.ra (BitVec.ofNat 4 r)) 0 32
  | .v => (spGet 0 s.job.kc r).toNat
  | .m => 0

/-- The word at a stream's pc is presented (R161, R162, R182): the word, if it issues; a word of no instruction raises the encoding
trap. -/
def State.decodeNext (s : State) (st : Strm) : Option Instr × State :=
  match decodeAt st (s.job.blk st).code with
  | (.bad k, _) => (none, s.trapW st 0 k)
  | (.ok i, _) => if s.job.interlocked st i then (none, s) else (some i, s)

/-- A running stream presents its next word; before the first word of a register-counted block it reads the count, and passes a
block whose count is 0 (R159). -/
def State.present (s : State) (st : Strm) : Option Instr × State :=
  let b := s.job.blk st
  if b.short then (none, s.fetchMore st)
  else if b.code.isEmpty then (none, s.goto st b.next)
  else if b.fresh && b.kind == 2 then
    if s.job.countBusy st (b.arg % 16) then (none, s)
    else
      let c := s.countOf st (b.arg % 16)
      if c = 0 then (none, s.goto st b.next)
      else (s.onBlk st fun b => { b with left := c, fresh := false }).decodeNext st
  else s.decodeNext st

/-- May a C- or A-stream issue: its job is on the core, its block runs, nothing holds it? -/
def Job.canIssue (j : Job) (st : Strm) : Bool :=
  j.live && j.has st && (j.blk st).mode == .run && (j.blk st).wait.isNone && (j.blk st).park.isNone

/-- A stream of the core of the step takes its turn: the word that issues, if one does, and the state it finds. The V-stream's turn is
one ck (R172); the ck at which a trap that waits for the engine stops it is not over (R407, R290). -/
def State.issueW (s : State) (st : Strm) : Option Instr × State :=
  match st with
  | .v =>
    if s.stops .v then (none, s) else
    let s := s.realnDone
    if s.vHeld then (none, s.vHoldCk)
    else match s.vPass with
      | (s, true) => (none, s)
      | (s, false) => match s.present .v with | (none, s) => (none, if s.job.pend.isSome then s else s.vEnd) | r => r
  | .m => (none, s)
  | st => if s.job.canIssue st && !s.stops st then s.present st else (none, s)

/-- May the companion reach n bytes at an address (R392, R387): companion memory; the boot mailbox; the rest of a die once root
firmware has opened it, and there the tile stores and the serai only within a valid SUPMAP entry of the die, with WR for a store
(R378; log entry 35). -/
def companionMay (s : State) (pa n : Nat) (w : Bool) : Bool :=
  let die := paDie pa
  paOk s die pa && (paSpace pa == 2 ||
    ((s.dieAt die).released && (paSpace pa == 3 || supmapOk s die pa n w)) ||
    (paSpace pa == 3 && decide (0xF000 ≤ bitsAt pa 0 24) && decide (bitsAt pa 0 24 < 0x10000)))
/-- The companion stores over TXL (R386, R103): companion and tile memory, serai, and device control space at supervisor level. -/
def State.companionStore (s : State) (pa : Nat) (bs : List Byte) : State :=
  if !companionMay s pa bs.length true then s
  else if paSpace pa = 3 then s.ctlStore pa bs true true else s.store pa bs
/-- The companion reads over TXL: what the read changes. Its own memory it reads without the die, whose counts do not move (R103). -/
def State.companionLoad (s : State) (pa n : Nat) : State :=
  if !companionMay s pa n false then s
  else if paSpace pa = 3 then (s.ctlLoad pa n true true).2 else if paSpace pa = 2 then s else (s.readMem (paDie pa) pa n).2

/-- A soft error falls on the doubleword of a byte (R424): a second one on a marked word makes two bad bits. The doublewords of bond lines
have the addresses of bondWord (log entry 10). -/
def State.softError (s : State) (pa : Nat) (bad : Bool) : State :=
  let w := pa / 8 * 8
  let two := bad || spGet 0 s.ecc w != 0
  if paSpace pa = 4 && !(s.dieAt (paDie pa)).bonds.any fun b => b.line == bitsAt pa 0 41 / 64 then s
  else
    let s : State := { s with ecc := spSet s.ecc w (if two then max 2 (spGet 0 s.ecc w) else 1) }
    if paSpace pa = 4 then
      let hit : Bond → Bond := fun b => if b.line == bitsAt pa 0 41 / 64 then { b with bad := b.bad || two } else b
      s.onDie (paDie pa) fun d => { d with bonds := d.bonds.map hit }
    else s

/-- The move that comes next: the head of the agenda, or the one that Config.schedule names (log entry 1). -/
def State.nextMove (s : State) : Move × State :=
  match s.agenda with
  | m :: t => (m, { s with agenda := t })
  | [] => (Config.schedule s.fresh, { s with fresh := s.fresh + 1 })

/-- What ns nanoseconds take of a pending correction: at most 200 parts per million (R358). -/
def slewBy (ns : Nat) (x : Int) : Int := let m : Int := (ns * 200 / 1000000 : Nat); max (-m) (min m x)

/-- Nanoseconds by which no local tick, slewed or not, has come more than d further (R358). -/
def nsTo (d : Nat) : Nat := if d < 5000 then d else d * 5000 / 5001
/-- The dies whose telemetry is looked after (R455): those of the ring of die 0, or of its package, and those that the state lists. -/
def State.telemetryDies (s : State) : List Nat := (upFrom 0 (8 * s.ringPkgs 0) ++ s.dies.map Prod.fst).eraseDups
/-- The nanoseconds to each point that time does not pass by before what is due there is done: the T of a publish at its die (R372), which a
destination knows before T, so that all publish at T (R371, R135); a merged write 1 µs after its line's first atomic (R342); the write of a
line that a combining buffer has held for 512 ns (R238); the next Sync (R358); a die's telemetry (R455). -/
def State.deadlines (s : State) : List Nat :=
  let ahead : Nat → W64 → List Nat := fun g t => if s.tickOf g < t then [nsTo (t - s.tickOf g).toNat] else []
  let until_ : Nat → Nat → Nat := fun g t => nsTo (t - (s.tickOf g).toNat)
  (s.dies.flatMap fun p =>
    (p.2.dests.flatMap fun q => if q.2.state = 3 then ahead p.1 q.2.t else []) ++
    (p.2.coords.flatMap fun q => if q.2.state = 3 then ahead p.1 q.2.t else [])) ++
  (s.msgs.filterMap fun m =>
    match m.kind, (s.dieAt m.dst).dest m.handle with
    | .time, some (_, x) => if x.state = 2 then some (until_ m.dst (m.x - 1)) else none
    | _, _ => none) ++
  (s.ways.flatMap fun w => (w.2.lines.filter fun l => l.dirty).map fun l => l.first.toNat + 1000 - s.tick.toNat) ++
  (s.cores.flatMap fun p => p.2.nt.map fun l => until_ (p.1 / 384) (l.at0.toNat + 512)) ++
  (s.telemetryDies.map fun g => until_ g (100000 * ((s.dieAt g).telem + 1))) ++
  if 1 < s.ringPkgs 0 then [syncTick s.syncs - s.tick.toNat] else []
/-- Time advances by ns nanoseconds (R22): the ring tick, and the packages' slews (R358). -/
def State.advanceTick (s : State) (ns : Nat) : State :=
  { s with tick := s.tick + BitVec.ofNat 64 ns
           adj := s.slew.foldl (fun a p => spSet a p.1 (spGet 0 a p.1 + BitVec.ofInt 64 (slewBy ns p.2))) s.adj
           slew := s.slew.map fun p => (p.1, p.2 - slewBy ns p.2) }
/-- ns nanoseconds pass, or those to the first deadline; publishes are made as they fall due (R372). -/
def State.pass (s : State) (ns : Nat) : State :=
  let s := s.publishAll
  (s.advanceTick (s.deadlines.foldl min ns)).publishAll

/-- Does the device have the core that operands name (R15, R81)? -/
def onDevice (a : At) : Bool := decide (a.die < 2048) && decide (a.core < 384)

/-- What a move that runs no instruction does: time passes, the companion or root firmware acts, a soft error falls. -/
def State.outside (s : State) : Move → State
  | .pass ns => s.pass ns
  | .companion pa bs => s.companionStore pa bs
  | .companionRead pa n => s.companionLoad pa n
  | .root die core a v => s.rootAct die core a v
  | .soft pa bad => s.softError pa bad
  | .issue _ _ _ => s
  | .event _ _ => s

/-- Halfwords of code stand as the body of a plain block that a stream of die 0's core 0 is about to run, its job live. -/
def State.placeWord (s : State) (st : Strm) (hs : List H16) : State :=
  let b : Blk := { mode := .run, word := BitVec.ofNat 32 (65536 * hs.length), body := hs, left := 1 }
  let k := s.coreAt 0
  { s.setCoreAt 0 { k with job := ({ k.job with live := true, smask := k.job.smask ||| 7 }).setBlk st b } with
    agenda := .issue 0 0 st :: s.agenda }

end Sys2Proof.Machine
end

