-- ==== Sys2Proof/Machine/Step.lean ====
section
/-!
DEFINITION. One step of the device: the next move is made (log entry 1). A stream that issues a word runs it with exec; an event runs
the step of the opcode table that it names.
-/
namespace Sys2Proof.Machine

/-- One step. -/
def step (s : State) : Host.Outcome State Fault Refusal :=
  match s.nextMove with
  | (.issue die core st, s) =>
    let a : At := { die := die, core := core, st := st }
    if onDevice a then
      match ({ s with here := a } : State).issueW st with
      | (none, s) => .next s
      | (some i, s) => exec i s
    else .fault .noSuchMove
  | (.event i a, s) => if onDevice a && (streamOf i).isNone then exec i { s with here := a } else .fault .noSuchMove
  | (m, s) => .next (s.outside m)

/-- The state with a word of the opcode table as the next that step fetches: the body of a block that a stream of die 0's core 0 is about
to run, and that stream's turn next. A number that no stream's decoder reads is placed in the C-stream. -/
def State.withFetchWord (s : State) (nbits w : Nat) : State :=
  match tableStream nbits w with
  | some st => s.placeWord st (tableHalves nbits w)
  | none => s.placeWord .c (tableHalves nbits w)

end Sys2Proof.Machine
end

