-- ==== Sys2Proof/Laws/Memory.lean ====
section
/-!
SUPPORT. Read over write of the sparse tables and of memory, and the canonical form of memory: every operation that changes memory
keeps it.
-/
namespace Sys2Proof.Machine

/-- A table read after a write: the value written at its key, every other key as before. -/
theorem spFind_spSet {α : Type} (t : Sp α) (k j : Nat) (v : α) :
    spFind (spSet t k v) j = if j = k then some v else spFind t j := by
  induction t with
  | nil => grind [spSet, spFind]
  | cons p t ih => obtain ⟨i, w⟩ := p; grind [spSet, spFind]

/-- The same with a default for keys that are not listed. -/
@[simp] theorem spGet_spSet {α : Type} (d : α) (t : Sp α) (k j : Nat) (v : α) :
    spGet d (spSet t k v) j = if j = k then v else spGet d t j := by
  unfold spGet; rw [spFind_spSet]; split <;> rfl

/-- The value written is the value read. -/
theorem spGet_spSet_same {α : Type} (d : α) (t : Sp α) (k : Nat) (v : α) : spGet d (spSet t k v) k = v := by simp

/-- A table after a key is deleted. -/
theorem spFind_spDel {α : Type} (t : Sp α) (k j : Nat) :
    spFind (spDel t k) j = if j = k then none else spFind t j := by
  induction t with
  | nil => simp [spDel, spFind]
  | cons p t ih =>
    obtain ⟨i, w⟩ := p
    unfold spDel at *
    simp only [List.filter_cons]
    by_cases h : i = k
    · subst h; simp only [bne_self_eq_false, Bool.false_eq_true, if_false, ih, spFind]
      by_cases hj : j = i
      · simp [hj]
      · simp [hj, Ne.symm hj]
    · simp only [bne_iff_ne, ne_eq, h, not_false_eq_true, if_true, spFind, ih]
      by_cases hj : i = j
      · subst hj; simp [h]
      · simp [hj]

/-- The canonical form: addresses strictly rising, no entry equal to the default. -/
theorem wf_iff (m : List Host.Cell) :
    Memory.wf m = true ↔ m.Pairwise (fun p q => p.1 < q.1) ∧ ∀ p ∈ m, p.2 ≠ memDefault := by
  induction m with
  | nil => simp [Memory.wf]
  | cons p t ih =>
    obtain ⟨a, v⟩ := p
    cases t with
    | nil => simp [Memory.wf]
    | cons q t =>
      obtain ⟨b, w⟩ := q
      simp only [Memory.wf, Bool.and_eq_true, bne_iff_ne, ne_eq, decide_eq_true_eq, ih, List.pairwise_cons, List.mem_cons,
        forall_eq_or_imp]
      constructor
      · rintro ⟨⟨hv, hab⟩, ⟨hb, ht⟩, hw, hd⟩
        exact ⟨⟨⟨hab, fun c hc => Nat.lt_trans hab (hb c hc)⟩, hb, ht⟩, hv, hw, hd⟩
      · rintro ⟨⟨⟨hab, _⟩, hb, ht⟩, hv, hw, hd⟩
        exact ⟨⟨hv, hab⟩, ⟨hb, ht⟩, hw, hd⟩

@[simp] theorem wf_nil : Memory.wf [] = true := rfl

/-- Dropping entries keeps the canonical form. -/
theorem wf_filter (f : Host.Cell → Bool) {m : List Host.Cell} (h : Memory.wf m = true) : Memory.wf (m.filter f) = true := by
  rw [wf_iff] at *
  exact ⟨h.1.filter _, fun p hp => h.2 p (List.mem_filter.1 hp).1⟩

/-- Where the entries after an insertion come from. -/
theorem mem_memIns {m : List Host.Cell} {k : Nat} {v : Byte} {p : Host.Cell} (h : p ∈ memIns m k v) : p = (k, v) ∨ p ∈ m := by
  induction m with
  | nil => simp only [memIns, List.mem_singleton] at h; exact .inl h
  | cons q t ih =>
    obtain ⟨a, b⟩ := q
    simp only [memIns] at h
    split at h
    · rcases List.mem_cons.1 h with h | h
      · exact .inl h
      · exact .inr (List.mem_cons_of_mem _ h)
    · split at h
      · rcases List.mem_cons.1 h with h | h
        · exact .inl h
        · exact .inr h
      · rcases List.mem_cons.1 h with h | h
        · subst h; exact .inr (List.mem_cons_self ..)
        · rcases ih h with h | h
          · exact .inl h
          · exact .inr (List.mem_cons_of_mem _ h)

theorem wf_memIns {m : List Host.Cell} (k : Nat) {v : Byte} (hv : v ≠ memDefault) (h : Memory.wf m = true) :
    Memory.wf (memIns m k v) = true := by
  rw [wf_iff] at *
  obtain ⟨hp, hd⟩ := h
  refine ⟨?_, fun p hm => (mem_memIns hm).elim (fun e => by rw [e]; exact hv) (hd p)⟩
  clear hd
  induction m with
  | nil => simp [memIns]
  | cons q t ih =>
    obtain ⟨a, b⟩ := q
    rw [List.pairwise_cons] at hp
    simp only [memIns]
    split
    · subst_vars; exact List.pairwise_cons.2 hp
    · split
      · rename_i hlt
        refine List.pairwise_cons.2 ⟨fun c hc => ?_, List.pairwise_cons.2 hp⟩
        rcases List.mem_cons.1 hc with rfl | hc
        · exact hlt
        · exact Nat.lt_trans hlt (hp.1 c hc)
      · refine List.pairwise_cons.2 ⟨fun c hc => ?_, ih hp.2⟩
        rcases mem_memIns hc with rfl | hc
        · show a < k; omega
        · exact hp.1 c hc

/-- A byte written keeps the canonical form. -/
@[simp] theorem wf_memPut {m : List Host.Cell} (k : Nat) (v : Byte) (h : Memory.wf m = true) : Memory.wf (memPut m k v) = true := by
  unfold memPut
  split
  · exact wf_filter _ h
  · exact wf_memIns _ ‹_› h

/-- Bytes written keep it. -/
@[simp] theorem wf_memWrite {m : List Host.Cell} (k : Nat) (bs : List Byte) (h : Memory.wf m = true) :
    Memory.wf (memWrite m k bs) = true := by
  induction bs generalizing m k with
  | nil => exact h
  | cons b t ih => exact ih _ (wf_memPut _ _ h)

theorem memGet_memIns (m : List Host.Cell) (k j : Nat) (v : Byte) :
    memGet (memIns m k v) j = if j = k then v else memGet m j := by
  induction m with
  | nil => grind [memIns, memGet]
  | cons p t ih => obtain ⟨i, w⟩ := p; grind [memIns, memGet]

theorem memGet_filter_ne (m : List Host.Cell) (k j : Nat) :
    memGet (m.filter fun p => p.1 != k) j = if j = k then memDefault else memGet m j := by
  induction m with
  | nil => simp [memGet]
  | cons p t ih =>
    obtain ⟨i, w⟩ := p
    simp only [List.filter_cons]
    by_cases h : i = k
    · subst h; simp only [bne_self_eq_false, Bool.false_eq_true, if_false, ih, memGet]
      by_cases hj : j = i
      · simp [hj]
      · simp [hj, Ne.symm hj]
    · simp only [bne_iff_ne, ne_eq, h, not_false_eq_true, if_true, memGet, ih]
      by_cases hj : i = j
      · subst hj; simp [h]
      · simp [hj]

/-- Memory read after a byte is written. -/
@[simp] theorem memGet_memPut (m : List Host.Cell) (k j : Nat) (v : Byte) :
    memGet (memPut m k v) j = if j = k then v else memGet m j := by
  unfold memPut
  split
  · rw [memGet_filter_ne]; simp_all
  · exact memGet_memIns ..

/-- Memory read after bytes are written from an address on: inside, the byte of that place; outside, as before. -/
theorem memGet_memWrite (m : List Host.Cell) (a j : Nat) (bs : List Byte) :
    memGet (memWrite m a bs) j = if h : a ≤ j ∧ j - a < bs.length then bs[j - a]'h.2 else memGet m j := by
  induction bs generalizing m a with
  | nil => simp [memWrite]
  | cons b t ih =>
    simp only [memWrite, ih, memGet_memPut, List.length_cons]
    by_cases h1 : j = a
    · have h2 : ¬(a + 1 ≤ j ∧ j - (a + 1) < t.length) := by omega
      have h3 : a ≤ j ∧ j - a < t.length + 1 := by omega
      rw [dif_neg h2, if_pos h1, dif_pos h3]
      have h4 : j - a = 0 := by omega
      simp only [h4, List.getElem_cons_zero]
    · by_cases h2 : a + 1 ≤ j ∧ j - (a + 1) < t.length
      · have h3 : a ≤ j ∧ j - a < t.length + 1 := by omega
        rw [dif_pos h2, dif_pos h3]
        have h4 : j - a = (j - (a + 1)) + 1 := by omega
        simp only [h4, List.getElem_cons_succ]
      · rw [dif_neg h2, if_neg h1, dif_neg (by omega)]

end Sys2Proof.Machine
end

