-- ==== Sys2Proof/Laws/State.lean ====
section
/-!
SUPPORT. One lemma per field per update of the state, true by rfl, and the read-back of cores, clusters, dies, waystations, jobs.
-/
namespace Sys2Proof.Machine

/-! Changing a core of the ring. -/
@[simp] theorem State.setCoreAt_mem (s : State) (n : Nat) (c : Core) : (s.setCoreAt n c).mem = s.mem := rfl
@[simp] theorem State.setCoreAt_ecc (s : State) (n : Nat) (c : Core) : (s.setCoreAt n c).ecc = s.ecc := rfl
@[simp] theorem State.setCoreAt_tags (s : State) (n : Nat) (c : Core) : (s.setCoreAt n c).tags = s.tags := rfl
@[simp] theorem State.setCoreAt_tick (s : State) (n : Nat) (c : Core) : (s.setCoreAt n c).tick = s.tick := rfl
@[simp] theorem State.setCoreAt_adj (s : State) (n : Nat) (c : Core) : (s.setCoreAt n c).adj = s.adj := rfl
@[simp] theorem State.setCoreAt_slew (s : State) (n : Nat) (c : Core) : (s.setCoreAt n c).slew = s.slew := rfl
@[simp] theorem State.setCoreAt_syncs (s : State) (n : Nat) (c : Core) : (s.setCoreAt n c).syncs = s.syncs := rfl
@[simp] theorem State.setCoreAt_clusters (s : State) (n : Nat) (c : Core) : (s.setCoreAt n c).clusters = s.clusters := rfl
@[simp] theorem State.setCoreAt_dies (s : State) (n : Nat) (c : Core) : (s.setCoreAt n c).dies = s.dies := rfl
@[simp] theorem State.setCoreAt_ways (s : State) (n : Nat) (c : Core) : (s.setCoreAt n c).ways = s.ways := rfl
@[simp] theorem State.setCoreAt_slots (s : State) (n : Nat) (c : Core) : (s.setCoreAt n c).slots = s.slots := rfl
@[simp] theorem State.setCoreAt_segs (s : State) (n : Nat) (c : Core) : (s.setCoreAt n c).segs = s.segs := rfl
@[simp] theorem State.setCoreAt_msgs (s : State) (n : Nat) (c : Core) : (s.setCoreAt n c).msgs = s.msgs := rfl
@[simp] theorem State.setCoreAt_rels (s : State) (n : Nat) (c : Core) : (s.setCoreAt n c).rels = s.rels := rfl
@[simp] theorem State.setCoreAt_agenda (s : State) (n : Nat) (c : Core) : (s.setCoreAt n c).agenda = s.agenda := rfl
@[simp] theorem State.setCoreAt_here (s : State) (n : Nat) (c : Core) : (s.setCoreAt n c).here = s.here := rfl
@[simp] theorem State.setCoreAt_fresh (s : State) (n : Nat) (c : Core) : (s.setCoreAt n c).fresh = s.fresh := rfl

/-! Changing the core of the step. -/
@[simp] theorem State.setCore_mem (s : State) (c : Core) : (s.setCore c).mem = s.mem := rfl
@[simp] theorem State.setCore_ecc (s : State) (c : Core) : (s.setCore c).ecc = s.ecc := rfl
@[simp] theorem State.setCore_tags (s : State) (c : Core) : (s.setCore c).tags = s.tags := rfl
@[simp] theorem State.setCore_tick (s : State) (c : Core) : (s.setCore c).tick = s.tick := rfl
@[simp] theorem State.setCore_adj (s : State) (c : Core) : (s.setCore c).adj = s.adj := rfl
@[simp] theorem State.setCore_slew (s : State) (c : Core) : (s.setCore c).slew = s.slew := rfl
@[simp] theorem State.setCore_syncs (s : State) (c : Core) : (s.setCore c).syncs = s.syncs := rfl
@[simp] theorem State.setCore_clusters (s : State) (c : Core) : (s.setCore c).clusters = s.clusters := rfl
@[simp] theorem State.setCore_dies (s : State) (c : Core) : (s.setCore c).dies = s.dies := rfl
@[simp] theorem State.setCore_ways (s : State) (c : Core) : (s.setCore c).ways = s.ways := rfl
@[simp] theorem State.setCore_slots (s : State) (c : Core) : (s.setCore c).slots = s.slots := rfl
@[simp] theorem State.setCore_segs (s : State) (c : Core) : (s.setCore c).segs = s.segs := rfl
@[simp] theorem State.setCore_msgs (s : State) (c : Core) : (s.setCore c).msgs = s.msgs := rfl
@[simp] theorem State.setCore_rels (s : State) (c : Core) : (s.setCore c).rels = s.rels := rfl
@[simp] theorem State.setCore_agenda (s : State) (c : Core) : (s.setCore c).agenda = s.agenda := rfl
@[simp] theorem State.setCore_here (s : State) (c : Core) : (s.setCore c).here = s.here := rfl
@[simp] theorem State.setCore_fresh (s : State) (c : Core) : (s.setCore c).fresh = s.fresh := rfl

/-! Changing the job of the step. -/
@[simp] theorem State.setJob_mem (s : State) (j : Job) : (s.setJob j).mem = s.mem := rfl
@[simp] theorem State.setJob_ecc (s : State) (j : Job) : (s.setJob j).ecc = s.ecc := rfl
@[simp] theorem State.setJob_tags (s : State) (j : Job) : (s.setJob j).tags = s.tags := rfl
@[simp] theorem State.setJob_tick (s : State) (j : Job) : (s.setJob j).tick = s.tick := rfl
@[simp] theorem State.setJob_adj (s : State) (j : Job) : (s.setJob j).adj = s.adj := rfl
@[simp] theorem State.setJob_slew (s : State) (j : Job) : (s.setJob j).slew = s.slew := rfl
@[simp] theorem State.setJob_syncs (s : State) (j : Job) : (s.setJob j).syncs = s.syncs := rfl
@[simp] theorem State.setJob_clusters (s : State) (j : Job) : (s.setJob j).clusters = s.clusters := rfl
@[simp] theorem State.setJob_dies (s : State) (j : Job) : (s.setJob j).dies = s.dies := rfl
@[simp] theorem State.setJob_ways (s : State) (j : Job) : (s.setJob j).ways = s.ways := rfl
@[simp] theorem State.setJob_slots (s : State) (j : Job) : (s.setJob j).slots = s.slots := rfl
@[simp] theorem State.setJob_segs (s : State) (j : Job) : (s.setJob j).segs = s.segs := rfl
@[simp] theorem State.setJob_msgs (s : State) (j : Job) : (s.setJob j).msgs = s.msgs := rfl
@[simp] theorem State.setJob_rels (s : State) (j : Job) : (s.setJob j).rels = s.rels := rfl
@[simp] theorem State.setJob_agenda (s : State) (j : Job) : (s.setJob j).agenda = s.agenda := rfl
@[simp] theorem State.setJob_here (s : State) (j : Job) : (s.setJob j).here = s.here := rfl
@[simp] theorem State.setJob_fresh (s : State) (j : Job) : (s.setJob j).fresh = s.fresh := rfl

/-! Changing the matrix engine of the step. -/
@[simp] theorem State.setEng_mem (s : State) (e : Eng) : (s.setEng e).mem = s.mem := rfl
@[simp] theorem State.setEng_ecc (s : State) (e : Eng) : (s.setEng e).ecc = s.ecc := rfl
@[simp] theorem State.setEng_tags (s : State) (e : Eng) : (s.setEng e).tags = s.tags := rfl
@[simp] theorem State.setEng_tick (s : State) (e : Eng) : (s.setEng e).tick = s.tick := rfl
@[simp] theorem State.setEng_adj (s : State) (e : Eng) : (s.setEng e).adj = s.adj := rfl
@[simp] theorem State.setEng_slew (s : State) (e : Eng) : (s.setEng e).slew = s.slew := rfl
@[simp] theorem State.setEng_syncs (s : State) (e : Eng) : (s.setEng e).syncs = s.syncs := rfl
@[simp] theorem State.setEng_clusters (s : State) (e : Eng) : (s.setEng e).clusters = s.clusters := rfl
@[simp] theorem State.setEng_dies (s : State) (e : Eng) : (s.setEng e).dies = s.dies := rfl
@[simp] theorem State.setEng_ways (s : State) (e : Eng) : (s.setEng e).ways = s.ways := rfl
@[simp] theorem State.setEng_slots (s : State) (e : Eng) : (s.setEng e).slots = s.slots := rfl
@[simp] theorem State.setEng_segs (s : State) (e : Eng) : (s.setEng e).segs = s.segs := rfl
@[simp] theorem State.setEng_msgs (s : State) (e : Eng) : (s.setEng e).msgs = s.msgs := rfl
@[simp] theorem State.setEng_rels (s : State) (e : Eng) : (s.setEng e).rels = s.rels := rfl
@[simp] theorem State.setEng_agenda (s : State) (e : Eng) : (s.setEng e).agenda = s.agenda := rfl
@[simp] theorem State.setEng_here (s : State) (e : Eng) : (s.setEng e).here = s.here := rfl
@[simp] theorem State.setEng_fresh (s : State) (e : Eng) : (s.setEng e).fresh = s.fresh := rfl

/-! Changing a core, by a function. -/
@[simp] theorem State.onCore_mem (s : State) (n : Nat) (f : Core → Core) : (s.onCore n f).mem = s.mem := rfl
@[simp] theorem State.onCore_ecc (s : State) (n : Nat) (f : Core → Core) : (s.onCore n f).ecc = s.ecc := rfl
@[simp] theorem State.onCore_tags (s : State) (n : Nat) (f : Core → Core) : (s.onCore n f).tags = s.tags := rfl
@[simp] theorem State.onCore_tick (s : State) (n : Nat) (f : Core → Core) : (s.onCore n f).tick = s.tick := rfl
@[simp] theorem State.onCore_adj (s : State) (n : Nat) (f : Core → Core) : (s.onCore n f).adj = s.adj := rfl
@[simp] theorem State.onCore_slew (s : State) (n : Nat) (f : Core → Core) : (s.onCore n f).slew = s.slew := rfl
@[simp] theorem State.onCore_syncs (s : State) (n : Nat) (f : Core → Core) : (s.onCore n f).syncs = s.syncs := rfl
@[simp] theorem State.onCore_clusters (s : State) (n : Nat) (f : Core → Core) : (s.onCore n f).clusters = s.clusters := rfl
@[simp] theorem State.onCore_dies (s : State) (n : Nat) (f : Core → Core) : (s.onCore n f).dies = s.dies := rfl
@[simp] theorem State.onCore_ways (s : State) (n : Nat) (f : Core → Core) : (s.onCore n f).ways = s.ways := rfl
@[simp] theorem State.onCore_slots (s : State) (n : Nat) (f : Core → Core) : (s.onCore n f).slots = s.slots := rfl
@[simp] theorem State.onCore_segs (s : State) (n : Nat) (f : Core → Core) : (s.onCore n f).segs = s.segs := rfl
@[simp] theorem State.onCore_msgs (s : State) (n : Nat) (f : Core → Core) : (s.onCore n f).msgs = s.msgs := rfl
@[simp] theorem State.onCore_rels (s : State) (n : Nat) (f : Core → Core) : (s.onCore n f).rels = s.rels := rfl
@[simp] theorem State.onCore_agenda (s : State) (n : Nat) (f : Core → Core) : (s.onCore n f).agenda = s.agenda := rfl
@[simp] theorem State.onCore_here (s : State) (n : Nat) (f : Core → Core) : (s.onCore n f).here = s.here := rfl
@[simp] theorem State.onCore_fresh (s : State) (n : Nat) (f : Core → Core) : (s.onCore n f).fresh = s.fresh := rfl

/-! Changing the job of the step, by a function. -/
@[simp] theorem State.onJob_mem (s : State) (f : Job → Job) : (s.onJob f).mem = s.mem := rfl
@[simp] theorem State.onJob_ecc (s : State) (f : Job → Job) : (s.onJob f).ecc = s.ecc := rfl
@[simp] theorem State.onJob_tags (s : State) (f : Job → Job) : (s.onJob f).tags = s.tags := rfl
@[simp] theorem State.onJob_tick (s : State) (f : Job → Job) : (s.onJob f).tick = s.tick := rfl
@[simp] theorem State.onJob_adj (s : State) (f : Job → Job) : (s.onJob f).adj = s.adj := rfl
@[simp] theorem State.onJob_slew (s : State) (f : Job → Job) : (s.onJob f).slew = s.slew := rfl
@[simp] theorem State.onJob_syncs (s : State) (f : Job → Job) : (s.onJob f).syncs = s.syncs := rfl
@[simp] theorem State.onJob_clusters (s : State) (f : Job → Job) : (s.onJob f).clusters = s.clusters := rfl
@[simp] theorem State.onJob_dies (s : State) (f : Job → Job) : (s.onJob f).dies = s.dies := rfl
@[simp] theorem State.onJob_ways (s : State) (f : Job → Job) : (s.onJob f).ways = s.ways := rfl
@[simp] theorem State.onJob_slots (s : State) (f : Job → Job) : (s.onJob f).slots = s.slots := rfl
@[simp] theorem State.onJob_segs (s : State) (f : Job → Job) : (s.onJob f).segs = s.segs := rfl
@[simp] theorem State.onJob_msgs (s : State) (f : Job → Job) : (s.onJob f).msgs = s.msgs := rfl
@[simp] theorem State.onJob_rels (s : State) (f : Job → Job) : (s.onJob f).rels = s.rels := rfl
@[simp] theorem State.onJob_agenda (s : State) (f : Job → Job) : (s.onJob f).agenda = s.agenda := rfl
@[simp] theorem State.onJob_here (s : State) (f : Job → Job) : (s.onJob f).here = s.here := rfl
@[simp] theorem State.onJob_fresh (s : State) (f : Job → Job) : (s.onJob f).fresh = s.fresh := rfl

/-! Changing the block state of a stream. -/
@[simp] theorem State.onBlk_mem (s : State) (st : Strm) (f : Blk → Blk) : (s.onBlk st f).mem = s.mem := rfl
@[simp] theorem State.onBlk_ecc (s : State) (st : Strm) (f : Blk → Blk) : (s.onBlk st f).ecc = s.ecc := rfl
@[simp] theorem State.onBlk_tags (s : State) (st : Strm) (f : Blk → Blk) : (s.onBlk st f).tags = s.tags := rfl
@[simp] theorem State.onBlk_tick (s : State) (st : Strm) (f : Blk → Blk) : (s.onBlk st f).tick = s.tick := rfl
@[simp] theorem State.onBlk_adj (s : State) (st : Strm) (f : Blk → Blk) : (s.onBlk st f).adj = s.adj := rfl
@[simp] theorem State.onBlk_slew (s : State) (st : Strm) (f : Blk → Blk) : (s.onBlk st f).slew = s.slew := rfl
@[simp] theorem State.onBlk_syncs (s : State) (st : Strm) (f : Blk → Blk) : (s.onBlk st f).syncs = s.syncs := rfl
@[simp] theorem State.onBlk_clusters (s : State) (st : Strm) (f : Blk → Blk) : (s.onBlk st f).clusters = s.clusters := rfl
@[simp] theorem State.onBlk_dies (s : State) (st : Strm) (f : Blk → Blk) : (s.onBlk st f).dies = s.dies := rfl
@[simp] theorem State.onBlk_ways (s : State) (st : Strm) (f : Blk → Blk) : (s.onBlk st f).ways = s.ways := rfl
@[simp] theorem State.onBlk_slots (s : State) (st : Strm) (f : Blk → Blk) : (s.onBlk st f).slots = s.slots := rfl
@[simp] theorem State.onBlk_segs (s : State) (st : Strm) (f : Blk → Blk) : (s.onBlk st f).segs = s.segs := rfl
@[simp] theorem State.onBlk_msgs (s : State) (st : Strm) (f : Blk → Blk) : (s.onBlk st f).msgs = s.msgs := rfl
@[simp] theorem State.onBlk_rels (s : State) (st : Strm) (f : Blk → Blk) : (s.onBlk st f).rels = s.rels := rfl
@[simp] theorem State.onBlk_agenda (s : State) (st : Strm) (f : Blk → Blk) : (s.onBlk st f).agenda = s.agenda := rfl
@[simp] theorem State.onBlk_here (s : State) (st : Strm) (f : Blk → Blk) : (s.onBlk st f).here = s.here := rfl
@[simp] theorem State.onBlk_fresh (s : State) (st : Strm) (f : Blk → Blk) : (s.onBlk st f).fresh = s.fresh := rfl

/-! Changing a cluster. -/
@[simp] theorem State.setClusterAt_mem (s : State) (n : Nat) (c : Cluster) : (s.setClusterAt n c).mem = s.mem := rfl
@[simp] theorem State.setClusterAt_ecc (s : State) (n : Nat) (c : Cluster) : (s.setClusterAt n c).ecc = s.ecc := rfl
@[simp] theorem State.setClusterAt_tags (s : State) (n : Nat) (c : Cluster) : (s.setClusterAt n c).tags = s.tags := rfl
@[simp] theorem State.setClusterAt_tick (s : State) (n : Nat) (c : Cluster) : (s.setClusterAt n c).tick = s.tick := rfl
@[simp] theorem State.setClusterAt_adj (s : State) (n : Nat) (c : Cluster) : (s.setClusterAt n c).adj = s.adj := rfl
@[simp] theorem State.setClusterAt_slew (s : State) (n : Nat) (c : Cluster) : (s.setClusterAt n c).slew = s.slew := rfl
@[simp] theorem State.setClusterAt_syncs (s : State) (n : Nat) (c : Cluster) : (s.setClusterAt n c).syncs = s.syncs := rfl
@[simp] theorem State.setClusterAt_cores (s : State) (n : Nat) (c : Cluster) : (s.setClusterAt n c).cores = s.cores := rfl
@[simp] theorem State.setClusterAt_dies (s : State) (n : Nat) (c : Cluster) : (s.setClusterAt n c).dies = s.dies := rfl
@[simp] theorem State.setClusterAt_ways (s : State) (n : Nat) (c : Cluster) : (s.setClusterAt n c).ways = s.ways := rfl
@[simp] theorem State.setClusterAt_slots (s : State) (n : Nat) (c : Cluster) : (s.setClusterAt n c).slots = s.slots := rfl
@[simp] theorem State.setClusterAt_segs (s : State) (n : Nat) (c : Cluster) : (s.setClusterAt n c).segs = s.segs := rfl
@[simp] theorem State.setClusterAt_msgs (s : State) (n : Nat) (c : Cluster) : (s.setClusterAt n c).msgs = s.msgs := rfl
@[simp] theorem State.setClusterAt_rels (s : State) (n : Nat) (c : Cluster) : (s.setClusterAt n c).rels = s.rels := rfl
@[simp] theorem State.setClusterAt_agenda (s : State) (n : Nat) (c : Cluster) : (s.setClusterAt n c).agenda = s.agenda := rfl
@[simp] theorem State.setClusterAt_here (s : State) (n : Nat) (c : Cluster) : (s.setClusterAt n c).here = s.here := rfl
@[simp] theorem State.setClusterAt_fresh (s : State) (n : Nat) (c : Cluster) : (s.setClusterAt n c).fresh = s.fresh := rfl

/-! Changing a cluster, by a function. -/
@[simp] theorem State.onCluster_mem (s : State) (n : Nat) (f : Cluster → Cluster) : (s.onCluster n f).mem = s.mem := rfl
@[simp] theorem State.onCluster_ecc (s : State) (n : Nat) (f : Cluster → Cluster) : (s.onCluster n f).ecc = s.ecc := rfl
@[simp] theorem State.onCluster_tags (s : State) (n : Nat) (f : Cluster → Cluster) : (s.onCluster n f).tags = s.tags := rfl
@[simp] theorem State.onCluster_tick (s : State) (n : Nat) (f : Cluster → Cluster) : (s.onCluster n f).tick = s.tick := rfl
@[simp] theorem State.onCluster_adj (s : State) (n : Nat) (f : Cluster → Cluster) : (s.onCluster n f).adj = s.adj := rfl
@[simp] theorem State.onCluster_slew (s : State) (n : Nat) (f : Cluster → Cluster) : (s.onCluster n f).slew = s.slew := rfl
@[simp] theorem State.onCluster_syncs (s : State) (n : Nat) (f : Cluster → Cluster) : (s.onCluster n f).syncs = s.syncs := rfl
@[simp] theorem State.onCluster_cores (s : State) (n : Nat) (f : Cluster → Cluster) : (s.onCluster n f).cores = s.cores := rfl
@[simp] theorem State.onCluster_dies (s : State) (n : Nat) (f : Cluster → Cluster) : (s.onCluster n f).dies = s.dies := rfl
@[simp] theorem State.onCluster_ways (s : State) (n : Nat) (f : Cluster → Cluster) : (s.onCluster n f).ways = s.ways := rfl
@[simp] theorem State.onCluster_slots (s : State) (n : Nat) (f : Cluster → Cluster) : (s.onCluster n f).slots = s.slots := rfl
@[simp] theorem State.onCluster_segs (s : State) (n : Nat) (f : Cluster → Cluster) : (s.onCluster n f).segs = s.segs := rfl
@[simp] theorem State.onCluster_msgs (s : State) (n : Nat) (f : Cluster → Cluster) : (s.onCluster n f).msgs = s.msgs := rfl
@[simp] theorem State.onCluster_rels (s : State) (n : Nat) (f : Cluster → Cluster) : (s.onCluster n f).rels = s.rels := rfl
@[simp] theorem State.onCluster_agenda (s : State) (n : Nat) (f : Cluster → Cluster) : (s.onCluster n f).agenda = s.agenda := rfl
@[simp] theorem State.onCluster_here (s : State) (n : Nat) (f : Cluster → Cluster) : (s.onCluster n f).here = s.here := rfl
@[simp] theorem State.onCluster_fresh (s : State) (n : Nat) (f : Cluster → Cluster) : (s.onCluster n f).fresh = s.fresh := rfl

/-! Changing a die. -/
@[simp] theorem State.setDieAt_mem (s : State) (n : Nat) (d : Die) : (s.setDieAt n d).mem = s.mem := rfl
@[simp] theorem State.setDieAt_ecc (s : State) (n : Nat) (d : Die) : (s.setDieAt n d).ecc = s.ecc := rfl
@[simp] theorem State.setDieAt_tags (s : State) (n : Nat) (d : Die) : (s.setDieAt n d).tags = s.tags := rfl
@[simp] theorem State.setDieAt_tick (s : State) (n : Nat) (d : Die) : (s.setDieAt n d).tick = s.tick := rfl
@[simp] theorem State.setDieAt_adj (s : State) (n : Nat) (d : Die) : (s.setDieAt n d).adj = s.adj := rfl
@[simp] theorem State.setDieAt_slew (s : State) (n : Nat) (d : Die) : (s.setDieAt n d).slew = s.slew := rfl
@[simp] theorem State.setDieAt_syncs (s : State) (n : Nat) (d : Die) : (s.setDieAt n d).syncs = s.syncs := rfl
@[simp] theorem State.setDieAt_cores (s : State) (n : Nat) (d : Die) : (s.setDieAt n d).cores = s.cores := rfl
@[simp] theorem State.setDieAt_clusters (s : State) (n : Nat) (d : Die) : (s.setDieAt n d).clusters = s.clusters := rfl
@[simp] theorem State.setDieAt_ways (s : State) (n : Nat) (d : Die) : (s.setDieAt n d).ways = s.ways := rfl
@[simp] theorem State.setDieAt_slots (s : State) (n : Nat) (d : Die) : (s.setDieAt n d).slots = s.slots := rfl
@[simp] theorem State.setDieAt_segs (s : State) (n : Nat) (d : Die) : (s.setDieAt n d).segs = s.segs := rfl
@[simp] theorem State.setDieAt_msgs (s : State) (n : Nat) (d : Die) : (s.setDieAt n d).msgs = s.msgs := rfl
@[simp] theorem State.setDieAt_rels (s : State) (n : Nat) (d : Die) : (s.setDieAt n d).rels = s.rels := rfl
@[simp] theorem State.setDieAt_agenda (s : State) (n : Nat) (d : Die) : (s.setDieAt n d).agenda = s.agenda := rfl
@[simp] theorem State.setDieAt_here (s : State) (n : Nat) (d : Die) : (s.setDieAt n d).here = s.here := rfl
@[simp] theorem State.setDieAt_fresh (s : State) (n : Nat) (d : Die) : (s.setDieAt n d).fresh = s.fresh := rfl

/-! Changing a die, by a function. -/
@[simp] theorem State.onDie_mem (s : State) (n : Nat) (f : Die → Die) : (s.onDie n f).mem = s.mem := rfl
@[simp] theorem State.onDie_ecc (s : State) (n : Nat) (f : Die → Die) : (s.onDie n f).ecc = s.ecc := rfl
@[simp] theorem State.onDie_tags (s : State) (n : Nat) (f : Die → Die) : (s.onDie n f).tags = s.tags := rfl
@[simp] theorem State.onDie_tick (s : State) (n : Nat) (f : Die → Die) : (s.onDie n f).tick = s.tick := rfl
@[simp] theorem State.onDie_adj (s : State) (n : Nat) (f : Die → Die) : (s.onDie n f).adj = s.adj := rfl
@[simp] theorem State.onDie_slew (s : State) (n : Nat) (f : Die → Die) : (s.onDie n f).slew = s.slew := rfl
@[simp] theorem State.onDie_syncs (s : State) (n : Nat) (f : Die → Die) : (s.onDie n f).syncs = s.syncs := rfl
@[simp] theorem State.onDie_cores (s : State) (n : Nat) (f : Die → Die) : (s.onDie n f).cores = s.cores := rfl
@[simp] theorem State.onDie_clusters (s : State) (n : Nat) (f : Die → Die) : (s.onDie n f).clusters = s.clusters := rfl
@[simp] theorem State.onDie_ways (s : State) (n : Nat) (f : Die → Die) : (s.onDie n f).ways = s.ways := rfl
@[simp] theorem State.onDie_slots (s : State) (n : Nat) (f : Die → Die) : (s.onDie n f).slots = s.slots := rfl
@[simp] theorem State.onDie_segs (s : State) (n : Nat) (f : Die → Die) : (s.onDie n f).segs = s.segs := rfl
@[simp] theorem State.onDie_msgs (s : State) (n : Nat) (f : Die → Die) : (s.onDie n f).msgs = s.msgs := rfl
@[simp] theorem State.onDie_rels (s : State) (n : Nat) (f : Die → Die) : (s.onDie n f).rels = s.rels := rfl
@[simp] theorem State.onDie_agenda (s : State) (n : Nat) (f : Die → Die) : (s.onDie n f).agenda = s.agenda := rfl
@[simp] theorem State.onDie_here (s : State) (n : Nat) (f : Die → Die) : (s.onDie n f).here = s.here := rfl
@[simp] theorem State.onDie_fresh (s : State) (n : Nat) (f : Die → Die) : (s.onDie n f).fresh = s.fresh := rfl

/-! Changing a waystation. -/
@[simp] theorem State.setWayAt_mem (s : State) (n : Nat) (w : Way) : (s.setWayAt n w).mem = s.mem := rfl
@[simp] theorem State.setWayAt_ecc (s : State) (n : Nat) (w : Way) : (s.setWayAt n w).ecc = s.ecc := rfl
@[simp] theorem State.setWayAt_tags (s : State) (n : Nat) (w : Way) : (s.setWayAt n w).tags = s.tags := rfl
@[simp] theorem State.setWayAt_tick (s : State) (n : Nat) (w : Way) : (s.setWayAt n w).tick = s.tick := rfl
@[simp] theorem State.setWayAt_adj (s : State) (n : Nat) (w : Way) : (s.setWayAt n w).adj = s.adj := rfl
@[simp] theorem State.setWayAt_slew (s : State) (n : Nat) (w : Way) : (s.setWayAt n w).slew = s.slew := rfl
@[simp] theorem State.setWayAt_syncs (s : State) (n : Nat) (w : Way) : (s.setWayAt n w).syncs = s.syncs := rfl
@[simp] theorem State.setWayAt_cores (s : State) (n : Nat) (w : Way) : (s.setWayAt n w).cores = s.cores := rfl
@[simp] theorem State.setWayAt_clusters (s : State) (n : Nat) (w : Way) : (s.setWayAt n w).clusters = s.clusters := rfl
@[simp] theorem State.setWayAt_dies (s : State) (n : Nat) (w : Way) : (s.setWayAt n w).dies = s.dies := rfl
@[simp] theorem State.setWayAt_slots (s : State) (n : Nat) (w : Way) : (s.setWayAt n w).slots = s.slots := rfl
@[simp] theorem State.setWayAt_segs (s : State) (n : Nat) (w : Way) : (s.setWayAt n w).segs = s.segs := rfl
@[simp] theorem State.setWayAt_msgs (s : State) (n : Nat) (w : Way) : (s.setWayAt n w).msgs = s.msgs := rfl
@[simp] theorem State.setWayAt_rels (s : State) (n : Nat) (w : Way) : (s.setWayAt n w).rels = s.rels := rfl
@[simp] theorem State.setWayAt_agenda (s : State) (n : Nat) (w : Way) : (s.setWayAt n w).agenda = s.agenda := rfl
@[simp] theorem State.setWayAt_here (s : State) (n : Nat) (w : Way) : (s.setWayAt n w).here = s.here := rfl
@[simp] theorem State.setWayAt_fresh (s : State) (n : Nat) (w : Way) : (s.setWayAt n w).fresh = s.fresh := rfl

/-! Changing the core that the step is about. -/
@[simp] theorem State.at_mem (s : State) (d c : Nat) : (s.at d c).mem = s.mem := rfl
@[simp] theorem State.at_ecc (s : State) (d c : Nat) : (s.at d c).ecc = s.ecc := rfl
@[simp] theorem State.at_tags (s : State) (d c : Nat) : (s.at d c).tags = s.tags := rfl
@[simp] theorem State.at_tick (s : State) (d c : Nat) : (s.at d c).tick = s.tick := rfl
@[simp] theorem State.at_adj (s : State) (d c : Nat) : (s.at d c).adj = s.adj := rfl
@[simp] theorem State.at_slew (s : State) (d c : Nat) : (s.at d c).slew = s.slew := rfl
@[simp] theorem State.at_syncs (s : State) (d c : Nat) : (s.at d c).syncs = s.syncs := rfl
@[simp] theorem State.at_cores (s : State) (d c : Nat) : (s.at d c).cores = s.cores := rfl
@[simp] theorem State.at_clusters (s : State) (d c : Nat) : (s.at d c).clusters = s.clusters := rfl
@[simp] theorem State.at_dies (s : State) (d c : Nat) : (s.at d c).dies = s.dies := rfl
@[simp] theorem State.at_ways (s : State) (d c : Nat) : (s.at d c).ways = s.ways := rfl
@[simp] theorem State.at_slots (s : State) (d c : Nat) : (s.at d c).slots = s.slots := rfl
@[simp] theorem State.at_segs (s : State) (d c : Nat) : (s.at d c).segs = s.segs := rfl
@[simp] theorem State.at_msgs (s : State) (d c : Nat) : (s.at d c).msgs = s.msgs := rfl
@[simp] theorem State.at_rels (s : State) (d c : Nat) : (s.at d c).rels = s.rels := rfl
@[simp] theorem State.at_agenda (s : State) (d c : Nat) : (s.at d c).agenda = s.agenda := rfl
@[simp] theorem State.at_fresh (s : State) (d c : Nat) : (s.at d c).fresh = s.fresh := rfl

/-! Read-back. -/
@[simp] theorem State.coreAt_setCoreAt (s : State) (n m : Nat) (c : Core) :
    (s.setCoreAt n c).coreAt m = if m = n then c else s.coreAt m := by simp [State.coreAt, State.setCoreAt]
@[simp] theorem State.clusterAt_setClusterAt (s : State) (n m : Nat) (c : Cluster) :
    (s.setClusterAt n c).clusterAt m = if m = n then c else s.clusterAt m := by simp [State.clusterAt, State.setClusterAt]
@[simp] theorem State.dieAt_setDieAt (s : State) (n m : Nat) (d : Die) :
    (s.setDieAt n d).dieAt m = if m = n then d else s.dieAt m := by simp [State.dieAt, State.setDieAt]
@[simp] theorem State.wayAt_setWayAt (s : State) (n m : Nat) (w : Way) :
    (s.setWayAt n w).wayAt m = if m = n then w else s.wayAt m := by simp [State.wayAt, State.setWayAt]
@[simp] theorem State.dieAt_onDie (s : State) (n m : Nat) (f : Die → Die) :
    (s.onDie n f).dieAt m = if m = n then f (s.dieAt n) else s.dieAt m := by simp [State.onDie]
@[simp] theorem State.clusterAt_onCluster (s : State) (n m : Nat) (f : Cluster → Cluster) :
    (s.onCluster n f).clusterAt m = if m = n then f (s.clusterAt n) else s.clusterAt m := by simp [State.onCluster]
@[simp] theorem State.coreAt_onCore (s : State) (n m : Nat) (f : Core → Core) :
    (s.onCore n f).coreAt m = if m = n then f (s.coreAt n) else s.coreAt m := by simp [State.onCore]
@[simp] theorem State.coreAt_setJob (s : State) (j : Job) (m : Nat) :
    (s.setJob j).coreAt m = if m = s.me then { s.core with job := j } else s.coreAt m := by
  simp [State.setJob, State.setCore]
@[simp] theorem State.me_setJob (s : State) (j : Job) : (s.setJob j).me = s.me := rfl
@[simp] theorem State.core_setJob (s : State) (j : Job) : (s.setJob j).core = { s.core with job := j } := by
  show (s.setJob j).coreAt s.me = _; simp
@[simp] theorem State.job_setJob (s : State) (j : Job) : (s.setJob j).job = j := by simp [State.job]
@[simp] theorem State.me_onJob (s : State) (f : Job → Job) : (s.onJob f).me = s.me := rfl
@[simp] theorem State.job_onJob (s : State) (f : Job → Job) : (s.onJob f).job = f s.job := by simp [State.onJob]
@[simp] theorem State.coreAt_onJob (s : State) (f : Job → Job) (m : Nat) :
    (s.onJob f).coreAt m = if m = s.me then { s.core with job := f s.job } else s.coreAt m := by simp [State.onJob]
@[simp] theorem Job.blk_setBlk (j : Job) (st u : Strm) (b : Blk) :
    (j.setBlk st b).blk u = if u = st ∧ u ≠ .m then b else j.blk u := by cases st <;> cases u <;> simp [Job.setBlk, Job.blk]

end Sys2Proof.Machine
end

