-- ==== Sys2Proof/Safety.lean ====
section
/-!
DEFINITION. What claims mean by a safe run: no fault and no refusal, and memory in its canonical form; and what they mean by an effect
that stays within a job, a core, a die.
-/
namespace Sys2Proof.Machine

/-- A run of n steps from a state comes to a next state each time. -/
def SafeRun (n : Nat) (s : State) : Prop := ∃ t, Sys2Proof.core.run n s = .next t

/-- The invariant of every step: memory stands in its canonical form. -/
def State.Inv (s : State) : Prop := Memory.wf s.mem = true

/-- Nothing but the cores listed in the state differs, and every byte reads as it did. -/
def CoresOnly (s t : State) : Prop := { t with cores := s.cores } = s ∧ ∀ a, t.byteAt a = s.byteAt a
/-- Nothing but the core of the step in progress differs. -/
def CoreOnly (s t : State) : Prop := CoresOnly s t ∧ ∀ n, n ≠ s.me → t.coreAt n = s.coreAt n
/-- Nothing but the job of that core differs. -/
def JobOnly (s t : State) : Prop := CoreOnly s t ∧ { t.core with job := s.job } = s.core
/-- Nothing but that job and the model's counter of numbers (State.fresh) differs. -/
def JobOnlyF (s t : State) : Prop := JobOnly s { t with fresh := s.fresh }

end Sys2Proof.Machine
end

