-- ==== Sys2Proof/Laws/Registers.lean ====
section
/-!
SUPPORT. The registers and the streams of a job: reading back what was written (R17), how a stream moves on, and that both stay within
the job of the core of the step.
-/
namespace Sys2Proof.Machine

/-! Frames. -/
theorem byteAt_congr {s t : State} (hm : t.mem = s.mem) (hd : t.dies = s.dies) (a : Nat) : t.byteAt a = s.byteAt a := by
  simp only [State.byteAt, State.dieAt, hm, hd]
theorem CoresOnly.of_eq {s t : State} (h : { t with cores := s.cores } = s) : CoresOnly s t :=
  ⟨h, byteAt_congr (by rw [← h]) (by rw [← h])⟩
theorem CoresOnly.here {s t : State} (h : CoresOnly s t) : t.here = s.here := by rw [← h.1]
theorem CoreOnly.refl (s : State) : CoreOnly s s := ⟨⟨rfl, fun _ => rfl⟩, fun _ _ => rfl⟩
theorem JobOnly.refl (s : State) : JobOnly s s := ⟨CoreOnly.refl s, rfl⟩
theorem CoreOnly.me {s t : State} (h : CoreOnly s t) : t.me = s.me := by simp only [State.me, h.1.here]
theorem CoreOnly.trans {s t u : State} (h : CoreOnly s t) (k : CoreOnly t u) : CoreOnly s u := by
  refine ⟨CoresOnly.of_eq ?_, fun n hn => ?_⟩
  · have := k.1.1; rw [← h.1.1]; rw [← this]
  · rw [k.2 n (by rw [h.me]; exact hn), h.2 n hn]
theorem JobOnly.trans {s t u : State} (h : JobOnly s t) (k : JobOnly t u) : JobOnly s u := by
  refine ⟨h.1.trans k.1, ?_⟩
  have := k.2; rw [← h.2]; rw [← this]
theorem JobOnly.me {s t : State} (h : JobOnly s t) : t.me = s.me := h.1.me
theorem jobOnly_setJob (s : State) (j : Job) : JobOnly s (s.setJob j) := by
  refine ⟨⟨CoresOnly.of_eq rfl, fun n hn => ?_⟩, ?_⟩
  · rw [State.coreAt_setJob, if_neg hn]
  · rw [State.core_setJob]; rfl
theorem jobOnly_onJob (s : State) (f : Job → Job) : JobOnly s (s.onJob f) := jobOnly_setJob s _
theorem jobOnly_setRs (s : State) (d : BitVec 5) (v : W64) : JobOnly s (s.setRs d v) := by
  unfold State.setRs; split
  · exact .refl s
  · exact jobOnly_onJob s _
theorem jobOnly_setRa (s : State) (d : BitVec 4) (v : W64) : JobOnly s (s.setRa d v) := by
  unfold State.setRa; split
  · exact .refl s
  · exact jobOnly_onJob s _
theorem jobOnly_advance (s : State) (st : Strm) (n : Nat) : JobOnly s (s.advance st n) := jobOnly_onJob s _
theorem jobOnly_goto (s : State) (st : Strm) (x : Nat) : JobOnly s (s.goto st x) := jobOnly_onJob s _

/-! s-registers (R17). -/
theorem rs_congr {s t : State} (h : t.job.s = s.job.s) (r : BitVec 5) : t.rs r = s.rs r := by unfold State.rs; rw [h]
@[simp] theorem rs_zero (s : State) : s.rs 0 = 0 := rfl
theorem job_setRs (s : State) (d : BitVec 5) (v : W64) :
    (s.setRs d v).job = { s.job with s := if d = 0 then s.job.s else spSet s.job.s d.toNat v } := by
  unfold State.setRs; split <;> simp
theorem rs_setRs (s : State) (d r : BitVec 5) (v : W64) :
    (s.setRs d v).rs r = if r = 0 then 0 else if r = d then v else s.rs r := by
  unfold State.rs; rw [job_setRs]
  by_cases h0 : r = 0
  · rw [if_pos h0, if_pos h0]
  rw [if_neg h0, if_neg h0, if_neg h0]
  by_cases hr : r = d
  · rw [if_pos hr, ← hr, if_neg h0, spGet_spSet, if_pos rfl]
  rw [if_neg hr]
  by_cases hd : d = 0
  · rw [if_pos hd]
  · rw [if_neg hd, spGet_spSet, if_neg fun e => hr (BitVec.eq_of_toNat_eq e)]

/-! a-registers (R17). -/
theorem ra_congr {s t : State} (h : t.job.ar = s.job.ar) (r : BitVec 4) : t.ra r = s.ra r := by unfold State.ra; rw [h]
@[simp] theorem ra_zero (s : State) : s.ra 0 = 0 := rfl
theorem job_setRa (s : State) (d : BitVec 4) (v : W64) :
    (s.setRa d v).job = { s.job with ar := if d = 0 then s.job.ar else spSet s.job.ar d.toNat v } := by
  unfold State.setRa; split <;> simp
theorem ra_setRa (s : State) (d r : BitVec 4) (v : W64) :
    (s.setRa d v).ra r = if r = 0 then 0 else if r = d then v else s.ra r := by
  unfold State.ra; rw [job_setRa]
  by_cases h0 : r = 0
  · rw [if_pos h0, if_pos h0]
  rw [if_neg h0, if_neg h0, if_neg h0]
  by_cases hr : r = d
  · rw [if_pos hr, ← hr, if_neg h0, spGet_spSet, if_pos rfl]
  rw [if_neg hr]
  by_cases hd : d = 0
  · rw [if_pos hd]
  · rw [if_neg hd, spGet_spSet, if_neg fun e => hr (BitVec.eq_of_toNat_eq e)]

/-! Streams. -/
theorem job_advance_c (s : State) (n : Nat) : (s.advance .c n).job = { s.job with c := s.job.c.advance .c n } := by
  simp [State.advance, Job.setBlk, Job.blk]
theorem job_advance_a (s : State) (n : Nat) : (s.advance .a n).job = { s.job with a := s.job.a.advance .a n } := by
  simp [State.advance, Job.setBlk, Job.blk]
theorem job_advance_v (s : State) (n : Nat) : (s.advance .v n).job =
    if s.job.v.rotates n then { s.job with v := s.job.v.advance .v n, vrb := s.job.vrb + 1 }
    else { s.job with v := s.job.v.advance .v n } := by
  unfold State.advance; rw [State.job_onJob]; rfl
theorem job_goto_c (s : State) (x : Nat) : (s.goto .c x).job = { s.job with c := s.job.c.at x } := by
  simp [State.goto, State.onBlk, Job.setBlk, Job.blk]
theorem job_goto_a (s : State) (x : Nat) : (s.goto .a x).job = { s.job with a := s.job.a.at x } := by
  simp [State.goto, State.onBlk, Job.setBlk, Job.blk]
@[simp] theorem rs_advance (s : State) (st : Strm) (n : Nat) (r : BitVec 5) : (s.advance st n).rs r = s.rs r := by
  apply rs_congr
  cases st <;> simp only [State.advance, State.job_onJob, Job.setBlk]
  split <;> rfl
@[simp] theorem ra_advance (s : State) (st : Strm) (n : Nat) (r : BitVec 4) : (s.advance st n).ra r = s.ra r := by
  apply ra_congr
  cases st <;> simp only [State.advance, State.job_onJob, Job.setBlk]
  split <;> rfl
@[simp] theorem rs_goto (s : State) (st : Strm) (x : Nat) (r : BitVec 5) : (s.goto st x).rs r = s.rs r := by
  apply rs_congr; cases st <;> simp only [State.goto, State.onBlk, State.job_onJob, Job.setBlk]
@[simp] theorem ra_goto (s : State) (st : Strm) (x : Nat) (r : BitVec 4) : (s.goto st x).ra r = s.ra r := by
  apply ra_congr; cases st <;> simp only [State.goto, State.onBlk, State.job_onJob, Job.setBlk]

end Sys2Proof.Machine
end

