-- ==== Sys2Proof/Laws/PerInstr.lean ====
section
/-!
SUPPORT. The per-instruction family Encoding (R162): an instruction has a word exactly where a stream decodes it, and a C- or A-stream word's
bit 15 of its first halfword says its length.
-/
namespace Sys2Proof.Laws.Encoding

open Sys2Proof Sys2Proof.Machine

/-- A step without a word belongs to no stream; a word of the V-stream has 32 bits; of the others, the first halfword's bit 15 is 1 where the
word has 32 bits and 0 where it has 16 (R162). -/
def Statement (i : Instr) : Prop :=
  match streamOf i, encode i with
  | none, .noWord => True
  | some .v, .full _ => True
  | some .c, .full w => w.getLsbD 31 = true
  | some .a, .full w => w.getLsbD 31 = true
  | some .c, .half w => w.getLsbD 15 = false
  | some .a, .half w => w.getLsbD 15 = false
  | _, _ => False

theorem cAdd (d : BitVec 5) (a : BitVec 5) (b : BitVec 5) : Statement (.cAdd d a b) := by show BitVec.getLsbD (0x20#6 ++ d ++ a ++ b ++ 0x0#11) 31 = true; simp only [BitVec.getLsbD_append]; rfl
theorem cSub (d : BitVec 5) (a : BitVec 5) (b : BitVec 5) : Statement (.cSub d a b) := by show BitVec.getLsbD (0x20#6 ++ d ++ a ++ b ++ 0x1#11) 31 = true; simp only [BitVec.getLsbD_append]; rfl
theorem cAnd (d : BitVec 5) (a : BitVec 5) (b : BitVec 5) : Statement (.cAnd d a b) := by show BitVec.getLsbD (0x20#6 ++ d ++ a ++ b ++ 0x2#11) 31 = true; simp only [BitVec.getLsbD_append]; rfl
theorem cOr (d : BitVec 5) (a : BitVec 5) (b : BitVec 5) : Statement (.cOr d a b) := by show BitVec.getLsbD (0x20#6 ++ d ++ a ++ b ++ 0x3#11) 31 = true; simp only [BitVec.getLsbD_append]; rfl
theorem cXor (d : BitVec 5) (a : BitVec 5) (b : BitVec 5) : Statement (.cXor d a b) := by show BitVec.getLsbD (0x20#6 ++ d ++ a ++ b ++ 0x4#11) 31 = true; simp only [BitVec.getLsbD_append]; rfl
theorem andn (d : BitVec 5) (a : BitVec 5) (b : BitVec 5) : Statement (.andn d a b) := by show BitVec.getLsbD (0x20#6 ++ d ++ a ++ b ++ 0x5#11) 31 = true; simp only [BitVec.getLsbD_append]; rfl
theorem cShl (d : BitVec 5) (a : BitVec 5) (b : BitVec 5) : Statement (.cShl d a b) := by show BitVec.getLsbD (0x20#6 ++ d ++ a ++ b ++ 0x6#11) 31 = true; simp only [BitVec.getLsbD_append]; rfl
theorem cShr (d : BitVec 5) (a : BitVec 5) (b : BitVec 5) : Statement (.cShr d a b) := by show BitVec.getLsbD (0x20#6 ++ d ++ a ++ b ++ 0x7#11) 31 = true; simp only [BitVec.getLsbD_append]; rfl
theorem cSra (d : BitVec 5) (a : BitVec 5) (b : BitVec 5) : Statement (.cSra d a b) := by show BitVec.getLsbD (0x20#6 ++ d ++ a ++ b ++ 0x8#11) 31 = true; simp only [BitVec.getLsbD_append]; rfl
theorem cMul (d : BitVec 5) (a : BitVec 5) (b : BitVec 5) : Statement (.cMul d a b) := by show BitVec.getLsbD (0x20#6 ++ d ++ a ++ b ++ 0x9#11) 31 = true; simp only [BitVec.getLsbD_append]; rfl
theorem mulh (d : BitVec 5) (a : BitVec 5) (b : BitVec 5) : Statement (.mulh d a b) := by show BitVec.getLsbD (0x20#6 ++ d ++ a ++ b ++ 0xA#11) 31 = true; simp only [BitVec.getLsbD_append]; rfl
theorem mulhu (d : BitVec 5) (a : BitVec 5) (b : BitVec 5) : Statement (.mulhu d a b) := by show BitVec.getLsbD (0x20#6 ++ d ++ a ++ b ++ 0xB#11) 31 = true; simp only [BitVec.getLsbD_append]; rfl
theorem div (d : BitVec 5) (a : BitVec 5) (b : BitVec 5) : Statement (.div d a b) := by show BitVec.getLsbD (0x20#6 ++ d ++ a ++ b ++ 0xC#11) 31 = true; simp only [BitVec.getLsbD_append]; rfl
theorem divu (d : BitVec 5) (a : BitVec 5) (b : BitVec 5) : Statement (.divu d a b) := by show BitVec.getLsbD (0x20#6 ++ d ++ a ++ b ++ 0xD#11) 31 = true; simp only [BitVec.getLsbD_append]; rfl
theorem rem (d : BitVec 5) (a : BitVec 5) (b : BitVec 5) : Statement (.rem d a b) := by show BitVec.getLsbD (0x20#6 ++ d ++ a ++ b ++ 0xE#11) 31 = true; simp only [BitVec.getLsbD_append]; rfl
theorem remu (d : BitVec 5) (a : BitVec 5) (b : BitVec 5) : Statement (.remu d a b) := by show BitVec.getLsbD (0x20#6 ++ d ++ a ++ b ++ 0xF#11) 31 = true; simp only [BitVec.getLsbD_append]; rfl
theorem cMin (d : BitVec 5) (a : BitVec 5) (b : BitVec 5) : Statement (.cMin d a b) := by show BitVec.getLsbD (0x20#6 ++ d ++ a ++ b ++ 0x10#11) 31 = true; simp only [BitVec.getLsbD_append]; rfl
theorem cMax (d : BitVec 5) (a : BitVec 5) (b : BitVec 5) : Statement (.cMax d a b) := by show BitVec.getLsbD (0x20#6 ++ d ++ a ++ b ++ 0x11#11) 31 = true; simp only [BitVec.getLsbD_append]; rfl
theorem minu (d : BitVec 5) (a : BitVec 5) (b : BitVec 5) : Statement (.minu d a b) := by show BitVec.getLsbD (0x20#6 ++ d ++ a ++ b ++ 0x12#11) 31 = true; simp only [BitVec.getLsbD_append]; rfl
theorem maxu (d : BitVec 5) (a : BitVec 5) (b : BitVec 5) : Statement (.maxu d a b) := by show BitVec.getLsbD (0x20#6 ++ d ++ a ++ b ++ 0x13#11) 31 = true; simp only [BitVec.getLsbD_append]; rfl
theorem clz (d : BitVec 5) (a : BitVec 5) : Statement (.clz d a) := by show BitVec.getLsbD (0x20#6 ++ d ++ a ++ 0x14#16) 31 = true; simp only [BitVec.getLsbD_append]; rfl
theorem popc (d : BitVec 5) (a : BitVec 5) : Statement (.popc d a) := by show BitVec.getLsbD (0x20#6 ++ d ++ a ++ 0x15#16) 31 = true; simp only [BitVec.getLsbD_append]; rfl
theorem seq (d : BitVec 5) (a : BitVec 5) (b : BitVec 5) : Statement (.seq d a b) := by show BitVec.getLsbD (0x20#6 ++ d ++ a ++ b ++ 0x16#11) 31 = true; simp only [BitVec.getLsbD_append]; rfl
theorem sne (d : BitVec 5) (a : BitVec 5) (b : BitVec 5) : Statement (.sne d a b) := by show BitVec.getLsbD (0x20#6 ++ d ++ a ++ b ++ 0x17#11) 31 = true; simp only [BitVec.getLsbD_append]; rfl
theorem cSlt (d : BitVec 5) (a : BitVec 5) (b : BitVec 5) : Statement (.cSlt d a b) := by show BitVec.getLsbD (0x20#6 ++ d ++ a ++ b ++ 0x18#11) 31 = true; simp only [BitVec.getLsbD_append]; rfl
theorem cSltu (d : BitVec 5) (a : BitVec 5) (b : BitVec 5) : Statement (.cSltu d a b) := by show BitVec.getLsbD (0x20#6 ++ d ++ a ++ b ++ 0x19#11) 31 = true; simp only [BitVec.getLsbD_append]; rfl
theorem sel (d : BitVec 5) (a : BitVec 5) (b : BitVec 5) : Statement (.sel d a b) := by show BitVec.getLsbD (0x20#6 ++ d ++ a ++ b ++ 0x1A#11) 31 = true; simp only [BitVec.getLsbD_append]; rfl
theorem cAddi (d : BitVec 5) (a : BitVec 5) (i : BitVec 16) : Statement (.cAddi d a i) := by show BitVec.getLsbD (0x21#6 ++ d ++ a ++ i) 31 = true; simp only [BitVec.getLsbD_append]; rfl
theorem andi (d : BitVec 5) (a : BitVec 5) (i : BitVec 16) : Statement (.andi d a i) := by show BitVec.getLsbD (0x22#6 ++ d ++ a ++ i) 31 = true; simp only [BitVec.getLsbD_append]; rfl
theorem ori (d : BitVec 5) (a : BitVec 5) (i : BitVec 16) : Statement (.ori d a i) := by show BitVec.getLsbD (0x23#6 ++ d ++ a ++ i) 31 = true; simp only [BitVec.getLsbD_append]; rfl
theorem xori (d : BitVec 5) (a : BitVec 5) (i : BitVec 16) : Statement (.xori d a i) := by show BitVec.getLsbD (0x24#6 ++ d ++ a ++ i) 31 = true; simp only [BitVec.getLsbD_append]; rfl
theorem cShli (d : BitVec 5) (a : BitVec 5) (n : BitVec 6) : Statement (.cShli d a n) := by show BitVec.getLsbD (0x25#6 ++ d ++ a ++ 0x0#10 ++ n) 31 = true; simp only [BitVec.getLsbD_append]; rfl
theorem cShri (d : BitVec 5) (a : BitVec 5) (n : BitVec 6) : Statement (.cShri d a n) := by show BitVec.getLsbD (0x25#6 ++ d ++ a ++ 0x1#10 ++ n) 31 = true; simp only [BitVec.getLsbD_append]; rfl
theorem cSrai (d : BitVec 5) (a : BitVec 5) (n : BitVec 6) : Statement (.cSrai d a n) := by show BitVec.getLsbD (0x25#6 ++ d ++ a ++ 0x2#10 ++ n) 31 = true; simp only [BitVec.getLsbD_append]; rfl
theorem slti (d : BitVec 5) (a : BitVec 5) (i : BitVec 16) : Statement (.slti d a i) := by show BitVec.getLsbD (0x26#6 ++ d ++ a ++ i) 31 = true; simp only [BitVec.getLsbD_append]; rfl
theorem sltiu (d : BitVec 5) (a : BitVec 5) (i : BitVec 16) : Statement (.sltiu d a i) := by show BitVec.getLsbD (0x27#6 ++ d ++ a ++ i) 31 = true; simp only [BitVec.getLsbD_append]; rfl
theorem cLiz (d : BitVec 5) (i : BitVec 16) (p : BitVec 2) : Statement (.cLiz d i p) := by show BitVec.getLsbD (0x28#6 ++ d ++ i ++ p ++ 0x0#3) 31 = true; simp only [BitVec.getLsbD_append]; rfl
theorem cLik (d : BitVec 5) (i : BitVec 16) (p : BitVec 2) : Statement (.cLik d i p) := by show BitVec.getLsbD (0x28#6 ++ d ++ i ++ p ++ 0x1#3) 31 = true; simp only [BitVec.getLsbD_append]; rfl
theorem cBeqz (a : BitVec 5) (o : BitVec 16) : Statement (.cBeqz a o) := by show BitVec.getLsbD (0x520#11 ++ a ++ o) 31 = true; simp only [BitVec.getLsbD_append]; rfl
theorem cBnez (a : BitVec 5) (o : BitVec 16) : Statement (.cBnez a o) := by show BitVec.getLsbD (0x521#11 ++ a ++ o) 31 = true; simp only [BitVec.getLsbD_append]; rfl
theorem cBltz (a : BitVec 5) (o : BitVec 16) : Statement (.cBltz a o) := by show BitVec.getLsbD (0x522#11 ++ a ++ o) 31 = true; simp only [BitVec.getLsbD_append]; rfl
theorem cBgez (a : BitVec 5) (o : BitVec 16) : Statement (.cBgez a o) := by show BitVec.getLsbD (0x523#11 ++ a ++ o) 31 = true; simp only [BitVec.getLsbD_append]; rfl
theorem cBlez (a : BitVec 5) (o : BitVec 16) : Statement (.cBlez a o) := by show BitVec.getLsbD (0x524#11 ++ a ++ o) 31 = true; simp only [BitVec.getLsbD_append]; rfl
theorem cBgtz (a : BitVec 5) (o : BitVec 16) : Statement (.cBgtz a o) := by show BitVec.getLsbD (0x525#11 ++ a ++ o) 31 = true; simp only [BitVec.getLsbD_append]; rfl
theorem cJmp (o : BitVec 26) : Statement (.cJmp o) := by show BitVec.getLsbD (0x2A#6 ++ o) 31 = true; simp only [BitVec.getLsbD_append]; rfl
theorem call (o : BitVec 26) : Statement (.call o) := by show BitVec.getLsbD (0x2B#6 ++ o) 31 = true; simp only [BitVec.getLsbD_append]; rfl
theorem jr (a : BitVec 5) : Statement (.jr a) := by show BitVec.getLsbD (0x580#11 ++ a ++ 0x0#16) 31 = true; simp only [BitVec.getLsbD_append]; rfl
theorem callr (a : BitVec 5) : Statement (.callr a) := by show BitVec.getLsbD (0x580#11 ++ a ++ 0x40#16) 31 = true; simp only [BitVec.getLsbD_append]; rfl
theorem cLdb (d : BitVec 5) (a : BitVec 5) (o : BitVec 11) : Statement (.cLdb d a o) := by show BitVec.getLsbD (0x2D#6 ++ d ++ a ++ 0x0#5 ++ o) 31 = true; simp only [BitVec.getLsbD_append]; rfl
theorem cLdbu (d : BitVec 5) (a : BitVec 5) (o : BitVec 11) : Statement (.cLdbu d a o) := by show BitVec.getLsbD (0x2D#6 ++ d ++ a ++ 0x1#5 ++ o) 31 = true; simp only [BitVec.getLsbD_append]; rfl
theorem cLdh (d : BitVec 5) (a : BitVec 5) (o : BitVec 11) : Statement (.cLdh d a o) := by show BitVec.getLsbD (0x2D#6 ++ d ++ a ++ 0x2#5 ++ o) 31 = true; simp only [BitVec.getLsbD_append]; rfl
theorem cLdhu (d : BitVec 5) (a : BitVec 5) (o : BitVec 11) : Statement (.cLdhu d a o) := by show BitVec.getLsbD (0x2D#6 ++ d ++ a ++ 0x3#5 ++ o) 31 = true; simp only [BitVec.getLsbD_append]; rfl
theorem cLdw (d : BitVec 5) (a : BitVec 5) (o : BitVec 11) : Statement (.cLdw d a o) := by show BitVec.getLsbD (0x2D#6 ++ d ++ a ++ 0x4#5 ++ o) 31 = true; simp only [BitVec.getLsbD_append]; rfl
theorem cLdwu (d : BitVec 5) (a : BitVec 5) (o : BitVec 11) : Statement (.cLdwu d a o) := by show BitVec.getLsbD (0x2D#6 ++ d ++ a ++ 0x5#5 ++ o) 31 = true; simp only [BitVec.getLsbD_append]; rfl
theorem cLdd (d : BitVec 5) (a : BitVec 5) (o : BitVec 11) : Statement (.cLdd d a o) := by show BitVec.getLsbD (0x2D#6 ++ d ++ a ++ 0x6#5 ++ o) 31 = true; simp only [BitVec.getLsbD_append]; rfl
theorem cStb (d : BitVec 5) (a : BitVec 5) (o : BitVec 11) : Statement (.cStb d a o) := by show BitVec.getLsbD (0x2E#6 ++ d ++ a ++ 0x0#5 ++ o) 31 = true; simp only [BitVec.getLsbD_append]; rfl
theorem cSth (d : BitVec 5) (a : BitVec 5) (o : BitVec 11) : Statement (.cSth d a o) := by show BitVec.getLsbD (0x2E#6 ++ d ++ a ++ 0x1#5 ++ o) 31 = true; simp only [BitVec.getLsbD_append]; rfl
theorem cStw (d : BitVec 5) (a : BitVec 5) (o : BitVec 11) : Statement (.cStw d a o) := by show BitVec.getLsbD (0x2E#6 ++ d ++ a ++ 0x2#5 ++ o) 31 = true; simp only [BitVec.getLsbD_append]; rfl
theorem cStd (d : BitVec 5) (a : BitVec 5) (o : BitVec 11) : Statement (.cStd d a o) := by show BitVec.getLsbD (0x2E#6 ++ d ++ a ++ 0x3#5 ++ o) 31 = true; simp only [BitVec.getLsbD_append]; rfl
theorem atadd (d : BitVec 5) (a : BitVec 5) (b : BitVec 5) (w : Bool) : Statement (.atadd d a b w) := by show BitVec.getLsbD (0x2F#6 ++ d ++ a ++ b ++ 0x1#4 ++ bit w ++ 0x0#6) 31 = true; simp only [BitVec.getLsbD_append]; rfl
theorem atswp (d : BitVec 5) (a : BitVec 5) (b : BitVec 5) (w : Bool) : Statement (.atswp d a b w) := by show BitVec.getLsbD (0x2F#6 ++ d ++ a ++ b ++ 0x3#4 ++ bit w ++ 0x0#6) 31 = true; simp only [BitVec.getLsbD_append]; rfl
theorem atcas (d : BitVec 5) (a : BitVec 5) (b : BitVec 5) (w : Bool) : Statement (.atcas d a b w) := by show BitVec.getLsbD (0x2F#6 ++ d ++ a ++ b ++ 0x5#4 ++ bit w ++ 0x0#6) 31 = true; simp only [BitVec.getLsbD_append]; rfl
theorem atmin (d : BitVec 5) (a : BitVec 5) (b : BitVec 5) (w : Bool) : Statement (.atmin d a b w) := by show BitVec.getLsbD (0x2F#6 ++ d ++ a ++ b ++ 0x7#4 ++ bit w ++ 0x0#6) 31 = true; simp only [BitVec.getLsbD_append]; rfl
theorem atmax (d : BitVec 5) (a : BitVec 5) (b : BitVec 5) (w : Bool) : Statement (.atmax d a b w) := by show BitVec.getLsbD (0x2F#6 ++ d ++ a ++ b ++ 0x9#4 ++ bit w ++ 0x0#6) 31 = true; simp only [BitVec.getLsbD_append]; rfl
theorem atminu (d : BitVec 5) (a : BitVec 5) (b : BitVec 5) (w : Bool) : Statement (.atminu d a b w) := by show BitVec.getLsbD (0x2F#6 ++ d ++ a ++ b ++ 0xB#4 ++ bit w ++ 0x0#6) 31 = true; simp only [BitVec.getLsbD_append]; rfl
theorem atmaxu (d : BitVec 5) (a : BitVec 5) (b : BitVec 5) (w : Bool) : Statement (.atmaxu d a b w) := by show BitVec.getLsbD (0x2F#6 ++ d ++ a ++ b ++ 0xD#4 ++ bit w ++ 0x0#6) 31 = true; simp only [BitVec.getLsbD_append]; rfl
theorem arm (a : BitVec 5) : Statement (.arm a) := by show BitVec.getLsbD (0x600#11 ++ a ++ 0x0#16) 31 = true; simp only [BitVec.getLsbD_append]; rfl
theorem rinit (a : BitVec 5) (b : BitVec 5) : Statement (.rinit a b) := by show BitVec.getLsbD (0x620#11 ++ a ++ b ++ 0x0#11) 31 = true; simp only [BitVec.getLsbD_append]; rfl
theorem rclaim (d : BitVec 5) (a : BitVec 5) : Statement (.rclaim d a) := by show BitVec.getLsbD (0x31#6 ++ d ++ a ++ 0x40#16) 31 = true; simp only [BitVec.getLsbD_append]; rfl
theorem rpub (a : BitVec 5) (b : BitVec 5) : Statement (.rpub a b) := by show BitVec.getLsbD (0x620#11 ++ a ++ b ++ 0x80#11) 31 = true; simp only [BitVec.getLsbD_append]; rfl
theorem rwfill (a : BitVec 5) (b : BitVec 5) : Statement (.rwfill a b) := by show BitVec.getLsbD (0x620#11 ++ a ++ b ++ 0xC0#11) 31 = true; simp only [BitVec.getLsbD_append]; rfl
theorem rtake (d : BitVec 5) (a : BitVec 5) (b : BitVec 5) : Statement (.rtake d a b) := by show BitVec.getLsbD (0x31#6 ++ d ++ a ++ b ++ 0x100#11) 31 = true; simp only [BitVec.getLsbD_append]; rfl
theorem rwfree (a : BitVec 5) (b : BitVec 5) : Statement (.rwfree a b) := by show BitVec.getLsbD (0x620#11 ++ a ++ b ++ 0x140#11) 31 = true; simp only [BitVec.getLsbD_append]; rfl
theorem reos (a : BitVec 5) : Statement (.reos a) := by show BitVec.getLsbD (0x620#11 ++ a ++ 0x180#16) 31 = true; simp only [BitVec.getLsbD_append]; rfl
theorem bind (d : BitVec 5) (a : BitVec 5) (b : BitVec 5) (v : Bool) : Statement (.bind d a b v) := by show BitVec.getLsbD (0x32#6 ++ d ++ a ++ b ++ 0x0#7 ++ bit v ++ 0x0#3) 31 = true; simp only [BitVec.getLsbD_append]; rfl
theorem acq (d : BitVec 5) (a : BitVec 5) (s : Scope) (v : Bool) : Statement (.acq d a s v) := by show BitVec.getLsbD (0x32#6 ++ d ++ a ++ 0x1#8 ++ scopeCode s ++ 0x0#1 ++ bit v ++ 0x0#3) 31 = true; simp only [BitVec.getLsbD_append]; rfl
theorem rel (a : BitVec 5) (b : BitVec 5) (s : Scope) (v : Bool) : Statement (.rel a b s v) := by show BitVec.getLsbD (0x640#11 ++ a ++ b ++ 0x2#3 ++ scopeCode s ++ 0x0#1 ++ bit v ++ 0x0#3) 31 = true; simp only [BitVec.getLsbD_append]; rfl
theorem fence (s : Scope) : Statement (.fence s) := by show BitVec.getLsbD (0xC80003#24 ++ scopeCode s ++ 0x0#5) 31 = true; simp only [BitVec.getLsbD_append]; rfl
theorem fenceFlagged (a : BitVec 5) (b : BitVec 5) (s : Scope) (v : Bool) : Statement (.fenceFlagged a b s v) := by show BitVec.getLsbD (0x640#11 ++ a ++ b ++ 0x3#3 ++ scopeCode s ++ 0x1#1 ++ bit v ++ 0x0#3) 31 = true; simp only [BitVec.getLsbD_append]; rfl
theorem spawn (a : BitVec 5) : Statement (.spawn a) := by show BitVec.getLsbD (0x660#11 ++ a ++ 0x0#16) 31 = true; simp only [BitVec.getLsbD_append]; rfl
theorem join (a : BitVec 5) (b : BitVec 5) : Statement (.join a b) := by show BitVec.getLsbD (0x660#11 ++ a ++ b ++ 0x40#11) 31 = true; simp only [BitVec.getLsbD_append]; rfl
theorem exit (a : BitVec 5) : Statement (.exit a) := by show BitVec.getLsbD (0x660#11 ++ a ++ 0xC0#16) 31 = true; simp only [BitVec.getLsbD_append]; rfl
theorem yield (a : BitVec 5) : Statement (.yield a) := by show BitVec.getLsbD (0x660#11 ++ a ++ 0x100#16) 31 = true; simp only [BitVec.getLsbD_append]; rfl
theorem segw (d : BitVec 5) (a : BitVec 5) (b : BitVec 5) : Statement (.segw d a b) := by show BitVec.getLsbD (0x33#6 ++ d ++ a ++ b ++ 0x140#11) 31 = true; simp only [BitVec.getLsbD_append]; rfl
theorem mxq (a : BitVec 5) (b : BitVec 5) : Statement (.mxq a b) := by show BitVec.getLsbD (0x680#11 ++ a ++ b ++ 0x0#11) 31 = true; simp only [BitVec.getLsbD_append]; rfl
theorem mxd (n : BitVec 3) (a : BitVec 5) (b : BitVec 5) : Statement (.mxd n a b) := by show BitVec.getLsbD (0xD0#8 ++ n ++ a ++ b ++ 0x40#11) 31 = true; simp only [BitVec.getLsbD_append]; rfl
theorem xfc (a : BitVec 5) (b : BitVec 5) : Statement (.xfc a b) := by show BitVec.getLsbD (0x680#11 ++ a ++ b ++ 0x80#11) 31 = true; simp only [BitVec.getLsbD_append]; rfl
theorem evx (a : BitVec 5) (b : BitVec 5) : Statement (.evx a b) := by show BitVec.getLsbD (0x680#11 ++ a ++ b ++ 0xC0#11) 31 = true; simp only [BitVec.getLsbD_append]; rfl
theorem cplan (d : BitVec 5) (a : BitVec 5) : Statement (.cplan d a) := by show BitVec.getLsbD (0x34#6 ++ d ++ a ++ 0x100#16) 31 = true; simp only [BitVec.getLsbD_append]; rfl
theorem ctrig (a : BitVec 5) (b : BitVec 5) : Statement (.ctrig a b) := by show BitVec.getLsbD (0x680#11 ++ a ++ b ++ 0x140#11) 31 = true; simp only [BitVec.getLsbD_append]; rfl
theorem cseal (d : BitVec 5) (a : BitVec 5) (b : BitVec 5) : Statement (.cseal d a b) := by show BitVec.getLsbD (0x35#6 ++ d ++ a ++ b ++ 0x0#11) 31 = true; simp only [BitVec.getLsbD_append]; rfl
theorem cmani (a : BitVec 5) (b : BitVec 5) : Statement (.cmani a b) := by show BitVec.getLsbD (0x6A0#11 ++ a ++ b ++ 0x40#11) 31 = true; simp only [BitVec.getLsbD_append]; rfl
theorem cabort (a : BitVec 5) : Statement (.cabort a) := by show BitVec.getLsbD (0x6A0#11 ++ a ++ 0x80#16) 31 = true; simp only [BitVec.getLsbD_append]; rfl
theorem crr (d : BitVec 5) (c : BitVec 12) : Statement (.crr d c) := by show BitVec.getLsbD (0x36#6 ++ d ++ c ++ 0x0#9) 31 = true; simp only [BitVec.getLsbD_append]; rfl
theorem crw (d : BitVec 5) (c : BitVec 12) : Statement (.crw d c) := by show BitVec.getLsbD (0x36#6 ++ d ++ c ++ 0x1#9) 31 = true; simp only [BitVec.getLsbD_append]; rfl
theorem trap (c : BitVec 6) : Statement (.trap c) := by show BitVec.getLsbD (0x3700000#26 ++ c) 31 = true; simp only [BitVec.getLsbD_append]; rfl
theorem tlbiPage (a : BitVec 5) : Statement (.tlbiPage a) := by show BitVec.getLsbD (0x6E0#11 ++ a ++ 0x80#16) 31 = true; simp only [BitVec.getLsbD_append]; rfl
theorem tlbiAsid (a : BitVec 5) : Statement (.tlbiAsid a) := by show BitVec.getLsbD (0x6E0#11 ++ a ++ 0x81#16) 31 = true; simp only [BitVec.getLsbD_append]; rfl
theorem tlbiAll (a : BitVec 5) : Statement (.tlbiAll a) := by show BitVec.getLsbD (0x6E0#11 ++ a ++ 0x82#16) 31 = true; simp only [BitVec.getLsbD_append]; rfl
theorem c16Mov (d : BitVec 5) (a : BitVec 5) : Statement (.c16Mov d a) := by show BitVec.getLsbD (0x0#5 ++ d ++ 0x0#1 ++ a) 15 = false; simp only [BitVec.getLsbD_append]; rfl
theorem c16Add (d : BitVec 5) (a : BitVec 5) : Statement (.c16Add d a) := by show BitVec.getLsbD (0x1#5 ++ d ++ 0x0#1 ++ a) 15 = false; simp only [BitVec.getLsbD_append]; rfl
theorem c16Sub (d : BitVec 5) (a : BitVec 5) : Statement (.c16Sub d a) := by show BitVec.getLsbD (0x2#5 ++ d ++ 0x0#1 ++ a) 15 = false; simp only [BitVec.getLsbD_append]; rfl
theorem c16And (d : BitVec 5) (a : BitVec 5) : Statement (.c16And d a) := by show BitVec.getLsbD (0x3#5 ++ d ++ 0x0#1 ++ a) 15 = false; simp only [BitVec.getLsbD_append]; rfl
theorem c16Or (d : BitVec 5) (a : BitVec 5) : Statement (.c16Or d a) := by show BitVec.getLsbD (0x4#5 ++ d ++ 0x0#1 ++ a) 15 = false; simp only [BitVec.getLsbD_append]; rfl
theorem c16Xor (d : BitVec 5) (a : BitVec 5) : Statement (.c16Xor d a) := by show BitVec.getLsbD (0x5#5 ++ d ++ 0x0#1 ++ a) 15 = false; simp only [BitVec.getLsbD_append]; rfl
theorem c16Addi (d : BitVec 5) (i : BitVec 6) : Statement (.c16Addi d i) := by show BitVec.getLsbD (0x6#5 ++ d ++ i) 15 = false; simp only [BitVec.getLsbD_append]; rfl
theorem c16Liz (d : BitVec 5) (i : BitVec 6) : Statement (.c16Liz d i) := by show BitVec.getLsbD (0x7#5 ++ d ++ i) 15 = false; simp only [BitVec.getLsbD_append]; rfl
theorem c16Shli (d : BitVec 5) (n : BitVec 6) : Statement (.c16Shli d n) := by show BitVec.getLsbD (0x8#5 ++ d ++ n) 15 = false; simp only [BitVec.getLsbD_append]; rfl
theorem c16Shri (d : BitVec 5) (n : BitVec 6) : Statement (.c16Shri d n) := by show BitVec.getLsbD (0x9#5 ++ d ++ n) 15 = false; simp only [BitVec.getLsbD_append]; rfl
theorem c16Srai (d : BitVec 5) (n : BitVec 6) : Statement (.c16Srai d n) := by show BitVec.getLsbD (0xA#5 ++ d ++ n) 15 = false; simp only [BitVec.getLsbD_append]; rfl
theorem c16Ldd (d : BitVec 5) (a : BitVec 5) : Statement (.c16Ldd d a) := by show BitVec.getLsbD (0xB#5 ++ d ++ 0x0#1 ++ a) 15 = false; simp only [BitVec.getLsbD_append]; rfl
theorem c16Std (d : BitVec 5) (a : BitVec 5) : Statement (.c16Std d a) := by show BitVec.getLsbD (0xC#5 ++ d ++ 0x0#1 ++ a) 15 = false; simp only [BitVec.getLsbD_append]; rfl
theorem aAdd (d : BitVec 4) (a : BitVec 4) (b : BitVec 4) : Statement (.aAdd d a b) := by show BitVec.getLsbD (0x20#6 ++ d ++ a ++ b ++ 0x0#14) 31 = true; simp only [BitVec.getLsbD_append]; rfl
theorem aSub (d : BitVec 4) (a : BitVec 4) (b : BitVec 4) : Statement (.aSub d a b) := by show BitVec.getLsbD (0x20#6 ++ d ++ a ++ b ++ 0x1#14) 31 = true; simp only [BitVec.getLsbD_append]; rfl
theorem aAnd (d : BitVec 4) (a : BitVec 4) (b : BitVec 4) : Statement (.aAnd d a b) := by show BitVec.getLsbD (0x20#6 ++ d ++ a ++ b ++ 0x2#14) 31 = true; simp only [BitVec.getLsbD_append]; rfl
theorem aOr (d : BitVec 4) (a : BitVec 4) (b : BitVec 4) : Statement (.aOr d a b) := by show BitVec.getLsbD (0x20#6 ++ d ++ a ++ b ++ 0x3#14) 31 = true; simp only [BitVec.getLsbD_append]; rfl
theorem aXor (d : BitVec 4) (a : BitVec 4) (b : BitVec 4) : Statement (.aXor d a b) := by show BitVec.getLsbD (0x20#6 ++ d ++ a ++ b ++ 0x4#14) 31 = true; simp only [BitVec.getLsbD_append]; rfl
theorem aShl (d : BitVec 4) (a : BitVec 4) (b : BitVec 4) : Statement (.aShl d a b) := by show BitVec.getLsbD (0x20#6 ++ d ++ a ++ b ++ 0x5#14) 31 = true; simp only [BitVec.getLsbD_append]; rfl
theorem aShr (d : BitVec 4) (a : BitVec 4) (b : BitVec 4) : Statement (.aShr d a b) := by show BitVec.getLsbD (0x20#6 ++ d ++ a ++ b ++ 0x6#14) 31 = true; simp only [BitVec.getLsbD_append]; rfl
theorem aSra (d : BitVec 4) (a : BitVec 4) (b : BitVec 4) : Statement (.aSra d a b) := by show BitVec.getLsbD (0x20#6 ++ d ++ a ++ b ++ 0x7#14) 31 = true; simp only [BitVec.getLsbD_append]; rfl
theorem aMul (d : BitVec 4) (a : BitVec 4) (b : BitVec 4) : Statement (.aMul d a b) := by show BitVec.getLsbD (0x20#6 ++ d ++ a ++ b ++ 0x8#14) 31 = true; simp only [BitVec.getLsbD_append]; rfl
theorem aMin (d : BitVec 4) (a : BitVec 4) (b : BitVec 4) : Statement (.aMin d a b) := by show BitVec.getLsbD (0x20#6 ++ d ++ a ++ b ++ 0x9#14) 31 = true; simp only [BitVec.getLsbD_append]; rfl
theorem aMax (d : BitVec 4) (a : BitVec 4) (b : BitVec 4) : Statement (.aMax d a b) := by show BitVec.getLsbD (0x20#6 ++ d ++ a ++ b ++ 0xA#14) 31 = true; simp only [BitVec.getLsbD_append]; rfl
theorem aSlt (d : BitVec 4) (a : BitVec 4) (b : BitVec 4) : Statement (.aSlt d a b) := by show BitVec.getLsbD (0x20#6 ++ d ++ a ++ b ++ 0xB#14) 31 = true; simp only [BitVec.getLsbD_append]; rfl
theorem aSltu (d : BitVec 4) (a : BitVec 4) (b : BitVec 4) : Statement (.aSltu d a b) := by show BitVec.getLsbD (0x20#6 ++ d ++ a ++ b ++ 0xC#14) 31 = true; simp only [BitVec.getLsbD_append]; rfl
theorem aAddi (d : BitVec 4) (a : BitVec 4) (i : BitVec 14) : Statement (.aAddi d a i) := by show BitVec.getLsbD (0x21#6 ++ d ++ a ++ 0x0#4 ++ i) 31 = true; simp only [BitVec.getLsbD_append]; rfl
theorem aLiz (d : BitVec 4) (i : BitVec 16) (p : BitVec 2) : Statement (.aLiz d i p) := by show BitVec.getLsbD (0x22#6 ++ d ++ i ++ p ++ 0x0#4) 31 = true; simp only [BitVec.getLsbD_append]; rfl
theorem aLik (d : BitVec 4) (i : BitVec 16) (p : BitVec 2) : Statement (.aLik d i p) := by show BitVec.getLsbD (0x22#6 ++ d ++ i ++ p ++ 0x1#4) 31 = true; simp only [BitVec.getLsbD_append]; rfl
theorem aShli (d : BitVec 4) (a : BitVec 4) (n : BitVec 6) : Statement (.aShli d a n) := by show BitVec.getLsbD (0x23#6 ++ d ++ a ++ 0x0#12 ++ n) 31 = true; simp only [BitVec.getLsbD_append]; rfl
theorem aShri (d : BitVec 4) (a : BitVec 4) (n : BitVec 6) : Statement (.aShri d a n) := by show BitVec.getLsbD (0x23#6 ++ d ++ a ++ 0x40#12 ++ n) 31 = true; simp only [BitVec.getLsbD_append]; rfl
theorem aSrai (d : BitVec 4) (a : BitVec 4) (n : BitVec 6) : Statement (.aSrai d a n) := by show BitVec.getLsbD (0x23#6 ++ d ++ a ++ 0x80#12 ++ n) 31 = true; simp only [BitVec.getLsbD_append]; rfl
theorem ldq (a : BitVec 4) (b : BitVec 4) (q : BitVec 3) (k : BitVec 2) (n : BitVec 9) : Statement (.ldq a b q k n) := by show BitVec.getLsbD (0x240#10 ++ a ++ b ++ q ++ k ++ n) 31 = true; simp only [BitVec.getLsbD_append]; rfl
theorem ldq2 (a : BitVec 4) (b : BitVec 4) (q : BitVec 3) (k : BitVec 2) (s : BitVec 9) : Statement (.ldq2 a b q k s) := by show BitVec.getLsbD (0x250#10 ++ a ++ b ++ q ++ k ++ s) 31 = true; simp only [BitVec.getLsbD_append]; rfl
theorem stq (a : BitVec 4) (b : BitVec 4) (q : BitVec 2) (k : BitVec 2) (n : BitVec 9) : Statement (.stq a b q k n) := by show BitVec.getLsbD (0x260#10 ++ a ++ b ++ 0x0#1 ++ q ++ k ++ n) 31 = true; simp only [BitVec.getLsbD_append]; rfl
theorem stqnt (a : BitVec 4) (b : BitVec 4) (q : BitVec 2) (k : BitVec 2) (n : BitVec 9) : Statement (.stqnt a b q k n) := by show BitVec.getLsbD (0x270#10 ++ a ++ b ++ 0x0#1 ++ q ++ k ++ n) 31 = true; simp only [BitVec.getLsbD_append]; rfl
theorem gather (a : BitVec 4) (b : BitVec 4) (q : BitVec 3) (k : BitVec 2) (e : BitVec 9) : Statement (.gather a b q k e) := by show BitVec.getLsbD (0x280#10 ++ a ++ b ++ q ++ k ++ e) 31 = true; simp only [BitVec.getLsbD_append]; rfl
theorem scatter (a : BitVec 4) (b : BitVec 4) (q : BitVec 2) (k : BitVec 2) (e : BitVec 9) : Statement (.scatter a b q k e) := by show BitVec.getLsbD (0x290#10 ++ a ++ b ++ 0x0#1 ++ q ++ k ++ e) 31 = true; simp only [BitVec.getLsbD_append]; rfl
theorem ldsr (a : BitVec 4) (q : BitVec 3) (k : BitVec 2) : Statement (.ldsr a q k) := by show BitVec.getLsbD (0x2A0#10 ++ a ++ 0x0#4 ++ q ++ k ++ 0x0#9) 31 = true; simp only [BitVec.getLsbD_append]; rfl
theorem pfc (a : BitVec 4) (b : BitVec 4) (k : BitVec 2) : Statement (.pfc a b k) := by show BitVec.getLsbD (0x2B0#10 ++ a ++ b ++ 0x0#3 ++ k ++ 0x0#9) 31 = true; simp only [BitVec.getLsbD_append]; rfl
theorem aLdb (d : BitVec 4) (a : BitVec 4) (k : BitVec 2) (o : BitVec 9) : Statement (.aLdb d a k o) := by show BitVec.getLsbD (0x2C#6 ++ d ++ a ++ 0x0#7 ++ k ++ o) 31 = true; simp only [BitVec.getLsbD_append]; rfl
theorem aLdbu (d : BitVec 4) (a : BitVec 4) (k : BitVec 2) (o : BitVec 9) : Statement (.aLdbu d a k o) := by show BitVec.getLsbD (0x2C#6 ++ d ++ a ++ 0x1#7 ++ k ++ o) 31 = true; simp only [BitVec.getLsbD_append]; rfl
theorem aLdh (d : BitVec 4) (a : BitVec 4) (k : BitVec 2) (o : BitVec 9) : Statement (.aLdh d a k o) := by show BitVec.getLsbD (0x2C#6 ++ d ++ a ++ 0x2#7 ++ k ++ o) 31 = true; simp only [BitVec.getLsbD_append]; rfl
theorem aLdhu (d : BitVec 4) (a : BitVec 4) (k : BitVec 2) (o : BitVec 9) : Statement (.aLdhu d a k o) := by show BitVec.getLsbD (0x2C#6 ++ d ++ a ++ 0x3#7 ++ k ++ o) 31 = true; simp only [BitVec.getLsbD_append]; rfl
theorem aLdw (d : BitVec 4) (a : BitVec 4) (k : BitVec 2) (o : BitVec 9) : Statement (.aLdw d a k o) := by show BitVec.getLsbD (0x2C#6 ++ d ++ a ++ 0x4#7 ++ k ++ o) 31 = true; simp only [BitVec.getLsbD_append]; rfl
theorem aLdwu (d : BitVec 4) (a : BitVec 4) (k : BitVec 2) (o : BitVec 9) : Statement (.aLdwu d a k o) := by show BitVec.getLsbD (0x2C#6 ++ d ++ a ++ 0x5#7 ++ k ++ o) 31 = true; simp only [BitVec.getLsbD_append]; rfl
theorem aLdd (d : BitVec 4) (a : BitVec 4) (k : BitVec 2) (o : BitVec 9) : Statement (.aLdd d a k o) := by show BitVec.getLsbD (0x2C#6 ++ d ++ a ++ 0x6#7 ++ k ++ o) 31 = true; simp only [BitVec.getLsbD_append]; rfl
theorem aStb (a : BitVec 4) (b : BitVec 4) (k : BitVec 2) (o : BitVec 9) : Statement (.aStb a b k o) := by show BitVec.getLsbD (0x2D0#10 ++ a ++ b ++ 0x0#3 ++ k ++ o) 31 = true; simp only [BitVec.getLsbD_append]; rfl
theorem aSth (a : BitVec 4) (b : BitVec 4) (k : BitVec 2) (o : BitVec 9) : Statement (.aSth a b k o) := by show BitVec.getLsbD (0x2D0#10 ++ a ++ b ++ 0x1#3 ++ k ++ o) 31 = true; simp only [BitVec.getLsbD_append]; rfl
theorem aStw (a : BitVec 4) (b : BitVec 4) (k : BitVec 2) (o : BitVec 9) : Statement (.aStw a b k o) := by show BitVec.getLsbD (0x2D0#10 ++ a ++ b ++ 0x2#3 ++ k ++ o) 31 = true; simp only [BitVec.getLsbD_append]; rfl
theorem aStd (a : BitVec 4) (b : BitVec 4) (k : BitVec 2) (o : BitVec 9) : Statement (.aStd a b k o) := by show BitVec.getLsbD (0x2D0#10 ++ a ++ b ++ 0x3#3 ++ k ++ o) 31 = true; simp only [BitVec.getLsbD_append]; rfl
theorem sqp (b : BitVec 4) : Statement (.sqp b) := by show BitVec.getLsbD (0x2E00#14 ++ b ++ 0x0#14) 31 = true; simp only [BitVec.getLsbD_append]; rfl
theorem ldsq (a : BitVec 4) (k : BitVec 2) (o : BitVec 9) : Statement (.ldsq a k o) := by show BitVec.getLsbD (0x2E0#10 ++ a ++ 0x1#7 ++ k ++ o) 31 = true; simp only [BitVec.getLsbD_append]; rfl
theorem aBeqz (a : BitVec 4) (o : BitVec 14) : Statement (.aBeqz a o) := by show BitVec.getLsbD (0x2F0#10 ++ a ++ 0x0#4 ++ o) 31 = true; simp only [BitVec.getLsbD_append]; rfl
theorem aBnez (a : BitVec 4) (o : BitVec 14) : Statement (.aBnez a o) := by show BitVec.getLsbD (0x2F1#10 ++ a ++ 0x0#4 ++ o) 31 = true; simp only [BitVec.getLsbD_append]; rfl
theorem aBltz (a : BitVec 4) (o : BitVec 14) : Statement (.aBltz a o) := by show BitVec.getLsbD (0x2F2#10 ++ a ++ 0x0#4 ++ o) 31 = true; simp only [BitVec.getLsbD_append]; rfl
theorem aBgez (a : BitVec 4) (o : BitVec 14) : Statement (.aBgez a o) := by show BitVec.getLsbD (0x2F3#10 ++ a ++ 0x0#4 ++ o) 31 = true; simp only [BitVec.getLsbD_append]; rfl
theorem aBlez (a : BitVec 4) (o : BitVec 14) : Statement (.aBlez a o) := by show BitVec.getLsbD (0x2F4#10 ++ a ++ 0x0#4 ++ o) 31 = true; simp only [BitVec.getLsbD_append]; rfl
theorem aBgtz (a : BitVec 4) (o : BitVec 14) : Statement (.aBgtz a o) := by show BitVec.getLsbD (0x2F5#10 ++ a ++ 0x0#4 ++ o) 31 = true; simp only [BitVec.getLsbD_append]; rfl
theorem aJmp (o : BitVec 22) : Statement (.aJmp o) := by show BitVec.getLsbD (0x300#10 ++ o) 31 = true; simp only [BitVec.getLsbD_append]; rfl
theorem cset (d : BitVec 4) (a : BitVec 4) (b : BitVec 4) (c : Cnd) : Statement (.cset d a b c) := by show BitVec.getLsbD (0x31#6 ++ d ++ a ++ b ++ cndCode c ++ 0x0#11) 31 = true; simp only [BitVec.getLsbD_append]; rfl
theorem a16Add (d : BitVec 4) (a : BitVec 4) : Statement (.a16Add d a) := by show BitVec.getLsbD (0x0#4 ++ d ++ a ++ 0x0#4) 15 = false; simp only [BitVec.getLsbD_append]; rfl
theorem a16Sub (d : BitVec 4) (a : BitVec 4) : Statement (.a16Sub d a) := by show BitVec.getLsbD (0x1#4 ++ d ++ a ++ 0x0#4) 15 = false; simp only [BitVec.getLsbD_append]; rfl
theorem a16Addi (d : BitVec 4) (i : BitVec 8) : Statement (.a16Addi d i) := by show BitVec.getLsbD (0x2#4 ++ d ++ i) 15 = false; simp only [BitVec.getLsbD_append]; rfl
theorem a16Mov (d : BitVec 4) (a : BitVec 4) : Statement (.a16Mov d a) := by show BitVec.getLsbD (0x3#4 ++ d ++ a ++ 0x0#4) 15 = false; simp only [BitVec.getLsbD_append]; rfl
theorem a16Shli (d : BitVec 4) (n : BitVec 4) : Statement (.a16Shli d n) := by show BitVec.getLsbD (0x4#4 ++ d ++ 0x0#4 ++ n) 15 = false; simp only [BitVec.getLsbD_append]; rfl
theorem a16Liz (d : BitVec 4) (i : BitVec 8) : Statement (.a16Liz d i) := by show BitVec.getLsbD (0x5#4 ++ d ++ i) 15 = false; simp only [BitVec.getLsbD_append]; rfl
theorem vnop (c : BitVec 18) : Statement (.vnop c) := trivial
theorem vadd (d : BitVec 6) (a : BitVec 6) (b : BitVec 6) (q : BitVec 3) (t : VTy) : Statement (.vadd d a b q t) := trivial
theorem vsub (d : BitVec 6) (a : BitVec 6) (b : BitVec 6) (q : BitVec 3) (t : VTy) : Statement (.vsub d a b q t) := trivial
theorem vmul (d : BitVec 6) (a : BitVec 6) (b : BitVec 6) (q : BitVec 3) (t : VTy) : Statement (.vmul d a b q t) := trivial
theorem vmulh (d : BitVec 6) (a : BitVec 6) (b : BitVec 6) (q : BitVec 3) (t : VTy) : Statement (.vmulh d a b q t) := trivial
theorem vfma (d : BitVec 6) (a : BitVec 6) (b : BitVec 6) (q : BitVec 3) (t : VTy) : Statement (.vfma d a b q t) := trivial
theorem vfms (d : BitVec 6) (a : BitVec 6) (b : BitVec 6) (q : BitVec 3) (t : VTy) : Statement (.vfms d a b q t) := trivial
theorem vmin (d : BitVec 6) (a : BitVec 6) (b : BitVec 6) (q : BitVec 3) (t : VTy) : Statement (.vmin d a b q t) := trivial
theorem vmax (d : BitVec 6) (a : BitVec 6) (b : BitVec 6) (q : BitVec 3) (t : VTy) : Statement (.vmax d a b q t) := trivial
theorem vand (d : BitVec 6) (a : BitVec 6) (b : BitVec 6) (q : BitVec 3) (t : VTy) : Statement (.vand d a b q t) := trivial
theorem vor (d : BitVec 6) (a : BitVec 6) (b : BitVec 6) (q : BitVec 3) (t : VTy) : Statement (.vor d a b q t) := trivial
theorem vxor (d : BitVec 6) (a : BitVec 6) (b : BitVec 6) (q : BitVec 3) (t : VTy) : Statement (.vxor d a b q t) := trivial
theorem vshl (d : BitVec 6) (a : BitVec 6) (b : BitVec 6) (q : BitVec 3) (t : VTy) : Statement (.vshl d a b q t) := trivial
theorem vshr (d : BitVec 6) (a : BitVec 6) (b : BitVec 6) (q : BitVec 3) (t : VTy) : Statement (.vshr d a b q t) := trivial
theorem vadds (d : BitVec 6) (a : BitVec 6) (b : BitVec 6) (q : BitVec 3) (t : VTy) : Statement (.vadds d a b q t) := trivial
theorem vsubs (d : BitVec 6) (a : BitVec 6) (b : BitVec 6) (q : BitVec 3) (t : VTy) : Statement (.vsubs d a b q t) := trivial
theorem vabs (d : BitVec 6) (a : BitVec 6) (q : BitVec 3) (t : VTy) : Statement (.vabs d a q t) := trivial
theorem vneg (d : BitVec 6) (a : BitVec 6) (q : BitVec 3) (t : VTy) : Statement (.vneg d a q t) := trivial
theorem vnot (d : BitVec 6) (a : BitVec 6) (q : BitVec 3) (t : VTy) : Statement (.vnot d a q t) := trivial
theorem vmov (d : BitVec 6) (a : BitVec 6) (q : BitVec 3) : Statement (.vmov d a q) := trivial
theorem vexp2 (d : BitVec 6) (a : BitVec 6) (q : BitVec 3) (t : VTy) : Statement (.vexp2 d a q t) := trivial
theorem vlog2 (d : BitVec 6) (a : BitVec 6) (q : BitVec 3) (t : VTy) : Statement (.vlog2 d a q t) := trivial
theorem vrcp (d : BitVec 6) (a : BitVec 6) (q : BitVec 3) (t : VTy) : Statement (.vrcp d a q t) := trivial
theorem vrsq (d : BitVec 6) (a : BitVec 6) (q : BitVec 3) (t : VTy) : Statement (.vrsq d a q t) := trivial
theorem vrcpf (d : BitVec 6) (a : BitVec 6) (q : BitVec 3) : Statement (.vrcpf d a q) := trivial
theorem vrsqf (d : BitVec 6) (a : BitVec 6) (q : BitVec 3) : Statement (.vrsqf d a q) := trivial
theorem vclz (d : BitVec 6) (a : BitVec 6) (q : BitVec 3) (t : VTy) : Statement (.vclz d a q t) := trivial
theorem vpopc (d : BitVec 6) (a : BitVec 6) (q : BitVec 3) (t : VTy) : Statement (.vpopc d a q t) := trivial
theorem vcmp (c : VCond) (p : BitVec 3) (a : BitVec 6) (b : BitVec 6) (q : BitVec 3) (t : VTy) : Statement (.vcmp c p a b q t) := trivial
theorem vsel (d : BitVec 6) (a : BitVec 6) (b : BitVec 6) (q : BitVec 3) (t : VTy) : Statement (.vsel d a b q t) := trivial
theorem pand (d : BitVec 3) (a : BitVec 3) (b : BitVec 3) : Statement (.pand d a b) := trivial
theorem por (d : BitVec 3) (a : BitVec 3) (b : BitVec 3) : Statement (.por d a b) := trivial
theorem pxor (d : BitVec 3) (a : BitVec 3) (b : BitVec 3) : Statement (.pxor d a b) := trivial
theorem pandn (d : BitVec 3) (a : BitVec 3) (b : BitVec 3) : Statement (.pandn d a b) := trivial
theorem pnot (d : BitVec 3) (a : BitVec 3) : Statement (.pnot d a) := trivial
theorem vcvt (d : BitVec 6) (a : BitVec 6) (s : VTy) (r : Rm) (t : VTy) : Statement (.vcvt d a s r t) := trivial
theorem vqmx (d : BitVec 6) (a : BitVec 6) (b : BitVec 6) (q : BitVec 3) (t : VTy) : Statement (.vqmx d a b q t) := trivial
theorem vdqmx (d : BitVec 4) (a : BitVec 6) (b : BitVec 6) (q : BitVec 3) (t : VTy) : Statement (.vdqmx d a b q t) := trivial
theorem vrsum (d : BitVec 6) (a : BitVec 6) (q : BitVec 3) (t : VTy) : Statement (.vrsum d a q t) := trivial
theorem vrmax (d : BitVec 6) (a : BitVec 6) (q : BitVec 3) (t : VTy) : Statement (.vrmax d a q t) := trivial
theorem vrmin (d : BitVec 6) (a : BitVec 6) (q : BitVec 3) (t : VTy) : Statement (.vrmin d a q t) := trivial
theorem vrargmax (d : BitVec 6) (a : BitVec 6) (q : BitVec 3) (t : VTy) : Statement (.vrargmax d a q t) := trivial
theorem vperm (d : BitVec 6) (a : BitVec 6) (b : BitVec 6) (q : BitVec 3) (t : VTy) : Statement (.vperm d a b q t) := trivial
theorem vshuf (d : BitVec 6) (a : BitVec 6) (p : BitVec 6) (q : BitVec 3) (t : VTy) : Statement (.vshuf d a p q t) := trivial
theorem vzip (d : BitVec 5) (a : BitVec 6) (b : BitVec 6) (q : BitVec 3) (t : VTy) : Statement (.vzip d a b q t) := trivial
theorem vunzip (d : BitVec 5) (a : BitVec 6) (b : BitVec 6) (q : BitVec 3) (t : VTy) : Statement (.vunzip d a b q t) := trivial
theorem vbcast (d : BitVec 6) (a : BitVec 6) (b : BitVec 6) (q : BitVec 3) (t : VTy) : Statement (.vbcast d a b q t) := trivial
theorem vslideu (d : BitVec 6) (a : BitVec 6) (c : BitVec 6) (q : BitVec 3) (t : VTy) : Statement (.vslideu d a c q t) := trivial
theorem vslided (d : BitVec 6) (a : BitVec 6) (c : BitVec 6) (q : BitVec 3) (t : VTy) : Statement (.vslided d a c q t) := trivial
theorem vwiden (d : BitVec 6) (a : BitVec 6) (u : VTy) (f : BitVec 2) (q : BitVec 3) (t : VTy) : Statement (.vwiden d a u f q t) := trivial
theorem vnarrow (d : BitVec 6) (a : BitVec 6) (s : VTy) (m : Bool) (q : BitVec 3) (t : VTy) : Statement (.vnarrow d a s m q t) := trivial
theorem vpop (d : BitVec 6) (q : BitVec 3) (x : BitVec 3) : Statement (.vpop d q x) := trivial
theorem vpush (q : BitVec 2) (a : BitVec 6) : Statement (.vpush q a) := trivial
theorem vsett (x : BitVec 3) (a : BitVec 6) : Statement (.vsett x a) := trivial
theorem vldc (k : BitVec 4) (a : BitVec 6) : Statement (.vldc k a) := trivial
theorem vrot (n : BitVec 5) : Statement (.vrot n) := trivial
theorem viota (d : BitVec 6) (a : BitVec 6) (b : BitVec 6) (q : BitVec 3) (t : VTy) : Statement (.viota d a b q t) := trivial
theorem mswait (d : BitVec 5) : Statement (.mswait d) := by show BitVec.getLsbD (0x36#6 ++ d ++ 0x004#12 ++ 1#9) 31 = true; simp only [BitVec.getLsbD_append]; rfl
theorem mssig (d : BitVec 5) : Statement (.mssig d) := by show BitVec.getLsbD (0x36#6 ++ d ++ 0x005#12 ++ 1#9) 31 = true; simp only [BitVec.getLsbD_append]; rfl
theorem xevwait (d : BitVec 5) : Statement (.xevwait d) := by show BitVec.getLsbD (0x36#6 ++ d ++ 0x008#12 ++ 1#9) 31 = true; simp only [BitVec.getLsbD_append]; rfl
theorem xevsig (d : BitVec 5) : Statement (.xevsig d) := by show BitVec.getLsbD (0x36#6 ++ d ++ 0x009#12 ++ 1#9) 31 = true; simp only [BitVec.getLsbD_append]; rfl
theorem rago (d : BitVec 5) : Statement (.rago d) := by show BitVec.getLsbD (0x36#6 ++ d ++ 0x00C#12 ++ 1#9) 31 = true; simp only [BitVec.getLsbD_append]; rfl
theorem rares (d : BitVec 5) : Statement (.rares d) := by show BitVec.getLsbD (0x36#6 ++ d ++ 0x00D#12 ++ 0#9) 31 = true; simp only [BitVec.getLsbD_append]; rfl
theorem sq (d : BitVec 5) : Statement (.sq d) := by show BitVec.getLsbD (0x36#6 ++ d ++ 0x002#12 ++ 0#9) 31 = true; simp only [BitVec.getLsbD_append]; rfl
theorem cnopen (d : BitVec 5) : Statement (.cnopen d) := by show BitVec.getLsbD (0x36#6 ++ d ++ 0x00F#12 ++ 1#9) 31 = true; simp only [BitVec.getLsbD_append]; rfl
theorem cncur (d : BitVec 5) : Statement (.cncur d) := by show BitVec.getLsbD (0x36#6 ++ d ++ 0x00E#12 ++ 1#9) 31 = true; simp only [BitVec.getLsbD_append]; rfl
theorem cnbind (d : BitVec 5) : Statement (.cnbind d) := by show BitVec.getLsbD (0x36#6 ++ d ++ 0x010#12 ++ 1#9) 31 = true; simp only [BitVec.getLsbD_append]; rfl
theorem rqfin (d : BitVec 5) : Statement (.rqfin d) := by show BitVec.getLsbD (0x36#6 ++ d ++ 0x012#12 ++ 1#9) 31 = true; simp only [BitVec.getLsbD_append]; rfl
theorem kvcfgWrite (d : BitVec 5) : Statement (.kvcfgWrite d) := by show BitVec.getLsbD (0x36#6 ++ d ++ 0x306#12 ++ 1#9) 31 = true; simp only [BitVec.getLsbD_append]; rfl
theorem mdcfgWrite (d : BitVec 5) : Statement (.mdcfgWrite d) := by show BitVec.getLsbD (0x36#6 ++ d ++ 0x305#12 ++ 1#9) 31 = true; simp only [BitVec.getLsbD_append]; rfl
theorem mnqCiWrite (d : BitVec 5) : Statement (.mnqCiWrite d) := by show BitVec.getLsbD (0x36#6 ++ d ++ 0x30D#12 ++ 1#9) 31 = true; simp only [BitVec.getLsbD_append]; rfl
theorem wload (d : BitVec 5) : Statement (.wload d) := by show BitVec.getLsbD (0x36#6 ++ d ++ 0x31B#12 ++ 1#9) 31 = true; simp only [BitVec.getLsbD_append]; rfl
theorem dcnt (d : BitVec 5) (hi : Bool) : Statement (.dcnt d hi) := by show BitVec.getLsbD (0x36#6 ++ d ++ (if hi then 0x31D#12 else 0x31C#12) ++ 0#9) 31 = true; simp only [BitVec.getLsbD_append]; rfl
theorem therm (d : BitVec 5) : Statement (.therm d) := by show BitVec.getLsbD (0x36#6 ++ d ++ 0x31E#12 ++ 1#9) 31 = true; simp only [BitVec.getLsbD_append]; rfl
theorem rsttlenWrite (d : BitVec 5) : Statement (.rsttlenWrite d) := by show BitVec.getLsbD (0x36#6 ++ d ++ 0x304#12 ++ 1#9) 31 = true; simp only [BitVec.getLsbD_append]; rfl
theorem cqcfgWrite (d : BitVec 5) : Statement (.cqcfgWrite d) := by show BitVec.getLsbD (0x36#6 ++ d ++ 0x200#12 ++ 1#9) 31 = true; simp only [BitVec.getLsbD_append]; rfl
theorem scrcfgRead (d : BitVec 5) : Statement (.scrcfgRead d) := by show BitVec.getLsbD (0x36#6 ++ d ++ 0x318#12 ++ 0#9) 31 = true; simp only [BitVec.getLsbD_append]; rfl
theorem waite : Statement .waite := by show BitVec.getLsbD (0xC0000040#32) 31 = true; rfl
theorem rdv : Statement .rdv := by show BitVec.getLsbD (0xCC000080#32) 31 = true; rfl
theorem eretReturn : Statement .eretReturn := by show BitVec.getLsbD (0xDC000040#32) 31 = true; rfl
theorem eretResume : Statement .eretResume := by show BitVec.getLsbD (0xDC000041#32) 31 = true; rfl
theorem c16Nop : Statement .c16Nop := by show BitVec.getLsbD (0x6800#16) 15 = false; rfl
theorem a16Nop : Statement .a16Nop := by show BitVec.getLsbD (0x6000#16) 15 = false; rfl
theorem realn : Statement .realn := trivial
theorem writeBackLanding : Statement .writeBackLanding := trivial
theorem realnBoundary : Statement .realnBoundary := trivial
theorem blockFetch : Statement .blockFetch := trivial
theorem accessPerform : Statement .accessPerform := trivial
theorem waiteWake : Statement .waiteWake := trivial
theorem rdvComplete : Statement .rdvComplete := trivial
theorem exitEnd : Statement .exitEnd := trivial
theorem yieldEnd : Statement .yieldEnd := trivial
theorem segwComplete : Statement .segwComplete := trivial
theorem ringWaitComplete : Statement .ringWaitComplete := trivial
theorem queueWaitComplete : Statement .queueWaitComplete := trivial
theorem jobTake : Statement .jobTake := trivial
theorem recordPromotion : Statement .recordPromotion := trivial
theorem heldPushEntry : Statement .heldPushEntry := trivial
theorem recordWindowStore : Statement .recordWindowStore := trivial
theorem admissionWindowStore : Statement .admissionWindowStore := trivial
theorem admissionHeldEntry : Statement .admissionHeldEntry := trivial
theorem allocationWindowRead : Statement .allocationWindowRead := trivial
theorem launchEntryFire : Statement .launchEntryFire := trivial
theorem preempt : Statement .preempt := trivial
theorem preemptionFreeze : Statement .preemptionFreeze := trivial
theorem engineFaultDelivery : Statement .engineFaultDelivery := trivial
theorem descriptorLoad : Statement .descriptorLoad := trivial
theorem mnop : Statement .mnop := trivial
theorem mma : Statement .mma := trivial
theorem mmax : Statement .mmax := trivial
theorem zeroz : Statement .zeroz := trivial
theorem loadz : Statement .loadz := trivial
theorem storez : Statement .storez := trivial
theorem drainz : Statement .drainz := trivial
theorem drainq : Statement .drainq := trivial
theorem glz : Statement .glz := trivial
theorem atsc : Statement .atsc := trivial
theorem atsoInit : Statement .atsoInit := trivial
theorem atsoUpdate : Statement .atsoUpdate := trivial
theorem atsoFinal : Statement .atsoFinal := trivial
theorem atsoMass : Statement .atsoMass := trivial
theorem atav : Statement .atav := trivial
theorem atmc : Statement .atmc := trivial
theorem matrixCommandComplete : Statement .matrixCommandComplete := trivial
theorem chainStart : Statement .chainStart := trivial
theorem copy : Statement .copy := trivial
theorem copynd : Statement .copynd := trivial
theorem mcast : Statement .mcast := trivial
theorem fill : Statement .fill := trivial
theorem kvmove : Statement .kvmove := trivial
theorem kvshare : Statement .kvshare := trivial
theorem promote : Statement .promote := trivial
theorem demote : Statement .demote := trivial
theorem kvmark : Statement .kvmark := trivial
theorem loop : Statement .loop := trivial
theorem cond : Statement .cond := trivial
theorem note : Statement .note := trivial
theorem waitev : Statement .waitev := trivial
theorem commandRetire : Statement .commandRetire := trivial
theorem evscan : Statement .evscan := trivial
theorem evcompact : Statement .evcompact := trivial
theorem evdecay : Statement .evdecay := trivial
theorem ringStationRun : Statement .ringStationRun := trivial
theorem ringStationStop : Statement .ringStationStop := trivial
theorem wloadComplete : Statement .wloadComplete := trivial
theorem rpair : Statement .rpair := trivial
theorem bypass : Statement .bypass := trivial
theorem tagPresentation : Statement .tagPresentation := trivial
theorem dispatchRound1 : Statement .dispatchRound1 := trivial
theorem frameClose : Statement .frameClose := trivial
theorem segmentLanding : Statement .segmentLanding := trivial
theorem landingAcknowledgement : Statement .landingAcknowledgement := trivial
theorem ackTimeoutResend : Statement .ackTimeoutResend := trivial
theorem slotPark : Statement .slotPark := trivial
theorem parkRetry : Statement .parkRetry := trivial
theorem scrub : Statement .scrub := trivial
theorem postedWrite : Statement .postedWrite := trivial
theorem slotReinject : Statement .slotReinject := trivial
theorem readRequest : Statement .readRequest := trivial
theorem readResponse : Statement .readResponse := trivial
theorem acknowledgement : Statement .acknowledgement := trivial
theorem remoteAtomic : Statement .remoteAtomic := trivial
theorem atomicResult : Statement .atomicResult := trivial
theorem planTransfer : Statement .planTransfer := trivial
theorem consignmentStore : Statement .consignmentStore := trivial
theorem timing : Statement .timing := trivial
theorem sync : Statement .sync := trivial
theorem failureNotice : Statement .failureNotice := trivial
theorem slotResendRequest : Statement .slotResendRequest := trivial
theorem linkError : Statement .linkError := trivial
theorem linkRetrainEnd : Statement .linkRetrainEnd := trivial
theorem mergedWrite : Statement .mergedWrite := trivial
theorem triggerWrite : Statement .triggerWrite := trivial
theorem planFiringStart : Statement .planFiringStart := trivial
theorem planFiringComplete : Statement .planFiringComplete := trivial
theorem planStall : Statement .planStall := trivial
theorem planHoldNotice : Statement .planHoldNotice := trivial
theorem planReleaseNotice : Statement .planReleaseNotice := trivial
theorem holdCeilingExpiry : Statement .holdCeilingExpiry := trivial
theorem planAbortNotice : Statement .planAbortNotice := trivial
theorem manifestEntry : Statement .manifestEntry := trivial
theorem confirmation : Statement .confirmation := trivial
theorem publishTime : Statement .publishTime := trivial
theorem publish : Statement .publish := trivial
theorem bondDrain : Statement .bondDrain := trivial
theorem censusNotice : Statement .censusNotice := trivial
theorem abortRequest : Statement .abortRequest := trivial
theorem abortNotice : Statement .abortNotice := trivial
theorem cnwaitExpiry : Statement .cnwaitExpiry := trivial
theorem destinationHoldExpiry : Statement .destinationHoldExpiry := trivial
theorem ethernetSend : Statement .ethernetSend := trivial
theorem ethernetWrite : Statement .ethernetWrite := trivial
theorem ethernetAck : Statement .ethernetAck := trivial
theorem contextTeardown : Statement .contextTeardown := trivial
theorem ethernetLinkDown : Statement .ethernetLinkDown := trivial
theorem ethernetAckTimeout : Statement .ethernetAckTimeout := trivial
theorem telemetryUpdate : Statement .telemetryUpdate := trivial
theorem deviceReset : Statement .deviceReset := trivial
theorem attestationRequest : Statement .attestationRequest := trivial
theorem ringcfgWrite : Statement .ringcfgWrite := trivial
theorem combiningBufferExpiry : Statement .combiningBufferExpiry := trivial
theorem orphanPlaceDiscard : Statement .orphanPlaceDiscard := trivial
theorem negativeAcknowledgement : Statement .negativeAcknowledgement := trivial
theorem planReservation : Statement .planReservation := trivial

end Sys2Proof.Laws.Encoding
end

