-- ==== Sys2Proof/Certificates/Slice0/Obligations.lean ====
section
/-!
DEFINITION. The statements about the model that are to be proved. Where a statement covers several instructions, a table above it gives
what the manual says of each, written from the manual's own words and not through the meanings.
-/
namespace Sys2Proof.Machine

/-! Scalar arithmetic. -/

/-- 1 or 0. -/
def ofBool (b : Bool) : W64 := if b then 1 else 0
/-- LIK (R195): bits [16p + 15 : 16p] are the immediate, the other 48 bits are those of the old value. -/
def likOf (w : W64) (x : BitVec 16) (p : BitVec 2) : W64 :=
  let y : W64 := x.setWidth 64
  if p = 0 then (w &&& (0xFFFFFFFFFFFF0000 : W64)) ||| y
  else if p = 1 then (w &&& (0xFFFFFFFF0000FFFF : W64)) ||| (y <<< 16)
  else if p = 2 then (w &&& (0xFFFF0000FFFFFFFF : W64)) ||| (y <<< 32)
  else (w &&& (0x0000FFFFFFFFFFFF : W64)) ||| (y <<< 48)
/-- Table 8-3, R194-R196: for an arithmetic word of the C-stream and the s-registers that it reads, its length in halfwords, its
destination and the result. -/
inductive AluC (r : BitVec 5 → W64) : Instr → Nat → BitVec 5 → W64 → Prop where
  | cAdd (d a b) : AluC r (.cAdd d a b) 2 d (r a + r b)
  | cSub (d a b) : AluC r (.cSub d a b) 2 d (r a - r b)
  | cAnd (d a b) : AluC r (.cAnd d a b) 2 d (r a &&& r b)
  | cOr (d a b) : AluC r (.cOr d a b) 2 d (r a ||| r b)
  | cXor (d a b) : AluC r (.cXor d a b) 2 d (r a ^^^ r b)
  | andn (d a b) : AluC r (.andn d a b) 2 d (r a &&& ~~~ r b)
  | cShl (d a b) : AluC r (.cShl d a b) 2 d (r a <<< (r b &&& 63))
  | cShr (d a b) : AluC r (.cShr d a b) 2 d (r a >>> (r b &&& 63))
  | cSra (d a b) : AluC r (.cSra d a b) 2 d ((r a).sshiftRight ((r b &&& 63).toNat))
  | cMul (d a b) : AluC r (.cMul d a b) 2 d (BitVec.ofInt 64 ((r a).toInt * (r b).toInt))
  | mulh (d a b) : AluC r (.mulh d a b) 2 d (BitVec.ofInt 64 (((r a).toInt * (r b).toInt) >>> 64))
  | mulhu (d a b) : AluC r (.mulhu d a b) 2 d (BitVec.ofNat 64 (((r a).toNat * (r b).toNat) >>> 64))
  | div (d a b) : AluC r (.div d a b) 2 d (if r b = 0 then -1 else (r a).sdiv (r b))
  | divu (d a b) : AluC r (.divu d a b) 2 d (if r b = 0 then -1 else r a / r b)
  | rem (d a b) : AluC r (.rem d a b) 2 d (if r b = 0 then r a else (r a).srem (r b))
  | remu (d a b) : AluC r (.remu d a b) 2 d (if r b = 0 then r a else r a % r b)
  | cMin (d a b) : AluC r (.cMin d a b) 2 d (if (r b).slt (r a) then r b else r a)
  | cMax (d a b) : AluC r (.cMax d a b) 2 d (if (r b).slt (r a) then r a else r b)
  | minu (d a b) : AluC r (.minu d a b) 2 d (if (r b).ult (r a) then r b else r a)
  | maxu (d a b) : AluC r (.maxu d a b) 2 d (if (r b).ult (r a) then r a else r b)
  | clz (d a) : AluC r (.clz d a) 2 d (if r a = 0 then 64 else BitVec.ofNat 64 (63 - Nat.log2 (r a).toNat))
  | popc (d a) : AluC r (.popc d a) 2 d (BitVec.ofNat 64 ((List.range 64).countP fun k => (r a).getLsbD k))
  | seq (d a b) : AluC r (.seq d a b) 2 d (if r a = r b then 1 else 0)
  | sne (d a b) : AluC r (.sne d a b) 2 d (if r a = r b then 0 else 1)
  | cSlt (d a b) : AluC r (.cSlt d a b) 2 d (ofBool ((r a).slt (r b)))
  | cSltu (d a b) : AluC r (.cSltu d a b) 2 d (ofBool ((r a).ult (r b)))
  | sel (d a b) : AluC r (.sel d a b) 2 d (if r d = 0 then r b else r a)
  | cAddi (d a x) : AluC r (.cAddi d a x) 2 d (r a + x.signExtend 64)
  | andi (d a x) : AluC r (.andi d a x) 2 d (r a &&& x.setWidth 64)
  | ori (d a x) : AluC r (.ori d a x) 2 d (r a ||| x.setWidth 64)
  | xori (d a x) : AluC r (.xori d a x) 2 d (r a ^^^ x.setWidth 64)
  | cShli (d a n) : AluC r (.cShli d a n) 2 d (r a <<< n)
  | cShri (d a n) : AluC r (.cShri d a n) 2 d (r a >>> n)
  | cSrai (d a n) : AluC r (.cSrai d a n) 2 d ((r a).sshiftRight n.toNat)
  | slti (d a x) : AluC r (.slti d a x) 2 d (ofBool ((r a).slt (x.signExtend 64)))
  | sltiu (d a x) : AluC r (.sltiu d a x) 2 d (ofBool ((r a).ult (x.signExtend 64)))
  | cLiz (d x p) : AluC r (.cLiz d x p) 2 d (BitVec.ofNat 64 (x.toNat * 2 ^ (16 * p.toNat)))
  | cLik (d x p) : AluC r (.cLik d x p) 2 d (likOf (r d) x p)
  | c16Mov (d a) : AluC r (.c16Mov d a) 1 d (r a)
  | c16Add (d a) : AluC r (.c16Add d a) 1 d (r d + r a)
  | c16Sub (d a) : AluC r (.c16Sub d a) 1 d (r d - r a)
  | c16And (d a) : AluC r (.c16And d a) 1 d (r d &&& r a)
  | c16Or (d a) : AluC r (.c16Or d a) 1 d (r d ||| r a)
  | c16Xor (d a) : AluC r (.c16Xor d a) 1 d (r d ^^^ r a)
  | c16Addi (d x) : AluC r (.c16Addi d x) 1 d (r d + x.signExtend 64)
  | c16Liz (d x) : AluC r (.c16Liz d x) 1 d (x.signExtend 64)
  | c16Shli (d n) : AluC r (.c16Shli d n) 1 d (r d <<< n)
  | c16Shri (d n) : AluC r (.c16Shri d n) 1 d (r d >>> n)
  | c16Srai (d n) : AluC r (.c16Srai d n) 1 d ((r d).sshiftRight n.toNat)
  | c16Nop : AluC r (.c16Nop) 1 0 (0)
/-- The word of an instruction has issued and written v to s[d]: every other register, every other field of the job, everything outside
the job and every byte of memory stand as they stood; the C-stream has moved n halfwords on. -/
def WroteC (s t : State) (n : Nat) (d : BitVec 5) (v : W64) : Prop :=
  (∀ r, t.rs r = if r = 0 then 0 else if r = d then v else s.rs r) ∧ t.job.c = s.job.c.advance .c n ∧
  { t.job with s := s.job.s, c := s.job.c } = s.job ∧ JobOnly s t

/-- Table 8-3, R230, R231: the same of an arithmetic word of the A-stream. -/
inductive AluA (r : BitVec 4 → W64) : Instr → Nat → BitVec 4 → W64 → Prop where
  | aAdd (d a b) : AluA r (.aAdd d a b) 2 d (r a + r b)
  | aSub (d a b) : AluA r (.aSub d a b) 2 d (r a - r b)
  | aAnd (d a b) : AluA r (.aAnd d a b) 2 d (r a &&& r b)
  | aOr (d a b) : AluA r (.aOr d a b) 2 d (r a ||| r b)
  | aXor (d a b) : AluA r (.aXor d a b) 2 d (r a ^^^ r b)
  | aShl (d a b) : AluA r (.aShl d a b) 2 d (r a <<< (r b &&& 63))
  | aShr (d a b) : AluA r (.aShr d a b) 2 d (r a >>> (r b &&& 63))
  | aSra (d a b) : AluA r (.aSra d a b) 2 d ((r a).sshiftRight ((r b &&& 63).toNat))
  | aMul (d a b) : AluA r (.aMul d a b) 2 d (BitVec.ofInt 64 ((r a).toInt * (r b).toInt))
  | aMin (d a b) : AluA r (.aMin d a b) 2 d (if (r b).slt (r a) then r b else r a)
  | aMax (d a b) : AluA r (.aMax d a b) 2 d (if (r b).slt (r a) then r a else r b)
  | aSlt (d a b) : AluA r (.aSlt d a b) 2 d (ofBool ((r a).slt (r b)))
  | aSltu (d a b) : AluA r (.aSltu d a b) 2 d (ofBool ((r a).ult (r b)))
  | aAddi (d a x) : AluA r (.aAddi d a x) 2 d (r a + x.signExtend 64)
  | aShli (d a n) : AluA r (.aShli d a n) 2 d (r a <<< n)
  | aShri (d a n) : AluA r (.aShri d a n) 2 d (r a >>> n)
  | aSrai (d a n) : AluA r (.aSrai d a n) 2 d ((r a).sshiftRight n.toNat)
  | aLiz (d x p) : AluA r (.aLiz d x p) 2 d (BitVec.ofNat 64 (x.toNat * 2 ^ (16 * p.toNat)))
  | aLik (d x p) : AluA r (.aLik d x p) 2 d (likOf (r d) x p)
  | cset (d a b c) : AluA r (.cset d a b c) 2 d (ofBool (match c with
      | .eq => decide (r a = r b) | .ne => decide (r a ≠ r b) | .lt => (r a).slt (r b) | .ge => (r b).sle (r a)
      | .ltu => (r a).ult (r b) | .geu => (r b).ule (r a)))
  | a16Add (d a) : AluA r (.a16Add d a) 1 d (r d + r a)
  | a16Sub (d a) : AluA r (.a16Sub d a) 1 d (r d - r a)
  | a16Addi (d x) : AluA r (.a16Addi d x) 1 d (r d + x.signExtend 64)
  | a16Mov (d a) : AluA r (.a16Mov d a) 1 d (r a)
  | a16Shli (d n) : AluA r (.a16Shli d n) 1 d (r d <<< n)
  | a16Liz (d x) : AluA r (.a16Liz d x) 1 d (x.signExtend 64)
  | a16Nop : AluA r (.a16Nop) 1 0 (0)
/-- The same of an A-stream word that wrote a[d]. -/
def WroteA (s t : State) (n : Nat) (d : BitVec 4) (v : W64) : Prop :=
  (∀ r, t.ra r = if r = 0 then 0 else if r = d then v else s.ra r) ∧ t.job.a = s.job.a.advance .a n ∧
  { t.job with ar := s.job.ar, a := s.job.a } = s.job ∧ JobOnly s t

/-- R197, R231, R163: for a branch word, its stream, the value that it compares with zero (0 where it always transfers), whether it
transfers, and its offset in words of four bytes. -/
inductive BranchOf (s : State) : Instr → Strm → Prop → Int → Prop where
  | cBeqz (a o) : BranchOf s (.cBeqz a o) .c (s.rs a = 0) (o.toInt)
  | cBnez (a o) : BranchOf s (.cBnez a o) .c (s.rs a ≠ 0) (o.toInt)
  | cBltz (a o) : BranchOf s (.cBltz a o) .c ((s.rs a).slt 0) (o.toInt)
  | cBgez (a o) : BranchOf s (.cBgez a o) .c (!(s.rs a).slt 0) (o.toInt)
  | cBlez (a o) : BranchOf s (.cBlez a o) .c ((s.rs a).sle 0) (o.toInt)
  | cBgtz (a o) : BranchOf s (.cBgtz a o) .c (!(s.rs a).sle 0) (o.toInt)
  | cJmp (o) : BranchOf s (.cJmp o) .c (true) (o.toInt)
  | aBeqz (a o) : BranchOf s (.aBeqz a o) .a (s.ra a = 0) (o.toInt)
  | aBnez (a o) : BranchOf s (.aBnez a o) .a (s.ra a ≠ 0) (o.toInt)
  | aBltz (a o) : BranchOf s (.aBltz a o) .a ((s.ra a).slt 0) (o.toInt)
  | aBgez (a o) : BranchOf s (.aBgez a o) .a (!(s.ra a).slt 0) (o.toInt)
  | aBlez (a o) : BranchOf s (.aBlez a o) .a ((s.ra a).sle 0) (o.toInt)
  | aBgtz (a o) : BranchOf s (.aBgtz a o) .a (!(s.ra a).sle 0) (o.toInt)
  | aJmp (o) : BranchOf s (.aJmp o) .a (true) (o.toInt)
/-- A stream stands at the header at an address, its block still to be fetched. -/
def AtHeader (b : Blk) (x : Nat) : Prop :=
  b.mode = .fetch ∧ b.hdr = x ∧ b.body = [] ∧ b.pos = 0 ∧ b.left = 0 ∧ b.fresh = true ∧ b.wait = none ∧ b.park = none


/-! Memory words of the C- and A-streams. -/

/-- R199, R196: for a load of the C-stream, its destination, effective address (R191), bytes, length in halfwords, whether it extends
the sign. -/
inductive LoadC (s : State) : Instr → BitVec 5 → Int → Nat → Nat → Bool → Prop where
  | cLdb (d a o) : LoadC s (.cLdb d a o) d ((s.rs a).toInt + o.toInt) 1 2 true
  | cLdbu (d a o) : LoadC s (.cLdbu d a o) d ((s.rs a).toInt + o.toInt) 1 2 false
  | cLdh (d a o) : LoadC s (.cLdh d a o) d ((s.rs a).toInt + o.toInt) 2 2 true
  | cLdhu (d a o) : LoadC s (.cLdhu d a o) d ((s.rs a).toInt + o.toInt) 2 2 false
  | cLdw (d a o) : LoadC s (.cLdw d a o) d ((s.rs a).toInt + o.toInt) 4 2 true
  | cLdwu (d a o) : LoadC s (.cLdwu d a o) d ((s.rs a).toInt + o.toInt) 4 2 false
  | cLdd (d a o) : LoadC s (.cLdd d a o) d ((s.rs a).toInt + o.toInt) 8 2 false
  | c16Ldd (d a) : LoadC s (.c16Ldd d a) d (s.rs a).toInt 8 1 false
/-- R200, R196: for a store of the C-stream, its value, effective address, bytes, length in halfwords. -/
inductive StoreC (s : State) : Instr → W64 → Int → Nat → Nat → Prop where
  | cStb (d a o) : StoreC s (.cStb d a o) (s.rs d) ((s.rs a).toInt + o.toInt) 1 2
  | cSth (d a o) : StoreC s (.cSth d a o) (s.rs d) ((s.rs a).toInt + o.toInt) 2 2
  | cStw (d a o) : StoreC s (.cStw d a o) (s.rs d) ((s.rs a).toInt + o.toInt) 4 2
  | cStd (d a o) : StoreC s (.cStd d a o) (s.rs d) ((s.rs a).toInt + o.toInt) 8 2
  | c16Std (d a) : StoreC s (.c16Std d a) (s.rs d) (s.rs a).toInt 8 1
/-- R201, Table 7-7: for an atomic of the C-stream, its sub-operation, destination (which holds the expected value of ATCAS), address
register, operand register and whether it is 64 bits wide. -/
inductive AtomicC : Instr → Nat → BitVec 5 → BitVec 5 → BitVec 5 → Bool → Prop where
  | atadd (d a b w) : AtomicC (.atadd d a b w) 0 d a b w
  | atswp (d a b w) : AtomicC (.atswp d a b w) 1 d a b w
  | atcas (d a b w) : AtomicC (.atcas d a b w) 2 d a b w
  | atmin (d a b w) : AtomicC (.atmin d a b w) 3 d a b w
  | atmax (d a b w) : AtomicC (.atmax d a b w) 4 d a b w
  | atminu (d a b w) : AtomicC (.atminu d a b w) 5 d a b w
  | atmaxu (d a b w) : AtomicC (.atmaxu d a b w) 6 d a b w
/-- Every word that reads or writes one naturally aligned place of the cluster window: what it needs, where, how many bytes. -/
inductive CwWord (s : State) : Instr → Need → Int → Nat → Prop where
  | load (h : LoadC s i d ea n hw sg) : CwWord s i { rd := true } ea n
  | store (h : StoreC s i v ea n hw) : CwWord s i { w := true } ea n
  | atomic (h : AtomicC i op d a b w) : CwWord s i { rd := true, w := true } (s.rs a).toInt (if w then 8 else 4)
  | arm (a) : CwWord s (.arm a) { rd := true } (s.rs a).toInt 1
/-- R232: for a single load of the A-stream, its destination, alias class, effective address (R228), bytes, whether it extends the
sign. -/
inductive LoadA (s : State) : Instr → BitVec 4 → BitVec 2 → Int → Nat → Bool → Prop where
  | aLdb (d a k o) : LoadA s (.aLdb d a k o) d k ((s.ra a).toInt + o.toInt) 1 true
  | aLdbu (d a k o) : LoadA s (.aLdbu d a k o) d k ((s.ra a).toInt + o.toInt) 1 false
  | aLdh (d a k o) : LoadA s (.aLdh d a k o) d k ((s.ra a).toInt + o.toInt) 2 true
  | aLdhu (d a k o) : LoadA s (.aLdhu d a k o) d k ((s.ra a).toInt + o.toInt) 2 false
  | aLdw (d a k o) : LoadA s (.aLdw d a k o) d k ((s.ra a).toInt + o.toInt) 4 true
  | aLdwu (d a k o) : LoadA s (.aLdwu d a k o) d k ((s.ra a).toInt + o.toInt) 4 false
  | aLdd (d a k o) : LoadA s (.aLdd d a k o) d k ((s.ra a).toInt + o.toInt) 8 false
/-- R232: for a single store of the A-stream, the register stored, alias class, effective address, bytes. -/
inductive StoreA (s : State) : Instr → BitVec 4 → BitVec 2 → Int → Nat → Prop where
  | aStb (a b k o) : StoreA s (.aStb a b k o) b k ((s.ra a).toInt + o.toInt) 1
  | aSth (a b k o) : StoreA s (.aSth a b k o) b k ((s.ra a).toInt + o.toInt) 2
  | aStw (a b k o) : StoreA s (.aStw a b k o) b k ((s.ra a).toInt + o.toInt) 4
  | aStd (a b k o) : StoreA s (.aStd a b k o) b k ((s.ra a).toInt + o.toInt) 8
/-- An access has joined those of the job that have not performed. -/
def Joined (s t : State) (st : Strm) (cls : Nat) (k : AccK) (runs : List (Nat × Nat)) (data : List Byte) : Prop :=
  ∃ x : Acc, t.job.acc = s.job.acc ++ [x] ∧ x.strm = st ∧ x.cls = cls ∧ x.kind = k ∧ x.runs = runs ∧ x.data = data ∧
    x.sent = false ∧ x.id = s.fresh
/-- A C-stream word of hw halfwords has issued an access and changed nothing else but the model's counter of numbers. -/
def IssuedC (s t : State) (k : AccK) (runs : List (Nat × Nat)) (data : List Byte) (hw : Nat) : Prop :=
  JobOnlyF s t ∧ Joined s t .c 0 k runs data ∧ { t.job with acc := s.job.acc, c := s.job.c } = s.job ∧
  t.job.c = s.job.c.advance .c hw
/-- The A-stream's word has made one row or entry of total: it goes on with the next one, or it has issued (R227, R247). -/
def RowDone (s t : State) (total : Nat) : Prop :=
  (s.job.a.prog + 1 < total → t.job.a = { s.job.a with prog := s.job.a.prog + 1, sub := 0, rowAt := [] }) ∧
  (total ≤ s.job.a.prog + 1 → t.job.a = s.job.a.advance .a 2)
/-- A word has reserved the next place of a dq and issued the access that fills it (R234, R236). -/
def ReservedDq (u t : State) (cls q : Nat) (runs : List (Nat × Nat)) : Prop :=
  JobOnlyF u t ∧ spGet [] t.job.dq q = spGet [] u.job.dq q ++ [{ id := u.fresh, seen := u.job.seq }] ∧ (∀ p, p ≠ q → spGet [] t.job.dq p = spGet [] u.job.dq p) ∧
  ∃ tile, Joined u t .a cls (.dq q tile) runs []

/-- R239: where index j of an index entry leads, from a base and under a shift; none for a null index. -/
def elemAddr (base : W64) (sh : Nat) (ix : VReg) (j : Nat) : Option Int :=
  let i := (ix.extractLsb' (32 * j) 32).toInt
  if i = -(2 ^ 31) then none else some (base.toInt + i * 2 ^ sh)
/-- The bytes that memory serves for runs; a null run's are zero (R239). -/
def runBytes (s : State) (rs : List (Nat × Nat)) : List Byte :=
  rs.flatMap fun r => if nullPa ≤ r.1 then List.replicate r.2 0 else s.peek r.1 r.2

/-- The job of a core but for its sticky event (R130), which a write of any agent to a monitored line may set. -/
def SameJobButEvent (j k : Job) : Prop := { k with evt := j.evt } = j

/-- Bytes are at an address, and every other byte is as it was. -/
def Wrote (u t : State) (p : Nat) (bs : List Byte) : Prop :=
  t.peek p bs.length = bs ∧ ∀ x, (x < p ∨ p + bs.length ≤ x) → t.byteAt x = u.byteAt x
/-- The status object at p has taken a state and a handle (Table 15-2), and no other byte has changed. -/
def StatusIs (s t : State) (p st h : Nat) : Prop := Wrote s t p (bytesOf 8 (st * 2 ^ 60 + h))

/-! Synchronisation, control registers, traps. -/

/-- R203: the sync object that an operand names is at physical address pa, u the state that the check of the address leaves. -/
def ObjAt (s u : State) (a : BitVec 5) (v : Bool) (need : Need) (pa : Nat) : Prop :=
  if v then ∃ n l, s.access need (s.rs a).toInt 8 8 = (.ok ((pa, n) :: l), u) else s.cw need (s.rs a).toInt 8 8 = .ok pa ∧ u = s
/-- No line that was lost is one that a release or fence of the C-stream at a scope waits on (R438). -/
def NoneLost (s : State) (sc : Scope) : Prop := ∀ l ∈ s.job.lost, s.lostWithin sc l = false
/-- R113, R112: the C-stream's stores that a release of an object covers, by number: those that touch a doubleword whose line no binding gives
to another object alone, or, as of a flagged FENCE, all. -/
def releasedBy (s : State) (all : Bool) (obj : Nat) : List Nat :=
  (s.job.acc.filter fun x => x.strm == .c && x.kind.isStore &&
    (all || x.runs.any fun r => (wordsOf r.1 r.2).any fun w =>
      s.job.binds.all (fun b => !(decide (b.lo ≤ w / 64 * 64) && decide (w / 64 * 64 < b.hi))) ||
      s.job.binds.any (fun b => b.obj == obj && decide (b.lo ≤ w / 64 * 64) && decide (w / 64 * 64 < b.hi)))).map Acc.id
/-- R118: the stores that happen before a release of an object through an earlier release of the job, by number: those that the release stores
among the ones that it covers have released, and those that a release of the job that has performed still waits for. -/
def releasedBefore (s : State) (all : Bool) (obj : Nat) : List Nat :=
  ((s.job.acc.filter fun x => (releasedBy s all obj).contains x.id).flatMap fun x => match x.kind with | .rel ds _ _ => ds | _ => []) ++
  (s.rels.filter fun r => r.core == s.me && r.job == s.job.id).flatMap fun r => r.deps
/-- R112: the lines from lo to hi are bound to an object, those that were bound to another no longer, and the newest 16 bindings stay. -/
def Bound (s t : State) (obj lo hi : Nat) : Prop :=
  ∃ kept, t.job.binds = kept.drop (kept.length - 16) ∧
    kept = (s.job.binds.filter fun q => decide (q.obj = obj ∨ hi ≤ q.lo ∨ q.hi ≤ lo)) ++ [{ lo := lo, hi := hi, obj := obj }]
/-- The word has issued and the C-stream has moved on; its job is otherwise the same, and so is everything outside it. -/
def PassedC (s t : State) : Prop := JobOnly s t ∧ { t.job with c := s.job.c } = s.job ∧ t.job.c = s.job.c.advance .c 2
/-- The C-stream has moved on and its job is otherwise the same but for its sticky event. -/
def MovedC (s t : State) : Prop := SameJobButEvent { s.job with c := s.job.c.advance .c 2 } t.job
/-- The counts that a mask names have gone by f; the others stand. -/
def CountsGo (t u : Sp Nat) (mask n : Nat) (f : Nat → Nat) : Prop :=
  ∀ k, spGet 0 u k = if k < n ∧ mask.testBit k = true then f (spGet 0 t k) else spGet 0 t k
/-- The control registers whose CRW is a step of its own (R223, Table 16-6). -/
inductive OwnCrw (d : BitVec 5) : Instr → Nat → Prop where
  | mswait : OwnCrw d (.mswait d) 0x004
  | mssig : OwnCrw d (.mssig d) 0x005
  | xevwait : OwnCrw d (.xevwait d) 0x008
  | xevsig : OwnCrw d (.xevsig d) 0x009
  | rago : OwnCrw d (.rago d) 0x00C
  | cncur : OwnCrw d (.cncur d) 0x00E
  | cnopen : OwnCrw d (.cnopen d) 0x00F
  | cnbind : OwnCrw d (.cnbind d) 0x010
  | rqfin : OwnCrw d (.rqfin d) 0x012
  | cqcfg : OwnCrw d (.cqcfgWrite d) 0x200
  | rsttlen : OwnCrw d (.rsttlenWrite d) 0x304
  | mdcfg : OwnCrw d (.mdcfgWrite d) 0x305
  | kvcfg : OwnCrw d (.kvcfgWrite d) 0x306
  | mnqCi : OwnCrw d (.mnqCiWrite d) 0x30D
  | wload : OwnCrw d (.wload d) 0x31B
  | therm : OwnCrw d (.therm d) 0x31E
  | crw (c : BitVec 12) : OwnCrw d (.crw d c) c.toNat
/-- The reads of control registers, the general one and those that are steps of their own, but for SQ and RARES. -/
inductive CrrWord (d : BitVec 5) : Instr → Nat → Prop where
  | crr (c : BitVec 12) : CrrWord d (.crr d c) c.toNat
  | scrcfg : CrrWord d (.scrcfgRead d) 0x318
  | dcnt (hi : Bool) : CrrWord d (.dcnt d hi) (if hi then 0x31D else 0x31C)

/-- Registers of Table 16-6 whose RW field is the low bits of the word and whose CRW has no other effect: address, width of the field, and
how the state holds them. -/
inductive PlainReg (s : State) : Nat → Nat → (State → W64) → Prop where
  | raopnd : PlainReg s 0x00A 64 (fun t => t.job.raopnd)
  | racmp : PlainReg s 0x00B 64 (fun t => t.job.racmp)
  | window (w : Nat) (h : w < 8) : PlainReg s (0x110 + 2 * w) 64 (fun t => t.core.reg (0x110 + 2 * w))
  | vectors : PlainReg s 0x202 32 (fun t => (t.clusterAt s.myCl).reg 0x202)
  | enqt : PlainReg s 0x309 32 (fun t => (t.dieAt (s.me / 384)).reg 0x309)
  | errq : PlainReg s 0x315 56 (fun t => (t.dieAt (s.me / 384)).reg 0x315)
  | park : PlainReg s 0x317 32 (fun t => (t.dieAt (s.me / 384)).reg 0x317)
/-- The C-stream has moved on, every s-register and all of memory are as they were. -/
def MovedOn (s t : State) : Prop := t.job.c = s.job.c.advance .c 2 ∧ (∀ r, t.rs r = s.rs r) ∧ ∀ a, memGet t.mem a = memGet s.mem a

/-- The C-stream has moved on; of the entries of the core's TLB and of its die's translation cache those that a test keeps are left, in order;
nothing else of a core or a die, and no byte of memory, has changed. -/
def Dropped (s t : State) (keep : TlbEnt → Bool) : Prop :=
  MovedOn s t ∧ { t.job with c := s.job.c } = s.job ∧ t.core = { s.core with job := t.job, tlb := s.core.tlb.filter keep } ∧
  t.dieAt s.here.die = { s.dieAt s.here.die with tcache := (s.dieAt s.here.die).tcache.filter keep } ∧
  (∀ n, n ≠ s.me → t.coreAt n = s.coreAt n) ∧ (∀ g, g ≠ s.here.die → t.dieAt g = s.dieAt g)
/-- R161: the header after a stream's block: the first 4-byte-aligned address at or after the end of the body. -/
def headerAfter (b : Blk) : Nat :=
  let e := b.hdr + 4 + 2 * (b.word.toNat / 2 ^ 16 % 2 ^ 12)
  e + (4 - e % 4) % 4
/-- A ring word finds its header at a physical address: the address is good, no earlier access holds the word back, no soft error, and there
is room for the load and the store that it counts as (Table 8-1). -/
def RingAt (s : State) (a : BitVec 5) (all : Bool) (pa : Nat) : Prop :=
  s.cw { rd := true, w := true } (s.rs a).toInt 256 256 = .ok pa ∧ s.ringHeld pa all = false ∧ s.ecc = [] ∧ pa + 256 ≤ 2 ^ 52 ∧
  s.job.loads .c < 8 ∧ s.job.stores .c < 16
/-- A ring word has replaced the header's bytes by h, written s[d] if it delivers a value, and issued. -/
def RingDone (s t : State) (pa : Nat) (h : List Byte) (d : Option (BitVec 5 × W64)) : Prop :=
  t.peek pa 256 = h ∧ (∀ x, x < pa ∨ pa + 256 ≤ x → t.byteAt x = s.byteAt x) ∧ t.job.c = s.job.c.advance .c 2 ∧
  ∀ r, t.rs r = match d with | some (d, v) => if r = 0 then 0 else if r = d then v else s.rs r | none => s.rs r

/-! Jobs and records. -/

/-- R29: an address lies in the 32 bytes of the place that the next record of a level of a cluster takes in tile store. -/
def InPlace (s : State) (cl l x : Nat) : Prop :=
  let p := clWin cl ((s.clusterAt cl).placeAt l ((s.clusterAt cl).freeAt l))
  p ≤ x ∧ x < p + 32

/-- A level of a cluster's queues has gained a record at its end; its other levels stand. q says what of the record is known. -/
def Gained (s t : State) (cl l : Nat) (q : QRec → Prop) : Prop :=
  (∃ x, (t.clusterAt cl).lvl l = (s.clusterAt cl).lvl l ++ [x] ∧ q x) ∧ ∀ k, k ≠ l → (t.clusterAt cl).lvl k = (s.clusterAt cl).lvl k
/-- R74, R7: an admission record as it is kept, bits [63] and [53] of its second doubleword and [63:32] of its third zero. -/
def admKept (r : AdmRec) : AdmRec := { r with d1 := r.d1 &&& 0x7FDFFFFFFFFFFFFF, d2 := r.d2 &&& 0xFFFFFFFF }
/-- The core of the step holds no job any more. -/
def CoreIdle (t : State) : Prop := t.core.job = {} ∧ t.core.preq = false

/-! The V-stream. -/

/-- A V word has issued (R147, R172): one landing, due lat ck later, has joined those that are pending, ORD has counted the word, the stream
has moved on, VRB with it where the block rotates (R160), and its ck is over; nothing else has changed. -/
def IssuedV (s t : State) (lat : Nat) (l : Landing) : Prop :=
  JobOnly s t ∧ t.job.land = s.job.land ++ [{ l with rem := lat, pc := s.pcOf .v, ord := s.job.ord }] ∧ t.job.ord = s.job.ord + 1 ∧
  t.job.v = s.job.v.advance .v 2 ∧ t.job.vrb = (if s.job.v.rotates 2 = true then s.job.vrb + 1 else s.job.vrb) ∧
  t.job.ckOn = false ∧ { t.job with land := s.job.land, ord := s.job.ord, v := s.job.v, vrb := s.job.vrb, ckOn := s.job.ckOn } = s.job
/-- Element i of a type of the register that a name stands for (R249, R169). -/
def el (s : State) (t : VTy) (v : BitVec 6) (i : Nat) : Nat := vElem (vtyWidth t) (s.rv v.toNat) i
/-- The same as the integer it stands for, and as the exact value. -/
def elI (s : State) (t : VTy) (v : BitVec 6) (i : Nat) : Int := intOf t (el s t v i)
def elF (s : State) (t : VTy) (v : BitVec 6) (i : Nat) : Machine.Num := (fmtOf t).val (el s t v i)
/-- wrap and sat (R141) in the width and signedness of a type. -/
def wrapTo (t : VTy) (x : Int) : Nat × Fl := (wrapW (vtyWidth t) x, 0)
def satTo (t : VTy) (x : Int) : Nat × Fl := (satW (vtyWidth t) (isSigned t) x, 0)
/-- round_fp to nearest even of an exact result, with the flag that made it. -/
def rneTo (t : VTy) (x : Machine.Num × Fl) : Nat × Fl := (((fmtOf t).rne x.1).1, ((fmtOf t).rne x.1).2 ||| x.2)
/-- The canonical NaN where one of the values is a NaN, else what is given; no flag (R254, Table 10-3). -/
def unlessNan (t : VTy) (nan : Bool) (x : Nat) : Nat × Fl := (if nan then (fmtOf t).nan else x, 0)
/-- Tables 10-1, 10-3, 11-1, R255, R260, R262, R268-R272, R274: for a word that computes each element of one register: the register it names,
the predicate that governs it, the width of an element, the latency, and the result and flags of element i. -/
inductive VOp (s : State) : Instr → BitVec 6 → BitVec 3 → Nat → Nat → (Nat → Nat × Fl) → Prop where
  | vaddF (d a b q t) (h : isF t) : VOp s (.vadd d a b q t) d q (vtyWidth t) 4 fun i => rneTo t (addNum (elF s t a i) (elF s t b i))
  | vaddI (d a b q t) (h : isI t) : VOp s (.vadd d a b q t) d q (vtyWidth t) 2 fun i => wrapTo t (elI s t a i + elI s t b i)
  | vsubF (d a b q t) (h : isF t) : VOp s (.vsub d a b q t) d q (vtyWidth t) 4 fun i => rneTo t (addNum (elF s t a i) (elF s t b i).neg)
  | vsubI (d a b q t) (h : isI t) : VOp s (.vsub d a b q t) d q (vtyWidth t) 2 fun i => wrapTo t (elI s t a i - elI s t b i)
  | vmulF (d a b q t) (h : isF t) : VOp s (.vmul d a b q t) d q (vtyWidth t) 4 fun i => rneTo t (mulNum (elF s t a i) (elF s t b i))
  | vmulI (d a b q t) (h : isI t) : VOp s (.vmul d a b q t) d q (vtyWidth t) 4 fun i => wrapTo t (elI s t a i * elI s t b i)
  | vmulh (d a b q t) (h : isI t) : VOp s (.vmulh d a b q t) d q (vtyWidth t) 4 fun i =>
      wrapTo t (elI s t a i * elI s t b i / 2 ^ vtyWidth t)
  | vminF (d a b q t) (h : isF t) : VOp s (.vmin d a b q t) d q (vtyWidth t) 3 fun i =>
      unlessNan t ((elF s t a i).isNan || (elF s t b i).isNan) (if ltSigned (elF s t b i) (elF s t a i) then el s t b i else el s t a i)
  | vminI (d a b q t) (h : isI t) : VOp s (.vmin d a b q t) d q (vtyWidth t) 2 fun i => wrapTo t (min (elI s t a i) (elI s t b i))
  | vmaxF (d a b q t) (h : isF t) : VOp s (.vmax d a b q t) d q (vtyWidth t) 3 fun i =>
      unlessNan t ((elF s t a i).isNan || (elF s t b i).isNan) (if ltSigned (elF s t a i) (elF s t b i) then el s t b i else el s t a i)
  | vmaxI (d a b q t) (h : isI t) : VOp s (.vmax d a b q t) d q (vtyWidth t) 2 fun i => wrapTo t (max (elI s t a i) (elI s t b i))
  | vand (d a b q t) (h : isI t) : VOp s (.vand d a b q t) d q (vtyWidth t) 2 fun i => (el s t a i &&& el s t b i, 0)
  | vor (d a b q t) (h : isI t) : VOp s (.vor d a b q t) d q (vtyWidth t) 2 fun i => (el s t a i ||| el s t b i, 0)
  | vxor (d a b q t) (h : isI t) : VOp s (.vxor d a b q t) d q (vtyWidth t) 2 fun i => (el s t a i ^^^ el s t b i, 0)
  | vshl (d a b q t) (h : isI t) : VOp s (.vshl d a b q t) d q (vtyWidth t) 2 fun i =>
      if el s t b i < vtyWidth t then wrapTo t (elI s t a i * 2 ^ el s t b i) else (0, 0)
  | vshrN (d a b q t) (h : isI t) (u : isSigned t = false) : VOp s (.vshr d a b q t) d q (vtyWidth t) 2 fun i =>
      (el s t a i / 2 ^ el s t b i, 0)
  | vshrI (d a b q t) (h : isI t) (u : isSigned t = true) : VOp s (.vshr d a b q t) d q (vtyWidth t) 2 fun i =>
      wrapTo t (elI s t a i / 2 ^ min (el s t b i) (vtyWidth t - 1))
  | vadds (d a b q t) (h : isI t) : VOp s (.vadds d a b q t) d q (vtyWidth t) 2 fun i => satTo t (elI s t a i + elI s t b i)
  | vsubs (d a b q t) (h : isI t) : VOp s (.vsubs d a b q t) d q (vtyWidth t) 2 fun i => satTo t (elI s t a i - elI s t b i)
  | vfmaF (d a b q t) (h : isF t) : VOp s (.vfma d a b q t) d q (vtyWidth t) 5 fun i =>
      rneTo t (fmaNum (elF s t a i) (elF s t b i) (elF s t d i))
  | vfmaI (d a b q t) (h : isI t) : VOp s (.vfma d a b q t) d q (vtyWidth t) 4 fun i =>
      wrapTo t (elI s t a i * elI s t b i + elI s t d i)
  | vfmsF (d a b q t) (h : isF t) : VOp s (.vfms d a b q t) d q (vtyWidth t) 5 fun i =>
      rneTo t (fmaNum (elF s t a i) (elF s t b i) (elF s t d i).neg)
  | vfmsI (d a b q t) (h : isI t) : VOp s (.vfms d a b q t) d q (vtyWidth t) 4 fun i =>
      wrapTo t (elI s t a i * elI s t b i - elI s t d i)
  | vabsF (d a q t) (h : isF t) : VOp s (.vabs d a q t) d q (vtyWidth t) 2 fun i =>
      unlessNan t (elF s t a i).isNan (el s t a i % 2 ^ (vtyWidth t - 1))
  | vabsI (d a q t) (h : isS t) : VOp s (.vabs d a q t) d q (vtyWidth t) 2 fun i => wrapTo t (elI s t a i).natAbs
  | vnegF (d a q t) (h : isF t) : VOp s (.vneg d a q t) d q (vtyWidth t) 2 fun i =>
      unlessNan t (elF s t a i).isNan (el s t a i ^^^ 2 ^ (vtyWidth t - 1))
  | vnegI (d a q t) (h : isS t) : VOp s (.vneg d a q t) d q (vtyWidth t) 2 fun i => wrapTo t (-elI s t a i)
  | vnot (d a q t) (h : isI t) : VOp s (.vnot d a q t) d q (vtyWidth t) 2 fun i => (el s t a i ^^^ (2 ^ vtyWidth t - 1), 0)
  | vmov (d a q) : VOp s (.vmov d a q) d q 8 2 fun i => (el s .n8 a i, 0)
  | vexp2 (d a q t) (h : isF t) : VOp s (.vexp2 d a q t) d q (vtyWidth t) 8 fun i => (fmtOf t).special .exp2 (el s t a i)
  | vlog2 (d a q t) (h : isF t) : VOp s (.vlog2 d a q t) d q (vtyWidth t) 8 fun i => (fmtOf t).special .log2 (el s t a i)
  | vrcp (d a q t) (h : isF t) : VOp s (.vrcp d a q t) d q (vtyWidth t) 10 fun i => (fmtOf t).special .rcp (el s t a i)
  | vrsq (d a q t) (h : isF t) : VOp s (.vrsq d a q t) d q (vtyWidth t) 10 fun i => (fmtOf t).special .rsq (el s t a i)
  | vrcpf (d a q) : VOp s (.vrcpf d a q) d q 32 6 fun i => fmtF32.special .rcpf (el s .f32 a i)
  | vrsqf (d a q) : VOp s (.vrsqf d a q) d q 32 6 fun i => fmtF32.special .rsqf (el s .f32 a i)
  | vclz (d a q t) (h : isI t) : VOp s (.vclz d a q t) d q (vtyWidth t) 2 fun i =>
      (if el s t a i = 0 then vtyWidth t else vtyWidth t - 1 - Nat.log2 (el s t a i), 0)
  | vpopc (d a q t) (h : isI t) : VOp s (.vpopc d a q t) d q (vtyWidth t) 2 fun i =>
      ((List.range (vtyWidth t)).countP fun k => (el s t a i).testBit k, 0)
  | viota (d a b q t) (h : isI t) : VOp s (.viota d a b q t) d q (vtyWidth t) 2 fun i => wrapTo t (elI s t a 0 + i * elI s t b 0)
  | vsel (d a b q t) : VOp s (.vsel d a b q t) d 0 (vtyWidth t) 2 fun i =>
      (if (s.rq q).getLsbD i then el s t a i else el s t b i, 0)
  | vperm (d a b q t) : VOp s (.vperm d a b q t) d q (vtyWidth t) 3 fun i =>
      let g := min (4096 / vtyWidth t) (2 ^ vtyWidth t)
      (el s t a (i / g * g + el s t b i % g), 0)
  | vshuf (d a p q t) (h : p.toNat < 12) : VOp s (.vshuf d a p q t) d q (vtyWidth t) 3 fun i =>
      let n := 4096 / vtyWidth t
      (el s t a (if p = 0 then n - 1 - i else i ^^^ ([0, 1, 2, 4, 8, 16, 32, n / 2, 3, 7, 15, 31].getD p.toNat 0)), 0)
  | vbcast (d a b q t) : VOp s (.vbcast d a b q t) d q (vtyWidth t) 3 fun _ =>
      (el s t a (((s.rv b.toNat).setWidth 16).toNat % (4096 / vtyWidth t)), 0)
  | vslideu (d a c q t) : VOp s (.vslideu d a c q t) d q (vtyWidth t) 3 fun i =>
      (if c.toNat ≤ i then el s t a (i - c.toNat) else el s t d (4096 / vtyWidth t - c.toNat + i), 0)
  | vslided (d a c q t) : VOp s (.vslided d a c q t) d q (vtyWidth t) 3 fun i =>
      (if i + c.toNat < 4096 / vtyWidth t then el s t a (i + c.toNat) else el s t d (i + c.toNat - 4096 / vtyWidth t), 0)
  | vnarrow (d a u m q t) (h : narrowOk t u) : VOp s (.vnarrow d a u m q t) d q (vtyWidth t) 3 fun i =>
      let k := vtyWidth u / vtyWidth t
      let x := intOf u (vElem (vtyWidth u) (s.rv (a.toNat + i % k)) (i / k))
      if m then satTo t x else wrapTo t x
/-- R171, R266, R270, R273: for a word that writes k registers from a base on: the predicate, width, latency, the predicate bit that governs
place p of register r of them, and the result and flags of that place. -/
inductive VGroup (s : State) : Instr → Nat → Nat → BitVec 3 → Nat → Nat → (Nat → Nat → Nat) → (Nat → Nat → Nat × Fl) → Prop where
  | one (h : VOp s i d q w lat f) : VGroup s i d.toNat 1 q w lat (fun _ p => p) (fun _ p => f p)
  | vdqmx (d : BitVec 4) (a b q t) (h : isF t) : VGroup s (.vdqmx d a b q t) (4 * d.toNat) 4 q (vtyWidth t) 5 (fun r p => 4 * p + r) fun r p =>
      let e := fmtE2m1.val (vElem 4 (s.rv a.toNat) (4 * p + r))
      let c := vElem 8 (s.rv b.toNat) ((4 * p + r) / 32)
      if c = 0xFF then ((fmtOf t).nan, 0) else (fmtOf t).rne (e.scale ((c : Int) - 127))
  | vwiden (d a u f q t) (h : widenOk t u f) : VGroup s (.vwiden d a u f q t) d.toNat (widenK f) q (vtyWidth u) 3
      (fun r p => widenK f * p + r) fun r p => wrapTo u (elI s t a (widenK f * p + r))
  | vzip (d : BitVec 5) (a b q t) : VGroup s (.vzip d a b q t) (2 * d.toNat) 2 q (vtyWidth t) 3 (fun _ p => p) fun r p =>
      let k := r * (4096 / vtyWidth t) + p
      (if k % 2 = 0 then el s t a (k / 2) else el s t b (k / 2), 0)
  | vunzip (d : BitVec 5) (a b q t) : VGroup s (.vunzip d a b q t) (2 * d.toNat) 2 q (vtyWidth t) 3 (fun _ p => p) fun r p =>
      let n := 4096 / vtyWidth t
      (if 2 * p + r < n then el s t a (2 * p + r) else el s t b (2 * p + r - n), 0)
/-- The five flags of a landing are those that some active place raises. -/
def FlagsOf (fl : Fl) (raises : Fl → Prop) : Prop := ∀ j, fl.getLsbD j = true ↔ ∃ f, raises f ∧ f.getLsbD j = true
/-- Table 10-4: does a condition hold of two elements? -/
def CmpHolds (t : VTy) (c : VCond) (x y : Nat) : Prop :=
  if isF t then
    let a := (fmtOf t).val x
    let b := (fmtOf t).val y
    match c with
    | .eq => eqNum a b = true | .ne => eqNum a b = false | .lt => a.isNan = false ∧ b.isNan = false ∧ ltNum a b = true
    | .le => a.isNan = false ∧ b.isNan = false ∧ ltNum b a = false | .gt => a.isNan = false ∧ b.isNan = false ∧ ltNum b a = true
    | .ge => a.isNan = false ∧ b.isNan = false ∧ ltNum a b = false | .uo => a.isNan = true ∨ b.isNan = true
    | .od => a.isNan = false ∧ b.isNan = false
  else
    match c with
    | .eq => intOf t x = intOf t y | .ne => intOf t x ≠ intOf t y | .lt => intOf t x < intOf t y | .le => intOf t x ≤ intOf t y
    | .gt => intOf t y < intOf t x | .ge => intOf t y ≤ intOf t x | .uo => False | .od => True
/-- R261: what a predicate logic word makes of the predicates. -/
inductive PLog (s : State) : Instr → BitVec 3 → QReg → Prop where
  | pand (d a b) : PLog s (.pand d a b) d (s.rq a &&& s.rq b)
  | por (d a b) : PLog s (.por d a b) d (s.rq a ||| s.rq b)
  | pxor (d a b) : PLog s (.pxor d a b) d (s.rq a ^^^ s.rq b)
  | pandn (d a b) : PLog s (.pandn d a b) d (s.rq a &&& ~~~ (s.rq b))
  | pnot (d a) : PLog s (.pnot d a) d (~~~ (s.rq a))
/-- A word has issued that lands all 512 bytes of one register. -/
def WroteV (s t : State) (d : BitVec 6) (lat : Nat) (x : VReg) (fl : Fl) : Prop :=
  IssuedV s t lat { vs := [(physV d.toNat s.job.vrb, x, BitVec.allOnes 4096)], flags := fl }
/-- A lane of a reduction: the element where its bit is set, else the identity (R153). -/
def lane (s : State) (a : BitVec 6) (q : BitVec 3) (t : VTy) (ident : Nat) (i : Nat) : Nat :=
  if (s.rq q).getLsbD i then el s t a i else ident
/-- A V word that lands nothing has issued: VRB from b on, n ck for VNOP still to pass, no boundary awaited; its ck is over. -/
def PassedV (s t : State) (b : BitVec 5) (n : Nat) : Prop :=
  JobOnly s t ∧ t.job.ord = s.job.ord + 1 ∧ t.job.v = s.job.v.advance .v 2 ∧ t.job.vrb = (if s.job.v.rotates 2 = true then b + 1 else b) ∧
  t.job.vnop = n ∧ t.job.ckOn = false ∧
  { t.job with ord := s.job.ord, v := s.job.v, vrb := s.job.vrb, vnop := s.job.vnop, ckOn := s.job.ckOn } = s.job
/-- A pop of the matrix engine waits at a dq that no VPOP reached before (R280). -/
def engFirst (s : State) (q : Nat) : Bool := s.job.has .m && s.eng.popw.contains (q, false)
/-- The landings due in the ck that begins now, in the order of issue. -/
def dueNow (s : State) : List Landing := s.job.land.filter fun l => decide (l.rem ≤ 1)
/-- The landings due have been applied in issue order, the later of two writers of an element last (R172, R173). -/
def Landed (s : State) (j : Job) : Prop :=
  (∀ r, spGet 0 j.vr r = (((dueNow s).flatMap fun l => l.vs).filter fun p => p.1 == r).foldl
    (fun old p => (old &&& ~~~ p.2.2) ||| (p.2.1 &&& p.2.2)) (spGet 0 s.job.vr r)) ∧
  j.fps = (dueNow s).foldl (fun f l => f ||| l.flags.setWidth 64) s.job.fps ∧
  j.land = ((s.job.land.filter fun l => decide (1 < l.rem)).map fun l => { l with rem := l.rem - 1 }) ∧
  j.s = s.job.s ∧ j.ar = s.job.ar ∧ j.dq = s.job.dq ∧ j.sq = s.job.sq

/-! Engine pushes. -/

/-- R219: what the two words of a core's command queue push: whether decode refuses it (R181, R291), and the entry. -/
inductive MxPush (s : State) : Instr → Bool → MEnt → Prop where
  | mxq (a b) : MxPush s (.mxq a b) (cmdBad ((s.rs b).toNat * 2 ^ 64 + (s.rs a).toNat) s.job.sup) { desc := none, lo := s.rs a, hi := s.rs b }
  | mxd (n a b) : MxPush s (.mxd n a b) (descBad ((s.rs b).toNat * 2 ^ 64 + (s.rs a).toNat)) { desc := some n.toNat, lo := s.rs a, hi := s.rs b }
/-- R344: CPLAN reads a record at s[sa] that passes every check; b its bytes, u the state that the reads and translations leave. -/
def PlanRead (s : State) (a : BitVec 5) (b : List Byte) (u : State) : Prop :=
  ∃ r1 r2 tb s1 s2 s3 s4 x, (s.rs a).toNat < 2 ^ 53 ∧ (s.rs a).toNat % 256 = 0 ∧
    s.access { rd := true } (s.rs a).toInt 256 1 = (.ok r1, s1) ∧ s1.runsFree r1 = true ∧ s1.loadRuns s1.me r1 = (.ok b, s2) ∧
    planOk s2 s2.here.die b = true ∧ s2.access { rd := true } (pPeerTab b).toInt (8 * pNRank b) 1 = (.ok r2, s3) ∧
    s3.runsFree r2 = true ∧ s3.loadRuns s3.me r2 = (.ok tb, s4) ∧
    (∀ k < pNRank b, peerOk s4 s4.here.die (dwAt tb (8 * k)) = true) ∧ (pDonea b).toNat < 2 ^ 53 ∧
    s4.xlate { w := true } (pDonea b).toNat 8 = (x, u) ∧ (x = .motion ∨ ∃ pa, x = .ok pa)
/-- The release that a push makes of the C-stream's earlier stores at a scope (Table 5-2) has nothing to wait for. -/
def Releases (s : State) (sc : Scope) : Prop := NoneLost s sc ∧ s.releaseReady sc = true

/-! The matrix engine. -/

/-- The steps of the matrix engine on the command at the head: the commands that each takes, and its check (R285, R288, Table 12-3). -/
inductive EngCmd : Instr → (Nat → Bool) → (State → Nat → EChk) → Prop where
  | mnop : EngCmd .mnop (fun c => cOp c == 0) fun _ _ => .ok
  | mma : EngCmd .mma (fun c => cOp c == 1) fun s c => (opndCheck s (cK c) (opndA c)).and (opndCheck s (cK c) (opndB c))
  | mmax : EngCmd .mmax (fun c => cOp c == 2) fun s c => (opndCheck s (cK c) (opndA c)).and (opndCheck s (cK c) (opndB c))
  | zeroz : EngCmd .zeroz (fun c => cOp c == 3) fun _ _ => .ok
  | loadz : EngCmd .loadz (fun c => cOp c == 4) (rowsCheck { rd := true } fun _ => 4)
  | storez : EngCmd .storez (fun c => cOp c == 5) (rowsCheck { w := true } fun c => vtyWidth (storezTy c) / 8)
  | drainz : EngCmd .drainz (fun c => cOp c == 6) drainzCheck
  | drainq : EngCmd .drainq (fun c => cOp c == 7) drainqCheck
  | glz : EngCmd .glz (fun c => cOp c == 0x10) glzCheck
  | atsc : EngCmd .atsc (fun c => cOp c == 0x11) atscCheck
  | atsoInit : EngCmd .atsoInit (isAtso 0) fun _ _ => .ok
  | atsoUpdate : EngCmd .atsoUpdate (isAtso 1) fun _ _ => .ok
  | atsoFinal : EngCmd .atsoFinal (isAtso 2) fun _ _ => .ok
  | atsoMass : EngCmd .atsoMass (isAtso 3) fun _ _ => .ok
  | atav : EngCmd .atav (fun c => cOp c == 0x13) atavCheck
  | atmc : EngCmd .atmc (fun c => cOp c == 0x14) atmcCheck
/-- The command c at the head runs on in this step: the engine may act, the waits are taken, and the checks are passed, or were before the command
had its first effect (R285, R288). -/
def EngRuns (s : State) (i : Instr) (c : Nat) : Prop :=
  ∃ is chk, EngCmd i is chk ∧ s.eng.head = some c ∧ engActs s = true ∧ is c = true ∧ s.eng.step1 = true ∧
    (s.eng.prog ≠ 0 ∨ s.eng.clr = true ∨ chk s c = .ok)
/-- The flags of the command have gained those that something raises, NV, OF and NX, as MFLG holds them (R146, R286). -/
def FlagsGain (u t : State) (raises : Fl → Prop) : Prop :=
  ∀ k, t.eng.flags.getLsbD k = true ↔ u.eng.flags.getLsbD k = true ∨ ∃ f, raises f ∧ (mflag f).getLsbD k = true
/-- An attention command has its block of KV pages found as x, and w is the state that the reads of the block's table and records leave (R103,
R106, R302, R424). -/
def BlockRead (s : State) (pages : Bool) (d b : Nat) (x : AtBlk) (w : State) : Prop :=
  (∀ k, s.withBlock pages d b k = k x w) ∧ w.eng = s.eng ∧ w.job = s.job ∧ w.here = s.here ∧ w.ecc = []
/-- A unit of the command is done: the progress, the end, the rest of the engine but its accumulators and flags. -/
def UnitDone (u t : State) (total : Nat) : Prop :=
  t.eng.prog = u.eng.prog + 1 ∧ (t.eng.done = true ↔ total ≤ u.eng.prog + 1) ∧ t.eng.q = u.eng.q ∧ t.eng.step1 = u.eng.step1 ∧
  t.eng.halt = u.eng.halt
/-- Every element of every accumulator is as f says. -/
def ZAre (t : State) (f : Nat → Nat → Nat → Nat) : Prop := ∀ z r k, r < 64 → k < 64 → t.eng.zAt z r k = f z r k
/-- Only the accumulators, progress and flags of the core's own engine have changed. -/
def EngOnly (u t : State) : Prop :=
  CoreOnly u t ∧ { t.core with eng := { t.eng with z := u.eng.z, prog := u.eng.prog, done := u.eng.done, flags := u.eng.flags } } = u.core

/-! Transfer engines. -/

/-- Table 13-2: the operation of each command of a chain. -/
inductive ChCmd : Instr → Nat → Prop where
  | copy : ChCmd .copy 0x01
  | copynd : ChCmd .copynd 0x02
  | mcast : ChCmd .mcast 0x03
  | fill : ChCmd .fill 0x04
  | kvmove : ChCmd .kvmove 0x05
  | kvshare : ChCmd .kvshare 0x06
  | promote : ChCmd .promote 0x07
  | demote : ChCmd .demote 0x08
  | kvmark : ChCmd .kvmark 0x09
  | loop : ChCmd .loop 0x10
  | cond : ChCmd .cond 0x11
  | note : ChCmd .note 0x12
  | waitev : ChCmd .waitev 0x13
/-- The chain of the step is at a command of an instruction, its events taken, and no access of it is parked. -/
def ChActs (s : State) (i : Instr) (c : Chain) : Prop :=
  ∃ op, ChCmd i op ∧ s.chain s.chId = some c ∧ c.op = op ∧ c.park = none ∧ c.ph = .act
/-- R313: the byte offset of element number prog of a nest of n0, n1, n2, ... elements of es bytes, the innermost first. -/
def nestOff (c : Chain) (n0 n1 n2 : Nat) (b cc d : Int) : Int :=
  (c.prog % n0 : Nat) * (2 ^ c.esz : Nat) + (c.prog / n0 % n1 : Nat) * b + (c.prog / n0 / n1 % n2 : Nat) * cc + (c.prog / n0 / n1 / n2 : Nat) * d
/-- The counts of a COPYND (R313). -/
def ndN (c : Chain) (k : Nat) : Nat := fieldOf (c.dw 3) (16 * k) 16 + 1
/-- R313, R314, R317, R318: for a command that reads: the address and length of its next read. -/
inductive ChReads (c : Chain) : Instr → Int → Nat → Prop where
  | copy (h : c.prog < (c.dw 3).toNat / 2 ^ c.esz) : ChReads c .copy ((c.dw 1).toNat + c.soff + (c.prog : Int) * (2 ^ c.esz : Nat)) (2 ^ c.esz)
  | copynd (h : c.prog < ndN c 0 * ndN c 1 * ndN c 2 * ndN c 3) : ChReads c .copynd ((c.dw 1).toNat + c.soff +
      nestOff c (ndN c 0) (ndN c 1) (ndN c 2) (c.dw 4).toInt (c.dw 5).toInt (c.dw 6).toInt) (2 ^ c.esz)
  | mcast (h : 512 * (c.prog / 8) < fieldOf (c.dw 3) 0 40) : ChReads c .mcast ((c.dw 1).toNat + c.soff + (512 * (c.prog / 8) : Nat))
      (min 512 (fieldOf (c.dw 3) 0 40 - 512 * (c.prog / 8)))
  | cond : ChReads c .cond ((c.dw 1).toNat + c.soff) 8
  | waitev (h : bitOf (c.dw 3) 3 = false) : ChReads c .waitev ((c.dw 1).toNat + c.soff) 8
/-- The chain after a write of its command. -/
def ChWent (c x : Chain) (i : Instr) : Prop :=
  match i with
  | .note => x.ph = .retire ∧ x.code = 0 ∧ x.nxt = c.pc + 128
  | .mcast => x.ph = .act ∧ (c.prog % 8 < fieldOf (c.dw 3) 40 3 → x.prog = c.prog + 1 ∧ x.got = true ∧ x.buf = c.buf) ∧
      (fieldOf (c.dw 3) 40 3 ≤ c.prog % 8 → x.prog = 8 * (c.prog / 8 + 1) ∧ x.got = false)
  | _ => x.ph = .act ∧ x.prog = c.prog + 1 ∧ x.got = false
/-- R313, R314, R318: for a command that writes, what it has read being there: the address and bytes of its next write. -/
inductive ChWrites (c : Chain) : Instr → Int → List Byte → Prop where
  | copy (h : c.prog < (c.dw 3).toNat / 2 ^ c.esz) (g : c.got = true) : ChWrites c .copy ((c.dw 2).toNat + c.doff + (c.prog : Int) * (2 ^ c.esz : Nat)) c.buf
  | copynd (h : c.prog < ndN c 0 * ndN c 1 * ndN c 2 * ndN c 3) (g : c.got = true) : ChWrites c .copynd ((c.dw 2).toNat + c.doff +
      nestOff c (ndN c 0) (ndN c 1) (ndN c 2) (c.dw 7).toInt (c.dw 8).toInt (c.dw 9).toInt) c.buf
  | mcast (h : 512 * (c.prog / 8) < fieldOf (c.dw 3) 0 40) (g : c.got = true) (m : c.mask.testBit (c.prog % 8) = false) : ChWrites c .mcast
      ((c.dw (if c.prog % 8 = 0 then 2 else 3 + c.prog % 8)).toNat + c.doff + (512 * (c.prog / 8) : Nat)) c.buf
  | fill (h : c.prog < (c.dw 3).toNat / 2 ^ c.esz) : ChWrites c .fill ((c.dw 2).toNat + c.doff + (c.prog * 2 ^ c.esz : Nat)) (bytesOf (2 ^ c.esz) (c.dw 4).toNat)
  | note : ChWrites c .note ((c.dw 1).toNat + c.doff) (bytesOf 8 (c.dw 2).toNat)
/-- R312, R313, R314, R318: a command that has nothing left to do ends, with a status code and detail. -/
inductive ChEnds (c : Chain) : Instr → Nat → Nat → Prop where
  | copy (h : (c.dw 3).toNat / 2 ^ c.esz ≤ c.prog) : ChEnds c .copy 0 0
  | copynd (h : ndN c 0 * ndN c 1 * ndN c 2 * ndN c 3 ≤ c.prog) : ChEnds c .copynd 0 0
  | mcast (h : fieldOf (c.dw 3) 0 40 ≤ 512 * (c.prog / 8)) : ChEnds c .mcast c.code c.detail
  | fill (h : (c.dw 3).toNat / 2 ^ c.esz ≤ c.prog) : ChEnds c .fill 0 0
  | waitev (h : bitOf (c.dw 3) 3 = true) : ChEnds c .waitev 0 0
  | event (g : bitOf (c.dw 3) 3 = false) (h : c.got = true) (t : ccHolds (fieldOf (c.dw 3) 0 3) (dwAt c.buf 0) (c.dw 2) = true) : ChEnds c .waitev 0 0
  | cond (h : c.got = true) : ChEnds c .cond 0 0
/-- A read or write of a chain stays on its own die: the translated runs, and the state that the translation leaves. -/
def ChNear (s : State) (c : Chain) (need : Need) (va : Int) (n : Nat) (rs : List (Nat × Nat)) (u : State) : Prop :=
  s.chAccess c need va n = (.ok rs, u) ∧ (∀ q ∈ accPieces rs 0, remoteTo (c.core / 384) q.2.1 = false) ∧ u.clusters = s.clusters ∧
  u.slots = s.slots

/-- A command with LAST has retired, its STATUS written in w (R311, R312, R414): one of status 0x00 or 0x07 raises its events, another raises
none; every status other than 0x00 is reported; the chain is over. -/
def ChDone (s w t : State) (c : Chain) : Prop := let i := s.chId
  (c.last = true → c.op ≠ 0x10 → t.chain i = none) ∧
  (c.code ≠ 0 → c.code ≠ 7 → t.chain i = none ∧ (t.clusterAt i.cl).ev = (s.clusterAt i.cl).ev) ∧
  (c.code = 0 ∨ c.code = 7 → c.last = true → c.op ≠ 0x10 → CountsGo (s.clusterAt i.cl).ev (t.clusterAt i.cl).ev c.sig 16 fun n => min (n + 1) 255) ∧
  (c.code = 0 → c.last = true → c.op ≠ 0x10 → ∀ a, t.byteAt a = w.byteAt a) ∧
  (c.code ≠ 0 → c.last = true → c.op ≠ 0x10 → ∀ a, t.byteAt a = (w.err (i.cl / 2) noCore 5 0 0 c.pc
    (c.code * 2 ^ 56 + c.mask * 2 ^ 48 + c.detail % 2 ^ 48) (bytesOf 8 c.head)).byteAt a)

/-- R321, R86, R320: entry idx of a slot's page table stands at pa and is e, to be read, or with w also written; its table lies in tile store, and
its place and that of the table's header are not in motion. -/
def EntAt (s : State) (slot idx : Nat) (w : Bool) (pa : Nat) (e : W64) : Prop :=
  ∃ hp, (s.slotAt s.here.die slot).state ≠ 0 ∧ kvTranslate s s.here.die { rd := true } (s.slotAt s.here.die slot).ptbase = .ok hp ∧
    hp + 8 ≤ 2 ^ 52 ∧ idx < fieldOf (s.peek64 hp) 0 32 ∧
    kvTranslate s s.here.die { rd := true, w := w } (entVa s s.here.die slot idx) = .ok pa ∧ pa + 8 ≤ 2 ^ 52 ∧ s.peek64 pa = e ∧
    s.inMotion hp = false ∧ s.inMotion pa = false
/-- The slots that a KV command names are not held by another, or it holds its own already (R321). -/
def SlotsFree (s : State) (c : Chain) (l : List Nat) : Prop := c.slots ≠ [] ∨ slotsHeld s s.chId l = false
/-- The chain's command has ended with a code. -/
def ChOver (s t : State) (code : Nat) : Prop := ∃ x, t.chain s.chId = some x ∧ x.ph = .retire ∧ x.code = code
/-- Table 13-6: the operation of each scraper command. -/
inductive ScrOp : Instr → Nat → Prop where
  | evscan : ScrOp .evscan 1
  | evcompact : ScrOp .evcompact 2
  | evdecay : ScrOp .evdecay 3
/-- The scraper's command at the head is running. -/
def AtScr (s : State) (op : Nat) (c : ScrCmd) (rest : List ScrCmd) : Prop :=
  (s.dieAt s.here.die).scr = c :: rest ∧ (s.dieAt s.here.die).scrProg = true ∧ c.op = op
/-- The scraper's command at the head is running, and sees the slot's pages as v once it has read them (R328); u is the state that the reads
leave. -/
def Scrapes (s : State) (op : Nat) (c : ScrCmd) (rest : List ScrCmd) (v : ScrView) (u : State) : Prop :=
  AtScr s op c rest ∧ (u.dieAt s.here.die).scr = c :: rest ∧ (∀ k, s.scrView s.here.die c k = k v u)
/-- R329: the tokens that EVSCAN selects. -/
def scanSel (u : State) (die : Nat) (c : ScrCmd) (v : ScrView) : List (Nat × Nat) :=
  let ls := v.tokens u die 0
  (((List.range ls.length).zip ls).filter fun p => decide (c.sink ≤ p.1) && decide (p.1 + c.recent < ls.length) && decide (v.start u die ≤ p.2.1) &&
    decide (u.mdRead die (v.md p.2.1) (4 * p.2.2) 4 < c.thresh)).map Prod.snd

/-! Fabric, plans, waystations. -/

/-- The steps in which a slot arrives at its destination, by kind (Table 14-1). -/
inductive ArriveStep : Instr → Nat → Prop where
  | postedWrite : ArriveStep .postedWrite 0
  | readRequest : ArriveStep .readRequest 1
  | remoteAtomic : ArriveStep .remoteAtomic 4
  | planTransfer : ArriveStep .planTransfer 6
  | consignmentStore : ArriveStep .consignmentStore 7
/-- The steps in which an answer comes back to its source, by kind. -/
inductive AnswerStep : Instr → Nat → Prop where
  | readResponse : AnswerStep .readResponse 2
  | acknowledgement : AnswerStep .acknowledgement 3
  | atomicResult : AnswerStep .atomicResult 5
/-- Slot f, the one of the step, is at its destination's die, or on its way there. -/
def OnItsWay (s : State) (i : Instr) (f : FSlot) : Prop := ∃ k, ArriveStep i k ∧ s.slots[s.here.k]? = some f ∧ f.kind = k ∧ f.back = false
/-- It arrives and is served (R337, R432): it holds a reception place, or it waits for no link, can be delivered and is of its own die or finds a
place and is served at once. -/
def Arrives (s : State) (i : Instr) (f : FSlot) : Prop :=
  OnItsWay s i f ∧ (f.placed = true ∨ slotWaits s f = false ∧ undeliverable s f.src f.dst = none ∧
    (f.dst = f.src ∨ placesHeld s f.dst (f.dir s) < 256 ∧ s.here.full = false))
/-- Slot f, the one of the step, an answer of a kind, comes back to its source. -/
def Returns (s : State) (k : Nat) (f : FSlot) : Prop :=
  s.slots[s.here.k]? = some f ∧ f.kind = k ∧ slotWaits s f = false ∧ undeliverable s f.dst f.src = none
/-- Bond line b of a die is shown in its slice (R365), whose tile then has tag 0 (R95), and every other byte of memory is as it was. -/
def Shown (s t : State) (g : Nat) (b : Bond) : Prop :=
  let p := bondPa s g b.line
  (∀ a, memGet t.mem a = ((if p ≤ a ∧ a < p + 64 then b.byte (a - p) else none).getD (memGet s.mem a))) ∧ (p < 2 ^ 52 → t.tagAt p = 0)
/-- The slot of the step has become another, or has left. -/
def SlotIs (s t : State) (f : FSlot) : Prop := t.slots = setNth s.slots s.here.k f
def SlotGone (s t : State) : Prop := t.slots = dropNth s.slots s.here.k
/-- The notice of the step is m, of a kind. -/
def Notice (s : State) (k : MsgK) (m : Msg) : Prop := s.msgs[s.here.k]? = some m ∧ m.kind = k
/-- It has been taken, and l follow those that are left. -/
def Sends (s t : State) (l : List Msg) : Prop := t.msgs = dropNth s.msgs s.here.k ++ l
/-- A plan has aborted with a cause (R441, R442): its firings are discarded. -/
def PlanAborted (t : State) (g place cause : Nat) : Prop :=
  ∃ q, (t.dieAt g).plan place = some q ∧ q.abort = some cause ∧ q.pend = [] ∧ q.act = none ∧ q.chunks = []
/-- A walker's access is translated: whatever follows goes on with the runs from the state that the translation leaves, in which no park of
the access is remembered any longer. -/
def WalkerAccess (s : State) (g place : Nat) (p : Plan) (need : Need) (va n bad : Nat) (rs : List (Nat × Nat)) (u : State) : Prop :=
  (∀ k, s.planAccess g place p need va n bad k = k rs u) ∧ u.here = s.here ∧ (u.dieAt g).plan place = some { p with told := [] }
/-- The acknowledgement of a slot (R334). -/
def ackOf (f : FSlot) : FSlot := { f with kind := 3, data := [] }
/-- A plan's slot of the step, of a firing of a plan: acknowledged as it arrives, or, of a firing bound to a consignment, taken (R366). -/
def PlanSlot (s t : State) (p : Plan) (fi : Nat) (f : FSlot) : Prop :=
  (p.boundOf fi = 0 → SlotIs s t (ackOf { f with placed := false })) ∧ (p.boundOf fi ≠ 0 → SlotGone s t)
/-- The slots that a chunk keeps once a slot has joined it. -/
def keptOf (p : Plan) (fi : Nat) (l : List FSlot) (f : FSlot) : List FSlot := if p.boundOf fi = 0 then l else l ++ [{ f with placed := false }]

/-! Consignments. -/

/-- The consignment place of a notice's handle at its die: a coordinator's, a destination's. -/
def CoordAt (s : State) (g h k : Nat) (c : Coord) : Prop := (s.dieAt g).coord h = some (k, c) ∧ spFind (s.dieAt g).coords k = some c
def DestAt (s : State) (g h k : Nat) (x : Dest) : Prop := (s.dieAt g).dest h = some (k, x) ∧ spFind (s.dieAt g).dests k = some x
/-- The next die clockwise from the destination of a notice, which passes the notice on. -/
def onward (s : State) (m : Msg) : Msg := { m with dst := cwNext s m.dst, src := m.dst }
/-- Milliseconds of FLTCFG.CNWAIT of a die in ns (R444): 0 stands for 65,536. -/
def cnwaitNs (s : State) (g : Nat) : Nat :=
  (if fieldOf ((s.dieAt g).reg 0x319) 32 16 = 0 then 65536 else fieldOf ((s.dieAt g).reg 0x319) 32 16) * 1000000

/-! The ring. -/

/-- A copy of a frame's segment as it leaves a die (R64). -/
def copyOf (s : State) (g f e dir : Nat) : Seg :=
  { src := g, frame := f, dst := nextDie s g dir, dir := dir, tag := tagIn (ttEnt s g e) (entSt (s.dieAt g) e).nextC,
    rot := (entSt (s.dieAt g) e).nextC, sent := s.tickOf g }
/-- Does a segment go on from a die in a direction: the die is not bypassed, and another is joined to it there (R63, R14, R435)? -/
def goesOn (s : State) (g dir : Nat) : Bool := !(s.dieAt g).bypassed && decide (nextDie s g dir ≠ g)
/-- R70: an entry of the tag dispatch table is in use, and a tag matches its PATTERN under its MASK. -/
def EntryMatches (s : State) (g e : Nat) (t : W32) : Prop :=
  let b := s.peek (ctlPa g (0x40000 + 64 * e)) 64
  bitOf (dwAt b 8) 63 = true ∧ (t ^^^ BitVec.ofNat 32 (fieldOf (dwAt b 0) 32 32)) &&& BitVec.ofNat 32 (fieldOf (dwAt b 0) 0 32) = 0
/-- CLSEL of Table 3-8: the cluster of a die that takes the record of a slot. -/
def clSel (s : State) (g sel slot prio : Nat) : Nat :=
  if sel = 0 then 0 else if sel = 1 then 1 else if sel = 2 then slot % 2
  else if ((s.clusterAt (2 * g + 1)).lvl prio).length < ((s.clusterAt (2 * g)).lvl prio).length then 1 else 0
/-- Is there room in a die's completion queue (R76)? -/
def complRoom (d : Die) : Bool :=
  let q := d.reg2 0x30E
  d.wrote.contains 0x30E && decide ((bitsAt q 112 16 + 1) % ringCap q ≠ bitsAt q 96 16)
/-- The link that a copy leaves by. -/
def outLink (x : Seg) : LinkDir := if x.dir = 1 then .cwOut else .ccwOut
/-- A skipped slot: SKIPS rises, saturating, and the deferral ends. -/
def skipped (r : ReqSlot) : ReqSlot := { r with skips := min (r.skips + 1) 65535, defer := false }

/-! Ethernet, firmware, the step. -/

/-- Entry idx of a port is over (R356, R439): no send of it is left. -/
def SendGone (t : State) (g idx : Nat) : Prop := ∀ x ∈ (t.dieAt g).eth.sends, x.idx ≠ idx
/-- Every context of a port that carried packets not acknowledged is gone, and the entries that it carried (R439). -/
def EthWentDown (s t : State) (g : Nat) : Prop :=
  (t.dieAt g).eth.ctxs = (s.dieAt g).eth.ctxs.filter (fun c => c.ents.isEmpty) ∧
  ∀ c ∈ (s.dieAt g).eth.ctxs, ∀ i ∈ c.ents, SendGone t g i

/-- Words written out from the encodings of the opcode table, at least one of each family that has words, with their streams. -/
inductive WordOf : Strm → List H16 → Instr → Prop where
  | cAdd : WordOf .c [0x8043, 0x0800] (.cAdd 2 3 1)
  | cAddi : WordOf .c [0x8443, 0xFFFF] (.cAddi 2 3 (-1))
  | cBnez : WordOf .c [0xA421, 0xFFFE] (.cBnez 1 (-2))
  | cLdd : WordOf .c [0xB485, 0x3008] (.cLdd 4 5 8)
  | atcas : WordOf .c [0xBC22, 0x1AC0] (.atcas 1 2 3 true)
  | rclaim : WordOf .c [0xC4C7, 0x0040] (.rclaim 6 7)
  | acq : WordOf .c [0xC822, 0x0188] (.acq 1 2 .ring true)
  | spawn : WordOf .c [0xCC09, 0x0000] (.spawn 9)
  | mxd : WordOf .c [0xD061, 0x1040] (.mxd 3 1 2)
  | xfc : WordOf .c [0xD001, 0x1080] (.xfc 1 2)
  | cseal : WordOf .c [0xD422, 0x1800] (.cseal 1 2 3)
  | crr : WordOf .c [0xD822, 0x0A00] (.crr 1 0x105)
  | crw : WordOf .c [0xD842, 0x2201] (.crw 2 0x111)
  | trap : WordOf .c [0xDC00, 0x0005] (.trap 5)
  | c16Add : WordOf .c [0x08C4] (.c16Add 3 4)
  | aAdd : WordOf .a [0x8048, 0xC000] (.aAdd 1 2 3)
  | ldq : WordOf .a [0x9004, 0x9A07] (.ldq 1 2 3 1 7)
  | gather : WordOf .a [0xA004, 0xA802] (.gather 1 2 5 0 2)
  | sqp : WordOf .a [0xB801, 0x8000] (.sqp 6)
  | cset : WordOf .a [0xC448, 0xD000] (.cset 1 2 3 .lt)
  | vcmp : WordOf .v [0x4BA1, 0x040C] (.vcmp .od 2 4 4 0 .f32)
  | vcvt : WordOf .v [0x5461, 0x1812] (.vcvt 6 4 .f32 .rne .e4m3)
  | vsel : WordOf .v [0x4C71, 0x8852] (.vsel 7 6 8 2 .e4m3)
  | vsett : WordOf .v [0x9031, 0x4000] (.vsett 3 5)
  | vpop : WordOf .v [0x88A4, 0xC000] (.vpop 10 2 3)
  | vrsum : WordOf .v [0x60B2, 0x808C] (.vrsum 11 10 4 .f32)
  | vpush : WordOf .v [0x8C12, 0xC000] (.vpush 1 11)

end Sys2Proof.Machine

open Sys2Proof Sys2Proof.Machine

/-- R193-R196, R17, R189: every arithmetic word of the C-stream issues, whatever its operands, writes the result of Table 8-3 or 8-4 to its
destination, reads its sources first, discards a write to s0, and changes nothing else. -/
def Obligations.ScalarResults : Prop :=
  ∀ (i : Instr) (s : State) (n : Nat) (d : BitVec 5) (v : W64), AluC s.rs i n d v →
    ∃ t, exec i s = .next t ∧ WroteC s t n d v
/-- R230, R231, R17, R226: the same of the A-stream's arithmetic words, CSET among them. -/
def Obligations.AccessArithmeticResults : Prop :=
  ∀ (i : Instr) (s : State) (n : Nat) (d : BitVec 4) (v : W64), AluA s.ra i n d v →
    ∃ t, exec i s = .next t ∧ WroteA s t n d v
/-- R197, R231, R163: a branch whose comparison holds, and every jump, ends the block and stands at the header that is 4 times the offset from
the header of its own block; otherwise the stream goes on with the next word. Nothing else changes. A taken branch of the C-stream whose
target's block fetch parks is held at its word, without effect (R415). -/
def Obligations.BranchTargets : Prop :=
  ∀ (i : Instr) (s : State) (st : Strm) (taken : Prop) (o : Int), BranchOf s i st taken o →
    (∀ m va sp, st = .c → taken → s.targetPark ((s.job.c.hdr : Int) + 4 * o) = some (m, va, sp) →
      exec i s = .next (s.parkAt .c 2 va m { x := true } sp)) ∧
    ((st = .c → taken → s.targetPark ((s.job.c.hdr : Int) + 4 * o) = none) → ∃ t, exec i s = .next t ∧ JobOnly s t ∧ { t.job with c := s.job.c, a := s.job.a } = s.job ∧
      (st = .c → t.job.a = s.job.a) ∧ (st = .a → t.job.c = s.job.c) ∧
      (taken → AtHeader (t.job.blk st) ((((s.job.blk st).hdr : Int) + 4 * o) % 2 ^ 64).toNat) ∧
      (¬taken → t.job.blk st = (s.job.blk st).advance st 2))
/-- R82, R190-R192: a cluster-window address is checked for the window, then for alignment, then for the grant, and names the byte of the slice
of the core's own cluster that it lies in. R190, R192: a cluster-window word whose address check fails takes the trap of the check with the
first byte that fails, and issues no access. -/
def Obligations.ClusterWindowAddress : Prop :=
  (∀ (s : State) (need : Need) (ea : Int) (n al : Nat), 0 < al →
    (ea < 0 ∨ 192 * 2 ^ 22 ≤ ea → s.cw need ea n al = .error (1, 0, (ea % 2 ^ 64).toNat)) ∧
    (0 ≤ ea → ea < 192 * 2 ^ 22 → 192 * 2 ^ 22 < ea + n → s.cw need ea n al = .error (1, 0, 192 * 2 ^ 22)) ∧
    (0 ≤ ea → ea < 192 * 2 ^ 22 → ea + n ≤ 192 * 2 ^ 22 → ¬ (al : Int) ∣ ea → s.cw need ea n al = .error (2, 0, ea.toNat)) ∧
    (0 ≤ ea → ea < 192 * 2 ^ 22 → ea + n ≤ 192 * 2 ^ 22 → (al : Int) ∣ ea →
      (cwOk s s.here.die s.here.core s.job need ea.toNat n = true → s.cw need ea n al =
        .ok (tilePa s.here.die (192 * (s.here.core / 192) + ea.toNat / 2 ^ 22) (ea.toNat % 2 ^ 22))) ∧
      (cwOk s s.here.die s.here.core s.job need ea.toNat n = false → 0 < n → ∃ k < n, s.cw need ea n al = .error (1, 1, ea.toNat + k) ∧
        cwOk s s.here.die s.here.core s.job need ea.toNat (k + 1) = false ∧
        ∀ m, 0 < m → m ≤ k → cwOk s s.here.die s.here.core s.job need ea.toNat m = true))) ∧
  (∀ (i : Instr) (s : State) (need : Need) (ea : Int) (n c k x : Nat), CwWord s i need ea n → s.cw need ea n n = .error (c, k, x) →
    exec i s = .next (s.trapC c k x))
/-- R199, R196, R189, R114: a load of the C-stream whose address is good and that finds room (Table 8-1) joins the accesses that have not
performed; its destination waits for it. R202, R129: ARM issues the read of the whole line that holds its address. -/
def Obligations.ControlLoadsIssue : Prop :=
  (∀ (i : Instr) (s : State) (d : BitVec 5) (ea : Int) (n hw : Nat) (sg : Bool) (pa : Nat), LoadC s i d ea n hw sg →
    s.cw { rd := true } ea n n = .ok pa → s.job.loads .c < 8 →
    ∃ t, exec i s = .next t ∧ IssuedC s t (.ld d.toNat sg) [(pa, n)] [] hw ∧ (d ≠ 0 → t.job.sBusy d.toNat = true)) ∧
  (∀ (s : State) (a : BitVec 5) (pa : Nat), s.cw { rd := true } (s.rs a).toInt 1 1 = .ok pa → s.job.loads .c < 8 →
    ∃ t, exec (.arm a) s = .next t ∧ IssuedC s t .arm [(pa - pa % 64, 64)] [] 2)
/-- R200, R196, R114, R5: a store of the C-stream whose address is good and that finds room joins the accesses that have not performed with the
low bytes of its register, least significant first; memory itself does not change yet. R201, R114: an atomic of the C-stream issues with its
operand s[sb] and, for ATCAS, the expected value that s[sd] held. -/
def Obligations.ControlStoresAndAtomicsIssue : Prop :=
  (∀ (i : Instr) (s : State) (v : W64) (ea : Int) (n hw pa : Nat), StoreC s i v ea n hw →
    s.cw { w := true } ea n n = .ok pa → s.job.stores .c < 16 →
    ∃ t, exec i s = .next t ∧ IssuedC s t .st [(pa, n)] (bytesOf n v.toNat) hw) ∧
  (∀ (i : Instr) (s : State) (op : Nat) (d a b : BitVec 5) (w : Bool) (pa : Nat), AtomicC i op d a b w →
    s.cw { rd := true, w := true } (s.rs a).toInt (if w then 8 else 4) (if w then 8 else 4) = .ok pa →
    s.job.loads .c < 8 → s.job.stores .c < 16 →
    ∃ t, exec i s = .next t ∧ IssuedC s t (.at op d.toNat (if w then 8 else 4) (s.rs b) (s.rs d)) [(pa, if w then 8 else 4)] [] 2 ∧
      (d ≠ 0 → t.job.sBusy d.toNat = true))
/-- R232, R226: a single load of the A-stream whose address is translated (u is the state that the translation leaves) and that finds room
issues, and its destination waits for it. R232, R233: a single store of the A-stream to a place that is not another core's slice issues with
the low bytes of a[ab] and takes the next store number; one to another core's slice leaves as one posted write, charges its window and waits
for the acknowledgement. It rests on the model's choices and readings: log 13. -/
def Obligations.SingleAccessesIssue : Prop :=
  (∀ (i : Instr) (s u : State) (d : BitVec 4) (k : BitVec 2) (ea : Int) (n : Nat) (sg : Bool) (rs : List (Nat × Nat)),
    LoadA s i d k ea n sg → s.access { rd := true } ea n n = (.ok rs, u) → u.job.loads .a < 32 →
    ∃ t, exec i s = .next t ∧ JobOnlyF u t ∧ Joined u t .a k.toNat (.ld d.toNat sg) rs [] ∧
      { t.job with acc := u.job.acc, a := u.job.a } = u.job ∧ t.job.a = u.job.a.advance .a 2 ∧ (d ≠ 0 → t.job.aBusy d.toNat = true)) ∧
  (∀ (i : Instr) (s u : State) (b : BitVec 4) (k : BitVec 2) (ea : Int) (n pa : Nat),
    StoreA s i b k ea n → s.access { w := true } ea n n = (.ok [(pa, n)], u) → pa % 64 + n ≤ 64 → u.storeRoomA = true → u.job.a.sub = 0 →
    (posted u.me pa = false →
      ∃ t, exec i s = .next t ∧ JobOnlyF u t ∧ Joined u t .a k.toNat .st [(pa, n)] (bytesOf n (u.ra b).toNat) ∧
        t.job.seq = u.job.seq + 1 ∧ t.job.a = u.job.a.advance .a 2) ∧
    (posted u.me pa = true → u.canPost u.me k.toNat { off := 0, va := ea.toNat, pa := pa, len := n } = true →
      ∃ t f, exec i s = .next t ∧ t.slots = u.slots ++ [f] ∧ f.pa = pa ∧ f.data = bytesOf n (u.ra b).toNat ∧
        f.who = .store (winOf u u.me ea.toNat) u.job.seq ∧ f.dst = paDie pa ∧
        winOut t t.me (winOf u u.me ea.toNat) = (winOut u u.me (winOf u u.me ea.toNat) + 1) % 2 ^ 13 ∧
        t.job.seq = u.job.seq + 1 ∧ t.job.acc = u.job.acc ∧ ∀ a, t.byteAt a = u.byteAt a))
/-- R234-R236: LDQ reserves a place of its dq for each row, in order, and issues the row's 512 bytes; LDQ2 for each entry. R237, R238: STQ and
STQNT write one row with the head of their oq, which then leaves the queue; rows of the core's own memory join the accesses that have not
performed line by line. It rests on the model's choices and readings: log 13. -/
def Obligations.QueueRowsIssue : Prop :=
  (∀ (s u : State) (a b : BitVec 4) (q : BitVec 3) (k : BitVec 2) (n : BitVec 9) (rs : List (Nat × Nat)),
    (s.ra a).toNat % 64 = 0 → s.dqRoom q.toNat = true → s.loadRoomA = true →
    ((s.ra b).toNat % 64 = 0 → s.access { rd := true } ((s.ra a).toInt + s.job.a.prog * (s.ra b).toInt) 512 1 = (.ok rs, u) →
      ∃ t, exec (.ldq a b q k n) s = .next t ∧ ReservedDq u t k.toNat q.toNat rs ∧ RowDone u t (n.toNat + 1)) ∧
    (n.toNat < 256 → (s.ra b).toNat / 2 ^ 32 % 64 = 0 → (n.toNat / 64 = 3 ∨ (s.ra b).toNat % 64 = 0) →
      s.accessAll { rd := true } 1 ((upFrom 0 (512 / (64 * 2 ^ (n.toNat / 64)))).map fun (r : Nat) =>
        ((s.ra a).toInt + (s.job.a.prog : Int) * sextNat ((s.ra b).toNat / 2 ^ 32) 32 +
          (r : Int) * (if 64 * 2 ^ (n.toNat / 64) = 512 then 0 else sextNat (s.ra b).toNat 32), 64 * 2 ^ (n.toNat / 64))) = (.ok rs, u) →
      ∃ t, exec (.ldq2 a b q k n) s = .next t ∧ ReservedDq u t k.toNat q.toNat rs ∧ RowDone u t (n.toNat % 64 + 1))) ∧
  (∀ (s u : State) (a b : BitVec 4) (q k : BitVec 2) (n : BitVec 9) (v : VReg) (rest : List VReg) (rs : List (Nat × Nat)),
    (s.ra a).toNat % 64 = 0 → (s.ra b).toNat % 64 = 0 → spGet [] s.job.oq q.toNat = v :: rest → s.storeRoomA = true →
    s.access { w := true } ((s.ra a).toInt + s.job.a.prog * (s.ra b).toInt) 512 1 = (.ok rs, u) →
    u.job = s.job → s.job.a.sub = 0 → piecesOf ((s.ra a).toInt + s.job.a.prog * (s.ra b).toInt).toNat rs 0 ≠ [] →
    (∀ p ∈ piecesOf ((s.ra a).toInt + s.job.a.prog * (s.ra b).toInt).toNat rs 0, posted u.me p.pa = false) →
    ∀ nt : Bool, ∃ t, exec (if nt then .stqnt a b q k n else .stq a b q k n) s = .next t ∧ JobOnlyF u t ∧
      Joined u t .a k.toNat (if nt then .nt else .st)
        ((piecesOf ((s.ra a).toInt + s.job.a.prog * (s.ra b).toInt).toNat rs 0).map fun p => (p.pa, p.len))
        ((piecesOf ((s.ra a).toInt + s.job.a.prog * (s.ra b).toInt).toNat rs 0).flatMap fun p => ((bytesOf 512 v.toNat).drop p.off).take p.len) ∧
      spGet [] t.job.oq q.toNat = rest ∧ (∀ p, p ≠ q.toNat → spGet [] t.job.oq p = spGet [] u.job.oq p) ∧ RowDone u t (n.toNat + 1))
/-- R241, R78: LDSR reads 512 bytes of a lane of the open frame whose tag a[aa] names, into the next place of its dq. R243: PFC issues whatever
its range, traps never, and changes nothing that the job can read but, through the counts of slow-tier accesses, memory. -/
def Obligations.SeraiReadsAndPrefetches : Prop :=
  (∀ (s : State) (a : BitVec 4) (q : BitVec 3) (k : BitVec 2) (f : Nat),
    fieldOf (s.ra a) 29 3 = 0 → fieldOf (s.ra a) 20 9 < 384 → 64 ∣ fieldOf (s.ra a) 0 20 →
    fieldOf (s.ra a) 0 20 + 512 ≤ laneSz (s.dieAt s.here.die) → s.dqRoom q.toNat = true → s.loadRoomA = true →
    openFrame (s.dieAt s.here.die) (fieldOf (s.ra a) 32 32) = some f →
    ∃ t, exec (.ldsr a q k) s = .next t ∧
      ReservedDq s t k.toNat q.toNat [(seraiPa s.here.die (f * segSz (s.dieAt s.here.die) +
        fieldOf (s.ra a) 20 9 * laneSz (s.dieAt s.here.die) + fieldOf (s.ra a) 0 20), 512)] ∧ t.job.a = s.job.a.advance .a 2) ∧
  (∀ (s : State) (a b : BitVec 4) (k : BitVec 2),
    ∃ t, exec (.pfc a b k) s = .next t ∧ SameJobButEvent { s.job with a := s.job.a.advance .a 2 } t.job ∧
      ((s.ra b).toInt ≤ 0 → JobOnly s t))
/-- R244, R245: SQP enters a[ab] into the scalar queue once the A-stream's earlier stores have performed; LDSQ takes the next place and issues
the read that fills it. R245: CRR of SQ takes the head of the scalar queue into s[sd], and waits while the head has not entered. It rests on
the model's choices and readings: log 13. -/
def Obligations.ScalarQueuePushesAndPop : Prop :=
  ((∀ (s : State) (b : BitVec 4), s.job.sq.length < 16 → (∀ x ∈ s.job.acc, x.strm = .a → x.kind.isStore = false) →
    ∃ t, exec (.sqp b) s = .next t ∧ JobOnlyF s t ∧
      t.job.sq = s.job.sq ++ [{ id := s.fresh, data := some (s.ra b), seen := s.job.seq }] ∧
      { t.job with sq := s.job.sq, a := s.job.a } = s.job ∧ t.job.a = s.job.a.advance .a 2) ∧
  (∀ (s u : State) (a : BitVec 4) (k : BitVec 2) (o : BitVec 9) (rs : List (Nat × Nat)),
    s.access { rd := true } ((s.ra a).toInt + o.toInt) 8 8 = (.ok rs, u) → u.job.sq.length < 16 → u.job.loads .a < 32 →
    ∃ t, exec (.ldsq a k o) s = .next t ∧ JobOnlyF u t ∧ t.job.sq = u.job.sq ++ [{ id := u.fresh, seen := u.job.seq }] ∧
      Joined u t .a k.toNat .sq rs [] ∧ t.job.a = u.job.a.advance .a 2)) ∧
  (∀ (s : State) (d : BitVec 5),
    (∀ e l v, s.job.sq = e :: l → e.data = some v → ∃ t, exec (.sq d) s = .next t ∧ JobOnly s t ∧ t.job.sq = l ∧
      t.job.c = s.job.c.advance .c 2 ∧ ∀ r, t.rs r = if r = 0 then 0 else if r = d then v else s.rs r) ∧
    ((s.job.sq = [] ∨ ∃ e l, s.job.sq = e :: l ∧ e.data = none) →
      ∃ t, exec (.sq d) s = .next t ∧ JobOnly s t ∧ t.job.sq = s.job.sq ∧ t.job.c = { s.job.c with wait := some (.sq d) }))
/-- R239, R240: GATHER takes the index entry from its oq and reserves one place of its dq; its access reads one element for each index, in
order, where the index leads, a null index standing for zero. SCATTER takes the index entry and the data entry from their oqs; its access
stores, where each index that is not null leads, the element of the data entry at the index's place. Both complete wherever the entries,
rooms and translations that they need are there and a scatter's elements lie in the core's own memory. -/
def Obligations.GatherScatterIssue : Prop :=
  ∀ (s u : State) (a b : BitVec 4) (q k : BitVec 2) (p : BitVec 3) (e : BitVec 9) (ix : VReg) (rest : List VReg) (rs : List (Nat × Nat)),
    fieldOf (s.ra b) 6 58 = 0 → spGet [] s.job.oq (fieldOf (s.ra b) 0 2) = ix :: rest →
    let es := elemSize e
    let n := min 128 (512 / es)
    let addr := fun j => elemAddr (s.ra a) (fieldOf (s.ra b) 2 4) ix j
    let live := (List.range n).filter fun j => (addr j).isSome
    (s.dqRoom p.toNat = true → s.loadRoomA = true →
      s.accessAll { rd := true } es (live.map fun j => ((addr j).getD 0, es)) = (.ok rs, u) →
      ∃ t runs, exec (.gather a b p k e) s = .next t ∧ JobOnlyF u t ∧ Joined u t .a k.toNat (.dq p.toNat false) runs [] ∧
        runs.length = n ∧ (∀ j < n, runs[j]? = some (if (addr j).isSome then rs.getD (live.idxOf j) (nullPa, es) else (nullPa, es))) ∧
        spGet [] t.job.dq p.toNat = spGet [] u.job.dq p.toNat ++ [{ id := u.fresh, seen := u.job.seq }] ∧
        spGet [] t.job.oq (fieldOf (s.ra b) 0 2) = rest ∧ t.job.a = u.job.a.advance .a 2) ∧
    (∀ v vs, (if fieldOf (s.ra b) 0 2 = q.toNat then rest else spGet [] s.job.oq q.toNat) = v :: vs → s.storeRoomA = true →
      s.accessAll { w := true } es (live.map fun j => ((addr j).getD 0, es)) = (.ok rs, u) →
      u.job = s.job → s.job.a.sub = 0 → (∀ r ∈ rs, posted u.me r.1 = false) →
      ∃ t, exec (.scatter a b q k e) s = .next t ∧ JobOnlyF u t ∧
        (live ≠ [] → rs.length = live.length → Joined u t .a k.toNat .st (rs.map fun r => (r.1, es))
          (live.flatMap fun j => ((bytesOf 512 v.toNat).drop (es * j)).take es)) ∧
        (live = [] → t.job.acc = u.job.acc) ∧ spGet [] t.job.oq q.toNat = vs ∧
        (fieldOf (s.ra b) 0 2 ≠ q.toNat → spGet [] t.job.oq (fieldOf (s.ra b) 0 2) = rest) ∧ t.job.seq = u.job.seq + 1 ∧
        t.job.a = u.job.a.advance .a 2)
/-- ACCESS_PERFORM, R108, R199, R204, R232, R5: a load or acquire of the core's own die's tile store that nothing holds back and that no soft
error meets delivers the bytes that memory holds, least significant first, extended as the load says; nothing else changes. R236, R239,
R244: a read for a dq or for the scalar queue fills the place that it reserved, the bytes of a null index zero. R129, R130: that of ARM
makes its line the monitored one and clears the sticky event. R200, R204, R232, R238, R95: a store, non-temporal or of a release too, to the
core's own die's tile store that nothing holds back writes its bytes there and no other byte, clears the sequence tag of its tiles and
leaves every register as it was; where a release at a scope below the ring performs before stores that it released, an acquire of the object
within that scope waits (R117). R238: a line of a non-temporal row for companion memory enters the combining buffer (log 43). It rests on
the model's choices and readings: log 2, 13, 43, 53. -/
def Obligations.LoadsAndStoresPerform : Prop :=
  (∀ (s : State) (x : Acc) (d pa n : Nat) (sg : Bool), s.job.acc.find? (fun a => a.id == s.here.k) = some x →
    x.kind = .ld d sg ∨ (∃ sc, x.kind = .acq d sc) ∧ sg = false →
    x.runs = [(pa, n)] → pa < 2 ^ 52 → paDie pa = s.here.die → s.here.core < 384 → x.sent = false → s.accBlocked s.me x = false →
    s.ecc = [] → s.core.nt = [] →
    ∃ t, exec .accessPerform s = .next t ∧ JobOnly s t ∧ t.job.acc = s.job.acc.filter (fun a => a.id != x.id) ∧
      (x.strm = .c → ∀ r : BitVec 5, t.rs r = if r = 0 then 0 else if r.toNat = d then
        (if sg then (BitVec.ofNat (8 * n) (ofBytes (s.peek pa n))).signExtend 64 else BitVec.ofNat 64 (ofBytes (s.peek pa n))) else s.rs r) ∧
      (x.strm = .a → ∀ r : BitVec 4, t.ra r = if r = 0 then 0 else if r.toNat = d then
        (if sg then (BitVec.ofNat (8 * n) (ofBytes (s.peek pa n))).signExtend 64 else BitVec.ofNat 64 (ofBytes (s.peek pa n))) else s.ra r)) ∧
  (∀ (s : State) (x : Acc) (q : Nat) (tile : Bool), s.job.acc.find? (fun a => a.id == s.here.k) = some x → x.kind = .dq q tile →
    (∀ p ∈ x.runs, nullPa ≤ p.1 ∨ (p.1 < 2 ^ 52 ∧ paDie p.1 = s.here.die)) → s.here.core < 384 → x.sent = false →
    s.accBlocked s.me x = false → s.ecc = [] → s.core.nt = [] →
    ∃ t g, exec .accessPerform s = .next t ∧ JobOnly s t ∧ t.job.acc = s.job.acc.filter (fun a => a.id != x.id) ∧
      (tile = false → g = 0) ∧ (∀ p, p ≠ q → spGet [] t.job.dq p = spGet [] s.job.dq p) ∧
      spGet [] t.job.dq q = (spGet [] s.job.dq q).map fun d =>
        if d.id = x.id then { d with data := some (BitVec.ofNat 4096 (ofBytes (runBytes s x.runs))), tag := g } else d) ∧
  (∀ (s : State) (x : Acc) (pa n : Nat), s.job.acc.find? (fun a => a.id == s.here.k) = some x → x.runs = [(pa, n)] → x.sent = false →
    s.accBlocked s.me x = false → s.core.nt = [] → s.here.core < 384 →
    (x.kind = .sq → s.ecc = [] → pa < 2 ^ 52 → paDie pa = s.here.die →
      ∃ t, exec .accessPerform s = .next t ∧ JobOnly s t ∧ t.job.acc = s.job.acc.filter (fun a => a.id != x.id) ∧
        t.job.sq = s.job.sq.map fun e => if e.id = x.id then { e with data := some (BitVec.ofNat 64 (ofBytes (s.peek pa n))) } else e) ∧
    (x.kind = .arm → remoteTo s.here.die pa = false →
      ∃ t, exec .accessPerform s = .next t ∧ JobOnly s t ∧
        t.job = { s.job with acc := s.job.acc.filter (fun a => a.id != x.id), mon := some pa, evt := false })) ∧
  (∀ (s : State) (x : Acc) (pa n : Nat), s.job.acc.find? (fun a => a.id == s.here.k) = some x →
    x.kind = .st ∨ x.kind = .nt ∨ (∃ deps seen sc, x.kind = .rel deps seen sc) →
    x.runs = [(pa, n)] → x.data.length = n → pa + n < 2 ^ 52 → paDie pa = s.here.die → s.here.core < 384 → x.sent = false →
    s.accBlocked s.me x = false → s.core.nt = [] →
    ∃ t, exec .accessPerform s = .next t ∧
      (∀ a, a < 2 ^ 52 → t.byteAt a = if pa ≤ a ∧ a < pa + n then x.data.getD (a - pa) 0 else s.byteAt a) ∧
      (∀ a, 2 ^ 52 ≤ a → t.byteAt a = s.byteAt a) ∧ (∀ a, pa ≤ a → a < pa + n → t.tagAt a = 0) ∧
      SameJobButEvent { s.job with acc := s.job.acc.filter fun a => a.id != x.id } t.job ∧
      ∀ deps seen sc y, x.kind = .rel deps seen sc → sc ≠ .ring → sc ≠ .sys → y ∈ s.job.acc → y.id ∈ deps → y.id ≠ x.id →
        t.relHeld s.me sc pa = true) ∧
  (∀ (s : State) (x : Acc) (pa n : Nat), s.job.acc.find? (fun a => a.id == s.here.k) = some x → x.kind = .nt → x.runs = [(pa, n)] →
    x.data.length = n → 0 < n → pa % 64 = 0 → n ≤ 64 → paSpace pa = 2 → s.here.core < 384 → x.sent = false → x.window = false →
    s.accBlocked s.me x = false → s.core.nt.length < 16 → (∀ c, ∀ l ∈ (s.coreAt c).nt, l.pa + 64 ≤ pa ∨ pa + 64 ≤ l.pa) →
    ∃ t l, exec .accessPerform s = .next t ∧ CoreOnly s t ∧ t.job = { s.job with acc := s.job.acc.filter fun a => a.id != x.id } ∧
      t.core.nt = s.core.nt ++ [l] ∧ l.pa = pa ∧ l.bytes.map Prod.snd = x.data ∧ l.at0 = s.tickOf s.here.die) ∧
  ∀ (s : State) (x : Acc) (d pa : Nat) (sc : Scope), s.job.acc.find? (fun a => a.id == s.here.k) = some x → x.kind = .acq d sc →
    x.runs = [(pa, 8)] → x.sent = false → s.relHeld s.me sc pa = true → exec .accessPerform s = .next s
/-- ACCESS_PERFORM, R126, R201: an atomic of the core's own die's tile store, outside every reduction window, reads, computes and writes in one
step: the old value is delivered (zero-extended by ATMINU and ATMAXU, else sign-extended) and the place holds the new value; ATCAS writes
only where the old value is the one expected. It rests on the model's choices and readings: log 2. -/
def Obligations.AtomicPerforms : Prop :=
  ∀ (s : State) (x : Acc) (op d w pa : Nat) (y e : W64), s.job.acc.find? (fun a => a.id == s.here.k) = some x →
    x.kind = .at op d w y e → x.strm = .c → x.runs = [(pa, w)] → (w = 4 ∨ w = 8) → op < 7 → pa + 8 < 2 ^ 52 → paDie pa = s.here.die →
    s.here.core < 384 → x.sent = false → s.accBlocked s.me x = false → s.ecc = [] → s.core.nt = [] → s.window pa = none →
    ∃ t, exec .accessPerform s = .next t ∧
      (∀ a, (a < pa ∨ pa + w ≤ a) → t.byteAt a = s.byteAt a) ∧
      (let o := BitVec.ofNat (8 * w) (ofBytes (s.peek pa w))
       let v := y.setWidth (8 * w)
       BitVec.ofNat (8 * w) (ofBytes (t.peek pa w)) =
         (if op = 0 then o + v else if op = 1 then v else if op = 2 then (if o = e.setWidth (8 * w) then v else o)
          else if op = 3 then (if v.slt o then v else o) else if op = 4 then (if v.slt o then o else v)
          else if op = 5 then (if v.ult o then v else o) else (if v.ult o then o else v)) ∧
       ∀ r : BitVec 5, r ≠ 0 → t.rs r = if r.toNat = d then (if op = 5 ∨ op = 6 then o.setWidth 64 else o.signExtend 64) else s.rs r)
/-- R204, R206, R128, R116, R113, R117, R118: ACQ issues the read of its object; REL and the flagged FENCE issue the write of s[sb] to theirs,
with the stores of the C-stream that it releases under the bindings as it issues, the flagged FENCE every one, and those that an earlier
release of the job released; a FENCE that has nothing to wait for within its scope issues, and waits, changing nothing, while it has. It
rests on the model's choices and readings: log 53. -/
def Obligations.SyncWordsIssue : Prop :=
  ∀ (s u : State) (d a b : BitVec 5) (sc : Scope) (v : Bool) (pa : Nat),
    (ObjAt s u a v { rd := true } pa → u.job.loads .c < 8 →
      ∃ t, exec (.acq d a sc v) s = .next t ∧ IssuedC u t (.acq d.toNat sc) [(pa, 8)] [] 2) ∧
    (ObjAt s u a v { w := true } pa → NoneLost u sc → u.job.stores .c < 16 →
      ∃ t, exec (.rel a b sc v) s = .next t ∧ Joined u t .c 0 (.rel (releasedBy u false pa ++ releasedBefore u false pa) u.job.aSeen sc) [(pa, 8)] (bytesOf 8 (u.rs b).toNat) ∧
        { t.job with acc := u.job.acc, c := u.job.c } = u.job ∧ t.job.c = u.job.c.advance .c 2 ∧ ∀ x, t.byteAt x = u.byteAt x) ∧
    (ObjAt s u a v { w := true } pa → NoneLost u sc → u.fenceWaits sc = false → u.job.stores .c < 16 →
      ∃ t x, exec (.fenceFlagged a b sc v) s = .next t ∧ t.job.acc = u.job.acc ++ [x] ∧ x.kind = .rel (releasedBy u true pa ++ releasedBefore u true pa) u.job.aSeen sc ∧
        x.runs = [(pa, 8)] ∧ x.data = bytesOf 8 (u.rs b).toNat ∧
        SameJobButEvent { u.job with acc := t.job.acc, c := u.job.c.advance .c 2 } t.job ∧
        (sc ≠ .sys → ∀ x, t.byteAt x = u.byteAt x)) ∧
    (NoneLost s sc →
      (s.fenceWaits sc = true → exec (.fence sc) s = .next s) ∧
      (s.fenceWaits sc = false → ∃ t, exec (.fence sc) s = .next t ∧ MovedC s t ∧ (sc ≠ .sys → PassedC s t) ∧
        (sc = .sys → t.core.nt = [])))
/-- R112, R205: BIND of a range within one slice of the cluster window, or with V = 1 of one that its pages lay out as one run of physical bytes
(u and w are the states that the translations leave), binds its lines to the object, as the newest of at most 16 bindings, and removes those
that bind a line of it to another object; a length of 0 removes the object's bindings; a length above 2^32 traps. It rests on the model's
choices and readings: log 14. -/
def Obligations.BindRecordsRange : Prop :=
  ∀ (s : State) (d a b : BitVec 5) (o x : Nat), (s.rs a).toInt = o → (s.rs b).toInt = x → o < 192 * 2 ^ 22 →
    ((s.rs d).toNat = 0 → ∃ t, exec (.bind d a b false) s = .next t ∧ JobOnly s t ∧ t.job.c = s.job.c.advance .c 2 ∧
      t.job.binds = s.job.binds.filter fun q => q.obj != s.winPa o) ∧
    (0 < (s.rs d).toNat → x / 2 ^ 22 = (x + (s.rs d).toNat - 1) / 2 ^ 22 → x + (s.rs d).toNat ≤ 192 * 2 ^ 22 →
      ∃ t, exec (.bind d a b false) s = .next t ∧ JobOnly s t ∧ t.job.c = s.job.c.advance .c 2 ∧
        Bound s t (s.winPa o) (s.winPa x / 64 * 64) ((s.winPa x + (s.rs d).toNat + 63) / 64 * 64)) ∧
    (∀ u w pa n l ps p k, (s.rs d).toNat ≤ 2 ^ 32 → s.xlateRange { none := true } o 1 = (.ok ((pa, n) :: l), u) →
      ((s.rs d).toNat = 0 → ∃ t, exec (.bind d a b true) s = .next t ∧ JobOnly u t ∧ t.job.c = u.job.c.advance .c 2 ∧
        t.job.binds = u.job.binds.filter fun q => q.obj != pa) ∧
      (0 < (s.rs d).toNat → u.xlateRange { none := true } x (s.rs d).toNat = (.ok ps, w) → joinPieces ps = [(p, k)] →
        ∃ t, exec (.bind d a b true) s = .next t ∧ JobOnly w t ∧ t.job.c = w.job.c.advance .c 2 ∧
          Bound w t pa (p / 64 * 64) ((p + k + 63) / 64 * 64))) ∧
    (2 ^ 32 < (s.rs d).toNat → ∀ v, exec (.bind d a b v) s = .next (s.trapC 1 11 (s.rs b).toNat))
/-- R131, R129: WAITE goes on where E = 1 or no line has been armed since the job started, an ARM still under way counting as one, and else
waits; WAITE_WAKE lets it go on once E is there, unless its job stops at this boundary (R51, R381, R405); that the step leaves the state
while E is not there is the model's choice. It clears nothing, and neither acquires nor releases: no access of the job is waited for or
changes. It rests on the model's choices and readings: log 2. -/
def Obligations.EventWaits : Prop :=
  ∀ s : State,
    ((∀ x ∈ s.job.acc, x.kind ≠ .arm) → s.job.evt = true ∨ s.job.mon = none →
      (∃ t, exec .waite s = .next t ∧ PassedC s t) ∧
      (s.job.c.wait = some .waite → s.stops .c = false → ∃ t, exec .waiteWake s = .next t ∧ PassedC s t)) ∧
    ((∃ x ∈ s.job.acc, x.kind = .arm) ∨ s.job.evt = false ∧ s.job.mon ≠ none →
      exec .waiteWake s = .next s ∧
      ∃ t, exec .waite s = .next t ∧ JobOnly s t ∧ t.job.c = { s.job.c with wait := some .waite } ∧ { t.job with c := s.job.c } = s.job)
/-- R223, R384: at a level that may not write a register its CRW traps with class 1 code 6 and has no effect of its own; a CRR likewise, with
ADDR 0 (R402; log 14). R223: a CRR that may read its register writes what the register reads as to s[sd], leaves every other s-register and
all of memory, and leaves the register as it is unless a field of it is cleared by the read (R426, R454: SCRCFG.CCNT and UCNT, both pairs of
DCNT). It rests on the model's choices and readings: log 14. -/
def Obligations.ControlRegisterReads : Prop :=
  (∀ (i : Instr) (s : State) (d : BitVec 5) (c : Nat),
    (OwnCrw d i c → levelOk (crwLevel c) s.job.sup = false → exec i s = .next (s.trapC 1 6)) ∧
    (CrrWord d i c → levelOk (crrLevel c) s.job.sup = false → exec i s = .next (s.trapC 1 6))) ∧
  (∀ (i : Instr) (s : State) (d : BitVec 5) (c : Nat), CrrWord d i c → levelOk (crrLevel c) s.job.sup = true →
    ∃ t, exec i s = .next t ∧ (∀ r, t.rs r = if r = 0 then 0 else if r = d then ctlRead s s.me c else s.rs r) ∧
      { t.job with s := s.job.s, c := s.job.c } = s.job ∧ t.job.c = s.job.c.advance .c 2 ∧ (∀ x, memGet t.mem x = memGet s.mem x) ∧
      (c ≠ 0x318 → c ≠ 0x31C → c ≠ 0x31D → JobOnly s t) ∧
      (c = 0x31C ∨ c = 0x31D → (t.dieAt (s.me / 384)).reg c = 0) ∧
      (c = 0x318 → fieldOf ((t.dieAt (s.me / 384)).reg c) 40 24 = 0))
/-- R287, R310: MSWAIT and XEVWAIT wait, changing nothing, until every count that their mask names is at least 1, and then take 1 from each;
MSSIG and XEVSIG add 1 to each, a count at 255 staying there, once what they release has performed. -/
def Obligations.SemaphoresAndEventCounts : Prop :=
  ∀ (s : State) (d : BitVec 5),
    (let m := (s.rs d).toNat % 256
     ((∃ k < 8, m.testBit k = true ∧ spGet 0 s.job.sem k = 0) → exec (.mswait d) s = .next s) ∧
     ((∀ k < 8, m.testBit k = true → 1 ≤ spGet 0 s.job.sem k) →
       ∃ t, exec (.mswait d) s = .next t ∧ JobOnly s t ∧ t.job.c = s.job.c.advance .c 2 ∧ CountsGo s.job.sem t.job.sem m 8 (· - 1)) ∧
     (NoneLost s .core → s.releaseReady .core = true →
       ∃ t, exec (.mssig d) s = .next t ∧ t.job.c = s.job.c.advance .c 2 ∧ CountsGo s.job.sem t.job.sem m 8 (fun x => min (x + 1) 255) ∧
         ∀ x, t.byteAt x = s.byteAt x)) ∧
    (let m := (s.rs d).toNat % 65536
     ((∃ k < 16, m.testBit k = true ∧ spGet 0 (s.clusterAt s.myCl).ev k = 0) → exec (.xevwait d) s = .next s) ∧
     ((∀ k < 16, m.testBit k = true → 1 ≤ spGet 0 (s.clusterAt s.myCl).ev k) →
       ∃ t, exec (.xevwait d) s = .next t ∧ PassedC { s with clusters := t.clusters } t ∧
         CountsGo (s.clusterAt s.myCl).ev (t.clusterAt s.myCl).ev m 16 (· - 1)) ∧
     (NoneLost s .cluster → s.releaseReady .cluster = true →
       ∃ t, exec (.xevsig d) s = .next t ∧ t.job.c = s.job.c.advance .c 2 ∧ (∀ x, t.byteAt x = s.byteAt x) ∧
         CountsGo (s.clusterAt s.myCl).ev (t.clusterAt s.myCl).ev m 16 (fun x => min (x + 1) 255)))
/-- R340, R341: CRW of RAGO sends the atomic to the home of its address as one slot of kind 4 with its operands and marks the result as not
there; CRR of RARES waits, changing nothing, until the result has come, and then delivers it. -/
def Obligations.RemoteAtomicWords : Prop :=
  ∀ (s u : State) (d : BitVec 5),
    (∀ pa l, let w := s.rs d
      let n := if w.getLsbD 56 then 8 else 4
      w.toNat % 2 ^ 53 % n = 0 → s.access { rd := true, w := true } (w.toNat % 2 ^ 53 : Nat) n n = (.ok ((pa, n) :: l), u) →
      pa < 2 ^ 52 → w.toNat / 2 ^ 53 % 8 < 7 → u.job.rago = false → u.job.acc = [] →
      ∃ t f, exec (.rago d) s = .next t ∧ t.slots = u.slots ++ [f] ∧ f.kind = 4 ∧ f.dst = paDie pa ∧ f.pa = pa ∧ f.len = n ∧
        f.opx = w.toNat / 2 ^ 53 % 8 * 2 + (if n = 8 then 1 else 0) ∧
        f.data = bytesOf 8 u.job.raopnd.toNat ++ bytesOf 8 u.job.racmp.toNat ∧
        t.job.rago = true ∧ t.job.c = u.job.c.advance .c 2 ∧ ∀ x, t.byteAt x = u.byteAt x) ∧
    (s.job.rago = true → exec (.rares d) s = .next s) ∧
    (s.job.rago = false → s.job.rafail = none →
      ∃ t, exec (.rares d) s = .next t ∧ WroteC s t 2 d s.job.rares)
/-- R223, R6, R7: a CRW at its level of a register that is one plain field writes that field from s[sd], keeps the other bits, and changes no
s-register and no memory. -/
def Obligations.ControlRegisterWrites : Prop :=
  ∀ (s : State) (d : BitVec 5) (c : BitVec 12) (w : Nat) (f : State → W64), PlainReg s c.toNat w f →
    levelOk (crwLevel c.toNat) s.job.sup = true →
    ∃ t, exec (.crw d c) s = .next t ∧ MovedOn s t ∧ (f t).toNat % 2 ^ w = (s.rs d).toNat % 2 ^ w ∧ (f t).toNat / 2 ^ w = (f s).toNat / 2 ^ w
/-- R363, R364, R373: CNOPEN takes a free coordinator place with the next handle of its die and writes OPEN and the handle to the status object,
or writes REFUSED where no place is free; a status object that is not an aligned doubleword of the die's own tile store traps. CNCUR sets
HANDLE and WMASK and clears SEALED, or traps where the handle names no die of the ring or is the sealed one. CNBIND binds a plan of the job
to a consignment for the firings triggered from then on, or traps where it names no plan of the job or no consignment. It rests on the
model's choices and readings: log 12. -/
def Obligations.ConsignmentRegisterWrites : Prop :=
  ∀ (s : State) (d : BitVec 5),
    (let pa := (s.rs d).toNat % 2 ^ 56
     let g := s.me / 384
     (2 ^ 52 ≤ pa ∨ paDie pa ≠ g ∨ pa % 8 ≠ 0 ∨ paOk s g pa = false → exec (.cnopen d) s = .next (s.trapC 1 9 pa)) ∧
     (pa < 2 ^ 52 → paDie pa = g → paOk s g pa = true → pa % 8 = 0 →
       (∀ k, freePlace (s.dieAt g).coords 64 = some k →
         ∃ t p, exec (.cnopen d) s = .next t ∧ MovedC s t ∧ StatusIs s t pa 1 p.handle ∧ spFind (t.dieAt g).coords k = some p ∧ p.state = 1 ∧
           p.stata = pa ∧ p.handle = g * 2 ^ 21 + (t.dieAt g).cnseq ∧ (t.dieAt g).cnseq ≠ 0 ∧ (t.dieAt g).cnseq < 2 ^ 21 ∧
           ((s.dieAt g).cnseq + 1 < 2 ^ 21 → (t.dieAt g).cnseq = (s.dieAt g).cnseq + 1) ∧
           ∀ j, j ≠ k → spFind (t.dieAt g).coords j = spFind (s.dieAt g).coords j) ∧
       (freePlace (s.dieAt g).coords 64 = none →
         ∃ t, exec (.cnopen d) s = .next t ∧ MovedC s t ∧ StatusIs s t pa 0 0 ∧ (t.dieAt g).coords = (s.dieAt g).coords ∧
           (t.dieAt g).cnseq = (s.dieAt g).cnseq))) ∧
    (let h := (s.rs d).toNat % 2 ^ 32
     let same := h = s.job.cncur.toNat % 2 ^ 32 ∧ s.job.cncur.getLsbD 40 = true
     ((h = 0 ∨ cnDieOk s (s.me / 384) h = true ∧ ¬ same) →
       ∃ t, exec (.cncur d) s = .next t ∧ JobOnly s t ∧
         t.job = { s.job with cncur := BitVec.ofNat 64 ((s.rs d).toNat % 2 ^ 40), c := s.job.c.advance .c 2 }) ∧
     (h ≠ 0 → cnDieOk s (s.me / 384) h = false → exec (.cncur d) s = .next (s.trapC 8 6)) ∧
     (h ≠ 0 → cnDieOk s (s.me / 384) h = true → same → exec (.cncur d) s = .next (s.trapC 8 2))) ∧
    (∀ ph ch, (s.rs d).toNat = ph + 2 ^ 32 * ch → ph < 2 ^ 32 →
      (∀ p, (s.dieAt (s.me / 384)).plan (ph % 256) = some p → planHandle (ph % 256) p = ph → p.job = s.job.id →
        (p.bound = 0 → p.bound0 = []) →
        (ch ≠ 0 → cnDieOk s (s.me / 384) ch = true →
          ∃ t q, exec (.cnbind d) s = .next t ∧ MovedOn s t ∧ { t.job with c := s.job.c } = s.job ∧
            (t.dieAt (s.me / 384)).plan (ph % 256) = some q ∧ q.bound = ch ∧
            q.bindAt = p.f + p.pend.length + (if p.act.isSome then 1 else 0) ∧ { q with bound := p.bound, bindAt := p.bindAt, bound0 := p.bound0 } = p ∧
            (∀ f, q.boundOf f = if q.bindAt ≤ f then ch else p.boundOf f) ∧
            ∀ j, j ≠ ph % 256 → (t.dieAt (s.me / 384)).plan j = (s.dieAt (s.me / 384)).plan j) ∧
        (ch = 0 ∨ cnDieOk s (s.me / 384) ch = false → exec (.cnbind d) s = .next (s.trapC 8 6))) ∧
      ((∀ p, (s.dieAt (s.me / 384)).plan (ph % 256) = some p → planHandle (ph % 256) p = ph → p.job ≠ s.job.id) →
        exec (.cnbind d) s = .next (s.trapC 7 2)))
/-- R29, R32, R58, R59, R100, R104, R423, R433, R455: what the supervisor's writes of the registers with effects of their own leave; RSTTLEN
stored as written, of which the table bounds what is used (log 21), and KVCFG stored as written beyond its range (log 42), are the model's
choices; one of MNQ that frees a place while an overflow is pending writes the notification of kind 2 and ends the overflow, and one of
CQCFG that gives a level a free place ends its exhaustion. R75: RQFIN marks an admitted slot of its die finished, whose state becomes 3; it
leaves any other slot as it is. It rests on the model's choices and readings: log 11, 21, 42. -/
def Obligations.DeviceRegisterWrites : Prop :=
  (∀ (s : State) (d : BitVec 5), s.job.sup = true → let g := s.here.die; let v := s.rs d
    (∃ t, exec (.cqcfgWrite d) s = .next t ∧ MovedOn s t ∧ (t.clusterAt s.myCl).cq = true ∧
      ((t.clusterAt s.myCl).reg 0x200).toNat % 2 ^ 34 = v.toNat % 2 ^ 34 ∧
      ∀ q ∈ (t.clusterAt s.myCl).exh, (t.clusterAt s.myCl).fullR q.1 = true) ∧
    (∃ t, exec (.rsttlenWrite d) s = .next t ∧ MovedOn s t ∧
      (stationRuns (s.dieAt g) = true → t.dieAt g = s.dieAt g) ∧
      (stationRuns (s.dieAt g) = false → ttLen (t.dieAt g) = min (v.toNat % 2 ^ 17) 65536 ∧
        ∀ f, (frameAt (t.dieAt g) f).st = (if (frameAt (s.dieAt g) f).st = 1 then 1 else 0) ∧ (frameAt (t.dieAt g) f).loaded = false)) ∧
    (∃ t, exec (.mdcfgWrite d) s = .next t ∧ MovedOn s t ∧ (t.dieAt g).mdUsed = [] ∧
      fieldOf ((t.dieAt g).reg 0x305) 0 22 = v.toNat % 2 ^ 22) ∧
    (∃ t, exec (.kvcfgWrite d) s = .next t ∧ MovedOn s t ∧ (t.dieAt g).kvUsed = [] ∧ fieldOf ((t.dieAt g).reg 0x306) 0 6 = v.toNat % 2 ^ 6) ∧
    ((s.dieAt g).mnOvf = false → ∃ t, exec (.mnqCiWrite d) s = .next t ∧ MovedOn s t ∧
      fieldOf ((t.dieAt g).reg 0x30D) 32 10 = fieldOf v 32 10 ∧ fieldOf ((t.dieAt g).reg 0x30D) 48 10 = fieldOf ((s.dieAt g).reg 0x30D) 48 10) ∧
    (let pi := fieldOf ((s.dieAt g).reg 0x30D) 48 10
     let room := (s.dieAt g).wrote.contains 0x30C = true ∧ (pi + 1) % 1024 ≠ fieldOf v 32 10
     (s.dieAt g).mnOvf = true →
      (room → ∃ t, exec (.mnqCiWrite d) s = .next t ∧ MovedC s t ∧ (t.dieAt g).mnOvf = false ∧ (t.dieAt g).mnMdx = none ∧
        fieldOf ((t.dieAt g).reg 0x30D) 32 10 = fieldOf v 32 10 ∧ fieldOf ((t.dieAt g).reg 0x30D) 48 10 = (pi + 1) % 1024) ∧
      (¬room → ∃ t, exec (.mnqCiWrite d) s = .next t ∧ MovedOn s t ∧ (t.dieAt g).mnOvf = true ∧
        fieldOf ((t.dieAt g).reg 0x30D) 32 10 = fieldOf v 32 10 ∧ fieldOf ((t.dieAt g).reg 0x30D) 48 10 = pi)) ∧
    (let hi := BitVec.ofNat 64 (v.toNat / 2 ^ 24 * 2 ^ 24)
     let ok := wloadOk (s.onDie g fun x => x.setReg 0x31B hi) g ((s.dieAt g).reg 0x31A) hi
     ∃ t, exec (.wload d) s = .next t ∧ MovedC s t ∧ (t.dieAt g).reg 0x31B = hi ∧
      (fieldOf ((s.dieAt g).reg 0x31A) 56 2 = 1 → (t.dieAt g).reg 0x31A = (s.dieAt g).reg 0x31A ∧ (t.dieAt g).wload = (s.dieAt g).wload) ∧
      (fieldOf ((s.dieAt g).reg 0x31A) 56 2 ≠ 1 → fieldOf ((t.dieAt g).reg 0x31A) 56 2 = (if ok then 1 else 3) ∧
        (ok = true → (t.dieAt g).wload =
          some (fieldOf ((s.dieAt g).reg 0x31A) 0 56, v.toNat / 2 ^ 24 % 2 ^ 8, v.toNat / 2 ^ 32)))) ∧
    (∃ t, exec (.therm d) s = .next t ∧ MovedOn s t ∧ fieldOf ((t.dieAt g).reg 0x31E) 32 16 = 0 ∧
      fieldOf ((t.dieAt g).reg 0x31E) 0 32 = fieldOf ((s.dieAt g).reg 0x31E) 0 32 ∧
      fieldOf ((t.dieAt g).reg 0x31E) 48 16 = fieldOf ((s.dieAt g).reg 0x31E) 48 16)) ∧
  (∀ (s : State) (d : BitVec 5), let k := (s.rs d).toNat % 256
    ∃ t, exec (.rqfin d) s = .next t ∧ MovedOn s t ∧ (∀ j, j ≠ k → t.slotAt s.here.die j = s.slotAt s.here.die j) ∧
      t.slotAt s.here.die k =
        (if (s.slotAt s.here.die k).state = 1 ∨ (s.slotAt s.here.die k).state = 2 then { s.slotAt s.here.die k with fin := true, state := 3 }
         else s.slotAt s.here.die k))
/-- R197, R198, R163, R161, R415: CALL and CALLR write the address of the header after the current block to s31; CALLR reads its target first,
so that CALLR s31 goes to the old link; JR and CALLR go to the address that s[sa] holds where it translates as code. While the target's
block fetch parks the word is held, without effect. JR and CALLR trap, without effect, at an address that is not canonical, at one whose
bits [1:0] are not zero (that it leads out of range goes first), and at one that does not translate as code. -/
def Obligations.CallsAndIndirectTransfers : Prop :=
  (∀ (s : State) (o : BitVec 26), let dest : Int := (s.job.c.hdr : Int) + 4 * o.toInt
    (∀ m va sp, s.targetPark dest = some (m, va, sp) → exec (.call o) s = .next (s.parkAt .c 2 va m { x := true } sp)) ∧
    (s.targetPark dest = none → ∃ t, exec (.call o) s = .next t ∧ JobOnly s t ∧ AtHeader t.job.c (((s.job.c.hdr : Int) + 4 * o.toInt) % 2 ^ 64).toNat ∧
      ∀ r, t.rs r = if r = 31 then BitVec.ofNat 64 (headerAfter s.job.c) else s.rs r)) ∧
  (∀ (s u : State) (a : BitVec 5) (rs : List (Nat × Nat)), (s.rs a).toNat < 2 ^ 53 → (s.rs a).toNat % 4 = 0 →
    s.xlateRange { x := true } (s.rs a).toNat 4 = (.ok rs, u) →
    (∀ m va sp, s.targetPark (s.rs a).toNat = some (m, va, sp) →
      ∀ i ∈ [Instr.jr a, .callr a], exec i s = .next (s.parkAt .c 2 va m { x := true } sp)) ∧
    (s.targetPark (s.rs a).toNat = none →
      (∃ t, exec (.jr a) s = .next t ∧ JobOnly s t ∧ AtHeader t.job.c (s.rs a).toNat ∧ ∀ r, t.rs r = s.rs r) ∧
      (∃ t, exec (.callr a) s = .next t ∧ JobOnly s t ∧ AtHeader t.job.c (s.rs a).toNat ∧
        ∀ r, t.rs r = if r = 31 then BitVec.ofNat 64 (headerAfter s.job.c) else s.rs r))) ∧
  (∀ (s : State) (a : BitVec 5), ∀ i ∈ [Instr.jr a, .callr a],
    (2 ^ 53 ≤ (s.rs a).toNat → exec i s = .next (s.trapC 1 5 (s.rs a).toNat)) ∧
    (∀ c x u, (s.rs a).toNat < 2 ^ 53 → (s.rs a).toNat % 4 = 0 → s.xlateRange { x := true } (s.rs a).toNat 4 = (.bad c x, u) →
      exec i s = .next (u.trapC 1 c x)) ∧
    (∀ x u, (s.rs a).toNat < 2 ^ 53 → (s.rs a).toNat % 4 ≠ 0 → s.xlate { none := true } (s.rs a).toNat 1 = (x, u) →
      (x = .bad 2 → exec i s = .next (u.trapC 1 2 (s.rs a).toNat)) ∧ (x ≠ .bad 2 → exec i s = .next (u.trapC 2 1 (s.rs a).toNat))))
/-- R207-R210: a ring word whose condition holds acts on its header in one step: RCLAIM takes the next slot, RTAKE the next one published for
its consumer, RWFREE frees one, REOS closes the ring at what is published, RPUB marks a claimed slot ready; at a closed ring RCLAIM, and
RTAKE with nothing left, deliver 0; RCLAIM, RTAKE, RWFILL and REOS wait while their condition does not hold and RING_WAIT_COMPLETE acts once
it does; RWFREE and RPUB take the schedule fault, class 3 code 2, where theirs does not, and RTAKE and RWFREE of no consumer of the ring. -/
def Obligations.RingWordsAct : Prop :=
  ∀ (s : State) (d a b : BitVec 5) (pa : Nat), let h := s.peek pa 256
    (RingAt s a false pa → hEos h = false → behind (hCount h 8) (hCount h 12) < hN h →
      (∀ j < hNcons h, behind (hCount h 8) (hCount h (128 + 4 * j)) < hN h) →
      (∃ t, exec (.rclaim d a) s = .next t ∧ RingDone s t pa (hPut h 8 4 (hCount h 8 + 1)) (some (d, BitVec.ofNat 64 (slotAddr h (hCount h 8))))) ∧
      (s.job.c.wait = some (.rclaim d a) → s.stops .c = false → ∃ t, exec .ringWaitComplete s = .next t ∧
        RingDone s t pa (hPut h 8 4 (hCount h 8 + 1)) (some (d, BitVec.ofNat 64 (slotAddr h (hCount h 8)))))) ∧
    (∀ i ∈ [Instr.rclaim d a, .rwfill a b, .rtake d a b, .reos a], s.job.c.wait = some i → s.stops .c = false →
      exec .ringWaitComplete s = exec i s) ∧
    (RingAt s a false pa → hEos h = true → ∃ t, exec (.rclaim d a) s = .next t ∧ RingDone s t pa h (some (d, 0))) ∧
    (RingAt s a false pa → (s.rs b).toNat < hNcons h → hCount h (64 + 4 * (s.rs b).toNat) ≠ hCount h 12 →
      ∃ t, exec (.rtake d a b) s = .next t ∧ RingDone s t pa (hPut h (64 + 4 * (s.rs b).toNat) 4 (hCount h (64 + 4 * (s.rs b).toNat) + 1))
        (some (d, BitVec.ofNat 64 (slotAddr h (hCount h (64 + 4 * (s.rs b).toNat)))))) ∧
    (RingAt s a false pa → (s.rs b).toNat < hNcons h → hCount h (64 + 4 * (s.rs b).toNat) = hCount h 12 → hEos h = false →
      ∃ t, exec (.rtake d a b) s = .next t ∧ JobOnly s t ∧ t.job.c = { s.job.c with wait := some (.rtake d a b) }) ∧
    (RingAt s a false pa → hNcons h ≤ (s.rs b).toNat → exec (.rtake d a b) s = .next (s.trapC 3 2)) ∧
    (RingAt s a false pa → (s.rs b).toNat < hNcons h → hCount h (64 + 4 * (s.rs b).toNat) = hCount h 12 → hEos h = true →
      ∃ t, exec (.rtake d a b) s = .next t ∧ RingDone s t pa h (some (d, 0))) ∧
    (let waits := fun i => ∃ t, exec i s = .next t ∧ JobOnly s t ∧ t.job.c = { s.job.c with wait := some i } ∧ { t.job with c := s.job.c } = s.job
     RingAt s a false pa →
      (hEos h = false → (hN h ≤ behind (hCount h 8) (hCount h 12) ∨ ∃ j < hNcons h, hN h ≤ behind (hCount h 8) (hCount h (128 + 4 * j))) →
        waits (.rclaim d a)) ∧
      (2 ^ 31 ≤ behind (hCount h 12) ((s.rs b).toNat % 2 ^ 32) → waits (.rwfill a b)) ∧ (hCount h 12 ≠ hCount h 8 → waits (.reos a))) ∧
    (RingAt s a true pa → hNcons h ≤ (s.rs b).toNat ∨ hCount h (128 + 4 * (s.rs b).toNat) = hCount h (64 + 4 * (s.rs b).toNat) →
      exec (.rwfree a b) s = .next (s.trapC 3 2)) ∧
    (RingAt s a false pa → pubSlot h (s.rs b).toNat = none ∨ (∃ k, pubSlot h (s.rs b).toNat = some k ∧ hReady h k = true) →
      exec (.rpub a b) s = .next (s.trapC 3 2)) ∧
    (RingAt s a false pa → hCount h 12 = hCount h 8 → hEos h = true → ∃ t, exec (.reos a) s = .next t ∧ RingDone s t pa h none) ∧
    (RingAt s a true pa → (s.rs b).toNat < hNcons h → hCount h (128 + 4 * (s.rs b).toNat) ≠ hCount h (64 + 4 * (s.rs b).toNat) →
      NoneLost s (hScope h) → s.releaseReady (hScope h) = true → hScope h ≠ .sys →
      ∃ t, exec (.rwfree a b) s = .next t ∧
        RingDone s t pa (hPut h (128 + 4 * (s.rs b).toNat) 4 (hCount h (128 + 4 * (s.rs b).toNat) + 1)) none) ∧
    (RingAt s a false pa → hCount h 12 = hCount h 8 → hEos h = false →
      ∃ t, exec (.reos a) s = .next t ∧ RingDone s t pa (hPut (hPut h 0 8 (hCfg h + 2 ^ 52)) 16 4 (hCount h 12)) none) ∧
    (RingAt s a false pa → behind (hCount h 12) ((s.rs b).toNat % 2 ^ 32) < 2 ^ 31 → ∃ t, exec (.rwfill a b) s = .next t ∧ RingDone s t pa h none) ∧
    (∀ k, RingAt s a false pa → pubSlot h (s.rs b).toNat = some k → hReady h k = false → NoneLost s (hScope h) →
      s.releaseReady (hScope h) = true → hScope h ≠ .sys →
      ∃ t, exec (.rpub a b) s = .next t ∧ RingDone s t pa (ringPubs (hPut h 32 32 (ofBytes ((h.drop 32).take 32) + 2 ^ k)) 257) none) ∧
    (s.cw { rd := true, w := true } (s.rs a).toInt 256 256 = .ok pa → s.ringHeld pa false = false → rinitOk (s.rs b) = true →
      s.job.loads .c < 8 → s.job.stores .c < 16 →
      ∃ t, exec (.rinit a b) s = .next t ∧
        RingDone s t pa (bytesOf 8 ((s.rs b).toNat - (if (s.rs b).getLsbD 52 then 2 ^ 52 else 0)) ++ List.replicate 248 0) none) ∧
    (s.cw { rd := true, w := true } (s.rs a).toInt 256 256 = .ok pa → rinitOk (s.rs b) = false → exec (.rinit a b) s = .next (s.trapC 3 2))
/-- R225, R379-R381, R403, R290: TRAP takes the trap of class 9 with its code. The job of the core freezes at the trapping word, with its
registers (v-registers but for landings due), in a context at CTXP that records class, code, stream, pc and word, where the cluster's vector
table has an entry for the class; the core is idle until a handler starts. While an attention command of the engine waits for a page the
trap is kept. A supervisor job is discarded, and the contexts held stay held. It rests on the model's choices and readings: log 6, 14. -/
def Obligations.TrapTaken : Prop :=
  ∀ (s : State) (c : BitVec 6), s.job.live = true → s.job.acc = [] → s.slots = [] →
    let x : TrapInfo := { cls := 9, code := c.toNat, strm := .c, pc := s.job.c.pc, word := s.wordOf .c }
    (s.job.sup = true → ∃ t, exec (.trap c) s = .next t ∧ t.core.job = {} ∧
      t.core.held.map (fun h => { h with job := { h.job with evt := false } }) =
        s.core.held.map (fun h => { h with job := { h.job with evt := false } })) ∧
    (s.job.sup = false → s.core.engBusy = true →
      exec (.trap c) s = .next (s.onJob fun j => { j with pend := j.pend.or (some x) })) ∧
    (s.job.sup = false → s.core.engBusy = false →
      (let f := s.freeze s.me (some x)
       fieldOf (f.peek64 (clWin s.myCl (fieldOf ((f.clusterAt s.myCl).reg 0x202) 0 32 + 16 * 9))) 0 48 ≠ 0) →
      ∃ t h, exec (.trap c) s = .next t ∧ t.core.job = {} ∧ t.core.held.head? = some h ∧ h.ctxp = fieldOf (s.core.reg 0x101) 0 56 ∧
        h.trap = some x ∧ h.job.id = s.job.id ∧ h.job.s = s.job.s ∧ h.job.ar = s.job.ar ∧ h.job.c.pc = s.job.c.pc ∧
        (s.job.ckOn = true ∨ (∀ l ∈ s.job.land, 1 < l.rem) → h.job.vr = s.job.vr))
/-- R382, R54, R404, R406, R409, R419: ERET of a supervisor job whose end has nothing to wait for ends that job and makes the context at CTXP
the job of the core, with the s-registers that the context area holds; form 1 goes on at the word that trapped; form 0 after it, or after
the header of a block that could not be fetched, but at the word where an arithmetic or engine trap stopped the streams; after TRAP both go
on behind it. An arithmetic trap that the freeze kept is raised at once. At job privilege ERET traps, class 0 code 7. It rests on the
model's choices and readings: log 14, 27. -/
def Obligations.TrapReturn : Prop :=
  ∀ (s : State),
    (s.job.sup = false → exec .eretReturn s = .next (s.trapC 0 7) ∧ exec .eretResume s = .next (s.trapC 0 7)) ∧
    (∀ h, s.job.sup = true → s.core.heldHere = some h → s.job.src.r.joina = noJoin → s.job.lost = [] → exitReady s s.me = true →
      (s.dieAt (s.me / 384)).plans = [] → h.saved = [] → s.core.held = [h] → s.ecc = [] →
      paOk s (s.me / 384) h.ctxp = true →
      let back := fun t : State => t.core.job.id = h.job.id ∧ t.core.job.live = h.job.live ∧ (∀ x ∈ t.core.held, x.ctxp ≠ h.ctxp) ∧
        ∀ r : BitVec 5, t.rs r = if r = 0 then 0 else s.peek64 (h.ctxp + 0x100 + 8 * r.toNat)
      (h.job.arith = none → ∃ t u, exec .eretResume s = .next t ∧ back t ∧ exec .eretReturn s = .next u ∧ back u ∧
        ((∀ x, h.trap = some x → x.cls ≠ 9) → t.job.c.pc = h.job.c.pc ∧ t.job.a.pc = h.job.a.pc ∧ t.job.v.pc = h.job.v.pc) ∧
        ((∀ x, h.trap = some x → x.cls = 5 ∨ x.cls = 6) → u.job.c.pc = h.job.c.pc ∧ u.job.a.pc = h.job.a.pc ∧ u.job.v.pc = h.job.v.pc) ∧
        ∀ x, h.trap = some x → x.cls ≠ 5 → x.cls ≠ 6 → x.strm ≠ .m → ¬ (x.cls = 7 ∧ x.code = 3) → (h.job.blk x.strm).pc = x.pc →
          ∀ w ∈ if x.cls = 9 then [t, u] else [u],
            ((h.job.blk x.strm).mode = .run → ∀ hw more, (h.job.blk x.strm).code = hw :: more →
              w.job.blk x.strm = (h.job.blk x.strm).advance x.strm (if x.strm = .v ∨ hw.getLsbD 15 = true then 2 else 1)) ∧
            ((h.job.blk x.strm).mode ≠ .run → AtHeader (w.job.blk x.strm) ((h.job.blk x.strm).hdr + 4))) ∧
      (∀ y, h.job.arith = some y → ∀ i ∈ [Instr.eretResume, .eretReturn], ∃ w : State,
        exec i s = .next ((w.trap { y with pc := w.pcOf .v }).onCore s.me fun c => { c with preq := s.core.preq }) ∧
        w.job.id = h.job.id ∧ w.job.arith = none))
/-- R225, R88: at supervisor privilege the TLBI words remove what they name from the core's TLB and from the die's translation cache, and keep
every other entry, TLBI by ASID the global ones too (log 14); at job privilege they trap, class 0 code 7. It rests on the model's choices
and readings: log 8, 14. -/
def Obligations.TlbInvalidation : Prop :=
  ∀ (s : State) (a : BitVec 5),
    (s.job.sup = false → ∀ i ∈ [Instr.tlbiPage a, .tlbiAsid a, .tlbiAll a], exec i s = .next (s.trapC 0 7)) ∧
    (s.job.sup = true →
      (∃ t, exec (.tlbiAll a) s = .next t ∧ Dropped s t fun _ => false) ∧
      (∃ t, exec (.tlbiAsid a) s = .next t ∧ Dropped s t fun e => e.glob || e.asid != (s.rs a).toNat % 4096) ∧
      (∃ t, exec (.tlbiPage a) s = .next t ∧ Dropped s t fun e =>
        (!e.glob && e.asid != fieldOf s.core.troot 52 12) || e.va / 2 ^ e.bits != (s.rs a).toNat / 2 ^ e.bits))
/-- R213, R46, R31, R29: SPAWN reads the record at its address, adds 1 to the count of the join object that it names, and enters it at the end
of its level, with the tick of the push and the privilege of the job, once what it releases has performed; it waits, changing nothing, while
the level is full. But for the count and the record's place in its level no byte of memory changes. R214, R45: JOIN sets its object's count
to 1 and copies the record at s[sb] into bytes 32 to 63 of the object, and nothing else of memory. It rests on the model's choices and
readings: log 24. -/
def Obligations.SpawnAndJoin : Prop :=
  (∀ (s : State) (a : BitVec 5) (pa : Nat), let r := recOf (s.peek pa 32)
    s.cw { rd := true } (s.rs a).toInt 32 32 = .ok pa → s.runsFree [(pa, 32)] = true → NoneLost s .cluster → s.releaseReady .cluster = true →
    s.ecc = [] → pa < 2 ^ 52 → recBroken r = none → joinObjBad r.joina = none → (s.dieAt (s.me / 384)).plans = [] →
    ((s.clusterAt s.myCl).fullO r.prio = false → ∃ t, exec (.spawn a) s = .next t ∧ MovedC s t ∧
      (∀ x, ¬ InPlace s s.myCl r.prio x → (r.joina = noJoin ∨ x < s.winPa r.joina ∨ s.winPa r.joina + 8 ≤ x) → t.byteAt x = s.byteAt x) ∧
      (r.joina ≠ noJoin → (∀ k < 8, ¬ InPlace s s.myCl r.prio (s.winPa r.joina + k)) →
        t.peek64 (s.winPa r.joina) = s.peek64 (s.winPa r.joina) + 1) ∧
      Gained s t s.myCl r.prio fun q => q.r = r ∧ q.sup = s.job.sup ∧ q.push = s.tickOf (s.myCl / 2) ∧ q.clk = s.tickOf (s.myCl / 2) ∧ q.path = 6) ∧
    ((s.clusterAt s.myCl).fullO r.prio = true → exec (.spawn a) s = .next s)) ∧
  (∀ (s : State) (a b : BitVec 5) (obj pa : Nat), s.cw { w := true } (s.rs a).toInt 64 64 = .ok obj →
    s.cw { rd := true } (s.rs b).toInt 32 32 = .ok pa → s.runsFree [(obj, 64), (pa, 32)] = true → s.ecc = [] → pa + 32 ≤ 2 ^ 52 →
    ∃ t, exec (.join a b) s = .next t ∧ MovedC s t ∧ t.peek64 obj = 1 ∧ t.peek (obj + 32) 32 = s.peek pa 32 ∧
      ∀ x, (x < obj ∨ (obj + 8 ≤ x ∧ x < obj + 32) ∨ obj + 64 ≤ x) → t.byteAt x = s.byteAt x)
/-- R42, R215, R216, R43, R44, R47, R79, R412: RDV, EXIT and YIELD wait for their ending steps; these act only on a core whose streams, accesses
and engine are at rest and whose job does not stop at this boundary (R51, R381, R405). RDV_COMPLETE lets the C-stream and the stopped
streams go on; EXIT_END subtracts 1 from the counts of the join objects of the operand and of JOINA and leaves the core idle: a count that
comes to 0 pushes its record, one that is 0 stays and is reported; YIELD_END puts the job's record, with the new CODE and FRAME, bits [52:0]
of s30 (log 14), at the end of its level and leaves the core idle. SEGW delivers the tag of an open frame that matches, and waits while
there is none. It rests on the model's choices and readings: log 2, 14. -/
def Obligations.JobEndings : Prop :=
  ∀ (s : State) (d a b : BitVec 5),
    (∃ t, exec .rdv s = .next t ∧ JobOnly s t ∧ t.job.c = { s.job.c with wait := some .rdv } ∧ { t.job with c := s.job.c } = s.job) ∧
    (s.job.c.wait = some .rdv → s.stops .c = false →
      (rdvReady s s.me = true → ∃ t, exec .rdvComplete s = .next t ∧ JobOnly s t ∧ t.job.c = s.job.c.advance .c 2 ∧
        t.job.a = s.job.a.resumeStop ∧ t.job.v = s.job.v.resumeStop ∧ ∀ r, t.rs r = s.rs r) ∧
      (rdvReady s s.me = false → exec .rdvComplete s = .next s)) ∧
    (s.job.src.r.joina = noJoin → s.job.lost = [] → s.rs a = 0 →
      (∃ t, exec (.exit a) s = .next t ∧ JobOnly s t ∧ t.job.c = { s.job.c with wait := some (.exit a) }) ∧
      (s.job.c.wait = some (.exit a) → s.stops .c = false →
        (exitReady s s.me = true → ∃ t, exec .exitEnd s = .next t ∧ CoreIdle t ∧ ∀ x, t.byteAt x = s.byteAt x) ∧
        (exitReady s s.me = false → exec .exitEnd s = .next s))) ∧
    (∀ pa, s.job.src.r.joina = noJoin → s.job.lost = [] → s.rs a ≠ 0 → s.cw { rd := true, w := true } (s.rs a).toInt 64 64 = .ok pa →
      s.job.c.wait = some (.exit a) → s.stops .c = false → exitReady s s.me = true → 2 ≤ (s.peek64 pa).toNat → s.ecc = [] →
      ∃ t, exec .exitEnd s = .next t ∧ CoreIdle t ∧ t.peek64 pa = s.peek64 pa - 1) ∧
    (let x := s.job.src.r.joina
     let pa := clWin s.myCl x
     let r := recOf (s.peek (pa + 32) 32)
     x ≠ noJoin → s.here.core < 384 → s.job.lost = [] → s.rs a = 0 → s.job.c.wait = some (.exit a) → s.stops .c = false → exitReady s s.me = true → s.ecc = [] →
      (s.dieAt (s.me / 384)).plans = [] → pa + 64 ≤ 2 ^ 52 →
      (s.peek64 pa = 0 → ∃ t, exec .exitEnd s = .next t ∧ CoreIdle t ∧
        ∀ y, t.byteAt y = (s.err (s.me / 384) (s.me % 384) 2 0 0 pa (s.me % 384)).byteAt y) ∧
      (2 ≤ (s.peek64 pa).toNat → ∃ t, exec .exitEnd s = .next t ∧ CoreIdle t ∧ t.peek64 pa = s.peek64 pa - 1 ∧
        ∀ y, (y < pa ∨ pa + 8 ≤ y) → t.byteAt y = s.byteAt y) ∧
      (s.peek64 pa = 1 → recBroken r = none → let cl := clid (paDie pa) (paCore pa)
        (s.clusterAt cl).fullO r.prio = false → spGet [] (s.clusterAt cl).heldO r.prio = [] → (∀ k < 8, ¬ InPlace s cl r.prio (pa + k)) →
        ∃ t, exec .exitEnd s = .next t ∧ CoreIdle t ∧ t.peek64 pa = 0 ∧ Gained s t cl r.prio fun q => q.r = r ∧ q.sup = false ∧ q.path = 0)) ∧
    (192 * 2 ^ 22 ≤ s.job.src.r.joina → s.job.src.r.joina ≠ noJoin → s.rs a = 0 →
      exec (.exit a) s = .next (s.trapC 1 0 s.job.src.r.joina)) ∧
    (s.job.src.r.joina < 192 * 2 ^ 22 → s.job.src.r.joina % 64 ≠ 0 → s.rs a = 0 → exec (.exit a) s = .next (s.trapC 2 0 s.job.src.r.joina)) ∧
    (s.job.lost = [] → fieldOf (s.rs a) 48 16 = 0 → fieldOf (s.rs a) 0 2 = 0 →
      (∃ t, exec (.yield a) s = .next t ∧ JobOnly s t ∧ t.job.c = { s.job.c with wait := some (.yield a) }) ∧
      (s.job.c.wait = some (.yield a) → s.stops .c = false → exitReady s s.me = true → (s.clusterAt s.myCl).fullO (yieldRec s a).prio = false →
        recBroken (yieldRec s a) = none →
        ∃ t, exec .yieldEnd s = .next t ∧ CoreIdle t ∧ Gained s t s.myCl (yieldRec s a).prio fun q =>
          q.sup = s.job.sup ∧ fieldOf q.r.d0 0 48 = fieldOf (s.rs a) 0 48 ∧ fieldOf q.r.d0 48 16 = fieldOf s.job.src.r.d0 48 16 ∧
          fieldOf q.r.d1 0 53 = fieldOf (s.rs 30) 0 53 ∧ q.r.d2 = s.job.src.r.d2 ∧ q.r.d3 = s.job.src.r.d3)) ∧
    (∀ g, matchFrame (s.dieAt s.here.die) ((s.rs a).setWidth 32) ((s.rs b).setWidth 32) = some g →
      (∃ t, exec (.segw d a b) s = .next t ∧ WroteC s t 2 d (g.setWidth 64)) ∧
      (s.job.c.wait = some (.segw d a b) → s.stops .c = false → ∃ t, exec .segwComplete s = .next t ∧ WroteC s t 2 d (g.setWidth 64))) ∧
    (matchFrame (s.dieAt s.here.die) ((s.rs a).setWidth 32) ((s.rs b).setWidth 32) = none →
      ∃ t, exec (.segw d a b) s = .next t ∧ JobOnly s t ∧ t.job.c = { s.job.c with wait := some (.segw d a b) })
/-- R33, R39, R40, R51-R55, R383, R405: a core that runs a job takes no record, and removes what stands first in its cluster's levels and fits
no core; an idle one that has taken a record whose entry block is there and whose region fits starts it, at CODE, with the record's fields
in s1 to s3 and FRAME in s30 and a1. A pre-emption request is noted for a running job alone, and freezes it, unless a handler holds it off
or an attention command waits for a page (R290); an engine's fault is delivered as the trap that halted it. It rests on the model's choices
and readings: log 2, 28. -/
def Obligations.JobStartsAndFreezes : Prop :=
  ∀ s : State,
    (s.job.live = true →
      (∃ t, exec .jobTake s = .next t ∧ t.core.taken = s.core.taken ∧ SameJobButEvent s.job t.job) ∧
      ((∀ l < 8, ∀ p, firstPush ((s.clusterAt s.myCl).lvl l) 0 none = some p →
        ∀ q, ((s.clusterAt s.myCl).lvl l)[p.1]? = some q → neverFits s s.myCl q = false) → exec .jobTake s = .next s)) ∧
    (∀ q c w ao vo sp off, s.job.live = false → s.core.taken = some (q, none) → entryOf s s.me q = .ok c w ao vo sp → placeRegion s s.here.die s.core c = some off →
      ∃ t, exec .jobTake s = .next t ∧ t.core.taken = none ∧ t.core.job.live = true ∧ t.core.job.src = q ∧ t.core.job.roff = off ∧
        t.core.job.rcls = c ∧ t.core.job.sup = (q.sup && sp) ∧ t.core.job.c.hdr = q.r.code ∧ t.core.job.c.mode = .fetch ∧
        t.rs 1 = BitVec.ofNat 64 q.r.tagkey ∧ t.rs 2 = BitVec.ofNat 64 q.r.slot ∧ t.rs 3 = BitVec.ofNat 64 q.r.joina ∧
        t.rs 30 = BitVec.ofNat 64 q.r.frame ∧ (BitVec.getLsbD (BitVec.ofNat 4 q.r.smask) 1 = true → t.ra 1 = BitVec.ofNat 64 q.r.frame)) ∧
    (∃ t, exec .preempt s = .next t ∧ CoreOnly s t ∧ t.core = { s.core with preq := if s.job.live then true else s.core.preq }) ∧
    (s.core.preq = true → s.job.live = true → preemptHeld s s.me = false → s.eng.halt = none → s.core.engBusy = false → s.job.acc = [] → s.slots = [] →
      ∃ t h, exec .preemptionFreeze s = .next t ∧ t.core.job = {} ∧ t.core.preq = false ∧ t.core.held.head? = some h ∧
        h.ctxp = fieldOf (s.core.reg 0x101) 0 56 ∧ h.trap = none ∧ h.job.id = s.job.id ∧ h.job.s = s.job.s ∧ h.job.c.pc = s.job.c.pc) ∧
    (s.core.preq = false → exec .preemptionFreeze s = .next s) ∧
    (∀ x, s.eng.halt = some x → s.job.live = true → s.job.has .m = true → exec .engineFaultDelivery s = .next (s.trap { x with pc := s.job.c.pc })) ∧
    (s.eng.halt = none → exec .engineFaultDelivery s = .next s)
/-- R158-R164, R41: BLOCK_FETCH of a plain or counted block whose header and body translate brings the body's halfwords, of a block beyond the
loop buffer those that its header's page holds, from the first one on (in a C-stream's entry block, from the fifth), to run as often as the
header says; an entry block stops the A- and V-streams; a header that breaks Table 7-1 traps, class 0 code 3. It rests on the model's
choices and readings: log 17. -/
def Obligations.BlockFetches : Prop :=
  ∀ (s u v : State) (r1 : List (Nat × Nat)) (hb : List Byte), let st := s.here.st
    (st = .c ∨ st = .a ∨ st = .v) → s.job.live = true → (s.job.blk st).mode = .fetch → (s.job.blk st).park = none → (s.job.blk st).hdr % 4 = 0 →
    s.access { x := true } (s.job.blk st).hdr 4 1 = (.ok r1, u) → u.loadRuns u.me r1 = (.ok hb, v) → v.here = s.here → v.job = s.job →
    (headerBroken st (codeWord hb) = true →
      exec .blockFetch s = .next ((v.onBlk st fun b => { b with word := codeWord hb }).trapW st 0 3)) ∧
    (headerBroken st (codeWord hb) = false → ((codeWord hb).toNat / 2 ^ 30 = 3 → st ≠ .c → (s.job.blk st).again = false →
      ∃ t, exec .blockFetch s = .next t ∧ (t.job.blk st).mode = .stopped ∧ (t.job.blk st).hdr = (s.job.blk st).hdr)) ∧
    (∀ u2 v2 r2 bs, headerBroken st (codeWord hb) = false → ((codeWord hb).toNat / 2 ^ 30 ≠ 3 ∨ st = .c ∨ (s.job.blk st).again = true) →
      (let len := 2 * ((codeWord hb).toNat / 2 ^ 16 % 2 ^ 12)
       let n := if st = .v ∨ 4 + len ≤ 2048 then len else max 12 (min (4 + len) (8192 - (s.job.blk st).hdr % 8192)) - 4
       (v.onBlk st fun b => { b with word := codeWord hb }).access { x := true } ((s.job.blk st).hdr + 4 : Nat) n 1) = (.ok r2, u2) → u2.loadRuns u2.me r2 = (.ok bs, v2) → v2.here = s.here →
      v2.job = (v.onBlk st fun b => { b with word := codeWord hb }).job →
      ∃ t, exec .blockFetch s = .next t ∧ (t.job.blk st).mode = .run ∧ (t.job.blk st).body = halvesOf bs ∧ (t.job.blk st).hdr = (s.job.blk st).hdr ∧
        (t.job.blk st).pos = (if st = .c ∧ (codeWord hb).toNat / 2 ^ 30 = 3 then 4 else 0) ∧
        ((s.job.blk st).again = false → (t.job.blk st).left = if (codeWord hb).toNat / 2 ^ 30 = 1 then (codeWord hb).toNat % 2 ^ 16 else 1) ∧
        ((s.job.blk st).again = true → (t.job.blk st).left = (s.job.blk st).left))
/-- R31-R34, R39, R46, R49, R74, R101, R392: what the steps of the record, launch, admission and allocation windows do, the companion's once the
die is released from reset: a stored record enters its level, or is held back behind a full one; a held one enters when there is a place; a
record that has waited 64 microseconds moves to the next level; an admission enters its queue, or is held behind a full one; an allocation
takes a free frame and a free index and sets the index's record; a launch entry that is due pushes its record for its core and disarms if it
has no period. It rests on the model's choices and readings: log 2, 24, 34, 42. -/
def Obligations.RecordAndAdmissionSteps : Prop :=
  ∀ s : State, let g := s.here.die; let cl := 2 * g + s.here.cl; let l := s.here.lvl
    ((s.dieAt g).released = false →
      ∀ i ∈ [Instr.recordWindowStore, .admissionWindowStore, .allocationWindowRead], exec i s = .next s) ∧
    (let r := s.here.job
     recBroken r = none → (s.dieAt g).released = true →
      ((s.clusterAt cl).fullO r.prio = false → spGet [] (s.clusterAt cl).heldO r.prio = [] →
        ∃ t, exec .recordWindowStore s = .next t ∧ (∀ x, ¬ InPlace s cl r.prio x → t.byteAt x = s.byteAt x) ∧
          Gained s t cl r.prio fun q => q.r = r ∧ q.sup = true ∧ q.push = s.tickOf (cl / 2) ∧ q.path = 1) ∧
      ((s.clusterAt cl).fullO r.prio = true → ∃ t q, exec .recordWindowStore s = .next t ∧ (t.clusterAt cl).q = (s.clusterAt cl).q ∧
        spGet [] (t.clusterAt cl).heldO r.prio = spGet [] (s.clusterAt cl).heldO r.prio ++ [q] ∧ q.r = r)) ∧
    (∀ q rest, spGet [] (s.clusterAt cl).heldR l = q :: rest → (s.clusterAt cl).fullR l = false → q.r.prio = l →
      ∃ t, exec .heldPushEntry s = .next t ∧ spGet [] (t.clusterAt cl).heldR l = rest ∧ Gained s t cl l fun x => x.r = q.r ∧ x.sup = q.sup) ∧
    (∀ q, l < 7 → ((s.clusterAt cl).lvl l)[s.here.k]? = some q → q.clk.toNat + 64000 ≤ (s.tickOf g).toNat → (s.clusterAt cl).fullO (l + 1) = false →
      (∀ x ∈ (s.clusterAt cl).lvl l, x.clk.toNat + 64000 ≤ (s.tickOf g).toNat → q.push ≤ x.push) →
      neverFits s cl q = false →
      ∃ t p, exec .recordPromotion s = .next t ∧ (t.clusterAt cl).lvl l = dropNth ((s.clusterAt cl).lvl l) s.here.k ∧
        (t.clusterAt cl).lvl (l + 1) = (s.clusterAt cl).lvl (l + 1) ++ [{ q with clk := s.tickOf g, place := p }] ∧ ∀ x ∈ (s.clusterAt cl).lvl (l + 1), x.place ≠ p) ∧
    ((s.dieAt g).released = true → (s.dieAt g).adm.length < 1024 → (s.dieAt g).admHeld = [] → bitOf (modelEnt s g (fieldOf s.here.adm.d1 54 6)) 63 = true →
      ∃ t, exec .admissionWindowStore s = .next t ∧ (t.dieAt g).adm = (s.dieAt g).adm ++ [{ r := admKept s.here.adm }] ∧ ∀ x, memGet t.mem x = memGet s.mem x) ∧
    ((s.dieAt g).released = true → 1024 ≤ (s.dieAt g).adm.length → ∃ t, exec .admissionWindowStore s = .next t ∧ (t.dieAt g).adm = (s.dieAt g).adm ∧
      (t.dieAt g).admHeld = (s.dieAt g).admHeld ++ [admKept s.here.adm]) ∧
    (∀ r rest, (s.dieAt g).admHeld = r :: rest → (s.dieAt g).adm.length < 1024 → bitOf (modelEnt s g (fieldOf r.d1 54 6)) 63 = true →
      ∃ t, exec .admissionHeldEntry s = .next t ∧ (t.dieAt g).admHeld = rest ∧ (t.dieAt g).adm = (s.dieAt g).adm ++ [{ r := r }]) ∧
    (∀ k f i, (s.dieAt g).released = true → chooseFrame s g (s.slotAt g s.here.slot).cursor = some (k, f) → freeMd s g = some i →
      ∃ t, exec .allocationWindowRead s = .next t ∧ (t.dieAt g).kvUsed = frameKey k f :: (s.dieAt g).kvUsed ∧ (t.dieAt g).mdUsed = i :: (s.dieAt g).mdUsed ∧
        (t.slotAt g s.here.slot).cursor = (k + 1) % 48 ∧ t.peek (mdPa s g i) 256 =
          List.replicate 236 0 ++ bytesOf 2 1 ++ [BitVec.ofNat 8 s.here.slot, 0x80] ++ bytesOf 8 (framePa s g k f) ++ List.replicate 8 0) ∧
    (freeMd s g = none → exec .allocationWindowRead s = .next s) ∧
    (launchDue s g s.here.e = false → exec .launchEntryFire s = .next s) ∧
    (s.here.e < 256 → launchDue s g s.here.e = true → (∀ k < s.here.e, launchDue s g k = false) →
      let pa := ctlPa g (0x20000 + 64 * s.here.e)
      let w := s.peek64 (pa + 8)
      let r := recOf (s.peek (pa + 32) 32)
      let r := { r with d1 := setField (setField r.d1 61 1 1) 53 8 (fieldOf w 32 9 % 192) }
      let c := clid g (fieldOf w 32 9)
      fieldOf w 32 9 < 384 → fieldOf w 41 9 = 0 → fieldOf w 51 12 = 0 → s.peek64 (pa + 16) = 0 → s.peek64 (pa + 24) = 0 → fieldOf w 0 32 = 0 →
      bitOf w 50 = false → recBroken r = none → (s.clusterAt c).fullR r.prio = false → spGet [] (s.clusterAt c).heldR r.prio = [] →
      ∃ t, exec .launchEntryFire s = .next t ∧ t.peek64 (pa + 8) = setField w 63 1 0 ∧
        Gained s t c r.prio fun q => q.r = r ∧ q.sup = true ∧ q.path = 2)
/-- R249-R258, R260, R262, R266-R274, R170, R171: every word of the V-stream that computes its registers element by element issues, whatever its
operands; at the landing each active place receives its result, an inactive one is not written, and the flags are those of the active
places. It rests on the model's choices and readings: log 45. -/
def Obligations.VectorElementResults : Prop :=
  ∀ (i : Instr) (s : State) (base k : Nat) (q : BitVec 3) (w lat : Nat) (g : Nat → Nat → Nat) (f : Nat → Nat → Nat × Fl),
    VGroup s i base k q w lat g f →
    ∃ t vs fl, exec i s = .next t ∧ IssuedV s t lat { vs := vs, flags := fl } ∧ vs.length = k ∧
      (∀ r < k, ∃ x m, vs[r]? = some (physV (base + r) s.job.vrb, x, m) ∧ ∀ p < 4096 / w,
        vElem w m p = (if (s.rq q).getLsbD (g r p) then 2 ^ w - 1 else 0) ∧
        ((s.rq q).getLsbD (g r p) = true → vElem w x p = (f r p).1 % 2 ^ w)) ∧
      FlagsOf fl fun y => ∃ r < k, ∃ p < 4096 / w, (s.rq q).getLsbD (g r p) = true ∧ y = (f r p).2
/-- R259, R261, R263, R264, R265: VCMP writes the bits of the active elements alone, the predicate logic words all 1,024 bits; VCVT writes all
512 bytes, zero past its results; VQMX writes codes and scales of the active blocks alone. It rests on the model's choices and readings: log
17. -/
def Obligations.VectorPredicatesAndConversions : Prop :=
  (∀ (s : State) (c : VCond) (p : BitVec 3) (a b : BitVec 6) (q : BitVec 3) (t : VTy), isF t = true ∨ (isI t = true ∧ c ≠ .uo ∧ c ≠ .od) →
    ∃ u x m, exec (.vcmp c p a b q t) s = .next u ∧ IssuedV s u 3 { qs := [(p.toNat, x, m)] } ∧
      ∀ i < 1024, (m.getLsbD i = true ↔ i < 4096 / vtyWidth t ∧ (s.rq q).getLsbD i = true) ∧
        (m.getLsbD i = true → (x.getLsbD i = true ↔ CmpHolds t c (el s t a i) (el s t b i)))) ∧
  (∀ (i : Instr) (s : State) (d : BitVec 3) (x : QReg), PLog s i d x →
    ∃ t, exec i s = .next t ∧ IssuedV s t 2 { qs := [(d.toNat, x, BitVec.allOnes 1024)] }) ∧
  (∀ (s : State) (d a : BitVec 6) (u : VTy) (r : Rm) (t : VTy), isCvt u = true → isCvt t = true → u ≠ t →
    let n := 4096 / max (vtyWidth u) (vtyWidth t)
    let cv := fun i => convert u t r (if r = .sr then srBits s.job.src.r.d3 s.job.ord i else 0) (el s u a i)
    ∃ v x fl, exec (.vcvt d a u r t) s = .next v ∧ WroteV s v d 4 x fl ∧
      (∀ i < 4096 / vtyWidth t, vElem (vtyWidth t) x i = if i < n then (cv i).1 % 2 ^ vtyWidth t else 0) ∧
      FlagsOf fl fun y => ∃ i < n, y = (cv i).2) ∧
  (∀ (s : State) (d a b : BitVec 6) (q : BitVec 3) (t : VTy), isF t = true →
    let n := 4096 / vtyWidth t / 32
    let blk := fun k => qmx ((List.range 32).map fun i => elF s t a (32 * k + i))
    ∃ u cx cm sx sm fl, exec (.vqmx d a b q t) s = .next u ∧
      IssuedV s u 6 { vs := [(physV d.toNat s.job.vrb, cx, cm), (physV b.toNat s.job.vrb, sx, sm)], flags := fl } ∧
      (∀ i < 1024, vElem 4 cm i = (if i / 32 < n ∧ (s.rq q).getLsbD (i / 32) = true then 15 else 0) ∧
        (i / 32 < n → (s.rq q).getLsbD (i / 32) = true → vElem 4 cx i = ((blk (i / 32)).2.1.getD (i % 32) 0) % 16)) ∧
      (∀ k < 512, vElem 8 sm k = (if k < n ∧ (s.rq q).getLsbD k = true then 255 else 0) ∧
        (k < n → (s.rq q).getLsbD k = true → vElem 8 sx k = (blk k).1 % 256)) ∧
      FlagsOf fl fun y => ∃ k < n, (s.rq q).getLsbD k = true ∧ y = (blk k).2.2)
/-- R153, R154, R275, R276: the reductions write all 512 bytes, with the result in the low ones. An inactive lane is the identity. Of an integer
type VRSUM gives the sum of the active elements on 32 bits, VRMAX and VRMIN the greatest and least lane, VRARGMAX the greatest lane with its
lowest index, no flag. Of a floating-point type VRSUM gives the tree of R153 over the lanes as f32, each sum rounded to nearest even, with
the flags of all; VRMAX and VRMIN the greatest and least lane with -0 below +0, or the canonical NaN where a lane is a NaN; VRARGMAX the
lowest index of the greatest lane, or of a NaN with the canonical NaN, no flag; index 0 where no lane is active. -/
def Obligations.VectorReductions : Prop :=
  ∀ (s : State) (d a : BitVec 6) (q : BitVec 3) (t : VTy), let n := 4096 / vtyWidth t
    (isI t = true →
      (∃ u, exec (.vrsum d a q t) s = .next u ∧ WroteV s u d 6 (BitVec.ofNat 4096
        (wrapW 32 ((((List.range n).filter fun i => (s.rq q).getLsbD i).map fun i => elI s t a i).foldl (· + ·) 0))) 0) ∧
      (∃ u v, exec (.vrmax d a q t) s = .next u ∧ WroteV s u d 6 (BitVec.ofNat 4096 v) 0 ∧ (∃ i < n, v = lane s a q t (maxIdent t) i) ∧
        ∀ i < n, intOf t (lane s a q t (maxIdent t) i) ≤ intOf t v) ∧
      (∃ u v, exec (.vrmin d a q t) s = .next u ∧ WroteV s u d 6 (BitVec.ofNat 4096 v) 0 ∧ (∃ i < n, v = lane s a q t (minIdent t) i) ∧
        ∀ i < n, intOf t v ≤ intOf t (lane s a q t (minIdent t) i)) ∧
      (∃ u k, exec (.vrargmax d a q t) s = .next u ∧ k < n ∧
        WroteV s u d 6 (BitVec.ofNat 4096 (lane s a q t (maxIdent t) k + k * 2 ^ 32)) 0 ∧
        (∀ i < n, intOf t (lane s a q t (maxIdent t) i) ≤ intOf t (lane s a q t (maxIdent t) k)) ∧
        (∀ i < k, intOf t (lane s a q t (maxIdent t) i) < intOf t (lane s a q t (maxIdent t) k)))) ∧
    (isF t = true →
      let nan := fun i => ((fmtOf t).val (lane s a q t 0 i)).isNan
      let hi := fun i => (fmtOf t).val (lane s a q t ((fmtOf t).infBits true) i)
      let lo := fun i => (fmtOf t).val (lane s a q t ((fmtOf t).infBits false) i)
      (∃ u, exec (.vrsum d a q t) s = .next u ∧
        let r := treeOf t (fun (x y : Nat × Fl) =>
            let z := rneTo .f32 (addNum (fmtF32.val x.1) (fmtF32.val y.1))
            (z.1, x.2 ||| y.2 ||| z.2))
          ((List.range n).map fun i => ((if (s.rq q).getLsbD i then (fmtF32.rne (elF s t a i)).1 else 0x80000000, 0) : Nat × Fl)) (0, 0)
        WroteV s u d 6 (BitVec.ofNat 4096 r.1) r.2) ∧
      (∃ u v, exec (.vrmax d a q t) s = .next u ∧ WroteV s u d 6 (BitVec.ofNat 4096 v) 0 ∧
        ((∃ i < n, nan i = true) → v = (fmtOf t).nan) ∧
        ((∀ i < n, nan i = false) → (∃ i < n, v = lane s a q t ((fmtOf t).infBits true) i) ∧
          ∀ i < n, ltSigned ((fmtOf t).val v) (hi i) = false)) ∧
      (∃ u v, exec (.vrmin d a q t) s = .next u ∧ WroteV s u d 6 (BitVec.ofNat 4096 v) 0 ∧
        ((∃ i < n, nan i = true) → v = (fmtOf t).nan) ∧
        ((∀ i < n, nan i = false) → (∃ i < n, v = lane s a q t ((fmtOf t).infBits false) i) ∧
          ∀ i < n, ltSigned (lo i) ((fmtOf t).val v) = false)) ∧
      (∃ u k v, exec (.vrargmax d a q t) s = .next u ∧ k < n ∧ WroteV s u d 6 (BitVec.ofNat 4096 (v + k * 2 ^ 32)) 0 ∧
        ((∃ i < n, nan i = true) → nan k = true ∧ v = (fmtOf t).nan ∧ ∀ i < k, nan i = false) ∧
        ((∀ i < n, nan i = false) → v = lane s a q t ((fmtOf t).infBits true) k ∧
          (∀ i < n, ltSigned (hi k) (hi i) = false) ∧ ∀ i < k, ltSigned (hi i) (hi k) = true) ∧
        ((∀ i < n, (s.rq q).getLsbD i = false) → k = 0)))
/-- R277-R284, R95, R174, R50: VPOP lands the head of its dq and takes it off, so that a pop of the matrix engine that reached the dq behind it
is next; it waits at an empty dq, and behind a pop of the engine that reached it before; it traps where the tag is not the one it checks.
VPUSH lands an entry of its oq, or waits at a full one. Both trap in a job without an A-stream. VSETT and VLDC land in their small
registers; VROT sets VRB; VNOP and REALN hold the stream still, REALN until the first boundary of the die tick after its issue. -/
def Obligations.VectorQueueAndSmallWords : Prop :=
  ∀ (s : State) (d a : BitVec 6) (q x : BitVec 3) (o : BitVec 2) (k : BitVec 4) (n : BitVec 5) (c : BitVec 18),
    (s.job.smask.getLsbD 1 = false → exec (.vpop d q x) s = .next (s.trapW .v 3 4) ∧ exec (.vpush o a) s = .next (s.trapW .v 3 4)) ∧
    (s.job.smask.getLsbD 1 = true →
      (∀ e rest v, spGet [] s.job.dq q.toNat = e :: rest → e.data = some v → engFirst s q.toNat = false →
        (x = 0 ∨ s.rxt x = 0 ∨ s.rxt x = e.tag → ∃ t, exec (.vpop d q x) s = .next t ∧
          WroteV ((s.setEng { s.eng with popw := s.eng.popw.map fun p => (p.1, p.2 && p.1 != q.toNat) }).onJob fun j =>
            { j with dq := spSet j.dq q.toNat rest }) t d 1 v 0) ∧
        (x ≠ 0 → s.rxt x ≠ 0 → s.rxt x ≠ e.tag →
          exec (.vpop d q x) s = .next (s.trap { s.trapAt .v 3 1 with d44 := (s.rxt x).toNat * 65536 + e.tag.toNat }))) ∧
      ((spGet [] s.job.dq q.toNat = [] ∨ (∃ e rest, spGet [] s.job.dq q.toNat = e :: rest ∧ e.data = none) ∨ engFirst s q.toNat = true) →
        ∃ t, exec (.vpop d q x) s = .next t ∧ JobOnly s t ∧
          t.job = { s.job with v := { s.job.v with wait := some (.vpop d q x) }, ckOn := false }) ∧
      (s.job.oqCount o.toNat < 16 → ∃ t, exec (.vpush o a) s = .next t ∧ IssuedV s t 1 { oq := some (o.toNat, s.rv a.toNat) }) ∧
      (16 ≤ s.job.oqCount o.toNat →
        ∃ t, exec (.vpush o a) s = .next t ∧ JobOnly s t ∧
          t.job = { s.job with v := { s.job.v with wait := some (.vpush o a) }, ckOn := false })) ∧
    (∃ t, exec (.vsett x a) s = .next t ∧ IssuedV s t 2 { xt := some (x.toNat, (s.rv a.toNat).setWidth 16) }) ∧
    (∃ t, exec (.vldc k a) s = .next t ∧ IssuedV s t 2 { kc := some (k.toNat, (s.rv a.toNat).setWidth 32) }) ∧
    (∃ t, exec (.vrot n) s = .next t ∧ PassedV s t n s.job.vnop) ∧
    (∃ t, exec (.vnop c) s = .next t ∧ PassedV s t s.job.vrb c.toNat) ∧
    (let ph := fieldOf ((s.dieAt s.here.die).reg 0x300) 32 32
     let per := fieldOf ((s.dieAt s.here.die).reg 0x300) 0 32
     let now := (s.tickOf s.here.die).toNat
     (per = 0 → ∃ t, exec .realn s = .next t ∧ PassedV s t s.job.vrb s.job.vnop) ∧
     (per ≠ 0 → now + per < 2 ^ 64 → ∃ t b, exec .realn s = .next t ∧ JobOnly s t ∧ t.job = { s.job with realn := some b, ckOn := false } ∧
       now < b.toNat ∧ b.toNat ≤ now + per ∧ b.toNat % per = ph % per)) ∧
    (∀ b, s.job.realn = some b → (b ≤ s.tickOf s.here.die → s.stops .v = false →
        ∃ t, exec .realnBoundary s = .next t ∧ PassedV (s.onJob fun j => { j with realn := none }) t s.job.vrb s.job.vnop) ∧
      (¬ b ≤ s.tickOf s.here.die ∨ s.stops .v = true → exec .realnBoundary s = .next s))
/-- R172-R174, R277, R279, R404: while the V-stream issues nothing, and its job does not stop, a ck of WRITE_BACK_LANDING applies what is due,
and a flag that it raises with its TEN bit set takes the arithmetic trap after every element is written; in QUEUE_WAIT_COMPLETE a VPOP or
VPUSH that waited at a queue which lets it go on issues, and SQ delivers the head. It rests on the model's choices and readings: log 2. -/
def Obligations.VectorLandings : Prop :=
  ∀ s : State, s.job.ckOn = false → let ten : Fl := BitVec.ofNat 5 (fieldOf s.job.fps 8 5)
    (s.stops .v = false → (∀ l ∈ dueNow s, l.flags &&& ten = 0) →
      (s.job.live = true → s.vHeld = true →
        ∃ t, exec .writeBackLanding s = .next t ∧ JobOnly s t ∧ Landed s t.job ∧ t.job.vnop = s.job.vnop - 1 ∧ t.job.v = s.job.v ∧
          t.job.ord = s.job.ord) ∧
      (∀ d q x e rest v, s.here.st = .v → s.job.v.wait = some (.vpop d q x) → spGet [] s.job.dq q.toNat = e :: rest → e.data = some v →
        engFirst s q.toNat = false → x = 0 →
        ∃ t l, exec .queueWaitComplete s = .next t ∧ CoreOnly s t ∧ spGet [] t.job.dq q.toNat = rest ∧ t.job.land.getLast? = some l ∧
          l.rem = 1 ∧ l.vs = [(physV d.toNat s.job.vrb, v, BitVec.allOnes 4096)] ∧ t.job.v = s.job.v.advance .v 2 ∧ t.job.ord = s.job.ord + 1) ∧
      (∀ o a, s.here.st = .v → s.job.v.wait = some (.vpush o a) → s.job.oqCount o.toNat < 16 →
        ∃ t l, exec .queueWaitComplete s = .next t ∧ JobOnly s t ∧ t.job.land.getLast? = some l ∧ l.rem = 1 ∧
          (∃ v, l.oq = some (o.toNat, v)) ∧ t.job.v = s.job.v.advance .v 2 ∧ t.job.ord = s.job.ord + 1)) ∧
    (∀ l, s.stops .v = false → s.job.live = true → s.vHeld = true → (dueNow s).find? (fun l => (l.flags &&& ten) != 0) = some l →
      ∃ u x, exec .writeBackLanding s = .next (u.trap x) ∧ JobOnly s u ∧ Landed s u.job ∧ x.cls = 5 ∧ x.strm = .v ∧
        x.code = ((dueNow s).foldl (fun f l => f ||| l.flags) (0 : Fl) &&& ten).toNat ∧ x.d48 = l.pc) ∧
    (∀ d e l v, s.here.st = .c → s.stops .c = false → s.job.c.wait = some (.sq d) → s.job.sq = e :: l → e.data = some v →
      ∃ t, exec .queueWaitComplete s = .next t ∧ JobOnly s t ∧ t.job.sq = l ∧ t.job.c = s.job.c.advance .c 2 ∧
        ∀ r, t.rs r = if r = 0 then 0 else if r = d then v else s.rs r)
/-- R218, R219, R181: MXQ and MXD enter their command at the end of the core's command queue; a command that decode refuses traps, class 0 code
9, with its doublewords; a job without the matrix engine takes the schedule fault; a full queue holds the word. R218, R220, R221, R344,
R349: XFC hands its chain to a transfer engine of the cluster, EVX its command to the die's scraper; each waits at a full queue. CPLAN, its
record good, waits for PLAN_RESERVATION, which reserves the lowest free place under a handle that is not 0, and its window, and writes the
handle to s[sd], or writes 0; CTRIG enters its value among the plan's pending firings. It rests on the model's choices and readings: log 15,
18, 19, 29, 44. -/
def Obligations.EnginePushes : Prop :=
  (∀ (i : Instr) (s : State) (bad : Bool) (m : MEnt), MxPush s i bad m →
    (bad = true → exec i s = .next (s.trap { s.trapAt .c 0 9 with d48 := m.lo.toNat, d56 := m.hi.toNat })) ∧
    (bad = false → s.job.has .m = false → exec i s = .next (s.trapC 3 4)) ∧
    (bad = false → s.job.has .m = true → 16 ≤ s.eng.q.length → exec i s = .next s) ∧
    (bad = false → s.job.has .m = true → s.eng.q.length < 16 → Releases s .core →
      ∃ t, exec i s = .next t ∧ MovedC s t ∧ t.eng = { s.eng with q := s.eng.q ++ [m] } ∧ ∀ x, t.byteAt x = s.byteAt x)) ∧
  (∀ (s : State) (d a b : BitVec 5), let g := s.here.die
    (let va := (s.rs a).toNat
     let e := (s.rs b).toNat % 2
     (va % 128 ≠ 0 → exec (.xfc a b) s = .next (s.trapC 2 3 va)) ∧
     (va % 128 = 0 → 32 ≤ ((s.clusterAt s.myCl).xeng e).heads.length → exec (.xfc a b) s = .next s) ∧
     (va % 128 = 0 → ((s.clusterAt s.myCl).xeng e).heads.length < 32 → Releases s .cluster →
       ∃ t, exec (.xfc a b) s = .next t ∧ MovedC s t ∧ ((t.clusterAt s.myCl).xeng e).heads =
         ((s.clusterAt s.myCl).xeng e).heads ++ [{ pc := va, core := s.me, root := s.core.troot, sup := s.job.sup }])) ∧
    (16 ≤ (s.dieAt g).scr.length → exec (.evx a b) s = .next s) ∧
    ((s.dieAt g).scr.length < 16 → Releases s .die →
      ∃ t, exec (.evx a b) s = .next t ∧ MovedC s t ∧
        (t.dieAt g).scr = (s.dieAt g).scr ++ [{ lo := s.rs a, hi := s.rs b, cl := s.here.core / 192 }]) ∧
    (∀ r u, PlanRead s a r u → u.here = s.here →
      (∃ t, exec (.cplan d a) s = .next t ∧ JobOnly u t ∧ t.job = { u.job with c := { u.job.c with wait := some (.cplan d a) } }) ∧
      (s.job.c.wait = some (.cplan d a) → s.stops .c = false →
        (∀ k, freePlace (u.dieAt g).plans 256 = some k → windowRoom u r = true →
          ∃ t p, exec .planReservation s = .next t ∧ (t.dieAt g).plan k = some p ∧ p.bytes = r ∧ p.job = u.job.id ∧ p.core = u.here.core ∧
            p.f = 0 ∧ p.pend = [] ∧ p.gen ≠ 0 ∧ p.va = (s.rs a).toNat ∧ p.root = u.core.troot ∧ p.sup = u.job.sup ∧
            (pRwv r = true → (t.wayAt (wayOf r)).wins = (u.wayAt (wayOf r)).wins ++ [{ die := g, place := k, pa := pRwpa r, lines := pRwLines r }]) ∧
            (pRwv r = false → t.ways = u.ways) ∧ t.job.c = u.job.c.advance .c 2 ∧
            ∀ n, t.rs n = if n = 0 then 0 else if n = d then BitVec.ofNat 64 (p.gen * 256 + k) else u.rs n) ∧
        (freePlace (u.dieAt g).plans 256 = none ∨ windowRoom u r = false →
          ∃ t, exec .planReservation s = .next t ∧ WroteC u t 2 d 0))) ∧
    (∀ p, (s.dieAt g).plan ((s.rs a).toNat % 256) = some p → planHandle ((s.rs a).toNat % 256) p = (s.rs a).toNat → p.job = s.job.id →
      p.abort = none → p.pend.length < 255 → Releases s .sys → s.core.nt = [] →
      ∃ t, exec (.ctrig a b) s = .next t ∧ MovedC s t ∧
        (t.dieAt g).plan ((s.rs a).toNat % 256) = some { p with pend := p.pend ++ [s.rs b] }) ∧
    ((∀ p, (s.dieAt g).plan ((s.rs a).toNat % 256) = some p → planHandle ((s.rs a).toNat % 256) p ≠ (s.rs a).toNat ∨ p.job ≠ s.job.id) →
      exec (.ctrig a b) s = .next (s.trapC 7 0)))
/-- R222, R369, R370, R444, R445: CSEAL, once the job's streams and engines are at rest, ends the tagging of the job's stores, writes the report
of what it sent and delivers the number of destinations; CMANI makes the consignment MANIFESTED, sends its entry to every destination and a
census round the ring, and aborts it at once where an entry names a bypassed die; CABORT sends its request to the coordinator. A handle of
more than 32 bits traps, class 8 code 0. It rests on the model's choices and readings: log 12. -/
def Obligations.ConsignmentWords : Prop :=
  ∀ (s : State) (d a b : BitVec 5), let g := s.here.die; let v := (s.rs a).toNat
    (∀ pa, let ds := sentTo s.job v
      let n := 16 + 16 * ds.length
      v < 2 ^ 32 → v ≠ 0 → fieldOf s.job.cncur 0 32 = v → bitOf s.job.cncur 40 = false → s.job.lost = [] →
      s.cw { w := true } (s.rs b).toInt n 1 = .ok pa → cwPieces s (s.rs b).toNat n 3 = [(pa, n)] → pa + n ≤ 2 ^ 52 →
      (rdvReady s s.me = true → s.runsFree [(pa, n)] = true →
        ∃ t, exec (.cseal d a b) s = .next t ∧ t.peek pa n = sealReport v ds ∧ (∀ x, (x < pa ∨ pa + n ≤ x) → t.byteAt x = s.byteAt x) ∧
          t.job.cncur = setField s.job.cncur 40 1 1 ∧ t.job.c = s.job.c.advance .c 2 ∧ t.job.a = s.job.a.resumeStop ∧
          ∀ r, t.rs r = if r = 0 then 0 else if r = d then BitVec.ofNat 64 ds.length else s.rs r) ∧
      (rdvReady s s.me = false → exec (.cseal d a b) s = .next s)) ∧
    (∀ pa pa2 k c m u, v < 2 ^ 32 → v ≠ 0 → cnOpenOn s g v = true → cnDie v = g → (s.dieAt g).coord v = some (k, c) →
      spFind (s.dieAt g).coords k = some c → c.state = 1 →
      s.cw { rd := true } (s.rs b).toInt 16 1 = .ok pa → s.runsFree (cwPieces s (s.rs b).toInt.toNat 16 3) = true →
      let n := fieldOf (BitVec.ofNat 64 (ofBytes ((cwPieces s (s.rs b).toInt.toNat 8 3).flatMap fun p => s.peek p.1 p.2))) 56 8
      n ≠ 0 → s.cw { rd := true } (s.rs b).toInt (16 + 16 * n) 1 = .ok pa2 →
      s.runsFree (cwPieces s (s.rs b).toInt.toNat (16 + 16 * n) 3) = true →
      s.loadRuns s.me (cwPieces s (s.rs b).toInt.toNat (16 + 16 * n) 3) = (.ok m, u) → u.here = s.here → u.dies = s.dies →
      manifestOk u g m = true → Releases u (if fieldOf (dwAt m 0) 50 3 = 5 then .sys else .ring) → u.core.nt = [] → c.stata + 8 ≤ 2 ^ 52 →
      ((∃ i < n, (u.dieAt (paDie (dwAt m (16 + 16 * i)).toNat)).bypassed = true) →
        ∃ t x, exec (.cmani a b) s = .next t ∧ spFind (t.dieAt g).coords k = some x ∧ x.state = 5 ∧ x.handle = c.handle) ∧
      ((∀ i < n, (u.dieAt (paDie (dwAt m (16 + 16 * i)).toNat)).bypassed = false) →
      ∃ (t : State) (x : Coord) (es : List Msg), exec (.cmani a b) s = .next t ∧ spFind (t.dieAt g).coords k = some x ∧ x.state = 2 ∧ x.handle = c.handle ∧
        x.scope = fieldOf (dwAt m 0) 50 3 ∧ x.lead = fieldOf (dwAt m 0) 0 32 ∧ x.ents.length = fieldOf (dwAt m 0) 56 8 ∧
        t.peek64 c.stata = BitVec.ofNat 64 (2 * 2 ^ 60 + v) ∧ t.job.c = u.job.c.advance .c 2 ∧
        t.msgs = u.msgs ++ es ++ [{ kind := .census, dst := cwNext t g, src := g, handle := v }] ∧ es.length = x.ents.length ∧
        ∀ (i : Nat) (e : ManEnt), x.ents[i]? = some e → ∃ y : Msg, es[i]? = some y ∧ y.kind = .manifest ∧ y.dst = paDie e.stata ∧ y.handle = v ∧ y.x = e.stata ∧ y.y = e.expect)) ∧
    (∀ pa k x y, s.cw { rd := true } (s.rs b).toInt 16 1 = .ok pa → s.runsFree (cwPieces s (s.rs b).toInt.toNat 16 3) = true →
      let n := fieldOf (BitVec.ofNat 64 (ofBytes ((cwPieces s (s.rs b).toInt.toNat 8 3).flatMap fun p => s.peek p.1 p.2))) 56 8
      s.cw { rd := true } (s.rs b).toInt (16 + 16 * n) 1 = .error (k, x, y) → exec (.cmani a b) s = .next (s.trapC k x y)) ∧
    (v < 2 ^ 32 → cnDieOk s g v = true →
      ∃ t, exec (.cabort a) s = .next t ∧ PassedC { s with msgs := t.msgs } t ∧
        t.msgs = s.msgs ++ [{ kind := .abortReq, dst := cnDie v, src := g, handle := v, x := 1 }]) ∧
    (v < 2 ^ 32 → cnDieOk s g v = false → exec (.cabort a) s = .next (s.trapC 8 6)) ∧
    (2 ^ 32 ≤ v → exec (.cabort a) s = .next (s.trapC 8 0))
/-- R285, R288, R290: a step of the engine does nothing while its command is not at the head, the engine may not act or a semaphore of its wait
mask is 0; it first takes 1 from each of them and then goes on as if they had been taken; a check that fails before the command has had an
effect takes the waits back, leaves the command at the head and halts the engine, class 6; a command whose pages are in motion waits. R310,
R312, R317: a command of a chain does nothing while its chain is not there, is at another command, parked or past it; it first takes 1 from
each event count that WAIT names, all at once and only once every one is at least 1, and then goes on as if they had been taken. It rests on
the model's choices and readings: log 2, 15, 19. -/
def Obligations.EngineTurns : Prop :=
  (∀ (i : Instr) (is : Nat → Bool) (chk : State → Nat → EChk) (s : State), EngCmd i is chk →
    (s.eng.head = none ∨ engActs s = false ∨ (∃ c, s.eng.head = some c ∧ is c = false) → exec i s = .next s) ∧
    ∀ c, s.eng.head = some c → engActs s = true → is c = true →
      (s.eng.step1 = false → countsReady s.job.sem (cWait c) 8 = false → exec i s = .next s) ∧
      (s.eng.step1 = false → countsReady s.job.sem (cWait c) 8 = true →
        exec i s = exec i ((s.onJob fun j => { j with sem := takeCounts j.sem (cWait c) 8 }).setEng { s.eng with step1 := true })) ∧
      (s.eng.step1 = true → s.eng.prog = 0 → s.eng.clr = false →
        (∀ k a, s.job.pend = none → chk s c = .bad k a → ∃ t x, exec i s = .next t ∧ t.eng.halt = some x ∧ x.cls = 6 ∧ x.code = k ∧ x.addr = a ∧
          x.d48 = c % 2 ^ 64 ∧ x.d56 = c / 2 ^ 64 ∧ t.eng.q = s.eng.q ∧ t.eng.step1 = false ∧ t.eng.z = s.eng.z ∧
          CountsGo s.job.sem t.job.sem (cWait c) 8 (fun n => min (n + 1) 255) ∧ ∀ x, t.byteAt x = s.byteAt x) ∧
        (chk s c = .wait → exec i s = .next s))) ∧
  (∀ (i : Instr) (op : Nat) (s : State), ChCmd i op →
    (s.chain s.chId = none → exec i s = .next s) ∧
    ∀ c, s.chain s.chId = some c →
      (c.op ≠ op ∨ c.park ≠ none ∨ c.ph = .read ∨ c.ph = .retire → exec i s = .next s) ∧
      (c.op = op → c.park = none → c.ph = .wait →
        (countsReady (s.clusterAt s.chId.cl).ev c.waits 16 = false → exec i s = .next s) ∧
        (countsReady (s.clusterAt s.chId.cl).ev c.waits 16 = true →
          ∃ u, exec i s = exec i u ∧ u.chain s.chId = some { c with ph := .act } ∧ { u with clusters := s.clusters } = s ∧
            CountsGo (s.clusterAt s.chId.cl).ev (u.clusterAt s.chId.cl).ev c.waits 16 (· - 1))))
/-- R285, R290, R294-R297, R300, R219: the effects of the engine's commands that are not of the attention family: a K-block of a dense product,
a row of LOADZ and STOREZ, ZEROZ, the drains, whose check fails where an area does not exist (R80, R81), GLZ, MNOP; a descriptor that
reaches the head fills its slot; the end of a command takes it off the queue, signals its semaphores and adds its flags to FPS.MFLG, and a
trap that waited for it is taken. A product whose operand a dq does not hold yet waits, and changes nothing but the order of the pops that
wait. It rests on the model's choices and readings: log 2, 15. -/
def Obligations.MatrixCommands : Prop :=
  ∀ (s : State) (c : Nat),
    (EngRuns s .mnop c → s.eng.prog = 0 → ∃ t, exec .mnop s = .next t ∧ UnitDone s t 1 ∧ EngOnly s t ∧ t.eng.z = s.eng.z ∧ t.eng.done = true) ∧
    (EngRuns s .zeroz c → ∃ t, exec .zeroz s = .next t ∧ UnitDone s t 1 ∧ EngOnly s t ∧
      ZAre t fun z r k => if (bitsAt c 0 8).testBit z then 0 else s.eng.zAt z r k) ∧
    (∀ i, i = .mma ∨ i = .mmax → EngRuns s i c →
      (c.testBit 47 = true → s.eng.clr = false → s.eng.prog = 0 → exec i s = exec i (s.setEng { s.eng.zPut (bitsAt c 0 3)
        ((grid (opndA c).rows (opndB c).rows).map fun p => (p.1, p.2, 0)) with clr := true })) ∧
      (c.testBit 47 = false ∨ s.eng.clr = true ∨ s.eng.prog ≠ 0 → ∀ xs sx ys sy u v,
        s.fetchOpnd (opndA c) s.eng.prog (min 32 (cK c - 32 * s.eng.prog)) = (.ok xs sx, u) →
        u.fetchOpnd (opndB c) s.eng.prog (min 32 (cK c - 32 * s.eng.prog)) = (.ok ys sy, v) →
        ∃ t, exec i s = .next t ∧ UnitDone v t ((cK c + 31) / 32) ∧ EngOnly (v.setEng { v.eng with popw := [] }) t ∧ ZAre t fun z r k =>
          if z = bitsAt c 0 3 ∧ r < (opndA c).rows ∧ k < (opndB c).rows then
            (mmaElem (v.eng.zAt z r k) (xs.getD r []) (ys.getD k []) (sx.getD r .nan) (sy.getD k .nan)).1 % 2 ^ 32
          else v.eng.zAt z r k) ∧
      (∀ x u w, c.testBit 47 = false ∨ s.eng.clr = true ∨ s.eng.prog ≠ 0 →
        s.fetchOpnd (opndA c) s.eng.prog (min 32 (cK c - 32 * s.eng.prog)) = (x, u) →
        (x = .wait ∨ (∃ xs sx, x = .ok xs sx) ∧ u.fetchOpnd (opndB c) s.eng.prog (min 32 (cK c - 32 * s.eng.prog)) = (.wait, w)) →
        ∃ t, exec i s = .next t ∧ CoreOnly s t ∧ { t.core with eng := { t.eng with popw := s.eng.popw } } = s.core)) ∧
    (EngRuns s .loadz c → ∀ l u, s.engReads 4 ((upFrom 0 (bitsAt c 12 6 + 1)).map fun x => accAddr (descOf s (bitsAt c 3 3)) s.eng.prog x 4) = (.ok l, u) →
      s.eng.prog < 64 → ∃ t, exec .loadz s = .next t ∧ UnitDone u t (bitsAt c 6 6 + 1) ∧ EngOnly u t ∧ ZAre t fun z r k =>
        if z = bitsAt c 0 3 ∧ r = s.eng.prog ∧ k < bitsAt c 12 6 + 1 ∧ k < l.length then l.getD k 0 % 2 ^ 32 else u.eng.zAt z r k) ∧
    (EngRuns s .storez c → ∀ p, let t := storezTy c
      let es := vtyWidth t / 8
      let n := bitsAt c 12 6 + 1
      let rm := (rmOf (BitVec.ofNat 3 (bitsAt c 22 3))).getD .rne
      (∀ x < n, cwPieces s (accAddr (descOf s (bitsAt c 3 3)) s.eng.prog x es) es 2 = [(p + es * x, es)]) → p + es * n ≤ 2 ^ 52 →
      ∃ u, exec .storez s = .next u ∧ UnitDone s u (bitsAt c 6 6 + 1) ∧ u.eng.z = s.eng.z ∧
        u.peek p (es * n) = (List.range n).flatMap (fun x => bytesOf es (convert .f32 t rm 0 (s.eng.zAt (bitsAt c 0 3) s.eng.prog x)).1) ∧
        ∀ a, (a < p ∨ p + es * n ≤ a) → u.byteAt a = s.byteAt a) ∧
    (EngRuns s .drainz c → let n := drainTarget s c
      let p := ctxpOf s n
      s.eng.prog = 0 → s.eng.clr = false → s.ecc = [] → p + 0x50000 ≤ 2 ^ 52 → paDie p = paDie (p + 0x4FFFF) →
      (c.testBit 8 = false → ∃ t, exec .drainz s = .next t ∧ UnitDone s t 1 ∧ (t.coreAt n).eng.z = (s.coreAt n).eng.z ∧
        (∀ z < 8, (bitsAt c 9 8).testBit z = true → ∀ k < 4096,
          ofBytes (t.peek (zArea p z + 4 * k) 4) = (spGet 0 (s.coreAt n).eng.z (4096 * z + k)).toNat) ∧
        ∀ a, (∀ z < 8, (bitsAt c 9 8).testBit z = true → a < zArea p z ∨ zArea p (z + 1) ≤ a) → t.byteAt a = s.byteAt a) ∧
      (c.testBit 8 = true → ∃ t, exec .drainz s = .next t ∧ UnitDone s t 1 ∧ (∀ a, t.byteAt a = s.byteAt a) ∧
        ∀ z < 8, ∀ k < 4096, (spGet 0 (t.coreAt n).eng.z (4096 * z + k)).toNat =
          if (bitsAt c 9 8).testBit z then ofBytes (s.peek (zArea p z + 4 * k) 4) else (spGet 0 (s.coreAt n).eng.z (4096 * z + k)).toNat)) ∧
    (∀ i, i = .drainz ∨ i = .drainq → ∀ chk is, EngCmd i is chk → is c = true → drainHeld s c = .ok →
      (let n := ctxpOf s (drainTarget s c)
       ∃ a ∈ if i = .drainz then ((upFrom 0 8).filter fun z => (bitsAt c 9 8).testBit z).map (zArea n) else [n + 0xC00],
         paOk s s.here.die a = false) → ∃ a, chk s c = .bad 0 a) ∧
    (EngRuns s .drainq c → let n := drainTarget s c
      let p := ctxpOf s n + 0xC00
      s.eng.prog = 0 → s.eng.clr = false → s.ecc = [] → p + 0x200 ≤ 2 ^ 52 →
      (c.testBit 8 = false → (s.coreAt n).eng.q.length ≤ 16 → ∃ t, exec .drainq s = .next t ∧ UnitDone s t 1 ∧
        t.peek p 0x200 = drainqBytes (s.coreAt n).eng ∧ (∀ a, (a < p ∨ p + 0x200 ≤ a) → t.byteAt a = s.byteAt a) ∧
        (t.coreAt n).eng.q = [] ∧ (t.coreAt n).eng.z = (s.coreAt n).eng.z ∧ (t.coreAt n).engHeld = false) ∧
      (c.testBit 8 = true → ∀ e : Eng, s.peek p 0x200 = drainqBytes e → e.q.length ≤ 16 → (∀ m ∈ e.q, ∀ k, m.desc = some k → k < 8) → e.prog < 2 ^ 17 →
        ∃ t, exec .drainq s = .next t ∧ UnitDone s t 1 ∧ (t.coreAt n).eng.q = e.q ∧ (t.coreAt n).eng.prog = e.prog ∧
          (t.coreAt n).eng.step1 = e.step1 ∧ (t.coreAt n).eng.clr = e.clr ∧ (t.coreAt n).eng.flags = e.flags ∧
          ((t.coreAt n).eng.halt = none ↔ e.halt = none) ∧ (t.coreAt n).engHeld = true ∧ (t.coreAt n).engCtx = some (ctxpOf s n))) ∧
    (EngRuns s .glz c → ∀ p u, s.eng.prog = 0 → s.loadRuns s.me (cwPieces s (bitsAt c 8 32) 128 2) = (.ok p, u) →
      ∃ t, exec .glz s = .next t ∧ UnitDone u t 1 ∧ (∀ a, t.byteAt a = u.byteAt a) ∧
        ∀ k, spGet {} t.job.glaze k = if k = bitsAt c 0 2 then glazeOf p else spGet {} u.job.glaze k) ∧
    (∀ m rest n, s.eng.q = m :: rest → m.desc = some n → engActs s = true →
      ∃ t, exec .descriptorLoad s = .next t ∧ CoreOnly s t ∧ t.eng = { s.eng with q := rest } ∧
        ∀ k, spGet (0, 0) t.job.desc k = if k = n then (m.lo, m.hi) else spGet (0, 0) s.job.desc k) ∧
    (∀ m rest, s.eng.q = m :: rest → s.job.live = true → s.job.has .m = true →
      (∀ x, s.job.pend = some x → s.eng.done = true → exec .matrixCommandComplete s =
        .next (((s.onCore s.me Core.engComplete).onJob fun j => { j with pend := none }).trap x)) ∧ (s.job.pend = none →
      (s.eng.done = true → ∃ t, exec .matrixCommandComplete s = .next t ∧ CoreOnly s t ∧ t.eng.q = rest ∧ t.eng.prog = 0 ∧ t.eng.step1 = false ∧
        t.eng.done = false ∧ t.eng.flags = 0 ∧ t.eng.z = s.eng.z ∧ CountsGo s.job.sem t.job.sem (fieldOf m.hi 40 8) 8 (fun n => min (n + 1) 255) ∧
        t.job.fps = s.job.fps ||| (s.eng.flags.setWidth 64 <<< 16)) ∧
      (s.eng.done = false → ∃ t, exec .matrixCommandComplete s = .next t ∧ CoreOnly s t ∧ t.core = s.core)))
/-- R298-R305, R146, R286: the effects of the attention family on their accumulators, and the flags that they add: ATSC writes scores of the
live keys and minus infinity elsewhere; ATSO INIT starts a row's state; UPDATE moves a row to its new integral maximum and its running sum,
or to NaN; FINAL divides by the row's sum; MASS sums the rows' shares; ATAV adds the products of probabilities and values; ATMC adds to the
page's mass counts, which saturate. It rests on the model's choices and readings: log 2, 15. -/
def Obligations.AttentionCommands : Prop :=
  ∀ (s : State) (c : Nat), s.eng.prog = 0 → s.ecc = [] →
    (EngRuns s .atsc c → let d := descOf s (bitsAt c 6 3)
      let m := bitsAt c 28 6 + 1
      let gl := if c.testBit 11 then some (spGet {} s.job.glaze (bitsAt c 9 2)) else none
      (∀ w, BlockRead s true d (bitsAt c 12 16) .empty w → ∃ t, exec .atsc s = .next t ∧ UnitDone w t 1 ∧ EngOnly w t ∧ t.eng.flags = s.eng.flags ∧
        ZAre t fun z r k => if z = bitsAt c 0 3 ∧ r < m ∧ k < 32 then 0xFF800000 else s.eng.zAt z r k) ∧
      (∀ mdx live kpos pas qs ks w u v, BlockRead s true d (bitsAt c 12 16) (.ok mdx live kpos pas) w →
        w.engReads (aEs d) (qAddrs (descOf s (bitsAt c 3 3)) d m) = (.ok qs, u) → u.tokens d pas (64 * bitsAt d 24 8) 0 (aDim d) = (.ok ks, v) →
        let sc := fun r k => score d gl r (((qs.drop (aDim d * r)).take (aDim d)).map fun b => elemVal (aTy d) 0 b) (ks.getD k []) (kpos.getD k 0)
        ∃ t, exec .atsc s = .next t ∧ UnitDone v t 1 ∧ EngOnly v t ∧
          (ZAre t fun z r k =>
            if z = bitsAt c 0 3 ∧ r < m ∧ k < 32 then (if live.testBit k then (sc r k).1 % 2 ^ 32 else 0xFF800000) else v.eng.zAt z r k) ∧
          FlagsGain v t fun f => ∃ r < m, ∃ k < 32, live.testBit k = true ∧ f = (sc r k).2)) ∧
    (EngRuns s .atsoInit c → (∀ z ∈ atsoZom c, z ≠ atsoZt c) → ∃ t, exec .atsoInit s = .next t ∧ UnitDone s t 1 ∧ EngOnly s t ∧
      t.eng.flags = s.eng.flags ∧ ZAre t fun z r k =>
      if z = atsoZt c ∧ r < atsoM c ∧ k = 0 then 0xFF800000 else if z = atsoZt c ∧ r < atsoM c ∧ k = 1 then 0
      else if z = atsoZt c ∧ r < 32 ∧ k = 32 then 0 else if z ∈ atsoZom c ∧ r < atsoM c then 0 else s.eng.zAt z r k) ∧
    (EngRuns s .atsoUpdate c → (∀ z ∈ atsoZom c, z ≠ atsoZt c ∧ z ≠ atsoZs c) → atsoZs c ≠ atsoZt c →
      let row := fun r => (List.range 32).map fun j => fmtF32.val (s.eng.zAt (atsoZs c) r j)
      let m0 := fun r => fmtF32.val (s.eng.zAt (atsoZt c) r 0)
      let nans := fun r => (m0 r).isNan = true ∨ Machine.Num.inf false ∈ row r ∨ (∃ x ∈ row r, x.isNan = true)
      ∃ (t : State) (mx : Nat → Machine.Num), exec .atsoUpdate s = .next t ∧ UnitDone s t 1 ∧ EngOnly s t ∧
        let p := fun r j => let x := (row r).getD j .nan
          if x.isInf then ((0, 0) : Nat × Fl) else fmtF32.rne (pow2 (addNum x (mx r).neg).1)
        let f := fun r => if m0 r = .inf true then .fin false 0 0 else pow2 (addNum (m0 r) (mx r).neg).1
        let lf := fun r => mulNum (fmtF32.val (s.eng.zAt (atsoZt c) r 1)) (f r)
        let l := fun r => fmtF32.done (addNum (lf r).1 ((List.range 32).foldl (fun b j => (addNum b (fmtF32.val (p r j).1)).1) (.fin false 0 0)))
        let out := fun z r k => fmtF32.done (mulNum (fmtF32.val (s.eng.zAt z r k)) (f r))
        (∀ z r k, r < 64 → k < 64 → atsoM c ≤ r ∨ (z ≠ atsoZs c ∧ z ≠ atsoZt c ∧ z ∉ atsoZom c) → t.eng.zAt z r k = s.eng.zAt z r k) ∧
        (∀ r < atsoM c, nans r →
          t.eng.zAt (atsoZt c) r 0 = fmtF32.nan ∧ t.eng.zAt (atsoZt c) r 1 = fmtF32.nan ∧
          (∀ j < 32, t.eng.zAt (atsoZs c) r j = fmtF32.nan) ∧ ∀ z ∈ atsoZom c, ∀ k < 64, t.eng.zAt z r k = fmtF32.nan) ∧
        (∀ r < atsoM c, ¬nans r →
          (∀ x ∈ row r, ∀ n m e, x = .fin n m e → ltNum (mx r) (numOfInt (ceilNum n m e)) = false) ∧ ltNum (mx r) (m0 r) = false ∧
          (mx r = m0 r ∨ ∃ n m e, .fin n m e ∈ row r ∧ mx r = numOfInt (ceilNum n m e)) ∧
          t.eng.zAt (atsoZt c) r 0 = (fmtF32.rne (mx r)).1 % 2 ^ 32 ∧ t.eng.zAt (atsoZt c) r 1 = (l r).1 % 2 ^ 32 ∧
          (∀ j < 32, t.eng.zAt (atsoZs c) r j = (p r j).1 % 2 ^ 32) ∧ ∀ z ∈ atsoZom c, ∀ k < 64, t.eng.zAt z r k = (out z r k).1 % 2 ^ 32) ∧
        FlagsGain s t fun y => ∃ r < atsoM c, (nans r ∧ Machine.Num.inf false ∈ row r ∧ y = flNV) ∨
          (¬nans r ∧ ((∃ j < 32, y = (p r j).2) ∨ y = (lf r).2 ∨ y = (l r).2 ∨ ∃ z ∈ atsoZom c, ∃ k < 64, y = (out z r k).2))) ∧
    (EngRuns s .atsoFinal c → (∀ z ∈ atsoZom c, z ≠ atsoZt c) →
      let l := fun r => fmtF32.val (s.eng.zAt (atsoZt c) r 1)
      let quo := fun z r k => if (l r).isZero then ((0, 0) : Nat × Fl) else fmtF32.done (divNum (fmtF32.val (s.eng.zAt z r k)) (l r))
      ∃ t, exec .atsoFinal s = .next t ∧ UnitDone s t 1 ∧ EngOnly s t ∧
        (ZAre t fun z r k => if z ∈ atsoZom c ∧ r < atsoM c then (quo z r k).1 % 2 ^ 32 else s.eng.zAt z r k) ∧
        FlagsGain s t fun f => ∃ z ∈ atsoZom c, ∃ r < atsoM c, ∃ k < 64, f = (quo z r k).2) ∧
    (EngRuns s .atsoMass c → let mass := massOf s.eng (atsoZs c) (atsoZt c) (atsoM c)
      ∃ t, exec .atsoMass s = .next t ∧ UnitDone s t 1 ∧ EngOnly s t ∧
        (ZAre t fun z r k => if z = atsoZt c ∧ r < 32 ∧ k = 32 then (mass r).1 % 2 ^ 32 else s.eng.zAt z r k) ∧
        FlagsGain s t fun f => ∃ r < 32, f = (mass r).2) ∧
    (EngRuns s .atav c → let d := descOf s (bitsAt c 6 3)
      let n := min 64 (aDim d - 64 * bitsAt c 9 3)
      let one : Machine.Num := .fin false 1 0
      let zero : Machine.Num := .fin false 0 0
      let sums := fun (u t : State) (e : Nat → Nat → Nat × Fl) => UnitDone u t 1 ∧ EngOnly u t ∧
        (ZAre t fun z r k => if z = bitsAt c 0 3 ∧ r < bitsAt c 28 6 + 1 ∧ k < n then (e r k).1 % 2 ^ 32 else s.eng.zAt z r k) ∧
        FlagsGain u t fun f => ∃ r < bitsAt c 28 6 + 1, ∃ k < n, f = (e r k).2
      (∀ w, BlockRead s true d (bitsAt c 12 16) .empty w → ∃ t, exec .atav s = .next t ∧ sums w t fun r k =>
        mmaElem (s.eng.zAt (bitsAt c 0 3) r k) (List.replicate 32 zero) (List.replicate 32 zero) one one) ∧
      ∀ mdx live kpos pas vs w u, BlockRead s true d (bitsAt c 12 16) (.ok mdx live kpos pas) w → u.eng = s.eng →
        w.tokens d pas (64 * bitsAt d 32 8) (64 * bitsAt c 9 3) n = (.ok vs, u) →
        ∃ t, exec .atav s = .next t ∧ sums u t fun r k => mmaElem (s.eng.zAt (bitsAt c 0 3) r k)
          ((List.range 32).map fun j => if live.testBit j then fmtF32.val (s.eng.zAt (bitsAt c 3 3) r j) else zero)
          (vs.map fun v => v.getD k .nan) one one) ∧
    (EngRuns s .atmc c → let d := descOf s (bitsAt c 3 3)
      (∀ w, BlockRead s false d (bitsAt c 6 16) .empty w → ∃ t, exec .atmc s = .next t ∧ UnitDone w t 1 ∧ EngOnly w t ∧ t.eng.z = s.eng.z ∧
        t.eng.flags = s.eng.flags) ∧
      ∀ mdx live kpos pas w, BlockRead s false d (bitsAt c 6 16) (.ok mdx live kpos pas) w →
        let p := mdPa w s.here.die mdx
        p + 128 ≤ 2 ^ 52 → ∃ t, exec .atmc s = .next t ∧ UnitDone w t 1 ∧ t.eng.z = s.eng.z ∧ t.eng.flags = s.eng.flags ∧
          (∀ a, (a < p ∨ p + 128 ≤ a) → t.byteAt a = w.byteAt a) ∧
          ∀ j < 32, ofBytes (t.peek (p + 4 * j) 4) =
            min (ofBytes (w.peek (p + 4 * j) 4) + massCount (fmtF32.val (s.eng.zAt (bitsAt c 0 3) j 32))) 0xFFFFFFFF)
/-- R308, R311-R318: what the commands of a chain do: COPY, COPYND, MCAST and FILL one element or piece at a time, NOTE its doubleword, COND and
LOOP where the walk goes on, WAITEV its wait; CHAIN_START takes the oldest head and reads and checks its command; COMMAND_RETIRE writes
STATUS, then raises the events, and a command with LAST ends the chain. It rests on the model's choices and readings: log 2, 19. -/
def Obligations.ChainCommands : Prop :=
  (∀ (i : Instr) (s : State) (c : Chain), ChActs s i c →
    (∀ va n, ChReads c i va n → c.got = false → c.asked = false → s.chReads s.chId = false →
      (i = .mcast → c.prog % 8 = 0 → s.chBusy s.chId = false) →
      (∀ k a u, s.chAccess c { rd := true } va n = (.bad k a, u) → u.clusters = s.clusters →
        ∃ t x, exec i s = .next t ∧ t.chain s.chId = some x ∧ x.ph = .retire ∧ x.code = 3 ∧ x.detail = a) ∧
      (∀ m a u, s.chAccess c { rd := true } va n = (.park m a, u) → u.clusters = s.clusters →
        ∃ t x q, exec i s = .next t ∧ t.chain s.chId = some x ∧ x.park = some q ∧ q.va = a ∧ q.motion = m ∧ q.k = 0 ∧
          q.span = pageSplit va.toNat n (n / 8192 + 2) ∧ x.told = (if m then c.told else q.span) ∧ { x with park := none, told := c.told } = c) ∧
      (∀ rs bs u v, ChNear s c { rd := true } va n rs u → u.chAny s.chId (fun f => !f.reads && runsMeet rs [(f.pa, f.len)]) = false →
        u.chNear c rs (List.replicate n 0) = (.ok bs, v) → v.clusters = s.clusters → v.here = s.here →
        exec i s = exec i (v.onChain s.chId fun c => { c with buf := bs, got := true, told := [] })) ∧
      (∀ rs u p, s.chAccess c { rd := true } va n = (.ok rs, u) → u.clusters = s.clusters → p ∈ accPieces rs 0 →
        remoteTo (c.core / 384) p.2.1 = true →
        (u.chAny s.chId (fun f => !f.reads && runsMeet rs [(f.pa, f.len)]) = true → exec i s = .next u) ∧
        (u.chAny s.chId (fun f => !f.reads && runsMeet rs [(f.pa, f.len)]) = false → ∃ t x, exec i s = .next t ∧ (∀ a, t.byteAt a = u.byteAt a) ∧
          t.chain s.chId = some x ∧ x.asked = true ∧ x.got = false ∧ x.prog = c.prog ∧
          ∃ f ∈ t.slots, f.kind = 1 ∧ f.pa = p.2.1 ∧ f.len = p.2.2 ∧ f.need = p.1 ∧ f.dst = paDie p.2.1 ∧ f.who = s.chId.who))) ∧
    (∀ va bs p u, ChWrites c i va bs → bs ≠ [] → ChNear s c { w := true } va bs.length [(p, bs.length)] u → p + bs.length ≤ 2 ^ 52 →
      ∃ t x, exec i s = .next t ∧ Wrote u t p bs ∧ t.chain s.chId = some x ∧ ChWent c x i ∧ x.cmd = c.cmd ∧ x.pc = c.pc) ∧
    (∀ va bs p u, ChWrites c i va bs → s.chAccess c { w := true } va bs.length = (.ok [(p, bs.length)], u) → u.clusters = s.clusters →
      0 < bs.length → p % 64 + bs.length ≤ 64 → p < nullPa → remoteTo (c.core / 384) p = true →
      (u.chAny s.chId (fun f => !f.reads && f.pa / 64 == p / 64) = true → exec i s = .next u) ∧
      (u.chAny s.chId (fun f => !f.reads && f.pa / 64 == p / 64) = false → ∃ t x, exec i s = .next t ∧ (∀ a, t.byteAt a = u.byteAt a) ∧
        t.chain s.chId = some x ∧ ChWent c x i ∧ ∃ f ∈ t.slots, f.kind = 0 ∧ f.pa = p ∧ f.data = bs ∧ f.dst = paDie p ∧ f.who = s.chId.who)) ∧
    (∀ va bs k a u, ChWrites c i va bs → s.chAccess c { w := true } va bs.length = (.bad k a, u) → u.clusters = s.clusters →
      ∃ t x, exec i s = .next t ∧ t.chain s.chId = some x ∧ (i ≠ .mcast → x.ph = .retire ∧ x.code = 3 ∧ x.detail = a) ∧
        (i = .mcast → ChWent c x i ∧ x.mask = c.mask ||| 2 ^ (c.prog % 8) ∧ x.code = 7 ∧ (c.mask = 0 → x.detail = a))) ∧
    (∀ k d, ChEnds c i k d → ∃ t x, exec i s = .next t ∧ (∀ a, t.byteAt a = s.byteAt a) ∧ t.chain s.chId = some x ∧ x.ph = .retire ∧ x.code = k ∧
      x.detail = d ∧ x.pc = c.pc ∧
      x.nxt = if i = .cond then c.pc + 128 * ((if ccHolds (fieldOf (c.dw 3) 0 3) (dwAt c.buf 0) (c.dw 2) then fieldOf (c.dw 3) 8 8 else 0) + 1)
        else c.pc + 128)) ∧
  (∀ (s : State) (c : Chain), ChActs s .waitev c → bitOf (c.dw 3) 3 = false → c.got = true →
    ccHolds (fieldOf (c.dw 3) 0 3) (dwAt c.buf 0) (c.dw 2) = false →
    ∃ t x, exec .waitev s = .next t ∧ t.chain s.chId = some x ∧ x.ph = .act ∧ x.got = false) ∧
  (∀ (s : State) (c : Chain) (pre post : List LoopLvl) (l : LoopLvl), ChActs s .loop c →
    (c.lv = pre ++ l :: post ∧ l.pc = c.pc ∧ (∀ x ∈ pre, x.pc ≠ c.pc)) ∨ (c.lv = pre ∧ l = { pc := c.pc, n := 0, so := 0, dof := 0 } ∧ ∀ x ∈ pre, x.pc ≠ c.pc) →
    ∃ t x, exec .loop s = .next t ∧ (∀ a, t.byteAt a = s.byteAt a) ∧ t.chain s.chId = some x ∧ x.ph = .retire ∧
      (4 ≤ pre.length → x.code = 6) ∧
      (pre.length < 4 → l.n < fieldOf (c.dw 1) 0 16 → c.pc < c.head + 128 * fieldOf (c.dw 1) 16 8 → x.code = 6) ∧
      (pre.length < 4 → l.n < fieldOf (c.dw 1) 0 16 → c.head + 128 * fieldOf (c.dw 1) 16 8 ≤ c.pc → x.code = 0 ∧
        x.nxt = c.pc - 128 * fieldOf (c.dw 1) 16 8 ∧
        x.lv = pre ++ [{ l with n := l.n + 1, so := l.so + (c.dw 2).toInt, dof := l.dof + (c.dw 3).toInt }]) ∧
      (pre.length < 4 → fieldOf (c.dw 1) 0 16 ≤ l.n → x.code = 0 ∧ x.nxt = c.pc + 128 ∧ x.lv = pre)) ∧
  (∀ (s u v : State) (h : ChainHead) (rest : List ChainHead) (rs : List (Nat × Nat)) (bs : List Byte), let i := s.chId
    let c0 : Chain := { head := h.pc, pc := h.pc, core := h.core, root := h.root, sup := h.sup }
    let s1 := s.onXeng i.cl i.e fun x => { x with heads := rest, chains := spSet x.chains i.ch c0 }
    i.ch < 4 → s.chain i = none → ((s.clusterAt i.cl).xeng i.e).heads = h :: rest → s1.chBusy i = false →
    ChNear s1 c0 { rd := true } h.pc 128 rs u → u.chBusy i = false → u.chNear c0 rs (List.replicate 128 0) = (.ok bs, v) → v.clusters = s1.clusters →
    ∃ t x, exec .chainStart s = .next t ∧ t.chain i = some x ∧ x.cmd = bs ∧ x.pc = h.pc ∧ x.head = h.pc ∧ x.core = h.core ∧ x.sup = h.sup ∧
      ((t.clusterAt i.cl).xeng i.e).heads = rest ∧ (x.check = 0 → x.ph = .wait) ∧ (x.check ≠ 0 → x.ph = .retire ∧ x.code = x.check)) ∧
  (∀ (s u : State) (c : Chain) (p : Nat), let i := s.chId
    let v := bytesOf 8 (c.code * 2 ^ 56 + c.mask * 2 ^ 48 + c.detail % 2 ^ 48)
    s.chain i = some c → c.ph = .retire → c.park = none → s.chBusy i = false →
    (c.sent = true → ∃ t, exec .commandRetire s = .next t ∧ ChDone s s t c) ∧
    (c.sent = false → ChNear s c { w := true } ((c.pc : Int) + 120) 8 [(p, 8)] u → u.chBusy i = false → p + 8 ≤ 2 ^ 52 →
      ∃ w t, exec .commandRetire s = .next t ∧ Wrote u w p v ∧ ChDone s w t c))
/-- R319-R325, R99, R105, R456: KVSHARE makes the destination entry name the source's record and raises its count; KVMARK sets position, mass
and live bit of its tokens; KVMOVE, PROMOTE and DEMOTE copy a page tile by tile, each tile to the same place of the new page. Their end:
KVMOVE's new record takes the tokens of the old one, MIG 0, and its frame comes to rest; the old reference of the destination is dropped,
and with DROP that of the source. PROMOTE and DEMOTE set PA and MIG, clear ACCNT and QUEUED and the place in the slow-tier map, or set it;
the frame that DEMOTE leaves is free; then the entry that a command names is rewritten, and the HOLD of a PROMOTE ends. Commands on slots
that another holds wait. It rests on the model's choices and readings: log 2, 19, 42. -/
def Obligations.KvCommands : Prop :=
  ∀ (s : State) (c : Chain), let g := s.here.die; let A := kvSlot (c.dw 1); let B := kvSlot (c.dw 2)
    (ChActs s .kvshare c → c.slots = [] → slotsHeld s s.chId [A, B] = true → exec .kvshare s = .next s) ∧
    (∀ pa dpa se old, ChActs s .kvshare c → SlotsFree s c [A, B] → s.ecc = [] → EntAt s A (kvIdx (c.dw 1)) false pa se →
      EntAt s B (kvIdx (c.dw 2)) true dpa old →
      let p := mdPa s g (entMdx se)
      p + 256 ≤ 2 ^ 52 →
      (entV se = false → ∃ t, exec .kvshare s = .next t ∧ ChOver s t 5 ∧ ∀ a, t.byteAt a = s.byteAt a) ∧
      (entV se = true → entV old = false → s.refc g (entMdx se) < 65535 → (dpa + 8 ≤ p ∨ p + 256 ≤ dpa) →
        ∃ t, exec .kvshare s = .next t ∧ ChOver s t 0 ∧ t.peek64 dpa = se ∧ t.refc g (entMdx se) = s.refc g (entMdx se) + 1 ∧
          ∀ a, (a < dpa ∨ dpa + 8 ≤ a) → (a < p + 236 ∨ p + 238 ≤ a) → t.byteAt a = s.byteAt a) ∧
      (entV se = true → entV old = true → s.refc g (entMdx se) < 65535 → (dpa + 8 ≤ p ∨ p + 256 ≤ dpa) →
        ∃ u : State, exec .kvshare s = .next ((u.dropRef g (entMdx old) 1).chEnd s.chId 0 0) ∧ u.peek64 dpa = se ∧
          u.refc g (entMdx se) = s.refc g (entMdx se) + 1 ∧
          ∀ a, (a < dpa ∨ dpa + 8 ≤ a) → (a < p + 236 ∨ p + 238 ≤ a) → u.byteAt a = s.byteAt a) ∧
      (entV se = true → s.refc g (entMdx se) = 65535 → ∃ t, exec .kvshare s = .next t ∧ ChOver s t 5 ∧ ∀ a, t.byteAt a = s.byteAt a)) ∧
    (∀ pa e, ChActs s .kvmark c → SlotsFree s c [A] → s.ecc = [] → EntAt s A (kvIdx (c.dw 1)) false pa e → entV e = true →
      let m := entMdx e
      let p := mdPa s g m
      let pos := (c.dw 2).toNat
      let first := fieldOf (c.dw 3) 0 5
      let n := fieldOf (c.dw 3) 8 6
      let base := if s.mdRead g m 228 4 = 0 then (pos + 2 ^ 32 - first) % 2 ^ 32 else s.mdRead g m 224 4
      p + 256 ≤ 2 ^ 52 → s.mig g m < 2 → pos < 2 ^ 32 →
      (n = 0 ∨ 32 < first + n → ∃ t, exec .kvmark s = .next t ∧ ChOver s t 1) ∧
      (0 < n → first + n ≤ 32 → (pos + (n - 1) + 2 ^ 32 - base) % 2 ^ 32 < 2 ^ 24 →
        ∃ t, exec .kvmark s = .next t ∧ ChOver s t 0 ∧ t.mdRead g m 224 4 = base ∧
          t.mdRead g m 228 4 = s.mdRead g m 228 4 ||| ((2 ^ n - 1) <<< first) ∧
          (∀ k < n, t.mdRead g m (4 * (first + k)) 4 = 0 ∧ t.mdRead g m (128 + 3 * (first + k)) 3 = (pos + k + 2 ^ 32 - base) % 2 ^ 32 % 2 ^ 24) ∧
          (∀ j < 32, (j < first ∨ first + n ≤ j) → t.mdRead g m (4 * j) 4 = s.mdRead g m (4 * j) 4 ∧
            t.mdRead g m (128 + 3 * j) 3 = s.mdRead g m (128 + 3 * j) 3) ∧
          ∀ a, (a < p ∨ p + 232 ≤ a) → t.byteAt a = s.byteAt a)) ∧
    (∀ pa dpa se old k f x, ChActs s .kvmove c → c.kv = none → SlotsFree s c [A, B] → s.ecc = [] → EntAt s A (kvIdx (c.dw 1)) (bitOf (c.dw 3) 0 && c.dw 1 != c.dw 2) pa se →
      EntAt s B (kvIdx (c.dw 2)) true dpa old → entV se = true → mdPa s g (entMdx se) + 256 ≤ 2 ^ 52 → s.mig g (entMdx se) < 2 →
      paOk s g (s.mdPage g (entMdx se)) = true → chooseFrame s g (s.slotAt g B).cursor = some (k, f) → freeMd s g = some x → x < 2 ^ 18 →
      ∃ t y r, exec .kvmove s = .next t ∧ t.chain s.chId = some y ∧ y.ph = .act ∧ y.prog = 0 ∧ y.kv = some r ∧ r.src = entMdx se ∧ r.md = x ∧
        r.frame = framePa s g k f ∧ (t.dieAt g).kvUsed = frameKey k f :: (s.dieAt g).kvUsed ∧ (t.dieAt g).mdUsed = x :: (s.dieAt g).mdUsed ∧
        entV (t.peek64 dpa) = true ∧ entMdx (t.peek64 dpa) = x) ∧
    (∀ (i : Instr) (r : KvRun), i = .kvmove ∨ i = .promote ∨ i = .demote → ChActs s i c → c.kv = some r →
      (∀ bs u, c.prog < 16 → s.readMem g (r.pa0 + 512 * c.prog) 512 = (.ok bs, u) → u.clusters = s.clusters →
        ∃ t x, exec i s = .next t ∧ t.chain s.chId = some x ∧ x.prog = c.prog + 1 ∧ x.ph = .act ∧ x.kv = some r ∧
          (r.frame + 8192 ≤ 2 ^ 52 → t.peek (r.frame + 512 * c.prog) 512 = bs))) ∧
    (∀ r, ChActs s .kvmove c → c.kv = some r → let p := mdPa s g r.src; let m := mdPa s g r.md; let old : W64 := BitVec.ofNat 64 r.old
      let drop := bitOf (c.dw 3) 0 = true ∧ ¬(A = B ∧ kvIdx (c.dw 1) = kvIdx (c.dw 2))
      (c.prog = 16 → s.ecc = [] → p + 256 ≤ 2 ^ 52 → m + 256 ≤ 2 ^ 52 → p + 256 ≤ m ∨ m + 256 ≤ p → s.refc g r.md ≠ 0 →
        ∃ u x, (entV old = false → exec .kvmove s = .next u) ∧
          (entV old = true → mdPa s g (entMdx old) + 256 ≤ 2 ^ 52 → exec .kvmove s = .next (u.dropRef g (entMdx old) 1)) ∧
          u.chain s.chId = some x ∧ x.ph = .act ∧ x.prog = 17 ∧ u.peek m 232 = s.peek p 232 ∧ u.mig g r.md = 0 ∧
          (u.dieAt g).motion = (s.dieAt g).motion.erase (r.frame / 8192) ∧ ∀ a, (a < m ∨ m + 232 ≤ a) → a ≠ m + 239 → u.byteAt a = s.byteAt a) ∧
      (17 ≤ c.prog → ¬drop → ∃ t, exec .kvmove s = .next t ∧ ChOver s t 0 ∧ ∀ a, t.byteAt a = s.byteAt a) ∧
      (∀ pa e, 17 ≤ c.prog → drop → s.ecc = [] → EntAt s A (kvIdx (c.dw 1)) true pa e → p + 256 ≤ 2 ^ 52 →
        ∃ u : State, exec .kvmove s = .next ((u.dropRef g r.src 1).chEnd s.chId 0 0) ∧ Wrote s u pa (bytesOf 8 (setField e 63 1 0).toNat))) ∧
    (∀ r, (ChActs s .promote c ∨ ChActs s .demote c) → c.kv = some r → let i := if c.op = 0x07 then Instr.promote else Instr.demote
      let p := mdPa s g r.md; let e := stmapPa s g r.old
      (c.prog = 16 → p + 256 ≤ 2 ^ 52 → e + 4 ≤ 2 ^ 52 → e + 4 ≤ p ∨ p + 256 ≤ e → s.refc g r.md ≠ 0 →
        ∃ t x, exec i s = .next t ∧ t.chain s.chId = some x ∧ x.ph = .act ∧ x.prog = 17 ∧
          ofBytes (t.peek e 4) = (if c.op = 0x07 then ofBytes (s.peek e 4) % 2 ^ 31 else (2 ^ 31 + (c.dw 1).toNat) % 2 ^ 32) ∧
          t.mdRead g r.md 240 8 = r.frame % 2 ^ 64 ∧ t.mdRead g r.md 232 4 = 0 ∧ bitsAt (t.mdRead g r.md 239 1) 4 1 = 0 ∧
          t.mig g r.md = (if c.op = 0x07 then 0 else 1) ∧
          (t.dieAt g).motion = ((s.dieAt g).motion.erase (r.pa0 / 8192)).erase (r.frame / 8192) ∧
          (c.op = 0x08 → ∀ k, k ∈ (t.dieAt (paDie r.pa0)).kvUsed ↔
            k ∈ (s.dieAt (paDie r.pa0)).kvUsed ∧ k ≠ frameKey (frameOf s r.pa0).1 (frameOf s r.pa0).2) ∧
          ∀ a, (a < e ∨ e + 4 ≤ a) → (a < p + 232 ∨ (p + 236 ≤ a ∧ a < p + 239) ∨ p + 248 ≤ a) → t.byteAt a = s.byteAt a) ∧
      (17 ≤ c.prog → let new := (if c.op = 0x07 then kvVa s r.frame else stVa s g r.old) / 8192
        (c.ents = [] → ∃ t, exec i s = .next t ∧ ChOver s t 0 ∧ (∀ a, t.byteAt a = s.byteAt a) ∧
          ∀ k, c.hold = some k → (t.slotAt g k).hold = (s.slotAt g k).hold - 1) ∧
        (∀ va, c.ents = [va] → kvMoving s g va = true → exec i s = .next s) ∧
        ∀ va pa, c.ents = [va] → kvMoving s g va = false → kvTranslate s g { rd := true, w := true } va = .ok pa → pa + 8 ≤ 2 ^ 52 → s.ecc = [] →
          ∃ t, exec i s = .next t ∧ ChOver s t 0 ∧
            (entV (s.peek64 pa) = true ∧ entMdx (s.peek64 pa) = r.md → Wrote s t pa (bytesOf 8 (setField (s.peek64 pa) 0 40 new).toNat)) ∧
            (¬(entV (s.peek64 pa) = true ∧ entMdx (s.peek64 pa) = r.md) → ∀ a, t.byteAt a = s.byteAt a)))
/-- R326-R332: a scraper command starts once its slot is PARKED and no KV command holds it, waits while the slot is in RUN or a page that it
touches is in motion (R320), and is refused, code 5, for a slot FREE or DONE; EVSCAN clears the live bits of the tokens that R329 selects;
EVCOMPACT packs the live tokens in order, each below 32 to a block and with its position kept; EVDECAY divides one counter in each step and
passes over blocks that others share. A command that completes leaves the queue and writes its result record, or without RESA none. It rests
on the model's choices and readings: log 2, 21, 29. -/
def Obligations.ScraperCommands : Prop :=
  (∀ (i : Instr) (op : Nat) (s : State) (c : ScrCmd) (rest : List ScrCmd), let g := s.here.die
    ScrOp i op → (s.dieAt g).scr = c :: rest → (s.dieAt g).scrProg = false → c.bad s g = false → c.op = op →
    ((s.slotAt g c.slot).state = 2 → slotsHeld s { cl := 2 * g, e := 2, ch := 0 } [c.slot] = false →
      ∃ t, exec i s = .next t ∧ (t.dieAt g).scrProg = true ∧ (t.dieAt g).scr = c :: rest ∧ (t.dieAt g).scrAt = 0 ∧ t.mem = s.mem) ∧
    ((s.slotAt g c.slot).state = 2 → slotsHeld s { cl := 2 * g, e := 2, ch := 0 } [c.slot] = true → exec i s = .next s) ∧
    ((s.slotAt g c.slot).state = 1 → exec i s = .next s) ∧
    ((s.slotAt g c.slot).state = 0 ∨ (s.slotAt g c.slot).state = 3 →
      exec i s = .next (s.scrFail g c 5) ∧ ((s.scrFail g c 5).dieAt g).scr = rest)) ∧
  (∀ (s : State) (c : ScrCmd) (rest : List ScrCmd) (code : Nat) (r : ScrRes), let g := s.here.die
    let t := s.scrEnd g c code r
    (s.dieAt g).scr = c :: rest → (t.dieAt g).scr = rest ∧ (t.dieAt g).scrProg = false ∧
    (code = 0 → c.resa = 0xFFFFFFFF → ∀ a, t.byteAt a = s.byteAt a) ∧
    (code = 0 → c.resa ≠ 0xFFFFFFFF → c.usable s g = true → clWin (2 * g + c.cl) c.resa + 64 ≤ 2 ^ 52 →
      Wrote s t (clWin (2 * g + c.cl) c.resa) (bytesOf 8 (c.op * 2 ^ 52 + c.slot * 2 ^ 44) ++ bytesOf 4 r.liveB ++ bytesOf 4 r.liveA ++
        bytesOf 4 r.sel ++ bytesOf 4 r.bfree ++ bytesOf 8 (s.tickOf g).toNat ++ List.replicate 32 0))) ∧
  (∀ (s u : State) (c : ScrCmd) (rest : List ScrCmd) (v : ScrView), let g := s.here.die
    let n := (v.tokens u g 0).length
    let b0 := v.start u g
    (Scrapes s 1 c rest v u → let sel := scanSel u g c v
      (∀ q ∈ sel, mdPa u g (v.md q.1) + 256 ≤ 2 ^ 52) →
      ∃ t : State, exec .evscan s = .next (t.scrEnd g c 0 { liveB := n, liveA := n - sel.length, sel := sel.length }) ∧ (t.dieAt g).scr = c :: rest ∧
        (∀ q ∈ sel, ∀ k < 32, (t.mdRead g (v.md q.1) 228 4).testBit k =
          ((u.mdRead g (v.md q.1) 228 4).testBit k && !sel.any fun r => decide (v.md r.1 = v.md q.1 ∧ r.2 = k))) ∧
        ∀ a, (∀ q ∈ sel, a < mdPa u g (v.md q.1) + 228 ∨ mdPa u g (v.md q.1) + 232 ≤ a) → t.byteAt a = u.byteAt a) ∧
    (Scrapes s 2 c rest v u →
      (packTokens v u g (v.tokens u g b0) b0 32 0 = none → exec .evcompact s = .next (u.scrFail g c 5)) ∧
      (∀ ps d w, packTokens v u g (v.tokens u g b0) b0 32 0 = some (ps, d) →
        let moved := ps.filter fun p => !(p.b == p.dst && p.j == p.pl)
        let rows := moved.flatMap fun p => (((pagesOf u g { rd := true } v p.b).getD []).zip ((pagesOf u g { w := true } v p.dst).getD [])).map
          fun q => (q.1 + 256 * p.j, q.2 + 256 * p.pl)
        ((∃ p ∈ moved, pagesOf u g { rd := true } v p.b = none ∨ pagesOf u g { w := true } v p.dst = none) →
          exec .evcompact s = .next (u.scrFail g c 3)) ∧
        ((∀ p ∈ moved, pagesOf u g { rd := true } v p.b ≠ none ∧ pagesOf u g { w := true } v p.dst ≠ none) →
          (rows.any (fun r => u.inMotion r.1 || u.inMotion r.2) = true → exec .evcompact s = .next s) ∧
          (rows.any (fun r => u.inMotion r.1 || u.inMotion r.2) = false → u.scrWords g (rows.map fun r => (r.1, 256)) = (none, w) →
          exec .evcompact s = .next ((w.compact g c v b0 d ps (rows.map fun r => (r.2, w.peek r.1 256))).scrEnd g c 0
            { liveB := n, liveA := n, sel := moved.length, bfree := v.nb - d })))) ∧
      (∀ pa, v.tokens u g b0 = [] → b0 = v.nb → kvTranslate u g { w := true } (u.slotAt g c.slot).ptbase = .ok pa → pa + 4 ≤ 2 ^ 52 →
        ∃ t : State, exec .evcompact s = .next (t.scrEnd g c 0 { liveB := n, liveA := n }) ∧ Wrote u t pa (bytesOf 4 (v.nb * v.g)))) ∧
    (∀ ps d, packTokens v u g (v.tokens u g b0) b0 32 0 = some (ps, d) →
      ps.map (fun p => (p.b, p.j)) = v.tokens u g b0 ∧ ps.Pairwise (fun p q => p.dst < q.dst ∨ (p.dst = q.dst ∧ p.pl < q.pl)) ∧
      ∀ p ∈ ps, p.pl < 32 ∧ b0 ≤ p.dst ∧ p.dst < d ∧ (v.block p.dst).all entV = true ∧ p.mass = u.mdRead g (v.md p.b) (4 * p.j) 4 ∧
        (p.base + p.off) % 2 ^ 32 = (u.mdRead g (v.md p.b) 224 4 + u.mdRead g (v.md p.b) (128 + 3 * p.j) 3) % 2 ^ 32) ∧
    (Scrapes s 3 c rest v u → (s.dieAt g).scrSaw = none →
      ∃ t, exec .evdecay s = .next t ∧ (t.dieAt g).scrSaw = some (v.ents, n) ∧ (t.dieAt g).scr = c :: rest ∧ ∀ a, t.byteAt a = u.byteAt a)) ∧
  (∀ (s : State) (c : ScrCmd) (rest : List ScrCmd) (es : List W64) (n : Nat), let g := s.here.die
    let v : ScrView := { ents := es, nb := es.length / c.g, g := c.g }
    let at_ := (s.dieAt g).scrAt
    let m := v.md (at_ / 32)
    let p := mdPa s g m + 4 * (at_ % 32)
    AtScr s 3 c rest → (s.dieAt g).scrSaw = some (es, n) → s.ecc = [] →
    (v.nb ≤ at_ / 32 →
      exec .evdecay s = .next (s.scrEnd g c 0 { liveB := n, liveA := (v.tokens s g 0).length, sel := (s.dieAt g).scrN })) ∧
    (at_ / 32 < v.nb → decaySkips s g c v (at_ / 32) = true →
      ∃ t, exec .evdecay s = .next t ∧ (t.dieAt g).scrAt = 32 * (at_ / 32 + 1) ∧ ∀ a, t.byteAt a = s.byteAt a) ∧
    (at_ / 32 < v.nb → decaySkips s g c v (at_ / 32) = false → 2 ≤ s.mig g m → exec .evdecay s = .next s) ∧
    (at_ / 32 < v.nb → decaySkips s g c v (at_ / 32) = false → s.mig g m < 2 → p + 4 ≤ 2 ^ 52 →
      ∃ t, exec .evdecay s = .next t ∧ (t.dieAt g).scrAt = at_ + 1 ∧
        (t.dieAt g).scrN = (s.dieAt g).scrN + (if at_ % 32 = 31 then 1 else 0) ∧
        Wrote s t p (bytesOf 4 (s.mdRead g m (4 * (at_ % 32)) 4 / 2 ^ c.shift))))
/-- R334-R340, R342, R358, R366, R432, R437, R438: a slot that arrives is served: a posted write lands its bytes, a read request becomes its
response, a remote atomic its result, at its home bank or in a waystation's line, a consignment store enters its bond. One waits while a
link on its way is down; one that cannot be delivered is dropped and reported, by the last die before a bypassed one (log 31), with a notice
to its source, an answer too (log 31); one that finds all 256 reception places taken is refused and counted (R454), goes round and then
back, to be re-injected 1 us later and given up at the 16th return. The response, acknowledgement and result reach the agent that waits for
them. The notice of a lost slot ends its request at the source: the line is a lost line of the job's, a read traps with class 7 code 3, a
tagged store asks for the abort of its consignment, a command ends with code 8 or 9 or a member fails, a plan aborts with cause 4. Sync goes
round from the package at place 0, and a peer-delay request is answered. It rests on the model's choices and readings: log 2, 16, 31, 32,
46. -/
def Obligations.FabricSlots : Prop :=
  ∀ (s : State) (f : FSlot), let n := cid f.src f.srcc
    let g : FSlot := { f with placed := false }
    (∀ i, OnItsWay s i f → f.placed = false →
      (slotWaits s f = true → exec i s = .next s) ∧
      (∀ sub, slotWaits s f = false → undeliverable s f.src f.dst = some sub → ∃ t m, exec i s = .next t ∧ SlotGone s t ∧ t.msgs = s.msgs ++ [m] ∧
        m.kind = .failure ∧ m.dst = f.src ∧ m.x = sub ∧ m.slot = some f ∧
        ∀ a, t.byteAt a = (s.err (if sub = 0 then f.dst else dropDie s f) noCore 0x37 sub 0 f.pa (slotHead s f)).byteAt a) ∧
      (slotWaits s f = false → undeliverable s f.src f.dst = none → f.dst ≠ f.src → 256 ≤ placesHeld s f.dst (f.dir s) →
        ∃ t, exec i s = .next t ∧ t.mem = s.mem ∧ SlotIs s t (if f.refc = 0 then { f with refc := 1 } else { f with refc := 2, back := true, due := 0 }) ∧
          let r := (s.dieAt f.dst).reg 0x31D; (t.dieAt f.dst).reg 0x31D = setField r 0 32 (min (fieldOf r 0 32 + 1) 0xFFFFFFFF)) ∧
      (slotWaits s f = false → undeliverable s f.src f.dst = none → f.dst ≠ f.src → placesHeld s f.dst (f.dir s) < 256 → s.here.full = true →
        ∃ t, exec i s = .next t ∧ t.mem = s.mem ∧ SlotIs s t { f with placed := true })) ∧
    (Arrives s .postedWrite f → f.data ≠ [] → f.pa + f.data.length ≤ 2 ^ 52 →
      ∃ t, exec .postedWrite s = .next t ∧ SlotIs s t { g with kind := 3, data := [] } ∧ Wrote s t f.pa f.data) ∧
    (Arrives s .readRequest f → let v := match f.who with | .load id => s.noteTag n id f.pa | _ => s
      (∀ bs u, v.serveLoad f.dst f.pa f.len (slotSup s f) = (.ok bs, u) →
        ∃ t, exec .readRequest s = .next t ∧ t.slots = setNth u.slots s.here.k { g with kind := 2, data := bs } ∧ ∀ a, t.byteAt a = u.byteAt a) ∧
      ∀ w u, v.serveLoad f.dst f.pa f.len (slotSup s f) = (.error w, u) →
        exec .readRequest s = .next (State.slotBad { u with slots := dropNth u.slots s.here.k } g w)) ∧
    (∀ i k, AnswerStep i k → s.slots[s.here.k]? = some f → f.kind = k →
      (slotWaits s f = true → exec i s = .next s) ∧
      (∀ sub, slotWaits s f = false → undeliverable s f.dst f.src = some sub → ∃ t m, exec i s = .next t ∧ SlotGone s t ∧ t.msgs = s.msgs ++ [m] ∧
        m.kind = .failure ∧ m.dst = f.src ∧ m.x = sub ∧ m.slot = some f)) ∧
    (Returns s 2 f →
      (∀ cl e ch c, f.who = .chain cl e ch → s.chain { cl := cl, e := e, ch := ch } = some c →
        ∃ t, exec .readResponse s = .next t ∧ SlotGone s t ∧ t.chain { cl := cl, e := e, ch := ch } = some { c with buf := splice c.buf f.need f.data }) ∧
      (∀ id, f.who = .load id → let put : Acc → Acc := fun a => if a.id = id then { a with data := splice a.data f.need f.data } else a
        ((s.coreAt n).job.id = f.job → ({ s with slots := dropNth s.slots s.here.k } : State).accSlots n id = true →
          ∃ t, exec .readResponse s = .next t ∧ SlotGone s t ∧ (t.coreAt n).job.acc = (s.coreAt n).job.acc.map put) ∧
        ((s.coreAt n).job.acc.all (fun a => decide (a.id ≠ id)) = true → (s.coreAt n).job.id ≠ f.job → ∀ h, (s.coreAt n).held = [h] → h.job.id = f.job →
          ∃ t, exec .readResponse s = .next t ∧ SlotGone s t ∧ (t.coreAt n).held = [{ h with job := { h.job with acc := h.job.acc.map put } }]))) ∧
    (Returns s 3 f →
      (∀ w q, f.who = .store w q → ∃ t, exec .acknowledgement s = .next t ∧ SlotGone s t ∧ winOut t n w = winOut s n w - 1) ∧
      (∀ place gen fi p, f.who = .plan place gen fi → (s.dieAt f.src).plan place = some p → p.gen = gen →
        ∃ t q, exec .acknowledgement s = .next t ∧ SlotGone s t ∧ (t.dieAt f.src).plan place = some q ∧ q.unack = p.unack - 1 ∧
          q.prog = s.tickOf f.src)) ∧
    (Arrives s .remoteAtomic f → s.ecc = [] → f.len = 4 ∨ f.len = 8 → f.opx / 2 < 7 →
      let w := 8 * f.len
      let x := ofBytes (f.data.take 8) % 2 ^ w
      let y := ofBytes (f.data.drop 8) % 2 ^ w
      (s.window f.pa = none → f.pa + 8 ≤ 2 ^ 52 → let o := ofBytes (s.peek f.pa f.len)
        ∃ t, exec .remoteAtomic s = .next t ∧ SlotIs s t { g with kind := 5, data := bytesOf 8 o } ∧
          Wrote s t f.pa (bytesOf f.len ((atomicNew (f.opx / 2) w o x y).getD o))) ∧
      (∀ k c, s.window f.pa = some (k, c) → c.firm = true → c.ending = false → f.pa + 8 ≤ 2 ^ 52 →
        let l := s.combLine k f.pa
        let o := ofBytes ((l.bytes.drop (f.pa % 64)).take f.len)
        ∃ t, exec .remoteAtomic s = .next t ∧ SlotIs s t { g with kind := 5, data := bytesOf 8 o } ∧ (∀ a, t.byteAt a = s.byteAt a) ∧
          (t.wayAt k).lines = (match atomicNew (f.opx / 2) w o x y with
            | some v => { l with bytes := splice l.bytes (f.pa % 64) (bytesOf f.len v), dirty := true, first := if l.dirty then l.first else s.tick }
            | none => l) :: (s.wayAt k).lines.filter fun z => decide (z.pa ≠ l.pa))) ∧
    (Returns s 5 f → (s.coreAt n).job.id = f.job →
      ∃ t, exec .atomicResult s = .next t ∧ SlotGone s t ∧ (t.coreAt n).job =
        { (s.coreAt n).job with rago := false, rares := atomicOld (f.opx / 2) (8 * f.len) (ofBytes f.data) }) ∧
    (Arrives s .consignmentStore f →
      exec .consignmentStore s = .next ((s.tagged f.dst f.handle f.pa 0 f.data).setSlot s.here.k { g with kind := 3, data := [] }) ∧
      ∀ k x, f.data ≠ [] → f.pa % 64 + f.data.length ≤ 64 → (s.dieAt f.dst).dest f.handle = some (k, x) →
        spFind (s.dieAt f.dst).dests k = some x → (x.state = 0 ∧ x.census = false ∨ x.state = 2) → x.conf = false → s.ecc = [] →
        (∀ b, (s.dieAt f.dst).bonds.find? (fun b => b.handle == f.handle && b.home == f.pa / 64 * 64 && !b.on) = some b → b.bad = false →
          ∃ t y, exec .consignmentStore s = .next t ∧ SlotIs s t { g with kind := 3, data := [] } ∧
            Shown s t f.dst { b with bytes := lineBytes f.pa f.data b.bytes } ∧
            spFind (t.dieAt f.dst).dests k = some y ∧ y.recv = x.recv + f.data.length ∧
            (t.dieAt f.dst).bonds = (s.dieAt f.dst).bonds.map fun b =>
              if b.handle = f.handle ∧ b.home = f.pa / 64 * 64 ∧ b.on = false then { b with bytes := lineBytes f.pa f.data b.bytes } else b) ∧
        (∀ l, (s.dieAt f.dst).bonds.find? (fun b => b.handle == f.handle && b.home == f.pa / 64 * 64 && !b.on) = none →
          (∀ b ∈ (s.dieAt f.dst).bonds, b.line ≠ l) → (∀ m < l, ∃ b ∈ (s.dieAt f.dst).bonds, b.line = m) →
          l < fieldOf ((s.dieAt f.dst).reg 0x307) 32 9 * 16384 →
          let c : Bond := { line := l, handle := f.handle, home := f.pa / 64 * 64, bytes := lineBytes f.pa f.data [] }
          ∃ t y, exec .consignmentStore s = .next t ∧ SlotIs s t { g with kind := 3, data := [] } ∧ Shown s t f.dst c ∧
            spFind (t.dieAt f.dst).dests k = some y ∧ y.recv = x.recv + f.data.length ∧ (t.dieAt f.dst).bonds = (s.dieAt f.dst).bonds ++ [c])) ∧
    (s.slots[s.here.k]? = some f → f.back = true →
      (f.due = 0 → slotWaits s f = true → exec .slotReinject s = .next s) ∧
      (f.due = 0 → slotWaits s f = false → f.rets + 1 < 16 →
        ∃ t, exec .slotReinject s = .next t ∧ SlotIs s t { f with rets := f.rets + 1, due := s.tickOf f.src + 1000 }) ∧
      (f.due = 0 → slotWaits s f = false → 16 ≤ f.rets + 1 →
        ∃ t m, exec .slotReinject s = .next t ∧ SlotGone s t ∧ t.msgs = s.msgs ++ [m] ∧ m.kind = .failure ∧ m.x = 2) ∧
      (f.due ≠ 0 → f.due ≤ s.tickOf f.src → ∃ t, exec .slotReinject s = .next t ∧ SlotIs s t { f with back := false, refc := 0, due := 0 }) ∧
      (f.due ≠ 0 → ¬ f.due ≤ s.tickOf f.src → exec .slotReinject s = .next s)) ∧
    (∀ m, Notice s .failure m → m.slot = some f →
      (f.who = .rago → (s.coreAt n).job.id = f.job → ∃ t, exec .failureNotice s = .next t ∧ Sends s t [] ∧ (t.coreAt n).job.rago = false ∧
        (t.coreAt n).job.rafail = some (f.pa / 64 * 64)) ∧
      (∀ w q, f.who = .store w q → f.kind ≠ 7 → (f.kind = 3 → f.handle = 0) → (s.coreAt n).job.id = f.job →
        ∃ t, exec .failureNotice s = .next t ∧ Sends s t [] ∧
          (t.coreAt n).job.lost = (s.coreAt n).job.lost ++ [(q, f.pa / 64 * 64)] ∧ winOut t n w = winOut s n w - 1) ∧
      (∀ w q, f.who = .store w q → f.kind = 7 ∨ (f.kind = 3 ∧ f.handle ≠ 0) → ∃ t, exec .failureNotice s = .next t ∧
        Sends s t [{ kind := .abortReq, dst := f.handle / 2 ^ 21 % 2048, src := f.src, handle := f.handle, x := 10 }] ∧
        winOut t n w = winOut s n w - 1) ∧
      (∀ id a, f.who = .load id → f.kind = 0 ∨ f.kind = 3 → (s.coreAt n).job.id = f.job →
        (s.coreAt n).job.acc.find? (fun b => decide (b.id = id)) = some a → a.kind.isStore = true → a.sent = true →
        (accPieces a.runs 0).all (fun p => remoteTo (n / 384) p.2.1) = true →
        let away := ({ s with msgs := dropNth s.msgs s.here.k } : State).accSlots n id
        ∃ t, exec .failureNotice s = .next t ∧ Sends s t [] ∧
          (t.coreAt n).job.lost = (s.coreAt n).job.lost ++ [(if a.strm = .a then a.seq else ownLost, f.pa / 64 * 64)] ∧
          (t.coreAt n).job.acc = if away then (s.coreAt n).job.acc else (s.coreAt n).job.acc.filter fun b => decide (b.id ≠ id)) ∧
      (∀ id a, f.who = .load id → f.kind = 1 ∨ f.kind = 2 → (s.coreAt n).job.id = f.job →
        (s.coreAt n).job.acc.find? (fun b => decide (b.id = id)) = some a → ∃ u : State,
          exec .failureNotice s =
            .next (u.trap { cls := 7, code := 3, strm := a.strm, pc := a.pc, addr := f.pa / 64 * 64, word := a.word }) ∧
          Sends s u [] ∧ u.slots = s.slots.filter (fun g => decide (g.who ≠ Who.load id)) ∧ u.here = { s.here with die := f.src, core := f.srcc } ∧
          (∀ y, u.byteAt y = s.byteAt y) ∧ (u.coreAt n).job = { (s.coreAt n).job with
            acc := (s.coreAt n).job.acc.map fun b => if b.id = id then { b with sent := false, tag := none } else b }) ∧
      (∀ cl e ch c, f.who = .chain cl e ch → let i : ChId := { cl := cl, e := e, ch := ch }
        s.chain i = some c →
        (c.ph = .read → ∃ t, exec .failureNotice s = .next t ∧ t.chain i = none) ∧
        (c.ph = .act → c.op = 3 → f.kind ≠ 1 → f.kind ≠ 2 → ∃ t x, exec .failureNotice s = .next t ∧ Sends s t [] ∧ t.chain i = some x ∧
          x.ph = .act ∧ x.mask = c.mask ||| 2 ^ f.rank ∧ x.code = 7 ∧ x.detail = if c.mask = 0 then f.handle else c.detail) ∧
        (c.ph = .act → c.op ≠ 3 ∨ f.kind = 1 ∨ f.kind = 2 → ∃ t x, exec .failureNotice s = .next t ∧ Sends s t [] ∧ t.chain i = some x ∧
          x.ph = .retire ∧ x.code = (if m.x = 0 then 9 else 8) ∧ x.detail = f.handle)) ∧
      (∀ place gen fi p, f.who = .plan place gen fi → (s.dieAt f.src).plan place = some p → p.gen = gen → p.abort = none →
        ∃ t, exec .failureNotice s = .next t ∧ PlanAborted t f.src place 4) ∧
      (f.who = .none → f.kind = 7 → ∃ t, exec .failureNotice s = .next t ∧ t.mem = s.mem ∧
        Sends s t [{ kind := .abortReq, dst := f.handle / 2 ^ 21 % 2048, src := f.src, handle := f.handle, x := 10 }])) ∧
    (1 < s.ringPkgs 0 → syncTick s.syncs ≤ s.tick.toNat → ∃ t, exec .sync s = .next t ∧ { t with msgs := s.msgs, syncs := s.syncs } = s ∧
      s.tick.toNat < syncTick t.syncs ∧ t.msgs = s.msgs ++ { kind := .timing, dst := 8, src := 0 } :: (List.range (s.ringPkgs 0)).map fun p =>
        { kind := .timing, dst := 8 * ((p + s.ringPkgs 0 - 1) % s.ringPkgs 0), src := 8 * p, x := 1 }) ∧
    (s.ringPkgs 0 ≤ 1 ∨ s.tick.toNat < syncTick s.syncs → exec .sync s = .next s) ∧
    (∀ m, Notice s .timing m → ∃ t, exec .timing s = .next t ∧ t.mem = s.mem ∧
      (m.x = 1 → Sends s t [{ m with dst := m.src, src := m.dst, x := 2, y := (s.tickOf m.dst).toNat }]) ∧
      (1 < m.x → Sends s t []) ∧ (m.x ≠ 0 → { t with msgs := s.msgs } = s) ∧
      (m.x = 0 → if m.dst / 8 + 1 < s.ringPkgs 0 then Sends s t [{ m with dst := m.dst + 8, src := m.dst }] else Sends s t []) ∧
      (m.x = 0 → pkgStopped s (m.dst / 8) = true → spGet 0 t.adj (m.dst / 8) = 0 ∧ spGet 0 t.slew (m.dst / 8) = 0) ∧
      (m.x = 0 → pkgStopped s (m.dst / 8) = false → t.adj = s.adj ∧ spGet 0 t.slew (m.dst / 8) = -(spGet 0 s.adj (m.dst / 8)).toInt))
/-- R345-R349, R366, R373, R440-R443: a triggered plan starts its next firing and emits it slot by slot; a slot whose chunk is whole is applied
at the receiver, written or accumulated, at the home or in a waystation, or under the handle it is bound to, whose slots are acknowledged
once the bond has taken the chunk; an aborted plan discards it; a firing complete in every byte and acknowledgement writes its trigger value
to DONEA; hold notices suspend the stall timer, which goes on from where it stood, stalls, the hold ceiling and abort notices abort the plan
with their cause. It rests on the model's choices and readings: log 2, 10, 18. -/
def Obligations.PlanEvents : Prop :=
  (∀ (s u w : State) (g place : Nat) (p : Plan) (rs : List (Nat × Nat)) (bs : List Byte), let b := p.bytes
    let n := min (pLen b - p.off) (min 192 (256 - (p.target + p.off) % 256))
    WalkerAccess s g place p { rd := true } ((((pSrc b).toNat : Int) + planOff b pSstr (planIdx b p.walk) + (p.off : Int)) % 2 ^ 64).toNat n 5 rs u →
    (∀ r ∈ rs, remoteTo g r.1 = true → undeliverable u g (paDie r.1) = none) → u.planRead g rs = (.ok bs, w) →
    (w.dieAt g).plan place = some { p with told := [] } →
    let t := s.planEmit g place p
    ∃ f q, t.slots = w.slots ++ [f] ∧ f.kind = 6 ∧ f.dst = paDie (p.target + p.off) ∧ f.src = g ∧ f.pa = p.target + p.off ∧ f.len = n ∧
      f.data = bs ∧ f.handle = planHandle place p ∧ f.pid = pId b ∧ f.rank = planPeer b (planIdx b p.walk) ∧ f.opx = pEtype b ∧
      f.need = chunkNeed p.target (pLen b) f.pa ∧ f.who = .plan place p.gen p.f ∧ (t.dieAt g).plan place = some q ∧ q.unack = p.unack + 1 ∧
      (if pLen b ≤ p.off + n then q.off = 0 ∧ q.walk = p.walk + 1 else q.off = p.off + n ∧ q.walk = p.walk)) ∧
  (∀ (s : State) (die pl key fi pa : Nat) (bs : List Byte) (p : Plan), let t := s.planApply die pl key fi pa bs
    let w := if pEtype p.bytes = 7 then 2 else 4
    (s.dieAt die).plan pl = some p →
    let Counted := ∃ q, (t.dieAt die).plan pl = some q ∧ q.landed fi = p.landed fi + bs.length ∧ q.chunks = p.chunks
    (p.boundOf fi = 0 → pEtype p.bytes = 0 ∨ s.ecc = [] → Counted) ∧
    (p.boundOf fi = 0 → pa + bs.length ≤ 2 ^ 52 →
      (pEtype p.bytes = 0 → Wrote s t pa bs) ∧
      (pEtype p.bytes ≠ 0 → bs ≠ [] → pa % 64 + bs.length ≤ 64 → s.ecc = [] →
        (s.window pa = none → Wrote s t pa (accHome s (pEtype p.bytes) pa bs)) ∧
        (∀ k c, s.window pa = some (k, c) → c.firm = true → c.ending = false → let l := s.combLine k pa
          (∀ a, t.byteAt a = s.byteAt a) ∧
          (t.wayAt k).lines = { l with
            dirty := true
            first := if l.dirty then l.first else s.tick
            bytes := splice l.bytes (pa % 64) ((List.range (bs.length / w)).flatMap fun i => bytesOf w (accElem (pEtype p.bytes)
              (ofBytes ((l.bytes.drop (pa % 64 + w * i)).take w)) (ofBytes ((bs.drop (w * i)).take w)))) } ::
            (s.wayAt k).lines.filter fun z => decide (z.pa ≠ l.pa)))) ∧
    (p.boundOf fi ≠ 0 → let r := s.taggedIn die (p.boundOf fi) pa (pEtype p.bytes) bs
      (r.2 = true → Counted ∧ ∀ a, t.byteAt a = r.1.byteAt a) ∧ (r.2 = false → t = r.1))) ∧
  ∀ (s : State) (p : Plan), let g := s.here.die; let place := s.here.place
    ((s.dieAt g).plan place = some p → p.abort = none → p.park = none →
      (∀ v l, p.act = none → p.pend = v :: l → p.frozen = none → ∃ t, exec .planFiringStart s = .next t ∧ (∀ a, t.byteAt a = s.byteAt a) ∧
        (t.dieAt g).plan place = some { p with act := some v, pend := l, walk := 0, off := 0, prog := s.tickOf g }) ∧
      (p.act = none → p.pend = [] ∨ p.frozen ≠ none → exec .planFiringStart s = .next s) ∧
      (∀ v, p.act = some v → planCount p.bytes ≤ p.walk → exec .planFiringStart s = .next s) ∧
      (∀ v, p.act = some v → p.walk < planCount p.bytes → p.off ≠ 0 → exec .planFiringStart s = .next (s.planEmit g place p)) ∧
      (∀ v, p.act = some v → p.walk < planCount p.bytes → p.off = 0 → p.frozen ≠ none → exec .planFiringStart s = .next s) ∧
      (∀ v rs u bs w, let b := p.bytes
        let peer := planPeer b (planIdx b p.walk)
        let e := dwAt bs 0
        let d := (fieldOf e 0 56 : Int) + (pDst b).toInt + planOff b pDstr (planIdx b p.walk)
        p.act = some v → p.walk < planCount b → p.off = 0 → p.frozen = none →
        WalkerAccess s g place p { rd := true } (((pPeerTab b).toNat + 8 * peer) % 2 ^ 64) 8 7 rs u → u.planRead g rs = (.ok bs, w) →
        (w.dieAt g).plan place = some { p with told := [] } →
        (peerOk w g e = false → ∃ t, exec .planFiringStart s = .next t ∧ PlanAborted t g place 7) ∧
        (peerOk w g e = true → d < 0 ∨ paOk w g d.toNat = false ∨ paSpace d.toNat ≠ 0 →
          ∃ t, exec .planFiringStart s = .next t ∧ PlanAborted t g place 4) ∧
        (peerOk w g e = true → 0 ≤ d → paOk w g d.toNat = true → paSpace d.toNat = 0 →
          (findPlan (w.dieAt (paDie d.toNat)) (pId b) peer = none → exec .planFiringStart s = .next w) ∧
          (findPlan (w.dieAt (paDie d.toNat)) (pId b) peer ≠ none → let p' : Plan := { p with target := d.toNat, told := [] }
            ∃ x : State, exec .planFiringStart s = .next (x.planEmit g place p') ∧ (x.dieAt g).plan place = some p' ∧
              x.slots = w.slots ∧ ∀ a, x.byteAt a = w.byteAt a))) ∧
      (∀ v pa l u, p.act = some v → planCount p.bytes ≤ p.walk → p.unack = 0 → p.landed p.f % 2 ^ 56 = pExpect p.bytes →
        WalkerAccess s g place p { w := true } (pDonea p.bytes).toNat 8 8 ((pa, 8) :: l) u → pa + 8 ≤ 2 ^ 52 →
        ∃ t q, exec .planFiringComplete s = .next t ∧ Wrote u t pa (bytesOf 8 v.toNat) ∧ (t.dieAt g).plan place = some q ∧ q.act = none ∧
          q.f = p.f + 1 ∧ q.landed p.f = 0 ∧ q.pend = p.pend) ∧
      (∀ v, p.act = some v → p.landed p.f % 2 ^ 56 ≠ pExpect p.bytes ∨ p.unack ≠ 0 ∨ p.walk < planCount p.bytes →
        exec .planFiringComplete s = .next s)) ∧
    ((s.dieAt g).plan (place % 256) = some p → p.abort = none → p.pend.length < 255 →
      ∃ t, exec .triggerWrite s = .next t ∧ (∀ a, t.byteAt a = s.byteAt a) ∧
        (t.dieAt g).plan (place % 256) = some { p with pend := p.pend ++ [s.here.v] }) ∧
    ((s.dieAt g).plan (place % 256) = some p → p.abort ≠ none ∨ 255 ≤ p.pend.length →
      ∃ t, exec .triggerWrite s = .next t ∧ (∀ a, t.byteAt a = s.byteAt a) ∧ (t.dieAt g).plan (place % 256) = some p) ∧
    (∀ f pl sp gen sf, Arrives s .planTransfer f → findPlan (s.dieAt f.dst) f.pid f.rank = some (pl, p) → (s.dieAt f.dst).plan pl = some p →
      f.who = .plan sp gen sf →
      let at_ := f.pa / 256 * 256
      let key := ((f.src * 256 + sp) * 2 ^ 24 + gen) * 2 + sf % 2 + 2 ^ 60 * f.job
      let fi := if sf % 2 = p.f % 2 then p.f else p.f + 1
      (p.abort ≠ none → ∃ t, exec .planTransfer s = .next t ∧ SlotIs s t (ackOf { f with placed := false }) ∧
        (∀ a, t.byteAt a = s.byteAt a) ∧ (t.dieAt f.dst).plan pl = some p) ∧
      (p.abort = none → (∀ c ∈ p.chunks, ¬ (c.key = key ∧ c.addr = at_)) →
        (f.data ≠ [] → f.need = f.data.length → f.pa % 256 + f.data.length ≤ 256 →
          ∃ x : State, exec .planTransfer s = .next ((x.planApply f.dst pl key fi f.pa f.data).ackAll (keptOf p fi [] f)) ∧
            PlanSlot s x p fi f ∧ x.mem = s.mem ∧ (x.dieAt f.dst).plan pl = some p) ∧
        (f.data.length < f.need → ∃ t q c, exec .planTransfer s = .next t ∧ PlanSlot s t p fi f ∧ c.slots = keptOf p fi [] f ∧ (∀ a, t.byteAt a = s.byteAt a) ∧
          (t.dieAt f.dst).plan pl = some q ∧ q.chunks = p.chunks ++ [c] ∧ c.got.map Prod.snd = f.data ∧ c.addr = at_ ∧ c.key = key ∧
          c.firing = fi ∧ c.need = f.need)) ∧
      (∀ c d lo, p.abort = none → p.chunks = [c] → c.key = key → c.addr = at_ → c.got = (List.range d.length).zipWith (fun o x => (lo + o, x)) d →
        d ≠ [] → at_ + lo + d.length = f.pa → f.pa % 256 + f.data.length ≤ 256 → f.need ≤ d.length + f.data.length →
        ∃ x : State, exec .planTransfer s = .next ((x.planApply f.dst pl key c.firing (at_ + lo) (d ++ f.data)).ackAll (keptOf p c.firing c.slots f)) ∧
          PlanSlot s x p c.firing f ∧ x.mem = s.mem ∧ (x.dieAt f.dst).plan pl = some { p with chunks := [] })) ∧
    ((s.dieAt g).plan place = some p → p.abort = none →
      (p.act ≠ none → p.frozen = none → p.holds = 0 → p.prog.toNat + msOf (fieldOf ((s.dieAt g).reg 0x319) 16 16) ≤ (s.tickOf g).toNat →
        ∃ t, exec .planStall s = .next t ∧ PlanAborted t g place 1) ∧
      (p.frozen ≠ none ∨ p.holds ≠ 0 ∨ p.act = none ∨ (s.tickOf g).toNat < p.prog.toNat + msOf (fieldOf ((s.dieAt g).reg 0x319) 16 16) →
        exec .planStall s = .next s) ∧
      (∀ h, p.frozen = some h → h.toNat + msOf (fieldOf ((s.dieAt g).reg 0x319) 0 16) ≤ (s.tickOf g).toNat →
        ∃ t, exec .holdCeilingExpiry s = .next t ∧ PlanAborted t g place 2) ∧
      (∀ h, p.frozen = some h → (s.tickOf g).toNat < h.toNat + msOf (fieldOf ((s.dieAt g).reg 0x319) 0 16) →
        exec .holdCeilingExpiry s = .next s) ∧
      (p.frozen = none → exec .holdCeilingExpiry s = .next s)) ∧
    (∀ m pl, findPlan (s.dieAt m.dst) m.handle m.y = some (pl, p) → (s.dieAt m.dst).plan pl = some p →
      (Notice s .planHold m → ∃ t, exec .planHoldNotice s = .next t ∧ Sends s t [] ∧ (t.dieAt m.dst).plan pl = some { p with
        holds := p.holds + 1, holdAt := if p.frozen = none ∧ p.holds = 0 then s.tickOf m.dst else p.holdAt }) ∧
      (Notice s .planRelease m → ∃ t, exec .planReleaseNotice s = .next t ∧ Sends s t [] ∧
        (t.dieAt m.dst).plan pl = some (if p.holds = 0 then p else { p with
          holds := p.holds - 1
          prog := if p.frozen = none ∧ p.holds = 1 then p.prog + (s.tickOf m.dst - (if p.holdAt < p.prog then p.prog else p.holdAt)) else p.prog })) ∧
      (Notice s .planAbort m → p.abort = none → ∃ t, exec .planAbortNotice s = .next t ∧ PlanAborted t m.dst pl m.x ∧
        t.slots = s.slots ++ (p.chunks.flatMap fun c => c.slots).map ackOf))
/-- R342, R417-R419, R424-R426: a merged write stores its line at the home and is done with it once no window holds it; the retry of a parked
access that finds its pages there, or that it fails otherwise, lets the word, command or transfer go on; one that finds one absent or in
motion counts, and escalates at the limit: a trap of class 4, a command that ends with code 0x03 and frees its chain's place (log 19), a
plan that aborts with cause 5; the scrubber repairs a word with one bad bit, or with two that its group rebuilds, and counts it.
COMBINING_BUFFER_EXPIRY, R238: a line leaves the combining buffer for companion memory 512 ns after it entered, and not before (log 43). It
rests on the model's choices and readings: log 2, 10, 19, 43. -/
def Obligations.BackgroundWork : Prop :=
  (∀ s : State,
    (∀ l, let w := s.wayAt s.here.k
      w.lines[s.here.e]? = some l → l.bytes ≠ [] → l.pa + l.bytes.length ≤ 2 ^ 52 →
      (w.wins.any (fun x => x.has l.pa && !x.ending) = false → ∃ t, exec .mergedWrite s = .next t ∧ Wrote s t l.pa l.bytes ∧
        (t.wayAt s.here.k).lines = dropNth w.lines s.here.e) ∧
      (w.wins.any (fun x => x.has l.pa && !x.ending) = true → l.dirty = true → ∃ t, exec .mergedWrite s = .next t ∧ Wrote s t l.pa l.bytes ∧
        (t.wayAt s.here.k).lines = setNth w.lines s.here.e { l with dirty := false }) ∧
      (w.wins.any (fun x => x.has l.pa && !x.ending) = true → l.dirty = false → exec .mergedWrite s = .next s)) ∧
    (∀ st k, (st = .c ∨ st = .a ∨ st = .v) → s.here.park = .stream s.here.die s.here.core st → s.here.die < 2048 → s.here.core < 384 → s.core.taken = none →
      s.job.live = true → (s.job.blk st).park = some k →
      (parkDue s s.here.die k = false → exec .parkRetry s = .next s) ∧
      (∀ u, parkDue s s.here.die k = true →
        (∀ r, s.xlatePieces k.need k.span = (r, u) → (∀ m va, r ≠ .park m va) →
          ∃ t, exec .parkRetry s = .next t ∧ JobOnly u t ∧ (t.job.blk st).park = none) ∧
        (∀ m va, s.xlatePieces k.need k.span = (.park m va, u) →
          (parkOver u s.here.die k = false → ∃ t, exec .parkRetry s = .next t ∧ JobOnly u t ∧
            (t.job.blk st).park = some { k with k := k.k + 1, motion := m, va := va }) ∧
          (parkOver u s.here.die k = true → let c := if m then 1 else 0
            ∃ v : State, exec .parkRetry s =
                .next (v.trapSub st (if (s.job.blk st).mode = .run ∧ (s.job.blk st).short = false then 0 else k.sub) 4 c va) ∧
              (v.job.blk st).park = none ∧ ∀ a, v.byteAt a =
                (u.err s.here.die s.here.core 0x11 k.sub (u.trapAt st 4 c va).cause va (k.k + 1) (bytesOf 8 k.t0.toNat)).byteAt a)))) ∧
    (∀ die cl e ch c k, s.here.park = .chain die cl e ch → let i : ChId := { cl := 2 * die + cl % 2, e := e % 2, ch := ch }
      s.chain i = some c → c.park = some k →
      (parkDue s die k = false → exec .parkRetry s = .next s) ∧
      (∀ u, parkDue s die k = true → u.clusters = s.clusters →
        (∀ r, s.chPieces c c.need k.span = (r, u) → (∀ m va, r ≠ .park m va) →
          ∃ t, exec .parkRetry s = .next t ∧ t.chain i = some { c with park := none } ∧ ∀ a, t.byteAt a = u.byteAt a) ∧
        (∀ m va, s.chPieces c c.need k.span = (.park m va, u) →
          (parkOver u die k = false → ∃ t, exec .parkRetry s = .next t ∧
            t.chain i = some { c with park := some { k with k := k.k + 1, motion := m, va := va } } ∧ ∀ a, t.byteAt a = u.byteAt a) ∧
          (parkOver u die k = true →
            (c.ph = .act → ∃ t x, exec .parkRetry s = .next t ∧ t.chain i = some x ∧ x.ph = .retire ∧ x.code = 3 ∧ x.detail = va ∧ x.park = none) ∧
            (c.ph = .read ∨ c.ph = .retire → ∃ t, exec .parkRetry s = .next t ∧ t.chain i = none))))) ∧
    (∀ die place p k, s.here.park = .walker die place → (s.dieAt die).plan place = some p → p.park = some k →
      (p.frozen ≠ none ∨ parkDue s die k = false → exec .parkRetry s = .next s) ∧
      (∀ u, p.frozen = none → parkDue s die k = true → (u.dieAt die).plan place = some p →
        (∀ r, s.planPieces die p k.need k.span = (r, u) → (∀ m va, r ≠ .park m va) →
          ∃ t, exec .parkRetry s = .next t ∧ (t.dieAt die).plan place = some { p with park := none } ∧ ∀ a, t.byteAt a = u.byteAt a) ∧
        (∀ m va, s.planPieces die p k.need k.span = (.park m va, u) →
          (parkOver u die k = false → ∃ t, exec .parkRetry s = .next t ∧
            (t.dieAt die).plan place = some { p with park := some { k with k := k.k + 1, motion := m, va := va } } ∧ ∀ a, t.byteAt a = u.byteAt a) ∧
          (parkOver u die k = true → p.abort = none → ∃ t, exec .parkRetry s = .next t ∧ PlanAborted t die place 5)))) ∧
    (let w := s.here.v.toNat / 8 * 8
     let g := paDie w
     paSpace w < 2 ∨ paSpace w = 4 → fieldOf ((s.dieAt g).reg 0x318) 0 32 ≠ 0 → bitOf ((s.dieAt g).reg 0x318) 32 = false →
     (s.uncorrectable w = true → ∃ t, exec .scrub s = .next t ∧ t.ecc.all (fun q => s.ecc.contains q) = true ∧
       fieldOf ((t.dieAt g).reg 0x318) 40 8 = min (fieldOf ((s.dieAt g).reg 0x318) 40 8 + 1) 255) ∧
     (spGet 0 s.ecc w = 1 → s.uncorrectable w = false) ∧
     (spGet 0 s.ecc w = 2 → (s.uncorrectable w = false ↔
       (paSpace w = 0 ∨ paSpace w = 4) ∧ ∀ m ∈ rebuildWords s w, s.markOf m = 0)) ∧
     (spGet 0 s.ecc w = 3 → s.uncorrectable w = true) ∧
     (spGet 0 s.ecc w ≠ 0 → s.uncorrectable w = false →
       ∃ t, exec .scrub s = .next t ∧ (∀ a, t.byteAt a = s.byteAt a) ∧ spGet 0 t.ecc w = 0 ∧
       fieldOf ((t.dieAt g).reg 0x318) 48 16 = min (fieldOf ((s.dieAt g).reg 0x318) 48 16 + 1) 65535) ∧
     (spGet 0 s.ecc w = 0 → exec .scrub s = .next s)) ∧
    (fieldOf ((s.dieAt (paDie (s.here.v.toNat / 8 * 8))).reg 0x318) 0 32 = 0 → exec .scrub s = .next s)) ∧
  (∀ (s : State) (l : NtLine), s.core.nt[s.here.k]? = some l →
    ((s.tickOf s.here.die).toNat < l.at0.toNat + 512 → exec .combiningBufferExpiry s = .next s) ∧
    (l.at0.toNat + 512 ≤ (s.tickOf s.here.die).toNat →
      ∃ t, exec .combiningBufferExpiry s = .next t ∧ (t.core.nt = s.core.nt.filter fun x => x.pa != l.pa) ∧
        (s.core.nt.filter (fun x => x.pa == l.pa) = [l] → bitsAt ((s.dieAt (s.me / 384)).reg2 0x30A) 104 24 = 0 →
          Wrote s t l.pa (l.bytes.map Prod.snd))))
/-- R360, R371, R444: an entry makes its destination MANIFESTED, which confirms once it has received what it expects; the last confirmation
fixes T once the census is back, T goes to every destination, which becomes SCHEDULED. It rests on the model's choices and readings: log 2,
37. -/
def Obligations.ConsignmentSchedule : Prop :=
  ∀ s : State,
    (∀ m, Notice s .manifest m → (s.dieAt m.dst).bypassed = true → ∃ t, exec .manifestEntry s = .next t ∧ Sends s t [] ∧ { t with msgs := s.msgs } = s) ∧
    (∀ m k, Notice s .manifest m → (s.dieAt m.dst).bypassed = false → m.x + 8 ≤ 2 ^ 52 →
      (∀ x, DestAt s m.dst m.handle k x → x.state = 0 → x.conf = false →
        ∃ t y, exec .manifestEntry s = .next t ∧ spFind (t.dieAt m.dst).dests k = some y ∧ y.state = 2 ∧ y.stata = m.x ∧ y.expect = m.y ∧
          y.recv = x.recv ∧ StatusIs s t m.x 2 m.handle ∧
          (x.recv = m.y → y.conf = true ∧ Sends s t [{ kind := .confirm, dst := cnDie m.handle, src := m.dst, handle := m.handle }]) ∧
          (x.recv < m.y → y.conf = false ∧ Sends s t [])) ∧
      ((s.dieAt m.dst).dest m.handle = none → freePlace (s.dieAt m.dst).dests 128 = some k →
        ∃ t y, exec .manifestEntry s = .next t ∧ spFind (t.dieAt m.dst).dests k = some y ∧ y.handle = m.handle ∧ y.state = 2 ∧ y.recv = 0 ∧
          y.expect = m.y ∧ StatusIs s t m.x 2 m.handle)) ∧
    (∀ m k c, Notice s .confirm m → CoordAt s m.dst m.handle k c → c.state = 2 →
      let l := c.ents.map fun e => if paDie e.stata = m.src then { e with conf := true } else e
      (c.census = false ∨ (∃ e ∈ l, e.conf = false) →
        ∃ t, exec .confirmation s = .next t ∧ Sends s t [] ∧ spFind (t.dieAt m.dst).coords k = some { c with ents := l } ∧
          ∀ a, t.byteAt a = s.byteAt a) ∧
      (c.census = true → (∀ e ∈ l, e.conf = true) → c.stata + 8 ≤ 2 ^ 52 →
        ∃ t d, exec .confirmation s = .next t ∧ spFind (t.dieAt m.dst).coords k = some d ∧ d.state = 3 ∧
          d.t = s.tickOf m.dst + BitVec.ofNat 64 (max (if c.lead = 0 then 4000 else c.lead) (fieldOf ((s.dieAt m.dst).reg 0x308) 0 32)) ∧
          StatusIs s t c.stata 3 c.handle ∧
          Sends s t (l.map fun e => { kind := .time, dst := paDie e.stata, src := m.dst, handle := c.handle, x := d.t.toNat }))) ∧
    (∀ m k x, Notice s .time m → DestAt s m.dst m.handle k x → x.state = 2 → x.late = 0 → x.stata + 8 ≤ 2 ^ 52 →
      ∃ t y, exec .publishTime s = .next t ∧ Sends s t [] ∧ spFind (t.dieAt m.dst).dests k = some y ∧ y.state = 3 ∧ y.t = BitVec.ofNat 64 m.x ∧
        y.recv = x.recv ∧ StatusIs s t x.stata 3 m.handle) ∧
    (∀ m, Notice s .census m →
      ((∃ e ∈ s.msgs, e.kind = .manifest ∧ e.handle = m.handle ∧ e.dst = m.dst) → exec .censusNotice s = .next s) ∧
      ((∀ e ∈ s.msgs, ¬ (e.kind = .manifest ∧ e.handle = m.handle ∧ e.dst = m.dst)) →
        (roundEnds s m.dst m.handle = false → (s.dieAt m.dst).dest m.handle = none →
          ∃ t, exec .censusNotice s = .next t ∧ Sends s t [onward s m] ∧ m.handle ∈ (t.dieAt m.dst).censused ∧ ∀ a, t.byteAt a = s.byteAt a) ∧
        (∀ k x, roundEnds s m.dst m.handle = false → DestAt s m.dst m.handle k x →
          ∃ t, exec .censusNotice s = .next t ∧ spFind (t.dieAt m.dst).dests k = some { x with census := true } ∧
            Sends s t ((if x.state = 0 then [{ kind := .abortReq, dst := cnDie m.handle, src := m.dst, handle := m.handle, x := 5 }] else []) ++
              [onward s m])) ∧
        (roundEnds s m.dst m.handle = true → (s.dieAt m.dst).dest m.handle = none → (s.dieAt m.dst).coord m.handle = none →
          ∃ t, exec .censusNotice s = .next t ∧ Sends s t []) ∧
        (∀ k c, roundEnds s m.dst m.handle = true → CoordAt s m.dst m.handle k c →
          ∃ t d, exec .censusNotice s = .next t ∧ spFind (t.dieAt m.dst).coords k = some d ∧ d.census = true)))
/-- R372, R375, R444-R446: at T a destination publishes all its bond lines in one step, its coordinator its status; the draining of a line moves
its bytes to the home line and no byte reads otherwise; an abort request, or no confirmation in time, aborts the consignment, which discards
the lines at each die that the notice passes; an aborted place is freed after HOLD, an orphan place after CNWAIT. It rests on the model's
choices and readings: log 2, 12. -/
def Obligations.ConsignmentPublishAndAbort : Prop :=
  ∀ s : State, let g := s.here.die; let d := s.dieAt g
    (∀ c, s.here.coord = true → spFind d.coords s.here.place = some c →
      (c.state = 3 → c.t ≤ s.tickOf g → c.stata + 8 ≤ 2 ^ 52 →
        ∃ t, exec .publish s = .next t ∧ StatusIs s t c.stata 4 c.handle ∧ spFind (t.dieAt g).coords s.here.place = none) ∧
      (c.state ≠ 3 ∨ s.tickOf g < c.t → exec .publish s = .next s)) ∧
    (∀ x, s.here.coord = false → spFind d.dests s.here.place = some x →
      (publishDue s g s.here.place x = false → exec .publish s = .next s) ∧
      (publishDue s g s.here.place x = true →
        ∃ t, exec .publish s = .next t ∧ t.msgs = s.msgs ∧ (∀ b ∈ (t.dieAt g).bonds, b.handle = x.handle → b.on = true) ∧
          (x.stata + 8 ≤ 2 ^ 52 → t.peek x.stata 8 = bytesOf 8 (4 * 2 ^ 60 + x.handle)) ∧
          ((∃ b ∈ d.bonds, b.handle = x.handle ∧ b.on = false) → spFind (t.dieAt g).dests s.here.place = some { x with state := 4 }) ∧
          ((∀ b ∈ d.bonds, b.handle = x.handle → b.on = true) → spFind (t.dieAt g).dests s.here.place = none))) ∧
    (∀ b : Bond, d.bonds.reverse.find? (fun c => c.on && c.line == s.here.k) = some b → b.bad = false → s.ecc = [] →
      (∀ c ∈ d.bonds, c ≠ b → c.on = true → c.home ≠ b.home) → b.home % 64 = 0 → b.home < 2 ^ 52 → paDie b.home = g →
      (b.bytes.map Prod.fst).Nodup → (∀ p ∈ b.bytes, p.1 < 64) →
      ∃ t, exec .bondDrain s = .next t ∧ (∀ a, t.byteAt a = s.byteAt a) ∧ (t.dieAt g).bonds = d.bonds.filter (fun c => c != b) ∧
        (∀ p ∈ b.bytes, memGet t.mem (b.home + p.1) = p.2) ∧
        ((∃ c ∈ d.bonds, c ≠ b ∧ c.handle = b.handle ∧ c.on = true) → (t.dieAt g).dests = d.dests) ∧
        ((∀ c ∈ d.bonds, c ≠ b → c.handle = b.handle → c.on = false) →
          ∀ p ∈ (t.dieAt g).dests, ¬ (p.2.handle = b.handle ∧ p.2.state = 4))) ∧
    (∀ m k c, Notice s .abortReq m → CoordAt s m.dst m.handle k c →
      (c.state = 1 ∨ c.state = 2 →
        ∃ t, exec .abortRequest s = .next t ∧ spFind (t.dieAt m.dst).coords k = some { c with state := 5 } ∧
          Sends s t [{ kind := .abort, dst := cwNext s m.dst, src := m.dst, handle := c.handle, x := m.x }]) ∧
      (c.state = 3 → m.x = 4 ∨ m.x = 5 →
        ∃ t, exec .abortRequest s = .next t ∧ Sends s t [{ kind := .time, dst := m.src, src := m.dst, handle := m.handle, x := c.t.toNat }] ∧
          ∀ a, t.byteAt a = s.byteAt a)) ∧
    (∀ m T, Notice s .abortReq m → (s.dieAt m.dst).coord m.handle = none → spFind (s.dieAt m.dst).cnT m.handle = some T → m.x = 4 ∨ m.x = 5 →
      ∃ t, exec .abortRequest s = .next t ∧ Sends s t [{ kind := .time, dst := m.src, src := m.dst, handle := m.handle, x := T.toNat }] ∧
        ∀ a, t.byteAt a = s.byteAt a) ∧
    (∀ m k x, Notice s .abort m → DestAt s m.dst m.handle k x → x.state = 3 ∨ x.state = 4 →
      ∃ t, exec .abortNotice s = .next t ∧ (t.dieAt m.dst).plans = (s.dieAt m.dst).plans ∧ (t.dieAt m.dst).bonds = (s.dieAt m.dst).bonds ∧
        spFind (t.dieAt m.dst).dests k = some x) ∧
    (∀ m, Notice s .abort m → (∀ q ∈ (s.dieAt m.dst).plans, m.handle ∉ q.2.bounds) →
      (roundEnds s m.dst m.handle = false → (s.dieAt m.dst).dest m.handle = none → ∃ t, exec .abortNotice s = .next t ∧ Sends s t [onward s m]) ∧
      (roundEnds s m.dst m.handle = true →
        ∃ t, exec .abortNotice s = .next t ∧ Sends s t [] ∧ ∀ p ∈ (t.dieAt m.dst).coords, ¬ (p.2.handle = m.handle ∧ p.2.state = 5)) ∧
      (∀ k x, roundEnds s m.dst m.handle = false → DestAt s m.dst m.handle k x →
        ∃ t, exec .abortNotice s = .next t ∧ Sends s t [onward s m] ∧
          (x.state = 0 ∨ x.state = 2 →
            spFind (t.dieAt m.dst).dests k =
              some { x with state := 5, hold := s.tickOf m.dst + BitVec.ofNat 64 (fieldOf ((s.dieAt m.dst).reg 0x308) 32 32) } ∧
            ∀ b ∈ (t.dieAt m.dst).bonds, b.handle = m.handle → b.on = true) ∧
          (x.state = 3 ∨ x.state = 4 → spFind (t.dieAt m.dst).dests k = some x))) ∧
    (∀ c, spFind d.coords s.here.place = some c →
      (c.state = 2 → c.sentAt.toNat + cnwaitNs s g ≤ (s.tickOf g).toNat →
        ∃ t, exec .cnwaitExpiry s = .next t ∧ spFind (t.dieAt g).coords s.here.place = some { c with state := 5 } ∧
          t.msgs = s.msgs ++ [{ kind := .abort, dst := cwNext s g, src := g, handle := c.handle, x := 6 }]) ∧
      (c.state ≠ 2 ∨ (s.tickOf g).toNat < c.sentAt.toNat + cnwaitNs s g → exec .cnwaitExpiry s = .next s)) ∧
    (∀ x, spFind d.dests s.here.place = some x →
      (x.state = 5 → x.hold ≤ s.tickOf g →
        ∃ t, exec .destinationHoldExpiry s = .next t ∧ spFind (t.dieAt g).dests s.here.place = none ∧ x.handle ∈ (t.dieAt g).expired ∧
          ∀ a, t.byteAt a = s.byteAt a) ∧
      (x.state ≠ 5 ∨ s.tickOf g < x.hold → exec .destinationHoldExpiry s = .next s) ∧
      (x.orphan = true → x.state = 0 → x.opened.toNat + cnwaitNs s g ≤ (s.tickOf g).toNat →
        ∃ t, exec .orphanPlaceDiscard s = .next t ∧ spFind (t.dieAt g).dests s.here.place = none ∧
          ∀ b ∈ (t.dieAt g).bonds, b.handle ≠ x.handle) ∧
      (x.orphan = false → exec .orphanPlaceDiscard s = .next s))
/-- R14, R58, R59, R376, R390, R433, R434: a write of RSCFG that sets RUN starts a stopped ring station at the first rotation that has not
begun, one that clears it stops the station and frees its landed and open frames; a WLOAD that completes has copied its segment and occupies
its frame; RPAIR and RINGCFG take what root firmware writes, a MODE of 3 nothing; a bypass ends once the eight RPAIR of the package agree on
none, or on another die. It rests on the model's choices and readings: log 2, 11, 33, 47. -/
def Obligations.RingStations : Prop :=
  ∀ s : State, let g := s.here.die; let d := s.dieAt g; let v := s.here.v
    (bitOf v 63 = false → exec .ringStationRun s = .next s) ∧
    (bitOf v 63 = true → exec .ringStationStop s = .next s) ∧
    (bitOf v 63 = true → stationRuns d = false → fieldOf v 0 3 ≤ 4 → rsPeriod d ≠ 0 →
      ∃ t, exec .ringStationRun s = .next t ∧ stationRuns (t.dieAt g) = true ∧ segSz (t.dieAt g) = 0x1000000 * 2 ^ fieldOf v 0 3 ∧
        (t.dieAt g).ents = [] ∧ (t.dieAt g).wc = [] ∧ (t.dieAt g).frames = d.frames ∧
        (s.tickOf g).toNat ≤ rotTick d (t.dieAt g).n0 0 ∧ (0 < (t.dieAt g).n0 → rotTick d ((t.dieAt g).n0 - 1) 0 < (s.tickOf g).toNat) ∧
        ∀ a, t.byteAt a = s.byteAt a) ∧
    (bitOf v 63 = true → stationRuns d = true ∨ rsPeriod d = 0 ∨ 4 < fieldOf v 0 3 → exec .ringStationRun s = .next s) ∧
    (bitOf v 63 = false → 4 < fieldOf v 0 3 ∨ (stationRuns d = true ∧ fieldOf v 0 3 ≠ fieldOf (d.reg 0x301) 0 3) →
      exec .ringStationStop s = .next s) ∧
    (bitOf v 63 = false → stationRuns d = true → fieldOf v 0 3 = fieldOf (d.reg 0x301) 0 3 → fieldOf v 0 3 ≤ 4 →
      ∃ t, exec .ringStationStop s = .next t ∧ stationRuns (t.dieAt g) = false ∧ segSz (t.dieAt g) = segSz d ∧
        (∀ f, (frameAt (t.dieAt g) f).st = if (frameAt d f).st = 1 ∨ (frameAt d f).st = 4 then (frameAt d f).st else 0) ∧
        (t.dieAt g).ents = [] ∧ (∀ a, t.byteAt a = s.byteAt a) ∧
        t.segs = s.segs.map fun x => if x.dst = g ∧ x.begun = true then { x with prog := true } else x) ∧
    ((d.wload = none → exec .wloadComplete s = .next s) ∧
     (∀ src f tag, d.wload = some (src, f, tag) → s.Inv → g < 2048 → d.reg2 0x30A = 0 → d.wrote = [] →
       ∃ t, exec .wloadComplete s = .next t ∧ fieldOf ((t.dieAt g).reg 0x31A) 56 2 = 2 ∧ (t.dieAt g).wload = none ∧
         (∀ o < segSz d, memGet t.mem (seraiPa g (f * segSz d) + o) = memGet s.mem (src + o)) ∧
         (∀ a, a < seraiPa g (f * segSz d) ∨ seraiPa g (f * segSz d) + segSz d ≤ a → memGet t.mem a = memGet s.mem a) ∧
         (homeFrame s g f = false → (frameAt (t.dieAt g) f).loaded = true) ∧ (homeFrame s g f = true → (t.dieAt g).frames = d.frames))) ∧
    (d.imgRoot ≠ [] → ∃ t, exec .rpair s = .next t ∧ fieldOf ((t.dieAt g).reg 0x405) 0 4 = fieldOf v 0 4 ∧ (∀ a, a ≠ 0x405 → (t.dieAt g).reg a = d.reg a) ∧
      ((∀ k < 8, 8 * (g / 8) + k ≠ g → fieldOf ((s.dieAt (8 * (g / 8) + k)).reg 0x405) 0 4 = fieldOf v 0 4) →
        ∀ k < 8, (t.dieAt (8 * (g / 8) + k)).bypassed = ((s.dieAt (8 * (g / 8) + k)).bypassed && decide (fieldOf v 0 4 = 8 + k))) ∧
      ((∃ k < 8, 8 * (g / 8) + k ≠ g ∧ fieldOf ((s.dieAt (8 * (g / 8) + k)).reg 0x405) 0 4 ≠ fieldOf v 0 4) →
        ∀ n, (t.dieAt n).bypassed = (s.dieAt n).bypassed)) ∧
    (d.imgRoot = [] → exec .rpair s = .next s ∧ exec .ringcfgWrite s = .next s) ∧
    (fieldOf v 0 2 = 3 → exec .ringcfgWrite s = .next s) ∧
    (d.imgRoot ≠ [] → fieldOf v 0 2 ≠ 3 → ∃ t, exec .ringcfgWrite s = .next t ∧ fieldOf ((t.dieAt g).reg 0x402) 0 2 = fieldOf v 0 2 ∧
      fieldOf ((t.dieAt g).reg 0x402) 32 16 = fieldOf v 32 16 ∧ ∀ a, a ≠ 0x402 → (t.dieAt g).reg a = d.reg a)
/-- R32, R63, R64, R68, R70, R71, R73-R76, R429, R457: a presentation opens its frame and dispatches every slot that wants its tag and holds
nothing, defers those that hold pages, and leaves the others; at LATEST a deferred slot is dispatched if it may now and else skipped, and a
copy never presented skips its slots; at DEPART the frame closes and its segment goes on in the directions that the entry names. After each
round the entries of the tag dispatch table that match fire in order: one record for each slot of the want set, or the want vector and one
record for each core of the range; a broken one is taken out of use and reported. At the boundary of a model, before its round, finished
slots retire, the admission queue is walked, and parked slots run again. A retirement drops its pages and writes its completion record, or
waits for room. Nothing happens early or while the station is stopped. It rests on the model's choices and readings: log 2, 39. -/
def Obligations.RingPresentations : Prop :=
  ∀ s : State, let g := s.here.die; let e := s.here.e; let d := s.dieAt g; let te := ttEnt s g e; let st := entSt d e
    let now := (s.tickOf g).toNat
    (stationRuns d = false ∨ ttLen d ≤ e →
      exec .tagPresentation s = .next s ∧ exec .dispatchRound1 s = .next s ∧ exec .frameClose s = .next s) ∧
    (stationRuns d = true → e < ttLen d →
      (due0 s g e = none → exec .tagPresentation s = .next s) ∧
      (∀ due, due0 s g e = some due → now < due → exec .tagPresentation s = .next s) ∧
      (∀ due, due0 s g e = some due → due ≤ now → let u := if st.wait = none then s.openDue g e due else s
        (schedHeld s g = true → st.wait = none → ∃ t, exec .tagPresentation s = .next t ∧ (entSt (t.dieAt g) e).wait = some due ∧
          (entSt (t.dieAt g) e).next0 = st.next0 ∧ t.clusters = s.clusters ∧ ∀ a, t.byteAt a = s.byteAt a) ∧
        (schedHeld s g = false → firstDue u g e due = true → ∃ t, exec .tagPresentation s = .next t ∧
          (entSt (t.dieAt g) e).next0 = st.next0 + 1 ∧ (entSt (t.dieAt g) e).wait = none ∧
          (st.wait = none → te.src = 0 → st.nextC ≤ st.next0 → (frameAt (t.dieAt g) te.frame).st = 3 ∧
            (frameAt (t.dieAt g) te.frame).tag = tagIn te st.next0 ∧ (frameAt (t.dieAt g) te.frame).entry = e) ∧
          (tagLayer (tagIn te st.next0) ≠ 0 ∨ tagSlice (tagIn te st.next0) ≠ 0 → ∀ k < 256, let r := s.slotAt g k
            (r.wants (tagIn te st.next0) = false → t.slotAt g k = r) ∧
            (r.wants (tagIn te st.next0) = true → r.hold ≠ 0 → t.slotAt g k = { r with defer := true }) ∧
            (r.wants (tagIn te st.next0) = true → r.hold = 0 → t.slotAt g k =
              advanceCursor (modelEnt s g (tagModel (tagIn te st.next0))) (BitVec.ofNat 64 (rotTick d st.next0 te.depart)) r)))) ∧
      (now < due1 s g e → exec .dispatchRound1 s = .next s) ∧
      (due1 s g e ≤ now → schedHeld s g = false → firstDue s g e (due1 s g e) = true →
        (st.next1 < st.next0 → let tag := tagIn te st.next1
          let p := (s.onEnt g e fun x => { x with next1 := x.next1 + 1, next0 := max x.next0 (x.next1 + 1) }).dispatchRound g tag 1
            (BitVec.ofNat 64 (rotTick d st.next1 te.depart))
          let m := modelEnt p.2 g (tagModel tag)
          ∃ t, exec .dispatchRound1 s = .next t ∧ t = p.2.dispatchAll g tag p.1 ∧ (entSt (t.dieAt g) e).next1 = st.next1 + 1 ∧
          (fieldOf (d.reg 0x319) 48 16 = 0 → m = modelEnt s g (tagModel tag)) ∧ ∀ k < 256, let r := s.slotAt g k
            (r.defer = false → t.slotAt g k = r) ∧
            (r.defer = true → r.hold = 0 → r.wants (tagIn te st.next1) = true →
              t.slotAt g k = advanceCursor m (BitVec.ofNat 64 (rotTick d st.next1 te.depart)) { r with defer := false }) ∧
            (r.defer = true → r.hold ≠ 0 ∨ r.wants (tagIn te st.next1) = false → t.slotAt g k = skipped r)) ∧
        (st.next0 ≤ st.next1 → due0 s g e = none → ∃ t, exec .dispatchRound1 s = .next t ∧ (entSt (t.dieAt g) e).next1 = st.next1 + 1 ∧
          (entSt (t.dieAt g) e).next0 = st.next1 + 1 ∧
          ∀ k < 256, t.slotAt g k =
            if (s.slotAt g k).wants (tagIn te st.next1) ∨ (s.slotAt g k).defer then skipped (s.slotAt g k) else s.slotAt g k)) ∧
      (now < rotTick d st.nextC te.depart → exec .frameClose s = .next s) ∧
      (∀ f, rotTick d st.nextC te.depart ≤ now → st.wait ≠ none ∨ st.next0 ≠ st.nextC ∨ due0 s g e = none →
        heldFrame d e st.nextC = some f → (frameAt d f).st = 3 → let cw := te.fcw && goesOn s g 1; let ccw := te.fccw && goesOn s g 2
        ∃ t l, exec .frameClose s = .next t ∧ (entSt (t.dieAt g) e).nextC = st.nextC + 1 ∧ t.segs = s.segs ++ l ∧
          l.map (fun x => { x with begun := false, land := none }) =
            (if cw then [copyOf s g f e 1] else []) ++ (if ccw then [copyOf s g f e 2] else []) ∧
          (∀ x ∈ l, segBlocked s x = true → x.begun = false) ∧
          (frameAt (t.dieAt g) f).st = (if cw || ccw then 4 else if te.src = 0 then 2 else 0) ∧
          (frameAt (t.dieAt g) f).ackCw = cw ∧ (frameAt (t.dieAt g) f).ackCcw = ccw)) ∧
      (∀ due, due0 s g e = some due → due ≤ now → let u := if st.wait = none then s.openDue g e due else s
        schedHeld s g = false → firstDue u g e due = true → let tag := tagIn te st.next0
        let x := u.onEnt g e fun y => { y with next0 := y.next0 + 1, wait := none }
        let x := if tagLayer tag = 0 ∧ tagSlice tag = 0 then x.boundary g (tagModel tag) else x
        let p := x.dispatchRound g tag 0 (BitVec.ofNat 64 (rotTick d st.next0 te.depart))
        exec .tagPresentation s = .next (p.2.dispatchAll g tag p.1)) ∧
    (∀ (tag : W32) (tick : W64),
      (let p := s.dispatchRound g tag 0 tick
       p.1 = (List.range 256).filter (fun k => (s.slotAt g k).wants tag && decide ((s.slotAt g k).hold = 0)) ∧ p.2.clusters = s.clusters ∧
       (∀ a, p.2.byteAt a = s.byteAt a) ∧ ∀ k < 256, let r := s.slotAt g k; p.2.slotAt g k =
         if r.wants tag = false then r else if r.hold = 0 then advanceCursor (modelEnt s g (tagModel tag)) tick r else { r with defer := true }) ∧
      (let p := s.dispatchRound g tag 1 tick
       p.1 = (List.range 256).filter (fun k => (s.slotAt g k).defer && (s.slotAt g k).wants tag && decide ((s.slotAt g k).hold = 0)) ∧
       ∀ k < 256, let r := s.slotAt g k; p.2.slotAt g k =
         if r.defer = false then r
         else if r.wants tag = true ∧ r.hold = 0 then advanceCursor (modelEnt p.2 g (tagModel tag)) tick { r with defer := false } else skipped r)) ∧
    (∀ (tag : W32) (want : List Nat),
      ((∀ k < 4096, ¬EntryMatches s g k tag) → s.dispatchAll g tag want = s) ∧
      ∀ k < 4096, let pa := ctlPa g (0x40000 + 64 * k); let b := s.peek pa 64; let w1 := dwAt b 8; let f := fun s want => State.dispatchFire s g k b tag want
        let prio := fun i => if bitOf w1 60 then (s.slotAt g i).prio else fieldOf w1 48 3
        let fires := bitOf w1 62 = false ∨ want ≠ [] ∨ bitOf w1 61 = true
        (EntryMatches s g k tag → (∀ j < k, ¬EntryMatches s g j tag) → (∀ j < 4096, k < j → ¬EntryMatches (f s want) g j tag) →
          s.dispatchAll g tag want = f s want) ∧
        (¬fires → f s want = s) ∧
        (fires → dispatchBroken b = true →
          f s want = (s.store64 (pa + 8) (setField w1 63 1 0)).err g noCore 8 1 0 pa tag.toNat (b.take 32)) ∧
        (dispatchBroken b = false → bitOf w1 62 = false →
          (want = [] → f s want = s) ∧ (∀ i j l, want = i :: j :: l → f s want = f (f s [i]) (j :: l)) ∧
          ∀ i, want = [i] → f s want = s.dispatchPush (2 * g + clSel s g (fieldOf w1 56 2) i (prio i)) (dispatchRec b tag (prio i) i i none)) ∧
        (dispatchBroken b = false → bitOf w1 62 = true → fires → let w := spGet 0 d.wc k; let w5 := dwAt b 40
          let cores := (List.range (fieldOf w5 41 9 + 1)).map fun j => fieldOf w5 32 9 + j
          ∃ vec : List Byte, vec.length = 32 ∧ (want.Nodup → (∀ j ∈ want, j < 256) → ∀ j < 256, (ofBytes vec).testBit j = want.contains j) ∧
            let u := [0, 1].foldl (fun u c => if cores.any fun x => decide (x / 192 = c)
              then u.store (clWin (2 * g + c) (fieldOf (dwAt b 32) 0 32 + 32 * w)) vec else u) s
            f s want = (cores.foldl (fun u c => u.dispatchPush (clid g c) (dispatchRec b tag (fieldOf w1 48 3) w c (some (c % 192)))) u).onDie g
              fun d => { d with wc := spSet d.wc k ((w + 1) % 16) })) ∧
    (∀ (b : List Byte) (tag : W32) (prio slot k : Nat) (af : Option Nat), prio < 8 → slot < 256 → k < 384 → (∀ c, af = some c → c < 256) →
      let r := dispatchRec b tag prio slot k af
      r.code = fieldOf (dwAt b 8) 0 48 ∧ r.smask = fieldOf (dwAt b 8) 52 4 ∧ r.prio = prio ∧ r.slot = slot ∧ r.afv = af.isSome ∧
      r.afcore = af.getD 0 ∧ r.frame = (fieldOf (dwAt b 16) 0 53 + fieldOf (dwAt b 24) 32 32 * k) % 2 ^ 53 ∧ r.tagkey = tag.toNat ∧
      r.joina = fieldOf (dwAt b 24) 0 32 ∧ r.d3.toNat = fieldOf (dwAt b 32) 32 32 * 2 ^ 32 + (tag.toNat ^^^ (k * 65536))) ∧
    (∀ (cl : Nat) (r : Rec), let t := s.dispatchPush cl r; let pa := clWin cl r.joina
      (∀ sub, recBroken r = some sub → t = s.recErr (cl / 2) noCore sub 3 r) ∧
      (recBroken r = none → (s.clusterAt cl).fullR r.prio = false → spGet [] (s.clusterAt cl).heldR r.prio = [] →
        (Gained s t cl r.prio fun q => q.r = r ∧ q.sup = true ∧ q.path = 3) ∧
        (r.joina = noJoin → ∀ a, ¬InPlace s cl r.prio a → t.byteAt a = s.byteAt a) ∧
        (r.joina ≠ noJoin → s.ecc = [] → pa + 8 ≤ 2 ^ 52 → (∀ k < 8, ¬InPlace s cl r.prio (pa + k)) → t.peek64 pa = s.peek64 pa + 1 ∧
          ∀ a, ¬InPlace s cl r.prio a → (a < pa ∨ pa + 8 ≤ a) → t.byteAt a = s.byteAt a))) ∧
    (∀ m, let t := s.boundary g m; let done := fun k => (s.slotAt g k).state = 3 ∧ (s.slotAt g k).model = m
      ((∀ k < 256, ¬done k) → d.adm = [] → (∀ a, t.byteAt a = s.byteAt a) ∧
        (t.dieAt g).scrBound = (d.scrBound || (List.range 256).any fun k => decide ((s.slotAt g k).model = m ∧ (s.slotAt g k).state = 2) && scraping d k) ∧
        ∀ k < 256, let r := s.slotAt g k; t.slotAt g k =
          if r.model ≠ m then r
          else if r.state = 2 ∧ scraping d k = false then { r with state := 1, parkp := false }
          else if r.state = 1 then { r with parkp := false } else r) ∧
      (∀ k < 256, done k → scraping d k = false → (∀ j < 256, j ≠ k → ¬done j) → d.adm = [] → complRoom d = true →
        let why := if (s.slotAt g k).lost then 3 else if (s.slotAt g k).fin then 1 else 0
        let u := (s.retire g k why (!(s.slotAt g k).lost)).boundary g m
        (∀ n, t.dieAt n = u.dieAt n) ∧ ∀ a, t.byteAt a = u.byteAt a) ∧
      (∀ a k, (∀ k < 256, ¬done k) → d.adm = [a] → a.pend = none → fieldOf a.r.d1 54 6 = m → fieldOf a.r.d2 0 32 ≠ 0 →
        k < 256 → (s.slotAt g k).state = 0 → (∀ j < k, (s.slotAt g j).state ≠ 0) → modelSlots s g m < fieldOf (modelEnt s g m) 32 8 + 1 →
        (t.dieAt g).adm = [] ∧ t.slotAt g k = { state := 1, prio := fieldOf a.r.d1 60 3, model := m, ptbase := fieldOf a.r.d1 0 53, reqid := a.r.d0,
                                                budget := fieldOf a.r.d2 0 32, cursor := k % 48 }) ∧
      (∀ a l, let x := s.admWalk g m l
        (a.pend ≠ none ∨ fieldOf a.r.d1 54 6 ≠ m → s.admWalk g m (a :: l) = (x.1, a :: x.2)) ∧
        (a.pend = none → fieldOf a.r.d1 54 6 = m → fieldOf a.r.d2 0 32 = 0 → let c := s.complete g a.r.d0 0 0xFF m 0 0
          (c.1 = true → s.admWalk g m (a :: l) = c.2.admWalk g m l) ∧
          (c.1 = false → s.admWalk g m (a :: l) = (x.1, { a with pend := some 0 } :: x.2))) ∧
        (a.pend = none → fieldOf a.r.d1 54 6 = m → fieldOf a.r.d2 0 32 ≠ 0 →
          (∀ k < 256, (s.slotAt g k).state ≠ 0) ∨ fieldOf (modelEnt s g m) 32 8 + 1 ≤ modelSlots s g m → s.admWalk g m (a :: l) = (s, a :: l)))) ∧
    (∀ k why pages, let r := s.slotAt g k
      (complRoom d = false → s.retire g k why pages = s) ∧
      (complRoom d = true → s.retire g k why pages = ((if pages then s.dropPages g k else s).complete g r.reqid r.steps k r.model why r.skips).2.onSlot g k
        fun r => { r with state := 0 })) ∧
    ∀ (reqid : W64) (steps slot model why skips : Nat), let q := d.reg2 0x30E; let p := bitsAt q 0 56 + 32 * bitsAt q 112 16
      let t := s.complete g reqid steps slot model why skips
      (complRoom d = false → t = (false, s)) ∧
      (complRoom d = true → bitsAt q 92 4 ≤ 10 → p + 32 ≤ 2 ^ 52 → t.1 = true ∧
        Wrote s t.2 p (bytesOf 8 reqid.toNat ++ bytesOf 8 (steps % 2 ^ 32 * 2 ^ 32 + slot % 256 * 2 ^ 24 + model % 64 * 2 ^ 18 + why % 16 * 2 ^ 14) ++
          bytesOf 8 (s.tickOf g).toNat ++ bytesOf 8 (skips % 65536)) ∧
        bitsAt ((t.2.dieAt g).reg2 0x30E) 112 16 = (bitsAt q 112 16 + 1) % ringCap q)
/-- R59, R64, R75, R429-R432, R434, R435, R458: a copy that its sender holds sends its first slot once its link is up and a frame of the
receiver is free, which it occupies from then on; one that has crossed its link lands there, byte for byte, and is acknowledged, and its
frame is landed, opened or sent on by how late it is; a copy of a rotation before those that the receiver runs, or one that no entry
expects, is discarded, and so is a second one of a copy that has landed; the sender's frame is done with once both acknowledgements are
back; a copy not acknowledged in time is sent once more, and then its link fails; a pending park takes effect at PTICK; a die that all RPAIR
registers of its package name is bypassed; resends are counted; a link in error retrains in both directions at both ends and works again, or
has failed. It rests on the model's choices and readings: log 2, 31. -/
def Obligations.RingLandingsAndLinks : Prop :=
  ∀ s : State, let g := s.here.die; let d := s.dieAt g
    (∀ x, s.segs[s.here.k]? = some x →
      let q := s.dieAt x.dst
      let cross := segSz (s.dieAt x.src) ≤ 16000 * ((s.tickOf x.dst).toNat - x.sent.toNat)
      let starts : Option Nat → List Seg := fun f => setNth s.segs s.here.k { x with begun := true, sent := s.tickOf x.src, land := f }
      let acked := setNth s.segs s.here.k { x with ack := true }
      (x.ack = true ∨ segBlocked s x = true ∨ (x.begun = true ∧ ¬cross) → exec .segmentLanding s = .next s) ∧
      (x.ack = false → segBlocked s x = false → x.begun = false →
        (stationRuns q = false ∨ x.rot < q.n0 ∨ entryOfSeg s x = none →
          ∃ t, exec .segmentLanding s = .next t ∧ t.segs = starts none ∧ (∀ n, t.dieAt n = s.dieAt n) ∧ t.mem = s.mem) ∧
        (∀ e, stationRuns q = true → q.n0 ≤ x.rot → entryOfSeg s x = some e →
          (landFrame s x.dst (ttEnt s x.dst e) = none → exec .segmentLanding s = .next s) ∧
          (∀ f, landFrame s x.dst (ttEnt s x.dst e) = some f → ∃ t, exec .segmentLanding s = .next t ∧ t.segs = starts (some f) ∧ t.mem = s.mem ∧
            (let fr := frameAt (t.dieAt x.dst) f; fr.st = 1 ∧ fr.entry = e ∧ fr.tag = x.tag ∧ fr.rot = x.rot) ∧
            ∀ h, h ≠ f → frameAt (t.dieAt x.dst) h = frameAt q h))) ∧
      (x.ack = false → segBlocked s x = false → x.begun = true → cross →
        (x.dup = true → ∃ t, exec .segmentLanding s = .next t ∧ t.segs = acked ∧ (∀ n, t.dieAt n = s.dieAt n) ∧ t.mem = s.mem) ∧
        (x.dup = false → x.land = none → ∃ t, exec .segmentLanding s = .next t ∧ t.segs = acked ∧ (t.dieAt x.dst).frames = q.frames) ∧
        (∀ f, x.dup = false → x.land = some f →
          let e := (frameAt q f).entry
          let te := ttEnt s x.dst e
          let l := (s.tickOf x.dst).toNat
          let runs := stationRuns q
          let goes := (te.fcw && goesOn s x.dst 1) || (te.fccw && goesOn s x.dst 2)
          ((runs = true ∧ (x.rot < q.n0 ∨ rotTick q (x.rot + 1) te.arrive < l)) → ∃ t, exec .segmentLanding s = .next t ∧ t.segs = acked ∧
            (frameAt (t.dieAt x.dst) f).land = s.tickOf x.dst ∧
            (frameAt (t.dieAt x.dst) f).st = if (frameAt q f).st = 1 then 0 else (frameAt q f).st) ∧
          ((runs = true → q.n0 ≤ x.rot ∧ l ≤ rotTick q (x.rot + 1) te.arrive) → s.Inv → q.wrote = [] →
            ∃ t, exec .segmentLanding s = .next t ∧ (∃ more, t.segs = acked ++ more) ∧ (l < rotTick q x.rot te.depart → t.segs = acked) ∧
              (∀ o < segSz q, memGet t.mem (seraiPa x.dst (f * segSz q) + o) = memGet s.mem (seraiPa x.src (x.frame * segSz (s.dieAt x.src)) + o)) ∧
              (let fr := frameAt (t.dieAt x.dst) f
               let prog := runs = false ∨ x.prog = true
               let opens := runs = true ∧ x.prog = false ∧ rotTick q x.rot te.arrive < l ∧
                 (rotTick q x.rot te.latest < l ∨ x.rot < (entSt q e).next1)
               fr.land = s.tickOf x.dst ∧ (prog → fr.st = if (frameAt q f).st = 1 then 0 else (frameAt q f).st) ∧
               (¬prog → ¬opens → fr.st = 2 ∧ fr.entry = e) ∧
               (opens → l < rotTick q x.rot te.depart → fr.st = 3 ∧ fr.entry = e ∧ fr.tag = x.tag ∧ fr.rot = x.rot) ∧
               (opens → rotTick q x.rot te.depart ≤ l →
                 fr.st = if goes then 4 else if te.src = 0 then 2 else 0))))) ∧
      (x.ack = false → exec .landingAcknowledgement s = .next s) ∧
      (x.ack = true → ∃ t, exec .landingAcknowledgement s = .next t ∧ t.segs = s.segs.filter (fun h => !x.twin h) ∧ (∀ a, t.byteAt a = s.byteAt a) ∧
        let fr := frameAt (s.dieAt x.src) x.frame
        let fs := frameAt (t.dieAt x.src) x.frame
        let mine := fr.st = 4 ∧ fr.tag = x.tag ∧ fr.rot = x.rot
        (¬mine → fs = fr) ∧ (mine → x.dir = 1 → fs.ackCw = false ∧ fs.ackCcw = fr.ackCcw) ∧
        (mine → x.dir = 2 → fs.ackCw = fr.ackCw ∧ fs.ackCcw = false) ∧
        (mine → fs.ackCw = false → fs.ackCcw = false → fs.st = if homeFrame s x.src x.frame && stationRuns (s.dieAt x.src) then 2 else 0) ∧
        (mine → fs.ackCw = true ∨ fs.ackCcw = true → fs.st = 4)) ∧
      (let late := segSz (s.dieAt x.src) + 16000 * 600 < 16000 * ((s.tickOf x.src).toNat - x.sent.toNat)
       (x.begun = false ∨ x.dup = true ∨ ¬late ∨ segBlocked s x = true → exec .ackTimeoutResend s = .next s) ∧
       (x.begun = true → x.dup = false → late → segBlocked s x = false →
         let y := { x with resent := true, sent := s.tickOf x.src }
         (x.resent = false → ∃ t, exec .ackTimeoutResend s = .next t ∧
           t.segs = setNth s.segs s.here.k y ++ if x.ack then [{ y with ack := false, dup := true }] else []) ∧
         (x.resent = true → ∃ t, exec .ackTimeoutResend s = .next t ∧ t.segs = s.segs ∧
           ∀ m ∈ linkMates s x.src (outLink x), linkDown (t.dieAt m.1) m.2 = true)))) ∧
    (s.here.slot < 256 → let r := s.slotAt g s.here.slot
      (r.parkp = false ∨ s.tickOf g < r.ptick → exec .slotPark s = .next s) ∧
      (r.parkp = true → r.ptick ≤ s.tickOf g → ∃ t, exec .slotPark s = .next t ∧ (∀ a, t.byteAt a = s.byteAt a) ∧
        t.slotAt g s.here.slot = { r with parkp := false, state := if r.state = 1 then (if r.budget = 0 then 3 else 2) else r.state } ∧
        ∀ k, k ≠ s.here.slot → t.slotAt g k = s.slotAt g k)) ∧
    ((∃ k < 8, fieldOf ((s.dieAt (8 * s.here.k + k)).reg 0x405) 0 4 < 8 ∨
        ∃ j < 8, fieldOf ((s.dieAt (8 * s.here.k + k)).reg 0x405) 0 4 ≠ fieldOf ((s.dieAt (8 * s.here.k + j)).reg 0x405) 0 4) →
      exec .bypass s = .next s) ∧
    (∀ v < 8, (∀ k < 8, fieldOf ((s.dieAt (8 * s.here.k + k)).reg 0x405) 0 4 = 8 + v) → (s.dieAt (8 * s.here.k + v)).bypassed = false →
      ∃ t, exec .bypass s = .next t ∧ (t.dieAt (8 * s.here.k + v)).bypassed = true ∧
        ∀ x ∈ t.segs, x.ack = true ∨ x.src ≠ 8 * s.here.k + v) ∧
    (∀ v < 8, (∀ k < 8, fieldOf ((s.dieAt (8 * s.here.k + k)).reg 0x405) 0 4 = 8 + v) → (s.dieAt (8 * s.here.k + v)).bypassed = true →
      exec .bypass s = .next s) ∧
    (∃ t, exec .slotResendRequest s = .next t ∧ t.segs = s.segs ∧
      fieldOf ((t.dieAt g).reg 0x31C) 0 32 = min (fieldOf (d.reg 0x31C) 0 32 + s.here.k) 0xFFFFFFFF) ∧
    (linkDown d s.here.link = true → exec .linkError s = .next s) ∧
    (linkDown d s.here.link = false → ∃ t, exec .linkError s = .next t ∧ (∀ m ∈ linkMates s g s.here.link, linkDown (t.dieAt m.1) m.2 = true) ∧
      ∀ h l, (h, l) ∉ linkMates s g s.here.link → linkDown (t.dieAt h) l = linkDown (s.dieAt h) l) ∧
    (spGet 0 d.links (linkCode s.here.link) % 2 = 0 → exec .linkRetrainEnd s = .next s) ∧
    (spGet 0 d.links (linkCode s.here.link) % 2 = 1 →
      ∃ t, exec .linkRetrainEnd s = .next t ∧ (∀ m ∈ linkMates s g s.here.link, linkDown (t.dieAt m.1) m.2 = !s.here.ok) ∧
        ∀ h l, (h, l) ∉ linkMates s g s.here.link → linkDown (t.dieAt h) l = linkDown (s.dieAt h) l)
/-- R355, R356, R354, R357, R366, R439: a port takes the entry at the head of its queue, if its peer has a context or one is free, and hands it
to the network; an entry acknowledged or refused is over and CI passes the leading entries that are; a link down or a context unacknowledged
for 10 * QUIET ends the contexts with packets under way; a context quiet for QUIET is torn down. R357, R366, R439: a packet for a valid
reception window lands within it with the tag of each whole tile, a tagged one enters the bond of its handle instead, and one for an invalid
window or beyond the window's LEN is refused and lands nowhere; no packet has a payload above 4096 bytes (R354). It rests on the model's
choices and readings: log 2, 30, 46. -/
def Obligations.EthernetSteps : Prop :=
  (∀ s : State, let g := s.here.die; let d := s.dieAt g; let p := d.eth; let r := ensq d; let i := p.next % ringCap r
    let e := s.peek (bitsAt r 0 56 + 64 * i) 64
    (d.wrote.contains 0x312 = false ∨ i = bitsAt r 112 16 → exec .ethernetSend s = .next s) ∧
    (d.wrote.contains 0x312 = true → i ≠ bitsAt r 112 16 → fieldOf (dwAt e 0) 60 4 = 0 →
      ((∃ c ∈ p.ctxs, c.peer = entPeer e) ∨ p.ctxs.length < 4096) →
      ∃ t, exec .ethernetSend s = .next t ∧ (∀ a, t.byteAt a = s.byteAt a) ∧ (t.dieAt g).eth.sends = p.sends ++ [{ idx := i, ent := e }] ∧
        (t.dieAt g).eth.next = (i + 1) % ringCap r ∧ (t.dieAt g).eth.out = p.out ++ [(i, entLocal e, entLen e)] ∧
        ∃ c ∈ (t.dieAt g).eth.ctxs, c.peer = entPeer e ∧ i ∈ c.ents ∧ c.last = s.tickOf g) ∧
    ((∀ c ∈ p.ctxs, c.peer ≠ entPeer e) → 4096 ≤ p.ctxs.length → exec .ethernetSend s = .next s) ∧
    (SendGone s g s.here.idx → exec .ethernetAck s = .next s) ∧
    (¬ SendGone s g s.here.idx → s.here.full = true →
      ∃ t, exec .ethernetAck s = .next t ∧ (t.dieAt g).eth = { p with ctxs := p.ctxs.map fun c =>
        if s.here.idx ∈ c.ents then { c with last := s.tickOf g, acked := s.tickOf g } else c } ∧ ∀ a, t.byteAt a = s.byteAt a) ∧
    (¬ SendGone s g s.here.idx → s.here.full = false →
      ∃ t, exec .ethernetAck s = .next t ∧ SendGone t g s.here.idx ∧ (∀ a, t.byteAt a = s.byteAt a) ∧
        (p.done = [] → bitsAt r 96 16 = s.here.idx → bitsAt (ensq (t.dieAt g)) 96 16 = (s.here.idx + 1) % ringCap r % 65536) ∧
        (p.done = [] → bitsAt r 96 16 ≠ s.here.idx → ensq (t.dieAt g) = r ∧ (t.dieAt g).eth.done = [s.here.idx])) ∧
    (s.here.sub = 1 ∨ s.here.sub = 2 → ∃ t, exec .negativeAcknowledgement s = .next t ∧ SendGone t g s.here.idx) ∧
    (s.here.sub ≠ 1 → s.here.sub ≠ 2 → exec .negativeAcknowledgement s = .next s) ∧
    (∃ t, exec .ethernetLinkDown s = .next t ∧ EthWentDown s t g) ∧
    ((∃ c ∈ p.ctxs, c.ents ≠ [] ∧ c.acked.toNat + 10 * quiet d ≤ (s.tickOf g).toNat) →
      ∃ t, exec .ethernetAckTimeout s = .next t ∧ EthWentDown s t g) ∧
    ((∀ c ∈ p.ctxs, c.ents = [] ∨ (s.tickOf g).toNat < c.acked.toNat + 10 * quiet d) → exec .ethernetAckTimeout s = .next s) ∧
    (∀ c, p.ctxs[s.here.k]? = some c →
      (c.ents = [] → c.last.toNat + quiet d ≤ (s.tickOf g).toNat →
        ∃ t, exec .contextTeardown s = .next t ∧ (t.dieAt g).eth.ctxs = dropNth p.ctxs s.here.k ∧ ∀ a, t.byteAt a = s.byteAt a) ∧
      (c.ents ≠ [] ∨ (s.tickOf g).toNat < c.last.toNat + quiet d → exec .contextTeardown s = .next s))) ∧
  (∀ s : State, let g := s.here.die; let d := s.dieAt g; let p := s.here.pk; let w := p.win % 256; let n := p.bytes.length
    let r := rxWindow s g w
    let pa := bitsAt r 0 56 + p.off
    (4096 < n → exec .ethernetWrite s = .next s) ∧
    (n ≤ 4096 → windowValid s g w = false → ∃ t, exec .ethernetWrite s = .next t ∧ (t.dieAt g).eth.nacks = d.eth.nacks ++ [(w, 1)] ∧
      (d.wrote = [] → ∀ a, t.byteAt a = s.byteAt a)) ∧
    (n ≤ 4096 → windowValid s g w = true → bitsAt r 64 40 < p.off + n →
      ∃ t, exec .ethernetWrite s = .next t ∧ (t.dieAt g).eth.nacks = d.eth.nacks ++ [(w, 2)] ∧
        (d.wrote = [] → ∀ a, t.byteAt a = s.byteAt a)) ∧
    (n ≤ 4096 → windowValid s g w = true → p.off + n ≤ bitsAt r 64 40 →
      (n = 0 → exec .ethernetWrite s = .next s) ∧
      (0 < n → pa + n ≤ 2 ^ 52 → p.handle = 0 →
        ∃ t, exec .ethernetWrite s = .next t ∧ Wrote s t pa p.bytes ∧ (t.dieAt g).eth = d.eth ∧
          (∀ j < (pa + n) / 512 - (pa + 511) / 512,
            t.tagAt (512 * ((pa + 511) / 512 + j)) = p.tag + (if p.tinc then BitVec.ofNat 16 (p.tile0 + j) else 0)) ∧
          ∀ a, (a / 512 < pa / 512 ∨ (pa + n - 1) / 512 < a / 512) → t.tagAt a = s.tagAt a) ∧
      (0 < n → p.handle ≠ 0 → exec .ethernetWrite s = .next (s.tagged g p.handle.toNat pa 0 p.bytes)) ∧
      (∀ k x b, 0 < n → pa % 64 + n ≤ 64 → p.handle ≠ 0 → DestAt s g p.handle.toNat k x → (x.state = 0 ∧ x.census = false ∨ x.state = 2) →
        x.conf = false → s.ecc = [] → d.bonds.find? (fun b => b.handle == p.handle.toNat && b.home == pa / 64 * 64 && !b.on) = some b →
        b.bad = false →
        ∃ t y, exec .ethernetWrite s = .next t ∧ Shown s t g { b with bytes := lineBytes pa p.bytes b.bytes } ∧ spFind (t.dieAt g).dests k = some y ∧ y.recv = x.recv + n ∧
          (t.dieAt g).bonds = d.bonds.map fun b =>
            if b.handle = p.handle.toNat ∧ b.home = pa / 64 * 64 ∧ b.on = false then { b with bytes := lineBytes pa p.bytes b.bytes } else b)))
/-- R390-R392, R455: device reset leaves every core, cluster and die register as after reset, STATUS and the Ethernet windows 0 and the rest of
memory as it was; root ROM of the package that resets then loads the image that each mailbox names, and STATUS says whether it was accepted;
an attestation request is answered with the signed report and its word cleared; telemetry takes TEMP, PWR and IDLE once in each 100 us and
raises TMAX. It rests on the model's choices and readings: log 2, 20, 33, 50. -/
def Obligations.FirmwareSteps : Prop :=
  ∀ s : State, let g := s.here.die
    (g < 2048 → ∃ t, exec .deviceReset s = .next t ∧ t.cores = State.reset.cores ∧ t.clusters = State.reset.clusters ∧ t.slots = [] ∧ t.segs = [] ∧
      t.msgs = [] ∧
      (∀ n, (t.dieAt n).cr = (State.reset.dieAt n).cr ∧ (t.dieAt n).slots = (State.reset.dieAt n).slots ∧ (t.dieAt n).released = false) ∧
      (∀ a, (∀ k < 8, a < mailPa (8 * (g / 8) + k) 0 ∨ mailPa (8 * (g / 8) + k) 8 ≤ a) →
        memGet t.mem a = if resetCell a then 0 else memGet s.mem a) ∧
      ∀ k < 8, let n := 8 * (g / 8) + k
        let img := (s.peek64 (mailPa n 8)).toNat
        (img = 0 → t.peek (mailPa n 0) 8 = bytesOf 8 0 ∧ (t.dieAt n).imgRoot = []) ∧
        (img ≠ 0 → paSpace img ≠ 2 → t.peek (mailPa n 0) 8 = bytesOf 8 0x81 ∧ (t.dieAt n).imgRoot = []) ∧
        (paSpace img = 2 → img + 256 + imgLen (s.peek img 256) ≤ 3 * 2 ^ 52 → let r := imageAt s 0 img
          t.peek (mailPa n 0) 8 = bytesOf 8 (if r.1 = 0 then 1 else 0x80 ||| r.1) ∧
          (t.dieAt n).imgRoot = if r.1 = 0 then sha512 (r.2.1 ++ r.2.2) else [])) ∧
    (s.peek64 (mailPa g 16) ≠ 1 → exec .attestationRequest s = .next s) ∧
    (s.peek64 (mailPa g 16) = 1 →
      let b := reportBody s g (s.peek (mailPa g 24) 32)
      let r := b ++ edSign (bytesOf 32 (Config.identitySeed g).toNat) b
      ∃ t, exec .attestationRequest s = .next t ∧ t.peek (mailPa g 64) r.length = r ∧ t.peek64 (mailPa g 16) = 0 ∧
        ∀ a, (a < mailPa g 16 ∨ mailPa g 24 ≤ a) → (a < mailPa g 64 ∨ mailPa g 64 + r.length ≤ a) → t.byteAt a = s.byteAt a) ∧
    ((s.tickOf g).toNat < 100000 * ((s.dieAt g).telem + 1) → exec .telemetryUpdate s = .next s) ∧
    (100000 * ((s.dieAt g).telem + 1) ≤ (s.tickOf g).toNat → ∃ t, exec .telemetryUpdate s = .next t ∧ (∀ a, t.byteAt a = s.byteAt a) ∧ (∀ c, c ≠ 0x31E → (t.dieAt g).reg c = (s.dieAt g).reg c) ∧
      let v := (t.dieAt g).reg 0x31E
      let old := fieldOf ((s.dieAt g).reg 0x31E) 32 16
      let w := (s.dieAt g).reg 0x31E
      (100000 * ((t.dieAt g).telem + 1) > (s.tickOf g).toNat) ∧
      fieldOf v 48 16 = s.here.temp.toNat ∧ fieldOf v 16 16 = s.here.pwr.toNat ∧ fieldOf v 0 8 = 0 ∧
      (fieldOf w 16 16 ≤ fieldOf ((s.dieAt g).reg 0x404) 0 16 → fieldOf v 8 8 = s.here.idle.toNat) ∧
      (fieldOf ((s.dieAt g).reg 0x404) 0 16 < fieldOf w 16 16 → fieldOf w 8 8 < fieldOf v 8 8 ∨ fieldOf v 8 8 = 255) ∧
      fieldOf v 32 16 = if sextNat old 16 < s.here.temp.toInt then s.here.temp.toNat else old)
/-- R392: after reset memory stands in its canonical form. It rests on the model's choices and readings: log 7. -/
def Obligations.ResetMemoryCanonical : Prop := State.reset.Inv
/-- The model's invariant: every step that answers a next state keeps memory in its canonical form, so that equal memories are equal data. It
rests on the model's choices and readings: log 7. -/
def Obligations.StepKeepsMemoryCanonical : Prop :=
  ∀ s t : State, s.Inv → step s = .next t → t.Inv
/-- R162, R175-R182: every well-formed instruction that has a word decodes from its own word, in its own stream, with every operand as it was
and the length of the word; what follows the word does not matter. It rests on the model's choices and readings: log 4. -/
def Obligations.DecodeReadsEncode : Prop :=
  ∀ (i : Instr) (st : Strm) (more : List H16), i.wf = true → streamOf i = some st →
    decodeAt st ((encode i).halves ++ more) = (.ok i, (encode i).halves.length) ∧ (encode i).halves ≠ []
/-- R161, R162, R164, R182: a turn of a stream whose job is to stop first issues nothing; where the next turn is a C- or A-stream's that may
issue, in a block whose count has been read and whose word has been fetched, and the halfwords at its word decode to an instruction that
waits for no register, the step is that instruction's own at the core and stream of the turn; halfwords that decode to none take the
encoding trap; a V-stream's turn on which nothing holds its word (w is the state that its ck leaves) runs that word; an event whose operands
are on the device runs its own instruction with them. It rests on the model's choices and readings: log 1, 2. -/
def Obligations.StepRunsDecoded : Prop :=
  ∀ (s : State) (die core : Nat) (st : Strm) (rest : List Move) (i : Instr) (a : At), die < 2048 → core < 384 →
    let u : State := { s with agenda := rest, here := { die := die, core := core, st := st } }
    (s.agenda = .issue die core st :: rest → u.stops st = true → step s = .next u) ∧
    (s.agenda = .issue die core st :: rest → st = .c ∨ st = .a → u.job.canIssue st = true → u.stops st = false → (u.job.blk st).short = false →
      (u.job.blk st).code ≠ [] →
      (u.job.blk st).fresh = false ∨ (u.job.blk st).kind ≠ 2 →
      (∀ n, decodeAt st (u.job.blk st).code = (.ok i, n) → u.job.interlocked st i = false → step s = exec i u) ∧
      (∀ n, decodeAt st (u.job.blk st).code = (.ok i, n) → u.job.interlocked st i = true → step s = .next u) ∧
      (∀ k n, decodeAt st (u.job.blk st).code = (.bad k, n) → step s = .next (u.trapW st 0 k))) ∧
    (s.agenda = .issue die core .v :: rest → ∀ w n, u.stops .v = false → u.realnDone.vHeld = false → u.realnDone.vPass = (w, false) →
      (w.job.blk .v).short = false → (w.job.blk .v).code ≠ [] →
      (w.job.blk .v).fresh = false ∨ (w.job.blk .v).kind ≠ 2 → decodeAt .v (w.job.blk .v).code = (.ok i, n) → step s = exec i w) ∧
    (s.agenda = .event i a :: rest → onDevice a = true → streamOf i = none → step s = exec i { s with agenda := rest, here := a })
/-- Words of the opcode table written out from their encodings decode to the instructions that they stand for. -/
def Obligations.WrittenWordsDecode : Prop :=
  ∀ st hs i, WordOf st hs i → decodeAt st hs = (.ok i, hs.length)
end

