-- ==== Sys2Proof/Laws/Wf.lean ====
section
/-!
SUPPORT. The invariant that memory stands in its canonical form (Wf, which is State.Inv by definition), and how it passes through the
combinators from which the operations are built.
-/
namespace Sys2Proof.Machine

/-- Memory stands in its canonical form. -/
def Wf (s : State) : Prop := Memory.wf s.mem = true
theorem wf_ite {p : Prop} [Decidable p] {a b : State} (ha : Wf a) (hb : Wf b) : Wf (if p then a else b) := by split <;> assumption
theorem mem_wf {s : State} (h : Wf s) : Memory.wf s.mem = true := h
theorem mk_wf {m e t k a l b c u d w f g n z p r q} (h : Memory.wf m = true) : Wf (State.mk m e t k a l b c u d w f g n z p r q) := h
theorem each_wf {α : Type} {f : α → State → State} {l : List α} {s : State} (hf : ∀ x s, Wf s → Wf (f x s)) (h : Wf s) : Wf (each f l s) := by
  induction l generalizing s with
  | nil => exact h
  | cons x t ih => exact ih (hf x s h)
theorem foldl_memPut_wf {α : Type} {f : α → Nat} {g : α → Byte} {l : List α} {m : List Host.Cell} (h : Memory.wf m = true) :
    Memory.wf (l.foldl (fun m x => memPut m (f x) (g x)) m) = true := by
  induction l generalizing m with
  | nil => exact h
  | cons x t ih => exact ih (wf_memPut _ _ h)
theorem getD_wf {o : Option State} {d : State} (ho : ∀ t, o = some t → Wf t) (hd : Wf d) : Wf (o.getD d) := by
  cases o with
  | none => exact hd
  | some t => exact ho t rfl
theorem foldl_wf {α β : Type} {g : β → State} {f : β → α → β} {l : List α} {b : β} (h : ∀ b a, Wf (g b) → Wf (g (f b a))) (hb : Wf (g b)) :
    Wf (g (l.foldl f b)) := by
  induction l generalizing b with
  | nil => exact hb
  | cons x t ih => exact ih (h b x hb)
theorem eta2 {α β : Type} {p : α × β} : p = (p.1, p.2) := rfl
theorem eta3 {α β γ : Type} {p : α × β × γ} : p = (p.1, p.2.1, p.2.2) := rfl
theorem elim_wf {α : Type} {o : Option α} {d : State} {f : α → State} (hd : Wf d) (hf : ∀ x, Wf (f x)) : Wf (o.elim d f) := by
  cases o with
  | none => exact hd
  | some x => exact hf x

end Sys2Proof.Machine
end

