-- ==== Sys2Proof/Laws/WfBase.lean ====
section
/-!
SUPPORT. Every operation keeps memory in its canonical form: the accessors, memory, errors, translation, the scheduler's tables, KV pages and caravans. X_wf is about X; X_wf2 about the state of a pair.
-/
set_option linter.unusedVariables false
namespace Sys2Proof.Machine

theorem setCoreAt_wf {s x1 x2} (hs : Wf s) : Wf (State.setCoreAt s x1 x2) := by
  unfold State.setCoreAt
  with_reducible repeat' first | assumption | apply mem_wf | apply mk_wf
theorem setCore_wf {s x1} (hs : Wf s) : Wf (State.setCore s x1) := by
  unfold State.setCore
  with_reducible repeat' first | assumption | apply setCoreAt_wf
theorem setJob_wf {s x1} (hs : Wf s) : Wf (State.setJob s x1) := by
  unfold State.setJob
  with_reducible repeat' first | assumption | apply setCore_wf
theorem setEng_wf {s x1} (hs : Wf s) : Wf (State.setEng s x1) := by
  unfold State.setEng
  with_reducible repeat' first | assumption | apply setCore_wf
theorem setClusterAt_wf {s x1 x2} (hs : Wf s) : Wf (State.setClusterAt s x1 x2) := by
  unfold State.setClusterAt
  with_reducible repeat' first | assumption | apply mem_wf | apply mk_wf
theorem setDieAt_wf {s x1 x2} (hs : Wf s) : Wf (State.setDieAt s x1 x2) := by
  unfold State.setDieAt
  with_reducible repeat' first | assumption | apply mem_wf | apply mk_wf
theorem setWayAt_wf {s x1 x2} (hs : Wf s) : Wf (State.setWayAt s x1 x2) := by
  unfold State.setWayAt
  with_reducible repeat' first | assumption | apply mem_wf | apply mk_wf
theorem onDie_wf {s x1 x2} (hs : Wf s) : Wf (State.onDie s x1 x2) := by
  unfold State.onDie
  with_reducible repeat' first | assumption | apply setDieAt_wf
theorem onCluster_wf {s x1 x2} (hs : Wf s) : Wf (State.onCluster s x1 x2) := by
  unfold State.onCluster
  with_reducible repeat' first | assumption | apply setClusterAt_wf
theorem onCore_wf {s x1 x2} (hs : Wf s) : Wf (State.onCore s x1 x2) := by
  unfold State.onCore
  with_reducible repeat' first | assumption | apply setCoreAt_wf
theorem onJob_wf {s x1} (hs : Wf s) : Wf (State.onJob s x1) := by
  unfold State.onJob
  with_reducible repeat' first | assumption | apply setJob_wf
theorem onBlk_wf {s x1 x2} (hs : Wf s) : Wf (State.onBlk s x1 x2) := by
  unfold State.onBlk
  with_reducible repeat' first | assumption | apply onJob_wf
theorem at_wf {s x1 x2} (hs : Wf s) : Wf (State.at s x1 x2) := by
  unfold State.at
  with_reducible repeat' first | assumption | apply mem_wf | apply mk_wf
theorem pokeByte_wf {s x1 x2} (hs : Wf s) : Wf (State.pokeByte s x1 x2) := by
  unfold State.pokeByte
  with_reducible repeat' first | assumption | apply onDie_wf | apply mem_wf | apply wf_memPut | split | apply mk_wf
theorem pokeRaw_wf {s x1 x2} (hs : Wf s) : Wf (State.pokeRaw s x1 x2) := by
  induction x2 generalizing s x1 with
  | nil =>
    unfold State.pokeRaw
    try dsimp only
    repeat' first | (with_reducible assumption) | (with_reducible intro _) | (with_reducible apply pokeByte_wf) | (with_reducible apply wf_ite) | (with_reducible apply elim_wf) | (with_reducible apply mem_wf) | (with_reducible apply each_wf) | (with_reducible apply getD_wf) | (with_reducible apply wf_memPut) | (with_reducible apply foldl_memPut_wf) | (with_reducible apply wf_filter) | (split) | (dsimp only) | (with_reducible apply mk_wf)
  | cons y l ih =>
    unfold State.pokeRaw
    try dsimp only
    repeat' first | (with_reducible assumption) | (with_reducible intro _) | (with_reducible apply ih) | (with_reducible apply pokeByte_wf) | (with_reducible apply wf_ite) | (with_reducible apply elim_wf) | (with_reducible apply mem_wf) | (with_reducible apply each_wf) | (with_reducible apply getD_wf) | (with_reducible apply wf_memPut) | (with_reducible apply foldl_memPut_wf) | (with_reducible apply wf_filter) | (split) | (dsimp only) | (with_reducible apply mk_wf)
theorem tagTiles_wf {s x1 x2 x3} (hs : Wf s) : Wf (State.tagTiles s x1 x2 x3) := by
  unfold State.tagTiles
  with_reducible repeat' first | assumption | apply mem_wf | split | apply mk_wf
theorem wake_wf {s x1 x2} (hs : Wf s) : Wf (State.wake s x1 x2) := by
  unfold State.wake
  with_reducible repeat' first | assumption | apply mem_wf | apply mk_wf
theorem eccFresh_wf {s x1 x2} (hs : Wf s) : Wf (State.eccFresh s x1 x2) := by
  unfold State.eccFresh
  with_reducible repeat' first | assumption | apply mem_wf | apply mk_wf
theorem store_wf {s x1 x2} (hs : Wf s) : Wf (State.store s x1 x2) := by
  unfold State.store
  with_reducible repeat' first | assumption | apply eccFresh_wf | apply wake_wf | apply tagTiles_wf | apply pokeRaw_wf
theorem store64_wf {s x1 x2} (hs : Wf s) : Wf (State.store64 s x1 x2) := by
  unfold State.store64
  with_reducible repeat' first | assumption | apply store_wf
theorem err_wf {s x1 x2 x3 x4 x5 x6 x7 x8} (hs : Wf s) : Wf (State.err s x1 x2 x3 x4 x5 x6 x7 x8) := by
  unfold State.err
  with_reducible repeat' first | assumption | apply store_wf | apply onDie_wf | apply wf_ite
theorem count_wf {s x1 x2 x3} (hs : Wf s) : Wf (State.count s x1 x2 x3) := by
  unfold State.count
  with_reducible repeat' first | assumption | apply onDie_wf
theorem countSkip_wf {s x1} (hs : Wf s) : Wf (State.countSkip s x1) := by
  unfold State.countSkip
  with_reducible repeat' first | assumption | apply count_wf
theorem countRefuse_wf {s x1} (hs : Wf s) : Wf (State.countRefuse s x1) := by
  unfold State.countRefuse
  with_reducible repeat' first | assumption | apply count_wf
theorem countPark_wf {s x1} (hs : Wf s) : Wf (State.countPark s x1) := by
  unfold State.countPark
  with_reducible repeat' first | assumption | apply count_wf
theorem countResend_wf {s x1} (hs : Wf s) : Wf (State.countResend s x1) := by
  unfold State.countResend
  with_reducible repeat' first | assumption | apply count_wf
theorem notify_wf {s x1 x2 x3 x4 x5 r t} (e : State.notify s x1 x2 x3 x4 x5 = (t, r)) (hs : Wf s) : Wf t := by
  unfold State.notify at e
  try dsimp only at e
  with_reducible repeat' first | assumption | apply store_wf | apply onDie_wf | split at e | cases e
theorem notifyLost_wf {s x1 x2 x3} (hs : Wf s) : Wf (State.notifyLost s x1 x2 x3) := by
  unfold State.notifyLost
  with_reducible repeat' first | assumption | apply onDie_wf
theorem slowLine_wf {s x1 x2} (hs : Wf s) : Wf (State.slowLine s x1 x2) := by
  unfold State.slowLine
  with_reducible repeat' first | assumption | apply store_wf | refine notify_wf (by assumption) ?_ | apply notifyLost_wf | apply wf_ite | split
theorem slow_wf {s x1 x2 x3} (hs : Wf s) : Wf (State.slow s x1 x2 x3) := by
  unfold State.slow
  with_reducible repeat' first | assumption | intro _ | apply slowLine_wf | apply each_wf | split
theorem repair_wf {s x1} (hs : Wf s) : Wf (State.repair s x1) := by
  unfold State.repair
  with_reducible repeat' first | assumption | apply onDie_wf | apply err_wf | apply mem_wf | split | apply mk_wf
theorem metBad_wf {s x1} (hs : Wf s) : Wf (State.metBad s x1) := by
  unfold State.metBad
  with_reducible repeat' first | assumption | apply onDie_wf
theorem mend_wf {s x1 x2} (hs : Wf s) : Wf (State.mend s x1 x2) := by
  unfold State.mend
  with_reducible repeat' first | assumption | intro _ | apply repair_wf | apply each_wf | split
theorem ntFlush_wf {s x1 x2} (hs : Wf s) : Wf (State.ntFlush s x1 x2) := by
  unfold State.ntFlush
  with_reducible repeat' first | assumption | intro _ | apply onCore_wf | apply slow_wf | apply store_wf | apply each_wf
theorem ntServe_wf {s x1 x2} (hs : Wf s) : Wf (State.ntServe s x1 x2) := by
  unfold State.ntServe
  with_reducible repeat' first | assumption | intro _ | apply ntFlush_wf | apply each_wf | split
theorem readMem_wf {s x1 x2 x3 r t} (e : State.readMem s x1 x2 x3 = (r, t)) (hs : Wf s) : Wf t := by
  unfold State.readMem at e
  try dsimp only at e
  with_reducible repeat' first | assumption | apply ntServe_wf | apply metBad_wf | apply slow_wf | apply mend_wf | split at e | cases e
theorem readMem_wf2 {s x1 x2 x3} (hs : Wf s) : Wf (State.readMem s x1 x2 x3).2 := readMem_wf eta2 hs
theorem readThen_wf {r bad k} (hr : Wf r.2) (hb : ∀ w s, Wf s → Wf (bad w s)) (hk : ∀ b s, Wf s → Wf (k b s)) : Wf (readThen r bad k) := by
  obtain ⟨_ | _, t⟩ := r
  · exact hb _ _ hr
  · exact hk _ _ hr
theorem writeMem_wf {s x1 x2 x3} (hs : Wf s) : Wf (State.writeMem s x1 x2 x3) := by
  unfold State.writeMem
  with_reducible repeat' first | assumption | apply slow_wf | apply store_wf | apply ntServe_wf
theorem setRs_wf {s x1 x2} (hs : Wf s) : Wf (State.setRs s x1 x2) := by
  unfold State.setRs
  with_reducible repeat' first | assumption | apply onJob_wf | split
theorem setRa_wf {s x1 x2} (hs : Wf s) : Wf (State.setRa s x1 x2) := by
  unfold State.setRa
  with_reducible repeat' first | assumption | apply onJob_wf | split
theorem advance_wf {s x1 x2} (hs : Wf s) : Wf (State.advance s x1 x2) := by
  unfold State.advance
  with_reducible repeat' first | assumption | apply onJob_wf
theorem goto_wf {s x1 x2} (hs : Wf s) : Wf (State.goto s x1 x2) := by
  unfold State.goto
  with_reducible repeat' first | assumption | apply onBlk_wf
theorem walkMend_wf {s x1 x2 x3} (hs : Wf s) : Wf (State.walkMend s x1 x2 x3) := by
  unfold State.walkMend
  with_reducible repeat' first | assumption | intro _ | apply metBad_wf | apply mend_wf | apply each_wf | split
theorem translate_wf {s x1 x2 x3 x4 x5 r t} (e : translate s x1 x2 x3 x4 x5 = (r, t)) (hs : Wf s) : Wf t := by
  unfold translate at e
  try dsimp only at e
  with_reducible repeat' first | assumption | apply walkMend_wf | apply onCore_wf | apply onDie_wf | apply mem_wf | split at e | cases e | apply mk_wf
theorem xlateAt_wf {s x1 x2 x3 r t} (e : State.xlateAt s x1 x2 x3 = (r, t)) (hs : Wf s) : Wf t := by
  unfold State.xlateAt at e
  try dsimp only at e
  with_reducible repeat' first | assumption | refine translate_wf (by assumption) ?_ | split at e | cases e
theorem xlateAt_wf2 {s x1 x2 x3} (hs : Wf s) : Wf (State.xlateAt s x1 x2 x3).2 := xlateAt_wf eta2 hs
theorem xlate_wf {s x1 x2 x3 r t} (e : State.xlate s x1 x2 x3 = (r, t)) (hs : Wf s) : Wf t := by
  unfold State.xlate at e
  with_reducible repeat' first | assumption | apply xlateAt_wf2 | cases e
theorem xlate_wf2 {s x1 x2 x3} (hs : Wf s) : Wf (State.xlate s x1 x2 x3).2 := xlate_wf eta2 hs
theorem xlatePieces_wf {s x1 x2 r t} (e : State.xlatePieces s x1 x2 = (r, t)) (hs : Wf s) : Wf t := by
  induction x2 generalizing s x1 r t with
  | nil =>
    unfold State.xlatePieces at e
    try dsimp only at e
    repeat' first | (with_reducible assumption) | (with_reducible intro _) | (with_reducible apply xlateAt_wf2) | (with_reducible refine xlateAt_wf (by assumption) ?_) | (with_reducible apply wf_ite) | (with_reducible apply elim_wf) | (with_reducible apply mem_wf) | (with_reducible apply each_wf) | (with_reducible apply getD_wf) | (with_reducible apply wf_memPut) | (with_reducible apply foldl_memPut_wf) | (with_reducible apply wf_filter) | (split) | (split at e) | (cases e) | (dsimp only) | (with_reducible apply mk_wf)
  | cons y l ih =>
    unfold State.xlatePieces at e
    try dsimp only at e
    repeat' first | (with_reducible assumption) | (with_reducible intro _) | (with_reducible refine ih (by assumption) ?_) | (exact ih rfl ‹_›) | (with_reducible apply xlateAt_wf2) | (with_reducible refine xlateAt_wf (by assumption) ?_) | (with_reducible apply wf_ite) | (with_reducible apply elim_wf) | (with_reducible apply mem_wf) | (with_reducible apply each_wf) | (with_reducible apply getD_wf) | (with_reducible apply wf_memPut) | (with_reducible apply foldl_memPut_wf) | (with_reducible apply wf_filter) | (split) | (split at e) | (cases e) | (dsimp only) | (with_reducible apply mk_wf)
theorem xlatePieces_wf2 {s x1 x2} (hs : Wf s) : Wf (State.xlatePieces s x1 x2).2 := xlatePieces_wf eta2 hs
theorem xlateRange_wf {s x1 x2 x3 r t} (e : State.xlateRange s x1 x2 x3 = (r, t)) (hs : Wf s) : Wf t := by
  unfold State.xlateRange at e
  with_reducible repeat' first | assumption | refine xlatePieces_wf (by assumption) ?_ | split at e | cases e
theorem xlateRange_wf2 {s x1 x2 x3} (hs : Wf s) : Wf (State.xlateRange s x1 x2 x3).2 := xlateRange_wf eta2 hs
theorem recErr_wf {s x1 x2 x3 x4 x5} (hs : Wf s) : Wf (State.recErr s x1 x2 x3 x4 x5) := by
  unfold State.recErr
  with_reducible repeat' first | assumption | apply err_wf
theorem enter_wf {s x1 x2 x3} (hs : Wf s) : Wf (State.enter s x1 x2 x3) := by
  unfold State.enter
  with_reducible repeat' first | assumption | apply onCluster_wf | apply store_wf | apply wf_ite
theorem enqueue_wf {s x1 x2} (hs : Wf s) : Wf (State.enqueue s x1 x2) := by
  unfold State.enqueue
  with_reducible repeat' first | assumption | apply enter_wf
theorem pushR_wf {s x1 x2 x3} (hs : Wf s) : Wf (State.pushR s x1 x2 x3) := by
  unfold State.pushR
  with_reducible repeat' first | assumption | apply onCluster_wf | apply err_wf | apply enqueue_wf | apply wf_ite
theorem pushO_wf {s x1 x2} (hs : Wf s) : Wf (State.pushO s x1 x2) := by
  unfold State.pushO
  with_reducible repeat' first | assumption | apply onCluster_wf | apply enqueue_wf | apply wf_ite
theorem incJoin_wf {s x1} (hs : Wf s) : Wf (State.incJoin s x1) := by
  unfold State.incJoin
  with_reducible repeat' first | assumption | intro _ | apply readThen_wf | apply readMem_wf2 | apply store64_wf
theorem decJoin_wf {s x1 x2 x3} (hs : Wf s) : Wf (State.decJoin s x1 x2 x3) := by
  unfold State.decJoin
  with_reducible repeat' first | assumption | apply mend_wf | apply err_wf | apply store64_wf | apply recErr_wf | apply pushO_wf | apply mem_wf | split | apply mk_wf
theorem savePlace_wf {s x1 x2 x3} (hs : Wf s) : Wf (State.savePlace s x1 x2 x3) := by
  unfold State.savePlace
  with_reducible repeat' first | assumption | intro _ | apply store_wf | apply onCore_wf | apply each_wf
theorem unqueue_wf {s x1 x2 x3} (hs : Wf s) : Wf (State.unqueue s x1 x2 x3) := by
  unfold State.unqueue
  with_reducible repeat' first | assumption | apply onCluster_wf
theorem startRec_wf {s x1 x2 x3} (hs : Wf s) : Wf (State.startRec s x1 x2 x3) := by
  unfold State.startRec
  with_reducible repeat' first | assumption | apply recErr_wf | apply onCore_wf | apply countPark_wf | apply err_wf | apply savePlace_wf | apply mem_wf | split | apply mk_wf
theorem mdWrite_wf {s x1 x2 x3 x4 x5} (hs : Wf s) : Wf (State.mdWrite s x1 x2 x3 x4 x5) := by
  unfold State.mdWrite
  with_reducible repeat' first | assumption | apply store_wf
theorem setMig_wf {s x1 x2 x3} (hs : Wf s) : Wf (State.setMig s x1 x2 x3) := by
  unfold State.setMig
  with_reducible repeat' first | assumption | apply mdWrite_wf
theorem onSlot_wf {s x1 x2 x3} (hs : Wf s) : Wf (State.onSlot s x1 x2 x3) := by
  unfold State.onSlot
  with_reducible repeat' first | assumption | apply onDie_wf
theorem alloc_wf {s x1 x2 r t} (e : State.alloc s x1 x2 = (r, t)) (hs : Wf s) : Wf t := by
  unfold State.alloc at e
  with_reducible repeat' first | assumption | apply onDie_wf | apply store_wf | apply onSlot_wf | split at e | cases e
theorem alloc_wf2 {s x1 x2} (hs : Wf s) : Wf (State.alloc s x1 x2).2 := alloc_wf eta2 hs
theorem freeFramePa_wf {s x1} (hs : Wf s) : Wf (State.freeFramePa s x1) := by
  unfold State.freeFramePa
  with_reducible repeat' first | assumption | apply onDie_wf
theorem freePage_wf {s x1 x2} (hs : Wf s) : Wf (State.freePage s x1 x2) := by
  unfold State.freePage
  split
  · with_reducible apply mdWrite_wf; with_reducible apply onDie_wf; with_reducible apply freeFramePa_wf; assumption
  · extract_lets p a b c d
    have hd : Wf d := store_wf (onDie_wf hs)
    clear_value d
    split
    · with_reducible refine notify_wf (by assumption) ?_; assumption
    · with_reducible apply notifyLost_wf; with_reducible refine notify_wf (by assumption) ?_; assumption
  · assumption
theorem dropRef_wf {s x1 x2 x3} (hs : Wf s) : Wf (State.dropRef s x1 x2 x3) := by
  unfold State.dropRef
  with_reducible repeat' first | assumption | apply err_wf | apply mdWrite_wf | apply freePage_wf | apply wf_ite
theorem endMove_wf {s x1 x2 x3} (hs : Wf s) : Wf (State.endMove s x1 x2 x3) := by
  unfold State.endMove
  with_reducible repeat' first | assumption | apply setMig_wf | apply freePage_wf | apply wf_ite
theorem setPtEntry_wf {s x1 x2 x3 x4} (hs : Wf s) : Wf (State.setPtEntry s x1 x2 x3 x4) := by
  unfold State.setPtEntry
  with_reducible repeat' first | assumption | apply writeMem_wf | split
theorem kvWalk_wf {s x1 x2} (hs : Wf s) : Wf (State.kvWalk s x1 x2) := by
  unfold State.kvWalk
  with_reducible repeat' first | assumption | apply walkMend_wf
theorem kvGet_wf {s x1 x2 r t} (e : State.kvGet s x1 x2 = (r, t)) (hs : Wf s) : Wf t := by
  unfold State.kvGet at e
  try dsimp only at e
  with_reducible repeat' first | assumption | apply kvWalk_wf | refine readMem_wf (by assumption) ?_ | split at e | cases e
theorem kvGet_wf2 {s x1 x2} (hs : Wf s) : Wf (State.kvGet s x1 x2).2 := kvGet_wf eta2 hs
theorem dropRec_wf {s x1 x2 x3} (hs : Wf s) : Wf (State.dropRec s x1 x2 x3) := by
  unfold State.dropRec
  exact readThen_wf (readMem_wf2 hs) (fun _ _ h => err_wf h) (fun _ _ h => dropRef_wf h)
theorem dropAll_wf {s x1 x2 x3 x4 x5} (hs : Wf s) : Wf (State.dropAll s x1 x2 x3 x4 x5) := by
  induction x5 generalizing s x1 x2 x3 x4 with
  | zero =>
    unfold State.dropAll
    try dsimp only
    repeat' first | (with_reducible assumption) | (with_reducible intro _) | (with_reducible apply err_wf) | (with_reducible apply kvGet_wf2) | (with_reducible refine kvGet_wf (by assumption) ?_) | (with_reducible apply dropRec_wf) | (with_reducible apply wf_ite) | (with_reducible apply elim_wf) | (with_reducible apply mem_wf) | (with_reducible apply each_wf) | (with_reducible apply getD_wf) | (with_reducible apply wf_memPut) | (with_reducible apply foldl_memPut_wf) | (with_reducible apply wf_filter) | (split) | (dsimp only) | (with_reducible apply mk_wf)
  | succ y ih =>
    unfold State.dropAll
    try dsimp only
    repeat' first | (with_reducible assumption) | (with_reducible intro _) | (with_reducible apply ih) | (with_reducible apply err_wf) | (with_reducible apply kvGet_wf2) | (with_reducible refine kvGet_wf (by assumption) ?_) | (with_reducible apply dropRec_wf) | (with_reducible apply wf_ite) | (with_reducible apply elim_wf) | (with_reducible apply mem_wf) | (with_reducible apply each_wf) | (with_reducible apply getD_wf) | (with_reducible apply wf_memPut) | (with_reducible apply foldl_memPut_wf) | (with_reducible apply wf_filter) | (split) | (dsimp only) | (with_reducible apply mk_wf)
theorem dropPages_wf {s x1 x2} (hs : Wf s) : Wf (State.dropPages s x1 x2) := by
  unfold State.dropPages
  with_reducible repeat' first | assumption | refine kvGet_wf (by assumption) ?_ | apply err_wf | apply dropAll_wf | split
theorem complete_wf {s x1 x2 x3 x4 x5 x6 x7 r t} (e : State.complete s x1 x2 x3 x4 x5 x6 x7 = (r, t)) (hs : Wf s) : Wf t := by
  unfold State.complete at e
  try dsimp only at e
  with_reducible repeat' first | assumption | apply store_wf | apply onDie_wf | split at e | cases e
theorem complete_wf2 {s x1 x2 x3 x4 x5 x6 x7} (hs : Wf s) : Wf (State.complete s x1 x2 x3 x4 x5 x6 x7).2 := complete_wf eta2 hs
theorem retire_wf {s x1 x2 x3 x4} (hs : Wf s) : Wf (State.retire s x1 x2 x3 x4) := by
  unfold State.retire
  with_reducible repeat' first | assumption | apply dropPages_wf | apply complete_wf2 | apply onSlot_wf | apply wf_ite
theorem onEnt_wf {s x1 x2 x3} (hs : Wf s) : Wf (State.onEnt s x1 x2 x3) := by
  unfold State.onEnt
  with_reducible repeat' first | assumption | apply onDie_wf
theorem onFrame_wf {s x1 x2 x3} (hs : Wf s) : Wf (State.onFrame s x1 x2 x3) := by
  unfold State.onFrame
  with_reducible repeat' first | assumption | apply onDie_wf
theorem onSeg_wf {s x1 x2} (hs : Wf s) : Wf (State.onSeg s x1 x2) := by
  unfold State.onSeg
  with_reducible repeat' first | assumption | apply mem_wf | apply mk_wf
theorem segFirst_wf {s x1 x2} (hs : Wf s) : Wf (State.segFirst s x1 x2) := by
  unfold State.segFirst
  with_reducible repeat' first | assumption | apply onSeg_wf | apply onFrame_wf | apply wf_ite | split
theorem forward_wf {s x1 x2 x3 x4 x5} (hs : Wf s) : Wf (State.forward s x1 x2 x3 x4 x5) := by
  unfold State.forward
  with_reducible repeat' first | assumption | intro _ | apply err_wf | apply onFrame_wf | apply segFirst_wf | apply mem_wf | apply each_wf | split | apply mk_wf
theorem openFr_wf {s x1 x2 x3 x4 x5} (hs : Wf s) : Wf (State.openFr s x1 x2 x3 x4 x5) := by
  unfold State.openFr
  with_reducible repeat' first | assumption | apply onDie_wf | apply onFrame_wf
theorem skip_wf {s x1 x2} (hs : Wf s) : Wf (State.skip s x1 x2) := by
  unfold State.skip
  with_reducible repeat' first | assumption | apply countSkip_wf | apply onSlot_wf | apply err_wf | apply wf_ite
theorem dispatchRound_wf {s x1 x2 x3 x4 r t} (e : State.dispatchRound s x1 x2 x3 x4 = (r, t)) (hs : Wf s) : Wf t := by
  rw [show t = (State.dispatchRound s x1 x2 x3 x4).2 by rw [e]]
  unfold State.dispatchRound
  dsimp only
  with_reducible apply each_wf
  · intro x s h
    with_reducible apply onSlot_wf
    assumption
  · with_reducible apply foldl_wf (g := Prod.snd)
    · intro b a h
      repeat' first | with_reducible assumption | split | with_reducible apply onSlot_wf | with_reducible apply skip_wf
    · exact hs
theorem dispatchRound_wf2 {s x1 x2 x3 x4} (hs : Wf s) : Wf (State.dispatchRound s x1 x2 x3 x4).2 := dispatchRound_wf eta2 hs
theorem missRound_wf {s x1 x2} (hs : Wf s) : Wf (State.missRound s x1 x2) := by
  unfold State.missRound
  with_reducible repeat' first | assumption | intro _ | apply skip_wf | apply wf_ite | apply each_wf
theorem dispatchPush_wf {s x1 x2} (hs : Wf s) : Wf (State.dispatchPush s x1 x2) := by
  unfold State.dispatchPush
  with_reducible repeat' first | assumption | apply recErr_wf | apply incJoin_wf | apply pushR_wf | split
theorem dispatchFire_wf {s x1 x2 x3 x4 x5} (hs : Wf s) : Wf (State.dispatchFire s x1 x2 x3 x4 x5) := by
  unfold State.dispatchFire
  with_reducible repeat' first | assumption | intro _ | apply err_wf | apply store64_wf | apply store_wf | apply dispatchPush_wf | apply onDie_wf | apply wf_ite | apply each_wf
theorem dispatchAll_wf {s x1 x2 x3} (hs : Wf s) : Wf (State.dispatchAll s x1 x2 x3) := by
  unfold State.dispatchAll
  with_reducible repeat' first | assumption | intro _ | apply dispatchFire_wf | apply wf_ite | apply each_wf
theorem admPending_wf {s x1} (hs : Wf s) : Wf (State.admPending s x1) := by
  unfold State.admPending
  refine onDie_wf (foldl_wf (g := fun (x : List AdmEnt × State × Bool) => x.2.1) (fun b a h => ?_) hs)
  dsimp only
  repeat' first | (with_reducible assumption) | split | (with_reducible refine complete_wf (by assumption) ?_)
theorem admWalk_wf {s x1 x2 x3 r t} (e : State.admWalk s x1 x2 x3 = (t, r)) (hs : Wf s) : Wf t := by
  induction x3 generalizing s r t with
  | nil => cases e; exact hs
  | cons y l ih =>
    unfold State.admWalk at e
    generalize upFrom 0 256 = u at e
    split at e
    · cases e; exact ih rfl hs
    split at e
    · split at e
      · with_reducible refine ih e ?_; with_reducible refine complete_wf (by assumption) hs
      · cases e; with_reducible refine ih (r := Prod.snd _) rfl ?_; with_reducible refine complete_wf (by assumption) hs
    · dsimp only at e
      repeat' first | split at e | (refine ih e ?_; apply onSlot_wf; assumption) | (cases e; assumption)
theorem admWalk_wf2 {s x1 x2 x3} (hs : Wf s) : Wf (State.admWalk s x1 x2 x3).1 := admWalk_wf eta2 hs
theorem boundary_wf {s x1 x2} (hs : Wf s) : Wf (State.boundary s x1 x2) := by
  unfold State.boundary
  with_reducible apply each_wf
  · intro k s h
    repeat' first | (with_reducible assumption) | (with_reducible apply wf_ite) | (with_reducible apply onDie_wf) | (with_reducible apply onSlot_wf)
  · with_reducible apply onDie_wf
    with_reducible apply admWalk_wf2
    with_reducible apply each_wf
    · intro k s h
      repeat' first | (with_reducible assumption) | (with_reducible apply wf_ite) | (with_reducible apply retire_wf)
    · with_reducible apply admPending_wf
      assumption
theorem admitRecord_wf {s x1 x2} (hs : Wf s) : Wf (State.admitRecord s x1 x2) := by
  unfold State.admitRecord
  with_reducible repeat' first | assumption | apply onDie_wf | refine complete_wf (by assumption) ?_ | apply wf_ite | split
theorem admStore_wf {s x1 x2} (hs : Wf s) : Wf (State.admStore s x1 x2) := by
  unfold State.admStore
  with_reducible repeat' first | assumption | apply admitRecord_wf | apply onDie_wf | apply wf_ite
theorem rqfin_wf {s x1 x2} (hs : Wf s) : Wf (State.rqfin s x1 x2) := by
  unfold State.rqfin
  with_reducible repeat' first | assumption | apply onSlot_wf
theorem stationStart_wf {s x1} (hs : Wf s) : Wf (State.stationStart s x1) := by
  unfold State.stationStart
  with_reducible repeat' first | assumption | apply onDie_wf
theorem stationStop_wf {s x1} (hs : Wf s) : Wf (State.stationStop s x1) := by
  unfold State.stationStop
  with_reducible repeat' first | assumption | apply onDie_wf | apply mem_wf | apply mk_wf
theorem rscfg_wf {s x1 x2} (hs : Wf s) : Wf (State.rscfg s x1 x2) := by
  unfold State.rscfg
  with_reducible repeat' first | assumption | apply onDie_wf | apply stationStop_wf | apply stationStart_wf | apply wf_ite
theorem rsttlen_wf {s x1 x2} (hs : Wf s) : Wf (State.rsttlen s x1 x2) := by
  unfold State.rsttlen
  with_reducible repeat' first | assumption | apply onDie_wf | split
theorem copyRange_wf {s x1 x2 x3} (hs : Wf s) : Wf (State.copyRange s x1 x2 x3) := by
  unfold State.copyRange
  with_reducible repeat' first | assumption | apply mem_wf | apply foldl_memPut_wf | apply wf_filter | apply mk_wf
theorem segAck_wf {s x1} (hs : Wf s) : Wf (State.segAck s x1) := by
  unfold State.segAck
  with_reducible repeat' first | assumption | apply onSeg_wf
theorem lateErr_wf {s x1 x2 x3} (hs : Wf s) : Wf (State.lateErr s x1 x2 x3) := by
  unfold State.lateErr
  with_reducible repeat' first | assumption | apply err_wf
theorem segLand_wf {s x1 x2} (hs : Wf s) : Wf (State.segLand s x1 x2) := by
  unfold State.segLand
  with_reducible repeat' first | assumption | apply onFrame_wf | apply segAck_wf | apply lateErr_wf | apply copyRange_wf | apply openFr_wf | apply forward_wf | apply wf_ite | split
theorem frameAcked_wf {s x1} (hs : Wf s) : Wf (State.frameAcked s x1) := by
  unfold State.frameAcked
  with_reducible repeat' first | assumption | apply onFrame_wf

end Sys2Proof.Machine
end

