-- ==== Sys2Proof/Laws/WfShared.lean ====
section
/-!
SUPPORT. Every operation keeps memory in its canonical form: plans, consignments, the control space, accesses and the shared operations of the meanings. X_wf is about X; X_wf2 about the state of a pair.
-/
set_option linter.unusedVariables false
namespace Sys2Proof.Machine

theorem onPlan_wf {s x1 x2 x3} (hs : Wf s) : Wf (State.onPlan s x1 x2 x3) := by
  unfold State.onPlan
  with_reducible repeat' first | assumption | apply onDie_wf
theorem trigger_wf {s x1 x2 x3} (hs : Wf s) : Wf (State.trigger s x1 x2 x3) := by
  unfold State.trigger
  with_reducible repeat' first | assumption | apply onPlan_wf
theorem planNotice_wf {s x1 x2 x3 x4} (hs : Wf s) : Wf (State.planNotice s x1 x2 x3 x4) := by
  unfold State.planNotice
  with_reducible repeat' first | assumption | apply mem_wf | apply mk_wf
theorem doneWrite_wf {s x1 x2 x3 x4} (hs : Wf s) : Wf (State.doneWrite s x1 x2 x3 x4) := by
  unfold State.doneWrite
  with_reducible repeat' first | assumption | apply trigger_wf | apply store64_wf | apply wf_ite
theorem ackAll_wf {s x1} (hs : Wf s) : Wf (State.ackAll s x1) := by
  unfold State.ackAll
  with_reducible repeat' first | assumption | apply mem_wf | apply mk_wf
theorem planAbort_wf {s x1 x2 x3} (hs : Wf s) : Wf (State.planAbort s x1 x2 x3) := by
  unfold State.planAbort
  with_reducible repeat' first | assumption | apply ackAll_wf | apply onPlan_wf | refine translate_wf (by assumption) ?_ | apply doneWrite_wf | apply err_wf | apply planNotice_wf | apply mem_wf | split | apply mk_wf
theorem planHold_wf {s x1 x2} (hs : Wf s) : Wf (State.planHold s x1 x2) := by
  unfold State.planHold
  with_reducible repeat' first | assumption | intro _ | apply onPlan_wf | apply err_wf | apply planNotice_wf | apply wf_ite | apply each_wf
theorem planRelease_wf {s x1 x2} (hs : Wf s) : Wf (State.planRelease s x1 x2) := by
  unfold State.planRelease
  with_reducible repeat' first | assumption | intro _ | apply onPlan_wf | apply err_wf | apply planNotice_wf | apply wf_ite | apply each_wf
theorem combOpen_wf {s x1 x2 r t} (e : State.combOpen s x1 x2 = (r, t)) (hs : Wf s) : Wf t := by
  unfold State.combOpen at e
  with_reducible repeat' first | assumption | refine readMem_wf (by assumption) ?_ | split at e | cases e
theorem setCombLine_wf {s x1 x2} (hs : Wf s) : Wf (State.setCombLine s x1 x2) := by
  unfold State.setCombLine
  with_reducible repeat' first | assumption | apply setWayAt_wf
theorem planLost_wf {s x1 x2} (hs : Wf s) : Wf (State.planLost s x1 x2) := by
  unfold State.planLost
  with_reducible repeat' first | assumption | intro _ | apply planAbort_wf | apply each_wf | split
theorem planFree_wf {s x1 x2} (hs : Wf s) : Wf (State.planFree s x1 x2) := by
  unfold State.planFree
  with_reducible repeat' first | assumption | intro _ | apply ackAll_wf | apply onDie_wf | apply setWayAt_wf | apply each_wf | split
theorem when_wf {s x1 x2 t} (e : State.when s x1 x2 = .next t) (hs : Wf s) (hx2 : Wf x2) : Wf t := by
  unfold State.when at e
  with_reducible repeat' first | assumption | split | cases e
theorem status_wf {s x1 x2 x3 x4} (hs : Wf s) : Wf (State.status s x1 x2 x3 x4) := by
  unfold State.status
  with_reducible repeat' first | assumption | apply store64_wf
theorem send_wf {s x1} (hs : Wf s) : Wf (State.send s x1) := by
  unfold State.send
  with_reducible repeat' first | assumption | apply mem_wf | apply mk_wf
theorem abortReq_wf {s x1 x2 x3} (hs : Wf s) : Wf (State.abortReq s x1 x2 x3) := by
  unfold State.abortReq
  with_reducible repeat' first | assumption | apply send_wf
theorem takeMsg_wf {s x1 x2 r t} (e : State.takeMsg s x1 x2 = some (r, t)) (hs : Wf s) : Wf t := by
  unfold State.takeMsg at e
  with_reducible repeat' first | assumption | apply mem_wf | split at e | cases e | apply mk_wf
theorem destTake_wf {s x1 x2 r t} (e : State.destTake s x1 x2 = (r, t)) (hs : Wf s) : Wf t := by
  unfold State.destTake at e
  try dsimp only at e
  with_reducible repeat' first | assumption | apply onDie_wf | apply abortReq_wf | split at e | cases e
theorem destTake_wf2 {s x1 x2} (hs : Wf s) : Wf (State.destTake s x1 x2).2 := destTake_wf eta2 hs
theorem onDest_wf {s x1 x2 x3} (hs : Wf s) : Wf (State.onDest s x1 x2 x3) := by
  unfold State.onDest
  with_reducible repeat' first | assumption | apply onDie_wf
theorem onCoord_wf {s x1 x2 x3} (hs : Wf s) : Wf (State.onCoord s x1 x2 x3) := by
  unfold State.onCoord
  with_reducible repeat' first | assumption | apply onDie_wf
theorem confirm_wf {s x1 x2} (hs : Wf s) : Wf (State.confirm s x1 x2) := by
  unfold State.confirm
  with_reducible repeat' first | assumption | apply send_wf | apply onDest_wf | apply abortReq_wf | split
theorem lateBytes_wf {s x1 x2 x3 x4 x5} (hs : Wf s) : Wf (State.lateBytes s x1 x2 x3 x4 x5) := by
  unfold State.lateBytes
  with_reducible repeat' first | assumption | apply abortReq_wf | apply onDest_wf | apply err_wf | split
theorem bondShow_wf {s x1 x2} (hs : Wf s) : Wf (State.bondShow s x1 x2) := by
  unfold State.bondShow
  dsimp only
  with_reducible apply tagTiles_wf
  apply mk_wf
  generalize upFrom 0 64 = l
  have h := mem_wf hs
  generalize s.mem = m at h ⊢
  induction l generalizing m with
  | nil => exact h
  | cons y l ih =>
    rw [List.foldl_cons]
    apply ih
    split
    · exact wf_memPut _ _ h
    · exact h
theorem bondClean_wf {s x1 x2} (hs : Wf s) : Wf (State.bondClean s x1 x2) := by
  unfold State.bondClean
  with_reducible repeat' first | assumption | apply mem_wf | apply mk_wf
theorem bondLineFor_wf {s x1 x2 x3 x4 r t} (e : bondLineFor s x1 x2 x3 x4 = some (r, t)) (hs : Wf s) : Wf t := by
  unfold bondLineFor at e
  try dsimp only at e
  with_reducible repeat' first | assumption | apply onDie_wf | apply bondClean_wf | apply mem_wf | split at e | cases e | apply mk_wf
theorem bondMet_wf {s x1 x2 x3 x4} (hs : Wf s) : Wf (State.bondMet s x1 x2 x3 x4) := by
  unfold State.bondMet
  with_reducible repeat' first | assumption | apply err_wf | apply metBad_wf
theorem bondPut_wf {s x1 x2 x3 x4 x5 r t} (e : State.bondPut s x1 x2 x3 x4 x5 = (t, r)) (hs : Wf s) : Wf t := by
  unfold State.bondPut at e
  try dsimp only at e
  with_reducible repeat' first | assumption | intro _ | apply abortReq_wf | apply bondMet_wf | refine bondLineFor_wf (by assumption) ?_ | apply mend_wf | apply repair_wf | apply onDie_wf | apply bondShow_wf | apply each_wf | split | split at e | cases e
theorem bondPut_wf2 {s x1 x2 x3 x4 x5} (hs : Wf s) : Wf (State.bondPut s x1 x2 x3 x4 x5).1 := bondPut_wf eta2 hs
theorem taggedIn_wf {s x1 x2 x3 x4 x5 r t} (e : State.taggedIn s x1 x2 x3 x4 x5 = (t, r)) (hs : Wf s) : Wf t := by
  rw [show t = (State.taggedIn s x1 x2 x3 x4 x5).1 by rw [e]]
  unfold State.taggedIn
  dsimp only
  generalize hd : State.destTake s x1 x2 = p
  have hp : Wf p.2 := hd ▸ destTake_wf2 hs
  rcases p with ⟨_ | k, t⟩
  · exact hp
  · have hb : ∀ l, Wf (List.foldl (fun (r : State × Bool) (q : Nat × Nat × Nat) =>
        if r.2 then r.1.bondPut x1 x2 q.2.1 x4 ((x5.drop q.1).take q.2.2) else r) (t, true) l).1 := fun l =>
      foldl_wf (g := Prod.fst) (fun b a h => by split <;> first | exact bondPut_wf2 h | exact h) hp
    dsimp only
    generalize linePieces _ _ _ _ = l
    have hr := hb l
    generalize List.foldl _ (t, true) l = r at hr ⊢
    clear hb
    repeat' first | (with_reducible assumption) | split | (with_reducible apply err_wf) | (with_reducible apply lateBytes_wf) | (with_reducible apply confirm_wf) | (with_reducible apply onDest_wf)
theorem taggedIn_wf2 {s x1 x2 x3 x4 x5} (hs : Wf s) : Wf (State.taggedIn s x1 x2 x3 x4 x5).1 := taggedIn_wf eta2 hs
theorem tagged_wf {s x1 x2 x3 x4 x5} (hs : Wf s) : Wf (State.tagged s x1 x2 x3 x4 x5) := by
  exact taggedIn_wf2 hs
theorem fixT_wf {s x1 x2} (hs : Wf s) : Wf (State.fixT s x1 x2) := by
  unfold State.fixT
  with_reducible repeat' first | assumption | apply status_wf | apply onCoord_wf | apply mem_wf | split | apply mk_wf
theorem endTagging_wf {s x1 x2} (hs : Wf s) : Wf (State.endTagging s x1 x2) := by
  unfold State.endTagging
  with_reducible repeat' first | assumption | apply mem_wf | apply mk_wf
theorem destAbort_wf {s x1 x2 x3} (hs : Wf s) : Wf (State.destAbort s x1 x2 x3) := by
  unfold State.destAbort
  with_reducible repeat' first | assumption | intro _ | apply endTagging_wf | apply planAbort_wf | apply destTake_wf2 | apply onDie_wf | apply onDest_wf | apply status_wf | apply err_wf | apply mem_wf | apply each_wf | split | apply mk_wf
theorem coordAbort_wf {s x1 x2 x3} (hs : Wf s) : Wf (State.coordAbort s x1 x2 x3) := by
  unfold State.coordAbort
  with_reducible repeat' first | assumption | apply status_wf | apply onCoord_wf | apply err_wf | apply send_wf | split
theorem execManifestEntry_wf {s t} (e : execManifestEntry s = .next t) (hs : Wf s) : Wf t := by
  unfold execManifestEntry at e
  with_reducible repeat' first | assumption | refine takeMsg_wf (by assumption) ?_ | refine destTake_wf (by assumption) ?_ | apply onDest_wf | apply confirm_wf | apply status_wf | split at e | cases e
theorem execConfirmation_wf {s t} (e : execConfirmation s = .next t) (hs : Wf s) : Wf t := by
  unfold execConfirmation at e
  with_reducible repeat' first | assumption | refine takeMsg_wf (by assumption) ?_ | apply onCoord_wf | apply fixT_wf | split at e | cases e
theorem execPublishTime_wf {s t} (e : execPublishTime s = .next t) (hs : Wf s) : Wf t := by
  unfold execPublishTime at e
  with_reducible repeat' first | assumption | refine takeMsg_wf (by assumption) ?_ | apply onDest_wf | apply err_wf | apply status_wf | split at e | cases e
theorem publish_wf {s x1 x2 x3} (hs : Wf s) : Wf (State.publish s x1 x2 x3) := by
  unfold State.publish
  with_reducible repeat' first | assumption | intro _ | apply onDie_wf | apply wake_wf | apply tagTiles_wf | apply status_wf | apply onDest_wf | apply wf_ite | apply each_wf
theorem publishCoord_wf {s x1 x2} (hs : Wf s) : Wf (State.publishCoord s x1 x2) := by
  unfold State.publishCoord
  with_reducible repeat' first | assumption | apply onDie_wf | apply status_wf | split
theorem publishDie_wf {s x1 x2} (hs : Wf s) : Wf (State.publishDie s x1 x2) := by
  induction x2 generalizing s x1 with
  | zero =>
    unfold State.publishDie
    try dsimp only
    repeat' first | (with_reducible assumption) | (with_reducible intro _) | (with_reducible apply publish_wf) | (with_reducible apply wf_ite) | (with_reducible apply elim_wf) | (with_reducible apply mem_wf) | (with_reducible apply each_wf) | (with_reducible apply getD_wf) | (with_reducible apply wf_memPut) | (with_reducible apply foldl_memPut_wf) | (with_reducible apply wf_filter) | (split) | (dsimp only) | (with_reducible apply mk_wf)
  | succ y ih =>
    unfold State.publishDie
    try dsimp only
    repeat' first | (with_reducible assumption) | (with_reducible intro _) | (with_reducible apply ih) | (with_reducible apply publish_wf) | (with_reducible apply wf_ite) | (with_reducible apply elim_wf) | (with_reducible apply mem_wf) | (with_reducible apply each_wf) | (with_reducible apply getD_wf) | (with_reducible apply wf_memPut) | (with_reducible apply foldl_memPut_wf) | (with_reducible apply wf_filter) | (split) | (dsimp only) | (with_reducible apply mk_wf)
theorem publishAll_wf {s} (hs : Wf s) : Wf (State.publishAll s) := by
  unfold State.publishAll
  with_reducible repeat' first | assumption | intro _ | apply publishDie_wf | apply publishCoord_wf | apply each_wf
theorem execPublish_wf {s t} (e : execPublish s = .next t) (hs : Wf s) : Wf t := by
  unfold execPublish at e
  try dsimp only at e
  with_reducible repeat' first | assumption | apply publishCoord_wf | refine when_wf (by assumption) ?_ ?_ | apply publish_wf | split at e | cases e
theorem execBondDrain_wf {s t} (e : execBondDrain s = .next t) (hs : Wf s) : Wf t := by
  unfold execBondDrain at e
  try dsimp only at e
  with_reducible repeat' first | assumption | intro _ | apply repair_wf | apply onDie_wf | apply bondMet_wf | apply bondClean_wf | apply mem_wf | apply each_wf | apply foldl_memPut_wf | split | split at e | cases e | apply mk_wf
theorem execCensusNotice_wf {s t} (e : execCensusNotice s = .next t) (hs : Wf s) : Wf t := by
  unfold execCensusNotice at e
  try dsimp only at e
  with_reducible repeat' first | assumption | refine takeMsg_wf (by assumption) ?_ | apply onDie_wf | apply onDest_wf | apply abortReq_wf | apply fixT_wf | apply onCoord_wf | apply send_wf | split at e | cases e
theorem execAbortRequest_wf {s t} (e : execAbortRequest s = .next t) (hs : Wf s) : Wf t := by
  unfold execAbortRequest at e
  with_reducible repeat' first | assumption | refine takeMsg_wf (by assumption) ?_ | apply coordAbort_wf | apply send_wf | refine when_wf (by assumption) ?_ ?_ | split at e | cases e
theorem execAbortNotice_wf {s t} (e : execAbortNotice s = .next t) (hs : Wf s) : Wf t := by
  unfold execAbortNotice at e
  try dsimp only at e
  with_reducible repeat' first | assumption | refine takeMsg_wf (by assumption) ?_ | apply destAbort_wf | apply onDie_wf | apply send_wf | split at e | cases e
theorem execCnwaitExpiry_wf {s t} (e : execCnwaitExpiry s = .next t) (hs : Wf s) : Wf t := by
  unfold execCnwaitExpiry at e
  try dsimp only at e
  with_reducible repeat' first | assumption | refine when_wf (by assumption) ?_ ?_ | apply coordAbort_wf | split at e | cases e
theorem execDestinationHoldExpiry_wf {s t} (e : execDestinationHoldExpiry s = .next t) (hs : Wf s) : Wf t := by
  unfold execDestinationHoldExpiry at e
  try dsimp only at e
  with_reducible repeat' first | assumption | refine when_wf (by assumption) ?_ ?_ | apply onDie_wf | split at e | cases e
theorem execOrphanPlaceDiscard_wf {s t} (e : execOrphanPlaceDiscard s = .next t) (hs : Wf s) : Wf t := by
  unfold execOrphanPlaceDiscard at e
  try dsimp only at e
  with_reducible repeat' first | assumption | refine when_wf (by assumption) ?_ ?_ | apply err_wf | apply onDie_wf | split at e | cases e
theorem ctlReadRc_wf {s x1 x2 r t} (e : State.ctlReadRc s x1 x2 = (r, t)) (hs : Wf s) : Wf t := by
  unfold State.ctlReadRc at e
  with_reducible repeat' first | assumption | apply onDie_wf | split at e | cases e
theorem ctlReadRc_wf2 {s x1 x2} (hs : Wf s) : Wf (State.ctlReadRc s x1 x2).2 := ctlReadRc_wf eta2 hs
theorem preemptReq_wf {s x1} (hs : Wf s) : Wf (State.preemptReq s x1) := by
  unfold State.preemptReq
  with_reducible repeat' first | assumption | apply onCore_wf
theorem mnqDrain_wf {s x1} (hs : Wf s) : Wf (State.mnqDrain s x1) := by
  unfold State.mnqDrain
  with_reducible repeat' first | assumption | refine notify_wf (by assumption) ?_ | apply onDie_wf | apply mem_wf | split | apply mk_wf
theorem cnCur_wf {s x1 x2 t} (e : State.cnCur s x1 x2 = .ok t) (hs : Wf s) : Wf t := by
  unfold State.cnCur at e
  try dsimp only at e
  with_reducible repeat' first | assumption | apply onCore_wf | split at e | cases e
theorem cnOpen_wf {s x1 x2 t} (e : State.cnOpen s x1 x2 = .ok t) (hs : Wf s) : Wf t := by
  unfold State.cnOpen at e
  try dsimp only at e
  with_reducible repeat' first | assumption | apply store64_wf | apply onDie_wf | apply status_wf | split at e | cases e
theorem cnBind_wf {s x1 x2 t} (e : State.cnBind s x1 x2 = .ok t) (hs : Wf s) : Wf t := by
  unfold State.cnBind at e
  try dsimp only at e
  with_reducible repeat' first | assumption | apply onPlan_wf | split at e | cases e
theorem wloadErr_wf {s x1 x2 x3 x4 x5} (hs : Wf s) : Wf (State.wloadErr s x1 x2 x3 x4 x5) := by
  unfold State.wloadErr
  with_reducible repeat' first | assumption | apply err_wf
theorem wload_wf {s x1 x2} (hs : Wf s) : Wf (State.wload s x1 x2) := by
  unfold State.wload
  with_reducible repeat' first | assumption | apply onDie_wf | apply wloadErr_wf | apply wf_ite
theorem kvcfg_wf {s x1 x2} (hs : Wf s) : Wf (State.kvcfg s x1 x2) := by
  unfold State.kvcfg
  with_reducible repeat' first | assumption | apply onDie_wf
theorem mdcfg_wf {s x1 x2} (hs : Wf s) : Wf (State.mdcfg s x1 x2) := by
  unfold State.mdcfg
  with_reducible repeat' first | assumption | apply onDie_wf
theorem mnqCi_wf {s x1 x2} (hs : Wf s) : Wf (State.mnqCi s x1 x2) := by
  unfold State.mnqCi
  with_reducible repeat' first | assumption | apply mnqDrain_wf | apply onDie_wf
theorem cqcfg_wf {s x1 x2} (hs : Wf s) : Wf (State.cqcfg s x1 x2) := by
  unfold State.cqcfg
  with_reducible repeat' first | assumption | apply onCluster_wf
theorem therm_wf {s x1} (hs : Wf s) : Wf (State.therm s x1) := by
  unfold State.therm
  with_reducible repeat' first | assumption | apply onDie_wf
theorem dieReg_wf {s x1 x2 x3} (hs : Wf s) : Wf (State.dieReg s x1 x2 x3) := by
  unfold State.dieReg
  with_reducible repeat' first | assumption | apply onDie_wf
theorem ctlWrite_wf {s x1 x2 x3} (hs : Wf s) : Wf (State.ctlWrite s x1 x2 x3) := by
  unfold State.ctlWrite
  with_reducible repeat' first | assumption | apply onCore_wf | apply onCluster_wf | refine cnCur_wf (by assumption) ?_ | refine cnOpen_wf (by assumption) ?_ | refine cnBind_wf (by assumption) ?_ | apply rqfin_wf | apply preemptReq_wf | apply cqcfg_wf | apply rscfg_wf | apply dieReg_wf | apply rsttlen_wf | apply mdcfg_wf | apply kvcfg_wf | apply mnqCi_wf | apply wload_wf | apply therm_wf | apply mem_wf | split | apply mk_wf
theorem windowErr_wf {s x1 x2 x3 x4 x5 x6} (hs : Wf s) : Wf (State.windowErr s x1 x2 x3 x4 x5 x6) := by
  unfold State.windowErr
  with_reducible repeat' first | assumption | apply err_wf
theorem recordStore_wf {s x1 x2 x3 x4} (hs : Wf s) : Wf (State.recordStore s x1 x2 x3 x4) := by
  unfold State.recordStore
  with_reducible repeat' first | assumption | apply recErr_wf | apply pushO_wf | split
theorem triggerStore_wf {s x1 x2 x3} (hs : Wf s) : Wf (State.triggerStore s x1 x2 x3) := by
  unfold State.triggerStore
  with_reducible repeat' first | assumption | apply trigger_wf | apply windowErr_wf | split
theorem ctlStore_wf {s x1 x2 x3 x4} (hs : Wf s) : Wf (State.ctlStore s x1 x2 x3 x4) := by
  unfold State.ctlStore
  with_reducible repeat' first | assumption | apply recordStore_wf | apply windowErr_wf | apply admStore_wf | apply triggerStore_wf | apply ctlWrite_wf | apply store_wf | apply wf_ite | split
theorem regLoad_wf {s x1 x2 r t} (e : State.regLoad s x1 x2 = (r, t)) (hs : Wf s) : Wf t := by
  unfold State.regLoad at e
  with_reducible repeat' first | assumption | refine ctlReadRc_wf (by assumption) ?_ | split at e | cases e
theorem regLoad_wf2 {s x1 x2} (hs : Wf s) : Wf (State.regLoad s x1 x2).2 := regLoad_wf eta2 hs
theorem ctlLoad_wf {s x1 x2 x3 x4 r t} (e : State.ctlLoad s x1 x2 x3 x4 = (r, t)) (hs : Wf s) : Wf t := by
  unfold State.ctlLoad at e
  try dsimp only at e
  with_reducible repeat' first | assumption | apply windowErr_wf | refine alloc_wf (by assumption) ?_ | apply regLoad_wf2 | split at e | cases e
theorem ctlLoad_wf2 {s x1 x2 x3 x4} (hs : Wf s) : Wf (State.ctlLoad s x1 x2 x3 x4).2 := ctlLoad_wf eta2 hs
theorem serveStore_wf {s x1 x2 x3 x4} (hs : Wf s) : Wf (State.serveStore s x1 x2 x3 x4) := by
  unfold State.serveStore
  with_reducible repeat' first | assumption | apply ctlStore_wf | apply writeMem_wf | split
theorem serveLoad_wf {s x1 x2 x3 x4 r t} (e : State.serveLoad s x1 x2 x3 x4 = (r, t)) (hs : Wf s) : Wf t := by
  unfold State.serveLoad at e
  try dsimp only at e
  with_reducible repeat' first | assumption | apply ctlLoad_wf2 | refine readMem_wf (by assumption) ?_ | split at e | cases e
theorem serveLoad_wf2 {s x1 x2 x3 x4} (hs : Wf s) : Wf (State.serveLoad s x1 x2 x3 x4).2 := serveLoad_wf eta2 hs
theorem rootWrite_wf {s x1 x2 x3 x4} (hs : Wf s) : Wf (State.rootWrite s x1 x2 x3 x4) := by
  unfold State.rootWrite
  with_reducible repeat' first | assumption | intro _ | apply onCore_wf | apply ctlWrite_wf | apply dieReg_wf | apply onDie_wf | apply wf_ite | apply each_wf
theorem setOut_wf {s x1 x2 x3} (hs : Wf s) : Wf (State.setOut s x1 x2 x3) := by
  unfold State.setOut
  with_reducible repeat' first | assumption | apply onCore_wf
theorem jobOf_wf {s x1 x2} (hs : Wf s) : Wf (State.jobOf s x1 x2) := by
  unfold State.jobOf
  with_reducible repeat' first | assumption | apply onCore_wf
theorem jobLost_wf {s x1 x2} (hs : Wf s) : Wf (State.jobLost s x1 x2) := by
  unfold State.jobLost
  with_reducible repeat' first | assumption | apply planFree_wf | apply planLost_wf | apply abortReq_wf | apply wf_ite
theorem discardJob_wf {s x1 x2} (hs : Wf s) : Wf (State.discardJob s x1 x2) := by
  unfold State.discardJob
  with_reducible repeat' first | assumption | apply onCore_wf | apply err_wf | apply jobLost_wf
theorem ntEnter_wf {s x1 x2 x3} (hs : Wf s) : Wf (State.ntEnter s x1 x2 x3) := by
  unfold State.ntEnter
  with_reducible repeat' first | assumption | apply ntServe_wf | apply ntFlush_wf | apply onCore_wf | split
theorem loadRuns_wf {s x1 x2 r t} (e : State.loadRuns s x1 x2 = (r, t)) (hs : Wf s) : Wf t := by
  induction x2 generalizing s x1 r t with
  | nil =>
    unfold State.loadRuns at e
    try dsimp only at e
    repeat' first | (with_reducible assumption) | (with_reducible intro _) | (with_reducible apply serveLoad_wf2) | (with_reducible refine serveLoad_wf (by assumption) ?_) | (with_reducible apply wf_ite) | (with_reducible apply elim_wf) | (with_reducible apply mem_wf) | (with_reducible apply each_wf) | (with_reducible apply getD_wf) | (with_reducible apply wf_memPut) | (with_reducible apply foldl_memPut_wf) | (with_reducible apply wf_filter) | (split) | (split at e) | (cases e) | (dsimp only) | (with_reducible apply mk_wf)
  | cons y l ih =>
    unfold State.loadRuns at e
    try dsimp only at e
    repeat' first | (with_reducible assumption) | (with_reducible intro _) | (with_reducible refine ih (by assumption) ?_) | (exact ih rfl ‹_›) | (with_reducible apply serveLoad_wf2) | (with_reducible refine serveLoad_wf (by assumption) ?_) | (with_reducible apply wf_ite) | (with_reducible apply elim_wf) | (with_reducible apply mem_wf) | (with_reducible apply each_wf) | (with_reducible apply getD_wf) | (with_reducible apply wf_memPut) | (with_reducible apply foldl_memPut_wf) | (with_reducible apply wf_filter) | (split) | (split at e) | (cases e) | (dsimp only) | (with_reducible apply mk_wf)
theorem loadRuns_wf2 {s x1 x2} (hs : Wf s) : Wf (State.loadRuns s x1 x2).2 := loadRuns_wf eta2 hs
theorem storeRuns_wf {s x1 x2 x3} (hs : Wf s) : Wf (State.storeRuns s x1 x2 x3) := by
  induction x2 generalizing s x1 x3 with
  | nil =>
    unfold State.storeRuns
    try dsimp only
    repeat' first | (with_reducible assumption) | (with_reducible intro _) | (with_reducible apply serveStore_wf) | (with_reducible apply wf_ite) | (with_reducible apply elim_wf) | (with_reducible apply mem_wf) | (with_reducible apply each_wf) | (with_reducible apply getD_wf) | (with_reducible apply wf_memPut) | (with_reducible apply foldl_memPut_wf) | (with_reducible apply wf_filter) | (split) | (dsimp only) | (with_reducible apply mk_wf)
  | cons y l ih =>
    unfold State.storeRuns
    try dsimp only
    repeat' first | (with_reducible assumption) | (with_reducible intro _) | (with_reducible apply ih) | (with_reducible apply serveStore_wf) | (with_reducible apply wf_ite) | (with_reducible apply elim_wf) | (with_reducible apply mem_wf) | (with_reducible apply each_wf) | (with_reducible apply getD_wf) | (with_reducible apply wf_memPut) | (with_reducible apply foldl_memPut_wf) | (with_reducible apply wf_filter) | (split) | (dsimp only) | (with_reducible apply mk_wf)
theorem atomic_wf {s x1 x2 x3 x4 x5 x6 r t} (e : State.atomic s x1 x2 x3 x4 x5 x6 = (r, t)) (hs : Wf s) : Wf t := by
  unfold State.atomic at e
  with_reducible repeat' first | assumption | refine readMem_wf (by assumption) ?_ | apply store_wf | split | split at e | cases e
theorem released_wf {s x1} (hs : Wf s) : Wf (State.released s x1) := by
  unfold State.released
  with_reducible repeat' first | assumption | apply mem_wf | split | apply mk_wf
theorem placeAtomic_wf {s x1 r t} (e : State.placeAtomic s x1 = (r, t)) (hs : Wf s) : Wf t := by
  unfold State.placeAtomic at e
  with_reducible repeat' first | assumption | apply mem_wf | split at e | cases e | apply mk_wf
theorem atomicAt_wf {s x1 x2 x3 x4 x5 r t} (e : State.atomicAt s x1 x2 x3 x4 x5 = (r, t)) (hs : Wf s) : Wf t := by
  unfold State.atomicAt at e
  try dsimp only at e
  with_reducible repeat' first | assumption | refine placeAtomic_wf (by assumption) ?_ | refine combOpen_wf (by assumption) ?_ | apply setCombLine_wf | refine atomic_wf (by assumption) ?_ | split at e | cases e
theorem deliver_wf {s x1 x2 x3} (hs : Wf s) : Wf (State.deliver s x1 x2 x3) := by
  unfold State.deliver
  with_reducible repeat' first | assumption | apply jobOf_wf | split
theorem relDone_wf {s x1 x2} (hs : Wf s) : Wf (State.relDone s x1 x2) := by
  unfold State.relDone
  with_reducible repeat' first | assumption | apply mem_wf | split | apply mk_wf
theorem perform_wf {s x1 x2} (hs : Wf s) : Wf (State.perform s x1 x2) := by
  unfold State.perform
  with_reducible repeat' first | assumption | intro _ | apply ntFlush_wf | apply jobOf_wf | apply storeRuns_wf | apply relDone_wf | apply ntEnter_wf | apply serveStore_wf | refine atomicAt_wf (by assumption) ?_ | apply discardJob_wf | refine loadRuns_wf (by assumption) ?_ | apply deliver_wf | apply mem_wf | apply each_wf | split | apply mk_wf
theorem inject_wf {s x1} (hs : Wf s) : Wf (State.inject s x1) := by
  unfold State.inject
  with_reducible repeat' first | assumption | apply mem_wf | apply mk_wf
theorem markSent_wf {s x1 x2 x3} (hs : Wf s) : Wf (State.markSent s x1 x2 x3) := by
  unfold State.markSent
  with_reducible repeat' first | assumption | apply jobOf_wf
theorem sendAcc_wf {s x1 x2} (hs : Wf s) : Wf (State.sendAcc s x1 x2) := by
  unfold State.sendAcc
  with_reducible repeat' first | assumption | intro _ | apply ntFlush_wf | apply markSent_wf | apply inject_wf | apply each_wf | split
theorem noteTag_wf {s x1 x2 x3} (hs : Wf s) : Wf (State.noteTag s x1 x2 x3) := by
  unfold State.noteTag
  with_reducible repeat' first | assumption | apply jobOf_wf
theorem servePiece_wf {n acc p} (h : Wf acc.2) : Wf (servePiece n acc p).2 := by
  unfold servePiece
  repeat' first | (with_reducible assumption) | split | (with_reducible refine serveLoad_wf (by assumption) ?_)
theorem finishAcc_wf {s x1 x2} (hs : Wf s) : Wf (State.finishAcc s x1 x2) := by
  unfold State.finishAcc
  dsimp only
  generalize List.filter (fun p => !remoteTo (x1 / 384) p.2.1) (accPieces x2.runs 0) = near
  split
  · exact jobOf_wf (relDone_wf (each_wf (fun _ _ h => serveStore_wf h) hs))
  · have h2 : Wf (List.foldl (servePiece x1) (.ok x2.data, s) near).2 :=
      foldl_wf (g := Prod.snd) (fun _ _ h => servePiece_wf h) hs
    generalize List.foldl (servePiece x1) (.ok x2.data, s) near = p at h2 ⊢
    rcases p with ⟨_ | _, t⟩
    · exact discardJob_wf h2
    · exact deliver_wf h2
theorem accBack_wf {s x1 x2} (hs : Wf s) : Wf (State.accBack s x1 x2) := by
  unfold State.accBack
  with_reducible repeat' first | assumption | apply jobOf_wf | apply finishAcc_wf | split
theorem execAccessPerform_wf {s t} (e : execAccessPerform s = .next t) (hs : Wf s) : Wf t := by
  unfold execAccessPerform at e
  try dsimp only at e
  with_reducible repeat' first | assumption | apply finishAcc_wf | apply sendAcc_wf | apply perform_wf | split at e | cases e
theorem execCombiningBufferExpiry_wf {s t} (e : execCombiningBufferExpiry s = .next t) (hs : Wf s) : Wf t := by
  unfold execCombiningBufferExpiry at e
  with_reducible repeat' first | assumption | refine when_wf (by assumption) ?_ ?_ | apply ntFlush_wf | split at e | cases e
theorem settlePosted_wf {s x1 x2} (hs : Wf s) : Wf (State.settlePosted s x1 x2) := by
  unfold State.settlePosted
  with_reducible repeat' first | assumption | apply serveStore_wf | apply tagged_wf | apply setOut_wf | apply mem_wf | split | apply mk_wf
theorem settleSlot_wf {n id acc f} (h : Wf acc.2) : Wf (settleSlot n id acc f).2 := by
  unfold settleSlot
  repeat' first | (with_reducible assumption) | split | (with_reducible refine serveLoad_wf (by assumption) ?_) | (with_reducible apply noteTag_wf) | (with_reducible apply serveStore_wf)
theorem settleAcc_wf {s x1 x2} (hs : Wf s) : Wf (State.settleAcc s x1 x2) := by
  unfold State.settleAcc
  have h2 : ∀ (d : Except Nat (List Byte)) (u : State) l, Wf u → Wf (List.foldl (settleSlot x1 x2.id) (d, u) l).2 :=
    fun _ _ _ hu => foldl_wf (g := Prod.snd) (fun _ _ h => settleSlot_wf h) hu
  have hw : ∀ sl, Wf { s with slots := sl } := fun _ => hs
  dsimp only
  split
  · split
    · exact hs
    · split
      · rename_i heq; exact discardJob_wf ((congrArg (fun p => Wf p.2) heq).mp (h2 _ _ _ (hw _)))
      · rename_i heq
        have h3 := (congrArg (fun p => Wf p.2) heq).mp (h2 _ _ _ (hw _))
        split
        · exact finishAcc_wf h3
        · exact h3
  · exact wf_ite hs (perform_wf hs)
theorem settleRago_wf {s x1} (hs : Wf s) : Wf (State.settleRago s x1) := by
  unfold State.settleRago
  with_reducible repeat' first | assumption | apply jobOf_wf | refine atomicAt_wf (by assumption) ?_ | apply discardJob_wf | apply mem_wf | split | apply mk_wf
theorem settle_wf {s x1} (hs : Wf s) : Wf (State.settle s x1) := by
  unfold State.settle
  exact ntFlush_wf (foldl_wf (g := id) (fun _ _ h => settleAcc_wf h) (foldl_wf (g := id) (fun _ _ h => settlePosted_wf h) (settleRago_wf hs)))
theorem storeArea_wf {s x1 x2 x3 x4} (hs : Wf s) : Wf (State.storeArea s x1 x2 x3 x4) := by
  unfold State.storeArea
  with_reducible repeat' first | assumption | intro _ | apply ntServe_wf | apply pokeRaw_wf | apply eccFresh_wf | apply wake_wf | apply tagTiles_wf | apply mem_wf | apply each_wf | apply wf_filter | split | apply mk_wf
theorem freeze_wf {s x1 x2} (hs : Wf s) : Wf (State.freeze s x1 x2) := by
  unfold State.freeze
  with_reducible repeat' first | assumption | intro _ | apply onCore_wf | apply settle_wf | apply storeArea_wf | apply jobLost_wf | apply planHold_wf | apply mem_wf | apply each_wf | split | apply mk_wf
theorem discardTrap_wf {s x1 x2 x3 x4} (hs : Wf s) : Wf (State.discardTrap s x1 x2 x3 x4) := by
  unfold State.discardTrap
  with_reducible repeat' first | assumption | apply err_wf | apply jobLost_wf
theorem trap_wf {s x1} (hs : Wf s) : Wf (State.trap s x1) := by
  unfold State.trap
  with_reducible repeat' first | assumption | apply settle_wf | apply onCore_wf | apply discardTrap_wf | apply onJob_wf | apply freeze_wf | apply recErr_wf | apply pushR_wf | split | dsimp only
theorem pended_wf {s} (hs : Wf s) : Wf (State.pended s) := by
  unfold State.pended
  with_reducible repeat' first | assumption | apply trap_wf | apply onJob_wf | split
theorem trapW_wf {s x1 x2 x3 x4} (hs : Wf s) : Wf (State.trapW s x1 x2 x3 x4) := by
  unfold State.trapW
  with_reducible repeat' first | assumption | apply trap_wf
theorem trapSub_wf {s x1 x2 x3 x4 x5} (hs : Wf s) : Wf (State.trapSub s x1 x2 x3 x4 x5) := by
  unfold State.trapSub
  with_reducible repeat' first | assumption | apply trap_wf
theorem trapC_wf {s x1 x2 x3} (hs : Wf s) : Wf (State.trapC s x1 x2 x3) := by
  unfold State.trapC
  with_reducible repeat' first | assumption | apply trapW_wf
theorem lostTrap_wf {s x1 x2 t} (e : State.lostTrap s x1 x2 = some t) (hs : Wf s) : Wf t := by
  unfold State.lostTrap at e
  with_reducible repeat' first | assumption | apply trapW_wf | apply onJob_wf | split at e | cases e
theorem parkAt_wf {s x1 x2 x3 x4 x5 x6} (hs : Wf s) : Wf (State.parkAt s x1 x2 x3 x4 x5 x6) := by
  unfold State.parkAt
  with_reducible repeat' first | assumption | apply onBlk_wf | apply countPark_wf | apply err_wf | apply wf_ite
theorem endJob_wf {s x1} (hs : Wf s) : Wf (State.endJob s x1) := by
  unfold State.endJob
  with_reducible repeat' first | assumption | apply planFree_wf | apply onCore_wf
theorem exitJoins_wf {s x1 x2} (hs : Wf s) : Wf (State.exitJoins s x1 x2) := by
  unfold State.exitJoins
  with_reducible repeat' first | assumption | apply decJoin_wf | apply wf_ite | split
theorem endJoins_wf {s x1 k2} (hs : Wf s) (hk2 : ∀ u0, Wf u0 → Wf (k2 u0)) : Wf (State.endJoins s x1 k2) := by
  unfold State.endJoins
  with_reducible repeat' first | assumption | apply hk2 | apply discardJob_wf | apply metBad_wf | apply mem_wf | split | apply mk_wf
theorem restoreRegion_wf {s x1 x2} (hs : Wf s) : Wf (State.restoreRegion s x1 x2) := by
  unfold State.restoreRegion
  with_reducible repeat' first | assumption | intro _ | apply savePlace_wf | apply mend_wf | apply store_wf | apply wf_ite | apply each_wf
theorem resume_wf {s x1 x2} (hs : Wf s) : Wf (State.resume s x1 x2) := by
  unfold State.resume
  with_reducible repeat' first | assumption | intro _ | apply mend_wf | apply onCore_wf | apply restoreRegion_wf | apply planRelease_wf | apply discardJob_wf | apply metBad_wf | apply trap_wf | apply onJob_wf | apply mem_wf | apply each_wf | split | apply mk_wf
theorem waitC_wf {s x1} (hs : Wf s) : Wf (State.waitC s x1) := by
  unfold State.waitC
  with_reducible repeat' first | assumption | apply onBlk_wf

end Sys2Proof.Machine
end

