-- ==== Sys2Proof/Laws/WfScalar.lean ====
section
/-!
SUPPORT. Every operation keeps memory in its canonical form: C-stream words. X_wf is about X; X_wf2 about the state of a pair.
-/
set_option linter.unusedVariables false
namespace Sys2Proof.Machine

theorem setC_wf {s x1 x2 x3} (hs : Wf s) : Wf (State.setC s x1 x2 x3) := by
  unfold State.setC
  with_reducible repeat' first | assumption | apply advance_wf | apply setRs_wf
theorem setA_wf {s x1 x2 x3} (hs : Wf s) : Wf (State.setA s x1 x2 x3) := by
  unfold State.setA
  with_reducible repeat' first | assumption | apply advance_wf | apply setRa_wf
theorem execCAdd_wf {x0 x1 x2 s t} (e : execCAdd x0 x1 x2 s = .next t) (hs : Wf s) : Wf t := by
  unfold execCAdd at e
  with_reducible repeat' first | assumption | apply setC_wf | cases e
theorem execCSub_wf {x0 x1 x2 s t} (e : execCSub x0 x1 x2 s = .next t) (hs : Wf s) : Wf t := by
  unfold execCSub at e
  with_reducible repeat' first | assumption | apply setC_wf | cases e
theorem execCAnd_wf {x0 x1 x2 s t} (e : execCAnd x0 x1 x2 s = .next t) (hs : Wf s) : Wf t := by
  unfold execCAnd at e
  with_reducible repeat' first | assumption | apply setC_wf | cases e
theorem execCOr_wf {x0 x1 x2 s t} (e : execCOr x0 x1 x2 s = .next t) (hs : Wf s) : Wf t := by
  unfold execCOr at e
  with_reducible repeat' first | assumption | apply setC_wf | cases e
theorem execCXor_wf {x0 x1 x2 s t} (e : execCXor x0 x1 x2 s = .next t) (hs : Wf s) : Wf t := by
  unfold execCXor at e
  with_reducible repeat' first | assumption | apply setC_wf | cases e
theorem execAndn_wf {x0 x1 x2 s t} (e : execAndn x0 x1 x2 s = .next t) (hs : Wf s) : Wf t := by
  unfold execAndn at e
  with_reducible repeat' first | assumption | apply setC_wf | cases e
theorem execCShl_wf {x0 x1 x2 s t} (e : execCShl x0 x1 x2 s = .next t) (hs : Wf s) : Wf t := by
  unfold execCShl at e
  with_reducible repeat' first | assumption | apply setC_wf | cases e
theorem execCShr_wf {x0 x1 x2 s t} (e : execCShr x0 x1 x2 s = .next t) (hs : Wf s) : Wf t := by
  unfold execCShr at e
  with_reducible repeat' first | assumption | apply setC_wf | cases e
theorem execCSra_wf {x0 x1 x2 s t} (e : execCSra x0 x1 x2 s = .next t) (hs : Wf s) : Wf t := by
  unfold execCSra at e
  with_reducible repeat' first | assumption | apply setC_wf | cases e
theorem execCMul_wf {x0 x1 x2 s t} (e : execCMul x0 x1 x2 s = .next t) (hs : Wf s) : Wf t := by
  unfold execCMul at e
  with_reducible repeat' first | assumption | apply setC_wf | cases e
theorem execMulh_wf {x0 x1 x2 s t} (e : execMulh x0 x1 x2 s = .next t) (hs : Wf s) : Wf t := by
  unfold execMulh at e
  with_reducible repeat' first | assumption | apply setC_wf | cases e
theorem execMulhu_wf {x0 x1 x2 s t} (e : execMulhu x0 x1 x2 s = .next t) (hs : Wf s) : Wf t := by
  unfold execMulhu at e
  with_reducible repeat' first | assumption | apply setC_wf | cases e
theorem execDiv_wf {x0 x1 x2 s t} (e : execDiv x0 x1 x2 s = .next t) (hs : Wf s) : Wf t := by
  unfold execDiv at e
  with_reducible repeat' first | assumption | apply setC_wf | cases e
theorem execDivu_wf {x0 x1 x2 s t} (e : execDivu x0 x1 x2 s = .next t) (hs : Wf s) : Wf t := by
  unfold execDivu at e
  with_reducible repeat' first | assumption | apply setC_wf | cases e
theorem execRem_wf {x0 x1 x2 s t} (e : execRem x0 x1 x2 s = .next t) (hs : Wf s) : Wf t := by
  unfold execRem at e
  with_reducible repeat' first | assumption | apply setC_wf | cases e
theorem execRemu_wf {x0 x1 x2 s t} (e : execRemu x0 x1 x2 s = .next t) (hs : Wf s) : Wf t := by
  unfold execRemu at e
  with_reducible repeat' first | assumption | apply setC_wf | cases e
theorem execCMin_wf {x0 x1 x2 s t} (e : execCMin x0 x1 x2 s = .next t) (hs : Wf s) : Wf t := by
  unfold execCMin at e
  with_reducible repeat' first | assumption | apply setC_wf | cases e
theorem execCMax_wf {x0 x1 x2 s t} (e : execCMax x0 x1 x2 s = .next t) (hs : Wf s) : Wf t := by
  unfold execCMax at e
  with_reducible repeat' first | assumption | apply setC_wf | cases e
theorem execMinu_wf {x0 x1 x2 s t} (e : execMinu x0 x1 x2 s = .next t) (hs : Wf s) : Wf t := by
  unfold execMinu at e
  with_reducible repeat' first | assumption | apply setC_wf | cases e
theorem execMaxu_wf {x0 x1 x2 s t} (e : execMaxu x0 x1 x2 s = .next t) (hs : Wf s) : Wf t := by
  unfold execMaxu at e
  with_reducible repeat' first | assumption | apply setC_wf | cases e
theorem execSeq_wf {x0 x1 x2 s t} (e : execSeq x0 x1 x2 s = .next t) (hs : Wf s) : Wf t := by
  unfold execSeq at e
  with_reducible repeat' first | assumption | apply setC_wf | cases e
theorem execSne_wf {x0 x1 x2 s t} (e : execSne x0 x1 x2 s = .next t) (hs : Wf s) : Wf t := by
  unfold execSne at e
  with_reducible repeat' first | assumption | apply setC_wf | cases e
theorem execCSlt_wf {x0 x1 x2 s t} (e : execCSlt x0 x1 x2 s = .next t) (hs : Wf s) : Wf t := by
  unfold execCSlt at e
  with_reducible repeat' first | assumption | apply setC_wf | cases e
theorem execCSltu_wf {x0 x1 x2 s t} (e : execCSltu x0 x1 x2 s = .next t) (hs : Wf s) : Wf t := by
  unfold execCSltu at e
  with_reducible repeat' first | assumption | apply setC_wf | cases e
theorem execClz_wf {x0 x1 s t} (e : execClz x0 x1 s = .next t) (hs : Wf s) : Wf t := by
  unfold execClz at e
  with_reducible repeat' first | assumption | apply setC_wf | cases e
theorem execPopc_wf {x0 x1 s t} (e : execPopc x0 x1 s = .next t) (hs : Wf s) : Wf t := by
  unfold execPopc at e
  with_reducible repeat' first | assumption | apply setC_wf | cases e
theorem execSel_wf {x0 x1 x2 s t} (e : execSel x0 x1 x2 s = .next t) (hs : Wf s) : Wf t := by
  unfold execSel at e
  with_reducible repeat' first | assumption | apply setC_wf | cases e
theorem execCAddi_wf {x0 x1 x2 s t} (e : execCAddi x0 x1 x2 s = .next t) (hs : Wf s) : Wf t := by
  unfold execCAddi at e
  with_reducible repeat' first | assumption | apply setC_wf | cases e
theorem execAndi_wf {x0 x1 x2 s t} (e : execAndi x0 x1 x2 s = .next t) (hs : Wf s) : Wf t := by
  unfold execAndi at e
  with_reducible repeat' first | assumption | apply setC_wf | cases e
theorem execOri_wf {x0 x1 x2 s t} (e : execOri x0 x1 x2 s = .next t) (hs : Wf s) : Wf t := by
  unfold execOri at e
  with_reducible repeat' first | assumption | apply setC_wf | cases e
theorem execXori_wf {x0 x1 x2 s t} (e : execXori x0 x1 x2 s = .next t) (hs : Wf s) : Wf t := by
  unfold execXori at e
  with_reducible repeat' first | assumption | apply setC_wf | cases e
theorem execCShli_wf {x0 x1 x2 s t} (e : execCShli x0 x1 x2 s = .next t) (hs : Wf s) : Wf t := by
  unfold execCShli at e
  with_reducible repeat' first | assumption | apply setC_wf | cases e
theorem execCShri_wf {x0 x1 x2 s t} (e : execCShri x0 x1 x2 s = .next t) (hs : Wf s) : Wf t := by
  unfold execCShri at e
  with_reducible repeat' first | assumption | apply setC_wf | cases e
theorem execCSrai_wf {x0 x1 x2 s t} (e : execCSrai x0 x1 x2 s = .next t) (hs : Wf s) : Wf t := by
  unfold execCSrai at e
  with_reducible repeat' first | assumption | apply setC_wf | cases e
theorem execSlti_wf {x0 x1 x2 s t} (e : execSlti x0 x1 x2 s = .next t) (hs : Wf s) : Wf t := by
  unfold execSlti at e
  with_reducible repeat' first | assumption | apply setC_wf | cases e
theorem execSltiu_wf {x0 x1 x2 s t} (e : execSltiu x0 x1 x2 s = .next t) (hs : Wf s) : Wf t := by
  unfold execSltiu at e
  with_reducible repeat' first | assumption | apply setC_wf | cases e
theorem execCLiz_wf {x0 x1 x2 s t} (e : execCLiz x0 x1 x2 s = .next t) (hs : Wf s) : Wf t := by
  unfold execCLiz at e
  with_reducible repeat' first | assumption | apply setC_wf | cases e
theorem execCLik_wf {x0 x1 x2 s t} (e : execCLik x0 x1 x2 s = .next t) (hs : Wf s) : Wf t := by
  unfold execCLik at e
  with_reducible repeat' first | assumption | apply setC_wf | cases e
theorem execC16Mov_wf {x0 x1 s t} (e : execC16Mov x0 x1 s = .next t) (hs : Wf s) : Wf t := by
  unfold execC16Mov at e
  with_reducible repeat' first | assumption | apply setC_wf | cases e
theorem execC16Add_wf {x0 x1 s t} (e : execC16Add x0 x1 s = .next t) (hs : Wf s) : Wf t := by
  unfold execC16Add at e
  with_reducible repeat' first | assumption | apply setC_wf | cases e
theorem execC16Sub_wf {x0 x1 s t} (e : execC16Sub x0 x1 s = .next t) (hs : Wf s) : Wf t := by
  unfold execC16Sub at e
  with_reducible repeat' first | assumption | apply setC_wf | cases e
theorem execC16And_wf {x0 x1 s t} (e : execC16And x0 x1 s = .next t) (hs : Wf s) : Wf t := by
  unfold execC16And at e
  with_reducible repeat' first | assumption | apply setC_wf | cases e
theorem execC16Or_wf {x0 x1 s t} (e : execC16Or x0 x1 s = .next t) (hs : Wf s) : Wf t := by
  unfold execC16Or at e
  with_reducible repeat' first | assumption | apply setC_wf | cases e
theorem execC16Xor_wf {x0 x1 s t} (e : execC16Xor x0 x1 s = .next t) (hs : Wf s) : Wf t := by
  unfold execC16Xor at e
  with_reducible repeat' first | assumption | apply setC_wf | cases e
theorem execC16Addi_wf {x0 x1 s t} (e : execC16Addi x0 x1 s = .next t) (hs : Wf s) : Wf t := by
  unfold execC16Addi at e
  with_reducible repeat' first | assumption | apply setC_wf | cases e
theorem execC16Liz_wf {x0 x1 s t} (e : execC16Liz x0 x1 s = .next t) (hs : Wf s) : Wf t := by
  unfold execC16Liz at e
  with_reducible repeat' first | assumption | apply setC_wf | cases e
theorem execC16Shli_wf {x0 x1 s t} (e : execC16Shli x0 x1 s = .next t) (hs : Wf s) : Wf t := by
  unfold execC16Shli at e
  with_reducible repeat' first | assumption | apply setC_wf | cases e
theorem execC16Shri_wf {x0 x1 s t} (e : execC16Shri x0 x1 s = .next t) (hs : Wf s) : Wf t := by
  unfold execC16Shri at e
  with_reducible repeat' first | assumption | apply setC_wf | cases e
theorem execC16Srai_wf {x0 x1 s t} (e : execC16Srai x0 x1 s = .next t) (hs : Wf s) : Wf t := by
  unfold execC16Srai at e
  with_reducible repeat' first | assumption | apply setC_wf | cases e
theorem execC16Nop_wf {s t} (e : execC16Nop s = .next t) (hs : Wf s) : Wf t := by
  unfold execC16Nop at e
  with_reducible repeat' first | assumption | apply advance_wf | cases e
theorem jump_wf {s x1 x2} (hs : Wf s) : Wf (State.jump s x1 x2) := by
  unfold State.jump
  with_reducible repeat' first | assumption | apply goto_wf
theorem branchC_wf {s x1 x2} (hs : Wf s) : Wf (State.branchC s x1 x2) := by
  unfold State.branchC
  cases State.targetPark s x1 <;> dsimp only
  repeat' first | (with_reducible assumption) | (with_reducible apply parkAt_wf) | (with_reducible apply jump_wf) | (with_reducible apply setRs_wf) | split
theorem execCBeqz_wf {x0 x1 s t} (e : execCBeqz x0 x1 s = .next t) (hs : Wf s) : Wf t := by
  unfold execCBeqz at e
  with_reducible repeat' first | assumption | apply branchC_wf | apply advance_wf | split | cases e
theorem execCBnez_wf {x0 x1 s t} (e : execCBnez x0 x1 s = .next t) (hs : Wf s) : Wf t := by
  unfold execCBnez at e
  with_reducible repeat' first | assumption | apply branchC_wf | apply advance_wf | split | cases e
theorem execCBltz_wf {x0 x1 s t} (e : execCBltz x0 x1 s = .next t) (hs : Wf s) : Wf t := by
  unfold execCBltz at e
  with_reducible repeat' first | assumption | apply branchC_wf | apply advance_wf | split | cases e
theorem execCBgez_wf {x0 x1 s t} (e : execCBgez x0 x1 s = .next t) (hs : Wf s) : Wf t := by
  unfold execCBgez at e
  with_reducible repeat' first | assumption | apply branchC_wf | apply advance_wf | split | cases e
theorem execCBlez_wf {x0 x1 s t} (e : execCBlez x0 x1 s = .next t) (hs : Wf s) : Wf t := by
  unfold execCBlez at e
  with_reducible repeat' first | assumption | apply branchC_wf | apply advance_wf | split | cases e
theorem execCBgtz_wf {x0 x1 s t} (e : execCBgtz x0 x1 s = .next t) (hs : Wf s) : Wf t := by
  unfold execCBgtz at e
  with_reducible repeat' first | assumption | apply branchC_wf | apply advance_wf | split | cases e
theorem execABeqz_wf {x0 x1 s t} (e : execABeqz x0 x1 s = .next t) (hs : Wf s) : Wf t := by
  unfold execABeqz at e
  with_reducible repeat' first | assumption | apply jump_wf | apply advance_wf | split | cases e
theorem execABnez_wf {x0 x1 s t} (e : execABnez x0 x1 s = .next t) (hs : Wf s) : Wf t := by
  unfold execABnez at e
  with_reducible repeat' first | assumption | apply jump_wf | apply advance_wf | split | cases e
theorem execABltz_wf {x0 x1 s t} (e : execABltz x0 x1 s = .next t) (hs : Wf s) : Wf t := by
  unfold execABltz at e
  with_reducible repeat' first | assumption | apply jump_wf | apply advance_wf | split | cases e
theorem execABgez_wf {x0 x1 s t} (e : execABgez x0 x1 s = .next t) (hs : Wf s) : Wf t := by
  unfold execABgez at e
  with_reducible repeat' first | assumption | apply jump_wf | apply advance_wf | split | cases e
theorem execABlez_wf {x0 x1 s t} (e : execABlez x0 x1 s = .next t) (hs : Wf s) : Wf t := by
  unfold execABlez at e
  with_reducible repeat' first | assumption | apply jump_wf | apply advance_wf | split | cases e
theorem execABgtz_wf {x0 x1 s t} (e : execABgtz x0 x1 s = .next t) (hs : Wf s) : Wf t := by
  unfold execABgtz at e
  with_reducible repeat' first | assumption | apply jump_wf | apply advance_wf | split | cases e
theorem execCJmp_wf {x0 s t} (e : execCJmp x0 s = .next t) (hs : Wf s) : Wf t := by
  unfold execCJmp at e
  with_reducible repeat' first | assumption | apply branchC_wf | cases e
theorem execAJmp_wf {x0 s t} (e : execAJmp x0 s = .next t) (hs : Wf s) : Wf t := by
  unfold execAJmp at e
  with_reducible repeat' first | assumption | apply jump_wf | cases e
theorem execCall_wf {x0 s t} (e : execCall x0 s = .next t) (hs : Wf s) : Wf t := by
  unfold execCall at e
  with_reducible repeat' first | assumption | apply branchC_wf | cases e
theorem indirect_wf {s x1 x2} (hs : Wf s) : Wf (State.indirect s x1 x2) := by
  unfold State.indirect
  with_reducible repeat' first | assumption | apply trapC_wf | refine xlate_wf (by assumption) ?_ | refine xlateRange_wf (by assumption) ?_ | apply branchC_wf | apply wf_ite | split
theorem execJr_wf {x0 s t} (e : execJr x0 s = .next t) (hs : Wf s) : Wf t := by
  unfold execJr at e
  with_reducible repeat' first | assumption | apply indirect_wf | cases e
theorem execCallr_wf {x0 s t} (e : execCallr x0 s = .next t) (hs : Wf s) : Wf t := by
  unfold execCallr at e
  with_reducible repeat' first | assumption | apply indirect_wf | cases e
theorem execAAdd_wf {x0 x1 x2 s t} (e : execAAdd x0 x1 x2 s = .next t) (hs : Wf s) : Wf t := by
  unfold execAAdd at e
  with_reducible repeat' first | assumption | apply setA_wf | cases e
theorem execASub_wf {x0 x1 x2 s t} (e : execASub x0 x1 x2 s = .next t) (hs : Wf s) : Wf t := by
  unfold execASub at e
  with_reducible repeat' first | assumption | apply setA_wf | cases e
theorem execAAnd_wf {x0 x1 x2 s t} (e : execAAnd x0 x1 x2 s = .next t) (hs : Wf s) : Wf t := by
  unfold execAAnd at e
  with_reducible repeat' first | assumption | apply setA_wf | cases e
theorem execAOr_wf {x0 x1 x2 s t} (e : execAOr x0 x1 x2 s = .next t) (hs : Wf s) : Wf t := by
  unfold execAOr at e
  with_reducible repeat' first | assumption | apply setA_wf | cases e
theorem execAXor_wf {x0 x1 x2 s t} (e : execAXor x0 x1 x2 s = .next t) (hs : Wf s) : Wf t := by
  unfold execAXor at e
  with_reducible repeat' first | assumption | apply setA_wf | cases e
theorem execAShl_wf {x0 x1 x2 s t} (e : execAShl x0 x1 x2 s = .next t) (hs : Wf s) : Wf t := by
  unfold execAShl at e
  with_reducible repeat' first | assumption | apply setA_wf | cases e
theorem execAShr_wf {x0 x1 x2 s t} (e : execAShr x0 x1 x2 s = .next t) (hs : Wf s) : Wf t := by
  unfold execAShr at e
  with_reducible repeat' first | assumption | apply setA_wf | cases e
theorem execASra_wf {x0 x1 x2 s t} (e : execASra x0 x1 x2 s = .next t) (hs : Wf s) : Wf t := by
  unfold execASra at e
  with_reducible repeat' first | assumption | apply setA_wf | cases e
theorem execAMul_wf {x0 x1 x2 s t} (e : execAMul x0 x1 x2 s = .next t) (hs : Wf s) : Wf t := by
  unfold execAMul at e
  with_reducible repeat' first | assumption | apply setA_wf | cases e
theorem execAMin_wf {x0 x1 x2 s t} (e : execAMin x0 x1 x2 s = .next t) (hs : Wf s) : Wf t := by
  unfold execAMin at e
  with_reducible repeat' first | assumption | apply setA_wf | cases e
theorem execAMax_wf {x0 x1 x2 s t} (e : execAMax x0 x1 x2 s = .next t) (hs : Wf s) : Wf t := by
  unfold execAMax at e
  with_reducible repeat' first | assumption | apply setA_wf | cases e
theorem execASlt_wf {x0 x1 x2 s t} (e : execASlt x0 x1 x2 s = .next t) (hs : Wf s) : Wf t := by
  unfold execASlt at e
  with_reducible repeat' first | assumption | apply setA_wf | cases e
theorem execASltu_wf {x0 x1 x2 s t} (e : execASltu x0 x1 x2 s = .next t) (hs : Wf s) : Wf t := by
  unfold execASltu at e
  with_reducible repeat' first | assumption | apply setA_wf | cases e
theorem execAAddi_wf {x0 x1 x2 s t} (e : execAAddi x0 x1 x2 s = .next t) (hs : Wf s) : Wf t := by
  unfold execAAddi at e
  with_reducible repeat' first | assumption | apply setA_wf | cases e
theorem execALiz_wf {x0 x1 x2 s t} (e : execALiz x0 x1 x2 s = .next t) (hs : Wf s) : Wf t := by
  unfold execALiz at e
  with_reducible repeat' first | assumption | apply setA_wf | cases e
theorem execALik_wf {x0 x1 x2 s t} (e : execALik x0 x1 x2 s = .next t) (hs : Wf s) : Wf t := by
  unfold execALik at e
  with_reducible repeat' first | assumption | apply setA_wf | cases e
theorem execAShli_wf {x0 x1 x2 s t} (e : execAShli x0 x1 x2 s = .next t) (hs : Wf s) : Wf t := by
  unfold execAShli at e
  with_reducible repeat' first | assumption | apply setA_wf | cases e
theorem execAShri_wf {x0 x1 x2 s t} (e : execAShri x0 x1 x2 s = .next t) (hs : Wf s) : Wf t := by
  unfold execAShri at e
  with_reducible repeat' first | assumption | apply setA_wf | cases e
theorem execASrai_wf {x0 x1 x2 s t} (e : execASrai x0 x1 x2 s = .next t) (hs : Wf s) : Wf t := by
  unfold execASrai at e
  with_reducible repeat' first | assumption | apply setA_wf | cases e
theorem execCset_wf {x0 x1 x2 x3 s t} (e : execCset x0 x1 x2 x3 s = .next t) (hs : Wf s) : Wf t := by
  unfold execCset at e
  with_reducible repeat' first | assumption | apply setA_wf | cases e
theorem execA16Add_wf {x0 x1 s t} (e : execA16Add x0 x1 s = .next t) (hs : Wf s) : Wf t := by
  unfold execA16Add at e
  with_reducible repeat' first | assumption | apply setA_wf | cases e
theorem execA16Sub_wf {x0 x1 s t} (e : execA16Sub x0 x1 s = .next t) (hs : Wf s) : Wf t := by
  unfold execA16Sub at e
  with_reducible repeat' first | assumption | apply setA_wf | cases e
theorem execA16Addi_wf {x0 x1 s t} (e : execA16Addi x0 x1 s = .next t) (hs : Wf s) : Wf t := by
  unfold execA16Addi at e
  with_reducible repeat' first | assumption | apply setA_wf | cases e
theorem execA16Mov_wf {x0 x1 s t} (e : execA16Mov x0 x1 s = .next t) (hs : Wf s) : Wf t := by
  unfold execA16Mov at e
  with_reducible repeat' first | assumption | apply setA_wf | cases e
theorem execA16Shli_wf {x0 x1 s t} (e : execA16Shli x0 x1 s = .next t) (hs : Wf s) : Wf t := by
  unfold execA16Shli at e
  with_reducible repeat' first | assumption | apply setA_wf | cases e
theorem execA16Liz_wf {x0 x1 s t} (e : execA16Liz x0 x1 s = .next t) (hs : Wf s) : Wf t := by
  unfold execA16Liz at e
  with_reducible repeat' first | assumption | apply setA_wf | cases e
theorem execA16Nop_wf {s t} (e : execA16Nop s = .next t) (hs : Wf s) : Wf t := by
  unfold execA16Nop at e
  with_reducible repeat' first | assumption | apply advance_wf | cases e
theorem outOfRange_wf {s x1 r t} (e : State.outOfRange s x1 = (r, t)) (hs : Wf s) : Wf t := by
  unfold State.outOfRange at e
  with_reducible repeat' first | assumption | refine xlate_wf (by assumption) ?_ | split at e | cases e
theorem access_wf {s x1 x2 x3 x4 r t} (e : State.access s x1 x2 x3 x4 = (r, t)) (hs : Wf s) : Wf t := by
  unfold State.access at e
  try dsimp only at e
  with_reducible repeat' first | assumption | refine outOfRange_wf (by assumption) ?_ | refine xlateRange_wf (by assumption) ?_ | split at e | cases e
theorem access_wf2 {s x1 x2 x3 x4} (hs : Wf s) : Wf (State.access s x1 x2 x3 x4).2 := access_wf eta2 hs
theorem withAccess_wf {s x1 x2 x3 x4 x5 k6} (hs : Wf s) (hk6 : ∀ u0 u1, Wf u1 → Wf (k6 u0 u1)) : Wf (State.withAccess s x1 x2 x3 x4 x5 k6) := by
  unfold State.withAccess
  have h := access_wf2 (s := s) (x1 := x2) (x2 := x3) (x3 := x4) (x4 := x5) hs
  generalize State.access s x2 x3 x4 x5 = p at h ⊢
  rcases p with ⟨_ | _ | _, t⟩ <;> dsimp only at h ⊢
  repeat' first | (with_reducible assumption) | (with_reducible apply hk6) | (with_reducible apply trapW_wf) | (with_reducible apply parkAt_wf)
theorem withCw_wf {s x1 x2 x3 x4 k5} (hs : Wf s) (hk5 : ∀ u0, Wf (k5 u0)) : Wf (State.withCw s x1 x2 x3 x4 k5) := by
  unfold State.withCw
  with_reducible repeat' first | assumption | apply hk5 | apply trapC_wf | split
theorem issueAcc_wf {s x1 x2 x3 x4 x5} (hs : Wf s) : Wf (State.issueAcc s x1 x2 x3 x4 x5) := by
  unfold State.issueAcc
  with_reducible repeat' first | assumption | apply onJob_wf | apply mem_wf | apply mk_wf
theorem loadC_wf {s x1 x2 x3 x4 x5} (hs : Wf s) : Wf (State.loadC s x1 x2 x3 x4 x5) := by
  unfold State.loadC
  with_reducible repeat' first | assumption | intro _ | apply withCw_wf | apply advance_wf | apply issueAcc_wf | split
theorem storeC_wf {s x1 x2 x3 x4} (hs : Wf s) : Wf (State.storeC s x1 x2 x3 x4) := by
  unfold State.storeC
  with_reducible repeat' first | assumption | intro _ | apply withCw_wf | apply advance_wf | apply issueAcc_wf | split
theorem atomicC_wf {s x1 x2 x3 x4 x5} (hs : Wf s) : Wf (State.atomicC s x1 x2 x3 x4 x5) := by
  unfold State.atomicC
  with_reducible repeat' first | assumption | intro _ | apply withCw_wf | apply advance_wf | apply issueAcc_wf | split
theorem execCLdb_wf {x0 x1 x2 s t} (e : execCLdb x0 x1 x2 s = .next t) (hs : Wf s) : Wf t := by
  unfold execCLdb at e
  with_reducible repeat' first | assumption | apply loadC_wf | cases e
theorem execCLdbu_wf {x0 x1 x2 s t} (e : execCLdbu x0 x1 x2 s = .next t) (hs : Wf s) : Wf t := by
  unfold execCLdbu at e
  with_reducible repeat' first | assumption | apply loadC_wf | cases e
theorem execCLdh_wf {x0 x1 x2 s t} (e : execCLdh x0 x1 x2 s = .next t) (hs : Wf s) : Wf t := by
  unfold execCLdh at e
  with_reducible repeat' first | assumption | apply loadC_wf | cases e
theorem execCLdhu_wf {x0 x1 x2 s t} (e : execCLdhu x0 x1 x2 s = .next t) (hs : Wf s) : Wf t := by
  unfold execCLdhu at e
  with_reducible repeat' first | assumption | apply loadC_wf | cases e
theorem execCLdw_wf {x0 x1 x2 s t} (e : execCLdw x0 x1 x2 s = .next t) (hs : Wf s) : Wf t := by
  unfold execCLdw at e
  with_reducible repeat' first | assumption | apply loadC_wf | cases e
theorem execCLdwu_wf {x0 x1 x2 s t} (e : execCLdwu x0 x1 x2 s = .next t) (hs : Wf s) : Wf t := by
  unfold execCLdwu at e
  with_reducible repeat' first | assumption | apply loadC_wf | cases e
theorem execCLdd_wf {x0 x1 x2 s t} (e : execCLdd x0 x1 x2 s = .next t) (hs : Wf s) : Wf t := by
  unfold execCLdd at e
  with_reducible repeat' first | assumption | apply loadC_wf | cases e
theorem execC16Ldd_wf {x0 x1 s t} (e : execC16Ldd x0 x1 s = .next t) (hs : Wf s) : Wf t := by
  unfold execC16Ldd at e
  with_reducible repeat' first | assumption | apply loadC_wf | cases e
theorem execCStb_wf {x0 x1 x2 s t} (e : execCStb x0 x1 x2 s = .next t) (hs : Wf s) : Wf t := by
  unfold execCStb at e
  with_reducible repeat' first | assumption | apply storeC_wf | cases e
theorem execCSth_wf {x0 x1 x2 s t} (e : execCSth x0 x1 x2 s = .next t) (hs : Wf s) : Wf t := by
  unfold execCSth at e
  with_reducible repeat' first | assumption | apply storeC_wf | cases e
theorem execCStw_wf {x0 x1 x2 s t} (e : execCStw x0 x1 x2 s = .next t) (hs : Wf s) : Wf t := by
  unfold execCStw at e
  with_reducible repeat' first | assumption | apply storeC_wf | cases e
theorem execCStd_wf {x0 x1 x2 s t} (e : execCStd x0 x1 x2 s = .next t) (hs : Wf s) : Wf t := by
  unfold execCStd at e
  with_reducible repeat' first | assumption | apply storeC_wf | cases e
theorem execC16Std_wf {x0 x1 s t} (e : execC16Std x0 x1 s = .next t) (hs : Wf s) : Wf t := by
  unfold execC16Std at e
  with_reducible repeat' first | assumption | apply storeC_wf | cases e
theorem execAtadd_wf {x0 x1 x2 x3 s t} (e : execAtadd x0 x1 x2 x3 s = .next t) (hs : Wf s) : Wf t := by
  unfold execAtadd at e
  with_reducible repeat' first | assumption | apply atomicC_wf | cases e
theorem execAtswp_wf {x0 x1 x2 x3 s t} (e : execAtswp x0 x1 x2 x3 s = .next t) (hs : Wf s) : Wf t := by
  unfold execAtswp at e
  with_reducible repeat' first | assumption | apply atomicC_wf | cases e
theorem execAtcas_wf {x0 x1 x2 x3 s t} (e : execAtcas x0 x1 x2 x3 s = .next t) (hs : Wf s) : Wf t := by
  unfold execAtcas at e
  with_reducible repeat' first | assumption | apply atomicC_wf | cases e
theorem execAtmin_wf {x0 x1 x2 x3 s t} (e : execAtmin x0 x1 x2 x3 s = .next t) (hs : Wf s) : Wf t := by
  unfold execAtmin at e
  with_reducible repeat' first | assumption | apply atomicC_wf | cases e
theorem execAtmax_wf {x0 x1 x2 x3 s t} (e : execAtmax x0 x1 x2 x3 s = .next t) (hs : Wf s) : Wf t := by
  unfold execAtmax at e
  with_reducible repeat' first | assumption | apply atomicC_wf | cases e
theorem execAtminu_wf {x0 x1 x2 x3 s t} (e : execAtminu x0 x1 x2 x3 s = .next t) (hs : Wf s) : Wf t := by
  unfold execAtminu at e
  with_reducible repeat' first | assumption | apply atomicC_wf | cases e
theorem execAtmaxu_wf {x0 x1 x2 x3 s t} (e : execAtmaxu x0 x1 x2 x3 s = .next t) (hs : Wf s) : Wf t := by
  unfold execAtmaxu at e
  with_reducible repeat' first | assumption | apply atomicC_wf | cases e
theorem execArm_wf {x0 s t} (e : execArm x0 s = .next t) (hs : Wf s) : Wf t := by
  unfold execArm at e
  with_reducible repeat' first | assumption | intro _ | apply withCw_wf | apply advance_wf | apply issueAcc_wf | split | cases e
theorem execWaite_wf {s t} (e : execWaite s = .next t) (hs : Wf s) : Wf t := by
  unfold execWaite at e
  with_reducible repeat' first | assumption | apply advance_wf | apply waitC_wf | split | cases e
theorem execWaiteWake_wf {s t} (e : execWaiteWake s = .next t) (hs : Wf s) : Wf t := by
  unfold execWaiteWake at e
  with_reducible repeat' first | assumption | refine when_wf (by assumption) ?_ ?_ | apply advance_wf | cases e
theorem releaseC_wf {s x1 k2} (hs : Wf s) (hk2 : ∀ u0, Wf u0 → Wf (k2 u0)) : Wf (State.releaseC s x1 k2) := by
  unfold State.releaseC
  with_reducible repeat' first | assumption | apply hk2 | refine lostTrap_wf (by assumption) ?_ | apply released_wf | apply ntFlush_wf | split
theorem withObj_wf {s x1 x2 x3 k4} (hs : Wf s) (hk4 : ∀ u0 u1, Wf u1 → Wf (k4 u0 u1)) : Wf (State.withObj s x1 x2 x3 k4) := by
  unfold State.withObj
  with_reducible repeat' first | assumption | intro _ | apply hk4 | apply withAccess_wf | apply withCw_wf | split
theorem execAcq_wf {x0 x1 x2 x3 s t} (e : execAcq x0 x1 x2 x3 s = .next t) (hs : Wf s) : Wf t := by
  unfold execAcq at e
  with_reducible repeat' first | assumption | intro _ | apply withObj_wf | apply advance_wf | apply issueAcc_wf | split | cases e
theorem relStore_wf {s x1 x2 x3 x4} (hs : Wf s) : Wf (State.relStore s x1 x2 x3 x4) := by
  unfold State.relStore
  with_reducible repeat' first | assumption | refine lostTrap_wf (by assumption) ?_ | apply released_wf | apply advance_wf | apply issueAcc_wf | split
theorem execRel_wf {x0 x1 x2 x3 s t} (e : execRel x0 x1 x2 x3 s = .next t) (hs : Wf s) : Wf t := by
  unfold execRel at e
  with_reducible repeat' first | assumption | intro _ | apply withObj_wf | apply relStore_wf | cases e
theorem fenceC_wf {s x1 k2} (hs : Wf s) (hk2 : ∀ u0, Wf u0 → Wf (k2 u0)) : Wf (State.fenceC s x1 k2) := by
  unfold State.fenceC
  with_reducible repeat' first | assumption | apply hk2 | refine lostTrap_wf (by assumption) ?_ | apply ntFlush_wf | split
theorem execFence_wf {x0 s t} (e : execFence x0 s = .next t) (hs : Wf s) : Wf t := by
  unfold execFence at e
  with_reducible repeat' first | assumption | intro _ | apply fenceC_wf | apply advance_wf | cases e
theorem execFenceFlagged_wf {x0 x1 x2 x3 s t} (e : execFenceFlagged x0 x1 x2 x3 s = .next t) (hs : Wf s) : Wf t := by
  unfold execFenceFlagged at e
  with_reducible repeat' first | assumption | intro _ | apply withObj_wf | apply fenceC_wf | apply relStore_wf | cases e
theorem bindRange_wf {s x1 x2 x3 x4} (hs : Wf s) : Wf (State.bindRange s x1 x2 x3 x4) := by
  unfold State.bindRange
  dsimp only
  split
  · exact advance_wf (onJob_wf hs)
  generalize pageSplit _ _ _ = l
  generalize cwPieces s _ _ 193 = c
  split
  · have h := xlateRange_wf2 (s := s) (x1 := { none := true }) (x2 := x3) (x3 := x4) hs
    generalize State.xlateRange s { none := true } x3 x4 = p at h ⊢
    rcases p with ⟨_ | _ | _, t⟩ <;> dsimp only at h ⊢
    all_goals first | (exact advance_wf (onJob_wf h)) | (exact trapC_wf h) | (exact parkAt_wf h)
  repeat' first | (with_reducible assumption) | (with_reducible apply advance_wf) | (with_reducible apply onJob_wf) | (with_reducible apply trapC_wf) | split
theorem execBind_wf {x0 x1 x2 x3 s t} (e : execBind x0 x1 x2 x3 s = .next t) (hs : Wf s) : Wf t := by
  rw [execBind] at e
  injection e with e
  rw [← e]
  refine wf_ite (trapC_wf hs) ?_
  refine wf_ite ?_ (wf_ite (trapC_wf hs) (bindRange_wf hs))
  have h := xlateRange_wf2 (s := s) (x1 := { none := true }) (x2 := (s.rs x1).toInt) (x3 := 1) hs
  generalize State.xlateRange s { none := true } (s.rs x1).toInt 1 = p at h ⊢
  rcases p with ⟨_ | _ | _, t⟩ <;> dsimp only at h ⊢
  · split
    · exact bindRange_wf h
    · exact h
  · exact trapC_wf h
  · exact parkAt_wf h
theorem crrC_wf {s x1 x2} (hs : Wf s) : Wf (State.crrC s x1 x2) := by
  unfold State.crrC
  with_reducible repeat' first | assumption | apply ctlReadRc_wf2 | apply advance_wf | apply setRs_wf | apply trapC_wf | split
theorem crwC_wf {s x1 x2 k3} (hs : Wf s) (hk3 : ∀ u0, Wf (k3 u0)) : Wf (State.crwC s x1 x2 k3) := by
  unfold State.crwC
  with_reducible repeat' first | assumption | apply hk3 | apply trapC_wf | split
theorem crwTry_wf {s x1 x2} (hs : Wf s) (he : ∀ t, x1 = .ok t → Wf t) : Wf (State.crwTry s x1 x2) := by
  unfold State.crwTry
  split
  · exact advance_wf (he _ rfl)
  · exact trapC_wf hs
theorem execCrr_wf {x0 x1 s t} (e : execCrr x0 x1 s = .next t) (hs : Wf s) : Wf t := by
  unfold execCrr at e
  with_reducible repeat' first | assumption | apply crrC_wf | cases e
theorem execCrw_wf {x0 x1 s t} (e : execCrw x0 x1 s = .next t) (hs : Wf s) : Wf t := by
  unfold execCrw at e
  with_reducible repeat' first | assumption | intro _ | apply crwC_wf | apply advance_wf | apply ctlWrite_wf | cases e
theorem execScrcfgRead_wf {x0 s t} (e : execScrcfgRead x0 s = .next t) (hs : Wf s) : Wf t := by
  unfold execScrcfgRead at e
  with_reducible repeat' first | assumption | apply crrC_wf | cases e
theorem execDcnt_wf {x0 x1 s t} (e : execDcnt x0 x1 s = .next t) (hs : Wf s) : Wf t := by
  unfold execDcnt at e
  with_reducible repeat' first | assumption | apply crrC_wf | cases e
theorem execMswait_wf {x0 s t} (e : execMswait x0 s = .next t) (hs : Wf s) : Wf t := by
  unfold execMswait at e
  with_reducible repeat' first | assumption | intro _ | apply crwC_wf | apply advance_wf | apply onJob_wf | apply wf_ite | cases e
theorem execMssig_wf {x0 s t} (e : execMssig x0 s = .next t) (hs : Wf s) : Wf t := by
  unfold execMssig at e
  with_reducible repeat' first | assumption | intro _ | apply crwC_wf | apply releaseC_wf | apply advance_wf | apply onJob_wf | cases e
theorem execXevwait_wf {x0 s t} (e : execXevwait x0 s = .next t) (hs : Wf s) : Wf t := by
  unfold execXevwait at e
  with_reducible repeat' first | assumption | intro _ | apply crwC_wf | apply advance_wf | apply onCluster_wf | apply wf_ite | cases e
theorem execXevsig_wf {x0 s t} (e : execXevsig x0 s = .next t) (hs : Wf s) : Wf t := by
  unfold execXevsig at e
  with_reducible repeat' first | assumption | intro _ | apply crwC_wf | apply releaseC_wf | apply advance_wf | apply onCluster_wf | cases e
theorem execRago_wf {x0 s t} (e : execRago x0 s = .next t) (hs : Wf s) : Wf t := by
  unfold execRago at e
  with_reducible repeat' first | assumption | intro _ | apply crwC_wf | refine xlate_wf (by assumption) ?_ | apply trapC_wf | apply withAccess_wf | apply advance_wf | apply onJob_wf | apply inject_wf | apply wf_ite | split | cases e
theorem execRares_wf {x0 s t} (e : execRares x0 s = .next t) (hs : Wf s) : Wf t := by
  unfold execRares at e
  with_reducible repeat' first | assumption | apply trapC_wf | apply onJob_wf | apply advance_wf | apply setRs_wf | split | cases e
theorem popSq_wf {s x1 t} (e : State.popSq s x1 = some t) (hs : Wf s) : Wf t := by
  unfold State.popSq at e
  with_reducible repeat' first | assumption | apply advance_wf | apply setRs_wf | apply onJob_wf | split at e | cases e
theorem execSq_wf {x0 s t} (e : execSq x0 s = .next t) (hs : Wf s) : Wf t := by
  unfold execSq at e
  with_reducible repeat' first | assumption | intro _ | refine popSq_wf (by assumption) ?_ | apply waitC_wf | apply getD_wf | cases e
theorem execCnopen_wf {x0 s t} (e : execCnopen x0 s = .next t) (hs : Wf s) : Wf t := by
  unfold execCnopen at e
  with_reducible repeat' first | assumption | intro _ | apply crwC_wf | apply crwTry_wf | refine cnOpen_wf (by assumption) ?_ | cases e
theorem execCncur_wf {x0 s t} (e : execCncur x0 s = .next t) (hs : Wf s) : Wf t := by
  unfold execCncur at e
  with_reducible repeat' first | assumption | intro _ | apply crwC_wf | apply crwTry_wf | refine cnCur_wf (by assumption) ?_ | cases e
theorem execCnbind_wf {x0 s t} (e : execCnbind x0 s = .next t) (hs : Wf s) : Wf t := by
  unfold execCnbind at e
  with_reducible repeat' first | assumption | intro _ | apply crwC_wf | apply crwTry_wf | refine cnBind_wf (by assumption) ?_ | cases e
theorem execRqfin_wf {x0 s t} (e : execRqfin x0 s = .next t) (hs : Wf s) : Wf t := by
  unfold execRqfin at e
  with_reducible repeat' first | assumption | intro _ | apply crwC_wf | apply advance_wf | apply rqfin_wf | cases e
theorem execCqcfgWrite_wf {x0 s t} (e : execCqcfgWrite x0 s = .next t) (hs : Wf s) : Wf t := by
  unfold execCqcfgWrite at e
  with_reducible repeat' first | assumption | intro _ | apply crwC_wf | apply advance_wf | apply cqcfg_wf | cases e
theorem execRsttlenWrite_wf {x0 s t} (e : execRsttlenWrite x0 s = .next t) (hs : Wf s) : Wf t := by
  unfold execRsttlenWrite at e
  with_reducible repeat' first | assumption | intro _ | apply crwC_wf | apply advance_wf | apply rsttlen_wf | cases e
theorem execMdcfgWrite_wf {x0 s t} (e : execMdcfgWrite x0 s = .next t) (hs : Wf s) : Wf t := by
  unfold execMdcfgWrite at e
  with_reducible repeat' first | assumption | intro _ | apply crwC_wf | apply advance_wf | apply mdcfg_wf | cases e
theorem execKvcfgWrite_wf {x0 s t} (e : execKvcfgWrite x0 s = .next t) (hs : Wf s) : Wf t := by
  unfold execKvcfgWrite at e
  with_reducible repeat' first | assumption | intro _ | apply crwC_wf | apply advance_wf | apply kvcfg_wf | cases e
theorem execMnqCiWrite_wf {x0 s t} (e : execMnqCiWrite x0 s = .next t) (hs : Wf s) : Wf t := by
  unfold execMnqCiWrite at e
  with_reducible repeat' first | assumption | intro _ | apply crwC_wf | apply advance_wf | apply mnqCi_wf | cases e
theorem execWload_wf {x0 s t} (e : execWload x0 s = .next t) (hs : Wf s) : Wf t := by
  unfold execWload at e
  with_reducible repeat' first | assumption | intro _ | apply crwC_wf | apply advance_wf | apply wload_wf | cases e
theorem execTherm_wf {x0 s t} (e : execTherm x0 s = .next t) (hs : Wf s) : Wf t := by
  unfold execTherm at e
  with_reducible repeat' first | assumption | intro _ | apply crwC_wf | apply advance_wf | apply therm_wf | cases e
theorem execTrap_wf {x0 s t} (e : execTrap x0 s = .next t) (hs : Wf s) : Wf t := by
  unfold execTrap at e
  with_reducible repeat' first | assumption | apply trapC_wf | cases e
theorem supC_wf {s x1} (hs : Wf s) (hx1 : Wf x1) : Wf (State.supC s x1) := by
  unfold State.supC
  with_reducible repeat' first | assumption | apply trapC_wf | split
theorem tlbDrop_wf {s x1} (hs : Wf s) : Wf (State.tlbDrop s x1) := by
  unfold State.tlbDrop
  with_reducible repeat' first | assumption | apply onDie_wf | apply onCore_wf
theorem execTlbiPage_wf {x0 s t} (e : execTlbiPage x0 s = .next t) (hs : Wf s) : Wf t := by
  unfold execTlbiPage at e
  with_reducible repeat' first | assumption | apply supC_wf | apply advance_wf | apply tlbDrop_wf | cases e
theorem execTlbiAsid_wf {x0 s t} (e : execTlbiAsid x0 s = .next t) (hs : Wf s) : Wf t := by
  unfold execTlbiAsid at e
  with_reducible repeat' first | assumption | apply supC_wf | apply advance_wf | apply tlbDrop_wf | cases e
theorem execTlbiAll_wf {x0 s t} (e : execTlbiAll x0 s = .next t) (hs : Wf s) : Wf t := by
  unfold execTlbiAll at e
  with_reducible repeat' first | assumption | apply supC_wf | apply advance_wf | apply tlbDrop_wf | cases e
theorem endWaits_wf {s k1} (hs : Wf s) (hk1 : ∀ u0, Wf u0 → Wf (k1 u0)) : Wf (State.endWaits s k1) := by
  unfold State.endWaits
  with_reducible repeat' first | assumption | apply hk1 | refine lostTrap_wf (by assumption) ?_ | split
theorem eret_wf {s x1} (hs : Wf s) : Wf (State.eret s x1) := by
  unfold State.eret
  refine supC_wf hs ?_
  split
  · exact trapC_wf hs
  split
  · exact trapC_wf hs
  · exact endWaits_wf hs fun s hs => wf_ite (endJoins_wf hs fun s hs => onCore_wf (resume_wf (endJob_wf (exitJoins_wf (released_wf hs))))) hs
theorem execEretReturn_wf {s t} (e : execEretReturn s = .next t) (hs : Wf s) : Wf t := by
  unfold execEretReturn at e
  with_reducible repeat' first | assumption | apply eret_wf | cases e
theorem execEretResume_wf {s t} (e : execEretResume s = .next t) (hs : Wf s) : Wf t := by
  unfold execEretResume at e
  with_reducible repeat' first | assumption | apply eret_wf | cases e

end Sys2Proof.Machine
end

