-- ==== Sys2Proof/Laws/WfCore.lean ====
section
/-!
SUPPORT. Every operation keeps memory in its canonical form: jobs, the V- and A-streams and the matrix engine. X_wf is about X; X_wf2 about the state of a pair.
-/
set_option linter.unusedVariables false
namespace Sys2Proof.Machine

theorem putHeader_wf {s x1 x2 x3} (hs : Wf s) : Wf (State.putHeader s x1 x2 x3) := by
  unfold State.putHeader
  with_reducible repeat' first | assumption | intro _ | apply store_wf | apply wf_ite | apply each_wf
theorem ring_wf {s x1 x2 x3 x4 x5 x6} (hs : Wf s) : Wf (State.ring s x1 x2 x3 x4 x5 x6) := by
  unfold State.ring
  with_reducible repeat' first | assumption | intro _ | apply withCw_wf | refine readMem_wf (by assumption) ?_ | apply discardJob_wf | apply trapC_wf | apply waitC_wf | apply putHeader_wf | apply advance_wf | apply setRs_wf | apply releaseC_wf | split
theorem execRinit_wf {x0 x1 s t} (e : execRinit x0 x1 s = .next t) (hs : Wf s) : Wf t := by
  unfold execRinit at e
  with_reducible repeat' first | assumption | intro _ | apply withCw_wf | apply trapC_wf | apply advance_wf | apply store_wf | apply wf_ite | cases e
theorem execRclaim_wf {x0 x1 s t} (e : execRclaim x0 x1 s = .next t) (hs : Wf s) : Wf t := by
  unfold execRclaim at e
  with_reducible repeat' first | assumption | apply ring_wf | cases e
theorem execRpub_wf {x0 x1 s t} (e : execRpub x0 x1 s = .next t) (hs : Wf s) : Wf t := by
  unfold execRpub at e
  with_reducible repeat' first | assumption | apply ring_wf | cases e
theorem execRwfill_wf {x0 x1 s t} (e : execRwfill x0 x1 s = .next t) (hs : Wf s) : Wf t := by
  unfold execRwfill at e
  with_reducible repeat' first | assumption | apply ring_wf | cases e
theorem execRtake_wf {x0 x1 x2 s t} (e : execRtake x0 x1 x2 s = .next t) (hs : Wf s) : Wf t := by
  unfold execRtake at e
  with_reducible repeat' first | assumption | apply ring_wf | cases e
theorem execRwfree_wf {x0 x1 s t} (e : execRwfree x0 x1 s = .next t) (hs : Wf s) : Wf t := by
  unfold execRwfree at e
  with_reducible repeat' first | assumption | apply ring_wf | cases e
theorem execReos_wf {x0 s t} (e : execReos x0 s = .next t) (hs : Wf s) : Wf t := by
  unfold execReos at e
  with_reducible repeat' first | assumption | apply ring_wf | cases e
theorem execRingWaitComplete_wf {s t} (e : execRingWaitComplete s = .next t) (hs : Wf s) : Wf t := by
  unfold execRingWaitComplete at e
  with_reducible repeat' first | assumption | apply ring_wf | split | cases e
theorem execSpawn_wf {x0 s t} (e : execSpawn x0 s = .next t) (hs : Wf s) : Wf t := by
  unfold execSpawn at e
  with_reducible repeat' first | assumption | intro _ | apply withCw_wf | refine readMem_wf (by assumption) ?_ | apply discardJob_wf | apply trapC_wf | apply releaseC_wf | apply metBad_wf | apply incJoin_wf | apply advance_wf | apply enqueue_wf | apply elim_wf | apply mem_wf | split | cases e | apply mk_wf
theorem execJoin_wf {x0 x1 s t} (e : execJoin x0 x1 s = .next t) (hs : Wf s) : Wf t := by
  unfold execJoin at e
  with_reducible repeat' first | assumption | apply trapC_wf | refine readMem_wf (by assumption) ?_ | apply discardJob_wf | apply advance_wf | apply store_wf | apply store64_wf | split | cases e
theorem execRdv_wf {s t} (e : execRdv s = .next t) (hs : Wf s) : Wf t := by
  unfold execRdv at e
  with_reducible repeat' first | assumption | apply waitC_wf | cases e
theorem rdvDone_wf {s} (hs : Wf s) : Wf (State.rdvDone s) := by
  unfold State.rdvDone
  with_reducible repeat' first | assumption | apply advance_wf | apply onJob_wf
theorem execRdvComplete_wf {s t} (e : execRdvComplete s = .next t) (hs : Wf s) : Wf t := by
  unfold execRdvComplete at e
  with_reducible repeat' first | assumption | refine when_wf (by assumption) ?_ ?_ | apply rdvDone_wf | cases e
theorem execExit_wf {x0 s t} (e : execExit x0 s = .next t) (hs : Wf s) : Wf t := by
  unfold execExit at e
  with_reducible repeat' first | assumption | intro _ | apply trapC_wf | apply endWaits_wf | apply waitC_wf | split | cases e
theorem execExitEnd_wf {s t} (e : execExitEnd s = .next t) (hs : Wf s) : Wf t := by
  rw [execExitEnd] at e
  injection e with e
  subst e
  split
  · exact wf_ite (endWaits_wf hs fun s hs => endJoins_wf hs fun s hs => endJob_wf (exitJoins_wf (released_wf hs))) hs
  · exact hs
theorem execYield_wf {x0 s t} (e : execYield x0 s = .next t) (hs : Wf s) : Wf t := by
  unfold execYield at e
  with_reducible repeat' first | assumption | intro _ | apply trapC_wf | apply endWaits_wf | apply waitC_wf | split | cases e
theorem execYieldEnd_wf {s t} (e : execYieldEnd s = .next t) (hs : Wf s) : Wf t := by
  unfold execYieldEnd at e
  with_reducible repeat' first | assumption | intro _ | apply endWaits_wf | apply released_wf | apply recErr_wf | apply enqueue_wf | apply endJob_wf | apply wf_ite | split | cases e
theorem segwTry_wf {s x1 x2 x3 t} (e : State.segwTry s x1 x2 x3 = some t) (hs : Wf s) : Wf t := by
  unfold State.segwTry at e
  cases h : matchFrame (s.dieAt s.here.die) ((s.rs x2).setWidth 32) ((s.rs x3).setWidth 32) <;> rw [h] at e <;> simp only [Option.map_none, Option.map_some, reduceCtorEq, Option.some.injEq] at e
  subst e
  exact advance_wf (setRs_wf hs)
theorem execSegw_wf {x0 x1 x2 s t} (e : execSegw x0 x1 x2 s = .next t) (hs : Wf s) : Wf t := by
  unfold execSegw at e
  with_reducible repeat' first | assumption | intro _ | refine segwTry_wf (by assumption) ?_ | apply waitC_wf | apply getD_wf | cases e
theorem execSegwComplete_wf {s t} (e : execSegwComplete s = .next t) (hs : Wf s) : Wf t := by
  unfold execSegwComplete at e
  with_reducible repeat' first | assumption | intro _ | refine segwTry_wf (by assumption) ?_ | apply getD_wf | split | cases e
theorem pruneLevel_wf {s x1 x2 x3} (hs : Wf s) : Wf (State.pruneLevel s x1 x2 x3) := by
  induction x3 generalizing s x1 x2 with
  | zero =>
    unfold State.pruneLevel
    try dsimp only
    repeat' first | (with_reducible assumption) | (with_reducible intro _) | (with_reducible apply recErr_wf) | (with_reducible apply unqueue_wf) | (with_reducible apply wf_ite) | (with_reducible apply elim_wf) | (with_reducible apply mem_wf) | (with_reducible apply each_wf) | (with_reducible apply getD_wf) | (with_reducible apply wf_memPut) | (with_reducible apply foldl_memPut_wf) | (with_reducible apply wf_filter) | (split) | (dsimp only) | (with_reducible apply mk_wf)
  | succ y ih =>
    unfold State.pruneLevel
    try dsimp only
    repeat' first | (with_reducible assumption) | (with_reducible intro _) | (with_reducible apply ih) | (with_reducible apply recErr_wf) | (with_reducible apply unqueue_wf) | (with_reducible apply wf_ite) | (with_reducible apply elim_wf) | (with_reducible apply mem_wf) | (with_reducible apply each_wf) | (with_reducible apply getD_wf) | (with_reducible apply wf_memPut) | (with_reducible apply foldl_memPut_wf) | (with_reducible apply wf_filter) | (split) | (dsimp only) | (with_reducible apply mk_wf)
theorem prune_wf {s x1} (hs : Wf s) : Wf (State.prune s x1) := by
  unfold State.prune
  with_reducible repeat' first | assumption | intro _ | apply pruneLevel_wf | apply each_wf
theorem takeRec_wf {s} (hs : Wf s) : Wf (State.takeRec s) := by
  unfold State.takeRec
  with_reducible repeat' first | assumption | intro _ | apply startRec_wf | apply unqueue_wf | apply elim_wf | split
theorem execJobTake_wf {s t} (e : execJobTake s = .next t) (hs : Wf s) : Wf t := by
  rw [execJobTake] at e
  injection e with e
  rw [← e]
  refine wf_ite (prune_wf hs) ?_
  split
  · with_reducible apply startRec_wf; with_reducible assumption
  · exact hs
  · with_reducible apply takeRec_wf; with_reducible apply prune_wf; with_reducible assumption
theorem execRecordPromotion_wf {s t} (e : execRecordPromotion s = .next t) (hs : Wf s) : Wf t := by
  unfold execRecordPromotion at e
  with_reducible repeat' first | assumption | apply pruneLevel_wf | apply enter_wf | apply unqueue_wf | split | cases e
theorem execHeldPushEntry_wf {s t} (e : execHeldPushEntry s = .next t) (hs : Wf s) : Wf t := by
  unfold execHeldPushEntry at e
  with_reducible repeat' first | assumption | apply enqueue_wf | apply onCluster_wf | split | cases e
theorem execRecordWindowStore_wf {s t} (e : execRecordWindowStore s = .next t) (hs : Wf s) : Wf t := by
  unfold execRecordWindowStore at e
  with_reducible repeat' first | assumption | refine when_wf (by assumption) ?_ ?_ | apply recordStore_wf | cases e
theorem execAdmissionWindowStore_wf {s t} (e : execAdmissionWindowStore s = .next t) (hs : Wf s) : Wf t := by
  unfold execAdmissionWindowStore at e
  with_reducible repeat' first | assumption | refine when_wf (by assumption) ?_ ?_ | apply admStore_wf | cases e
theorem execAdmissionHeldEntry_wf {s t} (e : execAdmissionHeldEntry s = .next t) (hs : Wf s) : Wf t := by
  unfold execAdmissionHeldEntry at e
  with_reducible repeat' first | assumption | apply admitRecord_wf | apply onDie_wf | split | cases e
theorem execAllocationWindowRead_wf {s t} (e : execAllocationWindowRead s = .next t) (hs : Wf s) : Wf t := by
  unfold execAllocationWindowRead at e
  with_reducible repeat' first | assumption | refine when_wf (by assumption) ?_ ?_ | apply alloc_wf2 | cases e
theorem launchFor_wf {s x1 x2 x3 x4} (hs : Wf s) : Wf (State.launchFor s x1 x2 x3 x4) := by
  unfold State.launchFor
  with_reducible repeat' first | assumption | apply recErr_wf | apply pushR_wf | apply preemptReq_wf | apply mem_wf | split | apply mk_wf
theorem execLaunchEntryFire_wf {s t} (e : execLaunchEntryFire s = .next t) (hs : Wf s) : Wf t := by
  unfold execLaunchEntryFire at e
  with_reducible repeat' first | assumption | intro _ | refine when_wf (by assumption) ?_ ?_ | apply err_wf | apply store64_wf | apply launchFor_wf | apply each_wf | split | cases e
theorem execPreempt_wf {s t} (e : execPreempt s = .next t) (hs : Wf s) : Wf t := by
  unfold execPreempt at e
  with_reducible repeat' first | assumption | apply preemptReq_wf | cases e
theorem execPreemptionFreeze_wf {s t} (e : execPreemptionFreeze s = .next t) (hs : Wf s) : Wf t := by
  unfold execPreemptionFreeze at e
  with_reducible repeat' first | assumption | refine when_wf (by assumption) ?_ ?_ | apply freeze_wf | cases e
theorem execEngineFaultDelivery_wf {s t} (e : execEngineFaultDelivery s = .next t) (hs : Wf s) : Wf t := by
  unfold execEngineFaultDelivery at e
  with_reducible repeat' first | assumption | apply trap_wf | split | cases e
theorem withCode_wf {s x1 x2 x3 k4} (hs : Wf s) (hk4 : ∀ u0 u1, Wf u1 → Wf (k4 u0 u1)) : Wf (State.withCode s x1 x2 x3 k4) := by
  unfold State.withCode
  have h := access_wf2 (s := s) (x1 := { x := true }) (x2 := x2) (x3 := x3) (x4 := 1) hs
  generalize State.access s { x := true } x2 x3 1 = p at h ⊢
  rcases p with ⟨_ | _ | _, t⟩ <;> dsimp only at h ⊢
  repeat' first | (with_reducible assumption) | (with_reducible apply trapSub_wf) | (with_reducible apply parkAt_wf) | split | (with_reducible apply discardJob_wf) | (with_reducible refine loadRuns_wf (by assumption) ?_) | (with_reducible apply hk4)
theorem fetchBlock_wf {s x1} (hs : Wf s) : Wf (State.fetchBlock s x1) := by
  unfold State.fetchBlock
  with_reducible repeat' first | assumption | intro _ | apply trapW_wf | apply withCode_wf | apply onBlk_wf | apply wf_ite
theorem fetchMore_wf {s x1} (hs : Wf s) : Wf (State.fetchMore s x1) := by
  unfold State.fetchMore
  with_reducible repeat' first | assumption | intro _ | apply withCode_wf | apply onBlk_wf
theorem execBlockFetch_wf {s t} (e : execBlockFetch s = .next t) (hs : Wf s) : Wf t := by
  unfold execBlockFetch at e
  with_reducible repeat' first | assumption | refine when_wf (by assumption) ?_ ?_ | apply fetchBlock_wf | cases e
theorem vPass_wf {s r t} (e : State.vPass s = (t, r)) (hs : Wf s) : Wf t := by
  unfold State.vPass at e
  try dsimp only at e
  with_reducible repeat' first | assumption | apply onJob_wf | apply trap_wf | split at e | cases e
theorem vEnd_wf {s} (hs : Wf s) : Wf (State.vEnd s) := by
  unfold State.vEnd
  with_reducible repeat' first | assumption | apply onJob_wf
theorem issueV_wf {s x1 x2} (hs : Wf s) : Wf (State.issueV s x1 x2) := by
  unfold State.issueV
  with_reducible repeat' first | assumption | apply advance_wf | apply onJob_wf
theorem issueV0_wf {s} (hs : Wf s) : Wf (State.issueV0 s) := by
  unfold State.issueV0
  with_reducible repeat' first | assumption | apply advance_wf | apply onJob_wf
theorem vMap_wf {s x1 x2 x3 x4 x5 x6} (hs : Wf s) : Wf (State.vMap s x1 x2 x3 x4 x5 x6) := by
  unfold State.vMap
  with_reducible repeat' first | assumption | apply issueV_wf
theorem vMapK_wf {s x1 x2 x3 x4 x5 x6 x7} (hs : Wf s) : Wf (State.vMapK s x1 x2 x3 x4 x5 x6 x7) := by
  unfold State.vMapK
  with_reducible repeat' first | assumption | apply issueV_wf
theorem vAll_wf {s x1 x2 x3 x4} (hs : Wf s) : Wf (State.vAll s x1 x2 x3 x4) := by
  unfold State.vAll
  with_reducible repeat' first | assumption | apply issueV_wf
theorem execVnop_wf {x0 s t} (e : execVnop x0 s = .next t) (hs : Wf s) : Wf t := by
  unfold execVnop at e
  with_reducible repeat' first | assumption | apply onJob_wf | apply issueV0_wf | cases e
theorem execRealn_wf {s t} (e : execRealn s = .next t) (hs : Wf s) : Wf t := by
  unfold execRealn at e
  with_reducible repeat' first | assumption | apply issueV0_wf | apply onJob_wf | split | cases e
theorem realnDone_wf {s} (hs : Wf s) : Wf (State.realnDone s) := by
  unfold State.realnDone
  with_reducible repeat' first | assumption | apply issueV0_wf | apply onJob_wf | split
theorem execRealnBoundary_wf {s t} (e : execRealnBoundary s = .next t) (hs : Wf s) : Wf t := by
  unfold execRealnBoundary at e
  with_reducible repeat' first | assumption | refine when_wf (by assumption) ?_ ?_ | apply realnDone_wf | cases e
theorem vHoldCk_wf {s} (hs : Wf s) : Wf (State.vHoldCk s) := by
  unfold State.vHoldCk
  with_reducible repeat' first | assumption | refine vPass_wf (by assumption) ?_ | apply onJob_wf | split
theorem execWriteBackLanding_wf {s t} (e : execWriteBackLanding s = .next t) (hs : Wf s) : Wf t := by
  unfold execWriteBackLanding at e
  with_reducible repeat' first | assumption | refine when_wf (by assumption) ?_ ?_ | apply vHoldCk_wf | cases e
theorem v2_wf {s x1 x2 x3 x4 x5 x6 x7 x8 x9} (hs : Wf s) : Wf (State.v2 s x1 x2 x3 x4 x5 x6 x7 x8 x9) := by
  unfold State.v2
  with_reducible repeat' first | assumption | apply vMap_wf | split
theorem v2b_wf {s x1 x2 x3 x4 x5 x6} (hs : Wf s) : Wf (State.v2b s x1 x2 x3 x4 x5 x6) := by
  unfold State.v2b
  with_reducible repeat' first | assumption | apply vMap_wf
theorem v3_wf {s x1 x2 x3 x4 x5 x6 x7} (hs : Wf s) : Wf (State.v3 s x1 x2 x3 x4 x5 x6 x7) := by
  unfold State.v3
  with_reducible repeat' first | assumption | apply vMap_wf | split
theorem v1_wf {s x1 x2 x3 x4 x5 x6} (hs : Wf s) : Wf (State.v1 s x1 x2 x3 x4 x5 x6) := by
  unfold State.v1
  with_reducible repeat' first | assumption | apply vMap_wf
theorem execVadd_wf {x0 x1 x2 x3 x4 s t} (e : execVadd x0 x1 x2 x3 x4 s = .next t) (hs : Wf s) : Wf t := by
  unfold execVadd at e
  with_reducible repeat' first | assumption | apply v2_wf | cases e
theorem execVsub_wf {x0 x1 x2 x3 x4 s t} (e : execVsub x0 x1 x2 x3 x4 s = .next t) (hs : Wf s) : Wf t := by
  unfold execVsub at e
  with_reducible repeat' first | assumption | apply v2_wf | cases e
theorem execVmul_wf {x0 x1 x2 x3 x4 s t} (e : execVmul x0 x1 x2 x3 x4 s = .next t) (hs : Wf s) : Wf t := by
  unfold execVmul at e
  with_reducible repeat' first | assumption | apply v2_wf | cases e
theorem execVmulh_wf {x0 x1 x2 x3 x4 s t} (e : execVmulh x0 x1 x2 x3 x4 s = .next t) (hs : Wf s) : Wf t := by
  unfold execVmulh at e
  with_reducible repeat' first | assumption | apply v2_wf | cases e
theorem execVmin_wf {x0 x1 x2 x3 x4 s t} (e : execVmin x0 x1 x2 x3 x4 s = .next t) (hs : Wf s) : Wf t := by
  unfold execVmin at e
  with_reducible repeat' first | assumption | apply v2_wf | cases e
theorem execVmax_wf {x0 x1 x2 x3 x4 s t} (e : execVmax x0 x1 x2 x3 x4 s = .next t) (hs : Wf s) : Wf t := by
  unfold execVmax at e
  with_reducible repeat' first | assumption | apply v2_wf | cases e
theorem execVand_wf {x0 x1 x2 x3 x4 s t} (e : execVand x0 x1 x2 x3 x4 s = .next t) (hs : Wf s) : Wf t := by
  unfold execVand at e
  with_reducible repeat' first | assumption | apply v2b_wf | cases e
theorem execVor_wf {x0 x1 x2 x3 x4 s t} (e : execVor x0 x1 x2 x3 x4 s = .next t) (hs : Wf s) : Wf t := by
  unfold execVor at e
  with_reducible repeat' first | assumption | apply v2b_wf | cases e
theorem execVxor_wf {x0 x1 x2 x3 x4 s t} (e : execVxor x0 x1 x2 x3 x4 s = .next t) (hs : Wf s) : Wf t := by
  unfold execVxor at e
  with_reducible repeat' first | assumption | apply v2b_wf | cases e
theorem execVshl_wf {x0 x1 x2 x3 x4 s t} (e : execVshl x0 x1 x2 x3 x4 s = .next t) (hs : Wf s) : Wf t := by
  unfold execVshl at e
  with_reducible repeat' first | assumption | apply v2b_wf | cases e
theorem execVshr_wf {x0 x1 x2 x3 x4 s t} (e : execVshr x0 x1 x2 x3 x4 s = .next t) (hs : Wf s) : Wf t := by
  unfold execVshr at e
  with_reducible repeat' first | assumption | apply v2b_wf | cases e
theorem execVadds_wf {x0 x1 x2 x3 x4 s t} (e : execVadds x0 x1 x2 x3 x4 s = .next t) (hs : Wf s) : Wf t := by
  unfold execVadds at e
  with_reducible repeat' first | assumption | apply v2_wf | cases e
theorem execVsubs_wf {x0 x1 x2 x3 x4 s t} (e : execVsubs x0 x1 x2 x3 x4 s = .next t) (hs : Wf s) : Wf t := by
  unfold execVsubs at e
  with_reducible repeat' first | assumption | apply v2_wf | cases e
theorem execVfma_wf {x0 x1 x2 x3 x4 s t} (e : execVfma x0 x1 x2 x3 x4 s = .next t) (hs : Wf s) : Wf t := by
  unfold execVfma at e
  with_reducible repeat' first | assumption | apply v3_wf | cases e
theorem execVfms_wf {x0 x1 x2 x3 x4 s t} (e : execVfms x0 x1 x2 x3 x4 s = .next t) (hs : Wf s) : Wf t := by
  unfold execVfms at e
  with_reducible repeat' first | assumption | apply v3_wf | cases e
theorem execVabs_wf {x0 x1 x2 x3 s t} (e : execVabs x0 x1 x2 x3 s = .next t) (hs : Wf s) : Wf t := by
  unfold execVabs at e
  with_reducible repeat' first | assumption | apply v1_wf | cases e
theorem execVneg_wf {x0 x1 x2 x3 s t} (e : execVneg x0 x1 x2 x3 s = .next t) (hs : Wf s) : Wf t := by
  unfold execVneg at e
  with_reducible repeat' first | assumption | apply v1_wf | cases e
theorem execVnot_wf {x0 x1 x2 x3 s t} (e : execVnot x0 x1 x2 x3 s = .next t) (hs : Wf s) : Wf t := by
  unfold execVnot at e
  with_reducible repeat' first | assumption | apply v1_wf | cases e
theorem execVmov_wf {x0 x1 x2 s t} (e : execVmov x0 x1 x2 s = .next t) (hs : Wf s) : Wf t := by
  unfold execVmov at e
  with_reducible repeat' first | assumption | apply v1_wf | cases e
theorem execVclz_wf {x0 x1 x2 x3 s t} (e : execVclz x0 x1 x2 x3 s = .next t) (hs : Wf s) : Wf t := by
  unfold execVclz at e
  with_reducible repeat' first | assumption | apply v1_wf | cases e
theorem execVpopc_wf {x0 x1 x2 x3 s t} (e : execVpopc x0 x1 x2 x3 s = .next t) (hs : Wf s) : Wf t := by
  unfold execVpopc at e
  with_reducible repeat' first | assumption | apply v1_wf | cases e
theorem execVexp2_wf {x0 x1 x2 x3 s t} (e : execVexp2 x0 x1 x2 x3 s = .next t) (hs : Wf s) : Wf t := by
  unfold execVexp2 at e
  with_reducible repeat' first | assumption | apply v1_wf | cases e
theorem execVlog2_wf {x0 x1 x2 x3 s t} (e : execVlog2 x0 x1 x2 x3 s = .next t) (hs : Wf s) : Wf t := by
  unfold execVlog2 at e
  with_reducible repeat' first | assumption | apply v1_wf | cases e
theorem execVrcp_wf {x0 x1 x2 x3 s t} (e : execVrcp x0 x1 x2 x3 s = .next t) (hs : Wf s) : Wf t := by
  unfold execVrcp at e
  with_reducible repeat' first | assumption | apply v1_wf | cases e
theorem execVrsq_wf {x0 x1 x2 x3 s t} (e : execVrsq x0 x1 x2 x3 s = .next t) (hs : Wf s) : Wf t := by
  unfold execVrsq at e
  with_reducible repeat' first | assumption | apply v1_wf | cases e
theorem execVrcpf_wf {x0 x1 x2 s t} (e : execVrcpf x0 x1 x2 s = .next t) (hs : Wf s) : Wf t := by
  unfold execVrcpf at e
  with_reducible repeat' first | assumption | apply v1_wf | cases e
theorem execVrsqf_wf {x0 x1 x2 s t} (e : execVrsqf x0 x1 x2 s = .next t) (hs : Wf s) : Wf t := by
  unfold execVrsqf at e
  with_reducible repeat' first | assumption | apply v1_wf | cases e
theorem vPred_wf {s x1 x2 x3 x4 x5} (hs : Wf s) : Wf (State.vPred s x1 x2 x3 x4 x5) := by
  unfold State.vPred
  with_reducible repeat' first | assumption | apply issueV_wf
theorem execVcmp_wf {x0 x1 x2 x3 x4 x5 s t} (e : execVcmp x0 x1 x2 x3 x4 x5 s = .next t) (hs : Wf s) : Wf t := by
  unfold execVcmp at e
  with_reducible repeat' first | assumption | apply vPred_wf | cases e
theorem execVsel_wf {x0 x1 x2 x3 x4 s t} (e : execVsel x0 x1 x2 x3 x4 s = .next t) (hs : Wf s) : Wf t := by
  unfold execVsel at e
  with_reducible repeat' first | assumption | apply vMap_wf | cases e
theorem pLogic_wf {s x1 x2} (hs : Wf s) : Wf (State.pLogic s x1 x2) := by
  unfold State.pLogic
  with_reducible repeat' first | assumption | apply issueV_wf
theorem execPand_wf {x0 x1 x2 s t} (e : execPand x0 x1 x2 s = .next t) (hs : Wf s) : Wf t := by
  unfold execPand at e
  with_reducible repeat' first | assumption | apply pLogic_wf | cases e
theorem execPor_wf {x0 x1 x2 s t} (e : execPor x0 x1 x2 s = .next t) (hs : Wf s) : Wf t := by
  unfold execPor at e
  with_reducible repeat' first | assumption | apply pLogic_wf | cases e
theorem execPxor_wf {x0 x1 x2 s t} (e : execPxor x0 x1 x2 s = .next t) (hs : Wf s) : Wf t := by
  unfold execPxor at e
  with_reducible repeat' first | assumption | apply pLogic_wf | cases e
theorem execPandn_wf {x0 x1 x2 s t} (e : execPandn x0 x1 x2 s = .next t) (hs : Wf s) : Wf t := by
  unfold execPandn at e
  with_reducible repeat' first | assumption | apply pLogic_wf | cases e
theorem execPnot_wf {x0 x1 s t} (e : execPnot x0 x1 s = .next t) (hs : Wf s) : Wf t := by
  unfold execPnot at e
  with_reducible repeat' first | assumption | apply pLogic_wf | cases e
theorem execViota_wf {x0 x1 x2 x3 x4 s t} (e : execViota x0 x1 x2 x3 x4 s = .next t) (hs : Wf s) : Wf t := by
  unfold execViota at e
  with_reducible repeat' first | assumption | apply vMap_wf | cases e
theorem execVcvt_wf {x0 x1 x2 x3 x4 s t} (e : execVcvt x0 x1 x2 x3 x4 s = .next t) (hs : Wf s) : Wf t := by
  unfold execVcvt at e
  with_reducible repeat' first | assumption | apply vAll_wf | cases e
theorem execVqmx_wf {x0 x1 x2 x3 x4 s t} (e : execVqmx x0 x1 x2 x3 x4 s = .next t) (hs : Wf s) : Wf t := by
  unfold execVqmx at e
  with_reducible repeat' first | assumption | apply issueV_wf | cases e
theorem execVdqmx_wf {x0 x1 x2 x3 x4 s t} (e : execVdqmx x0 x1 x2 x3 x4 s = .next t) (hs : Wf s) : Wf t := by
  unfold execVdqmx at e
  with_reducible repeat' first | assumption | apply vMapK_wf | cases e
theorem vPermute_wf {s x1 x2 x3 x4 x5} (hs : Wf s) : Wf (State.vPermute s x1 x2 x3 x4 x5) := by
  unfold State.vPermute
  with_reducible repeat' first | assumption | apply vMap_wf
theorem execVperm_wf {x0 x1 x2 x3 x4 s t} (e : execVperm x0 x1 x2 x3 x4 s = .next t) (hs : Wf s) : Wf t := by
  unfold execVperm at e
  with_reducible repeat' first | assumption | apply vPermute_wf | cases e
theorem execVshuf_wf {x0 x1 x2 x3 x4 s t} (e : execVshuf x0 x1 x2 x3 x4 s = .next t) (hs : Wf s) : Wf t := by
  unfold execVshuf at e
  with_reducible repeat' first | assumption | apply vPermute_wf | cases e
theorem vPair_wf {s x1 x2 x3 x4 x5} (hs : Wf s) : Wf (State.vPair s x1 x2 x3 x4 x5) := by
  unfold State.vPair
  with_reducible repeat' first | assumption | apply issueV_wf
theorem execVzip_wf {x0 x1 x2 x3 x4 s t} (e : execVzip x0 x1 x2 x3 x4 s = .next t) (hs : Wf s) : Wf t := by
  unfold execVzip at e
  with_reducible repeat' first | assumption | apply vPair_wf | cases e
theorem execVunzip_wf {x0 x1 x2 x3 x4 s t} (e : execVunzip x0 x1 x2 x3 x4 s = .next t) (hs : Wf s) : Wf t := by
  unfold execVunzip at e
  with_reducible repeat' first | assumption | apply vPair_wf | cases e
theorem execVbcast_wf {x0 x1 x2 x3 x4 s t} (e : execVbcast x0 x1 x2 x3 x4 s = .next t) (hs : Wf s) : Wf t := by
  unfold execVbcast at e
  with_reducible repeat' first | assumption | apply vPermute_wf | cases e
theorem execVslideu_wf {x0 x1 x2 x3 x4 s t} (e : execVslideu x0 x1 x2 x3 x4 s = .next t) (hs : Wf s) : Wf t := by
  unfold execVslideu at e
  with_reducible repeat' first | assumption | apply vMap_wf | cases e
theorem execVslided_wf {x0 x1 x2 x3 x4 s t} (e : execVslided x0 x1 x2 x3 x4 s = .next t) (hs : Wf s) : Wf t := by
  unfold execVslided at e
  with_reducible repeat' first | assumption | apply vMap_wf | cases e
theorem execVwiden_wf {x0 x1 x2 x3 x4 x5 s t} (e : execVwiden x0 x1 x2 x3 x4 x5 s = .next t) (hs : Wf s) : Wf t := by
  unfold execVwiden at e
  with_reducible repeat' first | assumption | apply vMapK_wf | cases e
theorem execVnarrow_wf {x0 x1 x2 x3 x4 x5 s t} (e : execVnarrow x0 x1 x2 x3 x4 x5 s = .next t) (hs : Wf s) : Wf t := by
  unfold execVnarrow at e
  with_reducible repeat' first | assumption | apply vMap_wf | cases e
theorem execVrsum_wf {x0 x1 x2 x3 s t} (e : execVrsum x0 x1 x2 x3 s = .next t) (hs : Wf s) : Wf t := by
  unfold execVrsum at e
  with_reducible repeat' first | assumption | apply vAll_wf | split | cases e
theorem execVrmax_wf {x0 x1 x2 x3 s t} (e : execVrmax x0 x1 x2 x3 s = .next t) (hs : Wf s) : Wf t := by
  unfold execVrmax at e
  with_reducible repeat' first | assumption | apply vAll_wf | cases e
theorem execVrmin_wf {x0 x1 x2 x3 s t} (e : execVrmin x0 x1 x2 x3 s = .next t) (hs : Wf s) : Wf t := by
  unfold execVrmin at e
  with_reducible repeat' first | assumption | apply vAll_wf | cases e
theorem execVrargmax_wf {x0 x1 x2 x3 s t} (e : execVrargmax x0 x1 x2 x3 s = .next t) (hs : Wf s) : Wf t := by
  unfold execVrargmax at e
  with_reducible repeat' first | assumption | apply vAll_wf | cases e
theorem vpopTry_wf {s x1 x2 x3 t} (e : State.vpopTry s x1 x2 x3 = some t) (hs : Wf s) : Wf t := by
  unfold State.vpopTry at e
  try dsimp only at e
  with_reducible repeat' first | assumption | apply trap_wf | apply issueV_wf | apply onJob_wf | apply setEng_wf | split at e | cases e
theorem waitV_wf {s x1} (hs : Wf s) : Wf (State.waitV s x1) := by
  unfold State.waitV
  with_reducible repeat' first | assumption | apply vEnd_wf | apply onBlk_wf
theorem execVpop_wf {x0 x1 x2 s t} (e : execVpop x0 x1 x2 s = .next t) (hs : Wf s) : Wf t := by
  unfold execVpop at e
  try dsimp only at e
  with_reducible repeat' first | assumption | intro _ | apply trapW_wf | refine vpopTry_wf (by assumption) ?_ | apply waitV_wf | apply getD_wf | split | cases e
theorem vpushTry_wf {s x1 x2 t} (e : State.vpushTry s x1 x2 = some t) (hs : Wf s) : Wf t := by
  unfold State.vpushTry at e
  with_reducible repeat' first | assumption | apply issueV_wf | split at e | cases e
theorem execVpush_wf {x0 x1 s t} (e : execVpush x0 x1 s = .next t) (hs : Wf s) : Wf t := by
  unfold execVpush at e
  with_reducible repeat' first | assumption | intro _ | apply trapW_wf | refine vpushTry_wf (by assumption) ?_ | apply waitV_wf | apply getD_wf | split | cases e
theorem execVsett_wf {x0 x1 s t} (e : execVsett x0 x1 s = .next t) (hs : Wf s) : Wf t := by
  unfold execVsett at e
  with_reducible repeat' first | assumption | apply issueV_wf | cases e
theorem execVldc_wf {x0 x1 s t} (e : execVldc x0 x1 s = .next t) (hs : Wf s) : Wf t := by
  unfold execVldc at e
  with_reducible repeat' first | assumption | apply issueV_wf | cases e
theorem execVrot_wf {x0 s t} (e : execVrot x0 s = .next t) (hs : Wf s) : Wf t := by
  unfold execVrot at e
  with_reducible repeat' first | assumption | apply issueV0_wf | apply onJob_wf | cases e
theorem execQueueWaitComplete_wf {s t} (e : execQueueWaitComplete s = .next t) (hs : Wf s) : Wf t := by
  unfold execQueueWaitComplete at e
  try dsimp only at e
  with_reducible repeat' first | assumption | intro _ | refine popSq_wf (by assumption) ?_ | refine vpopTry_wf (by assumption) ?_ | refine vPass_wf (by assumption) ?_ | refine vpushTry_wf (by assumption) ?_ | apply getD_wf | split | cases e
theorem post_wf {s x1 x2 x3 x4} (hs : Wf s) : Wf (State.post s x1 x2 x3 x4) := by
  unfold State.post
  with_reducible repeat' first | assumption | apply setOut_wf | apply jobOf_wf | apply inject_wf | split
theorem sendPieces_wf {s x1 x2 x3 x4 x5 r t} (e : State.sendPieces s x1 x2 x3 x4 x5 = (t, r)) (hs : Wf s) : Wf t := by
  induction x4 generalizing s x1 x2 x3 x5 r t with
  | nil =>
    unfold State.sendPieces at e
    try dsimp only at e
    repeat' first | (with_reducible assumption) | (with_reducible intro _) | (with_reducible apply post_wf) | (with_reducible apply wf_ite) | (with_reducible apply elim_wf) | (with_reducible apply mem_wf) | (with_reducible apply each_wf) | (with_reducible apply getD_wf) | (with_reducible apply wf_memPut) | (with_reducible apply foldl_memPut_wf) | (with_reducible apply wf_filter) | (split) | (split at e) | (cases e) | (dsimp only) | (with_reducible apply mk_wf)
  | cons y l ih =>
    unfold State.sendPieces at e
    try dsimp only at e
    repeat' first | (with_reducible assumption) | (with_reducible intro _) | (with_reducible refine ih (by assumption) ?_) | (exact ih rfl ‹_›) | (with_reducible apply post_wf) | (with_reducible apply wf_ite) | (with_reducible apply elim_wf) | (with_reducible apply mem_wf) | (with_reducible apply each_wf) | (with_reducible apply getD_wf) | (with_reducible apply wf_memPut) | (with_reducible apply foldl_memPut_wf) | (with_reducible apply wf_filter) | (split) | (split at e) | (cases e) | (dsimp only) | (with_reducible apply mk_wf)
theorem sendPieces_wf2 {s x1 x2 x3 x4 x5} (hs : Wf s) : Wf (State.sendPieces s x1 x2 x3 x4 x5).1 := sendPieces_wf eta2 hs
theorem storePieces_wf {s x1 x2 x3 x4 x5 k6} (hs : Wf s) (hk6 : ∀ u0, Wf u0 → Wf (k6 u0)) : Wf (State.storePieces s x1 x2 x3 x4 x5 k6) := by
  unfold State.storePieces
  with_reducible repeat' first | assumption | apply hk6 | apply sendPieces_wf2 | apply onBlk_wf | apply onJob_wf | apply issueAcc_wf | apply wf_ite
theorem keptRuns_wf {s k1 k2} (hs : Wf s) (hk1 : ∀ f, (∀ rs t, Wf t → Wf (f rs t)) → Wf (k1 f)) (hk2 : ∀ rs t, Wf t → Wf (k2 rs t)) :
    Wf (State.keptRuns s k1 k2) := by
  unfold State.keptRuns
  exact wf_ite (hk2 _ _ hs) (hk1 _ hk2)
theorem loadA_wf {s x1 x2 x3 x4 x5 x6} (hs : Wf s) : Wf (State.loadA s x1 x2 x3 x4 x5 x6) := by
  unfold State.loadA
  with_reducible repeat' first | assumption | intro _ | apply withAccess_wf | apply advance_wf | apply issueAcc_wf | split
theorem storeA_wf {s x1 x2 x3 x4 x5} (hs : Wf s) : Wf (State.storeA s x1 x2 x3 x4 x5) := by
  unfold State.storeA
  with_reducible repeat' first | assumption | intro _ | apply withAccess_wf | apply storePieces_wf | apply advance_wf | split
theorem execALdb_wf {x0 x1 x2 x3 s t} (e : execALdb x0 x1 x2 x3 s = .next t) (hs : Wf s) : Wf t := by
  unfold execALdb at e
  with_reducible repeat' first | assumption | apply loadA_wf | cases e
theorem execALdbu_wf {x0 x1 x2 x3 s t} (e : execALdbu x0 x1 x2 x3 s = .next t) (hs : Wf s) : Wf t := by
  unfold execALdbu at e
  with_reducible repeat' first | assumption | apply loadA_wf | cases e
theorem execALdh_wf {x0 x1 x2 x3 s t} (e : execALdh x0 x1 x2 x3 s = .next t) (hs : Wf s) : Wf t := by
  unfold execALdh at e
  with_reducible repeat' first | assumption | apply loadA_wf | cases e
theorem execALdhu_wf {x0 x1 x2 x3 s t} (e : execALdhu x0 x1 x2 x3 s = .next t) (hs : Wf s) : Wf t := by
  unfold execALdhu at e
  with_reducible repeat' first | assumption | apply loadA_wf | cases e
theorem execALdw_wf {x0 x1 x2 x3 s t} (e : execALdw x0 x1 x2 x3 s = .next t) (hs : Wf s) : Wf t := by
  unfold execALdw at e
  with_reducible repeat' first | assumption | apply loadA_wf | cases e
theorem execALdwu_wf {x0 x1 x2 x3 s t} (e : execALdwu x0 x1 x2 x3 s = .next t) (hs : Wf s) : Wf t := by
  unfold execALdwu at e
  with_reducible repeat' first | assumption | apply loadA_wf | cases e
theorem execALdd_wf {x0 x1 x2 x3 s t} (e : execALdd x0 x1 x2 x3 s = .next t) (hs : Wf s) : Wf t := by
  unfold execALdd at e
  with_reducible repeat' first | assumption | apply loadA_wf | cases e
theorem execAStb_wf {x0 x1 x2 x3 s t} (e : execAStb x0 x1 x2 x3 s = .next t) (hs : Wf s) : Wf t := by
  unfold execAStb at e
  with_reducible repeat' first | assumption | apply storeA_wf | cases e
theorem execASth_wf {x0 x1 x2 x3 s t} (e : execASth x0 x1 x2 x3 s = .next t) (hs : Wf s) : Wf t := by
  unfold execASth at e
  with_reducible repeat' first | assumption | apply storeA_wf | cases e
theorem execAStw_wf {x0 x1 x2 x3 s t} (e : execAStw x0 x1 x2 x3 s = .next t) (hs : Wf s) : Wf t := by
  unfold execAStw at e
  with_reducible repeat' first | assumption | apply storeA_wf | cases e
theorem execAStd_wf {x0 x1 x2 x3 s t} (e : execAStd x0 x1 x2 x3 s = .next t) (hs : Wf s) : Wf t := by
  unfold execAStd at e
  with_reducible repeat' first | assumption | apply storeA_wf | cases e
theorem reserveDq_wf {s x1 x2 x3 x4} (hs : Wf s) : Wf (State.reserveDq s x1 x2 x3 x4) := by
  unfold State.reserveDq
  with_reducible repeat' first | assumption | apply onJob_wf | apply issueAcc_wf
theorem stepA_wf {s x1} (hs : Wf s) : Wf (State.stepA s x1) := by
  unfold State.stepA
  with_reducible repeat' first | assumption | apply onBlk_wf | apply advance_wf | split
theorem rowCheck_wf {s x1 x2 x3} (hs : Wf s) (hx3 : Wf x3) : Wf (State.rowCheck s x1 x2 x3) := by
  unfold State.rowCheck
  with_reducible repeat' first | assumption | apply trapW_wf | split
theorem execLdq_wf {x0 x1 x2 x3 x4 s t} (e : execLdq x0 x1 x2 x3 x4 s = .next t) (hs : Wf s) : Wf t := by
  unfold execLdq at e
  with_reducible repeat' first | assumption | intro _ | apply rowCheck_wf | apply withAccess_wf | apply stepA_wf | apply reserveDq_wf | split | cases e
theorem accessAll_wf {s x1 x2 x3 r t} (e : State.accessAll s x1 x2 x3 = (r, t)) (hs : Wf s) : Wf t := by
  induction x3 generalizing s x1 x2 r t with
  | nil =>
    unfold State.accessAll at e
    try dsimp only at e
    repeat' first | (with_reducible assumption) | (with_reducible intro _) | (with_reducible apply access_wf2) | (with_reducible refine access_wf (by assumption) ?_) | (with_reducible apply wf_ite) | (with_reducible apply elim_wf) | (with_reducible apply mem_wf) | (with_reducible apply each_wf) | (with_reducible apply getD_wf) | (with_reducible apply wf_memPut) | (with_reducible apply foldl_memPut_wf) | (with_reducible apply wf_filter) | (split) | (split at e) | (cases e) | (dsimp only) | (with_reducible apply mk_wf)
  | cons y l ih =>
    unfold State.accessAll at e
    try dsimp only at e
    repeat' first | (with_reducible assumption) | (with_reducible intro _) | (with_reducible refine ih (by assumption) ?_) | (exact ih rfl ‹_›) | (with_reducible apply access_wf2) | (with_reducible refine access_wf (by assumption) ?_) | (with_reducible apply wf_ite) | (with_reducible apply elim_wf) | (with_reducible apply mem_wf) | (with_reducible apply each_wf) | (with_reducible apply getD_wf) | (with_reducible apply wf_memPut) | (with_reducible apply foldl_memPut_wf) | (with_reducible apply wf_filter) | (split) | (split at e) | (cases e) | (dsimp only) | (with_reducible apply mk_wf)
theorem accessAll_wf2 {s x1 x2 x3} (hs : Wf s) : Wf (State.accessAll s x1 x2 x3).2 := accessAll_wf eta2 hs
theorem withAll_wf {s x1 x2 x3 k4} (hs : Wf s) (hk4 : ∀ u0 u1, Wf u1 → Wf (k4 u0 u1)) : Wf (State.withAll s x1 x2 x3 k4) := by
  unfold State.withAll
  have h := accessAll_wf2 (s := s) (x1 := x1) (x2 := x2) (x3 := x3) hs
  generalize State.accessAll s x1 x2 x3 = p at h ⊢
  rcases p with ⟨_ | _ | _, t⟩ <;> dsimp only at h ⊢
  repeat' first | (with_reducible assumption) | (with_reducible apply hk4) | (with_reducible apply trapW_wf) | (with_reducible apply parkAt_wf)
theorem execLdq2_wf {x0 x1 x2 x3 x4 s t} (e : execLdq2 x0 x1 x2 x3 x4 s = .next t) (hs : Wf s) : Wf t := by
  unfold execLdq2 at e
  with_reducible repeat' first | assumption | intro _ | apply rowCheck_wf | apply withAll_wf | apply stepA_wf | apply reserveDq_wf | split | cases e
theorem storeRow_wf {s x1 x2 x3 x4 x5 x6} (hs : Wf s) : Wf (State.storeRow s x1 x2 x3 x4 x5 x6) := by
  unfold State.storeRow
  refine rowCheck_wf hs ?_
  split
  · exact hs
  · exact wf_ite (keptRuns_wf hs (fun f hf => withAccess_wf hs hf) fun rs t ht => storePieces_wf ht fun u hu => stepA_wf (onJob_wf hu)) hs
theorem execStq_wf {x0 x1 x2 x3 x4 s t} (e : execStq x0 x1 x2 x3 x4 s = .next t) (hs : Wf s) : Wf t := by
  unfold execStq at e
  with_reducible repeat' first | assumption | apply storeRow_wf | cases e
theorem execStqnt_wf {x0 x1 x2 x3 x4 s t} (e : execStqnt x0 x1 x2 x3 x4 s = .next t) (hs : Wf s) : Wf t := by
  unfold execStqnt at e
  with_reducible repeat' first | assumption | apply storeRow_wf | cases e
theorem execGather_wf {x0 x1 x2 x3 x4 s t} (e : execGather x0 x1 x2 x3 x4 s = .next t) (hs : Wf s) : Wf t := by
  unfold execGather at e
  with_reducible repeat' first | assumption | intro _ | apply trapW_wf | apply withAll_wf | apply advance_wf | apply onJob_wf | apply reserveDq_wf | split | cases e
theorem execScatter_wf {x0 x1 x2 x3 x4 s t} (e : execScatter x0 x1 x2 x3 x4 s = .next t) (hs : Wf s) : Wf t := by
  rw [execScatter] at e
  injection e with e
  subst e
  refine wf_ite (trapW_wf hs) ?_
  split
  · exact wf_ite (keptRuns_wf hs (fun f hf => withAll_wf hs hf) fun rs t ht => storePieces_wf ht fun u hu => advance_wf (onJob_wf hu)) hs
  · exact hs
theorem execLdsr_wf {x0 x1 x2 s t} (e : execLdsr x0 x1 x2 s = .next t) (hs : Wf s) : Wf t := by
  unfold execLdsr at e
  with_reducible repeat' first | assumption | apply trapW_wf | apply advance_wf | apply reserveDq_wf | split | cases e
theorem prefetch_wf {s x1 x2} (hs : Wf s) : Wf (State.prefetch s x1 x2) := by
  induction x1 generalizing s x2 with
  | nil =>
    unfold State.prefetch
    try dsimp only
    repeat' first | (with_reducible assumption) | (with_reducible intro _) | (with_reducible apply slow_wf) | (with_reducible apply xlate_wf2) | (with_reducible refine xlate_wf (by assumption) ?_) | (with_reducible apply wf_ite) | (with_reducible apply elim_wf) | (with_reducible apply mem_wf) | (with_reducible apply each_wf) | (with_reducible apply getD_wf) | (with_reducible apply wf_memPut) | (with_reducible apply foldl_memPut_wf) | (with_reducible apply wf_filter) | (split) | (dsimp only) | (with_reducible apply mk_wf)
  | cons y l ih =>
    unfold State.prefetch
    try dsimp only
    repeat' first | (with_reducible assumption) | (with_reducible intro _) | (with_reducible apply ih) | (with_reducible apply slow_wf) | (with_reducible apply xlate_wf2) | (with_reducible refine xlate_wf (by assumption) ?_) | (with_reducible apply wf_ite) | (with_reducible apply elim_wf) | (with_reducible apply mem_wf) | (with_reducible apply each_wf) | (with_reducible apply getD_wf) | (with_reducible apply wf_memPut) | (with_reducible apply foldl_memPut_wf) | (with_reducible apply wf_filter) | (split) | (dsimp only) | (with_reducible apply mk_wf)
theorem execPfc_wf {x0 x1 x2 s t} (e : execPfc x0 x1 x2 s = .next t) (hs : Wf s) : Wf t := by
  unfold execPfc at e
  with_reducible repeat' first | assumption | apply advance_wf | apply prefetch_wf | split | cases e
theorem execSqp_wf {x0 s t} (e : execSqp x0 s = .next t) (hs : Wf s) : Wf t := by
  unfold execSqp at e
  with_reducible repeat' first | assumption | apply advance_wf | apply onJob_wf | apply mem_wf | split | cases e | apply mk_wf
theorem execLdsq_wf {x0 x1 x2 s t} (e : execLdsq x0 x1 x2 s = .next t) (hs : Wf s) : Wf t := by
  unfold execLdsq at e
  with_reducible repeat' first | assumption | intro _ | apply withAccess_wf | apply onJob_wf | apply advance_wf | apply issueAcc_wf | split | cases e
theorem cmdTrap_wf {s x1 x2} (hs : Wf s) : Wf (State.cmdTrap s x1 x2) := by
  unfold State.cmdTrap
  with_reducible repeat' first | assumption | apply trap_wf
theorem mxPush_wf {s x1 x2} (hs : Wf s) : Wf (State.mxPush s x1 x2) := by
  unfold State.mxPush
  with_reducible repeat' first | assumption | intro _ | apply cmdTrap_wf | apply trapC_wf | apply releaseC_wf | apply advance_wf | apply setEng_wf | split
theorem execMxq_wf {x0 x1 s t} (e : execMxq x0 x1 s = .next t) (hs : Wf s) : Wf t := by
  unfold execMxq at e
  with_reducible repeat' first | assumption | apply mxPush_wf | cases e
theorem execMxd_wf {x0 x1 x2 s t} (e : execMxd x0 x1 x2 s = .next t) (hs : Wf s) : Wf t := by
  unfold execMxd at e
  with_reducible repeat' first | assumption | apply mxPush_wf | cases e
theorem onXeng_wf {s x1 x2 x3} (hs : Wf s) : Wf (State.onXeng s x1 x2 x3) := by
  unfold State.onXeng
  with_reducible repeat' first | assumption | apply onCluster_wf
theorem execXfc_wf {x0 x1 s t} (e : execXfc x0 x1 s = .next t) (hs : Wf s) : Wf t := by
  unfold execXfc at e
  with_reducible repeat' first | assumption | intro _ | apply trapC_wf | apply releaseC_wf | apply advance_wf | apply onXeng_wf | split | cases e
theorem execEvx_wf {x0 x1 s t} (e : execEvx x0 x1 s = .next t) (hs : Wf s) : Wf t := by
  unfold execEvx at e
  with_reducible repeat' first | assumption | intro _ | apply releaseC_wf | apply advance_wf | apply onDie_wf | split | cases e
theorem planChecks_wf {s x1 k2} (hs : Wf s) (hk2 : ∀ u0 u1, Wf u1 → Wf (k2 u0 u1)) : Wf (State.planChecks s x1 k2) := by
  unfold State.planChecks
  with_reducible repeat' first | assumption | intro _ | apply hk2 | apply trapC_wf | apply withAccess_wf | refine loadRuns_wf (by assumption) ?_ | apply discardJob_wf | refine xlate_wf (by assumption) ?_ | apply wf_ite | split
theorem planReserve_wf {s x1 x2 x3} (hs : Wf s) : Wf (State.planReserve s x1 x2 x3) := by
  unfold State.planReserve
  with_reducible repeat' first | assumption | apply onDie_wf | apply setWayAt_wf | apply advance_wf | apply setRs_wf | apply mem_wf | split | apply mk_wf
theorem execCplan_wf {x0 x1 s t} (e : execCplan x0 x1 s = .next t) (hs : Wf s) : Wf t := by
  unfold execCplan at e
  with_reducible repeat' first | assumption | intro _ | apply planChecks_wf | apply waitC_wf | cases e
theorem execPlanReservation_wf {s t} (e : execPlanReservation s = .next t) (hs : Wf s) : Wf t := by
  unfold execPlanReservation at e
  with_reducible repeat' first | assumption | intro _ | apply planChecks_wf | apply planReserve_wf | split | cases e
theorem execCtrig_wf {x0 x1 s t} (e : execCtrig x0 x1 s = .next t) (hs : Wf s) : Wf t := by
  unfold execCtrig at e
  with_reducible repeat' first | assumption | intro _ | apply trapC_wf | apply releaseC_wf | apply advance_wf | apply trigger_wf | split | cases e
theorem execCseal_wf {x0 x1 x2 s t} (e : execCseal x0 x1 x2 s = .next t) (hs : Wf s) : Wf t := by
  unfold execCseal at e
  with_reducible repeat' first | assumption | intro _ | apply withCw_wf | apply trapC_wf | refine lostTrap_wf (by assumption) ?_ | apply onJob_wf | apply storeRuns_wf | apply rdvDone_wf | apply setRs_wf | apply wf_ite | split | cases e
theorem cnManifest_wf {s x1 x2 x3} (hs : Wf s) : Wf (State.cnManifest s x1 x2 x3) := by
  unfold State.cnManifest
  with_reducible repeat' first | assumption | apply onCoord_wf | apply status_wf | apply send_wf | apply coordAbort_wf | apply mem_wf | split | apply mk_wf
theorem execCmani_wf {x0 x1 s t} (e : execCmani x0 x1 s = .next t) (hs : Wf s) : Wf t := by
  rw [execCmani] at e
  injection e with e
  rw [← e]
  dsimp only
  refine withCw_wf hs fun _ => wf_ite hs (withCw_wf hs fun _ => ?_)
  refine wf_ite (trapC_wf hs) (wf_ite (trapC_wf hs) (wf_ite (trapC_wf hs) ?_))
  split
  · exact trapC_wf hs
  refine wf_ite (trapC_wf hs) (wf_ite (trapC_wf hs) (wf_ite hs ?_))
  generalize cwPieces s _ (16 + _) _ = rs
  have h := loadRuns_wf2 (s := s) (x1 := s.me) (x2 := rs) hs
  generalize State.loadRuns s s.me rs = p at h ⊢
  rcases p with ⟨_ | _, t⟩
  · exact discardJob_wf h
  · exact wf_ite (trapC_wf h) (releaseC_wf h fun s hs => advance_wf (cnManifest_wf hs))
theorem execCabort_wf {x0 s t} (e : execCabort x0 s = .next t) (hs : Wf s) : Wf t := by
  unfold execCabort at e
  with_reducible repeat' first | assumption | apply trapC_wf | apply advance_wf | apply abortReq_wf | split | cases e
theorem engFault_wf {s x1 x2 x3} (hs : Wf s) : Wf (State.engFault s x1 x2 x3) := by
  unfold State.engFault
  with_reducible repeat' first | assumption | apply pended_wf | apply setEng_wf | apply onJob_wf
theorem engDo_wf {s x1 x2 k3} (hs : Wf s) (hk3 : ∀ u0 u1, Wf u1 → Wf (k3 u0 u1)) : Wf (State.engDo s x1 x2 k3) := by
  unfold State.engDo
  with_reducible repeat' first | assumption | apply hk3 | apply setEng_wf | apply onJob_wf | apply engFault_wf | apply wf_ite | split
theorem engUnit_wf {s x1 x2} (hs : Wf s) : Wf (State.engUnit s x1 x2) := by
  unfold State.engUnit
  with_reducible repeat' first | assumption | apply setEng_wf
theorem execMatrixCommandComplete_wf {s t} (e : execMatrixCommandComplete s = .next t) (hs : Wf s) : Wf t := by
  unfold execMatrixCommandComplete at e
  with_reducible repeat' first | assumption | apply pended_wf | apply onCore_wf | cases e
theorem execDescriptorLoad_wf {s t} (e : execDescriptorLoad s = .next t) (hs : Wf s) : Wf t := by
  unfold execDescriptorLoad at e
  with_reducible repeat' first | assumption | apply setEng_wf | apply onJob_wf | split | cases e
theorem execMnop_wf {s t} (e : execMnop s = .next t) (hs : Wf s) : Wf t := by
  unfold execMnop at e
  with_reducible repeat' first | assumption | intro _ | apply engDo_wf | apply engUnit_wf | cases e
theorem engReads_wf {s x1 x2 r t} (e : State.engReads s x1 x2 = (r, t)) (hs : Wf s) : Wf t := by
  induction x2 generalizing s x1 r t with
  | nil =>
    unfold State.engReads at e
    try dsimp only at e
    repeat' first | (with_reducible assumption) | (with_reducible intro _) | (with_reducible apply loadRuns_wf2) | (with_reducible refine loadRuns_wf (by assumption) ?_) | (with_reducible apply wf_ite) | (with_reducible apply elim_wf) | (with_reducible apply mem_wf) | (with_reducible apply each_wf) | (with_reducible apply getD_wf) | (with_reducible apply wf_memPut) | (with_reducible apply foldl_memPut_wf) | (with_reducible apply wf_filter) | (split) | (split at e) | (cases e) | (dsimp only) | (with_reducible apply mk_wf)
  | cons y l ih =>
    unfold State.engReads at e
    try dsimp only at e
    repeat' first | (with_reducible assumption) | (with_reducible intro _) | (with_reducible refine ih (by assumption) ?_) | (exact ih rfl ‹_›) | (with_reducible apply loadRuns_wf2) | (with_reducible refine loadRuns_wf (by assumption) ?_) | (with_reducible apply wf_ite) | (with_reducible apply elim_wf) | (with_reducible apply mem_wf) | (with_reducible apply each_wf) | (with_reducible apply getD_wf) | (with_reducible apply wf_memPut) | (with_reducible apply foldl_memPut_wf) | (with_reducible apply wf_filter) | (split) | (split at e) | (cases e) | (dsimp only) | (with_reducible apply mk_wf)
theorem popWaits_wf {s x1} (hs : Wf s) : Wf (State.popWaits s x1) := by
  unfold State.popWaits
  with_reducible repeat' first | assumption | apply setEng_wf | split
theorem fetchOpnd_wf {s x1 x2 x3 r t} (e : State.fetchOpnd s x1 x2 x3 = (r, t)) (hs : Wf s) : Wf t := by
  unfold State.fetchOpnd at e
  try dsimp only at e
  with_reducible repeat' first | assumption | apply onJob_wf | apply setEng_wf | apply popWaits_wf | refine engReads_wf (by assumption) ?_ | split at e | cases e
theorem mmaBlock_wf {s x1} (hs : Wf s) : Wf (State.mmaBlock s x1) := by
  unfold State.mmaBlock
  try dsimp only
  with_reducible repeat' first | assumption | apply setEng_wf | refine fetchOpnd_wf (by assumption) ?_ | apply discardJob_wf | apply popWaits_wf | apply engUnit_wf | split
theorem execMma_wf {s t} (e : execMma s = .next t) (hs : Wf s) : Wf t := by
  unfold execMma at e
  with_reducible repeat' first | assumption | intro _ | apply engDo_wf | apply mmaBlock_wf | cases e
theorem execMmax_wf {s t} (e : execMmax s = .next t) (hs : Wf s) : Wf t := by
  unfold execMmax at e
  with_reducible repeat' first | assumption | intro _ | apply engDo_wf | apply mmaBlock_wf | cases e
theorem execZeroz_wf {s t} (e : execZeroz s = .next t) (hs : Wf s) : Wf t := by
  unfold execZeroz at e
  with_reducible repeat' first | assumption | intro _ | apply engDo_wf | apply engUnit_wf | apply setEng_wf | cases e
theorem execLoadz_wf {s t} (e : execLoadz s = .next t) (hs : Wf s) : Wf t := by
  unfold execLoadz at e
  with_reducible repeat' first | assumption | intro _ | apply engDo_wf | refine engReads_wf (by assumption) ?_ | apply discardJob_wf | apply engUnit_wf | apply setEng_wf | split | cases e | dsimp only
theorem execStorez_wf {s t} (e : execStorez s = .next t) (hs : Wf s) : Wf t := by
  unfold execStorez at e
  with_reducible repeat' first | assumption | intro _ | apply engDo_wf | apply storeRuns_wf | apply engUnit_wf | apply each_wf | cases e
theorem drainReads_wf {s x1 x2 k3} (hs : Wf s) (hk3 : ∀ u0, Wf u0 → Wf (k3 u0)) : Wf (State.drainReads s x1 x2 k3) := by
  induction x2 generalizing s with
  | nil => exact hk3 _ hs
  | cons y l ih => exact readThen_wf (readMem_wf2 hs) (fun _ _ h => discardJob_wf h) fun _ s h => ih h
theorem execDrainz_wf {s t} (e : execDrainz s = .next t) (hs : Wf s) : Wf t := by
  rw [execDrainz] at e
  injection e with e
  rw [← e]
  refine engDo_wf hs fun c s hs => ?_
  dsimp only
  exact wf_ite (drainReads_wf hs fun s hs => engUnit_wf (onCore_wf hs)) (engUnit_wf (each_wf (fun _ _ h => slow_wf (storeArea_wf h)) hs))
theorem execDrainq_wf {s t} (e : execDrainq s = .next t) (hs : Wf s) : Wf t := by
  unfold execDrainq at e
  with_reducible repeat' first | assumption | intro _ | apply engDo_wf | apply drainReads_wf | apply engUnit_wf | apply onCore_wf | apply writeMem_wf | apply mem_wf | split | cases e | apply mk_wf
theorem execGlz_wf {s t} (e : execGlz s = .next t) (hs : Wf s) : Wf t := by
  unfold execGlz at e
  with_reducible repeat' first | assumption | intro _ | apply engDo_wf | refine loadRuns_wf (by assumption) ?_ | apply discardJob_wf | apply engUnit_wf | apply onJob_wf | split | cases e
theorem atDead_wf {s x1 x2} (hs : Wf s) : Wf (State.atDead s x1 x2) := by
  unfold State.atDead
  with_reducible repeat' first | assumption | apply engUnit_wf | apply err_wf | apply rqfin_wf
theorem withBlock_wf {s x1 x2 x3 k4} (hs : Wf s) (hk4 : ∀ u0 u1, Wf u1 → Wf (k4 u0 u1)) : Wf (State.withBlock s x1 x2 x3 k4) := by
  unfold State.withBlock
  with_reducible repeat' first | assumption | intro _ | apply hk4 | apply atDead_wf | apply metBad_wf | apply readMem_wf2 | apply kvWalk_wf | apply each_wf | split
theorem tokens_wf {s x1 x2 x3 x4 x5 r t} (e : State.tokens s x1 x2 x3 x4 x5 = (r, t)) (hs : Wf s) : Wf t := by
  rw [show t = (State.tokens s x1 x2 x3 x4 x5).2 by rw [e]]
  unfold State.tokens
  refine foldl_wf (g := Prod.snd) (fun b a h => ?_) hs
  repeat' first | (with_reducible assumption) | split | (with_reducible refine loadRuns_wf (by assumption) ?_)
theorem atscKeys_wf {s x1 x2 x3 x4 x5 x6 x7 x8} (hs : Wf s) : Wf (State.atscKeys s x1 x2 x3 x4 x5 x6 x7 x8) := by
  unfold State.atscKeys
  with_reducible repeat' first | assumption | refine tokens_wf (by assumption) ?_ | apply atDead_wf | apply engUnit_wf | apply setEng_wf | split
theorem atscRows_wf {s x1 x2 x3 x4 x5 x6 x7 x8} (hs : Wf s) : Wf (State.atscRows s x1 x2 x3 x4 x5 x6 x7 x8) := by
  unfold State.atscRows
  with_reducible repeat' first | assumption | refine engReads_wf (by assumption) ?_ | apply discardJob_wf | apply atscKeys_wf | split
theorem execAtsc_wf {s t} (e : execAtsc s = .next t) (hs : Wf s) : Wf t := by
  unfold execAtsc at e
  with_reducible repeat' first | assumption | intro _ | apply engDo_wf | apply withBlock_wf | apply atscRows_wf | apply engUnit_wf | apply setEng_wf | split | cases e
theorem execAtsoInit_wf {s t} (e : execAtsoInit s = .next t) (hs : Wf s) : Wf t := by
  unfold execAtsoInit at e
  with_reducible repeat' first | assumption | intro _ | apply engDo_wf | apply engUnit_wf | apply setEng_wf | cases e
theorem execAtsoUpdate_wf {s t} (e : execAtsoUpdate s = .next t) (hs : Wf s) : Wf t := by
  unfold execAtsoUpdate at e
  with_reducible repeat' first | assumption | intro _ | apply engDo_wf | apply engUnit_wf | apply setEng_wf | cases e
theorem execAtsoFinal_wf {s t} (e : execAtsoFinal s = .next t) (hs : Wf s) : Wf t := by
  unfold execAtsoFinal at e
  with_reducible repeat' first | assumption | intro _ | apply engDo_wf | apply engUnit_wf | apply setEng_wf | cases e
theorem execAtsoMass_wf {s t} (e : execAtsoMass s = .next t) (hs : Wf s) : Wf t := by
  unfold execAtsoMass at e
  with_reducible repeat' first | assumption | intro _ | apply engDo_wf | apply engUnit_wf | apply setEng_wf | cases e
theorem atavRows_wf {s x1 x2 x3 x4} (hs : Wf s) : Wf (State.atavRows s x1 x2 x3 x4) := by
  unfold State.atavRows
  with_reducible repeat' first | assumption | apply engUnit_wf | apply setEng_wf
theorem atavVals_wf {s x1 x2 x3 x4 x5 x6} (hs : Wf s) : Wf (State.atavVals s x1 x2 x3 x4 x5 x6) := by
  unfold State.atavVals
  with_reducible repeat' first | assumption | refine tokens_wf (by assumption) ?_ | apply atDead_wf | apply atavRows_wf | split
theorem execAtav_wf {s t} (e : execAtav s = .next t) (hs : Wf s) : Wf t := by
  unfold execAtav at e
  with_reducible repeat' first | assumption | intro _ | apply engDo_wf | apply withBlock_wf | apply atavVals_wf | apply atavRows_wf | split | cases e
theorem execAtmc_wf {s t} (e : execAtmc s = .next t) (hs : Wf s) : Wf t := by
  unfold execAtmc at e
  with_reducible repeat' first | assumption | intro _ | apply engDo_wf | apply withBlock_wf | apply store_wf | apply engUnit_wf | apply wf_ite | apply each_wf | split | cases e

end Sys2Proof.Machine
end

