-- ==== Sys2Proof/Laws/WfDie.lean ====
section
/-!
SUPPORT. Every operation keeps memory in its canonical form: chains, scrapers, the fabric, ring, collectives, Ethernet and firmware. X_wf is about X; X_wf2 about the state of a pair.
-/
set_option linter.unusedVariables false
namespace Sys2Proof.Machine

theorem onChain_wf {s x1 x2} (hs : Wf s) : Wf (State.onChain s x1 x2) := by
  unfold State.onChain
  with_reducible repeat' first | assumption | apply onXeng_wf | split
theorem chDrop_wf {s x1} (hs : Wf s) : Wf (State.chDrop s x1) := by
  unfold State.chDrop
  with_reducible repeat' first | assumption | apply onXeng_wf | apply mem_wf | apply mk_wf
theorem portPiece_wf {s x1 x2 x3 x4 x5 x6 r t} (e : State.portPiece s x1 x2 x3 x4 x5 x6 = (r, t)) (hs : Wf s) : Wf t := by
  unfold State.portPiece at e
  with_reducible repeat' first | assumption | refine translate_wf (by assumption) ?_ | split at e | cases e
theorem portPiece_wf2 {s x1 x2 x3 x4 x5 x6} (hs : Wf s) : Wf (State.portPiece s x1 x2 x3 x4 x5 x6).2 := portPiece_wf eta2 hs
theorem chPiece_wf {s x1 x2 x3 x4 r t} (e : State.chPiece s x1 x2 x3 x4 = (r, t)) (hs : Wf s) : Wf t := by
  unfold State.chPiece at e
  with_reducible repeat' first | assumption | refine portPiece_wf (by assumption) ?_ | cases e
theorem chPiece_wf2 {s x1 x2 x3 x4} (hs : Wf s) : Wf (State.chPiece s x1 x2 x3 x4).2 := chPiece_wf eta2 hs
theorem chPieces_wf {s x1 x2 x3 r t} (e : State.chPieces s x1 x2 x3 = (r, t)) (hs : Wf s) : Wf t := by
  induction x3 generalizing s x1 x2 r t with
  | nil =>
    unfold State.chPieces at e
    try dsimp only at e
    repeat' first | (with_reducible assumption) | (with_reducible intro _) | (with_reducible apply chPiece_wf2) | (with_reducible refine chPiece_wf (by assumption) ?_) | (with_reducible apply wf_ite) | (with_reducible apply elim_wf) | (with_reducible apply mem_wf) | (with_reducible apply each_wf) | (with_reducible apply getD_wf) | (with_reducible apply wf_memPut) | (with_reducible apply foldl_memPut_wf) | (with_reducible apply wf_filter) | (split) | (split at e) | (cases e) | (dsimp only) | (with_reducible apply mk_wf)
  | cons y l ih =>
    unfold State.chPieces at e
    try dsimp only at e
    repeat' first | (with_reducible assumption) | (with_reducible intro _) | (with_reducible refine ih (by assumption) ?_) | (exact ih rfl ‹_›) | (with_reducible apply chPiece_wf2) | (with_reducible refine chPiece_wf (by assumption) ?_) | (with_reducible apply wf_ite) | (with_reducible apply elim_wf) | (with_reducible apply mem_wf) | (with_reducible apply each_wf) | (with_reducible apply getD_wf) | (with_reducible apply wf_memPut) | (with_reducible apply foldl_memPut_wf) | (with_reducible apply wf_filter) | (split) | (split at e) | (cases e) | (dsimp only) | (with_reducible apply mk_wf)
theorem chAccess_wf {s x1 x2 x3 x4 r t} (e : State.chAccess s x1 x2 x3 x4 = (r, t)) (hs : Wf s) : Wf t := by
  unfold State.chAccess at e
  with_reducible repeat' first | assumption | refine chPieces_wf (by assumption) ?_ | split at e | cases e
theorem chPark_wf {s x1 x2 x3 x4 x5 x6} (hs : Wf s) : Wf (State.chPark s x1 x2 x3 x4 x5 x6) := by
  unfold State.chPark
  with_reducible repeat' first | assumption | apply onChain_wf | apply countPark_wf | apply err_wf | apply wf_ite
theorem chUnhold_wf {s x1} (hs : Wf s) : Wf (State.chUnhold s x1) := by
  unfold State.chUnhold
  with_reducible repeat' first | assumption | apply onChain_wf | apply onSlot_wf | split
theorem chEnd_wf {s x1 x2 x3} (hs : Wf s) : Wf (State.chEnd s x1 x2 x3) := by
  unfold State.chEnd
  with_reducible repeat' first | assumption | apply onChain_wf | apply chUnhold_wf
theorem chFail_wf {s x1 x2} (hs : Wf s) : Wf (State.chFail s x1 x2) := by
  unfold State.chFail
  with_reducible repeat' first | assumption | apply chEnd_wf
theorem chStop_wf {s x1 x2 x3} (hs : Wf s) : Wf (State.chStop s x1 x2 x3) := by
  unfold State.chStop
  with_reducible repeat' first | assumption | apply err_wf | apply chDrop_wf | apply chUnhold_wf
theorem chKvStop_wf {s x1 x2 x3 x4} (hs : Wf s) : Wf (State.chKvStop s x1 x2 x3 x4) := by
  unfold State.chKvStop
  with_reducible repeat' first | assumption | intro _ | apply chDrop_wf | apply chUnhold_wf | apply err_wf | apply rqfin_wf | apply each_wf
theorem chUnread_wf {s x1 x2 x3} (hs : Wf s) : Wf (State.chUnread s x1 x2 x3) := by
  unfold State.chUnread
  with_reducible repeat' first | assumption | apply err_wf | apply chDrop_wf
theorem chNear_wf {s x1 x2 x3 r t} (e : State.chNear s x1 x2 x3 = (r, t)) (hs : Wf s) : Wf t := by
  rw [show t = (State.chNear s x1 x2 x3).2 by rw [e]]
  unfold State.chNear
  refine foldl_wf (g := Prod.snd) (fun b a h => ?_) hs
  repeat' first | (with_reducible assumption) | split | (with_reducible refine serveLoad_wf (by assumption) ?_)
theorem chLoad_wf {s x1 x2 x3 k4 k5} (hs : Wf s) (hk4 : ∀ u0 u1, Wf u1 → Wf (k4 u0 u1)) (hk5 : ∀ u0 u1, Wf u1 → Wf (k5 u0 u1)) : Wf (State.chLoad s x1 x2 x3 k4 k5) := by
  unfold State.chLoad
  with_reducible repeat' first | assumption | intro _ | apply hk4 | apply hk5 | refine chAccess_wf (by assumption) ?_ | apply chPark_wf | refine chNear_wf (by assumption) ?_ | apply chStop_wf | apply onChain_wf | apply inject_wf | apply wf_ite | apply each_wf | split
theorem chGot_wf {s x1 x2 x3} (hs : Wf s) : Wf (State.chGot s x1 x2 x3) := by
  unfold State.chGot
  with_reducible repeat' first | assumption | apply onChain_wf
theorem chTag_wf {s x1 x2 x3} (hs : Wf s) : Wf (State.chTag s x1 x2 x3) := by
  unfold State.chTag
  with_reducible repeat' first | assumption | apply onChain_wf | apply tagTiles_wf | apply mem_wf | split | apply mk_wf
theorem chStore_wf {s x1 x2 x3 x4 x5 k6 k7} (hs : Wf s) (hk6 : ∀ u0 u1, Wf u1 → Wf (k6 u0 u1)) (hk7 : ∀ u0, Wf u0 → Wf (k7 u0)) : Wf (State.chStore s x1 x2 x3 x4 x5 k6 k7) := by
  unfold State.chStore
  with_reducible repeat' first | assumption | intro _ | apply hk6 | apply hk7 | refine chAccess_wf (by assumption) ?_ | apply chPark_wf | apply onChain_wf | apply inject_wf | apply serveStore_wf | apply chTag_wf | apply wf_ite | apply each_wf | split
theorem chNext_wf {s x1} (hs : Wf s) : Wf (State.chNext s x1) := by
  unfold State.chNext
  with_reducible repeat' first | assumption | apply onChain_wf
theorem chRead_wf {s x1} (hs : Wf s) : Wf (State.chRead s x1) := by
  unfold State.chRead
  with_reducible repeat' first | assumption | intro _ | apply chLoad_wf | apply chUnread_wf | apply onChain_wf | apply mem_wf | split | apply mk_wf
theorem execChainStart_wf {s t} (e : execChainStart s = .next t) (hs : Wf s) : Wf t := by
  unfold execChainStart at e
  with_reducible repeat' first | assumption | apply chRead_wf | apply onXeng_wf | split | cases e
theorem chAct_wf {s x1 k2 t} (e : State.chAct s x1 k2 = .next t) (hs : Wf s) (hk2 : ∀ u0 u1 u2, Wf u2 → Wf (k2 u0 u1 u2)) : Wf t := by
  unfold State.chAct at e
  with_reducible repeat' first | assumption | apply hk2 | apply onChain_wf | apply onCluster_wf | apply wf_ite | split | cases e
theorem copyElem_wf {s x1 x2 x3 x4 x5 x6} (hs : Wf s) : Wf (State.copyElem s x1 x2 x3 x4 x5 x6) := by
  unfold State.copyElem
  with_reducible repeat' first | assumption | intro _ | apply chEnd_wf | apply chLoad_wf | apply chFail_wf | apply chStore_wf | apply chNext_wf | split
theorem execCopy_wf {s t} (e : execCopy s = .next t) (hs : Wf s) : Wf t := by
  unfold execCopy at e
  with_reducible repeat' first | assumption | intro _ | refine chAct_wf (by assumption) ?_ ?_ | apply copyElem_wf | cases e
theorem execCopynd_wf {s t} (e : execCopynd s = .next t) (hs : Wf s) : Wf t := by
  unfold execCopynd at e
  with_reducible repeat' first | assumption | intro _ | refine chAct_wf (by assumption) ?_ ?_ | apply copyElem_wf | cases e
theorem execMcast_wf {s t} (e : execMcast s = .next t) (hs : Wf s) : Wf t := by
  unfold execMcast at e
  with_reducible repeat' first | assumption | intro _ | refine chAct_wf (by assumption) ?_ ?_ | apply chEnd_wf | apply chLoad_wf | apply chFail_wf | apply onChain_wf | apply chStore_wf | apply wf_ite | cases e
theorem execFill_wf {s t} (e : execFill s = .next t) (hs : Wf s) : Wf t := by
  unfold execFill at e
  with_reducible repeat' first | assumption | intro _ | refine chAct_wf (by assumption) ?_ ?_ | apply chEnd_wf | apply chStore_wf | apply chFail_wf | apply chNext_wf | apply wf_ite | cases e
theorem execLoop_wf {s t} (e : execLoop s = .next t) (hs : Wf s) : Wf t := by
  unfold execLoop at e
  with_reducible repeat' first | assumption | intro _ | refine chAct_wf (by assumption) ?_ ?_ | apply chEnd_wf | apply onChain_wf | apply wf_ite | split | cases e
theorem execCond_wf {s t} (e : execCond s = .next t) (hs : Wf s) : Wf t := by
  unfold execCond at e
  with_reducible repeat' first | assumption | intro _ | refine chAct_wf (by assumption) ?_ ?_ | apply chLoad_wf | apply chFail_wf | apply onChain_wf | apply chEnd_wf | cases e
theorem execNote_wf {s t} (e : execNote s = .next t) (hs : Wf s) : Wf t := by
  unfold execNote at e
  with_reducible repeat' first | assumption | intro _ | refine chAct_wf (by assumption) ?_ ?_ | apply chStore_wf | apply chFail_wf | apply chEnd_wf | cases e
theorem execWaitev_wf {s t} (e : execWaitev s = .next t) (hs : Wf s) : Wf t := by
  unfold execWaitev at e
  with_reducible repeat' first | assumption | intro _ | refine chAct_wf (by assumption) ?_ ?_ | apply chEnd_wf | apply chLoad_wf | apply chFail_wf | apply onChain_wf | split | cases e
theorem chRetired_wf {s x1 x2} (hs : Wf s) : Wf (State.chRetired s x1 x2) := by
  unfold State.chRetired
  with_reducible repeat' first | assumption | apply err_wf | apply onCluster_wf | apply chDrop_wf | apply chRead_wf | apply onChain_wf | apply wf_ite
theorem execCommandRetire_wf {s t} (e : execCommandRetire s = .next t) (hs : Wf s) : Wf t := by
  unfold execCommandRetire at e
  with_reducible repeat' first | assumption | intro _ | apply chRetired_wf | apply chStore_wf | apply onChain_wf | split | cases e
theorem kvTake_wf {s x1 x2 x3 k4} (hs : Wf s) (hk4 : ∀ u0, Wf u0 → Wf (k4 u0)) : Wf (State.kvTake s x1 x2 x3 k4) := by
  unfold State.kvTake
  with_reducible repeat' first | assumption | apply hk4 | apply onChain_wf | apply wf_ite
theorem kvEntry_wf {s x1 x2 x3 x4 x5 x6 k7} (hs : Wf s) (hk7 : ∀ u0 u1 u2, Wf u2 → Wf (k7 u0 u1 u2)) : Wf (State.kvEntry s x1 x2 x3 x4 x5 x6 k7) := by
  unfold State.kvEntry
  with_reducible repeat' first | assumption | apply hk7 | apply kvWalk_wf | apply chFail_wf | refine readMem_wf (by assumption) ?_ | apply chKvStop_wf | apply chEnd_wf | apply mem_wf | split | apply mk_wf
theorem kvRec_wf {s x1 x2 x3 x4 k5} (hs : Wf s) (hk5 : ∀ u0, Wf u0 → Wf (k5 u0)) : Wf (State.kvRec s x1 x2 x3 x4 k5) := by
  unfold State.kvRec
  exact readThen_wf (readMem_wf2 hs) (fun _ _ h => chKvStop_wf h) (fun _ _ h => hk5 _ h)
theorem kvDrop_wf {s x1 x2 x3 x4 k5} (hs : Wf s) (hk5 : ∀ u0, Wf u0 → Wf (k5 u0)) : Wf (State.kvDrop s x1 x2 x3 x4 k5) := by
  unfold State.kvDrop
  with_reducible repeat' first | assumption | intro _ | apply hk5 | apply kvRec_wf | apply dropRef_wf | split
theorem execKvshare_wf {s t} (e : execKvshare s = .next t) (hs : Wf s) : Wf t := by
  unfold execKvshare at e
  with_reducible repeat' first | assumption | intro _ | refine chAct_wf (by assumption) ?_ ?_ | apply kvTake_wf | apply kvEntry_wf | apply chEnd_wf | apply kvRec_wf | apply kvDrop_wf | apply writeMem_wf | apply mdWrite_wf | apply wf_ite | cases e
theorem pageTile_wf {s x1 x2 x3 x4} (hs : Wf s) : Wf (State.pageTile s x1 x2 x3 x4) := by
  unfold State.pageTile
  with_reducible repeat' first | assumption | refine readMem_wf (by assumption) ?_ | apply chKvStop_wf | apply onChain_wf | apply writeMem_wf | apply tagTiles_wf | apply mem_wf | split | apply mk_wf
theorem moving_wf {s x1 x2} (hs : Wf s) : Wf (State.moving s x1 x2) := by
  unfold State.moving
  with_reducible repeat' first | assumption | apply onDie_wf
theorem atRest_wf {s x1 x2} (hs : Wf s) : Wf (State.atRest s x1 x2) := by
  unfold State.atRest
  with_reducible repeat' first | assumption | apply onDie_wf
theorem kvmoveEnd_wf {s x1 x2 x3 x4} (hs : Wf s) : Wf (State.kvmoveEnd s x1 x2 x3 x4) := by
  unfold State.kvmoveEnd
  exact kvRec_wf hs fun s hs => kvDrop_wf (onChain_wf (endMove_wf (atRest_wf (store_wf hs)))) fun _ h => h
theorem kvmoveDrop_wf {s x1 x2 x3 x4} (hs : Wf s) : Wf (State.kvmoveDrop s x1 x2 x3 x4) := by
  unfold State.kvmoveDrop
  with_reducible repeat' first | assumption | intro _ | apply kvEntry_wf | apply kvRec_wf | apply writeMem_wf | apply chEnd_wf | apply dropRef_wf | apply wf_ite
theorem execKvmove_wf {s t} (e : execKvmove s = .next t) (hs : Wf s) : Wf t := by
  unfold execKvmove at e
  with_reducible repeat' first | assumption | intro _ | refine chAct_wf (by assumption) ?_ ?_ | apply pageTile_wf | apply kvmoveEnd_wf | apply kvmoveDrop_wf | apply kvTake_wf | apply kvEntry_wf | apply chEnd_wf | apply kvRec_wf | apply chFail_wf | refine alloc_wf (by assumption) ?_ | apply moving_wf | apply setMig_wf | apply writeMem_wf | apply onChain_wf | split | cases e
theorem promoteFrame_wf {s x1 x2 x3 r t} (e : State.promoteFrame s x1 x2 x3 = (r, t)) (hs : Wf s) : Wf t := by
  unfold State.promoteFrame at e
  try dsimp only at e
  with_reducible repeat' first | assumption | apply onSlot_wf | apply onDie_wf | split at e | cases e
theorem promoteFrame_wf2 {s x1 x2 x3} (hs : Wf s) : Wf (State.promoteFrame s x1 x2 x3).2 := promoteFrame_wf eta2 hs
theorem moveEnts_wf {s x1 x2 x3 x4 r t} (e : State.moveEnts s x1 x2 x3 x4 = (r, t)) (hs : Wf s) : Wf t := by
  induction x4 generalizing s x1 x2 x3 r t with
  | nil =>
    unfold State.moveEnts at e
    try dsimp only at e
    repeat' first | (with_reducible assumption) | (with_reducible intro _) | (with_reducible apply readMem_wf2) | (with_reducible refine readMem_wf (by assumption) ?_) | (with_reducible apply writeMem_wf) | (with_reducible apply wf_ite) | (with_reducible apply elim_wf) | (with_reducible apply mem_wf) | (with_reducible apply each_wf) | (with_reducible apply getD_wf) | (with_reducible apply wf_memPut) | (with_reducible apply foldl_memPut_wf) | (with_reducible apply wf_filter) | (split) | (split at e) | (cases e) | (dsimp only) | (with_reducible apply mk_wf)
  | cons y l ih =>
    unfold State.moveEnts at e
    try dsimp only at e
    repeat' first | (with_reducible assumption) | (with_reducible intro _) | (with_reducible refine ih (by assumption) ?_) | (exact ih rfl ‹_›) | (with_reducible apply readMem_wf2) | (with_reducible refine readMem_wf (by assumption) ?_) | (with_reducible apply writeMem_wf) | (with_reducible apply wf_ite) | (with_reducible apply elim_wf) | (with_reducible apply mem_wf) | (with_reducible apply each_wf) | (with_reducible apply getD_wf) | (with_reducible apply wf_memPut) | (with_reducible apply foldl_memPut_wf) | (with_reducible apply wf_filter) | (split) | (split at e) | (cases e) | (dsimp only) | (with_reducible apply mk_wf)
theorem moveEnd_wf {s x1 x2 x3} (hs : Wf s) : Wf (State.moveEnd s x1 x2 x3) := by
  unfold State.moveEnd
  with_reducible repeat' first | assumption | apply mdWrite_wf | apply onChain_wf | apply endMove_wf | apply atRest_wf
theorem moveRewrite_wf {s x1 x2 x3 x4 x5} (hs : Wf s) : Wf (State.moveRewrite s x1 x2 x3 x4 x5) := by
  unfold State.moveRewrite
  with_reducible repeat' first | assumption | refine moveEnts_wf (by assumption) ?_ | apply chKvStop_wf | apply chEnd_wf | apply wf_ite | split
theorem promoteBegin_wf {s x1 x2 x3} (hs : Wf s) : Wf (State.promoteBegin s x1 x2 x3) := by
  unfold State.promoteBegin
  with_reducible repeat' first | assumption | intro _ | apply promoteFrame_wf2 | apply chEnd_wf | apply moving_wf | apply setMig_wf | apply onSlot_wf | apply onChain_wf | apply elim_wf | split
theorem execPromote_wf {s t} (e : execPromote s = .next t) (hs : Wf s) : Wf t := by
  unfold execPromote at e
  with_reducible repeat' first | assumption | intro _ | refine chAct_wf (by assumption) ?_ ?_ | apply pageTile_wf | apply moveEnd_wf | apply writeMem_wf | apply moveRewrite_wf | apply kvRec_wf | apply chEnd_wf | apply chFail_wf | apply promoteBegin_wf | apply wf_ite | split | cases e
theorem execDemote_wf {s t} (e : execDemote s = .next t) (hs : Wf s) : Wf t := by
  unfold execDemote at e
  with_reducible repeat' first | assumption | intro _ | refine chAct_wf (by assumption) ?_ ?_ | apply pageTile_wf | apply moveEnd_wf | apply writeMem_wf | apply freeFramePa_wf | apply moveRewrite_wf | apply kvRec_wf | apply chEnd_wf | apply chFail_wf | apply moving_wf | apply setMig_wf | apply onChain_wf | apply wf_ite | split | cases e
theorem execKvmark_wf {s t} (e : execKvmark s = .next t) (hs : Wf s) : Wf t := by
  unfold execKvmark at e
  with_reducible repeat' first | assumption | intro _ | refine chAct_wf (by assumption) ?_ ?_ | apply kvTake_wf | apply kvEntry_wf | apply chEnd_wf | apply kvRec_wf | apply mdWrite_wf | apply wf_ite | apply each_wf | cases e
theorem chRetry_wf {s x1 x2 x3} (hs : Wf s) : Wf (State.chRetry s x1 x2 x3) := by
  unfold State.chRetry
  with_reducible repeat' first | assumption | refine chPieces_wf (by assumption) ?_ | apply err_wf | apply onChain_wf | apply chUnread_wf | apply chRetired_wf | apply chFail_wf | apply wf_ite | split
theorem chLost_wf {s x1 x2 x3} (hs : Wf s) : Wf (State.chLost s x1 x2 x3) := by
  unfold State.chLost
  with_reducible repeat' first | assumption | apply chUnread_wf | apply onChain_wf | apply chEnd_wf | split
theorem dropSlot_wf {s x1} (hs : Wf s) : Wf (State.dropSlot s x1) := by
  unfold State.dropSlot
  with_reducible repeat' first | assumption | apply mem_wf | apply mk_wf
theorem setSlot_wf {s x1 x2} (hs : Wf s) : Wf (State.setSlot s x1 x2) := by
  unfold State.setSlot
  with_reducible repeat' first | assumption | apply mem_wf | apply mk_wf
theorem ackSlot_wf {s x1 x2} (hs : Wf s) : Wf (State.ackSlot s x1 x2) := by
  unfold State.ackSlot
  with_reducible repeat' first | assumption | apply setSlot_wf
theorem lostRecord_wf {s x1 x2} (hs : Wf s) : Wf (State.lostRecord s x1 x2) := by
  unfold State.lostRecord
  with_reducible repeat' first | assumption | apply err_wf
theorem undeliver_wf {s x1 x2 x3} (hs : Wf s) : Wf (State.undeliver s x1 x2 x3) := by
  unfold State.undeliver
  with_reducible repeat' first | assumption | apply send_wf | apply lostRecord_wf | apply dropSlot_wf
theorem refuseSlot_wf {s x1 x2} (hs : Wf s) : Wf (State.refuseSlot s x1 x2) := by
  unfold State.refuseSlot
  with_reducible repeat' first | assumption | apply countRefuse_wf | apply setSlot_wf | split
theorem arrive_wf {s x1 k2 t} (e : State.arrive s x1 k2 = .next t) (hs : Wf s) (hk2 : ∀ u0 u1 u2, Wf u2 → Wf (k2 u0 u1 u2)) : Wf t := by
  unfold State.arrive at e
  with_reducible repeat' first | assumption | apply hk2 | apply undeliver_wf | apply refuseSlot_wf | apply setSlot_wf | split | cases e
theorem answer_wf {s x1 k2 t} (e : State.answer s x1 k2 = .next t) (hs : Wf s) (hk2 : ∀ u0 u1 u2, Wf u2 → Wf (k2 u0 u1 u2)) : Wf t := by
  unfold State.answer at e
  with_reducible repeat' first | assumption | apply hk2 | apply undeliver_wf | apply dropSlot_wf | split | cases e
theorem ofJob_wf {s x1 x2 x3} (hs : Wf s) : Wf (State.ofJob s x1 x2 x3) := by
  unfold State.ofJob
  with_reducible repeat' first | assumption | apply onCore_wf
theorem execPostedWrite_wf {s t} (e : execPostedWrite s = .next t) (hs : Wf s) : Wf t := by
  rw [execPostedWrite] at e
  refine arrive_wf e hs fun k f s hs => ?_
  dsimp only
  split
  · exact wf_ite (chTag_wf (ackSlot_wf (serveStore_wf hs))) (ackSlot_wf (serveStore_wf hs))
  · exact ackSlot_wf (serveStore_wf hs)
theorem slotBad_wf {s x1 x2} (hs : Wf s) : Wf (State.slotBad s x1 x2) := by
  unfold State.slotBad
  with_reducible repeat' first | assumption | apply chStop_wf | apply discardJob_wf | apply mem_wf | split | apply mk_wf
theorem execReadRequest_wf {s t} (e : execReadRequest s = .next t) (hs : Wf s) : Wf t := by
  unfold execReadRequest at e
  with_reducible repeat' first | assumption | intro _ | refine arrive_wf (by assumption) ?_ ?_ | apply noteTag_wf | refine serveLoad_wf (by assumption) ?_ | apply setSlot_wf | apply slotBad_wf | apply dropSlot_wf | apply mem_wf | split | cases e | apply mk_wf
theorem execReadResponse_wf {s t} (e : execReadResponse s = .next t) (hs : Wf s) : Wf t := by
  unfold execReadResponse at e
  with_reducible repeat' first | assumption | intro _ | refine answer_wf (by assumption) ?_ ?_ | apply chGot_wf | apply accBack_wf | apply ofJob_wf | split | cases e
theorem execAcknowledgement_wf {s t} (e : execAcknowledgement s = .next t) (hs : Wf s) : Wf t := by
  unfold execAcknowledgement at e
  with_reducible repeat' first | assumption | intro _ | refine answer_wf (by assumption) ?_ ?_ | apply setOut_wf | apply accBack_wf | apply onPlan_wf | split | cases e
theorem execRemoteAtomic_wf {s t} (e : execRemoteAtomic s = .next t) (hs : Wf s) : Wf t := by
  unfold execRemoteAtomic at e
  with_reducible repeat' first | assumption | intro _ | refine arrive_wf (by assumption) ?_ ?_ | refine atomicAt_wf (by assumption) ?_ | apply setSlot_wf | apply slotBad_wf | apply dropSlot_wf | apply mem_wf | split | cases e | apply mk_wf
theorem execAtomicResult_wf {s t} (e : execAtomicResult s = .next t) (hs : Wf s) : Wf t := by
  unfold execAtomicResult at e
  with_reducible repeat' first | assumption | intro _ | refine answer_wf (by assumption) ?_ ?_ | apply ofJob_wf | cases e
theorem execConsignmentStore_wf {s t} (e : execConsignmentStore s = .next t) (hs : Wf s) : Wf t := by
  unfold execConsignmentStore at e
  with_reducible repeat' first | assumption | intro _ | refine arrive_wf (by assumption) ?_ ?_ | apply ackSlot_wf | apply tagged_wf | cases e
theorem execSlotReinject_wf {s t} (e : execSlotReinject s = .next t) (hs : Wf s) : Wf t := by
  unfold execSlotReinject at e
  with_reducible repeat' first | assumption | apply undeliver_wf | apply setSlot_wf | apply wf_ite | split | cases e
theorem accWriteLost_wf {s x1 x2 x3} (hs : Wf s) : Wf (State.accWriteLost s x1 x2 x3) := by
  unfold State.accWriteLost
  with_reducible repeat' first | assumption | apply ofJob_wf | apply accBack_wf | apply wf_ite
theorem slotLost_wf {s x1 x2} (hs : Wf s) : Wf (State.slotLost s x1 x2) := by
  unfold State.slotLost
  with_reducible repeat' first | assumption | apply setOut_wf | apply abortReq_wf | apply ofJob_wf | apply accWriteLost_wf | apply trap_wf | apply chLost_wf | apply planAbort_wf | apply mem_wf | split | apply mk_wf
theorem execFailureNotice_wf {s t} (e : execFailureNotice s = .next t) (hs : Wf s) : Wf t := by
  unfold execFailureNotice at e
  with_reducible repeat' first | assumption | refine takeMsg_wf (by assumption) ?_ | apply slotLost_wf | split at e | cases e
theorem execSync_wf {s t} (e : execSync s = .next t) (hs : Wf s) : Wf t := by
  unfold execSync at e
  with_reducible repeat' first | assumption | refine when_wf (by assumption) ?_ ?_ | apply mem_wf | cases e | apply mk_wf
theorem execTiming_wf {s t} (e : execTiming s = .next t) (hs : Wf s) : Wf t := by
  unfold execTiming at e
  with_reducible repeat' first | assumption | refine takeMsg_wf (by assumption) ?_ | apply send_wf | apply mem_wf | split | split at e | cases e | apply mk_wf
theorem planPark_wf {s x1 x2 x3 x4 x5 x6 x7} (hs : Wf s) : Wf (State.planPark s x1 x2 x3 x4 x5 x6 x7) := by
  unfold State.planPark
  with_reducible repeat' first | assumption | apply onPlan_wf | apply countPark_wf | apply err_wf | split
theorem planPiece_wf {s x1 x2 x3 x4 x5 r t} (e : State.planPiece s x1 x2 x3 x4 x5 = (r, t)) (hs : Wf s) : Wf t := by
  rw [show t = (State.planPiece s x1 x2 x3 x4 x5).2 by rw [e]]
  exact portPiece_wf2 hs
theorem planPiece_wf2 {s x1 x2 x3 x4 x5} (hs : Wf s) : Wf (State.planPiece s x1 x2 x3 x4 x5).2 := planPiece_wf eta2 hs
theorem planPieces_wf {s x1 x2 x3 x4 r t} (e : State.planPieces s x1 x2 x3 x4 = (r, t)) (hs : Wf s) : Wf t := by
  induction x4 generalizing s r t with
  | nil => cases e; exact hs
  | cons y l ih =>
    unfold State.planPieces at e
    have h := planPiece_wf2 (s := s) (x1 := x1) (x2 := x2) (x3 := x3) (x4 := y.1) (x5 := y.2) hs
    generalize State.planPiece s x1 x2 x3 y.1 y.2 = p at e h
    rcases p with ⟨_ | _ | _ | _, u⟩ <;> dsimp only at e h
    all_goals first | (cases e; exact h) | skip
    have h2 := ih (s := u) rfl h
    generalize State.planPieces u x1 x2 x3 l = q at e h2
    rcases q with ⟨_ | _ | _, u2⟩ <;> (cases e; exact h2)
theorem planPieces_wf2 {s x1 x2 x3 x4} (hs : Wf s) : Wf (State.planPieces s x1 x2 x3 x4).2 := planPieces_wf eta2 hs
theorem planAccess_wf {s x1 x2 x3 x4 x5 x6 x7 k8} (hs : Wf s) (hk8 : ∀ u0 u1, Wf u1 → Wf (k8 u0 u1)) : Wf (State.planAccess s x1 x2 x3 x4 x5 x6 x7 k8) := by
  unfold State.planAccess
  dsimp only
  have h := planPieces_wf2 (s := s) (x1 := x1) (x2 := x3) (x3 := x4) (x4 := pageSplit x5 x6 (x6 / 8192 + 2)) hs
  generalize pageSplit x5 x6 (x6 / 8192 + 2) = l at h ⊢
  generalize State.planPieces s x1 x3 x4 l = p at h ⊢
  rcases p with ⟨_ | _ | _, t⟩ <;> dsimp only at h ⊢
  repeat' first | (with_reducible assumption) | (with_reducible apply hk8) | (with_reducible apply planAbort_wf) | (with_reducible apply planPark_wf) | (with_reducible apply onPlan_wf) | split
theorem planRead_wf {s x1 x2 r t} (e : State.planRead s x1 x2 = (r, t)) (hs : Wf s) : Wf t := by
  rw [show t = (State.planRead s x1 x2).2 by rw [e]]
  unfold State.planRead
  refine foldl_wf (g := Prod.snd) (fun b a h => ?_) hs
  repeat' first | (with_reducible assumption) | split | (with_reducible refine readMem_wf (by assumption) ?_)
theorem discardHeld_wf {s x1 x2 x3} (hs : Wf s) : Wf (State.discardHeld s x1 x2 x3) := by
  unfold State.discardHeld
  with_reducible repeat' first | assumption | apply onCore_wf | apply err_wf | apply jobLost_wf
theorem planBad_wf {s x1 x2 x3 x4} (hs : Wf s) : Wf (State.planBad s x1 x2 x3 x4) := by
  unfold State.planBad
  with_reducible repeat' first | assumption | apply discardJob_wf | apply discardHeld_wf | apply err_wf | apply planAbort_wf | apply wf_ite | split
theorem planEmit_wf {s x1 x2 x3} (hs : Wf s) : Wf (State.planEmit s x1 x2 x3) := by
  unfold State.planEmit
  with_reducible repeat' first | assumption | intro _ | apply planAccess_wf | apply planAbort_wf | apply lostRecord_wf | refine planRead_wf (by assumption) ?_ | apply planBad_wf | apply inject_wf | apply onPlan_wf | split
theorem planTransfer_wf {s x1 x2 x3} (hs : Wf s) : Wf (State.planTransfer s x1 x2 x3) := by
  unfold State.planTransfer
  with_reducible repeat' first | assumption | intro _ | apply planEmit_wf | apply planAccess_wf | refine planRead_wf (by assumption) ?_ | apply planBad_wf | apply planAbort_wf | apply onPlan_wf | apply wf_ite | split
theorem execPlanFiringStart_wf {s t} (e : execPlanFiringStart s = .next t) (hs : Wf s) : Wf t := by
  unfold execPlanFiringStart at e
  with_reducible repeat' first | assumption | apply planTransfer_wf | apply onPlan_wf | split | cases e
theorem execPlanFiringComplete_wf {s t} (e : execPlanFiringComplete s = .next t) (hs : Wf s) : Wf t := by
  unfold execPlanFiringComplete at e
  with_reducible repeat' first | assumption | intro _ | apply planAccess_wf | apply serveStore_wf | apply onPlan_wf | split | cases e
theorem planTag_wf {s x1 x2 x3 x4} (hs : Wf s) : Wf (State.planTag s x1 x2 x3 x4) := by
  unfold State.planTag
  with_reducible repeat' first | assumption | apply onDie_wf | apply tagTiles_wf | apply setWayAt_wf | apply wf_ite | split
theorem planLine_wf {s x1 x2 x3 x4} (hs : Wf s) : Wf (State.planLine s x1 x2 x3 x4) := by
  unfold State.planLine
  with_reducible repeat' first | assumption | apply writeMem_wf | refine placeAtomic_wf (by assumption) ?_ | apply mend_wf | apply setCombLine_wf | split
theorem planTake_wf {s x1 x2 x3 x4 x5 x6 x7} (hs : Wf s) : Wf (State.planTake s x1 x2 x3 x4 x5 x6 x7) := by
  unfold State.planTake
  with_reducible repeat' first | assumption | intro _ | apply onPlan_wf | apply planTag_wf | apply each_wf
theorem planApply_wf {s x1 x2 x3 x4 x5 x6} (hs : Wf s) : Wf (State.planApply s x1 x2 x3 x4 x5 x6) := by
  unfold State.planApply
  split
  · assumption
  rename_i p _
  dsimp only
  generalize linePieces _ _ _ _ = l
  split
  · have h := taggedIn_wf2 (s := s) (x1 := x1) (x2 := p.boundOf x4) (x3 := x5) (x4 := pEtype p.bytes) (x5 := x6) hs
    generalize State.taggedIn s x1 (p.boundOf x4) x5 (pEtype p.bytes) x6 = q at h ⊢
    rcases q with ⟨t, _ | _⟩
    · exact h
    · exact planTake_wf h
  generalize (if pEtype p.bytes = 0 then none else _ : Option Nat) = w
  rcases w with _ | w <;> dsimp only
  repeat' first | (with_reducible assumption) | (with_reducible apply planTake_wf) | (with_reducible apply planBad_wf) | (with_reducible apply metBad_wf) | (with_reducible apply each_wf) | (with_reducible intro _) | (with_reducible apply planLine_wf)
theorem execPlanTransfer_wf {s t} (e : execPlanTransfer s = .next t) (hs : Wf s) : Wf t := by
  unfold execPlanTransfer at e
  with_reducible repeat' first | assumption | intro _ | refine arrive_wf (by assumption) ?_ ?_ | apply ackSlot_wf | apply dropSlot_wf | apply onPlan_wf | apply ackAll_wf | apply planApply_wf | apply mem_wf | split | cases e | apply mk_wf
theorem execTriggerWrite_wf {s t} (e : execTriggerWrite s = .next t) (hs : Wf s) : Wf t := by
  unfold execTriggerWrite at e
  with_reducible repeat' first | assumption | apply triggerStore_wf | cases e
theorem execPlanStall_wf {s t} (e : execPlanStall s = .next t) (hs : Wf s) : Wf t := by
  unfold execPlanStall at e
  try dsimp only at e
  with_reducible repeat' first | assumption | refine when_wf (by assumption) ?_ ?_ | apply planAbort_wf | split at e | cases e
theorem planNoticed_wf {s x1 k2 t} (e : State.planNoticed s x1 k2 = .next t) (hs : Wf s) (hk2 : ∀ u0 u1 u2 u3, Wf u3 → Wf (k2 u0 u1 u2 u3)) : Wf t := by
  unfold State.planNoticed at e
  with_reducible repeat' first | assumption | apply hk2 | refine takeMsg_wf (by assumption) ?_ | split at e | cases e
theorem execPlanHoldNotice_wf {s t} (e : execPlanHoldNotice s = .next t) (hs : Wf s) : Wf t := by
  unfold execPlanHoldNotice at e
  with_reducible repeat' first | assumption | intro _ | refine planNoticed_wf (by assumption) ?_ ?_ | apply onPlan_wf | cases e
theorem execPlanReleaseNotice_wf {s t} (e : execPlanReleaseNotice s = .next t) (hs : Wf s) : Wf t := by
  unfold execPlanReleaseNotice at e
  with_reducible repeat' first | assumption | intro _ | refine planNoticed_wf (by assumption) ?_ ?_ | apply onPlan_wf | cases e
theorem execPlanAbortNotice_wf {s t} (e : execPlanAbortNotice s = .next t) (hs : Wf s) : Wf t := by
  unfold execPlanAbortNotice at e
  with_reducible repeat' first | assumption | intro _ | refine planNoticed_wf (by assumption) ?_ ?_ | apply planAbort_wf | cases e
theorem execHoldCeilingExpiry_wf {s t} (e : execHoldCeilingExpiry s = .next t) (hs : Wf s) : Wf t := by
  unfold execHoldCeilingExpiry at e
  try dsimp only at e
  with_reducible repeat' first | assumption | refine when_wf (by assumption) ?_ ?_ | apply planAbort_wf | split at e | cases e
theorem execMergedWrite_wf {s t} (e : execMergedWrite s = .next t) (hs : Wf s) : Wf t := by
  unfold execMergedWrite at e
  with_reducible repeat' first | assumption | intro _ | apply setWayAt_wf | apply store_wf | apply tagTiles_wf | apply wf_ite | apply each_wf | split | cases e
theorem planRetry_wf {s x1 x2 x3 x4} (hs : Wf s) : Wf (State.planRetry s x1 x2 x3 x4) := by
  unfold State.planRetry
  with_reducible repeat' first | assumption | refine planPieces_wf (by assumption) ?_ | apply planAbort_wf | apply err_wf | apply onPlan_wf | split
theorem streamRetry_wf {s x1 x2} (hs : Wf s) : Wf (State.streamRetry s x1 x2) := by
  unfold State.streamRetry
  have h := xlatePieces_wf2 (s := s) (x1 := x2.need) (x2 := x2.span) hs
  generalize State.xlatePieces s x2.need x2.span = p at h ⊢
  rcases p with ⟨_ | _ | _, t⟩ <;> dsimp only at h ⊢
  repeat' first | (with_reducible assumption) | (with_reducible apply onBlk_wf) | split | (with_reducible apply trapSub_wf) | (with_reducible apply err_wf)
theorem takenRetry_wf {s x1 x2} (hs : Wf s) : Wf (State.takenRetry s x1 x2) := by
  unfold State.takenRetry
  with_reducible repeat' first | assumption | apply err_wf | apply recErr_wf | apply onCore_wf | apply startRec_wf | apply wf_ite | apply mem_wf | split | apply mk_wf
theorem execParkRetry_wf {s t} (e : execParkRetry s = .next t) (hs : Wf s) : Wf t := by
  unfold execParkRetry at e
  with_reducible repeat' first | assumption | apply takenRetry_wf | apply streamRetry_wf | apply chRetry_wf | apply planRetry_wf | apply mem_wf | split | cases e | apply mk_wf
theorem scrubBad_wf {s x1 x2 x3} (hs : Wf s) : Wf (State.scrubBad s x1 x2 x3) := by
  unfold State.scrubBad
  with_reducible repeat' first | assumption | apply err_wf | apply metBad_wf
theorem execScrub_wf {s t} (e : execScrub s = .next t) (hs : Wf s) : Wf t := by
  unfold execScrub at e
  with_reducible repeat' first | assumption | refine when_wf (by assumption) ?_ ?_ | apply scrubBad_wf | apply repair_wf | split | cases e
theorem onEth_wf {s x1 x2} (hs : Wf s) : Wf (State.onEth s x1 x2) := by
  unfold State.onEth
  with_reducible repeat' first | assumption | apply onDie_wf
theorem ethAdvance_wf {s x1 x2} (hs : Wf s) : Wf (State.ethAdvance s x1 x2) := by
  induction x2 generalizing s x1 with
  | zero =>
    unfold State.ethAdvance
    try dsimp only
    repeat' first | (with_reducible assumption) | (with_reducible intro _) | (with_reducible apply onDie_wf) | (with_reducible apply onEth_wf) | (with_reducible apply wf_ite) | (with_reducible apply elim_wf) | (with_reducible apply mem_wf) | (with_reducible apply each_wf) | (with_reducible apply getD_wf) | (with_reducible apply wf_memPut) | (with_reducible apply foldl_memPut_wf) | (with_reducible apply wf_filter) | (split) | (dsimp only) | (with_reducible apply mk_wf)
  | succ y ih =>
    unfold State.ethAdvance
    try dsimp only
    repeat' first | (with_reducible assumption) | (with_reducible intro _) | (with_reducible apply ih) | (with_reducible apply onDie_wf) | (with_reducible apply onEth_wf) | (with_reducible apply wf_ite) | (with_reducible apply elim_wf) | (with_reducible apply mem_wf) | (with_reducible apply each_wf) | (with_reducible apply getD_wf) | (with_reducible apply wf_memPut) | (with_reducible apply foldl_memPut_wf) | (with_reducible apply wf_filter) | (split) | (dsimp only) | (with_reducible apply mk_wf)
theorem ethOver_wf {s x1 x2} (hs : Wf s) : Wf (State.ethOver s x1 x2) := by
  unfold State.ethOver
  with_reducible repeat' first | assumption | apply onEth_wf | apply ethAdvance_wf
theorem ethFail_wf {s x1 x2 x3} (hs : Wf s) : Wf (State.ethFail s x1 x2 x3) := by
  unfold State.ethFail
  with_reducible repeat' first | assumption | apply ethOver_wf | apply err_wf | split
theorem execEthernetSend_wf {s t} (e : execEthernetSend s = .next t) (hs : Wf s) : Wf t := by
  unfold execEthernetSend at e
  with_reducible repeat' first | assumption | refine when_wf (by assumption) ?_ ?_ | apply onEth_wf | cases e
theorem ethSome_wf {s x1 x2} (hs : Wf s) : Wf (State.ethSome s x1 x2) := by
  unfold State.ethSome
  with_reducible repeat' first | assumption | apply onEth_wf
theorem execEthernetAck_wf {s t} (e : execEthernetAck s = .next t) (hs : Wf s) : Wf t := by
  unfold execEthernetAck at e
  with_reducible repeat' first | assumption | refine when_wf (by assumption) ?_ ?_ | apply ethSome_wf | apply ethOver_wf | split | cases e
theorem execNegativeAcknowledgement_wf {s t} (e : execNegativeAcknowledgement s = .next t) (hs : Wf s) : Wf t := by
  unfold execNegativeAcknowledgement at e
  with_reducible repeat' first | assumption | refine when_wf (by assumption) ?_ ?_ | apply ethFail_wf | cases e
theorem ethDown_wf {s x1} (hs : Wf s) : Wf (State.ethDown s x1) := by
  unfold State.ethDown
  with_reducible repeat' first | assumption | intro _ | apply onEth_wf | apply ethFail_wf | apply each_wf
theorem execEthernetLinkDown_wf {s t} (e : execEthernetLinkDown s = .next t) (hs : Wf s) : Wf t := by
  unfold execEthernetLinkDown at e
  with_reducible repeat' first | assumption | apply ethDown_wf | cases e
theorem execEthernetAckTimeout_wf {s t} (e : execEthernetAckTimeout s = .next t) (hs : Wf s) : Wf t := by
  unfold execEthernetAckTimeout at e
  with_reducible repeat' first | assumption | refine when_wf (by assumption) ?_ ?_ | apply ethDown_wf | cases e
theorem execContextTeardown_wf {s t} (e : execContextTeardown s = .next t) (hs : Wf s) : Wf t := by
  unfold execContextTeardown at e
  try dsimp only at e
  with_reducible repeat' first | assumption | refine when_wf (by assumption) ?_ ?_ | apply onEth_wf | split at e | cases e
theorem execEthernetWrite_wf {s t} (e : execEthernetWrite s = .next t) (hs : Wf s) : Wf t := by
  unfold execEthernetWrite at e
  with_reducible repeat' first | assumption | intro _ | apply onEth_wf | apply err_wf | apply tagged_wf | apply store_wf | apply tagTiles_wf | apply each_wf | split | cases e
theorem romLoad_wf {s x1} (hs : Wf s) : Wf (State.romLoad s x1) := by
  unfold State.romLoad
  with_reducible repeat' first | assumption | apply store_wf | apply onDie_wf | apply wf_ite
theorem execDeviceReset_wf {s t} (e : execDeviceReset s = .next t) (hs : Wf s) : Wf t := by
  have h0 : ∀ m, Memory.wf m = true → Wf { State.reset with mem := m, tick := s.tick, agenda := s.agenda, here := s.here, fresh := s.fresh } :=
    fun _ h => h
  have h1 : ∀ (l : List Nat) (u : State), Wf u → Wf (each (fun k s => s.romLoad (s.here.die / 8 * 8 + k)) l u) :=
    fun _ _ h => each_wf (fun _ _ h => romLoad_wf h) h
  exact Host.Outcome.next.inj e ▸ h1 _ _ (h0 _ (wf_filter _ (mem_wf hs)))
theorem serviceImage_wf {s x1 x2} (hs : Wf s) : Wf (State.serviceImage s x1 x2) := by
  unfold State.serviceImage
  with_reducible repeat' first | assumption | apply onDie_wf | apply store_wf | split
theorem rootAct_wf {s x1 x2 x3 x4} (hs : Wf s) : Wf (State.rootAct s x1 x2 x3 x4) := by
  unfold State.rootAct
  with_reducible repeat' first | assumption | apply romLoad_wf | apply store64_wf | apply onDie_wf | apply store_wf | apply serviceImage_wf | apply rootWrite_wf | split
theorem execAttestationRequest_wf {s t} (e : execAttestationRequest s = .next t) (hs : Wf s) : Wf t := by
  unfold execAttestationRequest at e
  with_reducible repeat' first | assumption | refine when_wf (by assumption) ?_ ?_ | apply store64_wf | apply store_wf | cases e
theorem execTelemetryUpdate_wf {s t} (e : execTelemetryUpdate s = .next t) (hs : Wf s) : Wf t := by
  unfold execTelemetryUpdate at e
  with_reducible repeat' first | assumption | refine when_wf (by assumption) ?_ ?_ | apply onDie_wf | cases e
theorem execRingStationRun_wf {s t} (e : execRingStationRun s = .next t) (hs : Wf s) : Wf t := by
  unfold execRingStationRun at e
  with_reducible repeat' first | assumption | refine when_wf (by assumption) ?_ ?_ | apply rscfg_wf | cases e
theorem execRingStationStop_wf {s t} (e : execRingStationStop s = .next t) (hs : Wf s) : Wf t := by
  unfold execRingStationStop at e
  with_reducible repeat' first | assumption | refine when_wf (by assumption) ?_ ?_ | apply rscfg_wf | cases e
theorem slowCopy_wf {s x1 x2 x3} (hs : Wf s) : Wf (State.slowCopy s x1 x2 x3) := by
  unfold State.slowCopy
  with_reducible repeat' first | assumption | apply slow_wf | apply wf_ite
theorem execWloadComplete_wf {s t} (e : execWloadComplete s = .next t) (hs : Wf s) : Wf t := by
  unfold execWloadComplete at e
  try dsimp only at e
  with_reducible repeat' first | assumption | apply slowCopy_wf | apply copyRange_wf | apply onFrame_wf | apply wloadErr_wf | apply onDie_wf | split at e | cases e
theorem execRpair_wf {s t} (e : execRpair s = .next t) (hs : Wf s) : Wf t := by
  unfold execRpair at e
  with_reducible repeat' first | assumption | refine when_wf (by assumption) ?_ ?_ | apply rootWrite_wf | cases e
theorem execRingcfgWrite_wf {s t} (e : execRingcfgWrite s = .next t) (hs : Wf s) : Wf t := by
  unfold execRingcfgWrite at e
  with_reducible repeat' first | assumption | refine when_wf (by assumption) ?_ ?_ | apply rootWrite_wf | cases e
theorem openDue_wf {s x1 x2 x3} (hs : Wf s) : Wf (State.openDue s x1 x2 x3) := by
  unfold State.openDue
  dsimp only
  generalize (if (ttEnt s x1 x2).src = 0 then some (ttEnt s x1 x2).frame else heldFrame (s.dieAt x1) x2 (entSt (s.dieAt x1) x2).next0) = f
  cases f <;> simp only [Option.elim]
  · exact onEnt_wf hs
  · exact wf_ite (openFr_wf (onEnt_wf hs)) (onEnt_wf hs)
theorem present0_wf {s x1 x2} (hs : Wf s) : Wf (State.present0 s x1 x2) := by
  unfold State.present0
  exact dispatchAll_wf (dispatchRound_wf2 (wf_ite (boundary_wf (onEnt_wf hs)) (onEnt_wf hs)))
theorem presentDue_wf {s x1 x2 x3} (hs : Wf s) : Wf (State.presentDue s x1 x2 x3) := by
  unfold State.presentDue
  with_reducible repeat' first | assumption | apply openDue_wf | apply present0_wf | apply wf_ite
theorem execTagPresentation_wf {s t} (e : execTagPresentation s = .next t) (hs : Wf s) : Wf t := by
  unfold execTagPresentation at e
  with_reducible repeat' first | assumption | intro _ | apply presentDue_wf | apply elim_wf | split | cases e
theorem round1_wf {s x1 x2 x3} (hs : Wf s) : Wf (State.round1 s x1 x2 x3) := by
  unfold State.round1
  with_reducible repeat' first | assumption | apply onEnt_wf | apply dispatchRound_wf2 | apply dispatchAll_wf | apply missRound_wf | apply wf_ite
theorem execDispatchRound1_wf {s t} (e : execDispatchRound1 s = .next t) (hs : Wf s) : Wf t := by
  unfold execDispatchRound1 at e
  with_reducible repeat' first | assumption | apply round1_wf | split | cases e
theorem execFrameClose_wf {s t} (e : execFrameClose s = .next t) (hs : Wf s) : Wf t := by
  unfold execFrameClose at e
  with_reducible repeat' first | assumption | apply onEnt_wf | apply forward_wf | split | cases e
theorem execSegmentLanding_wf {s t} (e : execSegmentLanding s = .next t) (hs : Wf s) : Wf t := by
  unfold execSegmentLanding at e
  with_reducible repeat' first | assumption | refine when_wf (by assumption) ?_ ?_ | apply segLand_wf | apply segFirst_wf | split | split at e | cases e
theorem execLandingAcknowledgement_wf {s t} (e : execLandingAcknowledgement s = .next t) (hs : Wf s) : Wf t := by
  unfold execLandingAcknowledgement at e
  with_reducible repeat' first | assumption | refine when_wf (by assumption) ?_ ?_ | apply frameAcked_wf | apply mem_wf | split at e | cases e | apply mk_wf
theorem markLink_wf {s x1 x2 x3} (hs : Wf s) : Wf (State.markLink s x1 x2 x3) := by
  unfold State.markLink
  with_reducible repeat' first | assumption | intro _ | apply onDie_wf | apply each_wf
theorem execAckTimeoutResend_wf {s t} (e : execAckTimeoutResend s = .next t) (hs : Wf s) : Wf t := by
  unfold execAckTimeoutResend at e
  with_reducible repeat' first | assumption | apply err_wf | apply markLink_wf | apply countResend_wf | refine when_wf (by assumption) ?_ ?_ | apply mem_wf | split | split at e | cases e | apply mk_wf
theorem execSlotPark_wf {s t} (e : execSlotPark s = .next t) (hs : Wf s) : Wf t := by
  unfold execSlotPark at e
  with_reducible repeat' first | assumption | refine when_wf (by assumption) ?_ ?_ | apply onSlot_wf | cases e
theorem bypassPlans_wf {s x1} (hs : Wf s) : Wf (State.bypassPlans s x1) := by
  unfold State.bypassPlans
  with_reducible repeat' first | assumption | intro _ | apply planAbort_wf | apply coordAbort_wf | apply destAbort_wf | apply endTagging_wf | apply onDie_wf | apply each_wf | split
theorem bypassSegs_wf {s x1} (hs : Wf s) : Wf (State.bypassSegs s x1) := by
  unfold State.bypassSegs
  with_reducible repeat' first | assumption | apply mem_wf | apply mk_wf
theorem bypassDie_wf {s x1} (hs : Wf s) : Wf (State.bypassDie s x1) := by
  unfold State.bypassDie
  with_reducible repeat' first | assumption | intro _ | apply retire_wf | apply onSlot_wf | apply bypassSegs_wf | apply onDie_wf | apply err_wf | apply bypassPlans_wf | apply each_wf
theorem execBypass_wf {s t} (e : execBypass s = .next t) (hs : Wf s) : Wf t := by
  unfold execBypass at e
  with_reducible repeat' first | assumption | intro _ | apply bypassDie_wf | apply elim_wf | split | cases e
theorem execSlotResendRequest_wf {s t} (e : execSlotResendRequest s = .next t) (hs : Wf s) : Wf t := by
  unfold execSlotResendRequest at e
  with_reducible repeat' first | assumption | intro _ | apply countResend_wf | apply err_wf | apply each_wf | split | cases e
theorem execLinkError_wf {s t} (e : execLinkError s = .next t) (hs : Wf s) : Wf t := by
  unfold execLinkError at e
  with_reducible repeat' first | assumption | refine when_wf (by assumption) ?_ ?_ | apply onDie_wf | apply markLink_wf | cases e
theorem execLinkRetrainEnd_wf {s t} (e : execLinkRetrainEnd s = .next t) (hs : Wf s) : Wf t := by
  unfold execLinkRetrainEnd at e
  with_reducible repeat' first | assumption | intro _ | apply onDie_wf | apply err_wf | apply markLink_wf | refine when_wf (by assumption) ?_ ?_ | apply each_wf | split | cases e
theorem scrPop_wf {s x1 x2} (hs : Wf s) : Wf (State.scrPop s x1 x2) := by
  unfold State.scrPop
  with_reducible repeat' first | assumption | apply onDie_wf | apply onSlot_wf | apply wf_ite
theorem scrEnd_wf {s x1 x2 x3 x4} (hs : Wf s) : Wf (State.scrEnd s x1 x2 x3 x4) := by
  unfold State.scrEnd
  with_reducible repeat' first | assumption | apply store_wf | apply err_wf | apply scrPop_wf | split
theorem scrFail_wf {s x1 x2 x3} (hs : Wf s) : Wf (State.scrFail s x1 x2 x3) := by
  unfold State.scrFail
  with_reducible repeat' first | assumption | apply scrEnd_wf | apply mem_wf | split | apply mk_wf
theorem scrStop_wf {s x1 x2 x3} (hs : Wf s) : Wf (State.scrStop s x1 x2 x3) := by
  unfold State.scrStop
  with_reducible repeat' first | assumption | apply scrPop_wf | apply err_wf | apply rqfin_wf
theorem scrWords_wf {s x1 x2 r t} (e : State.scrWords s x1 x2 = (r, t)) (hs : Wf s) : Wf t := by
  induction x2 generalizing s x1 r t with
  | nil =>
    unfold State.scrWords at e
    try dsimp only at e
    repeat' first | (with_reducible assumption) | (with_reducible intro _) | (with_reducible apply readMem_wf2) | (with_reducible refine readMem_wf (by assumption) ?_) | (with_reducible apply wf_ite) | (with_reducible apply elim_wf) | (with_reducible apply mem_wf) | (with_reducible apply each_wf) | (with_reducible apply getD_wf) | (with_reducible apply wf_memPut) | (with_reducible apply foldl_memPut_wf) | (with_reducible apply wf_filter) | (split) | (split at e) | (cases e) | (dsimp only) | (with_reducible apply mk_wf)
  | cons y l ih =>
    unfold State.scrWords at e
    try dsimp only at e
    repeat' first | (with_reducible assumption) | (with_reducible intro _) | (with_reducible refine ih (by assumption) ?_) | (exact ih rfl ‹_›) | (with_reducible apply readMem_wf2) | (with_reducible refine readMem_wf (by assumption) ?_) | (with_reducible apply wf_ite) | (with_reducible apply elim_wf) | (with_reducible apply mem_wf) | (with_reducible apply each_wf) | (with_reducible apply getD_wf) | (with_reducible apply wf_memPut) | (with_reducible apply foldl_memPut_wf) | (with_reducible apply wf_filter) | (split) | (split at e) | (cases e) | (dsimp only) | (with_reducible apply mk_wf)
theorem scrView_wf {s x1 x2 k3} (hs : Wf s) (hk3 : ∀ u0 u1, Wf u1 → Wf (k3 u0 u1)) : Wf (State.scrView s x1 x2 k3) := by
  unfold State.scrView
  with_reducible repeat' first | assumption | intro _ | apply hk3 | apply scrFail_wf | apply scrStop_wf | apply metBad_wf | refine scrWords_wf (by assumption) ?_ | apply kvWalk_wf | apply mem_wf | apply each_wf | split | apply mk_wf
theorem scrape_wf {s x1 k2 t} (e : State.scrape s x1 k2 = .next t) (hs : Wf s) (hk2 : ∀ u0 u1 u2, Wf u2 → Wf (k2 u0 u1 u2)) : Wf t := by
  unfold State.scrape at e
  with_reducible repeat' first | assumption | apply hk2 | apply scrFail_wf | apply onDie_wf | apply wf_ite | split | cases e
theorem execEvscan_wf {s t} (e : execEvscan s = .next t) (hs : Wf s) : Wf t := by
  unfold execEvscan at e
  with_reducible repeat' first | assumption | intro _ | refine scrape_wf (by assumption) ?_ ?_ | apply scrView_wf | apply mdWrite_wf | apply scrEnd_wf | apply each_wf | cases e
theorem compact_wf {s x1 x2 x3 x4 x5 x6 x7} (hs : Wf s) : Wf (State.compact s x1 x2 x3 x4 x5 x6 x7) := by
  unfold State.compact
  with_reducible repeat' first | assumption | intro _ | apply writeMem_wf | apply store_wf | apply mdWrite_wf | apply dropRef_wf | apply setPtEntry_wf | apply mem_wf | apply each_wf | split | apply mk_wf
theorem execEvcompact_wf {s t} (e : execEvcompact s = .next t) (hs : Wf s) : Wf t := by
  unfold execEvcompact at e
  with_reducible repeat' first | assumption | intro _ | refine scrape_wf (by assumption) ?_ ?_ | apply scrView_wf | apply scrFail_wf | refine scrWords_wf (by assumption) ?_ | apply scrStop_wf | apply compact_wf | apply scrEnd_wf | apply mem_wf | apply each_wf | split | cases e | apply mk_wf
theorem decayOne_wf {s x1 x2 x3 x4} (hs : Wf s) : Wf (State.decayOne s x1 x2 x3 x4) := by
  unfold State.decayOne
  with_reducible repeat' first | assumption | intro _ | apply readThen_wf | apply readMem_wf2 | apply scrStop_wf | apply onDie_wf | apply mdWrite_wf | split
theorem execEvdecay_wf {s t} (e : execEvdecay s = .next t) (hs : Wf s) : Wf t := by
  unfold execEvdecay at e
  with_reducible repeat' first | assumption | intro _ | refine scrape_wf (by assumption) ?_ ?_ | apply scrView_wf | apply onDie_wf | apply scrEnd_wf | apply readThen_wf | apply readMem_wf2 | refine readMem_wf (by assumption) ?_ | apply scrStop_wf | apply decayOne_wf | apply wf_ite | split | cases e
theorem decodeNext_wf {s x1 r t} (e : State.decodeNext s x1 = (r, t)) (hs : Wf s) : Wf t := by
  unfold State.decodeNext at e
  with_reducible repeat' first | assumption | apply trapW_wf | split at e | cases e
theorem present_wf {s x1 r t} (e : State.present s x1 = (r, t)) (hs : Wf s) : Wf t := by
  unfold State.present at e
  try dsimp only at e
  with_reducible repeat' first | assumption | apply fetchMore_wf | apply goto_wf | refine decodeNext_wf (by assumption) ?_ | apply onBlk_wf | split at e | cases e
theorem issueW_wf {s x1 r t} (e : State.issueW s x1 = (r, t)) (hs : Wf s) : Wf t := by
  unfold State.issueW at e
  try dsimp only at e
  with_reducible repeat' first | assumption | apply realnDone_wf | apply vHoldCk_wf | refine vPass_wf (by assumption) ?_ | refine present_wf (by assumption) ?_ | apply vEnd_wf | split at e | cases e
theorem companionStore_wf {s x1 x2} (hs : Wf s) : Wf (State.companionStore s x1 x2) := by
  unfold State.companionStore
  with_reducible repeat' first | assumption | apply ctlStore_wf | apply store_wf | split
theorem companionLoad_wf {s x1 x2} (hs : Wf s) : Wf (State.companionLoad s x1 x2) := by
  unfold State.companionLoad
  with_reducible repeat' first | assumption | apply ctlLoad_wf2 | apply readMem_wf2 | split
theorem softError_wf {s x1 x2} (hs : Wf s) : Wf (State.softError s x1 x2) := by
  unfold State.softError
  with_reducible repeat' first | assumption | apply onDie_wf | apply mem_wf | split | apply mk_wf
theorem nextMove_wf {s r t} (e : State.nextMove s = (r, t)) (hs : Wf s) : Wf t := by
  unfold State.nextMove at e
  with_reducible repeat' first | assumption | apply mem_wf | split at e | cases e | apply mk_wf
theorem advanceTick_wf {s x1} (hs : Wf s) : Wf (State.advanceTick s x1) := by
  unfold State.advanceTick
  with_reducible repeat' first | assumption | apply mem_wf | apply mk_wf
theorem pass_wf {s x1} (hs : Wf s) : Wf (State.pass s x1) := by
  unfold State.pass
  with_reducible repeat' first | assumption | apply publishAll_wf | apply advanceTick_wf
theorem outside_wf {s x1} (hs : Wf s) : Wf (State.outside s x1) := by
  unfold State.outside
  with_reducible repeat' first | assumption | apply pass_wf | apply companionStore_wf | apply companionLoad_wf | apply rootAct_wf | apply softError_wf | split
theorem placeWord_wf {s x1 x2} (hs : Wf s) : Wf (State.placeWord s x1 x2) := by
  unfold State.placeWord
  with_reducible repeat' first | assumption | apply setCoreAt_wf | apply mem_wf | apply mk_wf

end Sys2Proof.Machine
end

