-- ==== Sys2Proof/Tests/Slice0.lean ====
section
/-!
SUPPORT. Tests: ill-formed terms, words written out from the encodings, steps whose results follow from the manual by hand, and, for every
statement with hypotheses, states that meet them.
-/
-- One theorem at a time: elaborated side by side, these evaluations ask for more threads than a check of the package has.
set_option Elab.async false

namespace Sys2Proof.Tests

open Sys2Proof Sys2Proof.Machine

/-! Small states: a job on core 0 of die 0 whose root maps the first 8 GiB of virtual addresses to the tile store of cores 0 and 1. -/
/-- The page tables of the job: entries at 0x100000 and 0x102000, encoded as Table 4-6 has them. -/
def pt : List Host.Cell := [(0x100000, 0x01), (0x100001, 0x20), (0x100002, 0x10), (0x102000, 0xE3)]
def j0 : Job := { live := true, smask := 7, rcls := 6, rxp := 3 }
def mk (j : Job) : State := { State.reset with mem := pt, cores := [(0, { job := j, cr := [(0x400, 128)] })] }
def mkSup (j : Job) : State := mk { j with sup := true }
def die0 (s : State) (d : Die) : State := { s with dies := [(0, d)] }
/-- The tail of a translation that answers r. -/
theorem acc_eq {α β : Type} {x : α × β} {r : α} (h : x.1 = r) : x = (r, x.2) := by cases x; cases h; rfl

/-- The tail of a read that answers r. -/
theorem load_eq {α β ε : Type} {x : Except ε α × β} {r : α} (h : x.1.toOption = some r) : x = (.ok r, x.2) := by
  obtain ⟨a, b⟩ := x
  cases a with
  | error e => cases h
  | ok a => cases h; rfl

/-! Witnesses: concrete states and operands that meet the hypotheses of the statements. -/
theorem witness_ScalarResults : ∃ v, AluC (mk j0).rs (.cAdd 31 1 2) 2 31 v ∧ ∃ w, AluC (mk j0).rs (.cAdd 0 1 2) 2 0 w := ⟨_, .cAdd 31 1 2, _, .cAdd 0 1 2⟩
theorem witness_AccessArithmeticResults : ∃ v, AluA (mk j0).ra (.cset 15 1 2 .lt) 2 15 v ∧ ∃ w, AluA (mk j0).ra (.aAdd 0 1 2) 2 0 w :=
  ⟨_, .cset 15 1 2 .lt, _, .aAdd 0 1 2⟩
/-- A word 4 bytes below the end of what the page tables map: a transfer of 4 bytes ahead meets a page that is not present. -/
def edge0 : State := mk { j0 with c := { hdr := 0x1FFFFFFFC } }
theorem witness_BranchTargets : (∃ o, BranchOf (mk j0) (.cBeqz 1 (-1)) .c ((mk j0).rs 1 = 0) o) ∧ (mk j0).rs 1 = 0 ∧ ¬ (mk j0).rs 1 ≠ 0 ∧
    (mk j0).targetPark (((mk j0).job.c.hdr : Int) + 4 * 0) = none ∧
    edge0.targetPark ((edge0.job.c.hdr : Int) + 4 * 1) = some (false, 0x200000000, [(0x200000000, 4)]) :=
  ⟨⟨_, .cBeqz 1 (-1)⟩, by decide, by decide, by decide +kernel, by decide +kernel⟩
theorem witness_ClusterWindowAddress : ∃ ea, CwWord (mk j0) (.cLdd 1 2 (-1)) { rd := true } ea 8 ∧ (mk j0).cw { rd := true } ea 8 8 = .error (1, 0, 2 ^ 64 - 1) :=
  ⟨_, .load (.cLdd 1 2 (-1)), rfl⟩
theorem witness_ClusterWindowAddress_edges : (mk j0).cw { rd := true } (192 * 2 ^ 22 : Nat) 1 1 = .error (1, 0, 192 * 2 ^ 22) ∧
    (mk j0).cw { rd := true } 7 8 8 = .error (2, 0, 7) ∧ (mk j0).cw { rd := true } (192 * 2 ^ 22 - 8 : Nat) 64 8 = .error (1, 0, 192 * 2 ^ 22) ∧ cwOk (mk j0) 0 0 j0 { rd := true } (2 ^ 22 - 8) 8 = true ∧
    cwOk (mk j0) 0 0 j0 { rd := true } (2 ^ 22) 8 = false := ⟨rfl, rfl, rfl, by decide, by decide⟩
theorem witness_ControlLoadsIssue : (∃ ea, LoadC (mk j0) (.cLdd 1 2 8) 1 ea 8 2 false ∧ (mk j0).cw { rd := true } ea 8 8 = .ok 8) ∧ (mk j0).job.loads .c < 8 ∧
    (mk j0).cw { rd := true } ((mk j0).rs 2).toInt 1 1 = .ok 0 := ⟨⟨_, .cLdd 1 2 8, rfl⟩, by decide, rfl⟩
theorem witness_ControlStoresAndAtomicsIssue : (∃ v ea, StoreC (mk j0) (.cStw 1 2 4) v ea 4 2 ∧ (mk j0).cw { w := true } ea 4 4 = .ok 4) ∧
    (mk j0).job.stores .c < 16 ∧ AtomicC (.atcas 1 2 3 true) 2 1 2 3 true ∧ (mk j0).cw { rd := true, w := true } ((mk j0).rs 2).toInt 8 8 = .ok 0 :=
  ⟨⟨_, _, .cStw 1 2 4, rfl⟩, by decide, .atcas 1 2 3 true, rfl⟩
theorem witness_SingleAccessesIssue_load : ∃ ea rs u, LoadA (mk j0) (.aLdd 1 2 3 8) 1 3 ea 8 false ∧ (mk j0).access { rd := true } ea 8 8 = (.ok rs, u) ∧
    u.job.loads .a < 32 := ⟨_, [(8, 8)], _, .aLdd 1 2 3 8, acc_eq (by decide), by decide⟩
theorem witness_SingleAccessesIssue_near : ∃ ea u, StoreA (mk j0) (.aStd 2 1 0 8) 1 0 ea 8 ∧ (mk j0).access { w := true } ea 8 8 = (.ok [(8, 8)], u) ∧
    u.storeRoomA = true ∧ u.job.a.sub = 0 ∧ posted u.me 8 = false := ⟨_, _, .aStd 2 1 0 8, acc_eq (by decide), by decide, by decide, by decide⟩
theorem witness_SingleAccessesIssue_far : let s := mk { j0 with ar := [(2, 2 ^ 32)] }
    ∃ ea u, StoreA s (.aStd 2 1 0 8) 1 0 ea 8 ∧ s.access { w := true } ea 8 8 = (.ok [(2 ^ 32 + 8, 8)], u) ∧ u.storeRoomA = true ∧
      posted u.me (2 ^ 32 + 8) = true ∧ u.canPost u.me 0 { off := 0, va := ea.toNat, pa := 2 ^ 32 + 8, len := 8 } = true :=
  ⟨_, _, .aStd 2 1 0 8, acc_eq (by decide), by decide, by decide, by decide⟩
theorem witness_QueueRowsIssue_ldq : ∃ rs u, ((mk j0).ra 1).toNat % 64 = 0 ∧ (mk j0).dqRoom 7 = true ∧ (mk j0).loadRoomA = true ∧
    (mk j0).access { rd := true } (((mk j0).ra 1).toInt + (mk j0).job.a.prog * ((mk j0).ra 2).toInt) 512 1 = (.ok rs, u) :=
  ⟨[(0, 512)], _, by decide, by decide, by decide, acc_eq (by decide)⟩
theorem witness_QueueRowsIssue_ldq2 : ∃ rs u, (mk j0).accessAll { rd := true } 1 ((upFrom 0 (512 / (64 * 2 ^ (192 / 64)))).map fun (r : Nat) =>
    (((mk j0).ra 1).toInt + ((mk j0).job.a.prog : Int) * sextNat (((mk j0).ra 2).toNat / 2 ^ 32) 32 +
      (r : Int) * (if 64 * 2 ^ (192 / 64) = 512 then 0 else sextNat ((mk j0).ra 2).toNat 32), 64 * 2 ^ (192 / 64))) = (.ok rs, u) :=
  ⟨[(0, 512)], _, acc_eq (by decide)⟩
theorem witness_QueueRowsIssue_stq : let s := mk { j0 with oq := [(3, [5])] }
    ∃ u, spGet [] s.job.oq 3 = 5 :: [] ∧ s.storeRoomA = true ∧ s.access { w := true } ((s.ra 1).toInt + s.job.a.prog * (s.ra 2).toInt) 512 1 = (.ok [(0, 512)], u) ∧
      u.job = s.job ∧ s.job.a.sub = 0 ∧ piecesOf 0 [(0, 512)] 0 ≠ [] ∧ ∀ p ∈ piecesOf 0 [(0, 512)] 0, posted u.me p.pa = false :=
  ⟨_, by decide +kernel, by decide +kernel, acc_eq (by decide +kernel), by decide +kernel, by decide +kernel, by decide +kernel, by decide +kernel⟩
theorem witness_SeraiReadsAndPrefetches : let s := die0 (mk { j0 with ar := [(1, 0x0000000917F00000)] }) { frames := [(2, { st := 3, tag := 9 })] }
    fieldOf (s.ra 1) 29 3 = 0 ∧ fieldOf (s.ra 1) 20 9 < 384 ∧ 64 ∣ fieldOf (s.ra 1) 0 20 ∧ fieldOf (s.ra 1) 0 20 + 512 ≤ laneSz (s.dieAt s.here.die) ∧
    openFrame (s.dieAt s.here.die) (fieldOf (s.ra 1) 32 32) = some 2 := by decide
theorem witness_ScalarQueuePushesAndPop : (∃ rs u, (mk j0).access { rd := true } (((mk j0).ra 1).toInt + (8 : BitVec 9).toInt) 8 8 = (.ok rs, u) ∧
      u.job.sq.length < 16 ∧ u.job.loads .a < 32) ∧ (∀ x ∈ (mk j0).job.acc, x.strm = .a → x.kind.isStore = false) ∧
    (∃ e l v, (mk { j0 with sq := [{ id := 0, data := some 5 }] }).job.sq = e :: l ∧ e.data = some v) ∧
    (∃ e l, (mk { j0 with sq := [{ id := 0 }] }).job.sq = e :: l ∧ e.data = none) :=
  ⟨⟨[(8, 8)], _, acc_eq (by decide), by decide, by decide⟩, by decide, ⟨_, _, _, rfl, rfl⟩, ⟨_, _, rfl, rfl⟩⟩
theorem witness_LoadsAndStoresPerform : let x : Acc := { id := 0, strm := .c, cls := 0, kind := .ld 31 true, runs := [(8, 1)] }
    let y : Acc := { id := 0, strm := .a, cls := 0, kind := .st, runs := [(0x3FFFF8, 8)], data := bytesOf 8 77 }
    let s := mk { j0 with acc := [x] }
    let t := mk { j0 with acc := [y] }
    s.job.acc.find? (fun a => a.id == s.here.k) = some x ∧ paDie 8 = s.here.die ∧ s.accBlocked s.me x = false ∧ s.ecc = [] ∧ s.core.nt = [] ∧
    t.job.acc.find? (fun a => a.id == t.here.k) = some y ∧ y.data.length = 8 ∧ t.accBlocked t.me y = false := by decide
theorem witness_LoadsAndStoresPerform_row : let x : Acc := { id := 0, strm := .a, cls := 0, kind := .dq 7 false, runs := [(nullPa, 4), (8, 4)] }
    let s := mk { j0 with acc := [x], dq := [(7, [{ id := 0 }])] }
    s.job.acc.find? (fun a => a.id == s.here.k) = some x ∧ (∀ p ∈ x.runs, nullPa ≤ p.1 ∨ (p.1 < 2 ^ 52 ∧ paDie p.1 = s.here.die)) ∧
    s.accBlocked s.me x = false ∧ s.ecc = [] ∧ s.core.nt = [] := by decide
/-- One access of the job that waits, the first of those given. -/
def waitAcc (l : List Acc) (k : Core := {}) : State := { mk j0 with cores := [(0, { k with job := { j0 with acc := l }, cr := [(0x400, 128)] })] }
theorem witness_LoadsAndStoresPerform_kinds : (∀ k ∈ [AccK.acq 4 .cluster, .sq, .arm, .st, .nt, .rel [] 0 .cluster], let x : Acc := { id := 0, strm := .c, cls := 0, kind := k, runs := [(8, 8)], data := bytesOf 8 77 }
      let s := waitAcc [x]
      s.job.acc.find? (fun a => a.id == s.here.k) = some x ∧ x.runs = [(8, 8)] ∧ x.data.length = 8 ∧ paDie 8 = s.here.die ∧ remoteTo s.here.die 8 = false ∧
        s.accBlocked s.me x = false ∧ s.ecc = [] ∧ s.core.nt = []) ∧
    (let x : Acc := { id := 0, strm := .c, cls := 0, kind := .rel [1] 0 .cluster, runs := [(8, 8)], data := bytesOf 8 77 }
     let y : Acc := { id := 1, strm := .c, cls := 0, kind := .st, runs := [(2 ^ 32, 8)], data := bytesOf 8 1, sent := true }
     let s := waitAcc [x, y]
     s.job.acc.find? (fun a => a.id == s.here.k) = some x ∧ s.accBlocked s.me x = false ∧ y ∈ s.job.acc ∧ y.id ∈ [1] ∧ y.id ≠ x.id) ∧
    (let x : Acc := { id := 0, strm := .a, cls := 0, kind := .nt, runs := [(2 ^ 53, 64)], data := List.replicate 64 1 }
     let s := waitAcc [x]
     s.job.acc.find? (fun a => a.id == s.here.k) = some x ∧ x.data.length = 64 ∧ 2 ^ 53 % 64 = 0 ∧ paSpace (2 ^ 53) = 2 ∧ x.window = false ∧
      s.accBlocked s.me x = false ∧ s.core.nt = []) ∧
    (let x : Acc := { id := 0, strm := .c, cls := 0, kind := .acq 4 .cluster, runs := [(8, 8)] }
     let y : Acc := { id := 1, strm := .c, cls := 0, kind := .st, runs := [(2 ^ 32, 8)], data := bytesOf 8 1, sent := true }
     let s := { waitAcc [x, y] with rels := [{ obj := 8, core := 0, job := 0, deps := [1], seen := 0, scope := .cluster }] }
     s.job.acc.find? (fun a => a.id == s.here.k) = some x ∧ x.sent = false ∧ s.relHeld s.me .cluster 8 = true) := by decide +kernel
theorem witness_AtomicPerforms : let x : Acc := { id := 0, strm := .c, cls := 0, kind := .at 6 1 4 3 4, runs := [(8, 4)] }
    let s := mk { j0 with acc := [x] }
    s.job.acc.find? (fun a => a.id == s.here.k) = some x ∧ s.accBlocked s.me x = false ∧ s.ecc = [] ∧ s.core.nt = [] ∧ s.window 8 = none := by decide
/-- An index entry: index 4, and 127 null ones. -/
def oneIx : VReg := BitVec.ofNat 4096 ((List.range 127).foldl (fun x k => x + 0x80000000 * 2 ^ (32 * (k + 1))) 4)
def gs : State := mk { j0 with oq := [(0, [oneIx]), (1, [7])] }
theorem witness_GatherScatterIssue : fieldOf (gs.ra 2) 6 58 = 0 ∧ spGet [] gs.job.oq (fieldOf (gs.ra 2) 0 2) = oneIx :: [] ∧
    (let addr := fun j => elemAddr (gs.ra 1) (fieldOf (gs.ra 2) 2 4) oneIx j
     let live := (List.range (min 128 (512 / elemSize 2))).filter fun j => (addr j).isSome
     (gs.dqRoom 5 = true ∧ gs.loadRoomA = true ∧
      ∃ rs u, gs.accessAll { rd := true } (elemSize 2) (live.map fun j => ((addr j).getD 0, elemSize 2)) = (.ok rs, u)) ∧
    (if fieldOf (gs.ra 2) 0 2 = 1 then [] else spGet [] gs.job.oq 1) = 7 :: [] ∧ gs.storeRoomA = true ∧
      ∃ rs u, gs.accessAll { w := true } (elemSize 2) (live.map fun j => ((addr j).getD 0, elemSize 2)) = (.ok rs, u) ∧
        u.job = gs.job ∧ gs.job.a.sub = 0 ∧ (∀ r ∈ rs, posted u.me r.1 = false) ∧ live = [0] ∧ rs.length = 1) :=
  ⟨by decide +kernel, by decide +kernel, ⟨by decide +kernel, by decide +kernel, [(4, 4)], _, acc_eq (by decide +kernel)⟩, by decide +kernel,
    by decide +kernel, [(4, 4)], _, acc_eq (by decide +kernel), by decide +kernel, by decide +kernel, by decide +kernel, by decide +kernel, by decide⟩
theorem witness_SyncWordsIssue : let s := mk j0
    (ObjAt s s 1 false { rd := true } 0 ∧ s.job.loads .c < 8) ∧ (ObjAt s s 1 false { w := true } 0 ∧ NoneLost s .sys ∧ s.job.stores .c < 16 ∧ s.fenceWaits .sys = false) ∧
    (∃ u, ObjAt s u 1 true { rd := true } 0 ∧ u.job.loads .c < 8) ∧
    (mk { j0 with acc := [{ id := 0, strm := .c, cls := 0, kind := .st, runs := [(8, 8)] }] }).fenceWaits .core = true :=
  ⟨⟨⟨rfl, rfl⟩, by decide⟩, ⟨⟨rfl, rfl⟩, by unfold NoneLost; decide, by decide, by decide⟩, ⟨_, ⟨8, [], acc_eq (by decide)⟩, by decide⟩, by decide⟩
theorem witness_BindRecordsRange : let s := mk { j0 with s := [(4, 64), (5, 2 ^ 32 + 1), (6, 2 ^ 22 - 64), (7, 192 * 2 ^ 22 - 1)] }
    (s.rs 6).toInt = (2 ^ 22 - 64 : Nat) ∧ (s.rs 7).toInt = (192 * 2 ^ 22 - 1 : Nat) ∧ (s.rs 1).toNat = 0 ∧ 0 < (s.rs 4).toNat ∧
    (2 ^ 22 - 64) / 2 ^ 22 = ((2 ^ 22 - 64) + (s.rs 4).toNat - 1) / 2 ^ 22 ∧ (2 ^ 22 - 64) + (s.rs 4).toNat ≤ 192 * 2 ^ 22 ∧
    2 ^ 32 < (s.rs 5).toNat := by decide
/-- Page tables of the job that map three pages of 8 KiB, from 0 on. -/
def pages : List Host.Cell :=
  [(0x100000, 0x01), (0x100001, 0x20), (0x100002, 0x10), (0x102000, 0x01), (0x102001, 0x40), (0x102002, 0x10),
   (0x104000, 0x01), (0x104001, 0x60), (0x104002, 0x10), (0x106000, 0xE3), (0x106008, 0xE3), (0x106009, 0x20), (0x106010, 0xE3), (0x106011, 0x40)]
theorem witness_BindRecordsRange_virtual : let s := { mk { j0 with s := [(4, 2 ^ 32), (5, 64), (6, 0x3FC0), (7, 128)] } with mem := pages }
    ∃ u w ps, (s.rs 4).toNat ≤ 2 ^ 32 ∧ s.xlateRange { none := true } (s.rs 5).toInt 1 = (.ok ((64, 1) :: []), u) ∧ (s.rs 1).toNat = 0 ∧
      0 < (s.rs 7).toNat ∧ u.xlateRange { none := true } (s.rs 6).toInt (s.rs 7).toNat = (.ok ps, w) ∧ joinPieces ps = [(0x3FC0, 128)] :=
  ⟨_, _, [(0x3FC0, 64), (0x4000, 64)], by decide, acc_eq (by decide +kernel), by decide, by decide, acc_eq (by decide +kernel), by decide⟩
theorem witness_EventWaits : let s := mk { j0 with evt := true, c := { wait := some .waite } }
    let t := mk { j0 with mon := some 0 }
    let u := mk { j0 with acc := [{ id := 0, strm := .c, cls := 0, kind := .arm, runs := [(0, 64)] }] }
    (∀ x ∈ s.job.acc, x.kind ≠ .arm) ∧ s.job.evt = true ∧ s.job.c.wait = some .waite ∧ s.stops .c = false ∧ (t.job.evt = false ∧ t.job.mon ≠ none) ∧
    (∃ x ∈ u.job.acc, x.kind = .arm) := by decide
theorem witness_ControlRegisterReads : (∃ i c, OwnCrw 1 i c ∧ levelOk (crwLevel c) (mk j0).job.sup = false) ∧
    (∃ i c, CrrWord 1 i c ∧ levelOk (crrLevel c) (mk j0).job.sup = false) ∧ (∃ i, CrrWord 1 i 0x318 ∧ levelOk (crrLevel 0x318) (mkSup j0).job.sup = true) ∧
    (∃ i, CrrWord 1 i 0x31D ∧ levelOk (crrLevel 0x31D) (mkSup j0).job.sup = true) ∧ (∃ i, CrrWord 1 i 0 ∧ levelOk (crrLevel 0) (mk j0).job.sup = true) :=
  ⟨⟨_, _, .therm, rfl⟩, ⟨_, _, .crr 0x31A, rfl⟩, ⟨_, .scrcfg, rfl⟩, ⟨_, .dcnt true, rfl⟩, ⟨_, .crr 0, rfl⟩⟩
theorem witness_SemaphoresAndEventCounts : let s := mk { j0 with s := [(1, 0x81)], sem := [(0, 1), (7, 255)] }
    (∃ k < 8, (((mk { j0 with s := [(1, 0x80)] }).rs 1).toNat % 256).testBit k = true ∧ spGet 0 (mk { j0 with s := [(1, 0x80)] }).job.sem k = 0) ∧
    (∀ k < 8, ((s.rs 1).toNat % 256).testBit k = true → 1 ≤ spGet 0 s.job.sem k) ∧ s.releaseReady .core = true ∧ s.job.lost = [] ∧
    (∃ k < 16, ((s.rs 1).toNat % 65536).testBit k = true ∧ spGet 0 (s.clusterAt s.myCl).ev k = 0) ∧
    (let t := { s with clusters := [(0, { ev := [(0, 1), (7, 1)] })] }
     ∀ k < 16, ((t.rs 1).toNat % 65536).testBit k = true → 1 ≤ spGet 0 (t.clusterAt t.myCl).ev k) ∧ s.releaseReady .cluster = true := by decide
theorem witness_RemoteAtomicWords : let s := mk { j0 with s := [(1, 2 ^ 56 + 6 * 2 ^ 53)] }
    ∃ u, (s.rs 1).toNat % 2 ^ 53 % 8 = 0 ∧ s.access { rd := true, w := true } ((s.rs 1).toNat % 2 ^ 53 : Nat) 8 8 = (.ok ((0, 8) :: []), u) ∧
      (s.rs 1).getLsbD 56 = true ∧ (s.rs 1).toNat / 2 ^ 53 % 8 < 7 ∧ u.job.rago = false ∧ u.job.acc = [] ∧
      (mk { j0 with rago := true }).job.rago = true ∧ s.job.rafail = none :=
  ⟨_, by decide, acc_eq (by decide), by decide, by decide, by decide, by decide, by decide, by decide⟩
theorem witness_ControlRegisterWrites : (∃ w f, PlainReg (mk j0) (0x00A : BitVec 12).toNat w f ∧ levelOk (crwLevel 0x00A) (mk j0).job.sup = true) ∧
    (∃ w f, PlainReg (mkSup j0) (0x11E : BitVec 12).toNat w f ∧ levelOk (crwLevel 0x11E) (mkSup j0).job.sup = true) :=
  ⟨⟨_, _, .raopnd, rfl⟩, ⟨_, _, .window 7 (by decide), rfl⟩⟩
/-- A plan of the job with number 0, without bytes. -/
def plan0 : Plan := { gen := 1, core := 0, job := 0, bytes := [], root := 128, sup := false }
theorem witness_ConsignmentRegisterWrites : let s := mk { j0 with s := [(1, 2 ^ 52), (2, 8), (3, 256 + 2 ^ 32 * 5)] }
    2 ^ 52 ≤ (s.rs 1).toNat % 2 ^ 56 ∧ ((s.rs 2).toNat % 2 ^ 56 < 2 ^ 52 ∧ paDie 8 = s.me / 384 ∧ paOk s 0 8 = true ∧ (s.rs 2).toNat % 2 ^ 56 % 8 = 0 ∧
      freePlace (s.dieAt 0).coords 64 = some 0) ∧ (s.rs 1).toNat % 2 ^ 32 = 0 ∧
    (let t := die0 s { plans := [(0, plan0)] }
     (t.rs 3).toNat = 256 + 2 ^ 32 * 5 ∧ (t.dieAt (t.me / 384)).plan (256 % 256) = some plan0 ∧ planHandle (256 % 256) plan0 = 256 ∧ plan0.job = t.job.id ∧
      cnDieOk t (t.me / 384) 5 = true) := by decide
theorem witness_ConsignmentRegisterWrites_edges : let s := mk { j0 with s := [(1, 5), (2, 8), (3, 5 + 8 * 2 ^ 21)], cncur := 5 + 2 ^ 40 }
    freePlace ((List.range 64).map fun k => (k, ({ handle := k, state := 1, stata := 0 } : Coord))) 64 = none ∧
    (cnDieOk s 0 5 = true ∧ (s.rs 1).toNat % 2 ^ 32 = s.job.cncur.toNat % 2 ^ 32 ∧ s.job.cncur.getLsbD 40 = true) ∧
    (cnDieOk s 0 8 = true ∧ (s.rs 2).toNat % 2 ^ 32 ≠ s.job.cncur.toNat % 2 ^ 32) ∧ cnDieOk s 0 ((s.rs 3).toNat % 2 ^ 32) = false ∧
    (let t := die0 s { cnseq := 2 ^ 21 - 2 }; (t.dieAt 0).cnseq + 1 < 2 ^ 21) := by decide +kernel
theorem witness_DeviceRegisterWrites : let s := mkSup j0
    s.job.sup = true ∧ stationRuns (s.dieAt 0) = false ∧ (s.rs 1).toNat % 2 ^ 17 ≤ 65536 ∧ (s.dieAt 0).mnOvf = false ∧
    fieldOf ((s.dieAt 0).reg 0x31A) 56 2 ≠ 1 ∧ fieldOf ((die0 s { cr := [(0x31A, BitVec.ofNat 64 (2 ^ 56))] }).dieAt 0 |>.reg 0x31A) 56 2 = 1 ∧
    stationRuns ((die0 s { cr := [(0x301, 0x8000000000000000)] }).dieAt 0) = true := by decide
theorem witness_DeviceRegisterWrites_overflow : let d : Die := { mnOvf := true, cr := [(0x30C, 1), (0x30D, BitVec.ofNat 64 (2 ^ 48))], wrote := [0x30C] }
    let s := die0 (mkSup { j0 with s := [(1, BitVec.ofNat 64 (2 * 2 ^ 32))] }) d
    let pi := fieldOf ((s.dieAt 0).reg 0x30D) 48 10
    (s.dieAt 0).mnOvf = true ∧ ((s.dieAt 0).wrote.contains 0x30C = true ∧ (pi + 1) % 1024 ≠ fieldOf (s.rs 2) 32 10) ∧ ¬ (pi + 1) % 1024 ≠ fieldOf (s.rs 1) 32 10 := by decide
/-- A block header in the last word of the last page of the job, with a body behind it. -/
def edge1 : State := { mk { j0 with s := [(1, 0x5FFC)] } with mem := (0x5FFC, 2) :: pages }
/-- Addresses of no block: not aligned, beyond the canonical ones, and of tile store that no core has. -/
def edge2 : State := mk { j0 with s := [(2, 2), (3, 2 ^ 53), (4, 3 * 2 ^ 22 + 2), (5, 3 * 2 ^ 22)] }
theorem edge1_parks : edge1.targetPark 0x5FFC = some (false, 0x6000, [(0x5FFC, 4), (0x6000, 4)]) := by
  unfold State.targetPark
  rw [acc_eq (x := edge1.xlateRange { x := true } 0x5FFC 4) (r := .ok [(0x5FFC, 4)]) (by decide +kernel)]
  dsimp only
  rw [if_neg (by decide +kernel)]
  generalize hu : (edge1.xlateRange { x := true } 0x5FFC 4).2 = u
  rw [show firstFetch (0x5FFC : Int).toNat ({ word := codeWord ([(0x5FFC, 4)].flatMap fun r => u.peek r.1 r.2) } : Blk).len = 8 from by subst hu; decide +kernel,
    show u.xlateRange { x := true } 0x5FFC 8 = u.xlatePieces { x := true } [(0x5FFC, 4), (0x6000, 4)] from rfl]
  unfold State.xlatePieces State.xlateAt Machine.translate
  dsimp only
  generalize Config.tlbHit u.fresh = b
  subst hu
  cases b <;> decide +kernel
theorem witness_CallsAndIndirectTransfers_edges : (∃ rs u, (edge1.rs 1).toNat < 2 ^ 53 ∧ (edge1.rs 1).toNat % 4 = 0 ∧
      edge1.xlateRange { x := true } (edge1.rs 1).toNat 4 = (.ok rs, u)) ∧ edge1.targetPark (edge1.rs 1).toNat = some (false, 0x6000, [(0x5FFC, 4), (0x6000, 4)]) ∧
    2 ^ 53 ≤ (edge2.rs 3).toNat ∧ (∃ u, (edge2.rs 5).toNat < 2 ^ 53 ∧ (edge2.rs 5).toNat % 4 = 0 ∧
      edge2.xlateRange { x := true } (edge2.rs 5).toNat 4 = (.bad 2 (3 * 2 ^ 22), u)) ∧
    (∃ u, (edge2.rs 4).toNat < 2 ^ 53 ∧ (edge2.rs 4).toNat % 4 ≠ 0 ∧ edge2.xlate { none := true } (edge2.rs 4).toNat 1 = (.bad 2, u)) ∧
    (∃ x u, (edge2.rs 2).toNat < 2 ^ 53 ∧ (edge2.rs 2).toNat % 4 ≠ 0 ∧ edge2.xlate { none := true } (edge2.rs 2).toNat 1 = (x, u) ∧ x ≠ .bad 2) :=
  ⟨⟨[(0x5FFC, 4)], _, by decide, by decide, acc_eq (by decide +kernel)⟩, edge1_parks, by decide, ⟨_, by decide, by decide, acc_eq (by decide +kernel)⟩,
    ⟨_, by decide, by decide, acc_eq (by decide +kernel)⟩, ⟨.ok 2, _, by decide, by decide, acc_eq (by decide +kernel), by decide⟩⟩
theorem witness_CallsAndIndirectTransfers : (mk j0).targetPark (((mk j0).job.c.hdr : Int) + 4 * (0 : BitVec 26).toInt) = none ∧
    edge0.targetPark ((edge0.job.c.hdr : Int) + 4 * (1 : BitVec 26).toInt) = some (false, 0x200000000, [(0x200000000, 4)]) ∧
    (∃ rs u, ((mk j0).rs 1).toNat < 2 ^ 53 ∧ ((mk j0).rs 1).toNat % 4 = 0 ∧ (mk j0).xlateRange { x := true } ((mk j0).rs 1).toNat 4 = (.ok rs, u)) ∧
    (mk j0).targetPark ((mk j0).rs 1).toNat = none := ⟨by decide +kernel, by decide +kernel, ⟨[(0, 4)], _, by decide, by decide, acc_eq (by decide)⟩, by decide +kernel⟩
/-- The same job with bytes listed before its page tables. -/
def mkM (j : Job) (m : List Host.Cell) : State := { mk j with mem := m ++ pt }
/-- A ring header at 0: four slots of 64 bytes from 0x1000 on, one consumer, with counts CLAIM, PUB, TAKE[0]. -/
def rng (claim pub take : Byte) (more : List Host.Cell := []) : State :=
  mkM { j0 with s := [(1, 4), (2, 0x1000), (3, 0x0000120000001000)], c := { wait := some (.rclaim 7 8) } }
    ([(1, 0x10), (5, 0x12), (8, claim), (12, pub), (64, take)] ++ more)
theorem witness_RingWordsAct_claim : let s := rng 3 0 0
    let h := s.peek 0 256
    RingAt s 8 false 0 ∧ hEos h = false ∧ behind (hCount h 8) (hCount h 12) < hN h ∧ (∀ j < hNcons h, behind (hCount h 8) (hCount h (128 + 4 * j)) < hN h) ∧
    s.job.c.wait = some (.rclaim 7 8) ∧ s.stops .c = false := ⟨⟨rfl, by decide, by decide, by decide, by decide, by decide⟩, by decide +kernel⟩
theorem witness_RingWordsAct_closed : RingAt (rng 0 0 0 [(6, 0x10)]) 8 false 0 ∧ hEos ((rng 0 0 0 [(6, 0x10)]).peek 0 256) = true :=
  ⟨⟨rfl, by decide, by decide, by decide, by decide, by decide⟩, by decide +kernel⟩
theorem witness_RingWordsAct_take : (let s := rng 1 1 0; let h := s.peek 0 256; RingAt s 8 false 0 ∧ (s.rs 9).toNat < hNcons h ∧ hCount h (64 + 4 * (s.rs 9).toNat) ≠ hCount h 12) ∧
    (let s := rng 1 0 0; let h := s.peek 0 256; RingAt s 8 false 0 ∧ (s.rs 9).toNat < hNcons h ∧ hCount h (64 + 4 * (s.rs 9).toNat) = hCount h 12 ∧ hEos h = false) ∧
    (let s := rng 0 0 0; let h := s.peek 0 256; RingAt s 8 false 0 ∧ hNcons h ≤ (s.rs 1).toNat) :=
  ⟨⟨⟨rfl, by decide, by decide, by decide, by decide, by decide⟩, by decide +kernel⟩, ⟨⟨rfl, by decide, by decide, by decide, by decide, by decide⟩, by decide +kernel⟩,
    ⟨rfl, by decide, by decide, by decide, by decide, by decide⟩, by decide +kernel⟩
theorem witness_RingWordsAct_free : let s := rng 1 1 1; let h := s.peek 0 256
    RingAt s 8 true 0 ∧ (s.rs 9).toNat < hNcons h ∧ hCount h (128 + 4 * (s.rs 9).toNat) ≠ hCount h (64 + 4 * (s.rs 9).toNat) ∧ s.job.lost = [] ∧
      s.releaseReady (hScope h) = true ∧ hScope h ≠ .sys := ⟨⟨rfl, by decide, by decide, by decide, by decide, by decide⟩, by decide +kernel⟩
theorem witness_RingWordsAct_publish : let s := rng 1 0 0; let h := s.peek 0 256
    RingAt s 8 false 0 ∧ pubSlot h (s.rs 2).toNat = some 0 ∧ hReady h 0 = false ∧ s.job.lost = [] ∧ s.releaseReady (hScope h) = true ∧ hScope h ≠ .sys ∧
      behind (hCount h 12) ((s.rs 9).toNat % 2 ^ 32) < 2 ^ 31 := ⟨⟨rfl, by decide, by decide, by decide, by decide, by decide⟩, by decide +kernel⟩
theorem witness_RingWordsAct_close_init : (let s := rng 2 2 0; let h := s.peek 0 256; RingAt s 8 false 0 ∧ hCount h 12 = hCount h 8 ∧ hEos h = false) ∧
    (let s := rng 0 0 0; s.cw { rd := true, w := true } (s.rs 8).toInt 256 256 = .ok 0 ∧ s.ringHeld 0 false = false ∧ rinitOk (s.rs 3) = true ∧
      s.job.loads .c < 8 ∧ s.job.stores .c < 16 ∧ rinitOk (s.rs 1) = false) := ⟨⟨⟨rfl, by decide, by decide, by decide, by decide, by decide⟩, by decide +kernel⟩, rfl, by decide +kernel⟩
theorem witness_RingWordsAct_waits : (let s := rng 4 0 0; let h := s.peek 0 256; RingAt s 8 false 0 ∧ hEos h = false ∧ hN h ≤ behind (hCount h 8) (hCount h 12) ∧
      2 ^ 31 ≤ behind (hCount h 12) ((s.rs 1).toNat % 2 ^ 32) ∧ hCount h 12 ≠ hCount h 8) ∧
    (let s := rng 4 4 0; let h := s.peek 0 256; RingAt s 8 false 0 ∧ hEos h = false ∧ ∃ j < hNcons h, hN h ≤ behind (hCount h 8) (hCount h (128 + 4 * j))) ∧
    (let s := rng 0 0 0 [(6, 0x10)]; let h := s.peek 0 256; RingAt s 8 false 0 ∧ (s.rs 9).toNat < hNcons h ∧ hCount h (64 + 4 * (s.rs 9).toNat) = hCount h 12 ∧
      hEos h = true ∧ hCount h 12 = hCount h 8) :=
  ⟨⟨⟨rfl, by decide, by decide, by decide, by decide, by decide⟩, by decide +kernel⟩, ⟨⟨rfl, by decide, by decide, by decide, by decide, by decide⟩, by decide +kernel⟩,
    ⟨rfl, by decide, by decide, by decide, by decide, by decide⟩, by decide +kernel⟩
theorem witness_RingWordsAct_faults : (let s := rng 1 1 0; let h := s.peek 0 256; RingAt s 8 true 0 ∧ hNcons h ≤ (s.rs 1).toNat ∧ hCount h (128 + 4 * (s.rs 9).toNat) = hCount h (64 + 4 * (s.rs 9).toNat)) ∧
    (let s := rng 1 0 0 [(32, 1)]; let h := s.peek 0 256; RingAt s 8 false 0 ∧ pubSlot h (s.rs 1).toNat = none ∧ pubSlot h (s.rs 2).toNat = some 0 ∧ hReady h 0 = true) :=
  ⟨⟨⟨rfl, by decide, by decide, by decide, by decide, by decide⟩, by decide +kernel⟩, ⟨rfl, by decide, by decide, by decide, by decide, by decide⟩, by decide +kernel⟩
theorem witness_TrapTaken_supervisor : (mkSup j0).job.live = true ∧ (mkSup j0).job.acc = [] ∧ (mkSup j0).slots = [] ∧ (mkSup j0).job.sup = true := by decide
/-- A context held at 0x10000 of a job that trapped. -/
def held0 : Held := { ctxp := 0x10000, job := { j0 with id := 5, roff := 0x100000 }, trap := some { cls := 5, code := 1, strm := .v, pc := 8 } }
def erets : State :=
  let s := mkSup { j0 with src := { r := { d0 := 0, d1 := 0, d2 := 0xFFFFFFFF, d3 := 0 } } }
  { s with cores := s.cores.map fun p => (p.1, { p.2 with held := [held0], cr := p.2.cr ++ [(0x101, 0x10000)] }) }
theorem witness_TrapReturn : (mk j0).job.sup = false ∧ erets.job.sup = true ∧ erets.core.heldHere = some held0 ∧ erets.job.src.r.joina = noJoin ∧ erets.job.lost = [] ∧
    exitReady erets erets.me = true ∧ (erets.dieAt (erets.me / 384)).plans = [] ∧ held0.saved = [] ∧ erets.core.held = [held0] ∧ paOk erets (erets.me / 384) held0.ctxp = true ∧
    (held0.trap.map TrapInfo.cls) ≠ some 9 ∧ erets.ecc = [] ∧ held0.job.arith = none := by decide
/-- The same with another held context at its place. -/
def eretsOf (h : Held) : State := { erets with cores := erets.cores.map fun p => (p.1, { p.2 with held := [h] }) }
def trapX : TrapInfo := { cls := 9, code := 1, strm := .c, pc := 8 }
def trapB : Blk := { mode := .run, hdr := 4, body := [0xE000, 0x0801], left := 1 }
def heldB (b : Blk) (x : TrapInfo) (y : Option TrapInfo := none) : Held := { held0 with job := { held0.job with c := b, arith := y }, trap := some x }
theorem witness_TrapReturn_goes_on : (∀ h ∈ [heldB trapB trapX, heldB trapB { trapX with cls := 1 }, heldB { trapB with mode := .fetch } trapX, heldB trapB trapX (some trapX)],
      (eretsOf h).core.heldHere = some h ∧ exitReady (eretsOf h) 0 = true ∧ (eretsOf h).core.held = [h] ∧ h.saved = [] ∧ paOk (eretsOf h) 0 h.ctxp = true) ∧
    (heldB trapB trapX).job.arith = none ∧ trapX.cls ≠ 5 ∧ trapX.cls ≠ 6 ∧ trapX.strm ≠ .m ∧ ((heldB trapB trapX).job.blk .c).pc = trapX.pc ∧
    ((heldB trapB trapX).job.blk .c).mode = .run ∧ ((heldB trapB trapX).job.blk .c).code = [0xE000, 0x0801] ∧ (heldB trapB trapX (some trapX)).job.arith = some trapX := by decide
theorem witness_TlbInvalidation : (mk j0).job.sup = false ∧ (mkSup j0).job.sup = true := by decide
/-- The C-stream's cluster takes records: CQCFG written, level size 1,024 places. -/
def jobs (j : Job) (m : List Host.Cell) (c : Cluster := {}) : State := { mkM j m with clusters := [(0, { c with cq := true })] }
theorem witness_SpawnAndJoin : let s := jobs j0 [(6, 1), (20, 0xFF), (21, 0xFF), (22, 0xFF), (23, 0xFF)]; let t := { s with clusters := [] }; let r := recOf (s.peek 0 32)
    s.cw { rd := true } (s.rs 1).toInt 32 32 = .ok 0 ∧ (s.runsFree [(0, 32)] = true ∧ s.releaseReady .cluster = true ∧ s.job.lost = [] ∧ s.ecc = [] ∧
      recBroken r = none ∧ joinObjBad r.joina = none ∧ (s.dieAt (s.me / 384)).plans = [] ∧ (s.clusterAt s.myCl).fullO r.prio = false ∧
      (t.clusterAt t.myCl).fullO r.prio = true ∧ s.runsFree [(64, 64), (0, 32)] = true) ∧
    (mkM { j0 with s := [(1, 64)] } []).cw { w := true } 64 64 64 = .ok 64 := ⟨rfl, by decide +kernel, rfl⟩
theorem witness_SpawnAndJoin_object : let s := jobs j0 [(6, 1), (16, 64)]; let r := recOf (s.peek 0 32)
    r.joina = 64 ∧ r.joina ≠ noJoin ∧ joinObjBad r.joina = none ∧ recBroken r = none ∧ s.winPa r.joina = 64 ∧
    (let p := clWin s.myCl ((s.clusterAt s.myCl).placeAt r.prio ((s.clusterAt s.myCl).freeAt r.prio)); p + 32 ≤ 64) := by decide +kernel
def noJ : QRec := { r := { d0 := 2 ^ 48, d1 := 0, d2 := 0xFFFFFFFF, d3 := 0 } }
theorem witness_JobEndings : (let s := mk { j0 with src := noJ, c := { wait := some (.exit 0) } }
      s.job.src.r.joina = noJoin ∧ s.job.lost = [] ∧ s.rs 0 = 0 ∧ s.job.c.wait = some (.exit 0) ∧ s.stops .c = false ∧ exitReady s s.me = true) ∧
    (let s := mk { j0 with c := { wait := some .rdv } }; s.job.c.wait = some .rdv ∧ s.stops .c = false ∧ rdvReady s s.me = true) ∧
    (rdvReady (mk { j0 with a := { mode := .run } }) 0 = false) ∧
    (let s := jobs { j0 with src := noJ, s := [(1, 0xFFFFFFFFFFFC)], c := { wait := some (.yield 1) } } [];
      s.job.lost = [] ∧ fieldOf (s.rs 1) 48 16 = 0 ∧ fieldOf (s.rs 1) 0 2 = 0 ∧ s.job.c.wait = some (.yield 1) ∧ s.stops .c = false ∧ exitReady s s.me = true ∧
      (s.clusterAt s.myCl).fullO (yieldRec s 1).prio = false ∧ recBroken (yieldRec s 1) = none) ∧
    (let s := die0 (mk j0) { frames := [(3, { st := 3, tag := 0x1200 })] };
      (matchFrame (s.dieAt s.here.die) ((s.rs 1).setWidth 32) ((s.rs 2).setWidth 32)).isSome = true) ∧
    matchFrame ((mk j0).dieAt 0) 0 0 = none := by decide +kernel
theorem witness_JobEndings_join : let s := mkM { j0 with src := noJ, s := [(1, 64)], c := { wait := some (.exit 1) } } [(64, 2)]
    s.cw { rd := true, w := true } (s.rs 1).toInt 64 64 = .ok 64 ∧ s.rs 1 ≠ 0 ∧ exitReady s s.me = true ∧ 2 ≤ (s.peek64 64).toNat ∧ s.ecc = [] := ⟨rfl, by decide +kernel⟩
/-- A job at its EXIT whose record names the join object at x, whose counter is n and whose continuation record is that of noJ. -/
def joinJ (x : Nat) : Job := { j0 with src := { r := { d0 := 0, d1 := 0, d2 := BitVec.ofNat 64 x, d3 := 0 } }, c := { wait := some (.exit 0) } }
def joins (n : Byte) : State := jobs (joinJ 0x10000) [(0x10000, n), (0x10000 + 38, 1), (0x10000 + 48, 0xFF), (0x10000 + 49, 0xFF), (0x10000 + 50, 0xFF), (0x10000 + 51, 0xFF)]
theorem witness_JobEndings_object : (∀ n ∈ [(0 : Byte), 1, 2], let s := joins n; let pa := clWin s.myCl 0x10000; let r := recOf (s.peek (pa + 32) 32); let cl := clid (paDie pa) (paCore pa)
      s.job.src.r.joina = 0x10000 ∧ s.job.lost = [] ∧ s.job.c.wait = some (.exit 0) ∧ s.stops .c = false ∧ exitReady s s.me = true ∧ s.ecc = [] ∧
      (s.dieAt (s.me / 384)).plans = [] ∧ s.peek64 pa = n.setWidth 64 ∧ recBroken r = none ∧ (s.clusterAt cl).fullO r.prio = false ∧ spGet [] (s.clusterAt cl).heldO r.prio = [] ∧
      (let q := clWin cl ((s.clusterAt cl).placeAt r.prio ((s.clusterAt cl).freeAt r.prio)); q + 32 ≤ pa ∨ pa + 8 ≤ q)) ∧
    192 * 2 ^ 22 ≤ (joinJ (192 * 2 ^ 22)).src.r.joina ∧ (joinJ (192 * 2 ^ 22)).src.r.joina ≠ noJoin ∧ (joinJ 8).src.r.joina % 64 ≠ 0 := by decide +kernel
/-- An entry block of region class 0 at 0, and a record for it that core 0 has taken. -/
def idle0 : State :=
  { State.reset with mem := [(0, 4), (1, 0xC0)] ++ pt, cores := [(0, { taken := some (noJ, none), cr := [(0x102, 0x100), (0x400, 128)] })] }
theorem witness_JobStartsAndFreezes : (∃ w ao vo sp, idle0.job.live = false ∧ idle0.core.taken = some (noJ, none) ∧ entryOf idle0 idle0.me noJ = .ok 0 w ao vo sp ∧
      placeRegion idle0 0 idle0.core 0 = some 0) ∧ (mk j0).job.live = true ∧
    ∀ l < 8, firstPush (((mk j0).clusterAt (mk j0).myCl).lvl l) 0 none = none :=
  ⟨⟨_, _, _, _, by decide, by decide, rfl, by decide⟩, by decide, by decide⟩
theorem witness_JobStartsAndFreezes_freeze : let s := { mk j0 with cores := [(0, { job := { j0 with smask := 15 }, preq := true })] }
    let t := { mk j0 with cores := [(0, { job := { j0 with smask := 15 }, eng := { halt := some { cls := 6, code := 1, strm := .m, pc := 0 } } })] }
    s.core.preq = true ∧ s.job.live = true ∧ preemptHeld s s.me = false ∧ s.eng.halt = none ∧ s.core.engBusy = false ∧ s.job.acc = [] ∧ s.slots = [] ∧
    t.eng.halt = some { cls := 6, code := 1, strm := .m, pc := 0 } ∧ t.job.live = true ∧ t.job.has .m = true := by decide
/-- A plain block of two halfwords whose header is the last word of the first page. -/
def fetch0 : State := { mk { j0 with c := { mode := .fetch, hdr := 0x1FFC } } with mem := (0x1FFC, 2) :: pages }
theorem witness_BlockFetches_plain : ∃ u v r1 hb u2 v2 r2 bs, fetch0.job.live = true ∧ (fetch0.job.blk .c).mode = .fetch ∧ (fetch0.job.blk .c).park = none ∧
    fetch0.access { x := true } (0x1FFC : Nat) 4 1 = (.ok r1, u) ∧ u.loadRuns u.me r1 = (.ok hb, v) ∧ v.here = fetch0.here ∧ v.job = fetch0.job ∧
    headerBroken .c (codeWord hb) = false ∧ (codeWord hb).toNat / 2 ^ 30 ≠ 3 ∧
    (v.onBlk .c fun b => { b with word := codeWord hb }).access { x := true } (0x1FFC + 4 : Nat) (2 * ((codeWord hb).toNat / 2 ^ 16 % 2 ^ 12)) 1 = (.ok r2, u2) ∧
    u2.loadRuns u2.me r2 = (.ok bs, v2) ∧ v2.here = fetch0.here ∧ v2.job = (v.onBlk .c fun b => { b with word := codeWord hb }).job :=
  ⟨_, _, [(0x1FFC, 4)], [2, 0, 0, 0], _, _, [(0x2000, 4)], [0, 0, 0, 0], by decide, by decide, by decide, acc_eq (by decide +kernel), acc_eq rfl, by decide +kernel,
    by decide +kernel, by decide +kernel, by decide +kernel, acc_eq (by decide +kernel), acc_eq rfl, by decide +kernel, by decide +kernel⟩
theorem witness_BlockFetches_broken_and_entry : (∃ u v r1 hb, (mk { j0 with c := { mode := .fetch, hdr := 0 } }).access { x := true } (0 : Nat) 4 1 = (.ok r1, u) ∧
      u.loadRuns u.me r1 = (.ok hb, v) ∧ headerBroken .c (codeWord hb) = true) ∧
    (∃ u v r1 hb, (mkM { j0 with a := { mode := .fetch, hdr := 0 } } [(0, 4), (1, 0xC0)]).access { x := true } (0 : Nat) 4 1 = (.ok r1, u) ∧
      u.loadRuns u.me r1 = (.ok hb, v) ∧ headerBroken .a (codeWord hb) = false ∧ (codeWord hb).toNat / 2 ^ 30 = 3) :=
  ⟨⟨_, _, [(0, 4)], [0, 0, 0, 0], acc_eq (by decide +kernel), acc_eq rfl, by decide⟩,
    ⟨_, _, [(0, 4)], [4, 0xC0, 0, 0], acc_eq (by decide +kernel), acc_eq rfl, by decide, by decide⟩⟩
def rec0 : Rec := noJ.r
theorem witness_RecordAndAdmissionSteps_records : let s := die0 { jobs {} [] with here := { job := rec0 } } { released := true }
    let h := { jobs {} [] { heldR := [(0, [noJ])] } with here := {} }
    let p := { jobs {} [] { q := [(0, [noJ])] } with tick := 64000 }
    recBroken s.here.job = none ∧ (s.clusterAt 0).fullO rec0.prio = false ∧ spGet [] (s.clusterAt 0).heldO rec0.prio = [] ∧
    (State.reset.clusterAt 0).fullO rec0.prio = true ∧
    spGet [] (h.clusterAt 0).heldR 0 = noJ :: [] ∧ (h.clusterAt 0).fullR 0 = false ∧ noJ.r.prio = 0 ∧
    ((p.clusterAt 0).lvl 0)[p.here.k]? = some noJ ∧ noJ.clk.toNat + 64000 ≤ (p.tickOf 0).toNat ∧ (p.clusterAt 0).fullO 1 = false ∧
    (∀ x ∈ (p.clusterAt 0).lvl 0, x.clk.toNat + 64000 ≤ (p.tickOf 0).toNat → noJ.push ≤ x.push) ∧ neverFits p 0 noJ = false ∧
    (s.dieAt s.here.die).released = true ∧ (State.reset.dieAt 0).released = false := by decide +kernel
def admMem : List Host.Cell := [(ctlPa 0 0x280007, 0x80)]
theorem witness_RecordAndAdmissionSteps_admission : let r : AdmRec := { d0 := 0, d1 := 0, d2 := 0 }
    let s := { State.reset with mem := admMem, dies := [(0, { admHeld := [r] })] }
    let t := die0 { State.reset with mem := admMem } { released := true }
    (t.dieAt 0).released = true ∧ (t.dieAt 0).adm.length < 1024 ∧ (t.dieAt 0).admHeld = [] ∧ bitOf (modelEnt t 0 (fieldOf t.here.adm.d1 54 6)) 63 = true ∧
    (s.dieAt 0).admHeld = r :: [] ∧ bitOf (modelEnt s 0 (fieldOf r.d1 54 6)) 63 = true ∧
    1024 ≤ ({ State.reset with dies := [(0, { adm := List.replicate 1024 { r := r } })] } : State).dies.length * 1024 ∧
    1024 ≤ (({ State.reset with dies := [(0, { adm := List.replicate 1024 { r := r } })] } : State).dieAt 0).adm.length ∧
    freeMd t 0 = none ∧ launchDue t 0 0 = false := by decide +kernel
theorem witness_RecordAndAdmissionSteps_frames : let s := die0 State.reset { cr := [(0x305, 0x100000000), (0x306, 0x10000)], released := true }
    (s.dieAt 0).released = true ∧ chooseFrame s 0 (s.slotAt 0 0).cursor = some (0, 0) ∧ freeMd s 0 = some 0 := by decide +kernel
/-- Launch entry 0 is armed and due, with a record of stream mask 1 for core 0. -/
def launch0 : State := { jobs {} [] with mem := [(ctlPa 0 0x2000F, 0x80), (ctlPa 0 0x20026, 1)] }
theorem witness_RecordAndAdmissionSteps_launch : let s := launch0
    let pa := ctlPa 0 0x20000
    let w := s.peek64 (pa + 8)
    let r := recOf (s.peek (pa + 32) 32)
    let r := { r with d1 := setField (setField r.d1 61 1 1) 53 8 (fieldOf w 32 9 % 192) }
    launchDue s 0 0 = true ∧ fieldOf w 32 9 < 384 ∧ fieldOf w 41 9 = 0 ∧ fieldOf w 51 12 = 0 ∧ s.peek64 (pa + 16) = 0 ∧ s.peek64 (pa + 24) = 0 ∧
    fieldOf w 0 32 = 0 ∧ bitOf w 50 = false ∧ recBroken r = none ∧ (s.clusterAt 0).fullR r.prio = false ∧ spGet [] (s.clusterAt 0).heldR r.prio = [] := by
  decide +kernel
/-! A context that is written leaves what stands below it. -/
/-- Nothing below an address, no die and no cluster differs. -/
def Below (k : Nat) (s t : State) : Prop := t.dies = s.dies ∧ t.clusters = s.clusters ∧ ∀ x < k, memGet t.mem x = memGet s.mem x
theorem below_pokeRaw {k : Nat} {s : State} (h : s.dies = []) : ∀ (bs : List Byte) (t : State) (a : Nat), k ≤ a → Below k s t → Below k s (t.pokeRaw a bs)
  | [], _, _, _, g => g
  | b :: bs, t, a, ha, g => by
    have e : t.pokeByte a b = { t with mem := memPut t.mem a b } := by
      unfold State.pokeByte State.dieAt
      rw [g.1, h]
      exact if_neg (by simp [spGet, spFind, overlayFind])
    refine below_pokeRaw h bs _ (a + 1) (by omega) ?_
    rw [e]
    exact ⟨g.1, g.2.1, fun x hx => (memGet_memPut t.mem a x b).trans ((if_neg (by omega)).trans (g.2.2 x hx))⟩
theorem below_parts {k a : Nat} {s : State} {f : Nat × List Byte → List Byte} (h : s.dies = []) (ha : k ≤ a) : ∀ (l : List (Nat × List Byte)) (t : State), Below k s t →
    Below k s (each (fun (p : Nat × List Byte) s => s.pokeRaw (a + p.1) (f p)) l t)
  | [], _, g => g
  | p :: l, t, g => below_parts h ha l _ (below_pokeRaw h (f p) t _ (by omega) g)
theorem memGet_filter_below {k : Nat} (f : Nat → Bool) (h : ∀ x < k, f x = true) : ∀ (m : List Host.Cell) (x : Nat), x < k → memGet (m.filter fun p => f p.1) x = memGet m x
  | [], _, _ => rfl
  | (i, v) :: m, x, hx => by
    have ih := memGet_filter_below f h m x hx
    rw [List.filter_cons]
    by_cases e : i = x
    · subst e; simp [h i hx, memGet]
    · cases f i <;> simp [memGet, e, ih]
theorem below_storeArea {k die a n : Nat} {s t : State} {l : List (Nat × List Byte)} (h : s.dies = []) (hp : paSpace a ≠ 2) (ha : k ≤ a) (g : Below k s t) :
    Below k s (t.storeArea die a n l) := by
  unfold State.storeArea State.ntServe
  generalize okLen t die a n = m
  dsimp only
  rw [if_neg hp]
  rw [if_pos (by unfold State.dieAt; rw [g.1, h]; rfl)]
  have key : ∀ u, Below k s u → Below k s (((u.tagTiles a m 0).wake a m).eccFresh a m) := fun u hu => by
    unfold State.eccFresh State.wake State.tagTiles
    split
    · exact hu
    · exact hu
  refine key _ (below_parts h ha _ _ ⟨g.1, g.2.1, fun x hx => (memGet_filter_below (fun i => !(decide (a ≤ i) && decide (i < a + m))) (fun i hi => ?_) t.mem x hx).trans (g.2.2 x hx)⟩)
  simp; omega
theorem below_freeze {k n : Nat} {s : State} {t : Option TrapInfo}
    (e : (s.settle n).onCore n (fun k => { k.engComplete with job := k.engComplete.job.beginCk }) = s) (hl : (s.coreAt n).job.live = true) (h : s.dies = [])
    (hh : (s.coreAt n).held = []) (hk : k ≤ fieldOf ((s.coreAt n).reg 0x101) 0 56)
    (hp : paSpace (fieldOf ((s.coreAt n).reg 0x101) 0 56) ≠ 2) (hq : paSpace (fieldOf ((s.coreAt n).reg 0x101) 0 56 + 0xE00) ≠ 2) : Below k s (s.freeze n t) := by
  unfold State.freeze
  rw [e]
  simp only [hl, hh, Bool.not_true, Bool.false_eq_true, if_false, List.filter_nil, each]
  have key : ∀ u j, Below k s u → Below k s (u.planHold n j) := fun u j g => by
    have p : (u.dieAt (n / 384)).plans = [] := by unfold State.dieAt; rw [g.1, h]; rfl
    unfold State.planHold
    dsimp only
    rw [p]
    exact g
  refine key _ _ ?_
  have d : ∀ l m : List (Nat × List Byte), Below k s ((s.storeArea (n / 384) (fieldOf ((s.coreAt n).reg 0x101) 0 56) 0xC00 l).storeArea (n / 384)
      (fieldOf ((s.coreAt n).reg 0x101) 0 56 + 0xE00) 0x25600 m) := fun l m =>
    below_storeArea h hq (Nat.le_trans hk (Nat.le_add_right _ 0xE00)) (below_storeArea h hp hk ⟨rfl, rfl, fun _ _ => rfl⟩)
  exact ⟨(d _ _).1, (d _ _).2.1, (d _ _).2.2⟩
/-- A job that may trap to a handler: its cluster's vector table stands at 0, its context is written at 0x10000. -/
def vec0 : State := { mkM { j0 with ckOn := true } [(144, 8)] with cores := [(0, { job := { j0 with ckOn := true }, cr := [(0x101, 0x10000), (0x400, 128)] })] }
def vecX : TrapInfo := { cls := 9, code := 63, strm := .c, pc := vec0.job.c.pc, word := vec0.wordOf .c }
theorem below_vec0 : Below 0x10000 vec0 (vec0.freeze vec0.me (some vecX)) := below_freeze (by decide +kernel) (by decide) rfl (by decide) (by decide) (by decide) (by decide)
theorem vector_of_below {f : State} (b : Below 0x10000 vec0 f) : 
     fieldOf (f.peek64 (clWin vec0.myCl (fieldOf ((f.clusterAt vec0.myCl).reg 0x202) 0 32 + 16 * 9))) 0 48 ≠ 0 := by
  obtain ⟨h1, h2, h3⟩ := b
  have hp : ∀ x < 0x10000, f.byteAt x = vec0.byteAt x := fun x hx => by unfold State.byteAt State.dieAt; rw [h1, h3 x hx]
  have hr : (f.clusterAt vec0.myCl).reg 0x202 = 0 := by unfold State.clusterAt; rw [h2]; decide
  have h8 : ∀ m a, a + m ≤ 0x10000 → f.peek a m = vec0.peek a m := fun m => by
    induction m with
    | zero => intro a _; rfl
    | succ m ih => intro a ha; unfold State.peek; rw [hp a (by omega), ih (a + 1) (by omega)]
  rw [show clWin vec0.myCl (fieldOf ((f.clusterAt vec0.myCl).reg 0x202) 0 32 + 16 * 9) = 144 from by rw [hr]; decide]
  unfold State.peek64
  rw [h8 8 144 (by decide)]
  decide +kernel
theorem witness_TrapTaken_engine : let s := { mk j0 with cores := [(0, { job := { j0 with smask := 15 }, eng := { q := [{ desc := none, lo := 0, hi := 0x11 * 2 ^ 56 }], step1 := true } })] }
    s.job.live = true ∧ s.job.sup = false ∧ s.core.engBusy = true := by decide
theorem witness_TrapTaken_job : vec0.job.live = true ∧ vec0.job.acc = [] ∧ vec0.slots = [] ∧ vec0.job.sup = false ∧ vec0.core.engBusy = false ∧ vec0.job.ckOn = true ∧
    (let f := vec0.freeze vec0.me (some vecX)
     fieldOf (f.peek64 (clWin vec0.myCl (fieldOf ((f.clusterAt vec0.myCl).reg 0x202) 0 32 + 16 * 9))) 0 48 ≠ 0) :=
  ⟨by decide, by decide, by decide, by decide, by decide, by decide, vector_of_below below_vec0⟩
theorem witness_VectorElementResults : (∃ f, VGroup (mk j0) (.vadd 1 2 3 0 .f32) 1 1 0 32 4 (fun _ p => p) f) ∧
    (∃ g f, VGroup (mk j0) (.vdqmx 15 2 3 0 .bf16) 60 4 0 16 5 g f) ∧ (∃ g f, VGroup (mk j0) (.vwiden 1 2 .n32 1 0 .n16) 1 2 0 32 3 g f) :=
  ⟨⟨_, .one (.vaddF _ _ _ _ _ rfl)⟩, ⟨_, _, .vdqmx _ _ _ _ _ rfl⟩, ⟨_, _, .vwiden _ _ _ _ _ _ rfl⟩⟩
theorem witness_VectorPredicatesAndConversions : (isF .f16 = true ∨ (isI .f16 = true ∧ VCond.uo ≠ .uo ∧ VCond.uo ≠ .od)) ∧
    (isF .i8 = true ∨ (isI .i8 = true ∧ VCond.ge ≠ .uo ∧ VCond.ge ≠ .od)) ∧ (∃ x, PLog (mk j0) (.pnot 7 0) 7 x) ∧
    (isCvt .f32 = true ∧ isCvt .i4 = true ∧ VTy.f32 ≠ .i4) ∧ isF .bf16 = true := ⟨by decide, by decide, ⟨_, .pnot 7 0⟩, by decide, by decide⟩
theorem witness_VectorReductions : isI .n8 = true ∧ isF .f16 = true := by decide
theorem witness_VectorQueueAndSmallWords : let e : DqEnt := { id := 0, data := some 5, tag := 9 }
    let s := mk { j0 with dq := [(7, [e])], xt := [(3, 9)] }
    (mk { j0 with smask := 1 }).job.smask.getLsbD 1 = false ∧ s.job.smask.getLsbD 1 = true ∧ spGet [] s.job.dq 7 = e :: [] ∧ e.data = some 5 ∧
    engFirst s 7 = false ∧ s.rxt 3 = e.tag ∧ (s.rxt 2 = 0) ∧ spGet [] s.job.dq 6 = [] ∧ s.job.oqCount 3 < 16 ∧
    16 ≤ (mk { j0 with oq := [(3, List.replicate 16 0)] }).job.oqCount 3 ∧ (mk { j0 with xt := [(3, 8)] }).rxt 3 ≠ e.tag ∧ (mk { j0 with xt := [(3, 8)] }).rxt 3 ≠ 0 ∧
    engFirst { mk j0 with cores := [(0, { job := { j0 with smask := 15 }, eng := { popw := [(7, false)] } })] } 7 = true := by decide +kernel
theorem witness_VectorQueueAndSmallWords_realn : let s := die0 (mk { j0 with realn := some 0 }) { cr := [(0x300, 1000)] }
    fieldOf (((mk j0).dieAt 0).reg 0x300) 0 32 = 0 ∧ fieldOf ((s.dieAt 0).reg 0x300) 0 32 ≠ 0 ∧ (s.tickOf 0).toNat + 1000 < 2 ^ 64 ∧
    s.job.realn = some 0 ∧ 0 ≤ s.tickOf 0 ∧ s.stops .v = false ∧ { mk j0 with cores := [(0, { job := j0, preq := true })] }.stops .v = true ∧ (mk { j0 with realn := some 7 }).job.realn = some 7 ∧ ¬ (7 : W64) ≤ (mk j0).tickOf 0 := by decide +kernel
def lands (f : Fl) (d : Option VReg := none) : State :=
  { mk { j0 with v := { mode := .run, wait := some (.vpop 1 2 0) }, dq := [(2, [{ id := 0, data := d }])], land := [{ rem := 1, flags := f, pc := 8 }], fps := 0x1000 }
    with here := { st := .v } }
theorem witness_VectorLandings : (lands 1).job.ckOn = false ∧ (lands 1).stops .v = false ∧
    (∀ l ∈ dueNow (lands 1), l.flags &&& BitVec.ofNat 5 (fieldOf (lands 1).job.fps 8 5) = 0) ∧ (lands 1).job.live = true ∧ (lands 1).vHeld = true ∧
    ((dueNow (lands 16)).find? fun l => (l.flags &&& BitVec.ofNat 5 (fieldOf (lands 16).job.fps 8 5)) != 0).isSome = true ∧ (lands 16).vHeld = true ∧
    (let s := lands 1 (some 5)
     s.here.st = .v ∧ s.job.v.wait = some (.vpop 1 2 0) ∧ spGet [] s.job.dq 2 = { id := 0, data := some 5 } :: [] ∧ engFirst s 2 = false) ∧
    (let s := { mk { j0 with v := { mode := .run, wait := some (.vpush 3 1) }, oq := [(3, List.replicate 15 0)] } with here := { st := .v } }
     s.job.ckOn = false ∧ s.stops .v = false ∧ s.job.v.wait = some (.vpush 3 1) ∧ s.job.oqCount 3 < 16) ∧
    (let s := mk { j0 with c := { wait := some (.sq 4) }, sq := [{ id := 0, data := some 6 }] }
     s.here.st = .c ∧ s.stops .c = false ∧ s.job.c.wait = some (.sq 4) ∧ s.job.sq = { id := 0, data := some 6 } :: []) := by decide +kernel
/-- The record of a plan: rank 0 of 1, PLANID 1, one transfer of 64 bytes from 0, the peer table at 0x2000, DONEA at 0x4000. -/
def planB : List Byte := (List.replicate 256 0).set 12 1 |>.set 33 0x20 |>.set 40 64 |>.set 57 0x40
def planS : State := { mk { j0 with c := { wait := some (.cplan 1 2) } } with mem := [(12, 1), (33, 0x20), (40, 64), (57, 0x40)] ++ pages }
theorem witness_EnginePushes_plan : ∃ u, PlanRead planS 2 planB u ∧ u.here = planS.here ∧ planS.job.c.wait = some (.cplan 1 2) ∧ planS.stops .c = false ∧ pRwv planB = false ∧
    freePlace (u.dieAt 0).plans 256 = some 0 ∧ windowRoom u planB = true :=
  ⟨_, ⟨[(0, 256)], [(0x2000, 8)], List.replicate 8 0, _, _, _, _, .ok 0x4000, by decide, by decide, acc_eq (by decide +kernel), by decide +kernel, load_eq (by decide +kernel), by decide +kernel,
    acc_eq (by decide +kernel), by decide +kernel, load_eq (by decide +kernel), by decide +kernel, by decide +kernel, acc_eq (by decide +kernel), .inr ⟨_, rfl⟩⟩,
    by decide +kernel, by decide +kernel, by decide +kernel, by decide +kernel, by decide +kernel, by decide +kernel⟩
theorem witness_EnginePushes : let s := mk { j0 with smask := 15, s := [(1, 0x1F), (2, 128), (3, 256)] }
    let t := die0 s { plans := [(0, plan0)] }
    (∃ m b, MxPush s (.mxq 0 0) b m ∧ b = false) ∧ (∃ m b, MxPush s (.mxq 1 0) b m ∧ b = true) ∧ (mk j0).job.has .m = false ∧ s.job.has .m = true ∧ s.eng.q.length < 16 ∧
    s.releaseReady .core = true ∧ s.job.lost = [] ∧ (s.rs 1).toNat % 128 ≠ 0 ∧ (s.rs 2).toNat % 128 = 0 ∧ ((s.clusterAt s.myCl).xeng 0).heads.length < 32 ∧
    s.releaseReady .cluster = true ∧ (s.dieAt 0).scr.length < 16 ∧ s.releaseReady .die = true ∧
    (t.dieAt 0).plan ((t.rs 3).toNat % 256) = some plan0 ∧ planHandle ((t.rs 3).toNat % 256) plan0 = (t.rs 3).toNat ∧ plan0.job = t.job.id ∧ plan0.abort = none ∧
    plan0.pend.length < 255 ∧ t.releaseReady .sys = true ∧ t.core.nt = [] ∧ (s.dieAt 0).plan 0 = none := by
  intro s t
  exact ⟨⟨_, _, .mxq 0 0, by decide +kernel⟩, ⟨_, _, .mxq 1 0, by decide +kernel⟩, by decide +kernel⟩
theorem witness_EnginePushes_full : let e : MEnt := { desc := none, lo := 0, hi := 0 }
    let s := { mk j0 with cores := [(0, { job := { j0 with smask := 15 }, eng := { q := List.replicate 16 e } })] }
    let h : ChainHead := { pc := 0, core := 0, root := 0, sup := false }
    let t := { mk j0 with clusters := [(0, { eng := [(0, { heads := List.replicate 32 h })] })], dies := [(0, { scr := List.replicate 16 { lo := 0, hi := 0, cl := 0 } })] }
    s.job.has .m = true ∧ 16 ≤ s.eng.q.length ∧ 32 ≤ ((t.clusterAt t.myCl).xeng 0).heads.length ∧ 16 ≤ (t.dieAt 0).scr.length := by decide +kernel
theorem witness_ConsignmentWords_seal : let s := mk { j0 with smask := 1, s := [(1, 5), (2, 64)], cncur := 5, cnsent := [(5 * 2048 + 3, 77)] }
    (s.rs 1).toNat < 2 ^ 32 ∧ (s.rs 1).toNat ≠ 0 ∧ fieldOf s.job.cncur 0 32 = (s.rs 1).toNat ∧ bitOf s.job.cncur 40 = false ∧ s.job.lost = [] ∧
    s.cw { w := true } (s.rs 2).toInt (16 + 16 * (sentTo s.job 5).length) 1 = .ok 64 ∧ (cwPieces s 64 (16 + 16 * (sentTo s.job 5).length) 3 = [(64, 32)] ∧
      rdvReady s s.me = true ∧ s.runsFree [(64, 32)] = true) :=
  ⟨by decide, by decide, by decide, by decide, by decide, rfl, by decide⟩
/-- A manifest at 0 of one destination on die 0, for the open consignment 5. -/
def cman : State :=
  die0 (mkM { j0 with smask := 1, s := [(1, 5)] } [(6, 0x10), (7, 1), (16, 0x40)]) { coords := [(0, { handle := 5, state := 1, stata := 0x80 })] }
theorem witness_ConsignmentWords_manifest : ∃ m u, cnOpenOn cman 0 5 = true ∧ cnDie 5 = 0 ∧ (cman.dieAt 0).coord 5 = some (0, { handle := 5, state := 1, stata := 0x80 }) ∧
    cman.cw { rd := true } (cman.rs 2).toInt 16 1 = .ok 0 ∧ cman.runsFree (cwPieces cman 0 16 3) = true ∧
    fieldOf (BitVec.ofNat 64 (ofBytes ((cwPieces cman 0 8 3).flatMap fun p => cman.peek p.1 p.2))) 56 8 = 1 ∧
    cman.cw { rd := true } (cman.rs 2).toInt (16 + 16 * 1) 1 = .ok 0 ∧ cman.runsFree (cwPieces cman 0 (16 + 16 * 1) 3) = true ∧
    cman.loadRuns cman.me (cwPieces cman 0 (16 + 16 * 1) 3) = (.ok m, u) ∧ u.here = cman.here ∧ u.dies = cman.dies ∧ manifestOk u 0 m = true ∧
    fieldOf (dwAt m 0) 50 3 = 4 ∧ u.releaseReady .ring = true ∧ u.job.lost = [] ∧ u.core.nt = [] ∧
    (∀ i < 1, (u.dieAt (paDie (dwAt m (16 + 16 * i)).toNat)).bypassed = false) :=
  ⟨[0, 0, 0, 0, 0, 0, 0x10, 1, 0, 0, 0, 0, 0, 0, 0, 0, 0x40, 0, 0, 0, 0, 0, 0, 0, 0, 0, 0, 0, 0, 0, 0, 0], _, by decide +kernel, by decide, by decide, rfl,
    by decide +kernel, by decide +kernel, rfl, by decide +kernel, load_eq (by decide +kernel), by decide +kernel, by decide +kernel, by decide +kernel,
    by decide, by decide +kernel, by decide +kernel, by decide +kernel, by decide +kernel⟩
theorem witness_ConsignmentWords_entries : let s := mkM { j0 with smask := 1, s := [(1, 5), (2, BitVec.ofNat 64 (2 ^ 22 - 16))] } [(2 ^ 22 - 9, 1)]
    s.cw { rd := true } (s.rs 2).toInt 16 1 = .ok (2 ^ 22 - 16) ∧ s.runsFree (cwPieces s (2 ^ 22 - 16) 16 3) = true ∧
    fieldOf (BitVec.ofNat 64 (ofBytes ((cwPieces s (2 ^ 22 - 16) 8 3).flatMap fun p => s.peek p.1 p.2))) 56 8 = 1 ∧
    s.cw { rd := true } (s.rs 2).toInt (16 + 16 * 1) 1 = .error (1, 1, 2 ^ 22) :=
  ⟨rfl, by decide +kernel, by decide +kernel, rfl⟩
theorem witness_ConsignmentWords_abort : cnDieOk cman 0 5 = true ∧ cnDieOk cman 0 (8 * 2 ^ 21) = false ∧ (8 * 2 ^ 21 < 2 ^ 32) ∧
    2 ^ 32 ≤ ((mk { j0 with s := [(1, 2 ^ 32)] }).rs 1).toNat := by decide
/-- A job with a matrix engine whose command at the head is c, its waits taken, its first operand descriptor slots those given. -/
def eng0 (c : Nat) (ds : Sp (W64 × W64) := []) (p : Nat := 0) : State :=
  { mk j0 with cores := [(0, { job := { j0 with smask := 15, desc := ds }, cr := [(0x400, 128)],
                               eng := { q := [{ desc := none, lo := BitVec.ofNat 64 c, hi := BitVec.ofNat 64 (c / 2 ^ 64) }], step1 := true, prog := p } })] }
/-- The same with step 1 not done. -/
def eng1 (c : Nat) (j : Job) : State :=
  { mk j0 with cores := [(0, { job := j, eng := { q := [{ desc := none, lo := BitVec.ofNat 64 c, hi := BitVec.ofNat 64 (c / 2 ^ 64) }] } })] }
theorem witness_EngineTurns_engine : EngCmd .zeroz (fun c => cOp c == 3) (fun _ _ => .ok) ∧ (mk j0).eng.head = none ∧
    (let c := 3 * 2 ^ 120 + 128 * 2 ^ 112
     let s := eng1 c { j0 with smask := 15 }; let t := eng1 c { j0 with smask := 15, sem := [(7, 1)] }
     s.eng.head = some c ∧ engActs s = true ∧ (cOp c == 3) = true ∧ s.eng.step1 = false ∧ countsReady s.job.sem (cWait c) 8 = false ∧
     t.eng.head = some c ∧ engActs t = true ∧ countsReady t.job.sem (cWait c) 8 = true) ∧
    (let c := 1 * 2 ^ 120; let s := eng0 c [(0, (0, 2 ^ 63))]
     s.eng.head = some c ∧ engActs s = true ∧ s.eng.step1 = true ∧ s.eng.prog = 0 ∧ s.eng.clr = false ∧ s.job.pend = none ∧
     (opndCheck s (cK c) (opndA c)).and (opndCheck s (cK c) (opndB c)) = .bad 1 0) := ⟨.zeroz, by decide +kernel⟩
/-- Chain 0 of engine 0 of cluster 0 is at a command. -/
def chain0 (c : Chain) (ev : Sp Nat := []) : State := { mk j0 with clusters := [(0, { ev := ev, eng := [(0, { chains := [(0, c)] })] })] }
/-- A command of an operation, its doublewords 1 to 3 given. -/
def cmd (op d1 d2 d3 : Nat) (ph : ChainPh := .act) : Chain :=
  { head := 0x8000, pc := 0x8000, core := 0, root := 128, sup := false, ph := ph
    cmd := bytesOf 8 op ++ bytesOf 8 d1 ++ bytesOf 8 d2 ++ bytesOf 8 d3 ++ List.replicate 96 0 }
/-- A command at the head of an engine that may act, with its check passed, runs. -/
theorem runs {s : State} {i : Instr} {c : Nat} {is : Nat → Bool} {chk : State → Nat → EChk} (h : EngCmd i is chk)
    (g : s.eng.head = some c ∧ engActs s = true ∧ is c = true ∧ s.eng.step1 = true ∧ chk s c = .ok) : EngRuns s i c :=
  ⟨is, chk, h, g.1, g.2.1, g.2.2.1, g.2.2.2.1, .inr (.inr g.2.2.2.2)⟩
/-- A read that does not meet an error answers something. -/
theorem load_ex {α β ε : Type} {x : Except ε α × β} (h : x.1.toOption.isSome = true) : ∃ r, x = (.ok r, x.2) := by
  obtain ⟨a, b⟩ := x
  cases a with
  | error e => cases h
  | ok a => exact ⟨a, rfl⟩
theorem exc_eq {α ε : Type} {x : Except ε α} {r : α} (h : x.toOption = some r) : x = .ok r := by
  cases x with
  | error e => cases h
  | ok a => cases h; rfl
theorem got_ex {x : Got × State} (h : (match x.1 with | .ok _ _ => true | _ => false) = true) : ∃ r q, x = (.ok r q, x.2) := by
  obtain ⟨a, b⟩ := x
  cases a with
  | ok r q => exact ⟨r, q, rfl⟩
  | wait => cases h
  | dead w => cases h
theorem witness_MatrixCommands_small : EngRuns (eng0 0) .mnop 0 ∧ EngRuns (eng0 (3 * 2 ^ 120 + 255)) .zeroz (3 * 2 ^ 120 + 255) :=
  ⟨runs .mnop (by decide +kernel), runs .zeroz (by decide +kernel)⟩
/-- A dense product of bf16 by bf16, one row by one row, K = 33, into z7. -/
def mma0 : Nat := 2 ^ 120 + 32 * 2 ^ 31 + 7 * 2 ^ 15 + 7 * 2 ^ 11 + 7
theorem witness_MatrixCommands_mma : EngRuns (eng0 (mma0 + 2 ^ 47)) .mma (mma0 + 2 ^ 47) ∧ (mma0 + 2 ^ 47).testBit 47 = true ∧
    (let s := eng0 mma0
     EngRuns s .mma mma0 ∧ mma0.testBit 47 = false ∧ ∃ xs sx ys sy u v,
       s.fetchOpnd (opndA mma0) s.eng.prog (min 32 (cK mma0 - 32 * s.eng.prog)) = (.ok xs sx, u) ∧
       u.fetchOpnd (opndB mma0) s.eng.prog (min 32 (cK mma0 - 32 * s.eng.prog)) = (.ok ys sy, v)) ∧
    (let c := mma0 + 8; EngRuns (eng0 c) .mma c ∧ ∃ u, (eng0 c).fetchOpnd (opndA c) (eng0 c).eng.prog (min 32 (cK c - 32 * (eng0 c).eng.prog)) = (.wait, u)) := by
  refine ⟨runs .mma (by decide +kernel), by decide, ⟨runs .mma (by decide +kernel), by decide, ?_⟩, runs .mma (by decide +kernel), _, acc_eq (by decide +kernel)⟩
  obtain ⟨xs, sx, h⟩ := got_ex (x := (eng0 mma0).fetchOpnd (opndA mma0) (eng0 mma0).eng.prog (min 32 (cK mma0 - 32 * (eng0 mma0).eng.prog))) (by decide +kernel)
  obtain ⟨ys, sy, g⟩ := got_ex (x := ((eng0 mma0).fetchOpnd (opndA mma0) (eng0 mma0).eng.prog (min 32 (cK mma0 - 32 * (eng0 mma0).eng.prog))).2.fetchOpnd (opndB mma0)
    (eng0 mma0).eng.prog (min 32 (cK mma0 - 32 * (eng0 mma0).eng.prog))) (by decide +kernel)
  exact ⟨xs, sx, ys, sy, _, _, h, g⟩
theorem witness_MatrixCommands_rows : (let c := 4 * 2 ^ 120; EngRuns (eng0 c) .loadz c ∧ (eng0 c).eng.prog < 64 ∧
      ∃ l u, (eng0 c).engReads 4 ((upFrom 0 (bitsAt c 12 6 + 1)).map fun x => accAddr (descOf (eng0 c) (bitsAt c 3 3)) (eng0 c).eng.prog x 4) = (.ok l, u)) ∧
    (let c := 5 * 2 ^ 120 + 6 * 2 ^ 18; EngRuns (eng0 c) .storez c ∧
      (∀ x < bitsAt c 12 6 + 1, cwPieces (eng0 c) (accAddr (descOf (eng0 c) (bitsAt c 3 3)) (eng0 c).eng.prog x 4) 4 2 = [(0 + 4 * x, 4)]) ∧ vtyWidth (storezTy c) / 8 = 4) :=
  ⟨⟨runs .loadz (by decide +kernel), by decide, ⟨_, _, (load_ex (by decide +kernel)).choose_spec⟩⟩, runs .storez (by decide +kernel), by decide +kernel⟩
/-- Core 0 drains core 1, on which a context is frozen. -/
def drain0 (c : Nat) : State :=
  { eng0 c with cores := (eng0 c).cores ++ [(1, { held := [{ held0 with job := { held0.job with smask := 15 } }], cr := [(0x101, 0x100010000)] })] }
theorem witness_MatrixCommands_drains : (∀ b ∈ [0, 256], EngRuns (drain0 (6 * 2 ^ 120 + 1 + b)) .drainz (6 * 2 ^ 120 + 1 + b) ∧
      EngRuns (drain0 (7 * 2 ^ 120 + 1 + b)) .drainq (7 * 2 ^ 120 + 1 + b)) ∧
    (let s := drain0 (7 * 2 ^ 120 + 1); s.eng.prog = 0 ∧ s.eng.clr = false ∧ ctxpOf s 1 + 0x50000 ≤ 2 ^ 52 ∧ paDie (ctxpOf s 1) = paDie (ctxpOf s 1 + 0x4FFFF) ∧ (s.coreAt 1).eng.q.length ≤ 16 ∧ s.ecc = [] ∧
      s.peek (ctxpOf s 1 + 0xC00) 0x200 = drainqBytes {}) := by
  refine ⟨fun b hb => ?_, by decide +kernel⟩
  simp only [List.mem_cons, List.not_mem_nil, or_false] at hb
  rcases hb with rfl | rfl <;> exact ⟨runs .drainz (by decide +kernel), runs .drainq (by decide +kernel)⟩
theorem witness_MatrixCommands_absent : let s := { eng0 0 with cores := (eng0 0).cores ++ [(1, { held := [{ held0 with ctxp := 5 * 2 ^ 52 }], cr := [(0x101, BitVec.ofNat 64 (5 * 2 ^ 52))] })] }
    drainHeld s (6 * 2 ^ 120 + 1 + 2 ^ 9) = .ok ∧ (upFrom 0 8).filter (fun z => (bitsAt (6 * 2 ^ 120 + 1 + 2 ^ 9) 9 8).testBit z) = [0] ∧
    paOk s 0 (zArea (ctxpOf s 1) 0) = false ∧ drainHeld s (7 * 2 ^ 120 + 1) = .ok ∧ paOk s 0 (ctxpOf s 1 + 0xC00) = false := by decide +kernel
theorem witness_MatrixCommands_glaze_and_queue : (let c := 16 * 2 ^ 120 + 2 * 2 ^ 8; let s := { eng0 c with mem := [(2, 1)] }
      EngRuns s .glz c ∧ ∃ p u, s.loadRuns s.me (cwPieces s (bitsAt c 8 32) 128 2) = (.ok p, u)) ∧
    (let m : MEnt := { desc := some 7, lo := 1, hi := 2 }
     let s := { mk j0 with cores := [(0, { job := { j0 with smask := 15 }, eng := { q := [m] } })] }; s.eng.q = m :: [] ∧ m.desc = some 7 ∧ engActs s = true ∧
      s.eng.done = false ∧ s.job.live = true ∧ s.job.has .m = true ∧ s.job.pend = none) ∧
    (let x : TrapInfo := { cls := 9, code := 1, strm := .c, pc := 0 }
     let s := { mk j0 with cores := [(0, { job := { j0 with smask := 15, pend := some x }, eng := { q := [{ desc := none, lo := 0, hi := 0 }], done := true } })] }
     s.job.live = true ∧ s.job.has .m = true ∧ s.job.pend = some x ∧ s.eng.done = true) :=
  ⟨⟨runs .glz (by decide +kernel), ⟨_, _, (load_ex (by decide +kernel)).choose_spec⟩⟩, by decide +kernel⟩
/-- Slot 0 of die 0 has one page, if v, whose metadata record 0 stands at 0x10000 with all of its tokens live. -/
def kv (v : Bool) (s : State) (st : Nat := 1) : State :=
  { die0 s { cr := [(0x305, 0x200010000), (0x306, 0x10000), (0x401, 128)], slots := [(0, { state := st, ptbase := 0x8000 })] } with
    mem := [(0x8000, 2), (0x800F, if v then 0x80 else 0), (0x10000 + 228, 255), (0x10000 + 242, 2)] ++ pt }
/-- Layout descriptor: slot 0, bf16, 32 elements a head, values one row of 64 bytes on. -/
def lay0 : W64 × W64 := (BitVec.ofNat 64 (2 ^ 32 + 31 * 2 ^ 15 + 7 * 2 ^ 11), BitVec.ofNat 64 (2 ^ 63))
def att (v : Bool) (c : Nat) : State := kv v (eng0 c [(1, lay0)])
/-- The state that the reads of a block's table and records leave (R103, R106, R302). -/
def blockAfter (s : State) (d b : Nat) : State :=
  let die := s.here.die
  let g := aPages d
  let ms := match blockEnts s die (aSlot d) (b * g + g) (b * g) g with | .ok (some es) => es.map entMdx | _ => []
  let n := tableLen s die (aSlot d) (b * g) g
  let vas := (s.slotAt die (aSlot d)).ptbase :: (upFrom (b * g) n).map (entVa s die (aSlot d))
  each (fun (r : Nat × Nat) s => (s.readMem die r.1 r.2).2) (Machine.tableRuns s die (aSlot d) (b * g) n ++ ms.map fun m => (mdPa s die m, 256))
    (each (fun va s => s.kvWalk die va) vas s)
theorem block_of {s : State} {pages : Bool} {d b : Nat} {x : AtBlk} (h : atBlock s pages d b = x ∧ (∀ w, x ≠ .dead w))
    (g : blockAfter s d b = s ∧ s.ecc = []) : BlockRead s pages d b x s := by
  obtain ⟨rfl, hx⟩ := h
  refine ⟨fun k => ?_, rfl, rfl, rfl, g.2⟩
  unfold State.withBlock
  split
  · rename_i w e; exact absurd e (hx w)
  · exact congrArg (k _) g.1
def atsc0 : Nat := 17 * 2 ^ 120 + 2 ^ 6
theorem witness_AttentionCommands_atsc : (att false atsc0).eng.prog = 0 ∧ (att false atsc0).ecc = [] ∧ EngRuns (att false atsc0) .atsc atsc0 ∧
    (let s := att false atsc0; BlockRead s true (descOf s (bitsAt atsc0 6 3)) (bitsAt atsc0 12 16) .empty s) ∧
    (let s := att true atsc0
     let d := descOf s (bitsAt atsc0 6 3)
     EngRuns s .atsc atsc0 ∧ (∃ mdx live kpos pas, BlockRead s true d (bitsAt atsc0 12 16) (.ok mdx live kpos pas) s ∧ live = 255 ∧ pas = [0x20000]) ∧
      ∃ qs ks u v, s.engReads (aEs d) (qAddrs (descOf s (bitsAt atsc0 3 3)) d 1) = (.ok qs, u) ∧ u.tokens d [0x20000] (64 * bitsAt d 24 8) 0 (aDim d) = (.ok ks, v)) := by
  refine ⟨by decide, by decide, runs .atsc (by decide +kernel), block_of ⟨by decide +kernel, nofun⟩ (by decide +kernel), runs .atsc (by decide +kernel),
    ⟨0, 255, _, [0x20000], block_of ⟨rfl, nofun⟩ (by decide +kernel), rfl, rfl⟩, ?_⟩
  obtain ⟨qs, h⟩ := load_ex (x := (att true atsc0).engReads (aEs (descOf (att true atsc0) (bitsAt atsc0 6 3)))
    (qAddrs (descOf (att true atsc0) (bitsAt atsc0 3 3)) (descOf (att true atsc0) (bitsAt atsc0 6 3)) 1)) (by decide +kernel)
  obtain ⟨ks, g⟩ := load_ex (x := ((att true atsc0).engReads (aEs (descOf (att true atsc0) (bitsAt atsc0 6 3)))
    (qAddrs (descOf (att true atsc0) (bitsAt atsc0 3 3)) (descOf (att true atsc0) (bitsAt atsc0 6 3)) 1)).2.tokens (descOf (att true atsc0) (bitsAt atsc0 6 3)) [0x20000]
    (64 * bitsAt (descOf (att true atsc0) (bitsAt atsc0 6 3)) 24 8) 0 (aDim (descOf (att true atsc0) (bitsAt atsc0 6 3)))) (by decide +kernel)
  exact ⟨qs, ks, _, _, h, g⟩
/-- ATSO of a mode: scores z0, state z1, outputs z2 and z7, all 64 rows. -/
def atso0 (mode : Nat) : Nat := 18 * 2 ^ 120 + mode * 2 ^ 20 + 63 * 2 ^ 14 + 132 * 2 ^ 6 + 8
theorem witness_AttentionCommands_atso : EngRuns (eng0 (atso0 0)) .atsoInit (atso0 0) ∧ EngRuns (eng0 (atso0 1)) .atsoUpdate (atso0 1) ∧
    EngRuns (eng0 (atso0 2)) .atsoFinal (atso0 2) ∧ EngRuns (eng0 (atso0 3)) .atsoMass (atso0 3) ∧
    (∀ m < 4, (∀ z ∈ atsoZom (atso0 m), z ≠ atsoZt (atso0 m) ∧ z ≠ atsoZs (atso0 m)) ∧ atsoZs (atso0 m) ≠ atsoZt (atso0 m)) :=
  ⟨runs .atsoInit (by decide +kernel), runs .atsoUpdate (by decide +kernel), runs .atsoFinal (by decide +kernel), runs .atsoMass (by decide +kernel), by decide +kernel⟩
theorem witness_AttentionCommands_av_mc : (let c := 19 * 2 ^ 120 + 2 ^ 6
      let s := att true c
      EngRuns s .atav c ∧ (∃ kpos, BlockRead s true (descOf s 1) 0 (.ok 0 255 kpos [0x20000]) s) ∧ ∃ vs u, s.tokens (descOf s 1) [0x20000] (64 * bitsAt (descOf s 1) 32 8) 0 (min 64 (aDim (descOf s 1))) = (.ok vs, u)) ∧
    (let c := 19 * 2 ^ 120 + 2 ^ 6; let s := att false c
     EngRuns s .atav c ∧ BlockRead s true (descOf s (bitsAt c 6 3)) (bitsAt c 12 16) .empty s) ∧
    (let c := 20 * 2 ^ 120 + 2 ^ 3; EngRuns (att true c) .atmc c ∧ EngRuns (att false c) .atmc c ∧
      BlockRead (att false c) false (descOf (att false c) (bitsAt c 3 3)) (bitsAt c 6 16) .empty (att false c) ∧
      ∃ kpos pas, BlockRead (att true c) false (descOf (att true c) (bitsAt c 3 3)) (bitsAt c 6 16) (.ok 0 255 kpos pas) (att true c)) :=
  ⟨⟨runs .atav (by decide +kernel), ⟨_, block_of ⟨rfl, nofun⟩ (by decide +kernel)⟩, _, _, (load_ex (by decide +kernel)).choose_spec⟩,
    ⟨runs .atav (by decide +kernel), block_of ⟨by decide +kernel, nofun⟩ (by decide +kernel)⟩, runs .atmc (by decide +kernel), runs .atmc (by decide +kernel),
    block_of ⟨by decide +kernel, nofun⟩ (by decide +kernel), _, _, block_of ⟨rfl, nofun⟩ (by decide +kernel)⟩
theorem witness_EngineTurns_chain : ChCmd .fill 4 ∧ (mk j0).chain (mk j0).chId = none ∧
    (let c := cmd (4 * 2 ^ 58 + 2 ^ 56) 0 0x4000 1 .wait; let s := chain0 c
     let t := chain0 c [(15, 1)]
     s.chain s.chId = some c ∧ c.op = 4 ∧ c.park = none ∧ c.ph = .wait ∧ countsReady (s.clusterAt 0).ev c.waits 16 = false ∧ countsReady (t.clusterAt 0).ev c.waits 16 = true) ∧
    (cmd (4 * 2 ^ 58) 0 0 0).op ≠ 5 := ⟨.fill, by decide +kernel⟩
/-- A chain whose command acts. -/
theorem acts {s : State} {i : Instr} {c : Chain} {op : Nat} (h : ChCmd i op) (g : s.chain s.chId = some c ∧ c.op = op ∧ c.park = none ∧ c.ph = .act) : ChActs s i c :=
  ⟨op, h, g.1, g.2.1, g.2.2.1, g.2.2.2⟩
/-- The same on a ring of eight dies, the addresses from 2^33 on mapped to die 1. -/
def ring8 (s : State) : State :=
  { s with mem := s.mem ++ [(0x102008, 0xE3), (0x10200D, 0x02)], dies := [(0, { cr := [(0x402, 1)] }), (1, { cr := [(0x402, 1)] })] }
theorem witness_ChainCommands_read_fails : (let c := cmd (1 * 2 ^ 58) (3 * 2 ^ 22) 0x80 1; let s := chain0 c
      ChActs s .copy c ∧ ChReads c .copy (3 * 2 ^ 22 : Nat) 1 ∧ c.got = false ∧ c.asked = false ∧ s.chReads s.chId = false ∧
      ∃ u, s.chAccess c { rd := true } (3 * 2 ^ 22 : Nat) 1 = (.bad 2 (3 * 2 ^ 22), u) ∧ u.clusters = s.clusters) ∧
    (let c := cmd (1 * 2 ^ 58) (2 ^ 33) 0x80 1; let s := chain0 c
      ChActs s .copy c ∧ ChReads c .copy (2 ^ 33 : Nat) 1 ∧ s.chReads s.chId = false ∧
      ∃ u, s.chAccess c { rd := true } (2 ^ 33 : Nat) 1 = (.park false (2 ^ 33), u) ∧ u.clusters = s.clusters) :=
  ⟨⟨acts .copy (by decide +kernel), .copy (by decide +kernel), rfl, rfl, by decide +kernel, _, acc_eq (by decide +kernel), by decide +kernel⟩,
    acts .copy (by decide +kernel), .copy (by decide +kernel), by decide +kernel, _, acc_eq (by decide +kernel), by decide +kernel⟩
theorem witness_ChainCommands_far : (∀ l ∈ [[], [({ kind := 0, dst := 1, src := 0, pa := 2 ^ 41, data := [7], who := .chain 0 0 0 } : FSlot)]],
    let c := cmd (1 * 2 ^ 58) (2 ^ 33) 0x80 1; let s := { ring8 (chain0 c) with slots := l }
      ChActs s .copy c ∧ s.chReads s.chId = false ∧ ∃ u, s.chAccess c { rd := true } (2 ^ 33 : Nat) 1 = (.ok [(2 ^ 41, 1)], u) ∧ u.clusters = s.clusters ∧
        (0, 2 ^ 41, 1) ∈ accPieces [(2 ^ 41, 1)] 0 ∧ remoteTo (c.core / 384) (2 ^ 41) = true ∧
        u.chAny s.chId (fun f => !f.reads && runsMeet [(2 ^ 41, 1)] [(f.pa, f.len)]) = false) ∧
    (let c := cmd (4 * 2 ^ 58 + 3 * 2 ^ 5) 0 (2 ^ 33 + 56) 8; let s := ring8 (chain0 c)
      ChActs s .fill c ∧ ChWrites c .fill (2 ^ 33 + 56 : Nat) (bytesOf (2 ^ c.esz) (c.dw 4).toNat) ∧ (bytesOf (2 ^ c.esz) (c.dw 4).toNat).length = 8 ∧
      ∃ u, s.chAccess c { w := true } (2 ^ 33 + 56 : Nat) 8 = (.ok [(2 ^ 41 + 56, 8)], u) ∧ u.clusters = s.clusters ∧ (2 ^ 41 + 56) % 64 + 8 ≤ 64 ∧
        remoteTo (c.core / 384) (2 ^ 41 + 56) = true ∧ u.chAny s.chId (fun f => !f.reads && f.pa / 64 == (2 ^ 41 + 56) / 64) = false ∧
        ({ u with slots := [{ kind := 0, dst := 1, src := 0, pa := 2 ^ 41, who := .chain 0 0 0 }] } : State).chAny s.chId
          (fun f => !f.reads && f.pa / 64 == (2 ^ 41 + 56) / 64) = true) := by
  refine ⟨fun l h => ?_, acts .fill (by decide +kernel), .fill (by decide +kernel), by decide +kernel, _, acc_eq (by decide +kernel), by decide +kernel⟩
  simp only [List.mem_cons, List.not_mem_nil, or_false] at h
  rcases h with rfl | rfl <;> exact ⟨acts .copy (by decide +kernel), by decide +kernel, _, acc_eq (by decide +kernel), by decide +kernel⟩
theorem witness_ChainCommands_write_fails : (let c := cmd (4 * 2 ^ 58) 0 (3 * 2 ^ 22) 1; let s := chain0 c
      ChActs s .fill c ∧ ChWrites c .fill (3 * 2 ^ 22 : Nat) (bytesOf (2 ^ c.esz) (c.dw 4).toNat) ∧
      ∃ u, s.chAccess c { w := true } (3 * 2 ^ 22 : Nat) (bytesOf (2 ^ c.esz) (c.dw 4).toNat).length = (.bad 2 (3 * 2 ^ 22), u) ∧ u.clusters = s.clusters) ∧
    (let c := { cmd (3 * 2 ^ 58) 0 (3 * 2 ^ 22) 1 with got := true, buf := [7] }; let s := chain0 c
      ChActs s .mcast c ∧ ChWrites c .mcast (3 * 2 ^ 22 : Nat) [7] ∧ c.mask = 0 ∧
      ∃ u, s.chAccess c { w := true } (3 * 2 ^ 22 : Nat) 1 = (.bad 2 (3 * 2 ^ 22), u) ∧ u.clusters = s.clusters) :=
  ⟨⟨acts .fill (by decide +kernel), .fill (by decide +kernel), _, acc_eq (by decide +kernel), by decide +kernel⟩,
    acts .mcast (by decide +kernel), .mcast (by decide +kernel) rfl (by decide +kernel), rfl, _, acc_eq (by decide +kernel), by decide +kernel⟩
theorem witness_ChainCommands_read : let c := cmd (1 * 2 ^ 58) 0x40 0x80 1; let s := chain0 c
    ChActs s .copy c ∧ (∃ u, ∃ v, ChReads c .copy 0x40 1 ∧ c.got = false ∧ c.asked = false ∧ s.chReads s.chId = false ∧ ChNear s c { rd := true } 0x40 1 [(0x40, 1)] u ∧
      u.chAny s.chId (fun f => !f.reads && runsMeet [(0x40, 1)] [(f.pa, f.len)]) = false ∧
      u.chNear c [(0x40, 1)] (List.replicate 1 0) = (.ok [0], v) ∧ v.clusters = s.clusters ∧ v.here = s.here) ∧
    (let d := cmd (3 * 2 ^ 58) 0x40 0x80 1; d.prog % 8 = 0 ∧ (chain0 d).chBusy (chain0 d).chId = false) :=
  ⟨acts .copy (by decide +kernel), ⟨_, _, .copy (by decide +kernel), rfl, rfl, by decide +kernel, ⟨acc_eq (by decide +kernel), by decide +kernel, by decide +kernel, by decide +kernel⟩,
    by decide +kernel, load_eq (by decide +kernel), by decide +kernel, by decide +kernel⟩, by decide +kernel⟩
theorem witness_ChainCommands_write : (let c := cmd (4 * 2 ^ 58 + 3 * 2 ^ 5) 0 0x4000 8; let s := chain0 c
      ChActs s .fill c ∧ ∃ u, ChWrites c .fill 0x4000 (bytesOf (2 ^ c.esz) (c.dw 4).toNat) ∧ bytesOf (2 ^ c.esz) (c.dw 4).toNat ≠ [] ∧
        ChNear s c { w := true } 0x4000 (bytesOf (2 ^ c.esz) (c.dw 4).toNat).length [(0x4000, (bytesOf (2 ^ c.esz) (c.dw 4).toNat).length)] u) ∧
    (let c := { cmd (3 * 2 ^ 58) 0 0x4000 (1 + 2 ^ 40) with prog := 1, got := true, buf := [7] }; ChActs (chain0 c) .mcast c ∧ ∃ va, ChWrites c .mcast va [7]) :=
  ⟨⟨acts .fill (by decide +kernel), _, .fill (by decide +kernel), by decide +kernel, acc_eq (by decide +kernel), by decide +kernel, by decide +kernel, by decide +kernel⟩,
    acts .mcast (by decide +kernel), _, .mcast (by decide +kernel) rfl (by decide +kernel)⟩
theorem witness_ChainCommands_end : (let c := cmd (1 * 2 ^ 58) 0 0 0; ChActs (chain0 c) .copy c ∧ ChEnds c .copy 0 0) ∧
    (let c := { cmd (17 * 2 ^ 58) 0 0 0 with got := true, buf := List.replicate 8 0 }; ChActs (chain0 c) .cond c ∧ ChEnds c .cond 0 0) ∧
    (let c := { cmd (19 * 2 ^ 58) 0 1 0 with got := true, buf := List.replicate 8 0 }
     ChActs (chain0 c) .waitev c ∧ bitOf (c.dw 3) 3 = false ∧ c.got = true ∧ ccHolds (fieldOf (c.dw 3) 0 3) (dwAt c.buf 0) (c.dw 2) = false) :=
  ⟨⟨acts .copy (by decide +kernel), .copy (by decide +kernel)⟩, ⟨acts .cond (by decide +kernel), .cond rfl⟩, acts .waitev (by decide +kernel), by decide +kernel⟩
theorem witness_ChainCommands_loop : (let c := { cmd (16 * 2 ^ 58) (1 + 2 ^ 16) 0 0 with pc := 0x8080 }
      ChActs (chain0 c) .loop c ∧ c.lv = [] ∧ c.head + 128 * fieldOf (c.dw 1) 16 8 ≤ c.pc ∧ 0 < fieldOf (c.dw 1) 0 16) ∧
    (let l : LoopLvl := { pc := 0x8080, n := 1, so := 0, dof := 0 }; let c := { cmd (16 * 2 ^ 58) (1 + 2 ^ 16) 0 0 with pc := 0x8080, lv := [l] }
      ChActs (chain0 c) .loop c ∧ c.lv = [] ++ l :: [] ∧ l.pc = c.pc ∧ fieldOf (c.dw 1) 0 16 ≤ l.n) ∧
    (let c := cmd (16 * 2 ^ 58) (1 + 2 ^ 16) 0 0; ChActs (chain0 c) .loop c ∧ c.pc < c.head + 128 * fieldOf (c.dw 1) 16 8) :=
  ⟨⟨acts .loop (by decide +kernel), by decide +kernel⟩, ⟨acts .loop (by decide +kernel), by decide +kernel⟩, acts .loop (by decide +kernel), by decide +kernel⟩
def head0 : ChainHead := { pc := 0x8000, core := 0, root := 128, sup := false }
theorem witness_ChainCommands_start : let s := { mk j0 with clusters := [(0, { eng := [(0, { heads := [head0] })] })] }
    let c0 : Chain := { head := 0x8000, pc := 0x8000, core := 0, root := 128, sup := false }
    let s1 := s.onXeng 0 0 fun x => { x with heads := [], chains := spSet x.chains 0 c0 }
    ∃ u v, s.chain s.chId = none ∧ ((s.clusterAt 0).xeng 0).heads = head0 :: [] ∧ s1.chBusy s.chId = false ∧
      ChNear s1 c0 { rd := true } 0x8000 128 [(0x8000, 128)] u ∧ u.chBusy s.chId = false ∧ u.chNear c0 [(0x8000, 128)] (List.replicate 128 0) = (.ok (List.replicate 128 0), v) ∧ v.clusters = s1.clusters :=
  ⟨_, _, by decide +kernel, by decide +kernel, by decide +kernel, ⟨acc_eq (by decide +kernel), by decide +kernel, by decide +kernel, by decide +kernel⟩,
    by decide +kernel, load_eq (by decide +kernel), by decide +kernel⟩
theorem witness_ChainCommands_retire : let c := cmd (2 ^ 57 + 2 ^ 25) 0 0 0 .retire; let s := chain0 c
    s.chain s.chId = some c ∧ c.ph = .retire ∧ c.park = none ∧ s.chBusy s.chId = false ∧ c.code = 0 ∧ c.last = true ∧ c.op ≠ 0x10 ∧ c.sent = false ∧
    ∃ u, ChNear s c { w := true } ((c.pc : Int) + 120) 8 [(0x8078, 8)] u ∧ u.chBusy s.chId = false :=
  ⟨by decide +kernel, rfl, rfl, by decide +kernel, rfl, by decide +kernel, by decide +kernel, rfl, _, ⟨acc_eq (by decide +kernel), by decide +kernel, by decide +kernel, by decide +kernel⟩,
    by decide +kernel⟩
theorem witness_ChainCommands_retire_codes : ∀ k ∈ [0, 3, 7], let c := { cmd (2 ^ 57 + 2 ^ 25) 0 0 0 .retire with code := k, sent := true }; let s := chain0 c
    s.chain s.chId = some c ∧ c.ph = .retire ∧ c.park = none ∧ s.chBusy s.chId = false ∧ c.sent = true ∧ c.last = true ∧ c.op ≠ 0x10 ∧ c.code = k := by
  decide +kernel
theorem witness_KvCommands : let c := cmd (6 * 2 ^ 58) 0 1 0; let s := kv true (chain0 c)
    ChActs s .kvshare c ∧ SlotsFree s c [kvSlot (c.dw 1), kvSlot (c.dw 2)] ∧ s.ecc = [] ∧ EntAt s 0 (kvIdx (c.dw 1)) false 0x8008 (2 ^ 63) ∧ EntAt s 0 (kvIdx (c.dw 2)) true 0x8010 0 ∧
    mdPa s 0 (entMdx (2 ^ 63)) = 0x10000 ∧ entV (2 ^ 63) = true ∧ entV 0 = false ∧ s.refc 0 0 < 65535 :=
  ⟨acts .kvshare (by decide +kernel), .inr (by decide +kernel), by decide +kernel, ⟨0x8000, by decide, exc_eq (by decide +kernel), by decide, by decide +kernel, exc_eq (by decide +kernel), by decide, by decide +kernel⟩,
    ⟨0x8000, by decide, exc_eq (by decide +kernel), by decide, by decide +kernel, exc_eq (by decide +kernel), by decide, by decide +kernel⟩, by decide +kernel⟩
theorem witness_KvCommands_share_again : ∀ m ∈ [[(0x8017, 0x80)], [((0x10000 + 236, 0xFF) : Host.Cell), (0x10000 + 237, 0xFF)]],
    let c := cmd (6 * 2 ^ 58) 0 1 0; let s := { kv true (chain0 c) with mem := m ++ (kv true (chain0 c)).mem }
    ChActs s .kvshare c ∧ SlotsFree s c [kvSlot (c.dw 1), kvSlot (c.dw 2)] ∧ EntAt s 0 (kvIdx (c.dw 1)) false 0x8008 (2 ^ 63) ∧
      (∃ old, EntAt s 0 (kvIdx (c.dw 2)) true 0x8010 old ∧ (entV old = true ∧ s.refc 0 0 < 65535 ∨ s.refc 0 0 = 65535)) ∧ (0x8010 + 8 ≤ 0x10000) := by
  intro m h
  simp only [List.mem_cons, List.not_mem_nil, or_false] at h
  rcases h with rfl | rfl <;>
    exact ⟨acts .kvshare (by decide +kernel), .inr (by decide +kernel),
      ⟨0x8000, by decide, exc_eq (by decide +kernel), by decide, by decide +kernel, exc_eq (by decide +kernel), by decide, by decide +kernel⟩,
      ⟨_, ⟨0x8000, by decide, exc_eq (by decide +kernel), by decide, by decide +kernel, exc_eq (by decide +kernel), by decide, rfl, by decide, by decide⟩, by decide +kernel⟩, by decide⟩
theorem witness_KvCommands_held_and_mark : (let c := cmd (6 * 2 ^ 58) 0 1 0
      let s := { chain0 c with dies := [(0, { scr := [{ lo := 0, hi := 0, cl := 0 }], scrProg := true })] }
      ChActs s .kvshare c ∧ c.slots = [] ∧ slotsHeld s s.chId [kvSlot (c.dw 1), kvSlot (c.dw 2)] = true) ∧
    (let c := cmd (9 * 2 ^ 58) 0 40 (8 + 24 * 2 ^ 8); let s := kv true (chain0 c)
      ChActs s .kvmark c ∧ SlotsFree s c [kvSlot (c.dw 1)] ∧ s.mig 0 0 < 2 ∧ (c.dw 2).toNat < 2 ^ 32 ∧ fieldOf (c.dw 3) 0 5 + fieldOf (c.dw 3) 8 6 = 32 ∧
        s.mdRead 0 0 228 4 ≠ 0 ∧ (40 + (24 - 1) + 2 ^ 32 - s.mdRead 0 0 224 4) % 2 ^ 32 < 2 ^ 24) :=
  ⟨⟨acts .kvshare (by decide +kernel), rfl, by decide +kernel⟩, acts .kvmark (by decide +kernel), .inr (by decide +kernel), by decide +kernel⟩
theorem witness_KvCommands_move : let c := cmd (5 * 2 ^ 58) 0 1 0; let s := kv true (chain0 c)
    ChActs s .kvmove c ∧ c.kv = none ∧ EntAt s 0 (kvIdx (c.dw 1)) (bitOf (c.dw 3) 0 && c.dw 1 != c.dw 2) 0x8008 (2 ^ 63) ∧ EntAt s 0 (kvIdx (c.dw 2)) true 0x8010 0 ∧
    s.ecc = [] ∧ SlotsFree s c [kvSlot (c.dw 1), kvSlot (c.dw 2)] ∧ s.mig 0 (entMdx (2 ^ 63)) < 2 ∧ (chooseFrame s 0 (s.slotAt 0 0).cursor).isSome = true ∧
    (freeMd s 0).isSome = true ∧
    (let r : KvRun := { src := 0, md := 1, frame := 0x30000, pa0 := 0x20000, old := 0 }
     ∀ p ∈ [15, 16], let d := { c with kv := some r, prog := p }; ChActs (chain0 d) .kvmove d ∧ d.kv = some r) ∧
    ∃ bs u, (chain0 c).readMem 0 (0x20000 + 512 * 15) 512 = (.ok bs, u) := by
  refine ⟨acts .kvmove (by decide +kernel), rfl, ⟨0x8000, by decide, exc_eq (by decide +kernel), by decide, by decide +kernel, exc_eq (by decide +kernel), by decide, by decide +kernel⟩,
    ⟨0x8000, by decide, exc_eq (by decide +kernel), by decide, by decide +kernel, exc_eq (by decide +kernel), by decide, by decide +kernel⟩, rfl, .inr (by decide +kernel), by decide +kernel, by decide +kernel, by decide +kernel, ?_,
    ⟨_, _, (load_ex (by decide +kernel)).choose_spec⟩⟩
  intro r p hp
  simp only [List.mem_cons, List.not_mem_nil, or_false] at hp
  rcases hp with rfl | rfl <;> exact ⟨acts .kvmove (by decide +kernel), rfl⟩
/-- A KV command that moves page 0x30000 with record 384, one reference, at a step. -/
def run0 (old : Nat) : KvRun := { src := 0, md := 384, frame := 0x30000, pa0 := 0x20000, old := old }
def kvRun (c : Chain) (n : Nat) (old : Nat := 0) : State :=
  let s := kv true (chain0 { c with kv := some (run0 old), prog := n })
  { s with mem := s.mem ++ [(0x10100 + 236, 1)] }
theorem witness_KvCommands_ends : (∀ old ∈ [0, 2 ^ 63], let s := kvRun (cmd (5 * 2 ^ 58) 0 1 0) 16 old
      s.ecc = [] ∧ mdPa s 0 0 + 256 ≤ mdPa s 0 384 ∧ mdPa s 0 384 + 256 ≤ 2 ^ 52 ∧ s.refc 0 384 ≠ 0 ∧ (entV (BitVec.ofNat 64 old) = true ↔ old ≠ 0)) ∧
    ChActs (kvRun (cmd (5 * 2 ^ 58) 0 1 0) 16) .kvmove { cmd (5 * 2 ^ 58) 0 1 0 with kv := some (run0 0), prog := 16 } ∧
    (let c := cmd (5 * 2 ^ 58) 0 1 1; let s := kvRun c 17; bitOf (c.dw 3) 0 = true ∧ kvIdx (c.dw 1) ≠ kvIdx (c.dw 2) ∧ EntAt s 0 (kvIdx (c.dw 1)) true 0x8008 (2 ^ 63)) ∧
    (∀ op ∈ [7, 8], let s := kvRun (cmd (op * 2 ^ 58) 0 0 0) 16; stmapPa s 0 0 + 4 ≤ mdPa s 0 384 ∧ mdPa s 0 384 + 256 ≤ 2 ^ 52 ∧ s.refc 0 384 ≠ 0 ∧
      (cmd (op * 2 ^ 58) 0 0 0).ents = []) ∧
    (let c := cmd (7 * 2 ^ 58) 0 0 1; let s := kvRun c 17; c.ents = [0] ∧ kvMoving s 0 0 = false ∧ kvTranslate s 0 { rd := true, w := true } 0 = .ok 0 ∧ s.ecc = [] ∧
      kvMoving (s.onDie 0 fun d => { d with motion := [0] }) 0 0 = true) :=
  ⟨by decide +kernel, acts .kvmove (by decide +kernel), ⟨by decide, by decide, 0x8000, by decide, exc_eq (by decide +kernel), by decide, by decide +kernel, exc_eq (by decide +kernel), by decide,
    by decide +kernel⟩, by decide +kernel, by decide +kernel, by decide +kernel, exc_eq (by decide +kernel), by decide +kernel⟩
/-- A scraper command on slot 0 of die 0, parked or in another state, started or not. -/
def scr0 (op lo : Nat) (hi : Nat := 0) (prog : Bool := true) (st : Nat := 2) (more : List Host.Cell := []) (at_ : Nat := 0) : State :=
  let s := kv true (mk j0) st
  { s with dies := s.dies.map fun p => (p.1, { p.2 with scr := [{ lo := BitVec.ofNat 64 (0xFFFFFFFF + lo), hi := BitVec.ofNat 64 (op * 2 ^ 60 + hi), cl := 0 }], scrProg := prog, scrAt := at_ }),
           mem := more ++ s.mem }
theorem witness_ScraperCommands_start : (ScrOp .evdecay 3) ∧ ∀ st ∈ [0, 1, 2, 3], let s := scr0 3 (2 ^ 32) 0 false st
    ∃ c, (s.dieAt 0).scr = [c] ∧ (s.dieAt 0).scrProg = false ∧ c.bad s 0 = false ∧ c.op = 3 ∧ (s.slotAt 0 c.slot).state = st ∧
      slotsHeld s { cl := 0, e := 2, ch := 0 } [c.slot] = false := by
  refine ⟨.evdecay, fun st h => ?_⟩
  simp only [List.mem_cons, List.not_mem_nil, or_false] at h
  rcases h with rfl | rfl | rfl | rfl <;> exact ⟨_, rfl, by decide +kernel⟩
/-- Where the header and the n entries of the page table of a scraper command's slot stand (R328), and the doublewords there. -/
def tablePas (s : State) (die n : Nat) (c : ScrCmd) : List (Except Nat Nat) := (scrVas s die c.slot n).map (kvTranslate s die { rd := true, w := c.op == 2 })
def tableRuns (s : State) (die n : Nat) (c : ScrCmd) : List (Nat × Nat) :=
  (tablePas s die n c).filterMap fun p => match p with | .ok pa => some (pa, 8) | .error _ => none
/-- The scraper's reads of a table of n entries, one page to a block, none of which fails, leave the state as it is. -/
theorem view_of {s : State} {die n : Nat} {c : ScrCmd} {es : List W64} (h : (s.npages die c.slot).toOption = some n)
    (g : min n 65535 % c.g = 0 ∧ ((tablePas s die (min n 65535) c).any fun p => match p with | .error _ => true | .ok _ => false) = false ∧
      (each (fun va s => s.kvWalk die va) (scrVas s die c.slot (min n 65535)) s).scrWords die (tableRuns s die (min n 65535) c) = (none, s) ∧
      (((tablePas s die (min n 65535) c).drop 1).map fun p => match p with | .ok pa => s.peek64 pa | .error _ => 0) = es ∧
      s.scrWords die ((es.filter entV).map fun e => (mdPa s die (entMdx e), 256)) = (none, s) ∧ scrWaits s die c.slot (min n 65535) = false ∧
      ((tableRuns s die (min n 65535) c).head?.bind fun r => s.badIn r.1 r.2) = none)
    (k : ScrView → State → State) : s.scrView die c k = k { ents := es, nb := min n 65535 / c.g, g := c.g } s := by
  obtain ⟨h1, h2, h3, h4, h5, h6, h7⟩ := g
  unfold State.scrView
  rw [exc_eq h]
  dsimp only
  split
  · rename_i x; exact absurd (h7.symm.trans x) (by simp)
  refine (if_neg (by simp [h1])).trans ?_
  refine (if_neg fun x => absurd (h2.symm.trans x) (by decide)).trans ?_
  refine (if_neg fun x => absurd (h6.symm.trans x) (by decide)).trans ?_
  split
  · rename_i x; exact absurd (congrArg Prod.fst (h3.symm.trans x)) (by simp)
  · rename_i x
    obtain rfl := congrArg Prod.snd (h3.symm.trans x)
    subst h4
    split
    · rename_i y; exact absurd (congrArg Prod.fst (h5.symm.trans y)) (by simp)
    · rename_i y
      obtain rfl := congrArg Prod.snd (h5.symm.trans y)
      rfl
theorem sees {s : State} {c : ScrCmd} {op n : Nat} {es : List W64}
    (g : ((s.dieAt s.here.die).scr = [c] ∧ (s.dieAt s.here.die).scrProg = true ∧ c.op = op) ∧ (s.npages s.here.die c.slot).toOption = some n)
    (h : ∀ k, s.scrView s.here.die c k = k { ents := es, nb := min n 65535 / c.g, g := c.g } s) :
    Scrapes s op c [] { ents := es, nb := min n 65535 / c.g, g := c.g } s :=
  ⟨g.1, g.1.1, h⟩
def scan0 : State := scr0 1 0 1
def scanC : ScrCmd := { lo := 0xFFFFFFFF, hi := 2 ^ 60 + 1, cl := 0 }
theorem witness_ScraperCommands_scan : (∃ v, Scrapes scan0 1 scanC [] v scan0 ∧ v.ents = [0x8000000000000000, 0] ∧ v.nb = 2) ∧
    (let s := scr0 1 0 1 true 2 [(0x10000 + 228, 4)]; ∃ v, Scrapes s 1 scanC [] v s ∧ scanSel s 0 scanC v = [(0, 2)] ∧ mdPa s 0 (v.md 0) + 256 ≤ 2 ^ 52) ∧
    (let s := scr0 1 0 1 true 2 [(0x10000 + 228, 0)]; ∃ v, Scrapes s 1 scanC [] v s ∧ scanSel s 0 scanC v = []) := by
  refine ⟨⟨_, sees (n := 2) (es := [0x8000000000000000, 0]) ⟨by decide +kernel, by decide +kernel⟩ (view_of (by decide +kernel) (by decide +kernel)), by decide +kernel, by decide +kernel⟩,
    ⟨_, sees (n := 2) (es := [0x8000000000000000, 0]) ⟨by decide +kernel, by decide +kernel⟩ (view_of (by decide +kernel) (by decide +kernel)), by decide +kernel, by decide +kernel⟩,
    ⟨_, sees (n := 2) (es := [0x8000000000000000, 0]) ⟨by decide +kernel, by decide +kernel⟩ (view_of (by decide +kernel) (by decide +kernel)), by decide +kernel⟩⟩
def compC : ScrCmd := { lo := 0xFFFFFFFF, hi := 2 * 2 ^ 60, cl := 0 }
/-- Does what EVCOMPACT packs move a token, and is one of the pages that it moves between not translated? -/
def moves (s : State) (v : ScrView) : Option (Bool × Bool) :=
  (packTokens v s 0 (v.tokens s 0 (v.start s 0)) (v.start s 0) 32 0).map fun r =>
    let l := r.1.filter fun p => !(p.b == p.dst && p.j == p.pl)
    (!l.isEmpty, l.any fun p => (pagesOf s 0 { rd := true } v p.b).isNone || (pagesOf s 0 { w := true } v p.dst).isNone)
theorem witness_ScraperCommands_compact :
    (let s := scr0 2 0 0 true 2 [(0x10000 + 228, 3), (0x10000 + 128, 5), (0x10000 + 131, 3)]
     ∃ v, Scrapes s 2 compC [] v s ∧ packTokens v s 0 (v.tokens s 0 (v.start s 0)) (v.start s 0) 32 0 = none) ∧
    (let s := scr0 2 0 0 true 2 [(0x8000, 1), (0x10000 + 236, 2)]
     ∃ v, Scrapes s 2 compC [] v s ∧ v.tokens s 0 (v.start s 0) = [] ∧ v.start s 0 = v.nb ∧ kvTranslate s 0 { w := true } (s.slotAt 0 compC.slot).ptbase = .ok 0x8000) ∧
    (let s := scr0 2 0 0 true 2 [(0x10000 + 228, 2)]; ∃ v, Scrapes s 2 compC [] v s ∧ moves s v = some (true, false) ∧ (∃ w, s.scrWords 0 [(256, 256)] = (none, w)) ∧ s.inMotion 256 = false) ∧
    (let s := (scr0 2 0 0 true 2 [(0x10000 + 228, 2)]).onDie 0 fun d => { d with motion := [0] }
     ∃ v, Scrapes s 2 compC [] v s ∧ moves s v = some (true, false) ∧ s.inMotion 256 = true) ∧
    (let s := scr0 2 0 0 true 2 [(0x10000 + 228, 2), (0x800A, 0x10)]; ∃ v, Scrapes s 2 compC [] v s ∧ moves s v = some (true, true)) :=
  ⟨⟨_, sees (n := 2) (es := [0x8000000000000000, 0]) ⟨by decide +kernel, by decide +kernel⟩ (view_of (by decide +kernel) (by decide +kernel)), by decide +kernel⟩,
    ⟨_, sees (n := 1) (es := [0x8000000000000000]) ⟨by decide +kernel, by decide +kernel⟩ (view_of (by decide +kernel) (by decide +kernel)), by decide +kernel, by decide +kernel, exc_eq (by decide +kernel)⟩,
    ⟨_, sees (n := 2) (es := [0x8000000000000000, 0]) ⟨by decide +kernel, by decide +kernel⟩ (view_of (by decide +kernel) (by decide +kernel)), by decide +kernel, ⟨_, acc_eq (by decide +kernel)⟩, by decide +kernel⟩,
    ⟨_, sees (n := 2) (es := [0x8000000000000000, 0]) ⟨by decide +kernel, by decide +kernel⟩ (view_of (by decide +kernel) (by decide +kernel)), by decide +kernel, by decide +kernel⟩,
    ⟨_, sees (n := 2) (es := [0x8000000000100000, 0]) ⟨by decide +kernel, by decide +kernel⟩ (view_of (by decide +kernel) (by decide +kernel)), by decide +kernel⟩⟩
def decC : ScrCmd := { lo := 0xFFFFFFFF + 2 ^ 32, hi := 3 * 2 ^ 60, cl := 0 }
theorem witness_ScraperCommands_decay : (let s := scr0 3 (2 ^ 32) 0 true 2; (∃ v, Scrapes s 3 decC [] v s) ∧ (s.dieAt 0).scrSaw = none) ∧
    ∀ p ∈ [(0, true, false), (31, true, false), (32, true, true), (64, false, true)],
      let s0 := scr0 3 (2 ^ 32) 0 true 2 [] p.1
      let es : List W64 := [0x8000000000000000, 0]
      let s := { s0 with dies := s0.dies.map fun q => (q.1, { q.2 with scrSaw := some (es, 32) }) }
      let v : ScrView := { ents := es, nb := es.length / decC.g, g := decC.g }
      AtScr s 3 decC [] ∧ (s.dieAt 0).scrSaw = some (es, 32) ∧ decide ((s.dieAt 0).scrAt / 32 < v.nb) = p.2.1 ∧
        decaySkips s 0 decC v ((s.dieAt 0).scrAt / 32) = p.2.2 ∧ s.mig 0 (v.md ((s.dieAt 0).scrAt / 32)) < 2 ∧ s.ecc = [] := by
  refine ⟨⟨⟨_, sees (n := 2) (es := [0x8000000000000000, 0]) ⟨by decide +kernel, by decide +kernel⟩ (view_of (by decide +kernel) (by decide +kernel))⟩, by decide⟩, fun p hp => ?_⟩
  simp only [List.mem_cons, List.not_mem_nil, or_false] at hp
  rcases hp with rfl | rfl | rfl | rfl <;> exact ⟨by unfold AtScr; decide +kernel, by decide +kernel⟩
theorem witness_ScraperCommands_end : let c : ScrCmd := { scanC with lo := 0x40 }
    let s := { die0 (mk j0) { scr := [c] } with clusters := [(0, { cr := [(0x201, 2 ^ 32)] })] }
    (s.dieAt s.here.die).scr = c :: [] ∧ c.resa ≠ 0xFFFFFFFF ∧ c.usable s 0 = true ∧ clWin 0 c.resa + 64 ≤ 2 ^ 52 ∧ scanC.resa = 0xFFFFFFFF := by decide +kernel
/-- A slot in flight, and dies 0 and 1, perhaps of another tenant or bypassed. -/
def sl0 (f : FSlot) (d1 : Die := {}) (full : Bool := false) : State := { mk j0 with slots := [f], dies := [(1, d1)], here := { full := full } }
theorem arr {s : State} {i : Instr} {f : FSlot} {k : Nat} (h : ArriveStep i k)
    (g : s.slots[s.here.k]? = some f ∧ f.kind = k ∧ f.back = false ∧ (f.placed = true ∨ slotWaits s f = false ∧ undeliverable s f.src f.dst = none ∧
      (f.dst = f.src ∨ placesHeld s f.dst (f.dir s) < 256 ∧ s.here.full = false))) : Arrives s i f :=
  ⟨⟨k, h, g.1, g.2.1, g.2.2.1⟩, g.2.2.2⟩
/-- The same slot on a ring whose link from die 0 to die 1 is down. -/
def cut0 (f : FSlot) : State := { ring8 (sl0 f) with dies := [(0, { cr := [(0x402, 1)], links := [(1, 1), (2, 1)] }), (1, { cr := [(0x402, 1)] })] }
theorem witness_FabricSlots_refused : (let f : FSlot := { kind := 0, dst := 1, src := 0 }; let s := sl0 f { cr := [(0x403, 7)] }; let t := sl0 f { bypassed := true };
      let u := sl0 f {} true; let v := { sl0 f with slots := f :: List.replicate 256 { f with placed := true } };
      (ArriveStep .postedWrite 0 ∧ s.slots[s.here.k]? = some f ∧ f.kind = 0 ∧ f.back = false) ∧ f.placed = false ∧ slotWaits (cut0 f) f = true ∧
      slotWaits s f = false ∧ undeliverable s 0 1 = some 0 ∧ slotWaits t f = false ∧ undeliverable t 0 1 = some 1 ∧ slotWaits u f = false ∧
      undeliverable u 0 1 = none ∧ u.here.full = true ∧ f.dst ≠ f.src ∧ placesHeld u 1 (f.dir u) < 256 ∧ 256 ≤ placesHeld v 1 (f.dir v)) :=
  ⟨⟨.postedWrite, by decide +kernel⟩, by decide +kernel⟩
theorem witness_FabricSlots_served : (let f : FSlot := { kind := 0, dst := 0, src := 0, who := .store 3 0, data := [1, 2] }; Arrives (sl0 f) .postedWrite f ∧ f.data ≠ []) ∧
    (let f : FSlot := { kind := 1, dst := 0, src := 0, pa := 0x100000, len := 8 };
      Arrives (sl0 f) .readRequest f ∧ ∃ bs u, (sl0 f).serveLoad 0 0x100000 8 (slotSup (sl0 f) f) = (.ok bs, u)) ∧
    (let f : FSlot := { kind := 4, dst := 0, src := 0, pa := 0x100000, len := 4, opx := 12, data := List.replicate 16 1 };
      Arrives (sl0 f) .remoteAtomic f ∧ (sl0 f).window f.pa = none ∧ (sl0 f).ecc = [] ∧ f.opx / 2 < 7 ∧
      (let w : CombWin := { die := 0, place := 0, pa := 0x100000, lines := 1, firm := true };
       ({ sl0 f with ways := [(0, { wins := [w] })] } : State).window f.pa = some (0, w) ∧ w.firm = true ∧ w.ending = false)) ∧
    (let f : FSlot := { kind := 0, dst := 1, src := 0, placed := true }; Arrives (sl0 f) .postedWrite f) :=
  ⟨⟨arr .postedWrite (by decide +kernel), by decide⟩, ⟨arr .readRequest (by decide +kernel), _, _, (load_ex (by decide +kernel)).choose_spec⟩,
    ⟨arr .remoteAtomic (by decide +kernel), by decide +kernel⟩, arr .postedWrite (by decide +kernel)⟩
theorem witness_FabricSlots_answers : (let f : FSlot := { kind := 2, dst := 1, src := 0, who := .chain 0 0 0, data := [7] };
      let s := { chain0 (cmd (2 ^ 58) 0 0 0) with slots := [f] }; Returns s 2 f ∧ (s.chain { cl := 0, e := 0, ch := 0 }).isSome = true) ∧
    (let f : FSlot := { kind := 2, dst := 1, src := 0, who := .load 5, data := [7] };
      let g : FSlot := { kind := 1, dst := 1, src := 0, who := .load 5 };
      let s := { sl0 f with slots := [f, g] }; Returns s 2 f ∧ (s.coreAt 0).job.id = f.job ∧ ({ s with slots := dropNth s.slots s.here.k } : State).accSlots 0 5 = true) ∧
    (let f : FSlot := { kind := 2, dst := 1, src := 0, who := .load 5, data := [7], job := 5 };
      let s := { sl0 f with cores := [(0, { held := [held0] })] }; Returns s 2 f ∧ (s.coreAt 0).job.acc.all (fun a => decide (a.id ≠ 5)) = true ∧
        (s.coreAt 0).job.id ≠ f.job ∧ (s.coreAt 0).held = [held0] ∧ held0.job.id = f.job) ∧
    (let f : FSlot := { kind := 3, dst := 1, src := 0, who := .plan 9 1 0 };
      let s := { sl0 f with dies := [(0, { plans := [(9, plan0)] })] }; Returns s 3 f ∧ (s.dieAt f.src).plan 9 = some plan0 ∧ plan0.gen = 1) ∧
    (let f : FSlot := { kind := 3, dst := 1, src := 0, who := .store 0 4 }; Returns (sl0 f) 3 f) ∧
    (let f : FSlot := { kind := 5, dst := 1, src := 0 }; Returns (sl0 f) 5 f ∧ ((sl0 f).coreAt (cid 0 0)).job.id = f.job) := by unfold Returns; decide +kernel
theorem witness_FabricSlots_answers_lost : AnswerStep .acknowledgement 3 ∧ (let f : FSlot := { kind := 3, dst := 1, src := 0 }
    (sl0 f).slots[0]? = some f ∧ f.kind = 3 ∧ slotWaits (cut0 f) f = true ∧ slotWaits (sl0 f { cr := [(0x403, 7)] }) f = false ∧
      undeliverable (sl0 f { cr := [(0x403, 7)] }) f.dst f.src = some 0) := ⟨.acknowledgement, by decide +kernel⟩
theorem witness_FabricSlots_bond : let f : FSlot := { kind := 7, dst := 0, src := 0, pa := 60, handle := 5, data := [1, 2, 3, 4] }
    let b : Bond := { line := 0, handle := 5, home := 0, bytes := [] };
    let x : Dest := { handle := 5, state := 2 };
    let s := { sl0 f with dies := [(0, { dests := [(3, x)], bonds := [b] })] };
    Arrives s .consignmentStore f ∧ f.data ≠ [] ∧ f.pa % 64 + f.data.length = 64 ∧ (s.dieAt 0).dest 5 = some (3, x) ∧ spFind (s.dieAt 0).dests 3 = some x ∧
    (x.state = 0 ∧ x.census = false ∨ x.state = 2) ∧ x.conf = false ∧ s.ecc = [] ∧
    (s.dieAt 0).bonds.find? (fun b => b.handle == 5 && b.home == 60 / 64 * 64 && !b.on) = some b ∧ b.bad = false ∧
    (let t := { sl0 f with dies := [(0, { dests := [(3, x)], cr := [(0x307, 2 ^ 32)] })] };
     (t.dieAt 0).bonds.find? (fun b => b.handle == 5 && b.home == 60 / 64 * 64 && !b.on) = none ∧ (∀ b ∈ (t.dieAt 0).bonds, b.line ≠ 0) ∧
      (∀ m < 0, ∃ b ∈ (t.dieAt 0).bonds, b.line = m) ∧ 0 < fieldOf ((t.dieAt 0).reg 0x307) 32 9 * 16384) := ⟨arr .consignmentStore (by decide +kernel), by decide +kernel⟩
theorem witness_FabricSlots_back : let f : Nat → W64 → FSlot := fun n d => { kind := 0, dst := 1, src := 0, back := true, rets := n, due := d }
    (f 14 0).rets + 1 < 16 ∧ 16 ≤ (f 15 0).rets + 1 ∧ (sl0 (f 3 1000)).slots[0]? = some (f 3 1000) ∧ (f 3 1000).due ≠ 0 ∧ ¬ (1000 : W64) ≤ (sl0 (f 3 1000)).tickOf 0 ∧
    (1000 : W64) ≤ ({ sl0 (f 3 1000) with tick := 1000 } : State).tickOf 0 ∧
    slotWaits (sl0 (f 14 0)) (f 14 0) = false ∧ slotWaits (cut0 (f 14 0)) (f 14 0) = true := by decide +kernel
theorem witness_FabricSlots_notices : (let f : FSlot := { kind := 4, dst := 1, src := 0, who := .rago }; let m : Msg := { kind := .failure, dst := 0, slot := some f };
      let s := { mk j0 with msgs := [m] }; Notice s .failure m ∧ m.slot = some f ∧ (s.coreAt (cid f.src f.srcc)).job.id = f.job) ∧
    (let f : FSlot := { kind := 0, dst := 1, src := 0, who := .store 0 4 }; let m : Msg := { kind := .failure, dst := 0, slot := some f };
      let s := { mk j0 with msgs := [m] }; Notice s .failure m ∧ f.kind ≠ 7 ∧ (s.coreAt (cid f.src f.srcc)).job.id = f.job) ∧
    (1 < (die0 State.reset { cr := [(0x402, 2 + 2 ^ 40)] }).ringPkgs 0 ∧ syncTick State.reset.syncs ≤ State.reset.tick.toNat ∧ State.reset.ringPkgs 0 ≤ 1 ∧
      (976562 : W64).toNat < syncTick 1 ∧ syncTick 1 ≤ (976563 : W64).toNat) ∧
    (∀ x ∈ [1, 2], let m : Msg := { kind := .timing, dst := 8, x := x }; Notice { State.reset with msgs := [m] } .timing m) ∧
    (let m : Msg := { kind := .timing, dst := 8 };
      Notice { State.reset with msgs := [m] } .timing m ∧ pkgStopped { State.reset with msgs := [m] } 1 = true ∧
      pkgStopped { State.reset with dies := [(9, { cr := [(0x301, BitVec.ofNat 64 (2 ^ 63))] })] } 1 = false) := by unfold Notice; decide +kernel
/-- A notice at die 0 that a slot sent from its core 0 was not delivered. -/
def failed (f : FSlot) (x : Nat := 0) : Msg := { kind := .failure, dst := 0, slot := some f, x := x }
theorem witness_FabricSlots_failures : (∀ f ∈ [({ kind := 7, dst := 1, src := 0, who := .store 0 4, handle := 5 } : FSlot), { kind := 3, dst := 1, src := 0, who := .store 0 4, handle := 5 },
        { kind := 7, dst := 1, src := 0, handle := 5 }], Notice { mk j0 with msgs := [failed f] } .failure (failed f)) ∧
    (let a : Acc := { id := 3, strm := .c, cls := 0, kind := .st, runs := [(2 ^ 41, 8)], data := bytesOf 8 1, sent := true }
     let b : Acc := { a with kind := .ld 4 false }
     ∀ p ∈ [((0 : Nat), a), (3, a), (1, b), (2, b)], let f : FSlot := { kind := p.1, dst := 1, src := 0, pa := 2 ^ 41, who := .load 3 }
       let s := { waitAcc [p.2] with msgs := [failed f] }
       Notice s .failure (failed f) ∧ (s.coreAt (cid f.src f.srcc)).job.id = f.job ∧ (s.coreAt 0).job.acc.find? (fun b => decide (b.id = 3)) = some p.2 ∧ p.2.sent = true ∧
        (p.2.kind.isStore = decide (p.1 = 0 ∨ p.1 = 3)) ∧ (accPieces p.2.runs 0).all (fun p => remoteTo (0 / 384) p.2.1) = true) ∧
    (∀ c ∈ [cmd (3 * 2 ^ 58) 0x40 0x80 1, cmd (1 * 2 ^ 58) 0x40 0x80 1, cmd (1 * 2 ^ 58) 0x40 0x80 1 .read], ∀ k ∈ [0, 1],
      let f : FSlot := { kind := k, dst := 1, src := 0, who := .chain 0 0 0 }; let s := { chain0 c with msgs := [failed f 1] }
      Notice s .failure (failed f 1) ∧ s.chain { cl := 0, e := 0, ch := 0 } = some c) ∧
    (cmd (3 * 2 ^ 58) 0x40 0x80 1).op = 3 ∧ (cmd (3 * 2 ^ 58) 0x40 0x80 1).ph = .act ∧ (cmd (1 * 2 ^ 58) 0x40 0x80 1).op ≠ 3 ∧
    (let f : FSlot := { kind := 6, dst := 1, src := 0, who := .plan 9 1 0 }; let s := { die0 (mk j0) { plans := [(9, plan0)] } with msgs := [failed f] }
     Notice s .failure (failed f) ∧ (s.dieAt 0).plan 9 = some plan0 ∧ plan0.gen = 1 ∧ plan0.abort = none) := by
  unfold Notice; decide +kernel
/-- A plan of one transfer of 64 bytes on die 0, reserved in place 9, its firing in progress. -/
def plan1 : Plan := { plan0 with bytes := planB, act := some 5, off := 32, target := 0x1000 }
def plans (p : Plan) : State := { die0 (mk j0) { plans := [(9, p)] } with here := { place := 9, v := 3 } }
theorem walker_of {s u : State} {g place va n bad pa : Nat} {p : Plan} {need : Need} (h : pageSplit va n (n / 8192 + 2) = [(va, n)])
    (ht : s.planPiece g p need va n = (.ok pa, u)) (w : p.told = [] ∧ u.here = s.here ∧ (u.dieAt g).plan place = some p) :
    WalkerAccess s g place p need va n bad [(pa, n)] u := by
  obtain ⟨w0, w1, w2⟩ := w
  refine ⟨fun k => ?_, w1, w2.trans (by rw [← w0])⟩
  unfold State.planAccess
  rw [h]
  simp only [State.planPieces, ht, w0, List.isEmpty_nil, if_true]
theorem witness_PlanEvents_walk : let s := plans plan1
    let n := min (pLen planB - 32) (min 192 (256 - (0x1000 + 32) % 256));
    (s.dieAt 0).plan 9 = some plan1 ∧ plan1.abort = none ∧ plan1.park = none ∧ plan1.walk < planCount planB ∧ plan1.off ≠ 0 ∧
    ∃ rs u bs w, WalkerAccess s 0 9 plan1 { rd := true } ((((pSrc planB).toNat : Int) + planOff planB pSstr (planIdx planB 0) + (32 : Nat)) % 2 ^ 64).toNat n 5 rs u ∧
      (∀ r ∈ rs, remoteTo 0 r.1 = false) ∧ u.planRead 0 rs = (.ok bs, w) ∧ (w.dieAt 0).plan 9 = some plan1 :=
  ⟨by decide +kernel, rfl, rfl, by decide +kernel, by decide, [(32, 32)], _, _, _, walker_of (pa := 32) (by decide +kernel) (acc_eq (by decide +kernel)) (by decide +kernel),
    by decide +kernel, (load_ex (by decide +kernel)).choose_spec, by decide +kernel⟩
/-- A firing of a plan of die 0 at its first transfer, its record those bytes, some bytes of memory given. -/
def planP (b : List Byte) (m : List Host.Cell := []) : Plan × State :=
  let p : Plan := { plan0 with bytes := b, act := some 5 }
  (p, { plans p with mem := m ++ (plans p).mem })
theorem witness_PlanEvents_peer : ∀ x ∈ [(planB, ([] : List Host.Cell), (0 : W64), true, false), (planB, [(0x2007, 1)], 2 ^ 56, false, false),
      (planB.set 31 0x80, [], 0, true, true)],
    let p := (planP x.1 x.2.1).1; let s := (planP x.1 x.2.1).2
    (s.dieAt 0).plan 9 = some p ∧ p.act = some 5 ∧ p.walk < planCount p.bytes ∧ p.off = 0 ∧ p.frozen = none ∧
    ∃ rs u bs w, WalkerAccess s 0 9 p { rd := true } (((pPeerTab p.bytes).toNat + 8 * planPeer p.bytes (planIdx p.bytes 0)) % 2 ^ 64) 8 7 rs u ∧
      u.planRead 0 rs = (.ok bs, w) ∧ (w.dieAt 0).plan 9 = some p ∧ dwAt bs 0 = x.2.2.1 ∧ peerOk w 0 x.2.2.1 = x.2.2.2.1 ∧
      decide ((pDst p.bytes).toInt < 0) = x.2.2.2.2 ∧ (x.2.2.2 = (true, false) → (findPlan (w.dieAt 0) (pId p.bytes) 0).isSome = true) := by
  intro x h
  simp only [List.mem_cons, List.not_mem_nil, or_false] at h
  rcases h with rfl | rfl | rfl
  · exact ⟨by decide +kernel, by decide +kernel, by decide +kernel, by decide +kernel, by decide +kernel, [(0x2000, 8)], _, List.replicate 8 0, _,
      walker_of (by decide +kernel) (acc_eq (by decide +kernel)) (by decide +kernel), load_eq (by decide +kernel), by decide +kernel⟩
  · exact ⟨by decide +kernel, by decide +kernel, by decide +kernel, by decide +kernel, by decide +kernel, [(0x2000, 8)], _, List.replicate 7 0 ++ [1], _,
      walker_of (by decide +kernel) (acc_eq (by decide +kernel)) (by decide +kernel), load_eq (by decide +kernel), by decide +kernel⟩
  · exact ⟨by decide +kernel, by decide +kernel, by decide +kernel, by decide +kernel, by decide +kernel, [(0x2000, 8)], _, List.replicate 8 0, _,
      walker_of (by decide +kernel) (acc_eq (by decide +kernel)) (by decide +kernel), load_eq (by decide +kernel), by decide +kernel⟩
theorem witness_PlanEvents_apply : (∀ x ∈ [(planB, 0), (planB.set 3 0x40, 1)], let p := { plan0 with bytes := x.1 }; let s := plans p
      (s.dieAt 0).plan 9 = some p ∧ p.bound = 0 ∧ pEtype p.bytes = x.2 ∧ (60 % 64 + [1, 2, 3, (4 : Byte)].length ≤ 64) ∧ s.ecc = [] ∧ s.window 60 = none ∧
      (let w : CombWin := { die := 0, place := 9, pa := 0, lines := 1, firm := true }
       ({ s with ways := [(0, { wins := [w] })] } : State).window 60 = some (0, w) ∧ w.firm = true ∧ w.ending = false)) ∧
    ({ plan0 with bound := 5, bindAt := 3 } : Plan).bound ≠ 0 ∧ plan0.boundOf 7 = 0 ∧
    (let p := { plan0 with bytes := planB, bound := 5, bindAt := 3 }
     p.boundOf 3 = 5 ∧ p.boundOf 2 = 0 ∧ (p.abort = none → keptOf p 3 [] { kind := 6, dst := 0, src := 1 } ≠ [])) := by decide +kernel
theorem witness_PlanEvents_bound : ∀ k ∈ [2, 5], let p := { plan0 with bytes := planB, bound := 5, bindAt := 3 }
    let s := die0 State.reset { plans := [(9, p)], dests := [(3, { handle := 5, state := k, expect := 8 })] }
    (s.dieAt 0).plan 9 = some p ∧ p.boundOf 3 ≠ 0 ∧ (s.taggedIn 0 5 0x1000 0 [1, 2]).2 = decide (k = 2) := by decide +kernel
theorem witness_PlanEvents_waits : (let p := { plan1 with pend := List.replicate 255 4 }; ((plans p).dieAt 0).plan (9 % 256) = some p ∧ p.abort = none ∧ 255 ≤ p.pend.length) ∧
    (let p := { plan1 with off := 0, frozen := some 7 }; ((plans p).dieAt 0).plan 9 = some p ∧ p.act = some 5 ∧ p.walk < planCount p.bytes ∧ p.off = 0 ∧ p.frozen ≠ none ∧
      ((plans p).tickOf 0).toNat < (7 : W64).toNat + msOf (fieldOf (((plans p).dieAt 0).reg 0x319) 0 16)) ∧
    ((plans plan1).tickOf 0).toNat < plan1.prog.toNat + msOf (fieldOf (((plans plan1).dieAt 0).reg 0x319) 16 16) ∧ plan1.frozen = none := by decide +kernel
theorem witness_PlanEvents_joins : let f : FSlot := { kind := 6, dst := 0, src := 1, pid := 1, rank := 0, who := .plan 2 1 0, pa := 0x1002, data := [3, 4], need := 4 }
    let c : Chunk := { key := ((1 * 256 + 2) * 2 ^ 24 + 1) * 2, firing := 0, addr := 0x1000, need := 4, got := [(0, 1), (1, 2)] };
    let p := { plan0 with bytes := planB, chunks := [c] };
    let s := { plans p with slots := [f] };
    Arrives s .planTransfer f ∧ findPlan (s.dieAt 0) 1 0 = some (9, p) ∧ (s.dieAt 0).plan 9 = some p ∧ p.abort = none ∧ p.chunks = [c] ∧
    c.got = (List.range 2).zipWith (fun o x => (0 + o, x)) [1, 2] ∧ 0x1000 + 0 + 2 = f.pa ∧ f.need ≤ 2 + f.data.length :=
  ⟨arr .planTransfer (by decide +kernel), by decide +kernel⟩
theorem witness_PlanEvents_complete : let p := { plan1 with walk := 1, off := 0 }; let s := plans p;
    p.act = some 5 ∧ planCount p.bytes ≤ p.walk ∧ p.unack = 0 ∧ p.landed p.f % 2 ^ 56 = pExpect p.bytes ∧
    (∃ u, WalkerAccess s 0 9 p { w := true } (pDonea p.bytes).toNat 8 8 [(0x4000, 8)] u) ∧ ({ p with cnt0 := 7 } : Plan).landed p.f % 2 ^ 56 ≠ pExpect p.bytes :=
  ⟨rfl, by decide +kernel, rfl, by decide +kernel, ⟨_, walker_of (by decide +kernel) (acc_eq (by decide +kernel)) (by decide +kernel)⟩, by decide +kernel⟩
theorem witness_PlanEvents_start_and_abort : let p := { plan0 with pend := [4] }
    ((plans p).dieAt 0).plan 9 = some p ∧ p.abort = none ∧ p.park = none ∧ p.act = none ∧ p.pend = 4 :: [] ∧ p.frozen = none ∧ p.pend.length < 255 ∧ plan0.pend = [] ∧
    (let s := { plans { plan1 with prog := 7 } with tick := 65536000007 };
      7 + msOf (fieldOf ((s.dieAt 0).reg 0x319) 16 16) ≤ (s.tickOf 0).toNat) ∧
    (let s := { plans { plan1 with frozen := some 7 } with tick := 65536000007 };
      (7 : W64).toNat + msOf (fieldOf ((s.dieAt 0).reg 0x319) 0 16) ≤ (s.tickOf 0).toNat) := by decide +kernel
theorem witness_PlanEvents_receive : let f : FSlot := { kind := 6, dst := 0, src := 1, handle := 1, pid := 1, rank := 0, who := .plan 2 1 0, pa := 0x1000, data := [1, 2], need := 2 }
    let g : FSlot := { f with need := 3 };
    let p := { plan0 with bytes := planB };
    let s := { plans p with slots := [f] };
    Arrives s .planTransfer f ∧ findPlan (s.dieAt 0) 1 0 = some (9, p) ∧ (s.dieAt 0).plan 9 = some p ∧ p.abort = none ∧ p.chunks = [] ∧ p.bound = 0 ∧ pEtype p.bytes = 0 ∧
    f.need = f.data.length ∧ f.pa % 256 + f.data.length ≤ 256 ∧ Arrives { s with slots := [g] } .planTransfer g ∧ g.data.length < g.need ∧
    (let m : Msg := { kind := .planHold, dst := 0, handle := 1 }; Notice { s with msgs := [m] } .planHold m) ∧ ({ p with abort := some 1 } : Plan).abort ≠ none :=
  ⟨arr .planTransfer (by decide +kernel), by decide +kernel, by decide +kernel, rfl, rfl, rfl, by decide +kernel, by decide, by decide, arr .planTransfer (by decide +kernel),
    by decide, by unfold Notice; decide +kernel, by decide⟩
theorem witness_BackgroundWork : (let l : CombLine := { pa := 64, bytes := [1, 2], dirty := true, first := 0 };
      let s := { State.reset with ways := [(0, { lines := [l] })] };
      let t := { State.reset with ways := [(0, { lines := [l], wins := [{ die := 0, place := 0, pa := 0, lines := 2 }] })] };
      (s.wayAt 0).lines[0]? = some l ∧ l.bytes ≠ [] ∧ (s.wayAt 0).wins.any (fun x => x.has l.pa && !x.ending) = false ∧
      (t.wayAt 0).wins.any (fun x => x.has l.pa && !x.ending) = true ∧ l.dirty = true) ∧
    (let s := { die0 State.reset { cr := [(0x318, 5)] } with ecc := [(0, 1)] };
      paSpace 0 < 2 ∧ fieldOf ((s.dieAt 0).reg 0x318) 0 32 ≠ 0 ∧ bitOf ((s.dieAt 0).reg 0x318) 32 = false ∧ spGet 0 s.ecc 0 = 1) ∧
    (let s := { die0 State.reset { cr := [(0x318, 5)] } with ecc := [(0, 2), (64, 1), (4 * 2 ^ 52, 3)] };
      s.uncorrectable 0 = true ∧ paSpace (4 * 2 ^ 52) = 4 ∧ paDie (4 * 2 ^ 52) = 0 ∧ s.uncorrectable (4 * 2 ^ 52) = true ∧ spGet 0 s.ecc 8 = 0) ∧
    (let l : NtLine := { pa := 2 ^ 53, bytes := [], at0 := 0, seq := 0 };
      let s := { mk j0 with cores := [(0, { nt := [l] })], tick := 512 };
      s.core.nt[0]? = some l ∧ l.at0.toNat + 512 ≤ (s.tickOf 0).toNat ∧ (({ s with tick := 511 } : State).tickOf 0).toNat < l.at0.toNat + 512 ∧ s.core.nt.filter (fun x => x.pa == l.pa) = [l] ∧
      bitsAt ((s.dieAt (s.me / 384)).reg2 0x30A) 104 24 = 0) ∧
    (let s := { die0 State.reset { cr := [(0x318, 5)] } with ecc := [(0, 2)] }; spGet 0 s.ecc 0 = 2 ∧ s.uncorrectable 0 = false) := by decide +kernel
/-- An access of 8 bytes parked at its address. -/
def parkAt (va : Nat) : ParkSt := { va := va, t0 := 0, k := 0, motion := false, span := [(va, 8)] }
def parked (va t : Nat) : State :=
  { mk { j0 with c := { park := some (parkAt va) } } with here := { park := .stream 0 0 .c }, tick := BitVec.ofNat 64 t }
theorem witness_BackgroundWork_park : (let s := parked 0 10000000; let k := parkAt 0;
      s.here.park = .stream s.here.die s.here.core .c ∧ s.core.taken = none ∧ s.job.live = true ∧ (s.job.blk .c).park = some k ∧ parkDue s 0 k = true ∧
      parkDue (parked 0 0) 0 k = false ∧ ∃ u, s.xlatePieces k.need k.span = (.ok [(0, 8)], u)) ∧
    (let k := parkAt (2 ^ 40);
      ∃ u v, (parked (2 ^ 40) 10000000).xlatePieces k.need k.span = (.park false (2 ^ 40), u) ∧ parkOver u 0 k = false ∧
        (parked (2 ^ 40) (2 ^ 50)).xlatePieces k.need k.span = (.park false (2 ^ 40), v) ∧ parkOver v 0 k = true) ∧
    (∃ u, ({ parked 0 10000000 with dies := [(0, { motion := [0] })] } : State).xlatePieces {} [(0, 8)] = (.park true 0, u)) :=
  ⟨⟨by decide +kernel, by decide +kernel, by decide +kernel, by decide +kernel, by decide +kernel, by decide +kernel, _, acc_eq (by decide +kernel)⟩,
    ⟨_, _, acc_eq (by decide +kernel), by decide +kernel, acc_eq (by decide +kernel), by decide +kernel⟩, _, acc_eq (by decide +kernel)⟩
/-- A chain's access and a walker's, parked at an address. -/
def parkC (va t : Nat) (ph : ChainPh := .act) : State :=
  { chain0 { cmd (2 ^ 58) 0 0 1 ph with park := some (parkAt va) } with here := { park := .chain 0 0 0 0 }, tick := BitVec.ofNat 64 t }
def parkW (va t : Nat) : State :=
  { plans { plan1 with park := some (parkAt va) } with here := { park := .walker 0 9 }, tick := BitVec.ofNat 64 t }
theorem witness_BackgroundWork_park_chain : let k := parkAt
    (∀ ph ∈ [ChainPh.act, .read, .retire], ∃ c u, (parkC (2 ^ 40) (2 ^ 50) ph).chain { cl := 0, e := 0, ch := 0 } = some c ∧ c.park = some (k (2 ^ 40)) ∧ c.ph = ph ∧
      (parkC (2 ^ 40) (2 ^ 50) ph).chPieces c c.need (k (2 ^ 40)).span = (.park false (2 ^ 40), u) ∧ parkOver u 0 (k (2 ^ 40)) = true ∧
      u.clusters = (parkC (2 ^ 40) (2 ^ 50) ph).clusters) ∧
    parkDue (parkC 0 0) 0 (k 0) = false ∧ parkDue (parkC 0 10000000) 0 (k 0) = true ∧ parkOver (parkC 0 10000000) 0 (k 0) = false ∧
    ∃ c u, (parkC 0 10000000).chain { cl := 0, e := 0, ch := 0 } = some c ∧ (parkC 0 10000000).chPieces c c.need (k 0).span = (.ok [(0, 8)], u) := by
  refine ⟨fun ph h => ?_, by decide +kernel, by decide +kernel, by decide +kernel, _, _, rfl, acc_eq (by decide +kernel)⟩
  simp only [List.mem_cons, List.not_mem_nil, or_false] at h
  rcases h with rfl | rfl | rfl <;> exact ⟨_, _, rfl, rfl, rfl, acc_eq (by decide +kernel), by decide +kernel, by decide +kernel⟩
theorem witness_BackgroundWork_park_walker : let k := parkAt
    (∃ p u, ((parkW (2 ^ 40) (2 ^ 50)).dieAt 0).plan 9 = some p ∧ p.park = some (k (2 ^ 40)) ∧ p.frozen = none ∧ p.abort = none ∧
      (parkW (2 ^ 40) (2 ^ 50)).planPieces 0 p (k (2 ^ 40)).need (k (2 ^ 40)).span = (.park false (2 ^ 40), u) ∧ (u.dieAt 0).plan 9 = some p ∧ parkOver u 0 (k (2 ^ 40)) = true) ∧
    parkDue (parkW 0 0) 0 (k 0) = false ∧ parkDue (parkW 0 10000000) 0 (k 0) = true ∧ parkOver (parkW 0 10000000) 0 (k 0) = false ∧
    ∃ u, (parkW 0 10000000).planPieces 0 plan1 (k 0).need (k 0).span = (.ok [(0, 8)], u) :=
  ⟨⟨_, _, rfl, rfl, rfl, rfl, acc_eq (by decide +kernel), by decide +kernel⟩, by decide +kernel, by decide +kernel, by decide +kernel, _, acc_eq (by decide +kernel)⟩
def dst0 : Dest := { handle := 5, state := 2, stata := 0x100000, expect := 8, recv := 8 }
def crd0 (n : Nat) (census : Bool := true) : Coord := { handle := 5, state := n, stata := 0x100000, ents := [{ stata := 8, expect := 0 }], census := census }
/-- Notice m at die 0, whose places are those given. -/
def cn (m : Msg) (c : Sp Coord := []) (x : Sp Dest := []) (bs : List Bond := []) : State :=
  { State.reset with msgs := [m], dies := [(0, { coords := c, dests := x, bonds := bs, cr := [(0x402, 1)] })] }
theorem witness_ConsignmentSchedule : (let m : Msg := { kind := .manifest, dst := 0, handle := 5, x := 0x100000, y := 8 }; let x : Dest := { handle := 5, recv := 8 };
      Notice (cn m [] [(7, x)]) .manifest m ∧ DestAt (cn m [] [(7, x)]) 0 5 7 x ∧ x.state = 0 ∧ x.conf = false ∧ x.recv = m.y ∧ ((cn m).dieAt 0).dest 5 = none ∧
      freePlace ((cn m).dieAt 0).dests 128 = some 0 ∧ ((cn m).dieAt 0).bypassed = false ∧
      (let s := { State.reset with msgs := [m], dies := [(0, { bypassed := true })] }; Notice s .manifest m ∧ (s.dieAt 0).bypassed = true)) ∧
    (let m : Msg := { kind := .confirm, dst := 0, handle := 5 };
      Notice (cn m [(3, crd0 2)]) .confirm m ∧ CoordAt (cn m [(3, crd0 2)]) 0 5 3 (crd0 2) ∧
      (∀ e ∈ (crd0 2).ents.map fun e => if paDie e.stata = m.src then { e with conf := true } else e, e.conf = true) ∧
      CoordAt (cn m [(3, crd0 2 false)]) 0 5 3 (crd0 2 false)) ∧
    (let m : Msg := { kind := .time, dst := 0, handle := 5 }; Notice (cn m [] [(7, dst0)]) .time m ∧ DestAt (cn m [] [(7, dst0)]) 0 5 7 dst0 ∧ dst0.state = 2 ∧ dst0.late = 0) := by
  unfold Notice DestAt CoordAt; decide +kernel
theorem witness_ConsignmentSchedule_census : let m : Msg := { kind := .census, dst := 0, handle := 5 }; let far : Msg := { kind := .census, dst := 0, handle := 5 + 2 ^ 21 };
    let e : Msg := { kind := .manifest, dst := 0, handle := 5 };
    let x : Dest := { handle := 5 + 2 ^ 21 };
    (∃ n ∈ ({ cn m with msgs := [m, e] } : State).msgs, n.kind = .manifest ∧ n.handle = m.handle ∧ n.dst = m.dst) ∧
    (Notice (cn m [(3, crd0 2)]) .census m ∧ (∀ n ∈ (cn m [(3, crd0 2)]).msgs, ¬ (n.kind = .manifest ∧ n.handle = m.handle ∧ n.dst = m.dst)) ∧ roundEnds (cn m [(3, crd0 2)]) 0 m.handle = true ∧
      CoordAt (cn m [(3, crd0 2)]) 0 5 3 (crd0 2)) ∧ ((cn m).dieAt 0).dest m.handle = none ∧ ((cn m).dieAt 0).coord m.handle = none ∧
    (Notice (cn far) .census far ∧ roundEnds (cn far) 0 far.handle = false ∧ roundEnds (cn far [] [(1, x)]) 0 far.handle = false ∧ ((cn far).dieAt 0).dest far.handle = none) ∧ DestAt (cn far [] [(1, x)]) 0 far.handle 1 x ∧ x.state = 0 := by
  unfold Notice DestAt CoordAt; decide +kernel
theorem witness_ConsignmentPublishAndAbort_publish : (let s := { cn {kind := .time, dst := 0} [(3, crd0 3)] with here := { coord := true, place := 3 } };
      s.here.coord = true ∧ spFind (s.dieAt 0).coords 3 = some (crd0 3) ∧ (crd0 3).state = 3 ∧ (crd0 3).t ≤ s.tickOf 0) ∧
    (let x := { dst0 with state := 3 }; let b : Bond := { line := 0, handle := 5, home := 0, bytes := [(63, 7)] };
      let s := { cn {kind := .time, dst := 0} [] [(7, x)] [b] with here := { place := 7 } };
      s.here.coord = false ∧ spFind (s.dieAt 0).dests 7 = some x ∧ publishDue s 0 7 x = true ∧ (∃ b ∈ (s.dieAt 0).bonds, b.handle = x.handle ∧ b.on = false)) ∧
    (let b : Bond := { line := 4, handle := 5, home := 0x200000040, bytes := [(63, 7)], on := true };
      let s := { cn {kind := .time, dst := 0} [] [] [b] with here := { k := 4 } };
      (s.dieAt 0).bonds.reverse.find? (fun c => c.on && c.line == s.here.k) = some b ∧ b.bad = false ∧ s.ecc = [] ∧ (∀ c ∈ (s.dieAt 0).bonds, c ≠ b → c.on = true → c.home ≠ b.home) ∧
      b.home % 64 = 0 ∧ b.home < 2 ^ 52 ∧ paDie b.home = 0 ∧ (b.bytes.map Prod.fst).Nodup ∧ (∀ p ∈ b.bytes, p.1 < 64)) := by decide +kernel
theorem witness_ConsignmentPublishAndAbort_abort : (let m : Msg := { kind := .abortReq, dst := 0, handle := 5, x := 4 };
      Notice (cn m [(3, crd0 2)]) .abortReq m ∧ CoordAt (cn m [(3, crd0 2)]) 0 5 3 (crd0 2) ∧ CoordAt (cn m [(3, crd0 3)]) 0 5 3 (crd0 3) ∧ (crd0 3).state = 3 ∧ m.x = 4 ∧
      (let s := { State.reset with msgs := [m], dies := [(0, { cnT := [(5, 77)] })] }; Notice s .abortReq m ∧ (s.dieAt 0).coord 5 = none ∧ spFind (s.dieAt 0).cnT 5 = some 77)) ∧
    (let m : Msg := { kind := .abort, dst := 0, handle := 5 + 2 ^ 21 }; let x : Dest := { handle := 5 + 2 ^ 21, state := 2 };
      Notice (cn m [] [(7, x)]) .abort m ∧ (∀ q ∈ ((cn m [] [(7, x)]).dieAt 0).plans, m.handle ∉ q.2.bounds) ∧ DestAt (cn m [] [(7, { x with state := 3 })]) 0 m.handle 7 { x with state := 3 } ∧ roundEnds (cn m [] [(7, x)]) 0 m.handle = false ∧
      roundEnds (cn m) 0 m.handle = false ∧ ((cn m).dieAt 0).dest m.handle = none ∧ roundEnds (cn m) 0 5 = true ∧ DestAt (cn m [] [(7, x)]) 0 m.handle 7 x) ∧
    (let s := { cn {kind := .time, dst := 0} [(3, crd0 2)] [(7, { dst0 with state := 5 }), (8, { handle := 6, orphan := true })] with tick := BitVec.ofNat 64 (2 ^ 60) };
      spFind (s.dieAt 0).coords 3 = some (crd0 2) ∧ (crd0 2).sentAt.toNat + cnwaitNs s 0 ≤ (s.tickOf 0).toNat ∧ spFind (s.dieAt 0).dests 7 = some { dst0 with state := 5 } ∧
      dst0.hold ≤ s.tickOf 0 ∧ spFind (s.dieAt 0).dests 8 = some { handle := 6, orphan := true } ∧ (0 : W64).toNat + cnwaitNs s 0 ≤ (s.tickOf 0).toNat) := by
  unfold Notice DestAt CoordAt; decide +kernel
theorem witness_RingStations : (let s := { die0 State.reset { cr := [(0x303, 1000)] } with here := { v := 0x8000000000000004 } };
      bitOf s.here.v 63 = true ∧ stationRuns (s.dieAt 0) = false ∧ fieldOf s.here.v 0 3 = 4 ∧ rsPeriod (s.dieAt 0) ≠ 0 ∧ rsPeriod (State.reset.dieAt 0) = 0 ∧ 4 < fieldOf (5 : W64) 0 3) ∧
    (let s := { die0 State.reset { cr := [(0x301, 0x8000000000000004), (0x303, 1000)] } with here := { v := 4 } };
      bitOf s.here.v 63 = false ∧ stationRuns (s.dieAt 0) = true ∧ fieldOf s.here.v 0 3 = fieldOf ((s.dieAt 0).reg 0x301) 0 3 ∧
      fieldOf (3 : W64) 0 3 ≠ fieldOf ((s.dieAt 0).reg 0x301) 0 3) ∧
    ((die0 State.reset { imgRoot := [0] }).dieAt 0).imgRoot ≠ [] ∧ (State.reset.dieAt 0).imgRoot = [] ∧
    (let s := { State.reset with here := { v := 0x8 } };
      (∀ k < 8, 8 * (0 / 8) + k ≠ 0 → fieldOf ((s.dieAt (8 * (0 / 8) + k)).reg 0x405) 0 4 = fieldOf (0 : W64) 0 4) ∧
      ∃ k < 8, 8 * (0 / 8) + k ≠ 0 ∧ fieldOf ((s.dieAt (8 * (0 / 8) + k)).reg 0x405) 0 4 ≠ fieldOf s.here.v 0 4) ∧
    (let s := die0 State.reset { wload := some (0, 3, 9) };
      (State.reset.dieAt 0).wload = none ∧ (s.dieAt 0).wload = some (0, 3, 9) ∧ s.Inv ∧ (s.dieAt 0).reg2 0x30A = 0 ∧ (s.dieAt 0).wrote = []) ∧
    fieldOf (3 : W64) 0 2 = 3 ∧ fieldOf (2 : W64) 0 2 ≠ 3 := by unfold State.Inv; decide +kernel
/-- A die whose station runs with one timetable entry of LATEST 10 and DEPART 20, more of it given. -/
def rs0 (t : Nat) (d : Die := {}) (m : List Host.Cell := []) : State :=
  { die0 State.reset { d with cr := [(0x301, 0x8000000000000000), (0x303, 1000), (0x304, 1)] } with
    mem := [(ctlPa 0 0x80004, 10), (ctlPa 0 0x80008, 20)] ++ m, tick := BitVec.ofNat 64 t }
theorem witness_RingPresentations_round0 : let s := rs0 0
    stationRuns (s.dieAt 0) = true ∧ ttLen (s.dieAt 0) = 1 ∧ due0 s 0 0 = some 0 ∧ schedHeld s 0 = false ∧ (entSt (s.dieAt 0) 0).wait = none ∧
    firstDue (s.openDue 0 0 0) 0 0 0 = true ∧ stationRuns (State.reset.dieAt 0) = false ∧
    (let t := { s with clusters := [(1, { heldR := [(0, [{ noJ with path := 3 }])] })] }; schedHeld t 0 = true ∧ due0 t 0 0 = some 0) := by decide +kernel
theorem witness_RingPresentations_round1_and_close : (let s := rs0 10 { ents := [(0, { next0 := 1 })] };
      due1 s 0 0 = 10 ∧ schedHeld s 0 = false ∧ firstDue s 0 0 10 = true ∧ (entSt (s.dieAt 0) 0).next1 < (entSt (s.dieAt 0) 0).next0 ∧ due1 (rs0 9) 0 0 = 10) ∧
    (let s := rs0 10 {} [(ctlPa 0 0x80011, 1)]; due0 s 0 0 = none ∧ due1 s 0 0 = 10 ∧ firstDue s 0 0 10 = true ∧ (entSt (s.dieAt 0) 0).next0 ≤ (entSt (s.dieAt 0) 0).next1) ∧
    (let s := rs0 20 { ents := [(0, { next0 := 1 })], frames := [(3, { st := 3 })] };
      rotTick (s.dieAt 0) 0 (ttEnt s 0 0).depart = 20 ∧ (entSt (s.dieAt 0) 0).next0 ≠ (entSt (s.dieAt 0) 0).nextC ∧ heldFrame (s.dieAt 0) 0 0 = some 3 ∧
      (frameAt (s.dieAt 0) 3).st = 3) := by decide +kernel
/-- Entry 0 of the tag dispatch table is in use and matches every tag; more of it given. -/
def tde0 (m : List Host.Cell := []) (w : Byte := 0x80) : State :=
  { State.reset with mem := [(ctlPa 0 0x40008, 4), (ctlPa 0 0x4000E, 0x10), (ctlPa 0 0x4000F, w)] ++ m, clusters := [(0, { cq := true }), (1, { cq := true })] }
theorem memGet_absent {a : Nat} : ∀ {m : List Host.Cell}, (∀ c ∈ m, c.1 ≠ a) → memGet m a = memDefault
  | [], _ => rfl
  | (i, v) :: m, h => by
    rw [memGet, if_neg (h _ (List.mem_cons_self ..)), memGet_absent fun c hc => h c (List.mem_cons_of_mem _ hc)]
/-- Above the first entry of the table nothing is listed, so no other entry is in use. -/
theorem no_entry {s : State} (h : ∀ c ∈ s.mem, c.1 < ctlPa 0 0x40040) {j : Nat} {t : W32} (hj : 0 < j ∧ j < 4096) : ¬EntryMatches s 0 j t := by
  have z : ∀ n a, ctlPa 0 0x40040 ≤ a → a + n ≤ 4 * 2 ^ 52 → s.peek a n = List.replicate n 0 := fun n => by
    induction n with
    | zero => intro a _ _; rfl
    | succ n ih =>
      intro a ha hn
      have hs : ¬ paSpace a = 0 := by unfold ctlPa at ha; unfold paSpace; omega
      rw [State.peek, ih (a + 1) (by omega) (by omega), List.replicate_succ]
      unfold State.byteAt
      rw [if_neg hs, memGet_absent fun c hc => by have := h c hc; omega]
      rfl
  unfold EntryMatches
  rw [z 64 _ (by unfold ctlPa; omega) (by unfold ctlPa; omega)]
  exact fun x => absurd x.1 (by decide)
theorem witness_RingPresentations_dispatch :
    (EntryMatches (tde0) 0 0 7 ∧ (∀ k < 4096, 0 < k → ¬EntryMatches (State.dispatchFire (tde0) 0 0 ((tde0).peek (ctlPa 0 0x40000) 64) 7 [5]) 0 k 7)) ∧
    (∀ k < 4096, 0 < k → ¬EntryMatches State.reset 0 k 7) ∧
    (let b := (tde0).peek (ctlPa 0 0x40000) 64; bitOf (dwAt b 8) 62 = false ∧ dispatchBroken b = false ∧ recBroken (dispatchRec b 7 3 5 5 none) = none ∧
      dispatchBroken ((tde0 [(ctlPa 0 0x40010 + 7, 1)]).peek (ctlPa 0 0x40000) 64) = true) ∧
    (let b := (tde0 [] 0xC0).peek (ctlPa 0 0x40000) 64; bitOf (dwAt b 8) 62 = true ∧ bitOf (dwAt b 8) 61 = false ∧ dispatchBroken b = false) ∧
    (let r := { dispatchRec ((tde0).peek (ctlPa 0 0x40000) 64) 7 3 5 5 none with d2 := 0xFFFFFFFF }; let s := tde0
     recBroken r = none ∧ r.joina = noJoin ∧ (s.clusterAt 0).fullR r.prio = false ∧ spGet [] (s.clusterAt 0).heldR r.prio = [] ∧ recBroken (recOf []) = some 0 ∧
      (let q := { r with d2 := 0x10000 }; q.joina = 0x10000 ∧ (let p := clWin 0 ((s.clusterAt 0).placeAt q.prio ((s.clusterAt 0).freeAt q.prio)); p + 32 ≤ clWin 0 q.joina ∨ clWin 0 q.joina + 8 ≤ p))) :=
  ⟨⟨by unfold EntryMatches; decide +kernel, fun k hk h => no_entry (by decide +kernel) ⟨h, hk⟩⟩, fun k hk h => no_entry (by decide) ⟨h, hk⟩, by decide +kernel, by decide +kernel,
    by decide +kernel⟩
/-- Die 0 with slot 0 in a state, waiting admissions, and a completion queue of 1,024 entries. -/
def bnd0 (st : Nat) (adm : List AdmEnt := []) : State :=
  { die0 State.reset { slots := [(0, { state := st, model := 0 })], adm := adm, cr := [(0x30F, BitVec.ofNat 64 (10 * 2 ^ 28))], wrote := [0x30E] } with
    mem := [(ctlPa 0 0x280007, 0x80)] }
/-- An admission of a budget for model 0. -/
def adm1 (b : W64) : AdmEnt := { r := { d0 := 1, d1 := 0, d2 := b } }
theorem witness_RingPresentations_boundary : (let s := bnd0 2; (s.dieAt 0).adm = [] ∧ (s.slotAt 0 0).state = 2 ∧ scraping (s.dieAt 0) 0 = false ∧ ∀ k < 256, (s.slotAt 0 k).state ≠ 3) ∧
    (let s := bnd0 3; (s.slotAt 0 0).state = 3 ∧ (s.slotAt 0 0).model = 0 ∧ scraping (s.dieAt 0) 0 = false ∧ (∀ j < 256, j ≠ 0 → (s.slotAt 0 j).state ≠ 3) ∧ complRoom (s.dieAt 0) = true ∧
      bitsAt ((s.dieAt 0).reg2 0x30E) 92 4 ≤ 10 ∧ complRoom (State.reset.dieAt 0) = false) ∧
    (let a := adm1 9; let s := bnd0 1 [a]
      (s.dieAt 0).adm = [a] ∧ a.pend = none ∧ fieldOf a.r.d1 54 6 = 0 ∧ fieldOf a.r.d2 0 32 ≠ 0 ∧ fieldOf (adm1 0).r.d2 0 32 = 0 ∧ (s.slotAt 0 1).state = 0 ∧
      (s.slotAt 0 0).state ≠ 0 ∧ fieldOf (modelEnt s 0 0) 32 8 + 1 ≤ modelSlots s 0 0 ∧ ((bnd0 0 [a]).slotAt 0 0).state = 0) ∧
    modelSlots (bnd0 0) 0 0 < fieldOf (modelEnt (bnd0 0) 0 0) 32 8 + 1 := by decide +kernel
theorem witness_RingPresentations_close_goes : goesOn (rs0 20) 0 1 = false ∧ goesOn (ring8 (rs0 20)) 0 1 = true := by decide +kernel
def seg0 : Seg := { src := 1, frame := 2, dst := 0, dir := 1, tag := 0, rot := 0, sent := 0 }
/-- A copy on its way to die 0, whose entry for it arrives at byte 3 of ARRIVE times 2^24. -/
def lnd (t : Nat) (x : Seg := seg0) (d : Die := {}) : State :=
  { rs0 t d [] with mem := [(ctlPa 0 0x80003, 1), (ctlPa 0 0x80011, 1)], segs := [x] }
theorem witness_RingLandingsAndLinks_starts : let s := lnd 2000
    s.segs[s.here.k]? = some seg0 ∧ seg0.ack = false ∧ segBlocked s seg0 = false ∧ seg0.begun = false ∧ entryOfSeg s seg0 = some 0 ∧ stationRuns (s.dieAt 0) = true ∧
    (s.dieAt 0).n0 ≤ seg0.rot ∧ (landFrame s 0 (ttEnt s 0 0)).isSome = true ∧
    landFrame (lnd 2000 seg0 { frames := (List.range 160).map fun k => (k, { st := 2 }) }) 0 (ttEnt s 0 0) = none ∧
    entryOfSeg (lnd 2000 { seg0 with tag := 16 }) { seg0 with tag := 16 } = none ∧ (let t := lnd 2000 seg0 { n0 := 1 }; seg0.rot < (t.dieAt 0).n0) ∧
    (let t := { ring8 (lnd 2000) with dies := [(0, { cr := [(0x402, 1)] }), (1, { cr := [(0x402, 1)], links := [(linkCode .cwOut, 1)] })] }
     segBlocked t { seg0 with src := 1, dst := 2 } = true) := by decide +kernel
/-- A copy that has begun to leave, bound for a frame or for none. -/
def seg1 (at_ : Option Nat) : Seg := { seg0 with begun := true, land := at_ }
def fr5 : Die := { frames := [(5, { st := 1, entry := 0 })] }
theorem witness_RingLandingsAndLinks_landing : (let x := seg1 (some 5); let s := lnd 2000 x fr5
      s.segs[s.here.k]? = some x ∧ x.ack = false ∧ segBlocked s x = false ∧ x.begun = true ∧ segSz (s.dieAt 1) ≤ 16000 * ((s.tickOf 0).toNat - x.sent.toNat) ∧
      x.dup = false ∧ x.land = some 5 ∧ (frameAt (s.dieAt 0) 5).entry = 0 ∧ (frameAt (s.dieAt 0) 5).st = 1 ∧ stationRuns (s.dieAt 0) = true ∧ (s.dieAt 0).n0 ≤ x.rot ∧
      (s.tickOf 0).toNat ≤ rotTick (s.dieAt 0) (x.rot + 1) (ttEnt s 0 0).arrive ∧ s.Inv ∧ (s.dieAt 0).wrote = []) ∧
    (let s := lnd (2 ^ 25) (seg1 (some 5)) fr5; rotTick (s.dieAt 0) ((seg1 none).rot + 1) (ttEnt s 0 0).arrive < (s.tickOf 0).toNat) ∧
    (let s := lnd 2000 (seg1 none); s.segs[s.here.k]? = some (seg1 none) ∧ segBlocked s (seg1 none) = false ∧ (seg1 none).land = none) ∧
    (let x := { seg1 none with dup := true }; (lnd 2000 x).segs[0]? = some x ∧ x.dup = true) ∧
    segSz ((lnd 1048).dieAt 1) > 16000 * ((lnd 1048).tickOf 0).toNat := by unfold State.Inv; decide +kernel
theorem witness_RingLandingsAndLinks_acks : (let x := { seg0 with ack := true }; let s := { lnd 2000 x with dies := [(1, { frames := [(2, { st := 4, ackCw := true })] })] };
      s.segs[s.here.k]? = some x ∧ x.ack = true ∧ ((frameAt (s.dieAt 1) 2).st = 4 ∧ (frameAt (s.dieAt 1) 2).tag = x.tag ∧ (frameAt (s.dieAt 1) 2).rot = x.rot) ∧
      homeFrame s 1 2 = false ∧ ¬((frameAt ((lnd 2000 x).dieAt 1) 2).st = 4)) ∧
    (let s := lnd 2000 (seg1 none); segSz (s.dieAt 1) + 16000 * 600 < 16000 * ((s.tickOf 1).toNat - (seg1 none).sent.toNat) ∧ (seg1 none).begun = true ∧
      (seg1 none).dup = false ∧ segBlocked s (seg1 none) = false ∧ (seg1 none).resent = false ∧
      (let x := { seg1 none with resent := true }; (lnd 2000 x).segs[0]? = some x ∧ segBlocked (lnd 2000 x) x = false)) ∧
    (let s := die0 State.reset { slots := [(255, { state := 1, parkp := true })] }; (s.slotAt 0 255).parkp = true ∧ (s.slotAt 0 255).ptick ≤ s.tickOf 0) ∧
    (let s := { State.reset with dies := (List.range 8).map fun k => (k, { cr := [(0x405, 15)] }) };
      (∀ k < 8, fieldOf ((s.dieAt (8 * 0 + k)).reg 0x405) 0 4 = 8 + 7) ∧ (s.dieAt 7).bypassed = false) ∧
    (let s := { State.reset with dies := (List.range 8).map fun k => (k, { cr := [(0x405, 15)], bypassed := k == 7 }) };
      (∀ k < 8, fieldOf ((s.dieAt (8 * 0 + k)).reg 0x405) 0 4 = 8 + 7) ∧ (s.dieAt 7).bypassed = true) ∧
    (∃ k < 8, fieldOf ((State.reset.dieAt (8 * 0 + k)).reg 0x405) 0 4 < 8) ∧
    linkDown (State.reset.dieAt 0) .cwOut = false ∧ spGet 0 (State.reset.dieAt 0).links (linkCode .cwOut) % 2 = 0 ∧
    (let s := die0 State.reset { links := [(linkCode .cwOut, 1)] }; linkDown (s.dieAt 0) .cwOut = true ∧ spGet 0 (s.dieAt 0).links (linkCode .cwOut) % 2 = 1) := by
  decide +kernel
/-- A port with a send queue of 64 entries at 0, one of them written. -/
def eth0 (p : EthPort) (t : Nat := 0) : State :=
  { die0 State.reset { cr := [(0x313, BitVec.ofNat 64 (2 ^ 48))], wrote := [0x312], eth := p } with tick := BitVec.ofNat 64 t }
theorem witness_EthernetSteps_send : (let s := eth0 {}; let r := ensq (s.dieAt 0);
      (s.dieAt 0).wrote.contains 0x312 = true ∧ 0 ≠ bitsAt r 112 16 ∧ fieldOf (dwAt (s.peek (bitsAt r 0 56) 64) 0) 60 4 = 0 ∧ (s.dieAt 0).eth.ctxs.length < 4096) ∧
    (let s := eth0 { sends := [{ idx := 0, ent := [] }] }; (¬ ∀ x ∈ (s.dieAt 0).eth.sends, x.idx ≠ 0) ∧ s.here.full = false ∧ ({ s with here := { full := true } } : State).here.full = true ∧ (s.dieAt 0).eth.done = [] ∧ bitsAt (ensq (s.dieAt 0)) 96 16 = 0) ∧
    (∀ x ∈ ((eth0 {}).dieAt 0).eth.sends, x.idx ≠ 0) ∧
    (let c : EthCtx := { peer := 1, last := 0, acked := 0, ents := [0] }; let s := eth0 { ctxs := [c] } (2 ^ 60);
      ∃ c ∈ (s.dieAt 0).eth.ctxs, c.ents ≠ [] ∧ c.acked.toNat + 10 * quiet (s.dieAt 0) ≤ (s.tickOf 0).toNat) ∧
    (let c : EthCtx := { peer := 1, last := 0, acked := 0, ents := [] }; let s := eth0 { ctxs := [c] } (2 ^ 60);
      (s.dieAt 0).eth.ctxs[s.here.k]? = some c ∧ c.last.toNat + quiet (s.dieAt 0) ≤ (s.tickOf 0).toNat) := by decide +kernel
def ctx0 : EthCtx := { peer := 1, last := 0, acked := 0, ents := [] }
theorem witness_EthernetSteps_full : (∀ c ∈ ((eth0 { ctxs := List.replicate 4096 ctx0 }).dieAt 0).eth.ctxs, c.peer ≠ entPeer ((eth0 { ctxs := List.replicate 4096 ctx0 }).peek 0 64)) ∧
    4096 ≤ ((eth0 { ctxs := List.replicate 4096 ctx0 }).dieAt 0).eth.ctxs.length :=
  ⟨fun c h => by rw [List.eq_of_mem_replicate (n := 4096) (a := ctx0) h]; decide +kernel, Nat.le_of_eq (List.length_replicate (n := 4096) (a := ctx0)).symm⟩
/-- Window 0 of die 0: 1,024 bytes from 0 on. A packet arrives. -/
def pkt (p : EthPacket) (x : Sp Dest := []) (bs : List Bond := []) : State :=
  { die0 State.reset { dests := x, bonds := bs } with mem := [(ctlPa 0 0x15009, 4), (ctlPa 0 0x1500F, 0x80)], here := { pk := p } }
theorem witness_EthernetSteps_write : let p : EthPacket := { win := 256, off := 512, handle := 0, tag := 7, tinc := true, tile0 := 3, peer := 0, bytes := List.replicate 512 1 }
    let q := { p with handle := 5, off := 60, bytes := [1, 2, 3, 4] }
    windowValid (pkt p) 0 0 = true ∧ p.off + p.bytes.length = bitsAt (rxWindow (pkt p) 0 0) 64 40 ∧ bitsAt (rxWindow (pkt p) 0 0) 64 40 < (p.off + 1) + p.bytes.length ∧
    windowValid State.reset 0 0 = false ∧ p.bytes.length ≤ 4096 ∧ q.handle ≠ 0 ∧
    (let b : Bond := { line := 0, handle := 5, home := 0, bytes := [] }; let s := pkt q [(3, dst0)] [b];
      DestAt s 0 5 3 dst0 ∧ 60 % 64 + q.bytes.length = 64 ∧ dst0.state = 2 ∧ dst0.conf = false ∧ s.ecc = [] ∧
      (s.dieAt 0).bonds.find? (fun b => b.handle == 5 && b.home == 60 / 64 * 64 && !b.on) = some b ∧ b.bad = false) := by
  unfold DestAt; decide +kernel
theorem witness_EthernetSteps_long : 4096 < (List.replicate 4097 (0 : Byte)).length := by rw [List.length_replicate]; decide
theorem witness_FirmwareSteps : State.reset.peek64 (mailPa 0 16) ≠ 1 ∧ ({ State.reset with mem := [(mailPa 0 16, 1)] } : State).peek64 (mailPa 0 16) = 1 ∧
    (State.reset.peek64 (mailPa 0 8)).toNat = 0 ∧
    (let s := { State.reset with mem := [(mailPa 0 8, 8)] }; (s.peek64 (mailPa 0 8)).toNat ≠ 0 ∧ paSpace (s.peek64 (mailPa 0 8)).toNat ≠ 2) ∧
    (let s := { State.reset with mem := [(mailPa 0 14, 0x20)] }; let img := (s.peek64 (mailPa 0 8)).toNat
     paSpace img = 2 ∧ img + 256 + imgLen (s.peek img 256) ≤ 3 * 2 ^ 52) ∧
    (State.reset.tickOf 0).toNat < 100000 * ((State.reset.dieAt 0).telem + 1) ∧
    (let s : State := { State.reset with tick := 100000, dies := [(0, { cr := [(0x31E, 401 * 2 ^ 16)] })] }
     100000 * ((s.dieAt 0).telem + 1) ≤ (s.tickOf 0).toNat ∧ fieldOf ((s.dieAt 0).reg 0x404) 0 16 < fieldOf ((s.dieAt 0).reg 0x31E) 16 16) ∧
    fieldOf ((State.reset.dieAt 0).reg 0x31E) 16 16 ≤ fieldOf ((State.reset.dieAt 0).reg 0x404) 0 16 := by decide +kernel
/-- A C-stream at the word CADD s2, s3, s1 of a running block, its core's turn. -/
def turn (st : Strm) (b : Blk) : State :=
  { mk { j0 with c := if st = .c then b else {}, a := if st = .a then b else {}, v := if st = .v then b else {} } with agenda := [.issue 0 0 st] }
theorem witness_StepKeepsMemoryCanonical : (turn .c { mode := .run, body := [0x8043, 0x0800], left := 1 }).Inv ∧
    ∃ t, step (turn .c { mode := .run, body := [0x8043, 0x0800], left := 1 }) = .next t := ⟨by unfold State.Inv; decide +kernel, _, rfl⟩
theorem witness_DecodeReadsEncode : (Instr.vfma 1 2 3 7 .bf16).wf = true ∧ streamOf (.vfma 1 2 3 7 .bf16) = some .v ∧ (Instr.crr 31 0x405).wf = true ∧ streamOf (.crr 31 0x405) = some .c := by decide
theorem witness_StepRunsDecoded_word : let s := turn .c { mode := .run, body := [0x8043, 0x0800], left := 1 }
    let u : State := { s with agenda := [], here := { die := 0, core := 0, st := .c } }
    s.agenda = .issue 0 0 .c :: [] ∧ u.job.canIssue .c = true ∧ u.stops .c = false ∧ (u.job.blk .c).short = false ∧ (u.job.blk .c).code ≠ [] ∧ (u.job.blk .c).fresh = false ∧ u.job.interlocked .c (.cAdd 2 3 1) = false ∧
    decodeAt .c (u.job.blk .c).code = (.ok (.cAdd 2 3 1), 2) := by decide +kernel
theorem witness_StepRunsDecoded_others : (let s := turn .c { mode := .run, body := [0x8043, 0x0800], left := 1 };
      let u : State := { s with cores := [(0, { job := { s.job with acc := [{ id := 0, strm := .c, cls := 0, kind := .ld 3 false, runs := [(0, 8)] }] } })], here := { die := 0, core := 0, st := .c } };
      u.job.canIssue .c = true ∧ u.job.interlocked .c (.cAdd 2 3 1) = true) ∧
    (let u := { turn .c { mode := .run, body := [0xFFFF, 0xFFFF], left := 1 } with here := { st := .c } }; (match (decodeAt .c (u.job.blk .c).code).1 with | .bad _ => true | _ => false) = true) ∧
    (let u := { turn .v { mode := .run, body := [0x8C12, 0xC000], left := 1 } with here := { st := .v } };
      let w := u.realnDone.vPass.1
      u.stops .v = false ∧ u.realnDone.vHeld = false ∧ u.realnDone.vPass.2 = false ∧ (w.job.blk .v).short = false ∧ (w.job.blk .v).code ≠ [] ∧
      (w.job.blk .v).fresh = false ∧ decodeAt .v (w.job.blk .v).code = (.ok (.vpush 1 11), 2)) ∧
    ({ mk j0 with cores := [(0, { job := j0, preq := true })] }.stops .c = true) ∧
    (onDevice {} = true ∧ streamOf .deviceReset = none) := by decide +kernel
theorem witness_WrittenWordsDecode : WordOf .c [0x8043, 0x0800] (.cAdd 2 3 1) := .cAdd
/-! Ill-formed terms: every check refuses one. -/
theorem test_ill_formed_words : ([.crr 1 0x018, .crr 1 0x002, .crr 1 0x31D, .crw 1 0x107, .crw 1 0x200, .crw 1 0x430, .ldq2 1 2 3 0 0x100, .gather 1 2 3 0 5, .scatter 1 2 3 0 5]
    : List Instr).all (fun i => !i.wf) = true := by decide
theorem test_ill_formed_types : ([.vadd 1 2 3 0 .e4m3, .vsub 1 2 3 0 .mx4, .vmul 1 2 3 0 .i4, .vmulh 1 2 3 0 .f32, .vfma 1 2 3 0 .e5m2, .vfms 1 2 3 0 .n4, .vmin 1 2 3 0 .mx4,
    .vmax 1 2 3 0 .e4m3, .vand 1 2 3 0 .bf16, .vor 1 2 3 0 .f16, .vxor 1 2 3 0 .f32, .vshl 1 2 3 0 .f32, .vshr 1 2 3 0 .f16, .vadds 1 2 3 0 .bf16, .vsubs 1 2 3 0 .f32,
    .vabs 1 2 0 .n8, .vneg 1 2 0 .n32, .vnot 1 2 0 .f32, .vexp2 1 2 0 .i32, .vlog2 1 2 0 .e4m3, .vrcp 1 2 0 .n8, .vrsq 1 2 0 .i16, .vclz 1 2 0 .f32, .vpopc 1 2 0 .f16,
    .viota 1 2 3 0 .f32, .vqmx 1 2 3 0 .i8, .vdqmx 1 2 3 0 .e4m3, .vrsum 1 2 0 .mx4, .vrmax 1 2 0 .e4m3, .vrmin 1 2 0 .i4, .vrargmax 1 2 0 .n4] : List Instr).all (fun i => !i.wf) = true := by
  decide
theorem test_ill_formed_pairs : ([.vcmp .uo 1 2 3 0 .i8, .vcmp .od 1 2 3 0 .n32, .vcmp .eq 1 2 3 0 .mx4, .vcvt 1 2 .f32 .rne .f32, .vcvt 1 2 .mx4 .rne .f32, .vcvt 1 2 .f32 .rne .mx4,
    .vshuf 1 2 12 0 .f32, .vwiden 1 2 .n16 1 0 .n8, .vwiden 2 2 .i16 1 0 .n8, .vwiden 2 2 .n16 0 0 .n8, .vnarrow 1 1 .n16 false 0 .n8, .vnarrow 1 2 .n8 false 0 .n16, .vsett 0 3]
    : List Instr).all (fun i => !i.wf) = true := by decide
/-! Words written out from the encodings; in each, the halfword at the lower address holds bits [31:16] (R162). -/
theorem test_decode_cadd : decodeTableWord 32 0x80430800 = some (.cAdd 2 3 1) := by decide
theorem test_decode_branch_back : decodeTableWord 32 0xA421FFFE = some (.cBnez 1 (-2)) := by decide
theorem test_decode_atomic : decodeTableWord 32 0xBC221AC0 = some (.atcas 1 2 3 true) := by decide
theorem test_decode_control_registers : decodeTableWord 32 0xD8220A00 = some (.crr 1 0x105) ∧ decodeTableWord 32 0xD8422201 = some (.crw 2 0x111) := by decide
theorem test_decode_short : decodeTableWord 16 0x08C4 = some (.c16Add 3 4) := by decide
theorem test_decode_access : decodeAt .a [0x9004, 0x9A07] = (.ok (.ldq 1 2 3 1 7), 2) ∧ decodeAt .a [0xB801, 0x8000] = (.ok (.sqp 6), 2) := by decide
theorem test_decode_vector : decodeAt .v [0x5461, 0x1812] = (.ok (.vcvt 6 4 .f32 .rne .e4m3), 2) ∧ decodeAt .v [0x8C12, 0xC000] = (.ok (.vpush 1 11), 2) := by decide
theorem test_decode_refuses : (match (decodeAt .c [0xFFFF, 0xFFFF]).1 with | .bad _ => true | .ok _ => false) = true := by decide
/-! Results that the manual's tables give by hand. -/
/-- The state after a step that answers one. -/
def after (o : Host.Outcome State Fault Refusal) : State := match o with | .next t => t | _ => State.reset
def sreg (l : Sp W64) : State := mk { j0 with s := l }
theorem test_add_wraps : (after (exec (.cAdd 3 1 2) (sreg [(1, 0xFFFFFFFFFFFFFFFF), (2, 1)]))).rs 3 = 0 := by decide
theorem test_s0_discards : (after (exec (.cAddi 0 1 5) (sreg [(1, 7)]))).rs 0 = 0 := by decide
theorem test_divide_by_zero : (after (exec (.div 3 1 0) (sreg [(1, 7)]))).rs 3 = 0xFFFFFFFFFFFFFFFF ∧ (after (exec (.rem 3 1 0) (sreg [(1, 7)]))).rs 3 = 7 := by decide
theorem test_divide_overflow : (after (exec (.div 3 1 2) (sreg [(1, 0x8000000000000000), (2, 0xFFFFFFFFFFFFFFFF)]))).rs 3 = 0x8000000000000000 := by decide
theorem test_shift_arithmetic : (after (exec (.cSrai 1 1 63) (sreg [(1, 0x8000000000000000)]))).rs 1 = 0xFFFFFFFFFFFFFFFF := by decide
theorem test_insert_keeps : (after (exec (.cLik 1 0xABCD 3) (sreg [(1, 0x1111222233334444)]))).rs 1 = 0xABCD222233334444 := by decide
theorem test_clz_zero : (after (exec (.clz 2 1) (sreg []))).rs 2 = 64 := by decide
theorem test_branch_back : (after (exec (.cBnez 1 (-2)) (mk { j0 with s := [(1, 1)], c := { hdr := 0x100 } }))).job.c.hdr = 0xF8 := by decide
theorem test_unaligned_load_traps : (after (exec (.cLdd 1 0 4) (mkSup j0))).core.job.live = false := by decide +kernel
theorem test_load_signs : let x : Acc := { id := 0, strm := .c, cls := 0, kind := .ld 2 true, runs := [(8, 1)] }
    (after (exec .accessPerform (mkM { j0 with acc := [x] } [(8, 0x80)]))).rs 2 = 0xFFFFFFFFFFFFFF80 := by decide +kernel
theorem test_saturating_add : let s := mk { j0 with vr := [(1, 0x7F)] }
    (after (exec (.vadds 2 1 1 0 .i8) { s with cores := s.cores.map fun p => (p.1, { p.2 with job := { p.2.job with q := [(0, BitVec.allOnes 1024)] } }) })).job.land.map
      (fun l => l.vs.map fun v => vElem 8 v.2.1 0) = [[0x7F]] := by decide +kernel

end Sys2Proof.Tests
end

namespace Sys2Proof.Machine

/-! Fields of a doubleword, bit by bit. -/
theorem bitOf_eq_getLsbD (w : W64) (k : Nat) : bitOf w k = w.getLsbD k := BitVec.testBit_toNat w

theorem testBit_fieldOf (w : W64) (lo len i : Nat) : (fieldOf w lo len).testBit i = (decide (i < len) && w.getLsbD (lo + i)) := by
  simp only [fieldOf, Nat.testBit_mod_two_pow, Nat.testBit_shiftRight, BitVec.testBit_toNat]

theorem fieldOf_congr {x y : W64} {lo len : Nat} (h : ∀ i < len, x.getLsbD (lo + i) = y.getLsbD (lo + i)) :
    fieldOf x lo len = fieldOf y lo len := by
  refine Nat.eq_of_testBit_eq fun i => ?_
  rw [testBit_fieldOf, testBit_fieldOf]
  by_cases hi : i < len
  · rw [h i hi]
  · simp [hi]

theorem fieldOf_lt (w : W64) (lo len : Nat) : fieldOf w lo len < 2 ^ len := Nat.mod_lt _ (Nat.two_pow_pos len)

theorem fieldOf_ofNat {v len : Nat} (hv : v < 2 ^ len) (hl : len ≤ 64) : fieldOf (BitVec.ofNat 64 v) 0 len = v := by
  have h64 : v < 2 ^ 64 := Nat.lt_of_lt_of_le hv (Nat.pow_le_pow_right (by decide) hl)
  rw [fieldOf, BitVec.toNat_ofNat, Nat.mod_eq_of_lt h64, Nat.shiftRight_zero, Nat.mod_eq_of_lt hv]

/-- The bits of a doubleword with a field replaced: in the field those of the new value, elsewhere the old ones. -/
theorem getLsbD_setField (w : W64) (lo len v i : Nat) (hi : i < 64) :
    (setField w lo len v).getLsbD i = if lo ≤ i ∧ i < lo + len then v.testBit (i - lo) else w.getLsbD i := by
  simp only [setField, BitVec.getLsbD_or, BitVec.getLsbD_and, BitVec.getLsbD_not, BitVec.getLsbD_ofNat, Nat.testBit_shiftLeft,
    Nat.testBit_two_pow_sub_one, Nat.testBit_mod_two_pow, hi]
  by_cases hlo : lo ≤ i
  · by_cases hlen : i < lo + len
    · simp [hlo, hlen, show i - lo < len by omega]
    · simp [hlo, hlen, show ¬ i - lo < len by omega]
  · simp [hlo]

theorem fieldOf_setField_same (w : W64) {lo len : Nat} (v : Nat) (h : lo + len ≤ 64) :
    fieldOf (setField w lo len v) lo len = v % 2 ^ len := by
  refine Nat.eq_of_testBit_eq fun i => ?_
  rw [testBit_fieldOf, Nat.testBit_mod_two_pow]
  by_cases hi : i < len
  · rw [getLsbD_setField _ _ _ _ _ (by omega), if_pos ⟨by omega, by omega⟩, Nat.add_sub_cancel_left]
  · simp [hi]

theorem fieldOf_setField_of_disjoint (w : W64) {lo len lo' len' : Nat} (v : Nat) (h : lo' + len' ≤ 64)
    (hd : lo' + len' ≤ lo ∨ lo + len ≤ lo') : fieldOf (setField w lo len v) lo' len' = fieldOf w lo' len' :=
  fieldOf_congr fun i hi => by rw [getLsbD_setField _ _ _ _ _ (by omega), if_neg (by omega)]

/-- A register write takes a field whole where every bit of it is RW. -/
theorem fieldOf_merged {a lo len : Nat} (old v : W64) (h : lo + len ≤ 64) (hm : ∀ i < len, (rwMask a).testBit (lo + i) = true) :
    fieldOf (merged a old v) lo len = fieldOf v lo len :=
  fieldOf_congr fun i hi => by
    simp only [merged, BitVec.getLsbD_or, BitVec.getLsbD_and, BitVec.getLsbD_not, BitVec.getLsbD_ofNat, hm i hi,
      show lo + i < 64 by omega, decide_true, Bool.and_true, Bool.not_true, Bool.and_false, Bool.or_false]

/-! Registers of a die. -/
@[simp] theorem Die.reg_setReg (d : Die) (a b : Nat) (v : W64) : (d.setReg a v).reg b = if b = a then v else d.reg b := by
  simp only [Die.reg, Die.setReg, spGet_spSet]

/-- A pair of registers is stored at its two addresses alone. -/
theorem Die.reg_setReg2 (d : Die) (a b v : Nat) (h0 : b ≠ a) (h1 : b ≠ a + 1) : (d.setReg2 a v).reg b = d.reg b := by
  rw [Die.setReg2, Die.reg_setReg, if_neg h1, Die.reg_setReg, if_neg h0]

/-! What bytes read as. -/
theorem byteAt_of_bonds {s t : State} (hm : t.mem = s.mem) (hb : ∀ n, (t.dieAt n).bonds = (s.dieAt n).bonds) (a : Nat) :
    t.byteAt a = s.byteAt a := by
  simp only [State.byteAt, hm, hb]

theorem byteAt_onDie (s : State) (n : Nat) {f : Die → Die} (hf : (f (s.dieAt n)).bonds = (s.dieAt n).bonds) (a : Nat) :
    (s.onDie n f).byteAt a = s.byteAt a := by
  refine byteAt_of_bonds (State.onDie_mem s n f) (fun m => ?_) a
  rw [State.dieAt_onDie]
  split
  · next h => rw [hf, h]
  · rfl

/-- Outside tile store nothing lies over memory (R372). -/
theorem byteAt_of_space {s : State} {a : Nat} (h : paSpace a ≠ 0) : s.byteAt a = memGet s.mem a := by rw [State.byteAt, if_neg h]

theorem peek_congr {s t : State} {a n : Nat} (h : ∀ i < n, t.byteAt (a + i) = s.byteAt (a + i)) : t.peek a n = s.peek a n := by
  induction n generalizing a with
  | zero => rfl
  | succ n ih =>
    have h0 : t.byteAt a = s.byteAt a := h 0 (Nat.succ_pos n)
    have hs : t.peek (a + 1) n = s.peek (a + 1) n := ih fun i hi => by
      have := h (i + 1) (by omega)
      rwa [show a + (i + 1) = a + 1 + i by omega] at this
    rw [State.peek, State.peek, h0, hs]

/-! Runs of numbers. -/
theorem mem_upFrom {x a n : Nat} : x ∈ upFrom a n ↔ a ≤ x ∧ x < a + n := by
  induction n generalizing a with
  | zero => simp only [upFrom, List.not_mem_nil, false_iff]; omega
  | succ n ih => simp only [upFrom, List.mem_cons, ih]; omega

/-- Dies of a run changed one after the other: each of them once, by its own place in the run. -/
theorem dieAt_each_onDie (f : Nat → Die → Die) (b a m n : Nat) (s : State) :
    (each (fun k s => s.onDie (b + k) (f k)) (upFrom a m) s).dieAt n =
      if b + a ≤ n ∧ n < b + a + m then f (n - b) (s.dieAt n) else s.dieAt n := by
  induction m generalizing a s with
  | zero => rw [if_neg (by omega)]; rfl
  | succ m ih =>
    rw [upFrom, each, ih, State.dieAt_onDie]
    by_cases h : n = b + a
    · subst h
      rw [if_neg (by omega), if_pos rfl, if_pos (by omega), Nat.add_sub_cancel_left]
    · by_cases hr : b + a ≤ n ∧ n < b + a + (m + 1)
      · rw [if_pos (by omega), if_neg h, if_pos hr]
      · rw [if_neg (by omega), if_neg h, if_neg hr]

/-! Memory read by its listed cells, and copies in it (R433). -/
theorem memGet_filter (q : Nat → Bool) (m : List Host.Cell) (j : Nat) :
    memGet (m.filter fun p => q p.1) j = if q j then memGet m j else memDefault := by
  induction m with
  | nil => simp [memGet]
  | cons p t ih =>
    obtain ⟨i, w⟩ := p
    rw [List.filter_cons]
    by_cases hij : i = j
    · subst hij; cases hq : q i <;> simp [memGet, hq, ih]
    · cases hq : q i <;> simp [memGet, hij, ih]

theorem memGet_of_not_listed {m : List Host.Cell} {k : Nat} (h : ∀ p ∈ m, p.1 ≠ k) : memGet m k = memDefault := by
  induction m with
  | nil => rfl
  | cons p t ih =>
    rw [memGet, if_neg (h p List.mem_cons_self), ih fun q hq => h q (List.mem_cons_of_mem _ hq)]

/-- In memory of canonical form every listed byte is the one read. -/
theorem memGet_of_mem {m : List Host.Cell} (hm : Memory.wf m = true) {p : Host.Cell} (hp : p ∈ m) : memGet m p.1 = p.2 := by
  obtain ⟨hlt, -⟩ := (wf_iff m).1 hm
  clear hm
  induction m with
  | nil => cases hp
  | cons q t ih =>
    rw [List.pairwise_cons] at hlt
    rw [memGet]
    rcases List.mem_cons.1 hp with rfl | ht
    · rw [if_pos rfl]
    · rw [if_neg (Nat.ne_of_lt (hlt.1 p ht)), ih ht hlt.2]

/-- Cells written one after the other leave every other address as it was. -/
theorem memGet_foldl_memPut_of_ne {l : List Host.Cell} {j : Nat} (h : ∀ p ∈ l, p.1 ≠ j) (m : List Host.Cell) :
    memGet (l.foldl (fun m p => memPut m p.1 p.2) m) j = memGet m j := by
  induction l generalizing m with
  | nil => rfl
  | cons p t ih =>
    rw [List.foldl_cons, ih (fun q hq => h q (List.mem_cons_of_mem _ hq)), memGet_memPut, if_neg (h p List.mem_cons_self).symm]

/-- Cells of different addresses written one after the other are read back. -/
theorem memGet_foldl_memPut_of_mem {l : List Host.Cell} (hl : l.Pairwise fun p q => p.1 < q.1) {p : Host.Cell} (hp : p ∈ l)
    (m : List Host.Cell) : memGet (l.foldl (fun m p => memPut m p.1 p.2) m) p.1 = p.2 := by
  induction l generalizing m with
  | nil => cases hp
  | cons q t ih =>
    rw [List.pairwise_cons] at hl
    rw [List.foldl_cons]
    rcases List.mem_cons.1 hp with rfl | ht
    · rw [memGet_foldl_memPut_of_ne (fun r hr => (Nat.ne_of_lt (hl.1 r hr)).symm), memGet_memPut, if_pos rfl]
    · exact ih hl.2 ht _

/-- The listed cells of a range, at the places to which they are copied. -/
def movedCells (m : List Host.Cell) (src dst n : Nat) : List Host.Cell :=
  (m.filter fun p => decide (src ≤ p.1) && decide (p.1 < src + n)).map fun p => (p.1 - src + dst, p.2)

theorem mem_movedCells {m : List Host.Cell} {src dst n : Nat} {q : Host.Cell} :
    q ∈ movedCells m src dst n ↔ ∃ p ∈ m, src ≤ p.1 ∧ p.1 < src + n ∧ q = (p.1 - src + dst, p.2) := by
  simp only [movedCells, List.mem_map, List.mem_filter, Bool.and_eq_true, decide_eq_true_eq, and_assoc]
  exact exists_congr fun p => and_congr_right fun _ => and_congr_right fun _ => and_congr_right fun _ => eq_comm

theorem pairwise_movedCells {m : List Host.Cell} (hm : Memory.wf m = true) (src dst n : Nat) :
    (movedCells m src dst n).Pairwise fun p q => p.1 < q.1 := by
  rw [movedCells, List.pairwise_map]
  refine (((wf_iff m).1 hm).1.filter _).imp_of_mem fun {p q} hp hq hlt => ?_
  have hsrc : src ≤ p.1 := by
    have := (List.mem_filter.1 hp).2
    simp only [Bool.and_eq_true, decide_eq_true_eq] at this
    exact this.1
  show p.1 - src + dst < q.1 - src + dst
  omega

theorem mem_copyRange (s : State) (src dst n : Nat) : (s.copyRange src dst n).mem =
    (movedCells s.mem src dst n).foldl (fun m p => memPut m p.1 p.2)
      (s.mem.filter fun p => !(decide (dst ≤ p.1) && decide (p.1 < dst + n))) := rfl

/-- The bytes of the source stand at the destination. -/
theorem memGet_copyRange_inside {s : State} (hs : s.Inv) (src dst : Nat) {n o : Nat} (ho : o < n) :
    memGet (s.copyRange src dst n).mem (dst + o) = memGet s.mem (src + o) := by
  rw [mem_copyRange]
  by_cases h : ∃ p ∈ s.mem, p.1 = src + o
  · obtain ⟨p, hp, hpo⟩ := h
    have hq : (dst + o, p.2) ∈ movedCells s.mem src dst n :=
      mem_movedCells.2 ⟨p, hp, by omega, by omega, by rw [hpo, Nat.add_sub_cancel_left, Nat.add_comm]⟩
    rw [memGet_foldl_memPut_of_mem (pairwise_movedCells hs src dst n) hq, ← hpo, memGet_of_mem hs hp]
  · have hne : ∀ q ∈ movedCells s.mem src dst n, q.1 ≠ dst + o := by
      rintro q hq hqo
      obtain ⟨p, hp, hlo, hhi, rfl⟩ := mem_movedCells.1 hq
      exact h ⟨p, hp, by simp only at hqo; omega⟩
    rw [memGet_foldl_memPut_of_ne hne, memGet_filter (fun a => !(decide (dst ≤ a) && decide (a < dst + n))),
      memGet_of_not_listed fun p hp e => h ⟨p, hp, e⟩,
      if_neg (by simp only [Bool.not_eq_true', Bool.not_eq_false, Bool.and_eq_true, decide_eq_true_eq]; omega)]

/-- A copy writes nothing but its destination. -/
theorem memGet_copyRange_outside (s : State) (src : Nat) {dst n a : Nat} (ha : a < dst ∨ dst + n ≤ a) :
    memGet (s.copyRange src dst n).mem a = memGet s.mem a := by
  have hne : ∀ q ∈ movedCells s.mem src dst n, q.1 ≠ a := by
    intro q hq
    obtain ⟨p, hp, hlo, hhi, rfl⟩ := mem_movedCells.1 hq
    show p.1 - src + dst ≠ a
    omega
  rw [mem_copyRange, memGet_foldl_memPut_of_ne hne, memGet_filter (fun a => !(decide (dst ≤ a) && decide (a < dst + n))),
    if_pos (by simp only [Bool.not_eq_true', Bool.and_eq_false_iff, decide_eq_false_iff_not]; omega)]

@[simp] theorem dieAt_copyRange (s : State) (src dst n g : Nat) : (s.copyRange src dst n).dieAt g = s.dieAt g := rfl

/-! The ring station (R58, R59). -/
/-- RSCFG as a write of v stores it: SEGSZ and RUN. -/
def rscfgWord (v : W64) : W64 := setField (BitVec.ofNat 64 (fieldOf v 0 3)) 63 1 (if bitOf v 63 then 1 else 0)

theorem bitOf_rscfgWord (v : W64) : bitOf (rscfgWord v) 63 = bitOf v 63 := by
  rw [bitOf_eq_getLsbD, rscfgWord, getLsbD_setField _ _ _ _ _ (by decide), if_pos (by decide)]
  cases bitOf v 63 <;> rfl

theorem fieldOf_rscfgWord (v : W64) : fieldOf (rscfgWord v) 0 3 = fieldOf v 0 3 := by
  rw [rscfgWord, fieldOf_setField_of_disjoint _ _ (by decide) (by decide), fieldOf_ofNat (fieldOf_lt v 0 3) (by decide)]

/-- RSCFG stored, with nothing done yet of what it starts or stops. -/
def State.rscfgPut (s : State) (g : Nat) (v : W64) : State := s.onDie g fun d => d.setReg 0x301 (rscfgWord v)

theorem rscfg_of_run {s : State} {g : Nat} {v : W64} (hv : bitOf v 63 = true) (hr : stationRuns (s.dieAt g) = false)
    (hs : fieldOf v 0 3 ≤ 4) (hp : rsPeriod (s.dieAt g) ≠ 0) : s.rscfg g v = (s.rscfgPut g v).stationStart g := by
  unfold stationRuns at hr
  simp [State.rscfg, State.rscfgPut, rscfgWord, hv, hr, hp, Nat.not_lt.2 hs]

theorem rscfg_of_stop {s : State} {g : Nat} {v : W64} (hv : bitOf v 63 = false) (hr : stationRuns (s.dieAt g) = true)
    (he : fieldOf v 0 3 = fieldOf ((s.dieAt g).reg 0x301) 0 3) (hs : fieldOf v 0 3 ≤ 4) :
    s.rscfg g v = (s.rscfgPut g v).stationStop g := by
  unfold stationRuns at hr
  simp [State.rscfg, State.rscfgPut, rscfgWord, hv, hr, ← he, Nat.not_lt.2 hs]

/-- A write of RSCFG with a SEGSZ that is not assigned is ignored. -/
theorem rscfg_of_size {s : State} {g : Nat} {v : W64} (hs : 4 < fieldOf v 0 3) : s.rscfg g v = s := by
  simp [State.rscfg, hs]

/-- A station that runs takes no write but one that clears RUN and keeps SEGSZ. -/
theorem rscfg_of_running {s : State} {g : Nat} {v : W64} (hr : stationRuns (s.dieAt g) = true)
    (h : bitOf v 63 = true ∨ fieldOf v 0 3 ≠ fieldOf ((s.dieAt g).reg 0x301) 0 3) : s.rscfg g v = s := by
  unfold stationRuns at hr
  rcases h with h | h <;> simp [State.rscfg, hr, h]

/-- A station without a period does not start. -/
theorem rscfg_of_period {s : State} {g : Nat} {v : W64} (hv : bitOf v 63 = true) (hp : rsPeriod (s.dieAt g) = 0) : s.rscfg g v = s := by
  simp [State.rscfg, hv, hp]

/-- The first rotation, of period p from base on, that has not begun before tick x (R59). -/
def firstRotation (base p x : Nat) : Nat := if x ≤ base then 0 else (x - base + p - 1) / p

theorem le_firstRotation (base x : Nat) {p : Nat} (hp : p ≠ 0) : x ≤ base + firstRotation base p x * p := by
  unfold firstRotation
  split
  · omega
  · have hlt : x - base + p - 1 < ((x - base + p - 1) / p + 1) * p := by
      rw [Nat.mul_comm]; exact Nat.lt_mul_div_succ _ (Nat.pos_of_ne_zero hp)
    rw [Nat.succ_mul] at hlt
    omega

theorem firstRotation_pred_lt {base p x : Nat} (h : 0 < firstRotation base p x) : base + (firstRotation base p x - 1) * p < x := by
  unfold firstRotation at *
  split at h
  · omega
  · next hx =>
    rw [if_neg hx]
    have hle : (x - base + p - 1) / p * p ≤ x - base + p - 1 := Nat.div_mul_le_self _ _
    obtain ⟨q, hq⟩ : ∃ q, (x - base + p - 1) / p = q + 1 := Nat.exists_eq_succ_of_ne_zero (by omega)
    rw [hq, Nat.succ_mul] at hle
    rw [hq, Nat.add_sub_cancel]
    omega

@[simp] theorem dieAt_rscfgPut (s : State) (g : Nat) (v : W64) : (s.rscfgPut g v).dieAt g = (s.dieAt g).setReg 0x301 (rscfgWord v) := by
  rw [State.rscfgPut, State.dieAt_onDie, if_pos rfl]

/-- A die whose station starts at tick x (R58, R59, R70). -/
def Die.started (d : Die) (x : Nat) : Die := { d with n0 := firstRotation (d.reg 0x302).toNat (rsPeriod d) x, ents := [], wc := [] }

@[simp] theorem Die.reg_started (d : Die) (x a : Nat) : (d.started x).reg a = d.reg a := rfl

theorem Die.n0_started_setReg (d : Die) (v : W64) (x : Nat) :
    ((d.setReg 0x301 v).started x).n0 = firstRotation (d.reg 0x302).toNat (rsPeriod d) x := by
  simp only [Die.started, rsPeriod, Die.reg_setReg]
  rfl

theorem stationStart_eq (s : State) (g : Nat) : s.stationStart g = s.onDie g fun d => d.started (s.tickOf g).toNat := rfl

theorem dieAt_stationStart (s : State) (g : Nat) : (s.stationStart g).dieAt g = (s.dieAt g).started (s.tickOf g).toNat := by
  rw [stationStart_eq, State.dieAt_onDie, if_pos rfl]

/-- A frame that a station's stop leaves as it is, landing or retained, or frees (R59). -/
def Frame.stopped (f : Frame) : Frame := if f.st == 4 || f.st == 1 then f else { f with st := 0 }

theorem spFind_map {α : Type} (h : α → α) (t : Sp α) (k : Nat) :
    spFind (t.map fun p => (p.1, h p.2)) k = (spFind t k).map h := by
  induction t with
  | nil => rfl
  | cons p t ih =>
    obtain ⟨j, v⟩ := p
    simp only [List.map_cons, spFind, ih]
    split <;> rfl

/-- A die whose station's stop has freed its landed and open frames (R59). -/
def Die.stopped (d : Die) : Die := { d with frames := d.frames.map fun p => (p.1, p.2.stopped), ents := [] }

@[simp] theorem Die.reg_stopped (d : Die) (a : Nat) : d.stopped.reg a = d.reg a := rfl

/-- What a stop changes: the frames and entries of the die, and the copies that are on their way to it. -/
theorem stationStop_eq (s : State) (g : Nat) : s.stationStop g = { s.onDie g Die.stopped with
    segs := s.segs.map fun x => if x.dst = g ∧ x.begun = true then { x with prog := true } else x } := by
  have hf : (fun p : Nat × Frame => if p.2.st == 4 || p.2.st == 1 then p else (p.1, { p.2 with st := 0 })) =
      fun p => (p.1, p.2.stopped) := by
    funext p; unfold Frame.stopped; split <;> rfl
  simp only [State.stationStop, hf, State.onDie_segs, Bool.and_eq_true, beq_iff_eq]
  rfl

theorem dieAt_stationStop (s : State) (g : Nat) : (s.stationStop g).dieAt g = (s.dieAt g).stopped := by
  rw [stationStop_eq]
  show (s.onDie g Die.stopped).dieAt g = _
  rw [State.dieAt_onDie, if_pos rfl]

theorem segs_stationStop (s : State) (g : Nat) :
    (s.stationStop g).segs = s.segs.map fun x => if x.dst = g ∧ x.begun = true then { x with prog := true } else x := by
  rw [stationStop_eq]

theorem st_frameAt_stopped (d : Die) (f : Nat) : (frameAt d.stopped f).st =
    if (frameAt d f).st = 1 ∨ (frameAt d f).st = 4 then (frameAt d f).st else 0 := by
  have hs : frameAt d.stopped f = (frameAt d f).stopped := by
    rw [frameAt, Die.stopped, spGet, spFind_map, frameAt, spGet]
    cases spFind d.frames f <;> rfl
  rw [hs, Frame.stopped]
  by_cases h1 : (frameAt d f).st = 1
  · simp [h1]
  · by_cases h4 : (frameAt d f).st = 4 <;> simp [h1, h4]

/-- RSCFG is no part of what a byte reads as. -/
theorem byteAt_rscfgPut (s : State) (g : Nat) (v : W64) (a : Nat) : (s.rscfgPut g v).byteAt a = s.byteAt a := byteAt_onDie s g rfl a

theorem byteAt_stationStart (s : State) (g a : Nat) : (s.stationStart g).byteAt a = s.byteAt a := byteAt_onDie s g rfl a

theorem byteAt_stationStop (s : State) (g a : Nat) : (s.stationStop g).byteAt a = s.byteAt a := by
  rw [stationStop_eq]
  exact byteAt_onDie s g (f := Die.stopped) rfl a

/-! WLOAD (R433). -/
/-- A copy counts no slow-tier access of a die that has given no slow-tier range (R103). -/
theorem slowCopy_of_no_range {s : State} {g : Nat} (h : (s.dieAt g).reg2 0x30A = 0) (src n : Nat) : s.slowCopy g src n = s := by
  rw [State.slowCopy, h]
  split
  · next hc =>
    have hlt : src < 2 * 2 ^ 52 := by
      simp [bitsAt] at hc
      omega
    rw [State.slow, if_neg]
    have : paSpace src < 2 := Nat.div_lt_of_lt_mul (by omega)
    simp only [Bool.and_eq_true, decide_eq_true_eq]
    omega
  · rfl

/-- A home frame is one that a timetable entry can name (Table 3-6). -/
theorem lt_of_homeFrame {s : State} {g f : Nat} (h : homeFrame s g f = true) : f < 256 := by
  obtain ⟨e, he⟩ := Option.isSome_iff_exists.1 h
  have hf := List.find?_some he
  simp only [Bool.and_eq_true, beq_iff_eq] at hf
  rw [← hf.2]
  exact fieldOf_lt _ 0 8

/-- Which frames are home frames depends on the timetable and its length alone. -/
theorem homeFrame_congr {s t : State} {g : Nat} (hl : ttLen (t.dieAt g) = ttLen (s.dieAt g))
    (hp : ∀ a, ctlPa g 0 ≤ a → t.byteAt a = s.byteAt a) (f : Nat) : homeFrame t g f = homeFrame s g f := by
  have ht : ∀ e, ttEnt t g e = ttEnt s g e := fun e => by
    rw [ttEnt, ttEnt, peek_congr fun i _ => hp _ (by unfold ctlPa; omega)]
  simp only [homeFrame, homeEntry, hl, ht]

theorem segSz_le (d : Die) : segSz d ≤ 2 ^ 31 := by
  have h : fieldOf (d.reg 0x301) 0 3 < 8 := fieldOf_lt _ 0 3
  calc segSz d ≤ 0x1000000 * 2 ^ 7 := Nat.mul_le_mul_left _ (Nat.pow_le_pow_right (by decide) (by omega))
    _ = 2 ^ 31 := by decide

/-- A segment loaded into a serai frame changes no home frame: the timetable lies beyond the serai (Table 4-1). -/
theorem homeFrame_copyRange {s : State} {g : Nat} (hg : g < 2048) (src f : Nat) :
    homeFrame (s.copyRange src (seraiPa g (f * segSz (s.dieAt g))) (segSz (s.dieAt g))) g f = homeFrame s g f := by
  by_cases hf : f < 256
  · refine homeFrame_congr (by rw [dieAt_copyRange]) (fun a ha => ?_) f
    have hend : seraiPa g (f * segSz (s.dieAt g)) + segSz (s.dieAt g) ≤ a := by
      have hn := segSz_le (s.dieAt g)
      have hfn : f * segSz (s.dieAt g) ≤ 255 * 2 ^ 31 := Nat.mul_le_mul (by omega) hn
      unfold seraiPa
      unfold ctlPa at ha
      omega
    have hspace : paSpace a ≠ 0 := by
      have : 3 ≤ paSpace a := (Nat.le_div_iff_mul_le (by decide)).2 (by unfold ctlPa at ha; omega)
      omega
    rw [byteAt_of_space hspace, byteAt_of_space hspace, memGet_copyRange_outside _ _ (.inr hend)]
  · rw [Bool.eq_false_iff.2 fun h => hf (lt_of_homeFrame h), Bool.eq_false_iff.2 fun h => hf (lt_of_homeFrame h)]

/-- A die whose ERRQ pair holds a new value, with nothing else changed (R413). -/
def Die.errqPut (k : Nat) (d : Die) : Die := { d with cr := (d.setReg2 0x315 k).cr }

theorem Die.reg_errqPut (d : Die) (k : Nat) {a : Nat} (h0 : a ≠ 0x315) (h1 : a ≠ 0x316) : (d.errqPut k).reg a = d.reg a :=
  d.reg_setReg2 0x315 a k h0 h1

@[simp] theorem Die.frames_errqPut (d : Die) (k : Nat) : (d.errqPut k).frames = d.frames := rfl

/-- An error record that finds no error queue written is counted in LOST and nothing else (R413). -/
theorem err_of_unwritten {s : State} {g : Nat} (h0 : 0x315 ∉ (s.dieAt g).wrote) (h1 : 0x316 ∉ (s.dieAt g).wrote)
    (core kind sub cause addr aux : Nat) (body : List Byte) :
    ∃ k, s.err g core kind sub cause addr aux body = s.onDie g (Die.errqPut k) := by
  rw [State.err, if_neg (by simp [h0, h1])]
  exact ⟨_, rfl⟩

/-- A frame that a load has filled is marked, unless it is a home frame (R433). -/
def State.markLoaded (s : State) (g f : Nat) : State :=
  if homeFrame s g f then s else s.onFrame g f fun fr => { fr with loaded := true }

theorem markLoaded_of_home {s : State} {g f : Nat} (h : homeFrame s g f = true) : s.markLoaded g f = s := if_pos h

theorem loaded_markLoaded {s : State} {g f : Nat} (h : homeFrame s g f = false) :
    (frameAt ((s.markLoaded g f).dieAt g) f).loaded = true := by
  rw [State.markLoaded, h, State.onFrame, if_neg Bool.false_ne_true, State.dieAt_onDie, if_pos rfl, frameAt, spGet_spSet_same]

@[simp] theorem mem_markLoaded (s : State) (g f : Nat) : (s.markLoaded g f).mem = s.mem := by
  unfold State.markLoaded; split <;> rfl

theorem wrote_markLoaded (s : State) (g f : Nat) : ((s.markLoaded g f).dieAt g).wrote = (s.dieAt g).wrote := by
  unfold State.markLoaded State.onFrame
  split
  · rfl
  · rw [State.dieAt_onDie, if_pos rfl]

/-- WLOAD.STATE of a die shows a load that is done. -/
def Die.wloadDone (d : Die) : Die := { d.setReg 0x31A (setField (d.reg 0x31A) 56 2 2) with wload := none }

@[simp] theorem Die.reg_wloadDone (d : Die) : d.wloadDone.reg 0x31A = setField (d.reg 0x31A) 56 2 2 :=
  (d.reg_setReg 0x31A 0x31A _).trans (if_pos rfl)

@[simp] theorem Die.frames_wloadDone (d : Die) : d.wloadDone.frames = d.frames := rfl

/-- The state in which the segment of a load stands in its frame, and the frame is marked. -/
def State.loadSegment (s : State) (g src f : Nat) : State :=
  (s.copyRange src (seraiPa g (f * segSz (s.dieAt g))) (segSz (s.dieAt g))).markLoaded g f

@[simp] theorem mem_loadSegment (s : State) (g src f : Nat) :
    (s.loadSegment g src f).mem = (s.copyRange src (seraiPa g (f * segSz (s.dieAt g))) (segSz (s.dieAt g))).mem :=
  mem_markLoaded _ g f

/-- A load completes (R433), where no agent counts its lines and no queue takes its record. -/
theorem exec_wloadComplete {s : State} {g src f tag : Nat} (hg : s.here.die = g) (hw : (s.dieAt g).wload = some (src, f, tag))
    (hr : (s.dieAt g).reg2 0x30A = 0) (hn : (s.dieAt g).wrote = []) :
    ∃ k, exec .wloadComplete s = .next (((s.loadSegment g src f).onDie g Die.wloadDone).onDie g (Die.errqPut k)) := by
  have hwrote : (((s.loadSegment g src f).onDie g Die.wloadDone).dieAt g).wrote = [0x31A] := by
    have hl : ((s.loadSegment g src f).dieAt g).wrote = [] := by rw [State.loadSegment, wrote_markLoaded, dieAt_copyRange, hn]
    rw [State.dieAt_onDie, if_pos rfl, Die.wloadDone, Die.setReg, hl]
    rfl
  have hexec : exec .wloadComplete s =
      .next (((s.loadSegment g src f).onDie g Die.wloadDone).err g noCore 0x36 0 0 src (tag * 2 ^ 32 + f)) := by
    show execWloadComplete s = _
    simp only [execWloadComplete, hg, hw]
    rw [slowCopy_of_no_range (s := s.copyRange _ _ _) (by rw [dieAt_copyRange, hr])]
    rfl
  obtain ⟨k, hk⟩ := err_of_unwritten (by rw [hwrote]; decide) (by rw [hwrote]; decide) noCore 0x36 0 0 src (tag * 2 ^ 32 + f) []
  exact ⟨k, by rw [hexec, hk]⟩

theorem exec_wloadComplete_of_none {s : State} (hw : (s.dieAt s.here.die).wload = none) : exec .wloadComplete s = .next s := by
  show execWloadComplete s = _
  simp only [execWloadComplete, hw]

/-! RPAIR and RINGCFG (R434, R376). -/
/-- The pair that RPAIR of a die names. -/
def State.pairOf (s : State) (n : Nat) : Nat := fieldOf ((s.dieAt n).reg 0x405) 0 4

/-- The die at place k of its package, once the package's eight RPAIR agree on w: it stays bypassed where w names it. -/
def Die.endBypass (w k : Nat) (d : Die) : Die := { d with bypassed := d.bypassed && w == 8 + k }

theorem dieAt_dieReg (s : State) (g a n : Nat) (v : W64) :
    (s.dieReg g a v).dieAt n = if n = g then (s.dieAt g).setReg a (merged a ((s.dieAt g).reg a) v) else s.dieAt n :=
  State.dieAt_onDie s g n _

theorem bypassed_dieReg (s : State) (g a n : Nat) (v : W64) : ((s.dieReg g a v).dieAt n).bypassed = (s.dieAt n).bypassed := by
  rw [dieAt_dieReg]
  split
  · next h => rw [h]; rfl
  · rfl

theorem reg_dieReg_same (s : State) (g a : Nat) (v : W64) :
    ((s.dieReg g a v).dieAt g).reg a = merged a ((s.dieAt g).reg a) v := by
  rw [dieAt_dieReg, if_pos rfl, Die.reg_setReg, if_pos rfl]

theorem reg_dieReg_of_ne (s : State) (g : Nat) {a b : Nat} (v : W64) (h : b ≠ a) :
    ((s.dieReg g a v).dieAt g).reg b = (s.dieAt g).reg b := by
  rw [dieAt_dieReg, if_pos rfl, Die.reg_setReg, if_neg h]

theorem pairOf_dieReg_same (s : State) (g : Nat) (v : W64) : (s.dieReg g 0x405 v).pairOf g = fieldOf v 0 4 := by
  rw [State.pairOf, reg_dieReg_same, fieldOf_merged _ _ (by decide) (by decide)]

theorem pairOf_dieReg_of_ne (s : State) {g n : Nat} (v : W64) (h : n ≠ g) : (s.dieReg g 0x405 v).pairOf n = s.pairOf n := by
  rw [State.pairOf, dieAt_dieReg, if_neg h, State.pairOf]

/-- A write of RPAIR is stored; then bypasses end where the eight dies of the package agree (log entry 47). -/
theorem rootWrite_rpair (s : State) (g core : Nat) (v : W64) : s.rootWrite g core 0x405 v =
    if (upFrom 0 8).all fun k => (s.dieReg g 0x405 v).pairOf (g / 8 * 8 + k) == (s.dieReg g 0x405 v).pairOf (g / 8 * 8 + 0) then
      each (fun k t => t.onDie (g / 8 * 8 + k) (Die.endBypass ((s.dieReg g 0x405 v).pairOf (g / 8 * 8 + 0)) k)) (upFrom 0 8)
        (s.dieReg g 0x405 v)
    else s.dieReg g 0x405 v := rfl

theorem rootWrite_rpair_of_agree {s : State} {g w : Nat} (core : Nat) {v : W64}
    (h : ∀ k < 8, (s.dieReg g 0x405 v).pairOf (8 * (g / 8) + k) = w) : s.rootWrite g core 0x405 v =
      each (fun k t => t.onDie (8 * (g / 8) + k) (Die.endBypass w k)) (upFrom 0 8) (s.dieReg g 0x405 v) := by
  rw [rootWrite_rpair, Nat.mul_comm, h 0 (by decide), if_pos]
  rw [List.all_eq_true]
  intro k hk
  rw [h k (by have := mem_upFrom.1 hk; omega), beq_self_eq_true]

theorem rootWrite_rpair_of_differ {s : State} {g j k : Nat} (core : Nat) {v : W64} (hj : j < 8) (hk : k < 8)
    (h : (s.dieReg g 0x405 v).pairOf (8 * (g / 8) + j) ≠ (s.dieReg g 0x405 v).pairOf (8 * (g / 8) + k)) :
    s.rootWrite g core 0x405 v = s.dieReg g 0x405 v := by
  rw [rootWrite_rpair, Nat.mul_comm, if_neg]
  intro hall
  simp only [List.all_eq_true, beq_iff_eq] at hall
  exact h ((hall j (mem_upFrom.2 ⟨j.zero_le, by omega⟩)).trans (hall k (mem_upFrom.2 ⟨k.zero_le, by omega⟩)).symm)

/-- What ends with the write is bypasses alone: registers stand as stored. -/
theorem reg_rootWrite_rpair (s : State) (g core n a : Nat) (v : W64) :
    ((s.rootWrite g core 0x405 v).dieAt n).reg a = ((s.dieReg g 0x405 v).dieAt n).reg a := by
  rw [rootWrite_rpair]
  split
  · rw [dieAt_each_onDie]
    split <;> rfl
  · rfl

/-- RINGCFG takes a write whose MODE is not 3. -/
theorem rootWrite_ringcfg {v : W64} (h : fieldOf v 0 2 ≠ 3) (s : State) (g core : Nat) :
    s.rootWrite g core 0x402 v = s.dieReg g 0x402 v := by
  simp [State.rootWrite, h]

/-- A MODE of 3 is ignored. -/
theorem rootWrite_ringcfg_of_mode {v : W64} (h : fieldOf v 0 2 = 3) (s : State) (g core : Nat) : s.rootWrite g core 0x402 v = s := by
  simp [State.rootWrite, h]

/-- What root firmware would write happens where it runs (R390), and nothing where it does not. -/
theorem when_imgRoot {s : State} {l : List Byte} (h : l ≠ []) (t : State) : s.when (!l.isEmpty) t = .next t := by
  simp [State.when, h]

theorem when_no_imgRoot {s : State} {l : List Byte} (h : l = []) (t : State) : s.when (!l.isEmpty) t = .next s := by
  simp [State.when, h]

/-! The clauses of RingStations. -/
theorem exec_ringStationRun {s : State} (h : bitOf s.here.v 63 = true) :
    exec .ringStationRun s = .next (s.rscfg s.here.die s.here.v) := by
  show execRingStationRun s = _
  rw [execRingStationRun, State.when, if_pos h]

theorem exec_ringStationRun_of_clear {s : State} (h : bitOf s.here.v 63 = false) : exec .ringStationRun s = .next s := by
  show execRingStationRun s = _
  rw [execRingStationRun, State.when, h, if_neg Bool.false_ne_true]

theorem exec_ringStationStop {s : State} (h : bitOf s.here.v 63 = false) :
    exec .ringStationStop s = .next (s.rscfg s.here.die s.here.v) := by
  show execRingStationStop s = _
  rw [execRingStationStop, State.when, h, if_pos (by decide)]

theorem exec_ringStationStop_of_set {s : State} (h : bitOf s.here.v 63 = true) : exec .ringStationStop s = .next s := by
  show execRingStationStop s = _
  rw [execRingStationStop, State.when, h, if_neg (by decide)]

/-- RUN set at a stopped station (R58, R59): it runs from the first rotation that has not begun, with no entry presented. -/
theorem ringStationRun_starts {s : State} {g : Nat} {v : W64} (hg : s.here.die = g) (hhv : s.here.v = v) (hv : bitOf v 63 = true)
    (hr : stationRuns (s.dieAt g) = false) (hs : fieldOf v 0 3 ≤ 4) (hp : rsPeriod (s.dieAt g) ≠ 0) :
    ∃ t, exec .ringStationRun s = .next t ∧ stationRuns (t.dieAt g) = true ∧ segSz (t.dieAt g) = 0x1000000 * 2 ^ fieldOf v 0 3 ∧
      (t.dieAt g).ents = [] ∧ (t.dieAt g).wc = [] ∧ (t.dieAt g).frames = (s.dieAt g).frames ∧
      (s.tickOf g).toNat ≤ rotTick (s.dieAt g) (t.dieAt g).n0 0 ∧
      (0 < (t.dieAt g).n0 → rotTick (s.dieAt g) ((t.dieAt g).n0 - 1) 0 < (s.tickOf g).toNat) ∧ ∀ a, t.byteAt a = s.byteAt a := by
  subst hg hhv
  refine ⟨_, by rw [exec_ringStationRun hv, rscfg_of_run hv hr hs hp], ?_⟩
  rw [dieAt_stationStart, dieAt_rscfgPut, Die.n0_started_setReg]
  refine ⟨?_, ?_, rfl, rfl, rfl, le_firstRotation _ _ hp, firstRotation_pred_lt, fun a => ?_⟩
  · rw [stationRuns, Die.reg_started, Die.reg_setReg, if_pos rfl, bitOf_rscfgWord, hv]
  · rw [segSz, Die.reg_started, Die.reg_setReg, if_pos rfl, fieldOf_rscfgWord]
  · rw [byteAt_stationStart, byteAt_rscfgPut]

/-- RUN cleared at a station that runs (R59): landed and open frames are free, and the copies on their way are marked. -/
theorem ringStationStop_stops {s : State} {g : Nat} {v : W64} (hg : s.here.die = g) (hhv : s.here.v = v) (hv : bitOf v 63 = false)
    (hr : stationRuns (s.dieAt g) = true) (he : fieldOf v 0 3 = fieldOf ((s.dieAt g).reg 0x301) 0 3) (hs : fieldOf v 0 3 ≤ 4) :
    ∃ t, exec .ringStationStop s = .next t ∧ stationRuns (t.dieAt g) = false ∧ segSz (t.dieAt g) = segSz (s.dieAt g) ∧
      (∀ f, (frameAt (t.dieAt g) f).st =
        if (frameAt (s.dieAt g) f).st = 1 ∨ (frameAt (s.dieAt g) f).st = 4 then (frameAt (s.dieAt g) f).st else 0) ∧
      (t.dieAt g).ents = [] ∧ (∀ a, t.byteAt a = s.byteAt a) ∧
      t.segs = s.segs.map fun x => if x.dst = g ∧ x.begun = true then { x with prog := true } else x := by
  subst hg hhv
  refine ⟨_, by rw [exec_ringStationStop hv, rscfg_of_stop hv hr he hs], ?_⟩
  rw [dieAt_stationStop, dieAt_rscfgPut]
  refine ⟨?_, ?_, st_frameAt_stopped _, rfl, fun a => ?_, segs_stationStop _ _⟩
  · rw [stationRuns, Die.reg_stopped, Die.reg_setReg, if_pos rfl, bitOf_rscfgWord, hv]
  · rw [segSz, Die.reg_stopped, Die.reg_setReg, if_pos rfl, fieldOf_rscfgWord, he, segSz]
  · rw [byteAt_stationStop, byteAt_rscfgPut]

/-- A load that completes has copied its segment, changed no other byte, and occupies its frame (R433). -/
theorem wloadComplete_copies {s : State} {g src f tag : Nat} (hg : s.here.die = g) (hw : (s.dieAt g).wload = some (src, f, tag))
    (hs : s.Inv) (hlt : g < 2048) (hr : (s.dieAt g).reg2 0x30A = 0) (hn : (s.dieAt g).wrote = []) :
    ∃ t, exec .wloadComplete s = .next t ∧ fieldOf ((t.dieAt g).reg 0x31A) 56 2 = 2 ∧ (t.dieAt g).wload = none ∧
      (∀ o < segSz (s.dieAt g), memGet t.mem (seraiPa g (f * segSz (s.dieAt g)) + o) = memGet s.mem (src + o)) ∧
      (∀ a, a < seraiPa g (f * segSz (s.dieAt g)) ∨ seraiPa g (f * segSz (s.dieAt g)) + segSz (s.dieAt g) ≤ a →
        memGet t.mem a = memGet s.mem a) ∧
      (homeFrame s g f = false → (frameAt (t.dieAt g) f).loaded = true) ∧
      (homeFrame s g f = true → (t.dieAt g).frames = (s.dieAt g).frames) := by
  obtain ⟨k, he⟩ := exec_wloadComplete hg hw hr hn
  have hhome := homeFrame_copyRange (s := s) hlt src f
  refine ⟨_, he, ?_⟩
  simp only [State.onDie_mem, mem_loadSegment, State.dieAt_onDie, if_true]
  refine ⟨?_, rfl, fun o ho => memGet_copyRange_inside hs _ _ ho, fun a ha => memGet_copyRange_outside _ _ ha, fun hf => ?_, fun hf => ?_⟩
  · rw [Die.reg_errqPut _ _ (by decide) (by decide), Die.reg_wloadDone, fieldOf_setField_same _ _ (by decide),
      Nat.mod_eq_of_lt (by decide)]
  · rw [frameAt, Die.frames_errqPut, Die.frames_wloadDone, ← frameAt]
    exact loaded_markLoaded (hhome.trans hf)
  · rw [Die.frames_errqPut, Die.frames_wloadDone, State.loadSegment, markLoaded_of_home (hhome.trans hf), dieAt_copyRange]

/-- RPAIR takes its field from root firmware (R434), and bypasses of the package end where its eight registers agree on none, or on another
die (log entry 47). -/
theorem rpair_takes {s : State} {g : Nat} {v : W64} (hg : s.here.die = g) (hhv : s.here.v = v) (hi : (s.dieAt g).imgRoot ≠ []) :
    ∃ t, exec .rpair s = .next t ∧ fieldOf ((t.dieAt g).reg 0x405) 0 4 = fieldOf v 0 4 ∧
      (∀ a, a ≠ 0x405 → (t.dieAt g).reg a = (s.dieAt g).reg a) ∧
      ((∀ k < 8, 8 * (g / 8) + k ≠ g → fieldOf ((s.dieAt (8 * (g / 8) + k)).reg 0x405) 0 4 = fieldOf v 0 4) →
        ∀ k < 8, (t.dieAt (8 * (g / 8) + k)).bypassed = ((s.dieAt (8 * (g / 8) + k)).bypassed && decide (fieldOf v 0 4 = 8 + k))) ∧
      ((∃ k < 8, 8 * (g / 8) + k ≠ g ∧ fieldOf ((s.dieAt (8 * (g / 8) + k)).reg 0x405) 0 4 ≠ fieldOf v 0 4) →
        ∀ n, (t.dieAt n).bypassed = (s.dieAt n).bypassed) := by
  subst hhv
  have hexec : exec .rpair s = .next (s.rootWrite g s.here.core 0x405 s.here.v) := by
    subst hg
    exact when_imgRoot hi _
  refine ⟨_, hexec, ?_, fun a ha => ?_, fun hall k hk => ?_, fun ⟨k, hk, hne, hdiff⟩ n => ?_⟩
  · rw [reg_rootWrite_rpair]
    exact pairOf_dieReg_same s g s.here.v
  · rw [reg_rootWrite_rpair, reg_dieReg_of_ne _ _ _ ha]
  · have hagree : ∀ j < 8, (s.dieReg g 0x405 s.here.v).pairOf (8 * (g / 8) + j) = fieldOf s.here.v 0 4 := fun j hj => by
      by_cases hj' : 8 * (g / 8) + j = g
      · rw [hj', pairOf_dieReg_same]
      · rw [pairOf_dieReg_of_ne _ _ hj']
        exact hall j hj hj'
    rw [rootWrite_rpair_of_agree _ hagree, dieAt_each_onDie, if_pos (by omega), Nat.add_sub_cancel_left, Die.endBypass,
      bypassed_dieReg, Bool.beq_eq_decide_eq]
  · have hself : 8 * (g / 8) + g % 8 = g := Nat.div_add_mod g 8
    rw [rootWrite_rpair_of_differ _ hk (Nat.mod_lt g (by decide)), bypassed_dieReg]
    rw [hself, pairOf_dieReg_same, pairOf_dieReg_of_ne _ _ hne]
    exact hdiff

/-- RINGCFG takes MODE, PLACE and PKGM1 from root firmware (R376). -/
theorem ringcfgWrite_takes {s : State} {g : Nat} {v : W64} (hg : s.here.die = g) (hhv : s.here.v = v) (hi : (s.dieAt g).imgRoot ≠ [])
    (hm : fieldOf v 0 2 ≠ 3) : ∃ t, exec .ringcfgWrite s = .next t ∧ fieldOf ((t.dieAt g).reg 0x402) 0 2 = fieldOf v 0 2 ∧
      fieldOf ((t.dieAt g).reg 0x402) 32 16 = fieldOf v 32 16 ∧ ∀ a, a ≠ 0x402 → (t.dieAt g).reg a = (s.dieAt g).reg a := by
  subst hg hhv
  have hexec : exec .ringcfgWrite s = .next (s.dieReg s.here.die 0x402 s.here.v) :=
    (when_imgRoot hi _).trans (by rw [rootWrite_ringcfg hm])
  refine ⟨_, hexec, ?_, ?_, fun a ha => reg_dieReg_of_ne _ _ _ ha⟩
  · rw [reg_dieReg_same, fieldOf_merged _ _ (by decide) (by decide)]
  · rw [reg_dieReg_same, fieldOf_merged _ _ (by decide) (by decide)]

/-- Settles O51: the branches of a write of RSCFG, the load that completes, and the two root registers, one lemma each. -/
theorem ringStations : Obligations.RingStations := by
  unfold Obligations.RingStations
  intro s g d v
  refine ⟨exec_ringStationRun_of_clear, exec_ringStationStop_of_set, ringStationRun_starts rfl rfl, fun hv h => ?_, fun hv h => ?_,
    ringStationStop_stops rfl rfl, ⟨exec_wloadComplete_of_none, fun src f tag => wloadComplete_copies rfl⟩,
    rpair_takes rfl rfl, fun hi => ⟨when_no_imgRoot hi _, when_no_imgRoot hi _⟩, fun hm => ?_, ringcfgWrite_takes rfl rfl⟩
  · rw [exec_ringStationRun hv]
    rcases h with hr | hp | hs
    · rw [rscfg_of_running hr (.inl hv)]
    · rw [rscfg_of_period hv hp]
    · rw [rscfg_of_size hs]
  · rw [exec_ringStationStop hv]
    rcases h with hs | ⟨hr, he⟩
    · rw [rscfg_of_size hs]
    · rw [rscfg_of_running hr (.inr he)]
  · show execRingcfgWrite s = _
    rw [execRingcfgWrite, rootWrite_ringcfg_of_mode hm, State.when, ite_self]

end Sys2Proof.Machine

namespace Sys2Proof.Machine

/-! What an error record, a store and an abort leave of the ring: the copies under way, and of each die the frames, the links and its bypass. -/
/-- The part of a die that its caravan steps change: frames, links, whether it is bypassed. -/
def Die.ringPart (d : Die) : Sp Frame × Sp Nat × Bool := (d.frames, d.links, d.bypassed)

/-- The copies under way are the same, and the ring part of every die. -/
structure KeepsRing (s t : State) : Prop where
  segs : t.segs = s.segs
  dies : ∀ n, (t.dieAt n).ringPart = (s.dieAt n).ringPart

theorem dieAt_congr {s t : State} (h : t.dies = s.dies) (n : Nat) : t.dieAt n = s.dieAt n := by rw [State.dieAt, h, State.dieAt]

namespace KeepsRing
variable {s t u : State}

theorem refl (s : State) : KeepsRing s s := ⟨rfl, fun _ => rfl⟩

theorem frames (h : KeepsRing s t) (n : Nat) : (t.dieAt n).frames = (s.dieAt n).frames := congrArg Prod.fst (h.dies n)
theorem links (h : KeepsRing s t) (n : Nat) : (t.dieAt n).links = (s.dieAt n).links := congrArg (·.2.1) (h.dies n)
theorem bypassed (h : KeepsRing s t) (n : Nat) : (t.dieAt n).bypassed = (s.dieAt n).bypassed := congrArg (·.2.2) (h.dies n)

/-- A change of neither the copies nor the dies. -/
theorem congr (h : KeepsRing s t) (hs : u.segs = t.segs) (hd : u.dies = t.dies) : KeepsRing s u :=
  ⟨hs.trans h.segs, fun n => by rw [dieAt_congr hd, h.dies]⟩

/-- A change of a die outside its ring part. -/
theorem onDie (h : KeepsRing s t) (n : Nat) {f : Die → Die} (hf : ∀ d, (f d).ringPart = d.ringPart := by intro; rfl) :
    KeepsRing s (t.onDie n f) := by
  refine ⟨h.segs, fun m => ?_⟩
  rw [State.dieAt_onDie, ← h.dies]
  split
  · next hm => rw [hf, hm]
  · rfl

theorem each {α : Type} {f : α → State → State} (hf : ∀ x t, KeepsRing s t → KeepsRing s (f x t)) (l : List α) (h : KeepsRing s t) :
    KeepsRing s (Machine.each f l t) := by
  induction l generalizing t with
  | nil => exact h
  | cons x l ih => exact ih (hf x t h)

theorem pokeByte (h : KeepsRing s t) (a : Nat) (v : Byte) : KeepsRing s (t.pokeByte a v) := by
  unfold State.pokeByte
  split
  · exact h.onDie _
  · exact h.congr rfl rfl

theorem pokeRaw (h : KeepsRing s t) (a : Nat) (bs : List Byte) : KeepsRing s (t.pokeRaw a bs) := by
  induction bs generalizing t a with
  | nil => exact h
  | cons b bs ih => exact ih (h.pokeByte a b) _

theorem tagTiles (h : KeepsRing s t) (a n : Nat) (x : BitVec 16) : KeepsRing s (t.tagTiles a n x) := by
  unfold State.tagTiles
  split
  · dsimp only; split <;> exact h.congr rfl rfl
  · exact h

theorem store (h : KeepsRing s t) (a : Nat) (bs : List Byte) : KeepsRing s (t.store a bs) :=
  ((h.pokeRaw a bs).tagTiles a bs.length 0).congr rfl rfl

theorem err (h : KeepsRing s t) (die core kind sub cause addr aux : Nat) (body : List Byte) :
    KeepsRing s (t.err die core kind sub cause addr aux body) := by
  unfold State.err
  dsimp only
  split
  · exact (h.store _ _).onDie _
  · exact h.onDie _

theorem onSlot (h : KeepsRing s t) (g k : Nat) (f : ReqSlot → ReqSlot) : KeepsRing s (t.onSlot g k f) := h.onDie _

theorem complete (h : KeepsRing s t) (g : Nat) (reqid : W64) (steps slot model why skips : Nat) :
    KeepsRing s (t.complete g reqid steps slot model why skips).2 := by
  unfold State.complete
  dsimp only
  split
  · dsimp only
    exact (h.store _ _).onDie _
  · exact h

/-- A slot that retires with its page references kept. -/
theorem retire (h : KeepsRing s t) (g k why : Nat) : KeepsRing s (t.retire g k why false) := by
  unfold State.retire
  dsimp only
  split
  · exact (h.complete _ _ _ _ _ _ _).onSlot _ _ _
  · exact h

/-! Repairs and translations. -/
theorem metBad (h : KeepsRing s t) (g : Nat) : KeepsRing s (t.metBad g) := h.onDie _

theorem repair (h : KeepsRing s t) (w : Nat) : KeepsRing s (t.repair w) := by
  unfold State.repair
  dsimp only
  have hcount := (h.congr (u := { t with ecc := spDel t.ecc w }) rfl rfl).onDie (paDie w) (f := fun d =>
    { d with cr := spSet d.cr 0x318 (setField ((t.dieAt (paDie w)).reg 0x318) 48 16
        (min (fieldOf ((t.dieAt (paDie w)).reg 0x318) 48 16 + 1) 65535)) })
  split
  · exact h
  · split
    · exact hcount.err _ _ _ _ _ _ _ _
    · exact hcount

theorem mend (h : KeepsRing s t) (a n : Nat) : KeepsRing s (t.mend a n) := by
  unfold State.mend
  split
  · exact h
  · exact each (fun w u hu => each (fun v x hx => hx.repair v) _ hu) _ h

theorem walkMend (h : KeepsRing s t) (die : Nat) (root : W64) (va : Nat) : KeepsRing s (t.walkMend die root va) := by
  unfold State.walkMend
  split
  · exact h
  · refine each (fun w u hu => ?_) _ h
    split
    · exact hu.metBad _
    · exact hu.mend _ _

theorem translate (h : KeepsRing s t) (n : Nat) (root : W64) (sup : Bool) (need : Need) (va : Nat) :
    KeepsRing s (Machine.translate t n root sup need va).2 := by
  unfold Machine.translate
  dsimp only
  split
  · exact h
  · have hfresh : KeepsRing s (if (((t.coreAt n).tlb ++ (t.dieAt (n / 384)).tcache).find? fun x => x.covers (fieldOf root 52 12) va).isSome
        then { t with fresh := t.fresh + 1 } else t) := by
      split
      · exact h.congr rfl rfl
      · exact h
    split
    · exact hfresh
    · split
      · exact hfresh.walkMend _ _ _
      · exact hfresh.walkMend _ _ _
      · exact hfresh.walkMend _ _ _
      · dsimp only
        exact ((hfresh.walkMend _ _ _).congr (u := State.onCore _ _ _) rfl rfl).onDie _

/-! Aborts. -/
theorem onPlan (h : KeepsRing s t) (g k : Nat) (f : Plan → Plan) : KeepsRing s (t.onPlan g k f) := by
  refine h.onDie _ fun d => ?_
  split <;> rfl

theorem doneWrite (h : KeepsRing s t) (g : Nat) (p : Plan) (pa : Nat) (v : W64) : KeepsRing s (t.doneWrite g p pa v) := by
  unfold State.doneWrite
  dsimp only
  split
  · exact h
  · split
    · split
      · exact h.onPlan _ _ _
      · exact h
    · exact h.store _ _

theorem planAbort (h : KeepsRing s t) (g k cause : Nat) : KeepsRing s (t.planAbort g k cause) := by
  unfold State.planAbort
  split
  · exact h
  · next p _ =>
    dsimp only
    split
    · exact h
    · refine KeepsRing.congr (t := State.planNotice _ g p .planAbort cause) ?_ rfl rfl
      refine KeepsRing.congr (t := State.err _ _ _ _ _ _ _ _ _) (err ?_ _ _ _ _ _ _ _ _) rfl rfl
      have hended : KeepsRing s ((t.onPlan g k fun p => { p with abort := some cause, pend := [], act := none, chunks := [], unack := 0 }).ackAll
          p.kept) := (h.onPlan g k _).congr rfl rfl
      split
      · exact hended
      · have htr := hended.translate (cid g p.core) p.root p.sup { w := true } (pDonea p.bytes).toNat
        split
        · next pa u he => rw [he] at htr; exact htr.doneWrite _ _ _ _
        · next u he => rw [he] at htr; exact htr

theorem onDest (h : KeepsRing s t) (g k : Nat) (f : Dest → Dest) : KeepsRing s (t.onDest g k f) := by
  refine h.onDie _ fun d => ?_
  split <;> rfl

theorem onCoord (h : KeepsRing s t) (g k : Nat) (f : Coord → Coord) : KeepsRing s (t.onCoord g k f) := by
  refine h.onDie _ fun d => ?_
  split <;> rfl

theorem endTagging (h : KeepsRing s t) (g hd : Nat) : KeepsRing s (t.endTagging g hd) := h.congr rfl rfl

theorem coordAbort (h : KeepsRing s t) (g k cause : Nat) : KeepsRing s (t.coordAbort g k cause) := by
  unfold State.coordAbort
  split
  · dsimp only
    split
    · exact (((h.onCoord _ _ _).store _ _).err _ _ _ _ _ _ _ _).congr rfl rfl
    · exact h
  · exact h

theorem destTake (h : KeepsRing s t) (g hd : Nat) : KeepsRing s (t.destTake g hd).2 := by
  unfold State.destTake
  dsimp only
  split
  · exact h
  · split
    · dsimp only
      exact h.onDie _
    · exact h.congr rfl rfl

theorem destAbort (h : KeepsRing s t) (g hd cause : Nat) : KeepsRing s (t.destAbort g hd cause) := by
  unfold State.destAbort
  extract_lets fixed u v
  have hv : KeepsRing s v := by
    unfold v
    split
    · exact h.endTagging g hd
    · refine each (fun q w hw => ?_) _ (h.endTagging g hd)
      split
      · exact hw.planAbort _ _ _
      · exact hw
  clear_value v
  split
  next place w he =>
    have hw : KeepsRing s w := by
      split at he
      · cases he; exact hv
      · split at he
        · rw [← show (v.destTake g hd).2 = w by rw [he]]
          exact hv.destTake g hd
        · cases he; exact hv
    split
    · exact hw
    · split
      · split
        · refine KeepsRing.err ?_ _ _ _ _ _ _ _ _
          split
          · exact ((hw.onDie g).onDest g _ _).store _ _
          · exact (hw.onDie g).onDest g _ _
        · exact hw
      · exact hw

/-- What a bypass does to plans and consignments. -/
theorem bypassPlans (h : KeepsRing s t) (g : Nat) : KeepsRing s (t.bypassPlans g) := by
  unfold State.bypassPlans
  refine onDie (each (fun hd u hu => each (fun p x hx => hx.endTagging _ _) _ hu) _ (each (fun p u hu => each (fun q x hx => ?_) _ hu) _
    (each (fun p u hu => each (fun q x hx => ?_) _ hu) _ (each (fun p u hu => each (fun q x hx => ?_) _ hu) _ h)))) _
  · split
    · exact hx.destAbort _ _ _
    · exact hx
  · split
    · exact hx.coordAbort _ _ _
    · exact hx
  · split
    · exact hx.planAbort _ _ _
    · exact hx

end KeepsRing

/-! Registers of a die under stores and error records. -/
theorem cr_pokeByte (s : State) (a n : Nat) (v : Byte) : ((s.pokeByte a v).dieAt n).cr = (s.dieAt n).cr := by
  unfold State.pokeByte
  split
  · rw [State.dieAt_onDie]
    split
    · next h => rw [h]
    · rfl
  · rfl

theorem cr_pokeRaw (s : State) (a n : Nat) (bs : List Byte) : ((s.pokeRaw a bs).dieAt n).cr = (s.dieAt n).cr := by
  induction bs generalizing s a with
  | nil => rfl
  | cons b bs ih => exact (ih _ _).trans (cr_pokeByte s a n b)

theorem dies_tagTiles (s : State) (a n : Nat) (x : BitVec 16) : (s.tagTiles a n x).dies = s.dies := by
  unfold State.tagTiles
  split
  · dsimp only; split <;> rfl
  · rfl

theorem reg_store (s : State) (a n r : Nat) (bs : List Byte) : ((s.store a bs).dieAt n).reg r = (s.dieAt n).reg r := by
  have hd : (s.store a bs).dies = (s.pokeRaw a bs).dies := dies_tagTiles _ _ _ _
  rw [Die.reg, dieAt_congr hd, cr_pokeRaw, Die.reg]

/-- An error record changes no register but ERRQ. -/
theorem reg_err (s : State) (die core kind sub cause addr aux n : Nat) (body : List Byte) {r : Nat} (h0 : r ≠ 0x315) (h1 : r ≠ 0x316) :
    ((s.err die core kind sub cause addr aux body).dieAt n).reg r = (s.dieAt n).reg r := by
  have hput : ∀ t : State, ∀ v, ((t.onDie die (Die.errqPut v)).dieAt n).reg r = (t.dieAt n).reg r := fun t v => by
    rw [State.dieAt_onDie]
    split
    · next h => rw [h, Die.reg_errqPut _ _ h0 h1]
    · rfl
  unfold State.err
  dsimp only
  split
  · exact (hput _ _).trans (reg_store _ _ _ _ _)
  · exact hput _ _

/-- What an error record leaves as it is. -/
theorem keepsRing_err (s : State) (die core kind sub cause addr aux : Nat) (body : List Byte) :
    KeepsRing s (s.err die core kind sub cause addr aux body) := (KeepsRing.refl s).err die core kind sub cause addr aux body

/-! Steps that are due or not. -/
theorem when_of {b : Bool} (h : b = true) (s t : State) : s.when b t = .next t := by rw [State.when, if_pos h]
theorem when_of_not {b : Bool} (h : b = false) (s t : State) : s.when b t = .next s := by rw [State.when, h]; rfl

/-! Folds over states. -/
theorem segs_each {α : Type} {f : α → State → State} (hf : ∀ x s, (f x s).segs = s.segs) (l : List α) (s : State) :
    (each f l s).segs = s.segs := by
  induction l generalizing s with
  | nil => rfl
  | cons x l ih => exact (ih _).trans (hf x s)

/-! Links (R432). -/
theorem linkCode_inj {l m : LinkDir} : linkCode l = linkCode m ↔ l = m := by
  cases l <;> cases m <;> decide

/-- A link direction belongs to its own link. -/
theorem mem_linkMates_self (s : State) (g : Nat) (l : LinkDir) : (g, l) ∈ linkMates s g l := by
  cases l <;> simp [linkMates]

/-- Directions that a step over a list of them sets to c: these read c, the others as before. -/
theorem linkDown_each {f : Nat × LinkDir → State → State} {c : Bool}
    (hf : ∀ q s h l, linkDown ((f q s).dieAt h) l = if (h, l) = q then c else linkDown (s.dieAt h) l)
    (qs : List (Nat × LinkDir)) (s : State) (h : Nat) (l : LinkDir) :
    linkDown ((each f qs s).dieAt h) l = if (h, l) ∈ qs then c else linkDown (s.dieAt h) l := by
  induction qs generalizing s with
  | nil => rfl
  | cons q qs ih =>
    rw [each, ih, hf]
    by_cases hm : (h, l) ∈ qs
    · simp [hm]
    · simp [hm]

/-- What changing the links of one die does to every direction of every die. -/
theorem linkDown_onDie (s : State) (q : Nat × LinkDir) {f : Die → Die} {c : Bool}
    (hf : ∀ d l, linkDown (f d) l = if l = q.2 then c else linkDown d l) (h : Nat) (l : LinkDir) :
    linkDown ((s.onDie q.1 f).dieAt h) l = if (h, l) = q then c else linkDown (s.dieAt h) l := by
  obtain ⟨g, m⟩ := q
  rw [State.dieAt_onDie]
  by_cases hg : h = g
  · subst hg
    simp [hf]
  · simp [hg]

theorem linkDown_spSet (d : Die) (l m : LinkDir) (v : Nat) :
    linkDown { d with links := spSet d.links (linkCode m) v } l = if l = m then v != 0 else linkDown d l := by
  simp only [linkDown, spGet_spSet, linkCode_inj]
  split <;> rfl

theorem linkDown_spDel (d : Die) (l m : LinkDir) :
    linkDown { d with links := spDel d.links (linkCode m) } l = if l = m then false else linkDown d l := by
  simp only [linkDown, spGet, spFind_spDel, linkCode_inj]
  split <;> rfl

theorem linkDown_markLink (s : State) (g : Nat) (m : LinkDir) {v : Nat} (hv : v ≠ 0) (h : Nat) (l : LinkDir) :
    linkDown ((s.markLink g m v).dieAt h) l = if (h, l) ∈ linkMates s g m then true else linkDown (s.dieAt h) l := by
  refine linkDown_each (fun q t h l => linkDown_onDie t q (fun d l => ?_) h l) _ s h l
  by_cases hc : (v = 2 || !linkDown d q.2) = true
  · simp only [hc, if_true]
    rw [linkDown_spSet, bne_iff_ne.2 hv]
  · simp only [hc, Bool.false_eq_true, if_false]
    simp only [Bool.or_eq_true, decide_eq_true_eq, Bool.not_eq_true', not_or, Bool.not_eq_false] at hc
    split
    · next hl => rw [hl]; exact hc.2
    · rfl

theorem segs_markLink (s : State) (g : Nat) (m : LinkDir) (v : Nat) : (s.markLink g m v).segs = s.segs := by
  unfold State.markLink
  refine segs_each (fun _ _ => ?_) _ s
  rfl

theorem linkDown_err (s : State) (die core kind sub cause addr aux n : Nat) (body : List Byte) (l : LinkDir) :
    linkDown ((s.err die core kind sub cause addr aux body).dieAt n) l = linkDown (s.dieAt n) l := by
  rw [linkDown, (keepsRing_err s _ _ _ _ _ _ _ _).links, linkDown]

/-- Both directions of a link at both ends are up again. -/
def State.clearLink (s : State) (g : Nat) (l : LinkDir) : State :=
  each (fun (q : Nat × LinkDir) t => t.onDie q.1 fun d => { d with links := spDel d.links (linkCode q.2) }) (linkMates s g l) s

theorem linkDown_clearLink (s : State) (g : Nat) (m : LinkDir) (h : Nat) (l : LinkDir) :
    linkDown ((s.clearLink g m).dieAt h) l = if (h, l) ∈ linkMates s g m then false else linkDown (s.dieAt h) l :=
  linkDown_each (fun q t h l => linkDown_onDie t q (fun d l => linkDown_spDel d l q.2) h l) _ s h l

/-- R432: a link direction in error takes both directions of its link down at both ends. -/
theorem linkError_takes {s : State} {g : Nat} (hg : s.here.die = g) (h : linkDown (s.dieAt g) s.here.link = false) :
    ∃ t, exec .linkError s = .next t ∧ (∀ m ∈ linkMates s g s.here.link, linkDown (t.dieAt m.1) m.2 = true) ∧
      ∀ h l, (h, l) ∉ linkMates s g s.here.link → linkDown (t.dieAt h) l = linkDown (s.dieAt h) l := by
  subst hg
  have hdown : ∀ h l, linkDown (((s.markLink s.here.die s.here.link 4).onDie s.here.die fun d =>
      { d with links := spSet d.links (linkCode s.here.link) (2 * s.here.k + 1) }).dieAt h) l =
      if (h, l) ∈ linkMates s s.here.die s.here.link then true else linkDown (s.dieAt h) l := fun h l => by
    rw [linkDown_onDie _ (s.here.die, s.here.link) (c := true) fun d l => by rw [linkDown_spSet]; simp, linkDown_markLink _ _ _ (by decide)]
    split
    · next he => rw [he, if_pos (mem_linkMates_self s _ _)]
    · rfl
  refine ⟨_, when_of (by rw [h]; rfl) s _, fun m hm => ?_, fun h l hm => ?_⟩
  · rw [hdown, if_pos hm]
  · rw [hdown, if_neg hm]

/-- R432: a link that retrains is up again at both ends, or has failed there. -/
theorem linkRetrainEnd_ends {s : State} {g : Nat} (hg : s.here.die = g) (h : spGet 0 (s.dieAt g).links (linkCode s.here.link) % 2 = 1) :
    ∃ t, exec .linkRetrainEnd s = .next t ∧ (∀ m ∈ linkMates s g s.here.link, linkDown (t.dieAt m.1) m.2 = !s.here.ok) ∧
      ∀ h l, (h, l) ∉ linkMates s g s.here.link → linkDown (t.dieAt h) l = linkDown (s.dieAt h) l := by
  subst hg
  have hdown : ∀ h l, linkDown ((if s.here.ok then s.clearLink s.here.die s.here.link else s.markLink s.here.die s.here.link 2).dieAt h) l =
      if (h, l) ∈ linkMates s s.here.die s.here.link then !s.here.ok else linkDown (s.dieAt h) l := fun h l => by
    cases s.here.ok
    · exact linkDown_markLink s _ _ (by decide) h l
    · exact linkDown_clearLink s _ _ h l
  refine ⟨_, when_of (by rw [h]; rfl) s _, fun m hm => ?_, fun h l hm => ?_⟩
  · rw [linkDown_err]
    exact (hdown _ _).trans (if_pos hm)
  · rw [linkDown_err]
    exact (hdown _ _).trans (if_neg hm)

/-! Resends (R431). -/
/-- DCNT.RESEND of a die. -/
def Die.resends (d : Die) : Nat := fieldOf (d.reg 0x31C) 0 32

theorem resends_countResend (s : State) (g : Nat) : ((s.countResend g).dieAt g).resends = min ((s.dieAt g).resends + 1) 0xFFFFFFFF := by
  have hcr : ((s.countResend g).dieAt g).reg 0x31C =
      setField ((s.dieAt g).reg 0x31C) 0 32 (min ((s.dieAt g).resends + 1) 0xFFFFFFFF) := by
    rw [State.countResend, State.count, State.dieAt_onDie, if_pos rfl]
    exact spGet_spSet_same _ _ _ _
  rw [Die.resends, hcr, fieldOf_setField_same _ _ (by decide), Nat.mod_eq_of_lt (by omega)]

theorem resends_each_countResend {α : Type} (g : Nat) (l : List α) (s : State) :
    ((each (fun _ t => t.countResend g) l s).dieAt g).resends = min ((s.dieAt g).resends + l.length) 0xFFFFFFFF := by
  induction l generalizing s with
  | nil => exact (Nat.min_eq_left (Nat.le_of_lt_succ (fieldOf_lt _ 0 32))).symm
  | cons x l ih => rw [each, ih, resends_countResend, List.length_cons]; omega

theorem length_upFrom (a n : Nat) : (upFrom a n).length = n := by
  induction n generalizing a with
  | zero => rfl
  | succ n ih => rw [upFrom, List.length_cons, ih]

/-- R431: slots that are sent again are counted. -/
theorem slotResendRequest_counts {s : State} {g : Nat} (hg : s.here.die = g) :
    ∃ t, exec .slotResendRequest s = .next t ∧ t.segs = s.segs ∧
      (t.dieAt g).resends = min ((s.dieAt g).resends + s.here.k) 0xFFFFFFFF := by
  subst hg
  let u := each (fun _ t => t.countResend s.here.die) (upFrom 0 s.here.k) s
  obtain ⟨addr, aux, he⟩ : ∃ addr aux, exec .slotResendRequest s =
      .next (u.err s.here.die noCore 0x32 0 0 addr aux (bytesOf 8 s.here.k)) := by
    show ∃ addr aux, execSlotResendRequest s = _
    unfold execSlotResendRequest
    dsimp only
    split
    · exact ⟨_, _, rfl⟩
    · exact ⟨0, 0, rfl⟩
  refine ⟨_, he, ?_, ?_⟩
  · rw [(keepsRing_err _ _ _ _ _ _ _ _ _).segs]
    refine segs_each (fun _ _ => ?_) _ s
    rfl
  · rw [Die.resends, reg_err _ _ _ _ _ _ _ _ _ _ (by decide) (by decide)]
    have hcount := resends_each_countResend s.here.die (upFrom 0 s.here.k) s
    rwa [length_upFrom] at hcount

/-! Parks of slots (R75). -/
theorem slotAt_onSlot (s : State) (g k j : Nat) (f : ReqSlot → ReqSlot) :
    (s.onSlot g k f).slotAt g j = if j = k then f (s.slotAt g k) else s.slotAt g j := by
  rw [State.slotAt, State.onSlot, State.dieAt_onDie, if_pos rfl, spGet_spSet]
  rfl

/-- A park of a slot takes effect (R75). -/
def ReqSlot.parked (r : ReqSlot) : ReqSlot :=
  { r with parkp := false, state := if r.state = 1 then (if r.budget = 0 then 3 else 2) else r.state }

theorem slotPark_of_not_due {s : State} {g : Nat} (hg : s.here.die = g)
    (h : (s.slotAt g s.here.slot).parkp = false ∨ s.tickOf g < (s.slotAt g s.here.slot).ptick) : exec .slotPark s = .next s := by
  subst hg
  refine when_of_not ?_ s _
  rcases h with h | h
  · simp [h]
  · simp [BitVec.not_le.2 h]

theorem slotPark_parks {s : State} {g : Nat} (hg : s.here.die = g) (hk : s.here.slot < 256)
    (hp : (s.slotAt g s.here.slot).parkp = true) (ht : (s.slotAt g s.here.slot).ptick ≤ s.tickOf g) :
    ∃ t, exec .slotPark s = .next t ∧ (∀ a, t.byteAt a = s.byteAt a) ∧ t.slotAt g s.here.slot = (s.slotAt g s.here.slot).parked ∧
      ∀ k, k ≠ s.here.slot → t.slotAt g k = s.slotAt g k := by
  subst hg
  refine ⟨s.onSlot s.here.die s.here.slot ReqSlot.parked, when_of (by simp [hp, ht, hk]) s _, byteAt_onDie s _ rfl, ?_, fun k hne => ?_⟩
  · rw [slotAt_onSlot, if_pos rfl]
  · rw [slotAt_onSlot, if_neg hne]

/-! Bypass (R434, R435). -/
theorem pairAgreed_of_agree {s : State} {p v : Nat} (hv : v < 8) (h : ∀ k < 8, s.pairOf (8 * p + k) = 8 + v) :
    pairAgreed s p = some (8 * p + v) := by
  have h0 : fieldOf ((s.dieAt (8 * p)).reg 0x405) 0 4 = 8 + v := h 0 (by decide)
  have hall : ((upFrom 0 8).all fun k => fieldOf ((s.dieAt (8 * p + k)).reg 0x405) 0 4 == 8 + v) = true :=
    List.all_eq_true.2 fun k hk => beq_iff_eq.2 (h k (by have := mem_upFrom.1 hk; omega))
  simp only [pairAgreed, h0, hall]
  rw [if_pos (by simp)]
  congr 1
  omega

theorem pairAgreed_of_differ {s : State} {p : Nat} (h : ∃ k < 8, s.pairOf (8 * p + k) < 8 ∨ ∃ j < 8, s.pairOf (8 * p + k) ≠ s.pairOf (8 * p + j)) :
    pairAgreed s p = none := by
  unfold pairAgreed
  dsimp only
  refine if_neg fun hc => ?_
  simp only [Bool.and_eq_true, decide_eq_true_eq, List.all_eq_true, beq_iff_eq] at hc
  obtain ⟨hv, hall⟩ := hc
  have heq : ∀ k < 8, s.pairOf (8 * p + k) = fieldOf ((s.dieAt (8 * p)).reg 0x405) 0 4 := fun k hk =>
    hall k (mem_upFrom.2 ⟨Nat.zero_le k, by omega⟩)
  obtain ⟨k, hk, hlt | ⟨j, hj, hne⟩⟩ := h
  · rw [heq k hk] at hlt
    omega
  · exact hne ((heq k hk).trans (heq j hj).symm)

/-- R435: no copy that a bypassed die sent is still to be acknowledged. -/
theorem of_mem_segs_bypassSegs {s : State} {g : Nat} {x : Seg} (hx : x ∈ (s.bypassSegs g).segs) : x.ack = true ∨ x.src ≠ g := by
  obtain ⟨y, hy, rfl⟩ := List.mem_map.1 hx
  obtain ⟨-, hc⟩ := List.mem_filter.1 hy
  simp only [Bool.and_eq_true, Bool.or_eq_true, bne_iff_ne] at hc
  split <;> exact hc.1

theorem dieAt_bypassSegs (s : State) (g n : Nat) : (s.bypassSegs g).dieAt n = s.dieAt n := rfl

theorem keepsRing_bypassDie (s : State) (g : Nat) :
    KeepsRing ((s.onDie g fun d => { d with bypassed := true }).bypassSegs g) (s.bypassDie g) := by
  unfold State.bypassDie
  refine KeepsRing.err (KeepsRing.err (KeepsRing.bypassPlans ?_ g) _ _ _ _ _ _ _ _) _ _ _ _ _ _ _ _
  exact KeepsRing.each (fun k _ h => (h.onSlot g k _).retire g k 3) _ (KeepsRing.refl _)

theorem bypass_bypasses {s : State} {v : Nat} (hv : v < 8) (h : ∀ k < 8, s.pairOf (8 * s.here.k + k) = 8 + v)
    (hb : (s.dieAt (8 * s.here.k + v)).bypassed = false) :
    ∃ t, exec .bypass s = .next t ∧ (t.dieAt (8 * s.here.k + v)).bypassed = true ∧
      ∀ x ∈ t.segs, x.ack = true ∨ x.src ≠ 8 * s.here.k + v := by
  have hexec : exec .bypass s = .next (s.bypassDie (8 * s.here.k + v)) := by
    show execBypass s = _
    rw [execBypass, pairAgreed_of_agree hv h, Option.elim_some, hb, if_neg Bool.false_ne_true]
  have hk := keepsRing_bypassDie s (8 * s.here.k + v)
  refine ⟨_, hexec, ?_, fun x hx => ?_⟩
  · rw [hk.bypassed, dieAt_bypassSegs, State.dieAt_onDie, if_pos rfl]
  · rw [hk.segs] at hx
    exact of_mem_segs_bypassSegs hx

/-! Copies on the links (R64, R429-R431). -/
theorem setNth_append_length {α : Type} (l : List α) (x y : α) : setNth (l ++ [x]) l.length y = l ++ [y] := by
  induction l with
  | nil => rfl
  | cons z l ih => exact congrArg (z :: ·) ih

theorem segs_onSeg {s : State} {k : Nat} {x : Seg} (h : s.segs[k]? = some x) (f : Seg → Seg) : (s.onSeg k f).segs = setNth s.segs k (f x) := by
  unfold State.onSeg
  dsimp only
  rw [h]

theorem frames_onFrame (s : State) (g f n : Nat) (h : Frame → Frame) :
    ((s.onFrame g f h).dieAt n).frames = if n = g then spSet (s.dieAt g).frames f (h (frameAt (s.dieAt g) f)) else (s.dieAt n).frames := by
  rw [State.onFrame, State.dieAt_onDie]
  split <;> rfl

theorem frameAt_congr {d e : Die} (h : d.frames = e.frames) (f : Nat) : frameAt d f = frameAt e f := by rw [frameAt, h, frameAt]

theorem frameAt_onFrame (s : State) (g f j : Nat) (h : Frame → Frame) :
    frameAt ((s.onFrame g f h).dieAt g) j = if j = f then h (frameAt (s.dieAt g) f) else frameAt (s.dieAt g) j := by
  rw [frameAt, frames_onFrame, if_pos rfl, spGet_spSet]
  rfl

theorem frameAt_lateErr (s : State) (x : Seg) (sub addr n f : Nat) :
    frameAt ((s.lateErr x sub addr).dieAt n) f = frameAt (s.dieAt n) f := frameAt_congr ((keepsRing_err s _ _ _ _ _ _ _ _).frames n) f

theorem segs_lateErr (s : State) (x : Seg) (sub addr : Nat) : (s.lateErr x sub addr).segs = s.segs := (keepsRing_err s _ _ _ _ _ _ _ _).segs

/-! The first slot of a copy (R429, R458). -/
/-- Copy k begins, bound for a frame or for none. -/
def State.segBegin (s : State) (k : Nat) (f : Option Nat) : State :=
  s.onSeg k fun x => { x with begun := true, sent := s.tickOf x.src, land := f }

theorem segFirst_of_blocked {s : State} {x : Seg} (h : segBlocked s x = true) (k : Nat) : s.segFirst k x = s := by
  simp [State.segFirst, h]

theorem segFirst_of_unexpected {s : State} {x : Seg} (hb : segBlocked s x = false)
    (h : stationRuns (s.dieAt x.dst) = false ∨ x.rot < (s.dieAt x.dst).n0 ∨ entryOfSeg s x = none) (k : Nat) :
    s.segFirst k x = s.segBegin k none := by
  by_cases hc : (!stationRuns (s.dieAt x.dst) || decide (x.rot < (s.dieAt x.dst).n0)) = true
  · simp only [State.segFirst, hb, hc, Bool.false_eq_true, if_false, if_true]
    rfl
  · have he : entryOfSeg s x = none := by
      rcases h with h | h | h
      · simp [h] at hc
      · simp [h] at hc
      · exact h
    simp only [State.segFirst, hb, hc, he, Bool.false_eq_true, if_false]
    rfl

section
variable {s : State} {x : Seg} {e : Nat} (hb : segBlocked s x = false) (hr : stationRuns (s.dieAt x.dst) = true)
  (hn : (s.dieAt x.dst).n0 ≤ x.rot) (he : entryOfSeg s x = some e)
include hb hr hn he

theorem segFirst_of_full (hf : landFrame s x.dst (ttEnt s x.dst e) = none) (k : Nat) : s.segFirst k x = s := by
  simp [State.segFirst, hb, hr, Nat.not_lt.2 hn, he, hf]

theorem segFirst_of_frame {f : Nat} (hf : landFrame s x.dst (ttEnt s x.dst e) = some f) (k : Nat) :
    s.segFirst k x = (s.segBegin k (some f)).onFrame x.dst f fun fr => { fr with st := 1, entry := e, tag := x.tag, rot := x.rot } := by
  simp only [State.segFirst, hb, hr, Nat.not_lt.2 hn, he, hf]
  rfl
end

/-- What the first slot of a copy can do. -/
theorem segFirst_cases (s : State) (k : Nat) (x : Seg) :
    s.segFirst k x = s ∨ ∃ f, s.segFirst k x = s.segBegin k f ∨ ∃ j h, s.segFirst k x = (s.segBegin k f).onFrame x.dst j h := by
  by_cases hb : segBlocked s x = true
  · exact .inl (segFirst_of_blocked hb k)
  · rw [Bool.not_eq_true] at hb
    by_cases h : stationRuns (s.dieAt x.dst) = false ∨ x.rot < (s.dieAt x.dst).n0 ∨ entryOfSeg s x = none
    · exact .inr ⟨none, .inl (segFirst_of_unexpected hb h k)⟩
    · simp only [not_or, Bool.not_eq_false, Nat.not_lt] at h
      obtain ⟨hr, hn, he⟩ := h
      obtain ⟨e, he⟩ := Option.ne_none_iff_exists'.1 he
      cases hf : landFrame s x.dst (ttEnt s x.dst e) with
      | none => exact .inl (segFirst_of_full hb hr hn he hf k)
      | some f => exact .inr ⟨some f, .inr ⟨_, _, segFirst_of_frame hb hr hn he hf k⟩⟩

/-- Only copies are added: memory, and the frames of die g and which of its registers have been written, are the same. -/
structure OnlySends (g : Nat) (s t : State) : Prop where
  segs : ∃ more, t.segs = s.segs ++ more
  mem : t.mem = s.mem
  frames : (t.dieAt g).frames = (s.dieAt g).frames
  wrote : (t.dieAt g).wrote = (s.dieAt g).wrote

namespace OnlySends
variable {g : Nat} {s t u : State}

theorem refl (g : Nat) (s : State) : OnlySends g s s := ⟨⟨[], (List.append_nil _).symm⟩, rfl, rfl, rfl⟩

theorem trans (h : OnlySends g s t) (k : OnlySends g t u) : OnlySends g s u := by
  obtain ⟨m, hm⟩ := h.segs
  obtain ⟨l, hl⟩ := k.segs
  exact ⟨⟨m ++ l, by rw [hl, hm, List.append_assoc]⟩, k.mem.trans h.mem, k.frames.trans h.frames, k.wrote.trans h.wrote⟩

theorem each {α : Type} {f : α → State → State} {l : List α} (hf : ∀ x ∈ l, ∀ t, OnlySends g s t → OnlySends g s (f x t))
    (h : OnlySends g s t) : OnlySends g s (Machine.each f l t) := by
  induction l generalizing t with
  | nil => exact h
  | cons x l ih => exact ih (fun y hy => hf y (List.mem_cons_of_mem x hy)) (hf x List.mem_cons_self t h)

/-- An error record where no error queue has been written. -/
theorem err (h : OnlySends g s t) (hw : (s.dieAt g).wrote = []) (core kind sub cause addr aux : Nat) (body : List Byte) :
    OnlySends g s (t.err g core kind sub cause addr aux body) := by
  have hq : ∀ r, r ∉ (t.dieAt g).wrote := by simp [h.wrote, hw]
  obtain ⟨k, hk⟩ := err_of_unwritten (hq 0x315) (hq 0x316) core kind sub cause addr aux body
  rw [hk]
  exact h.trans ⟨⟨[], (List.append_nil _).symm⟩, rfl, by rw [State.dieAt_onDie, if_pos rfl]; rfl, by rw [State.dieAt_onDie, if_pos rfl]; rfl⟩

/-- A copy to another die is sent. -/
theorem send (h : OnlySends g s t) {x : Seg} (hx : x.dst ≠ g) :
    OnlySends g s (({ t with segs := t.segs ++ [x] } : State).segFirst t.segs.length x) := by
  refine h.trans ?_
  let u : State := { t with segs := t.segs ++ [x] }
  have hu : OnlySends g t u := ⟨⟨[x], rfl⟩, rfl, rfl, rfl⟩
  have hbegin : ∀ f, OnlySends g t (u.segBegin t.segs.length f) := fun f => by
    have hget : u.segs[t.segs.length]? = some x := List.getElem?_concat_length
    exact ⟨⟨_, (segs_onSeg hget _).trans (setNth_append_length _ _ _)⟩, rfl, rfl, rfl⟩
  rcases segFirst_cases u t.segs.length x with hs | ⟨f, hs | ⟨j, fr, hs⟩⟩
  · rw [hs]; exact hu
  · rw [hs]; exact hbegin f
  · rw [hs]
    have hd : ((u.segBegin t.segs.length f).onFrame x.dst j fr).dieAt g = t.dieAt g := by
      rw [State.onFrame, State.dieAt_onDie, if_neg (Ne.symm hx)]
      rfl
    exact ⟨(hbegin f).segs, rfl, by rw [hd], by rw [hd]⟩

end OnlySends

/-! Sending a segment on (R63, R64). -/
/-- The copies that a die sends of a frame's segment. -/
def State.onwardCopies (s : State) (g f : Nat) (te : TtEnt) (n : Nat) : List Seg :=
  let mk : Nat → Seg := fun dir =>
    { src := g, frame := f, dst := nextDie s g dir, dir := dir, tag := tagIn te n, rot := n, sent := s.tickOf g }
  (if te.fcw && goesOn s g 1 then [mk 1] else []) ++ (if te.fccw && goesOn s g 2 then [mk 2] else [])

theorem isEmpty_onwardCopies (s : State) (g f : Nat) (te : TtEnt) (n : Nat) :
    (s.onwardCopies g f te n).isEmpty = !(te.fcw && goesOn s g 1 || te.fccw && goesOn s g 2) := by
  unfold State.onwardCopies
  cases te.fcw && goesOn s g 1 <;> cases te.fccw && goesOn s g 2 <;> rfl

theorem nextDie_ne_of_goesOn {s : State} {g dir : Nat} (h : goesOn s g dir = true) : nextDie s g dir ≠ g := by
  simp only [goesOn, Bool.and_eq_true, decide_eq_true_eq] at h
  exact h.2

theorem dst_of_mem_onwardCopies {s : State} {g f n : Nat} {te : TtEnt} {x : Seg} (hx : x ∈ s.onwardCopies g f te n) : x.dst ≠ g := by
  unfold State.onwardCopies at hx
  rcases List.mem_append.1 hx with h | h
  all_goals
    split at h
    · next hc =>
      rw [Bool.and_eq_true] at hc
      rw [List.mem_singleton.1 h]
      exact nextDie_ne_of_goesOn hc.2
    · simp at h

/-- A segment of the die's own reports the soft errors of its frame. -/
def State.homeErrs (s : State) (g f : Nat) (te : TtEnt) (n : Nat) : State :=
  if te.src == 0 then
    each (fun w s => s.err g noCore 0x35 0 0 w (tagIn te n).toNat)
      ((s.ecc.filter fun p => p.2 != 1 && decide (seraiPa g (f * segSz (s.dieAt g)) ≤ p.1) &&
        decide (p.1 < seraiPa g ((f + 1) * segSz (s.dieAt g)))).map Prod.fst) s
  else s

/-- The state of a frame whose segment has gone on (R64). -/
def sentSt (s : State) (g : Nat) (te : TtEnt) : Nat :=
  if (te.fcw && goesOn s g 1) || (te.fccw && goesOn s g 2) then 4 else if te.src = 0 then 2 else 0

theorem forward_eq (s : State) (g e f : Nat) (te : TtEnt) (n : Nat) : s.forward g e f te n =
    each (fun x t => ({ t with segs := t.segs ++ [x] } : State).segFirst t.segs.length x) (s.onwardCopies g f te n)
      ((s.homeErrs g f te n).onFrame g f fun fr => { fr with st := sentSt s g te, ackCw := te.fcw && goesOn s g 1,
                                                             ackCcw := te.fccw && goesOn s g 2, entry := e, tag := tagIn te n, rot := n }) := by
  have hgoes : ∀ dir, (!(s.dieAt g).bypassed && nextDie s g dir != g) = goesOn s g dir := fun dir => by
    rw [goesOn, decide_not]; rfl
  have hst : (if (s.onwardCopies g f te n).isEmpty then (if te.src == 0 then 2 else 0) else 4) = sentSt s g te := by
    rw [isEmpty_onwardCopies, sentSt]
    cases te.fcw && goesOn s g 1 || te.fccw && goesOn s g 2 <;> simp
  rw [← hst]
  simp only [State.forward, hgoes]
  rfl

/-- A segment goes on from a die where no error queue has been written. -/
theorem forward_sends {s : State} {g : Nat} (hw : (s.dieAt g).wrote = []) (e f : Nat) (te : TtEnt) (n : Nat) :
    (∃ more, (s.forward g e f te n).segs = s.segs ++ more) ∧ (s.forward g e f te n).mem = s.mem ∧
    ((s.forward g e f te n).dieAt g).wrote = [] ∧ (frameAt ((s.forward g e f te n).dieAt g) f).land = (frameAt (s.dieAt g) f).land ∧
    (frameAt ((s.forward g e f te n).dieAt g) f).st = sentSt s g te := by
  have herrs : OnlySends g s (s.homeErrs g f te n) := by
    unfold State.homeErrs
    split
    · exact OnlySends.each (fun w _ u hu => hu.err hw _ _ _ _ _ _ _) (.refl g s)
    · exact .refl g s
  rw [forward_eq]
  generalize hv : (s.homeErrs g f te n).onFrame g f _ = v
  have hsend := OnlySends.each (f := fun x t => ({ t with segs := t.segs ++ [x] } : State).segFirst t.segs.length x)
    (l := s.onwardCopies g f te n) (fun x hx t ht => ht.send (dst_of_mem_onwardCopies hx)) (OnlySends.refl g v)
  have hwv : (v.dieAt g).wrote = [] := by
    rw [← hv, State.onFrame, State.dieAt_onDie, if_pos rfl]
    exact herrs.wrote.trans hw
  have hframe : frameAt (v.dieAt g) f = { frameAt (s.dieAt g) f with
      st := sentSt s g te, ackCw := te.fcw && goesOn s g 1, ackCcw := te.fccw && goesOn s g 2, entry := e, tag := tagIn te n, rot := n } := by
    rw [← hv, frameAt_onFrame, if_pos rfl, frameAt_congr herrs.frames]
  obtain ⟨m, hm⟩ := herrs.segs
  obtain ⟨l, hl⟩ := hsend.segs
  refine ⟨⟨m ++ l, ?_⟩, ?_, hsend.wrote.trans hwv, ?_, ?_⟩
  · rw [hl, ← hv, ← List.append_assoc, ← hm]
    rfl
  · rw [hsend.mem, ← hv]
    exact herrs.mem
  · rw [frameAt_congr hsend.frames, hframe]
  · rw [frameAt_congr hsend.frames, hframe]

/-! What a copy lands as (R429-R431, R458, R59). -/
/-- A copy that crossed its link is discarded, or lands after a stop: its frame, if still landing, is free. -/
def State.dropLanding (s : State) (g f : Nat) : State :=
  s.onFrame g f fun fr => { fr with st := if fr.st = 1 then 0 else fr.st, land := s.tickOf g }

/-- The bytes of copy k stand in frame f of its receiver, and its acknowledgement is on the way. -/
def State.segArrived (s : State) (k : Nat) (x : Seg) (f : Nat) : State :=
  ((s.copyRange (seraiPa x.src (x.frame * segSz (s.dieAt x.src))) (seraiPa x.dst (f * segSz (s.dieAt x.dst))) (segSz (s.dieAt x.dst))).segAck k).onFrame
    x.dst f fun fr => { fr with land := s.tickOf x.dst }

/-- The frame of copy k has landed. -/
def State.segLanded (s : State) (k : Nat) (x : Seg) (f : Nat) : State := (s.segArrived k x f).onFrame x.dst f fun fr => { fr with st := 2 }

/-- A copy lands in a frame that no entry waits for any longer: its receiver does not run, or has stopped meanwhile (R59). -/
abbrev State.landsLoose (s : State) (x : Seg) : Prop := stationRuns (s.dieAt x.dst) = false ∨ x.prog = true

/-- A copy comes after ARRIVE, and too late for its presentation at LATEST (R430). -/
def State.landsLate (s : State) (x : Seg) (e : Nat) (te : TtEnt) : Prop :=
  rotTick (s.dieAt x.dst) x.rot te.arrive < (s.tickOf x.dst).toNat ∧
  (rotTick (s.dieAt x.dst) x.rot te.latest < (s.tickOf x.dst).toNat ∨ x.rot < (entSt (s.dieAt x.dst) e).next1)

theorem segLand_of_dup {s : State} {x : Seg} (h : x.dup = true) (k : Nat) : s.segLand k x = s.segAck k := by
  rw [State.segLand, if_pos h]

theorem segLand_of_no_frame {s : State} {x : Seg} (hd : x.dup = false) (hl : x.land = none) (k : Nat) :
    s.segLand k x = (s.segAck k).lateErr x 4 0 := by
  simp only [State.segLand, hd, hl, Bool.false_eq_true, if_false]

section
variable {s : State} {x : Seg} {f e : Nat} {te : TtEnt} (hd : x.dup = false) (hl : x.land = some f) (he : (frameAt (s.dieAt x.dst) f).entry = e)
  (hte : ttEnt s x.dst e = te)
include hd hl he hte

/-- R458, R430: a copy of a rotation before those that the die runs, or a rotation late, is discarded. -/
theorem segLand_of_outdated (hr : stationRuns (s.dieAt x.dst) = true)
    (h : x.rot < (s.dieAt x.dst).n0 ∨ rotTick (s.dieAt x.dst) (x.rot + 1) te.arrive < (s.tickOf x.dst).toNat) (k : Nat) :
    ∃ sub addr, s.segLand k x = ((s.segAck k).dropLanding x.dst f).lateErr x sub addr := by
  subst he hte
  by_cases hn : x.rot < (s.dieAt x.dst).n0
  · refine ⟨4, 0, ?_⟩
    simp only [State.segLand, hd, hl, hr, hn, Bool.false_eq_true, if_false, Bool.true_and, decide_true, if_true]
    rfl
  · have hlate := h.resolve_left hn
    refine ⟨3, seraiPa x.dst (f * segSz (s.dieAt x.dst)), ?_⟩
    simp only [State.segLand, hd, hl, hr, hn, hlate, Bool.false_eq_true, if_false, Bool.true_and, decide_true, decide_false, if_true]
    rfl

variable (ht : stationRuns (s.dieAt x.dst) = true →
  (s.dieAt x.dst).n0 ≤ x.rot ∧ (s.tickOf x.dst).toNat ≤ rotTick (s.dieAt x.dst) (x.rot + 1) te.arrive)
include ht

/-- How late a copy that comes in its time is says what becomes of its frame. -/
theorem segLand_of_timely (k : Nat) : s.segLand k x =
    let d := s.dieAt x.dst
    let l := (s.tickOf x.dst).toNat
    let base := seraiPa x.dst (f * segSz d)
    let v := s.segLanded k x f
    if s.landsLoose x then (s.segArrived k x f).dropLanding x.dst f
    else if l ≤ rotTick d x.rot te.arrive then v
    else if l ≤ rotTick d x.rot te.latest ∧ (entSt d e).next1 ≤ x.rot then v.lateErr x 0 base
    else if l < rotTick d x.rot te.depart then (v.openFr x.dst e f x.tag x.rot).lateErr x 1 base
    else (v.forward x.dst e f te x.rot).lateErr x 2 base := by
  subst he hte
  have h1 : (stationRuns (s.dieAt x.dst) && decide (x.rot < (s.dieAt x.dst).n0)) = false := by
    cases hr : stationRuns (s.dieAt x.dst) with
    | false => rfl
    | true => simpa using (ht hr).1
  have h2 : (stationRuns (s.dieAt x.dst) && decide (rotTick (s.dieAt x.dst) (x.rot + 1) (ttEnt s x.dst (frameAt (s.dieAt x.dst) f).entry).arrive <
      (s.tickOf x.dst).toNat)) = false := by
    cases hr : stationRuns (s.dieAt x.dst) with
    | false => rfl
    | true => simpa using (ht hr).2
  simp only [State.segLand, hd, hl, h1, h2, Bool.false_eq_true, if_false, Bool.or_eq_true, Bool.not_eq_true', Bool.and_eq_true,
    decide_eq_true_eq]
  rfl

theorem segLand_of_loose (h : s.landsLoose x) (k : Nat) : s.segLand k x = (s.segArrived k x f).dropLanding x.dst f :=
  (segLand_of_timely hd hl he hte ht k).trans (if_pos h)

theorem segLand_of_not_late (hp : ¬s.landsLoose x) (h : ¬s.landsLate x e te) (k : Nat) :
    s.segLand k x = s.segLanded k x f ∨ ∃ sub addr, s.segLand k x = (s.segLanded k x f).lateErr x sub addr := by
  rw [segLand_of_timely hd hl he hte ht]
  dsimp only
  rw [if_neg hp]
  split
  · exact .inl rfl
  · next ha =>
    rw [if_pos (by unfold State.landsLate at h; omega)]
    exact .inr ⟨_, _, rfl⟩

theorem segLand_of_late (hp : ¬s.landsLoose x) (h : s.landsLate x e te) (k : Nat) : ∃ sub addr, s.segLand k x =
    (if (s.tickOf x.dst).toNat < rotTick (s.dieAt x.dst) x.rot te.depart then (s.segLanded k x f).openFr x.dst e f x.tag x.rot
      else (s.segLanded k x f).forward x.dst e f te x.rot).lateErr x sub addr := by
  obtain ⟨harr, hlat⟩ := h
  rw [segLand_of_timely hd hl he hte ht]
  dsimp only
  rw [if_neg hp, if_neg (by omega), if_neg (by omega)]
  split <;> exact ⟨_, _, rfl⟩
end

/-! The state of a copy that has arrived. -/
section
variable {s : State} {k : Nat} {x : Seg} (hx : s.segs[k]? = some x)
include hx

theorem segs_segAck : (s.segAck k).segs = setNth s.segs k { x with ack := true } := segs_onSeg hx _

theorem segs_segArrived (f : Nat) : (s.segArrived k x f).segs = setNth s.segs k { x with ack := true } := segs_onSeg (s := s.copyRange _ _ _) hx _
end

theorem memGet_segArrived {s : State} (hs : s.Inv) (k : Nat) (x : Seg) (f : Nat) {o : Nat} (ho : o < segSz (s.dieAt x.dst)) :
    memGet (s.segArrived k x f).mem (seraiPa x.dst (f * segSz (s.dieAt x.dst)) + o) =
      memGet s.mem (seraiPa x.src (x.frame * segSz (s.dieAt x.src)) + o) := memGet_copyRange_inside hs _ _ ho

theorem frameAt_segArrived (s : State) (k : Nat) (x : Seg) (f : Nat) :
    frameAt ((s.segArrived k x f).dieAt x.dst) f = { frameAt (s.dieAt x.dst) f with land := s.tickOf x.dst } :=
  (frameAt_onFrame _ _ _ _ _).trans (if_pos rfl)

theorem wrote_onFrame (s : State) (g f n : Nat) (h : Frame → Frame) : ((s.onFrame g f h).dieAt n).wrote = (s.dieAt n).wrote := by
  rw [State.onFrame, State.dieAt_onDie]
  split
  · next hn => rw [hn]
  · rfl

theorem frameAt_segLanded (s : State) (k : Nat) (x : Seg) (f : Nat) :
    frameAt ((s.segLanded k x f).dieAt x.dst) f = { frameAt (s.dieAt x.dst) f with land := s.tickOf x.dst, st := 2 } := by
  rw [State.segLanded, frameAt_onFrame, if_pos rfl, frameAt_segArrived]

theorem wrote_segLanded (s : State) (k : Nat) (x : Seg) (f n : Nat) : ((s.segLanded k x f).dieAt n).wrote = (s.dieAt n).wrote := by
  rw [State.segLanded, wrote_onFrame, State.segArrived, wrote_onFrame]
  rfl

theorem mem_lateErr {s : State} {x : Seg} (hw : (s.dieAt x.dst).wrote = []) (sub addr : Nat) : (s.lateErr x sub addr).mem = s.mem :=
  ((OnlySends.refl x.dst s).err hw _ _ _ _ _ _ _).mem

theorem frameAt_openFr (s : State) (g e f n : Nat) (tag : W32) : frameAt ((s.openFr g e f tag n).dieAt g) f =
    { frameAt (s.dieAt g) f with st := 3, entry := e, tag := tag, rot := n, seqno := (s.dieAt g).openSeq } := by
  rw [State.openFr, frameAt_onFrame, if_pos rfl, State.dieAt_onDie, if_pos rfl]
  rfl

theorem wrote_openFr (s : State) (g e f n : Nat) (tag : W32) : ((s.openFr g e f tag n).dieAt g).wrote = (s.dieAt g).wrote := by
  rw [State.openFr, wrote_onFrame, State.dieAt_onDie, if_pos rfl]

/-- Where a segment goes depends on RINGCFG and the bypasses alone. -/
theorem goesOn_congr {s t : State} (hr : ∀ n, (t.dieAt n).reg 0x402 = (s.dieAt n).reg 0x402)
    (hb : ∀ n, (t.dieAt n).bypassed = (s.dieAt n).bypassed) (g dir : Nat) : goesOn t g dir = goesOn s g dir := by
  have hmode : ∀ n, t.ringMode n = s.ringMode n := fun n => by rw [State.ringMode, hr, State.ringMode]
  have hpkgs : ∀ n, t.ringPkgs n = s.ringPkgs n := fun n => by rw [State.ringPkgs, hmode, hr, State.ringPkgs]
  have hdies : ∀ n, t.ringDies n = s.ringDies n := fun n => by rw [State.ringDies, hmode, hpkgs, State.ringDies]
  have hhas : ∀ n m, t.ringHas n m = s.ringHas n m := fun n m => by rw [State.ringHas, hmode, hmode, hpkgs, State.ringHas]
  have hadj : ∀ n, adjDie t n dir = adjDie s n dir := fun n => by unfold adjDie; dsimp only; rw [hdies, hhas]
  have hnext : nextDie t g dir = nextDie s g dir := by unfold nextDie; dsimp only; rw [hadj g, hb, hadj]
  rw [goesOn, hnext, hb, goesOn]

theorem sentSt_onFrame (s : State) (g f n : Nat) (h : Frame → Frame) (te : TtEnt) : sentSt (s.onFrame g f h) n te = sentSt s n te := by
  have hd : ∀ m, ((s.onFrame g f h).dieAt m).cr = (s.dieAt m).cr ∧ ((s.onFrame g f h).dieAt m).bypassed = (s.dieAt m).bypassed := fun m => by
    rw [State.onFrame, State.dieAt_onDie]
    split
    · next hm => rw [hm]; exact ⟨rfl, rfl⟩
    · exact ⟨rfl, rfl⟩
  have hgo := goesOn_congr (s := s) (t := s.onFrame g f h) (fun m => by rw [Die.reg, (hd m).1, Die.reg]) fun m => (hd m).2
  rw [sentSt, hgo, hgo, sentSt]

theorem sentSt_segLanded (s : State) (k : Nat) (x : Seg) (f n : Nat) (te : TtEnt) : sentSt (s.segLanded k x f) n te = sentSt s n te := by
  rw [State.segLanded, sentSt_onFrame, State.segArrived, sentSt_onFrame]
  rfl

/-! The clauses of a landing. -/
section
variable {s : State} {x : Seg} (hx : s.segs[s.here.k]? = some x)
include hx

theorem exec_segmentLanding : exec .segmentLanding s =
    s.when (!x.ack && !segBlocked s x &&
      (!x.begun || decide (segSz (s.dieAt x.src) ≤ 16000 * ((s.tickOf x.dst).toNat - x.sent.toNat))))
      (if x.begun then s.segLand s.here.k x else s.segFirst s.here.k x) := by
  show execSegmentLanding s = _
  unfold execSegmentLanding
  rw [hx]

theorem segmentLanding_waits (h : x.ack = true ∨ segBlocked s x = true ∨
    (x.begun = true ∧ ¬segSz (s.dieAt x.src) ≤ 16000 * ((s.tickOf x.dst).toNat - x.sent.toNat))) : exec .segmentLanding s = .next s := by
  rw [exec_segmentLanding hx]
  refine when_of_not ?_ s _
  rcases h with h | h | ⟨h, hc⟩
  · simp [h]
  · simp [h]
  · simp [h, hc]

variable (ha : x.ack = false) (hb : segBlocked s x = false)
include ha hb

theorem exec_segmentLanding_of_held (hn : x.begun = false) : exec .segmentLanding s = .next (s.segFirst s.here.k x) := by
  rw [exec_segmentLanding hx, hn]
  exact when_of (by simp [ha, hb]) s _

theorem exec_segmentLanding_of_crossed (hn : x.begun = true)
    (hc : segSz (s.dieAt x.src) ≤ 16000 * ((s.tickOf x.dst).toNat - x.sent.toNat)) : exec .segmentLanding s = .next (s.segLand s.here.k x) := by
  rw [exec_segmentLanding hx, hn]
  exact when_of (by simp [ha, hb, hc]) s _
end

/-- R429: the first slot of a copy takes a frame. -/
theorem segFirst_lands {s : State} {k e f : Nat} {x : Seg} (hx : s.segs[k]? = some x) (hb : segBlocked s x = false)
    (hr : stationRuns (s.dieAt x.dst) = true) (hn : (s.dieAt x.dst).n0 ≤ x.rot) (he : entryOfSeg s x = some e)
    (hf : landFrame s x.dst (ttEnt s x.dst e) = some f) :
    (s.segFirst k x).segs = setNth s.segs k { x with begun := true, sent := s.tickOf x.src, land := some f } ∧
    (s.segFirst k x).mem = s.mem ∧
    (let fr := frameAt ((s.segFirst k x).dieAt x.dst) f; fr.st = 1 ∧ fr.entry = e ∧ fr.tag = x.tag ∧ fr.rot = x.rot) ∧
    ∀ h, h ≠ f → frameAt ((s.segFirst k x).dieAt x.dst) h = frameAt (s.dieAt x.dst) h := by
  rw [segFirst_of_frame hb hr hn he hf]
  refine ⟨segs_onSeg hx _, rfl, ?_, fun h hne => ?_⟩
  · rw [frameAt_onFrame, if_pos rfl]
    exact ⟨rfl, rfl, rfl, rfl⟩
  · rw [frameAt_onFrame, if_neg hne]
    rfl

section
variable {s : State} {k f e : Nat} {x : Seg} {te : TtEnt} (hx : s.segs[k]? = some x) (hd : x.dup = false) (hl : x.land = some f)
  (he : (frameAt (s.dieAt x.dst) f).entry = e) (hte : ttEnt s x.dst e = te)
include hx hd hl he hte

theorem segLand_discards (hr : stationRuns (s.dieAt x.dst) = true)
    (h : x.rot < (s.dieAt x.dst).n0 ∨ rotTick (s.dieAt x.dst) (x.rot + 1) te.arrive < (s.tickOf x.dst).toNat) :
    (s.segLand k x).segs = setNth s.segs k { x with ack := true } ∧
    (frameAt ((s.segLand k x).dieAt x.dst) f).land = s.tickOf x.dst ∧
    (frameAt ((s.segLand k x).dieAt x.dst) f).st = if (frameAt (s.dieAt x.dst) f).st = 1 then 0 else (frameAt (s.dieAt x.dst) f).st := by
  obtain ⟨sub, addr, heq⟩ := segLand_of_outdated hd hl he hte hr h k
  rw [heq, segs_lateErr, frameAt_lateErr, State.dropLanding, frameAt_onFrame, if_pos rfl]
  exact ⟨segs_segAck hx, rfl, rfl⟩

/-- A copy that comes in its time lands byte for byte; how late it is says what becomes of its frame (R59, R430). -/
theorem segLand_lands (ht : stationRuns (s.dieAt x.dst) = true →
      (s.dieAt x.dst).n0 ≤ x.rot ∧ (s.tickOf x.dst).toNat ≤ rotTick (s.dieAt x.dst) (x.rot + 1) te.arrive)
    (hs : s.Inv) (hw : (s.dieAt x.dst).wrote = []) :
    let q := s.dieAt x.dst
    let l := (s.tickOf x.dst).toNat
    let t := s.segLand k x
    (∃ more, t.segs = setNth s.segs k { x with ack := true } ++ more) ∧
    (l < rotTick q x.rot te.depart → t.segs = setNth s.segs k { x with ack := true }) ∧
    (∀ o < segSz q, memGet t.mem (seraiPa x.dst (f * segSz q) + o) = memGet s.mem (seraiPa x.src (x.frame * segSz (s.dieAt x.src)) + o)) ∧
    (let fr := frameAt (t.dieAt x.dst) f
     fr.land = s.tickOf x.dst ∧ (s.landsLoose x → fr.st = if (frameAt q f).st = 1 then 0 else (frameAt q f).st) ∧
     (¬s.landsLoose x → ¬s.landsLate x e te → fr.st = 2 ∧ fr.entry = e) ∧
     (¬s.landsLoose x → s.landsLate x e te → l < rotTick q x.rot te.depart → fr.st = 3 ∧ fr.entry = e ∧ fr.tag = x.tag ∧ fr.rot = x.rot) ∧
     (¬s.landsLoose x → s.landsLate x e te → rotTick q x.rot te.depart ≤ l → fr.st = sentSt s x.dst te)) := by
  dsimp only
  have hsegs : (s.segLanded k x f).segs = setNth s.segs k { x with ack := true } := segs_segArrived hx f
  have hmem : ∀ o < segSz (s.dieAt x.dst), memGet (s.segLanded k x f).mem (seraiPa x.dst (f * segSz (s.dieAt x.dst)) + o) =
      memGet s.mem (seraiPa x.src (x.frame * segSz (s.dieAt x.src)) + o) := fun o => memGet_segArrived hs k x f
  have hwrote : ((s.segLanded k x f).dieAt x.dst).wrote = [] := (wrote_segLanded s k x f x.dst).trans hw
  by_cases hp : s.landsLoose x
  · have hfr : frameAt (((s.segArrived k x f).dropLanding x.dst f).dieAt x.dst) f = { frameAt (s.dieAt x.dst) f with
        land := s.tickOf x.dst, st := if (frameAt (s.dieAt x.dst) f).st = 1 then 0 else (frameAt (s.dieAt x.dst) f).st } := by
      rw [State.dropLanding, frameAt_onFrame, if_pos rfl, frameAt_segArrived]
      rfl
    rw [segLand_of_loose hd hl he hte ht hp, hfr]
    exact ⟨⟨[], hsegs.trans (List.append_nil _).symm⟩, fun _ => hsegs, hmem, rfl, fun _ => rfl, fun h => absurd hp h, fun h => absurd hp h,
      fun h => absurd hp h⟩
  · by_cases hlate : s.landsLate x e te
    · obtain ⟨sub, addr, heq⟩ := segLand_of_late hd hl he hte ht hp hlate k
      rw [heq]
      by_cases hdep : (s.tickOf x.dst).toNat < rotTick (s.dieAt x.dst) x.rot te.depart
      · rw [if_pos hdep, segs_lateErr, frameAt_lateErr, frameAt_openFr, frameAt_segLanded, mem_lateErr ((wrote_openFr _ _ _ _ _ _).trans hwrote)]
        exact ⟨⟨[], hsegs.trans (List.append_nil _).symm⟩, fun _ => hsegs, hmem, rfl, fun h => absurd h hp, fun _ h => absurd hlate h,
          fun _ _ _ => ⟨rfl, rfl, rfl, rfl⟩, fun _ _ h => absurd hdep (Nat.not_lt.2 h)⟩
      · obtain ⟨⟨more, hmore⟩, hfmem, hfwrote, hfland, hfst⟩ := forward_sends hwrote e f te x.rot
        rw [if_neg hdep, segs_lateErr, frameAt_lateErr, mem_lateErr hfwrote, hfmem, hfland, hfst, hmore, hsegs, frameAt_segLanded,
          sentSt_segLanded]
        exact ⟨⟨more, rfl⟩, fun h => absurd h hdep, hmem, rfl, fun h => absurd h hp, fun _ h => absurd hlate h, fun _ _ h => absurd h hdep,
          fun _ _ _ => rfl⟩
    · obtain ⟨htsegs, htmem, htfr⟩ : (s.segLand k x).segs = (s.segLanded k x f).segs ∧ (s.segLand k x).mem = (s.segLanded k x f).mem ∧
          frameAt ((s.segLand k x).dieAt x.dst) f = frameAt ((s.segLanded k x f).dieAt x.dst) f := by
        rcases segLand_of_not_late hd hl he hte ht hp hlate k with h | ⟨sub, addr, h⟩
        · rw [h]
          exact ⟨rfl, rfl, rfl⟩
        · rw [h]
          exact ⟨segs_lateErr _ _ _ _, mem_lateErr hwrote _ _, frameAt_lateErr _ _ _ _ _ _⟩
      rw [htfr, frameAt_segLanded, htsegs, htmem]
      exact ⟨⟨[], hsegs.trans (List.append_nil _).symm⟩, fun _ => hsegs, hmem, rfl, fun h => absurd h hp, fun _ _ => ⟨rfl, he⟩,
        fun _ h => absurd h hlate, fun _ h => absurd h hlate⟩
end

/-! Acknowledgements (R64). -/
/-- A sender's frame as the acknowledgement of a copy reaches it. -/
def Frame.acked (fr : Frame) (x : Seg) (home : Bool) : Frame :=
  if fr.st == 4 && fr.tag == x.tag && fr.rot == x.rot then
    let fr := if x.dir = 1 then { fr with ackCw := false } else { fr with ackCcw := false }
    if fr.ackCw || fr.ackCcw then fr else { fr with st := if home then 2 else 0 }
  else fr

theorem Frame.acked_of_other {fr : Frame} {x : Seg} (h : ¬(fr.st = 4 ∧ fr.tag = x.tag ∧ fr.rot = x.rot)) (home : Bool) : fr.acked x home = fr := by
  rw [Frame.acked, if_neg]
  simpa [and_assoc] using h

/-- The acknowledgement in the copy's direction is awaited no longer, and the frame is done with once none is. -/
theorem Frame.acked_of_mine {fr : Frame} {x : Seg} (h : fr.st = 4 ∧ fr.tag = x.tag ∧ fr.rot = x.rot) (home : Bool) :
    (x.dir = 1 → (fr.acked x home).ackCw = false ∧ (fr.acked x home).ackCcw = fr.ackCcw) ∧
    (x.dir = 2 → (fr.acked x home).ackCw = fr.ackCw ∧ (fr.acked x home).ackCcw = false) ∧
    ((fr.acked x home).ackCw = false → (fr.acked x home).ackCcw = false → (fr.acked x home).st = if home then 2 else 0) ∧
    ((fr.acked x home).ackCw = true ∨ (fr.acked x home).ackCcw = true → (fr.acked x home).st = 4) := by
  obtain ⟨hst, htag, hrot⟩ := h
  rw [Frame.acked, if_pos (by simp [hst, htag, hrot])]
  by_cases hdir : x.dir = 1
  · cases fr.ackCcw <;> simp [hdir, hst]
  · cases fr.ackCw <;> simp [hdir, hst]

/-- R64, R431: what an acknowledgement changes. -/
theorem landingAcknowledgement_acks {s : State} {x : Seg} (hx : s.segs[s.here.k]? = some x) (ha : x.ack = true) :
    ∃ t, exec .landingAcknowledgement s = .next t ∧ t.segs = s.segs.filter (fun h => !x.twin h) ∧ (∀ a, t.byteAt a = s.byteAt a) ∧
      frameAt (t.dieAt x.src) x.frame =
        (frameAt (s.dieAt x.src) x.frame).acked x (homeFrame s x.src x.frame && stationRuns (s.dieAt x.src)) := by
  let u : State := { s with segs := s.segs.filter fun h => !x.twin h }
  have hexec : exec .landingAcknowledgement s = .next (u.frameAcked x) := by
    show execLandingAcknowledgement s = _
    unfold execLandingAcknowledgement
    rw [hx]
    exact when_of ha s _
  have hhome : homeFrame u x.src x.frame = homeFrame s x.src x.frame := homeFrame_congr rfl (fun a _ => byteAt_congr rfl rfl a) _
  refine ⟨_, hexec, rfl, fun a => (byteAt_onDie u x.src rfl a).trans (byteAt_congr rfl rfl a), ?_⟩
  rw [State.frameAcked, hhome]
  exact (frameAt_onFrame u _ _ _ _).trans (if_pos rfl)

theorem landingAcknowledgement_of_unacked {s : State} {x : Seg} (hx : s.segs[s.here.k]? = some x) (ha : x.ack = false) :
    exec .landingAcknowledgement s = .next s := by
  show execLandingAcknowledgement s = _
  unfold execLandingAcknowledgement
  rw [hx]
  exact when_of_not ha s _

/-! Copies that are not acknowledged in time (R431, R432). -/
/-- The bound of R64 for the acknowledgement of a copy has passed. -/
abbrev State.ackLate (s : State) (x : Seg) : Prop :=
  segSz (s.dieAt x.src) + 16000 * 600 < 16000 * ((s.tickOf x.src).toNat - x.sent.toNat)

section
variable {s : State} {x : Seg} (hx : s.segs[s.here.k]? = some x)
include hx

theorem ackTimeoutResend_waits (h : x.begun = false ∨ x.dup = true ∨ ¬s.ackLate x ∨ segBlocked s x = true) :
    exec .ackTimeoutResend s = .next s := by
  show execAckTimeoutResend s = _
  unfold execAckTimeoutResend
  rw [hx]
  refine when_of_not ?_ s _
  rcases h with h | h | h | h
  · simp [h]
  · simp [h]
  · rw [State.ackLate] at h
    simp [h]
  · simp [h]

variable (hb : x.begun = true) (hd : x.dup = false) (hl : s.ackLate x) (hu : segBlocked s x = false)
include hb hd hl hu

theorem ackTimeoutResend_resends (hr : x.resent = false) : ∃ t, exec .ackTimeoutResend s = .next t ∧
    t.segs = setNth s.segs s.here.k { x with resent := true, sent := s.tickOf x.src } ++
      if x.ack then [{ x with resent := true, sent := s.tickOf x.src, ack := false, dup := true }] else [] := by
  let y : Seg := { x with resent := true, sent := s.tickOf x.src }
  let u : State := { s with segs := setNth s.segs s.here.k y ++ if x.ack then [{ y with ack := false, dup := true }] else [] }
  have hexec : exec .ackTimeoutResend s = .next ((u.countResend x.src).err x.src noCore 0x32 1 0
      (seraiPa x.src (x.frame * segSz (s.dieAt x.src))) x.tag.toNat (bytesOf 8 (segSz (s.dieAt x.src) / 256))) := by
    show execAckTimeoutResend s = _
    unfold execAckTimeoutResend
    rw [hx]
    dsimp only
    rw [hr, if_neg Bool.false_ne_true]
    exact when_of (by rw [State.ackLate] at hl; simp [hb, hd, hu, hl]) s _
  exact ⟨_, hexec, (keepsRing_err _ _ _ _ _ _ _ _ _).segs⟩

theorem ackTimeoutResend_fails (hr : x.resent = true) : ∃ t, exec .ackTimeoutResend s = .next t ∧ t.segs = s.segs ∧
    ∀ m ∈ linkMates s x.src (outLink x), linkDown (t.dieAt m.1) m.2 = true := by
  have hexec : exec .ackTimeoutResend s = .next ((s.markLink x.src (outLink x) 2).err x.src noCore 0x33 1 0 0 (linkCode (outLink x)) (bytesOf 8 0)) := by
    show execAckTimeoutResend s = _
    unfold execAckTimeoutResend
    rw [hx]
    dsimp only
    rw [hr, if_pos rfl]
    exact when_of (by rw [State.ackLate] at hl; simp [hb, hd, hu, hl]) s _
  refine ⟨_, hexec, ?_, fun m hm => ?_⟩
  · rw [(keepsRing_err _ _ _ _ _ _ _ _ _).segs, segs_markLink]
  · rw [linkDown_err, linkDown_markLink _ _ _ (by decide), if_pos hm]
end

/-! The clauses of RingLandingsAndLinks about one copy. -/
section
variable {s : State} {x : Seg} (hx : s.segs[s.here.k]? = some x) (ha : x.ack = false) (hb : segBlocked s x = false)
include hx ha hb

/-- R429, R458: a copy that its sender held. -/
theorem segmentLanding_starts (hn : x.begun = false) : let q := s.dieAt x.dst
    let starts : Option Nat → List Seg := fun f => setNth s.segs s.here.k { x with begun := true, sent := s.tickOf x.src, land := f }
    (stationRuns q = false ∨ x.rot < q.n0 ∨ entryOfSeg s x = none →
      ∃ t, exec .segmentLanding s = .next t ∧ t.segs = starts none ∧ (∀ n, t.dieAt n = s.dieAt n) ∧ t.mem = s.mem) ∧
    (∀ e, stationRuns q = true → q.n0 ≤ x.rot → entryOfSeg s x = some e →
      (landFrame s x.dst (ttEnt s x.dst e) = none → exec .segmentLanding s = .next s) ∧
      (∀ f, landFrame s x.dst (ttEnt s x.dst e) = some f → ∃ t, exec .segmentLanding s = .next t ∧ t.segs = starts (some f) ∧ t.mem = s.mem ∧
        (let fr := frameAt (t.dieAt x.dst) f; fr.st = 1 ∧ fr.entry = e ∧ fr.tag = x.tag ∧ fr.rot = x.rot) ∧
        ∀ h, h ≠ f → frameAt (t.dieAt x.dst) h = frameAt q h)) := by
  have hexec := exec_segmentLanding_of_held hx ha hb hn
  refine ⟨fun h => ⟨_, hexec, ?_⟩, fun e hr hrot he => ⟨fun hf => ?_, fun f hf => ⟨_, hexec, segFirst_lands hx hb hr hrot he hf⟩⟩⟩
  · rw [segFirst_of_unexpected hb h]
    exact ⟨segs_onSeg hx _, fun _ => rfl, rfl⟩
  · rw [hexec, segFirst_of_full hb hr hrot he hf]

/-- R429-R431, R458, R59: a copy that has crossed its link. -/
theorem segmentLanding_lands (hn : x.begun = true) (hc : segSz (s.dieAt x.src) ≤ 16000 * ((s.tickOf x.dst).toNat - x.sent.toNat)) :
    let q := s.dieAt x.dst
    let acked := setNth s.segs s.here.k { x with ack := true }
    (x.dup = true → ∃ t, exec .segmentLanding s = .next t ∧ t.segs = acked ∧ (∀ n, t.dieAt n = s.dieAt n) ∧ t.mem = s.mem) ∧
    (x.dup = false → x.land = none → ∃ t, exec .segmentLanding s = .next t ∧ t.segs = acked ∧ (t.dieAt x.dst).frames = q.frames) ∧
    (∀ f, x.dup = false → x.land = some f →
      let e := (frameAt q f).entry
      let te := ttEnt s x.dst e
      let l := (s.tickOf x.dst).toNat
      let runs := stationRuns q
      let goes := (te.fcw && goesOn s x.dst 1) || (te.fccw && goesOn s x.dst 2)
      ((runs = true ∧ (x.rot < q.n0 ∨ rotTick q (x.rot + 1) te.arrive < l)) → ∃ t, exec .segmentLanding s = .next t ∧ t.segs = acked ∧
        (frameAt (t.dieAt x.dst) f).land = s.tickOf x.dst ∧
        (frameAt (t.dieAt x.dst) f).st = if (frameAt q f).st = 1 then 0 else (frameAt q f).st) ∧
      ((runs = true → q.n0 ≤ x.rot ∧ l ≤ rotTick q (x.rot + 1) te.arrive) → s.Inv → q.wrote = [] →
        ∃ t, exec .segmentLanding s = .next t ∧ (∃ more, t.segs = acked ++ more) ∧ (l < rotTick q x.rot te.depart → t.segs = acked) ∧
          (∀ o < segSz q, memGet t.mem (seraiPa x.dst (f * segSz q) + o) = memGet s.mem (seraiPa x.src (x.frame * segSz (s.dieAt x.src)) + o)) ∧
          (let fr := frameAt (t.dieAt x.dst) f
           let prog := runs = false ∨ x.prog = true
           let opens := runs = true ∧ x.prog = false ∧ rotTick q x.rot te.arrive < l ∧
             (rotTick q x.rot te.latest < l ∨ x.rot < (entSt q e).next1)
           fr.land = s.tickOf x.dst ∧ (prog → fr.st = if (frameAt q f).st = 1 then 0 else (frameAt q f).st) ∧
           (¬prog → ¬opens → fr.st = 2 ∧ fr.entry = e) ∧
           (opens → l < rotTick q x.rot te.depart → fr.st = 3 ∧ fr.entry = e ∧ fr.tag = x.tag ∧ fr.rot = x.rot) ∧
           (opens → rotTick q x.rot te.depart ≤ l →
             fr.st = if goes then 4 else if te.src = 0 then 2 else 0)))) := by
  have hexec := exec_segmentLanding_of_crossed hx ha hb hn hc
  refine ⟨fun hd => ⟨_, hexec, ?_⟩, fun hd hl => ⟨_, hexec, ?_⟩, fun f hd hl => ⟨fun ⟨hr, h⟩ => ⟨_, hexec, segLand_discards hx hd hl rfl rfl hr h⟩,
    fun ht hs hw => ⟨_, hexec, ?_⟩⟩⟩
  · rw [segLand_of_dup hd]
    exact ⟨segs_segAck hx, fun _ => rfl, rfl⟩
  · rw [segLand_of_no_frame hd hl]
    exact ⟨(segs_lateErr _ _ _ _).trans (segs_segAck hx), (keepsRing_err _ _ _ _ _ _ _ _ _).frames _⟩
  · obtain ⟨hsegs, hearly, hmem, hland, hloose, hlanded, hopen, hsent⟩ := segLand_lands hx hd hl rfl rfl ht hs hw
    have hopens : ∀ {p : Prop}, stationRuns (s.dieAt x.dst) = true ∧ x.prog = false ∧ p → ¬s.landsLoose x := by
      rintro p ⟨hr, hp, -⟩ (h | h)
      · rw [hr] at h; cases h
      · rw [hp] at h; cases h
    refine ⟨hsegs, hearly, hmem, hland, hloose, fun hp hno => hlanded hp fun hlate => hno ?_, fun ho => hopen (hopens ho) ho.2.2,
      fun ho => hsent (hopens ho) ho.2.2⟩
    rw [not_or, Bool.not_eq_false, Bool.not_eq_true] at hp
    exact ⟨hp.1, hp.2, hlate⟩
end

/-- Settles O53: the branches of a landing, of an acknowledgement and of a timeout, one lemma each; then the park of a slot, the bypass of a
die, the count of resends, and the two ends of a retrain. -/
theorem ringLandingsAndLinks : Obligations.RingLandingsAndLinks := by
  unfold Obligations.RingLandingsAndLinks
  intro s g d
  refine ⟨fun x hx => ⟨segmentLanding_waits hx, fun ha hb hn => segmentLanding_starts hx ha hb hn,
      fun ha hb hn hc => segmentLanding_lands hx ha hb hn hc, landingAcknowledgement_of_unacked hx, fun ha => ?_,
      ackTimeoutResend_waits hx, fun hn hd hl hb => ⟨ackTimeoutResend_resends hx hn hd hl hb, ackTimeoutResend_fails hx hn hd hl hb⟩⟩,
    fun hk => ⟨slotPark_of_not_due rfl, slotPark_parks rfl hk⟩, fun h => ?_, fun v hv => bypass_bypasses hv, fun v hv h hb => ?_,
    slotResendRequest_counts rfl, fun h => ?_, linkError_takes rfl, fun h => ?_, linkRetrainEnd_ends rfl⟩
  · obtain ⟨t, hexec, hsegs, hbytes, hframe⟩ := landingAcknowledgement_acks hx ha
    refine ⟨t, hexec, hsegs, hbytes, ?_⟩
    dsimp only
    rw [hframe]
    exact ⟨fun h => Frame.acked_of_other h _, fun h => (Frame.acked_of_mine h _).1, fun h => (Frame.acked_of_mine h _).2.1,
      fun h => (Frame.acked_of_mine h _).2.2.1, fun h => (Frame.acked_of_mine h _).2.2.2⟩
  · show execBypass s = _
    rw [execBypass, pairAgreed_of_differ h, Option.elim_none]
  · show execBypass s = _
    rw [execBypass, pairAgreed_of_agree hv h, Option.elim_some, if_pos hb]
  · exact when_of_not (by rw [h]; rfl) s _
  · exact when_of_not (by rw [h]; rfl) s _

end Sys2Proof.Machine

namespace Sys2Proof.Machine

/-! The checks of a cluster-window address (R190). -/
theorem upFrom_eq_range' (a n : Nat) : upFrom a n = List.range' a n := by
  induction n generalizing a with
  | zero => rfl
  | succ n ih => rw [upFrom, ih, List.range'_succ]

/-- The first number below n with a property, which n - 1 has: no smaller number has it. -/
theorem exists_find?_upFrom {p : Nat → Bool} {n : Nat} (hn : 0 < n) (h : p (n - 1) = true) :
    ∃ k < n, (upFrom 0 n).find? p = some k ∧ p k = true ∧ ∀ m < k, p m = false := by
  obtain ⟨k, hk⟩ := Option.isSome_iff_exists.1
    (List.find?_isSome.2 ⟨n - 1, mem_upFrom.2 (by omega), h⟩ : ((upFrom 0 n).find? p).isSome)
  have hlt := (mem_upFrom.1 (List.mem_of_find?_eq_some hk)).2
  refine ⟨k, by omega, hk, List.find?_some hk, fun m hm => ?_⟩
  rw [upFrom_eq_range', List.find?_range'_eq_some] at hk
  obtain ⟨-, -, hmin⟩ := hk
  simpa using hmin m (Nat.zero_le m) hm

namespace CwAcc

theorem range_of_outside {a : CwAcc} (h : a.ea < 0 ∨ 192 * 2 ^ 22 ≤ a.ea) : a.range = some (1, 0, (a.ea % 2 ^ 64).toNat) := by
  rw [range, if_pos (by simpa using h)]

theorem range_of_crossing {a : CwAcc} (h0 : 0 ≤ a.ea) (h1 : a.ea < 192 * 2 ^ 22) (h : 192 * 2 ^ 22 < a.ea + a.n) :
    a.range = some (1, 0, 192 * 2 ^ 22) := by
  rw [range, if_neg (by simpa using ⟨h0, h1⟩), if_pos h]

theorem range_of_inside {a : CwAcc} (h0 : 0 ≤ a.ea) (h1 : a.ea < 192 * 2 ^ 22) (h : a.ea + a.n ≤ 192 * 2 ^ 22) : a.range = none := by
  rw [range, if_neg (by simpa using ⟨h0, h1⟩), if_neg (by omega)]

theorem mod_al_eq_zero_iff {a : CwAcc} (h0 : 0 ≤ a.ea) : a.ea.toNat % a.al = 0 ↔ (a.al : Int) ∣ a.ea := by
  rw [← Nat.dvd_iff_mod_eq_zero, ← Int.natCast_dvd_natCast, Int.toNat_of_nonneg h0]

theorem align_of_not_dvd {a : CwAcc} (h0 : 0 ≤ a.ea) (h : ¬ (a.al : Int) ∣ a.ea) : a.align = some (2, 0, a.ea.toNat) := by
  rw [align, if_pos (bne_iff_ne.2 (mt (mod_al_eq_zero_iff h0).1 h))]

theorem align_of_dvd {a : CwAcc} (h0 : 0 ≤ a.ea) (h : (a.al : Int) ∣ a.ea) : a.align = none := by
  rw [align, if_neg (by simpa using (mod_al_eq_zero_iff h0).2 h)]

theorem perm_of_ok {s : State} {a : CwAcc} (h : cwOk s s.here.die s.here.core s.job a.need a.ea.toNat a.n = true) : a.perm s = none :=
  if_pos h

/-- R402: the first byte that no area holds together with those before it fails. -/
theorem perm_of_not_ok {s : State} {a : CwAcc} (hn : 0 < a.n)
    (h : cwOk s s.here.die s.here.core s.job a.need a.ea.toNat a.n = false) :
    ∃ k < a.n, a.perm s = some (1, 1, a.ea.toNat + k) ∧ cwOk s s.here.die s.here.core s.job a.need a.ea.toNat (k + 1) = false ∧
      ∀ m, 0 < m → m ≤ k → cwOk s s.here.die s.here.core s.job a.need a.ea.toNat m = true := by
  obtain ⟨k, hk, hfind, hbad, hmin⟩ := exists_find?_upFrom
    (p := fun k => !cwOk s s.here.die s.here.core s.job a.need a.ea.toNat (k + 1)) hn (by simp [Nat.sub_add_cancel hn, h])
  refine ⟨k, hk, ?_, by simpa using hbad, fun m h0 hm => ?_⟩
  · rw [perm, if_neg (by simp [h]), hfind, Option.getD_some]
  · simpa [Nat.sub_add_cancel h0] using hmin (m - 1) (by omega)

end CwAcc

namespace State
variable {s : State} {need : Need} {ea : Int} {n al : Nat}

/-- Of one access the checks are made in the order range, alignment, permission; the first that fails names the trap. -/
theorem cwAll_singleton (s : State) (a : CwAcc) : s.cwAll [a] = (a.range.or a.align).or (a.perm s) := by
  simp [cwAll]

theorem cw_of_trap {e : Nat × Nat × Nat} (h : s.cwAll [{ need := need, ea := ea, n := n, al := al }] = some e) :
    s.cw need ea n al = .error e := by
  rw [cw, h]

theorem cw_of_no_trap (h : s.cwAll [{ need := need, ea := ea, n := n, al := al }] = none) :
    s.cw need ea n al = .ok (s.winPa ea.toNat) := by
  rw [cw, h]

theorem withCw_of_error {c k x : Nat} (f : Nat → State) (h : s.cw need ea n al = .error (c, k, x)) :
    s.withCw need ea n al f = s.trapC c k x := by
  rw [withCw, h]

end State

/-- R190, R192: a cluster-window word whose address check fails takes the trap of the check. -/
theorem exec_of_cw_error {i : Instr} {s : State} {need : Need} {ea : Int} {n c k x : Nat} (h : CwWord s i need ea n)
    (e : s.cw need ea n n = .error (c, k, x)) : exec i s = .next (s.trapC c k x) := by
  cases h with
  | load h => cases h <;> exact congrArg _ (State.withCw_of_error _ e)
  | store h => cases h <;> exact congrArg _ (State.withCw_of_error _ e)
  | atomic h => cases h <;> exact congrArg _ (State.withCw_of_error _ e)
  | arm => exact congrArg _ (State.withCw_of_error _ e)

/-- Settles O4: the address outside the window, past its end, misaligned, good, and refused by the grant; then the words. -/
theorem clusterWindowAddress : Obligations.ClusterWindowAddress := by
  unfold Obligations.ClusterWindowAddress
  refine ⟨fun s need ea n al _ => ⟨fun h => State.cw_of_trap ?_, fun h0 h1 h => State.cw_of_trap ?_, fun h0 h1 h2 h => State.cw_of_trap ?_,
    fun h0 h1 h2 h3 => ⟨fun h => State.cw_of_no_trap ?_, fun h hn => ?_⟩⟩, fun _ _ _ _ _ _ _ _ => exec_of_cw_error⟩
  · rw [State.cwAll_singleton, CwAcc.range_of_outside h, Option.some_or, Option.some_or]
  · rw [State.cwAll_singleton, CwAcc.range_of_crossing h0 h1 h, Option.some_or, Option.some_or]
  · rw [State.cwAll_singleton, CwAcc.range_of_inside h0 h1 h2, CwAcc.align_of_not_dvd h0 h, Option.none_or, Option.some_or]
  · rw [State.cwAll_singleton, CwAcc.range_of_inside h0 h1 h2, CwAcc.align_of_dvd h0 h3, CwAcc.perm_of_ok (a := ⟨need, ea, n, al⟩) h,
      Option.none_or, Option.none_or]
  · obtain ⟨k, hk, hperm, hbad, hgood⟩ := CwAcc.perm_of_not_ok (a := ⟨need, ea, n, al⟩) hn h
    refine ⟨k, hk, State.cw_of_trap ?_, hbad, hgood⟩
    rw [State.cwAll_singleton, CwAcc.range_of_inside h0 h1 h2, CwAcc.align_of_dvd h0 h3, hperm, Option.none_or, Option.none_or]

end Sys2Proof.Machine

namespace Sys2Proof.Machine

/-- What a step that answers a next state has done: a stream's turn without a word, the word that a turn issued, the event that was due to
happen, or a move that runs no instruction. -/
theorem step_cases {s t : State} (e : step s = .next t) :
    (∃ die core st u, s.nextMove = (.issue die core st, u) ∧
      ({ u with here := { die := die, core := core, st := st } } : State).issueW st = (none, t)) ∨
    (∃ die core st u i w, s.nextMove = (.issue die core st, u) ∧
      ({ u with here := { die := die, core := core, st := st } } : State).issueW st = (some i, w) ∧ exec i w = .next t) ∨
    (∃ i a u, s.nextMove = (.event i a, u) ∧ exec i { u with here := a } = .next t) ∨
    ∃ m u, s.nextMove = (m, u) ∧ t = u.outside m := by
  rw [step] at e
  rcases hm : s.nextMove with ⟨m, u⟩
  rw [hm] at e
  cases m with
  | issue die core st =>
    dsimp only at e
    split at e
    · rcases hw : ({ u with here := { die := die, core := core, st := st } } : State).issueW st with ⟨_ | i, w⟩
      · rw [hw] at e; cases e
        exact .inl ⟨_, _, _, _, rfl, hw⟩
      · rw [hw] at e
        exact .inr (.inl ⟨_, _, _, _, _, _, rfl, hw, e⟩)
    · cases e
  | event i a =>
    dsimp only at e
    split at e
    · exact .inr (.inr (.inl ⟨_, _, _, rfl, e⟩))
    · cases e
  | pass | companion | companionRead | root | soft =>
    exact .inr (.inr (.inr ⟨_, _, rfl, (Host.Outcome.next.inj e).symm⟩))

/-- Every instruction and every step of the device keeps memory in its canonical form (R81, R108): one lemma of Laws/Wf*.lean for each
constructor. -/
theorem exec_wf {i : Instr} {s t : State} (e : exec i s = .next t) (hs : Wf s) : Wf t := by
  cases i with
  | cAdd => exact execCAdd_wf e hs
  | cSub => exact execCSub_wf e hs
  | cAnd => exact execCAnd_wf e hs
  | cOr => exact execCOr_wf e hs
  | cXor => exact execCXor_wf e hs
  | andn => exact execAndn_wf e hs
  | cShl => exact execCShl_wf e hs
  | cShr => exact execCShr_wf e hs
  | cSra => exact execCSra_wf e hs
  | cMul => exact execCMul_wf e hs
  | mulh => exact execMulh_wf e hs
  | mulhu => exact execMulhu_wf e hs
  | div => exact execDiv_wf e hs
  | divu => exact execDivu_wf e hs
  | rem => exact execRem_wf e hs
  | remu => exact execRemu_wf e hs
  | cMin => exact execCMin_wf e hs
  | cMax => exact execCMax_wf e hs
  | minu => exact execMinu_wf e hs
  | maxu => exact execMaxu_wf e hs
  | clz => exact execClz_wf e hs
  | popc => exact execPopc_wf e hs
  | seq => exact execSeq_wf e hs
  | sne => exact execSne_wf e hs
  | cSlt => exact execCSlt_wf e hs
  | cSltu => exact execCSltu_wf e hs
  | sel => exact execSel_wf e hs
  | cAddi => exact execCAddi_wf e hs
  | andi => exact execAndi_wf e hs
  | ori => exact execOri_wf e hs
  | xori => exact execXori_wf e hs
  | cShli => exact execCShli_wf e hs
  | cShri => exact execCShri_wf e hs
  | cSrai => exact execCSrai_wf e hs
  | slti => exact execSlti_wf e hs
  | sltiu => exact execSltiu_wf e hs
  | cLiz => exact execCLiz_wf e hs
  | cLik => exact execCLik_wf e hs
  | cBeqz => exact execCBeqz_wf e hs
  | cBnez => exact execCBnez_wf e hs
  | cBltz => exact execCBltz_wf e hs
  | cBgez => exact execCBgez_wf e hs
  | cBlez => exact execCBlez_wf e hs
  | cBgtz => exact execCBgtz_wf e hs
  | cJmp => exact execCJmp_wf e hs
  | call => exact execCall_wf e hs
  | jr => exact execJr_wf e hs
  | callr => exact execCallr_wf e hs
  | cLdb => exact execCLdb_wf e hs
  | cLdbu => exact execCLdbu_wf e hs
  | cLdh => exact execCLdh_wf e hs
  | cLdhu => exact execCLdhu_wf e hs
  | cLdw => exact execCLdw_wf e hs
  | cLdwu => exact execCLdwu_wf e hs
  | cLdd => exact execCLdd_wf e hs
  | cStb => exact execCStb_wf e hs
  | cSth => exact execCSth_wf e hs
  | cStw => exact execCStw_wf e hs
  | cStd => exact execCStd_wf e hs
  | atadd => exact execAtadd_wf e hs
  | atswp => exact execAtswp_wf e hs
  | atcas => exact execAtcas_wf e hs
  | atmin => exact execAtmin_wf e hs
  | atmax => exact execAtmax_wf e hs
  | atminu => exact execAtminu_wf e hs
  | atmaxu => exact execAtmaxu_wf e hs
  | arm => exact execArm_wf e hs
  | rinit => exact execRinit_wf e hs
  | rclaim => exact execRclaim_wf e hs
  | rpub => exact execRpub_wf e hs
  | rwfill => exact execRwfill_wf e hs
  | rtake => exact execRtake_wf e hs
  | rwfree => exact execRwfree_wf e hs
  | reos => exact execReos_wf e hs
  | bind => exact execBind_wf e hs
  | acq => exact execAcq_wf e hs
  | rel => exact execRel_wf e hs
  | fence => exact execFence_wf e hs
  | fenceFlagged => exact execFenceFlagged_wf e hs
  | spawn => exact execSpawn_wf e hs
  | join => exact execJoin_wf e hs
  | exit => exact execExit_wf e hs
  | yield => exact execYield_wf e hs
  | segw => exact execSegw_wf e hs
  | mxq => exact execMxq_wf e hs
  | mxd => exact execMxd_wf e hs
  | xfc => exact execXfc_wf e hs
  | evx => exact execEvx_wf e hs
  | cplan => exact execCplan_wf e hs
  | ctrig => exact execCtrig_wf e hs
  | cseal => exact execCseal_wf e hs
  | cmani => exact execCmani_wf e hs
  | cabort => exact execCabort_wf e hs
  | crr => exact execCrr_wf e hs
  | crw => exact execCrw_wf e hs
  | trap => exact execTrap_wf e hs
  | tlbiPage => exact execTlbiPage_wf e hs
  | tlbiAsid => exact execTlbiAsid_wf e hs
  | tlbiAll a => exact execTlbiAll_wf (x0 := a) e hs
  | c16Mov => exact execC16Mov_wf e hs
  | c16Add => exact execC16Add_wf e hs
  | c16Sub => exact execC16Sub_wf e hs
  | c16And => exact execC16And_wf e hs
  | c16Or => exact execC16Or_wf e hs
  | c16Xor => exact execC16Xor_wf e hs
  | c16Addi => exact execC16Addi_wf e hs
  | c16Liz => exact execC16Liz_wf e hs
  | c16Shli => exact execC16Shli_wf e hs
  | c16Shri => exact execC16Shri_wf e hs
  | c16Srai => exact execC16Srai_wf e hs
  | c16Ldd => exact execC16Ldd_wf e hs
  | c16Std => exact execC16Std_wf e hs
  | aAdd => exact execAAdd_wf e hs
  | aSub => exact execASub_wf e hs
  | aAnd => exact execAAnd_wf e hs
  | aOr => exact execAOr_wf e hs
  | aXor => exact execAXor_wf e hs
  | aShl => exact execAShl_wf e hs
  | aShr => exact execAShr_wf e hs
  | aSra => exact execASra_wf e hs
  | aMul => exact execAMul_wf e hs
  | aMin => exact execAMin_wf e hs
  | aMax => exact execAMax_wf e hs
  | aSlt => exact execASlt_wf e hs
  | aSltu => exact execASltu_wf e hs
  | aAddi => exact execAAddi_wf e hs
  | aLiz => exact execALiz_wf e hs
  | aLik => exact execALik_wf e hs
  | aShli => exact execAShli_wf e hs
  | aShri => exact execAShri_wf e hs
  | aSrai => exact execASrai_wf e hs
  | ldq => exact execLdq_wf e hs
  | ldq2 => exact execLdq2_wf e hs
  | stq => exact execStq_wf e hs
  | stqnt => exact execStqnt_wf e hs
  | gather => exact execGather_wf e hs
  | scatter => exact execScatter_wf e hs
  | ldsr => exact execLdsr_wf e hs
  | pfc _ _ k => exact execPfc_wf (x2 := k) e hs
  | aLdb => exact execALdb_wf e hs
  | aLdbu => exact execALdbu_wf e hs
  | aLdh => exact execALdh_wf e hs
  | aLdhu => exact execALdhu_wf e hs
  | aLdw => exact execALdw_wf e hs
  | aLdwu => exact execALdwu_wf e hs
  | aLdd => exact execALdd_wf e hs
  | aStb => exact execAStb_wf e hs
  | aSth => exact execASth_wf e hs
  | aStw => exact execAStw_wf e hs
  | aStd => exact execAStd_wf e hs
  | sqp => exact execSqp_wf e hs
  | ldsq => exact execLdsq_wf e hs
  | aBeqz => exact execABeqz_wf e hs
  | aBnez => exact execABnez_wf e hs
  | aBltz => exact execABltz_wf e hs
  | aBgez => exact execABgez_wf e hs
  | aBlez => exact execABlez_wf e hs
  | aBgtz => exact execABgtz_wf e hs
  | aJmp => exact execAJmp_wf e hs
  | cset => exact execCset_wf e hs
  | a16Add => exact execA16Add_wf e hs
  | a16Sub => exact execA16Sub_wf e hs
  | a16Addi => exact execA16Addi_wf e hs
  | a16Mov => exact execA16Mov_wf e hs
  | a16Shli => exact execA16Shli_wf e hs
  | a16Liz => exact execA16Liz_wf e hs
  | vnop => exact execVnop_wf e hs
  | vadd => exact execVadd_wf e hs
  | vsub => exact execVsub_wf e hs
  | vmul => exact execVmul_wf e hs
  | vmulh => exact execVmulh_wf e hs
  | vfma => exact execVfma_wf e hs
  | vfms => exact execVfms_wf e hs
  | vmin => exact execVmin_wf e hs
  | vmax => exact execVmax_wf e hs
  | vand => exact execVand_wf e hs
  | vor => exact execVor_wf e hs
  | vxor => exact execVxor_wf e hs
  | vshl => exact execVshl_wf e hs
  | vshr => exact execVshr_wf e hs
  | vadds => exact execVadds_wf e hs
  | vsubs => exact execVsubs_wf e hs
  | vabs => exact execVabs_wf e hs
  | vneg => exact execVneg_wf e hs
  | vnot => exact execVnot_wf e hs
  | vmov => exact execVmov_wf e hs
  | vexp2 => exact execVexp2_wf e hs
  | vlog2 => exact execVlog2_wf e hs
  | vrcp => exact execVrcp_wf e hs
  | vrsq => exact execVrsq_wf e hs
  | vrcpf => exact execVrcpf_wf e hs
  | vrsqf => exact execVrsqf_wf e hs
  | vclz => exact execVclz_wf e hs
  | vpopc => exact execVpopc_wf e hs
  | vcmp => exact execVcmp_wf e hs
  | vsel => exact execVsel_wf e hs
  | pand => exact execPand_wf e hs
  | por => exact execPor_wf e hs
  | pxor => exact execPxor_wf e hs
  | pandn => exact execPandn_wf e hs
  | pnot => exact execPnot_wf e hs
  | vcvt => exact execVcvt_wf e hs
  | vqmx => exact execVqmx_wf e hs
  | vdqmx => exact execVdqmx_wf e hs
  | vrsum => exact execVrsum_wf e hs
  | vrmax => exact execVrmax_wf e hs
  | vrmin => exact execVrmin_wf e hs
  | vrargmax => exact execVrargmax_wf e hs
  | vperm => exact execVperm_wf e hs
  | vshuf => exact execVshuf_wf e hs
  | vzip => exact execVzip_wf e hs
  | vunzip => exact execVunzip_wf e hs
  | vbcast => exact execVbcast_wf e hs
  | vslideu => exact execVslideu_wf e hs
  | vslided => exact execVslided_wf e hs
  | vwiden => exact execVwiden_wf e hs
  | vnarrow => exact execVnarrow_wf e hs
  | vpop => exact execVpop_wf e hs
  | vpush => exact execVpush_wf e hs
  | vsett => exact execVsett_wf e hs
  | vldc => exact execVldc_wf e hs
  | vrot => exact execVrot_wf e hs
  | viota => exact execViota_wf e hs
  | mswait => exact execMswait_wf e hs
  | mssig => exact execMssig_wf e hs
  | xevwait => exact execXevwait_wf e hs
  | xevsig => exact execXevsig_wf e hs
  | rago => exact execRago_wf e hs
  | rares => exact execRares_wf e hs
  | sq => exact execSq_wf e hs
  | cnopen => exact execCnopen_wf e hs
  | cncur => exact execCncur_wf e hs
  | cnbind => exact execCnbind_wf e hs
  | rqfin => exact execRqfin_wf e hs
  | kvcfgWrite => exact execKvcfgWrite_wf e hs
  | mdcfgWrite => exact execMdcfgWrite_wf e hs
  | mnqCiWrite => exact execMnqCiWrite_wf e hs
  | wload => exact execWload_wf e hs
  | dcnt => exact execDcnt_wf e hs
  | therm => exact execTherm_wf e hs
  | rsttlenWrite => exact execRsttlenWrite_wf e hs
  | cqcfgWrite => exact execCqcfgWrite_wf e hs
  | scrcfgRead => exact execScrcfgRead_wf e hs
  | waite => exact execWaite_wf e hs
  | rdv => exact execRdv_wf e hs
  | eretReturn => exact execEretReturn_wf e hs
  | eretResume => exact execEretResume_wf e hs
  | c16Nop => exact execC16Nop_wf e hs
  | a16Nop => exact execA16Nop_wf e hs
  | realn => exact execRealn_wf e hs
  | writeBackLanding => exact execWriteBackLanding_wf e hs
  | realnBoundary => exact execRealnBoundary_wf e hs
  | blockFetch => exact execBlockFetch_wf e hs
  | accessPerform => exact execAccessPerform_wf e hs
  | waiteWake => exact execWaiteWake_wf e hs
  | rdvComplete => exact execRdvComplete_wf e hs
  | exitEnd => exact execExitEnd_wf e hs
  | yieldEnd => exact execYieldEnd_wf e hs
  | segwComplete => exact execSegwComplete_wf e hs
  | ringWaitComplete => exact execRingWaitComplete_wf e hs
  | queueWaitComplete => exact execQueueWaitComplete_wf e hs
  | jobTake => exact execJobTake_wf e hs
  | recordPromotion => exact execRecordPromotion_wf e hs
  | heldPushEntry => exact execHeldPushEntry_wf e hs
  | recordWindowStore => exact execRecordWindowStore_wf e hs
  | admissionWindowStore => exact execAdmissionWindowStore_wf e hs
  | admissionHeldEntry => exact execAdmissionHeldEntry_wf e hs
  | allocationWindowRead => exact execAllocationWindowRead_wf e hs
  | launchEntryFire => exact execLaunchEntryFire_wf e hs
  | preempt => exact execPreempt_wf e hs
  | preemptionFreeze => exact execPreemptionFreeze_wf e hs
  | engineFaultDelivery => exact execEngineFaultDelivery_wf e hs
  | descriptorLoad => exact execDescriptorLoad_wf e hs
  | mnop => exact execMnop_wf e hs
  | mma => exact execMma_wf e hs
  | mmax => exact execMmax_wf e hs
  | zeroz => exact execZeroz_wf e hs
  | loadz => exact execLoadz_wf e hs
  | storez => exact execStorez_wf e hs
  | drainz => exact execDrainz_wf e hs
  | drainq => exact execDrainq_wf e hs
  | glz => exact execGlz_wf e hs
  | atsc => exact execAtsc_wf e hs
  | atsoInit => exact execAtsoInit_wf e hs
  | atsoUpdate => exact execAtsoUpdate_wf e hs
  | atsoFinal => exact execAtsoFinal_wf e hs
  | atsoMass => exact execAtsoMass_wf e hs
  | atav => exact execAtav_wf e hs
  | atmc => exact execAtmc_wf e hs
  | matrixCommandComplete => exact execMatrixCommandComplete_wf e hs
  | chainStart => exact execChainStart_wf e hs
  | copy => exact execCopy_wf e hs
  | copynd => exact execCopynd_wf e hs
  | mcast => exact execMcast_wf e hs
  | fill => exact execFill_wf e hs
  | kvmove => exact execKvmove_wf e hs
  | kvshare => exact execKvshare_wf e hs
  | promote => exact execPromote_wf e hs
  | demote => exact execDemote_wf e hs
  | kvmark => exact execKvmark_wf e hs
  | loop => exact execLoop_wf e hs
  | cond => exact execCond_wf e hs
  | note => exact execNote_wf e hs
  | waitev => exact execWaitev_wf e hs
  | commandRetire => exact execCommandRetire_wf e hs
  | evscan => exact execEvscan_wf e hs
  | evcompact => exact execEvcompact_wf e hs
  | evdecay => exact execEvdecay_wf e hs
  | ringStationRun => exact execRingStationRun_wf e hs
  | ringStationStop => exact execRingStationStop_wf e hs
  | wloadComplete => exact execWloadComplete_wf e hs
  | rpair => exact execRpair_wf e hs
  | bypass => exact execBypass_wf e hs
  | tagPresentation => exact execTagPresentation_wf e hs
  | dispatchRound1 => exact execDispatchRound1_wf e hs
  | frameClose => exact execFrameClose_wf e hs
  | segmentLanding => exact execSegmentLanding_wf e hs
  | landingAcknowledgement => exact execLandingAcknowledgement_wf e hs
  | ackTimeoutResend => exact execAckTimeoutResend_wf e hs
  | slotPark => exact execSlotPark_wf e hs
  | parkRetry => exact execParkRetry_wf e hs
  | scrub => exact execScrub_wf e hs
  | postedWrite => exact execPostedWrite_wf e hs
  | slotReinject => exact execSlotReinject_wf e hs
  | readRequest => exact execReadRequest_wf e hs
  | readResponse => exact execReadResponse_wf e hs
  | acknowledgement => exact execAcknowledgement_wf e hs
  | remoteAtomic => exact execRemoteAtomic_wf e hs
  | atomicResult => exact execAtomicResult_wf e hs
  | planTransfer => exact execPlanTransfer_wf e hs
  | consignmentStore => exact execConsignmentStore_wf e hs
  | timing => exact execTiming_wf e hs
  | sync => exact execSync_wf e hs
  | failureNotice => exact execFailureNotice_wf e hs
  | slotResendRequest => exact execSlotResendRequest_wf e hs
  | linkError => exact execLinkError_wf e hs
  | linkRetrainEnd => exact execLinkRetrainEnd_wf e hs
  | mergedWrite => exact execMergedWrite_wf e hs
  | triggerWrite => exact execTriggerWrite_wf e hs
  | planFiringStart => exact execPlanFiringStart_wf e hs
  | planFiringComplete => exact execPlanFiringComplete_wf e hs
  | planStall => exact execPlanStall_wf e hs
  | planHoldNotice => exact execPlanHoldNotice_wf e hs
  | planReleaseNotice => exact execPlanReleaseNotice_wf e hs
  | holdCeilingExpiry => exact execHoldCeilingExpiry_wf e hs
  | planAbortNotice => exact execPlanAbortNotice_wf e hs
  | manifestEntry => exact execManifestEntry_wf e hs
  | confirmation => exact execConfirmation_wf e hs
  | publishTime => exact execPublishTime_wf e hs
  | publish => exact execPublish_wf e hs
  | bondDrain => exact execBondDrain_wf e hs
  | censusNotice => exact execCensusNotice_wf e hs
  | abortRequest => exact execAbortRequest_wf e hs
  | abortNotice => exact execAbortNotice_wf e hs
  | cnwaitExpiry => exact execCnwaitExpiry_wf e hs
  | destinationHoldExpiry => exact execDestinationHoldExpiry_wf e hs
  | ethernetSend => exact execEthernetSend_wf e hs
  | ethernetWrite => exact execEthernetWrite_wf e hs
  | ethernetAck => exact execEthernetAck_wf e hs
  | contextTeardown => exact execContextTeardown_wf e hs
  | ethernetLinkDown => exact execEthernetLinkDown_wf e hs
  | ethernetAckTimeout => exact execEthernetAckTimeout_wf e hs
  | telemetryUpdate => exact execTelemetryUpdate_wf e hs
  | deviceReset => exact execDeviceReset_wf e hs
  | attestationRequest => exact execAttestationRequest_wf e hs
  | ringcfgWrite => exact execRingcfgWrite_wf e hs
  | combiningBufferExpiry => exact execCombiningBufferExpiry_wf e hs
  | orphanPlaceDiscard => exact execOrphanPlaceDiscard_wf e hs
  | negativeAcknowledgement => exact execNegativeAcknowledgement_wf e hs
  | planReservation => exact execPlanReservation_wf e hs

/-- Settles O57: a next state comes from a turn without a word, from an instruction or from a move of the world outside, each of which
keeps memory in its canonical form. -/
theorem stepKeepsMemoryCanonical : Obligations.StepKeepsMemoryCanonical := by
  intro s t hs e
  obtain ⟨_, _, _, _, hm, hw⟩ | ⟨_, _, _, _, _, _, hm, hw, he⟩ | ⟨_, _, _, hm, he⟩ | ⟨_, _, hm, rfl⟩ := step_cases e
  · exact issueW_wf hw (mk_wf (nextMove_wf hm hs))
  · exact exec_wf he (issueW_wf hw (mk_wf (nextMove_wf hm hs)))
  · exact exec_wf he (mk_wf (nextMove_wf hm hs))
  · exact outside_wf (nextMove_wf hm hs)

end Sys2Proof.Machine
